-- ==== Sys2Proof/Word.lean ====
section
/-! DEFINITION. The word types of the SFM-6440 model and their plainest arithmetic. -/

namespace Sys2Proof

/-- One byte of any memory of the module. -/
abbrev Byte := BitVec 8

/-- A 64-bit register, scalar register or descriptor word. -/
abbrev Word := BitVec 64

/-- The code of an IEEE 754 binary32 value (02, R34). -/
abbrev F32 := BitVec 32

/-- A logical quire number (R11, R19). -/
abbrev QuireId := Fin 64

/-- A task context of a quire (R10 table of names; R274). -/
abbrev TaskId := Fin 4

/-- A chip-to-chip link (R23). -/
abbrev LinkId := Fin 26

/-- A folio (R15). -/
abbrev FolioId := Fin 16

end Sys2Proof
end

