-- ==== Sys2Proof/Syntax.lean ====
section
/-! DEFINITION. The commands of the block: one constructor of `Instr` per row of spec/opcode_table.json. -/

namespace Sys2Proof

/-- A bit error present in a memory of a quire and not yet repaired (log entry 9). `mem`: 0 weight, 1 moment, 2 scale
array, 3 gradient, 4 activation, 5 partial-sum, 6 staging; `word`: the code word (R132) or, for a scratchpad, the
byte; `bits`: how many bits of it and of its check bits are wrong. -/
structure Upset where
  mem : Nat
  word : Nat
  bits : Nat
deriving DecidableEq, Repr

/-- The body of a command packet (R429): FLAGS, TAG, the four reserved bytes and P0 to P6. -/
structure Packet where
  flags : BitVec 8
  tag : BitVec 16
  rsvd : BitVec 32
  p : Vector Word 7
deriving DecidableEq, Repr

/-- What FAULT_PATH stands for (R468): a raised fault reaches the fault latch, or a fault is raised that no other row raises. -/
inductive FaultSource where
  /-- The fault that comes first of those raised reaches the latch. -/
  | raised
  /-- The next word of a task names an opcode the map does not list (R284). -/
  | unlistedOpcode (q : QuireId) (t : TaskId)
  /-- A task's next instruction lies past the last of its code (R288). -/
  | fetchPast (q : QuireId) (t : TaskId)
  /-- The ring stop of a site finds a parity error in the slot that passes it on a leg (R99 R117 R125). -/
  | slotParity (folio : FolioId) (site : Fin 5) (back : Bool)
  /-- Any other part of an enabled or fenced site fails (R29 R30). -/
  | site (folio : FolioId) (site : Fin 5)
deriving DecidableEq, Repr

/-- What a cold power-on meets (R459): the environment's side of the boot (log entry 31). -/
structure BootEnv where
  /-- The firmware image of the flash verifies (R458). -/
  imageOk : Bool
  /-- The colophon can be read. -/
  colophonReadable : Bool
  /-- The colophon's signature verifies (R461). -/
  colophonSigned : Bool
  /-- The identity key unwraps (R463). -/
  keyOk : Bool
  /-- The site whose self-test fails, if any: folio and site (R460). -/
  selftestFail : Option (FolioId × Fin 5)
  /-- The controllers that fail to train, one bit each. -/
  mcFail : BitVec 4
  /-- The module reference is present. -/
  reference : Bool
  /-- The lanes that pass link training, per link. -/
  lanes : Vector (BitVec 8) 26
  /-- Milliseconds from power-on to READY. -/
  bootMs : Nat
deriving DecidableEq, Repr

/-- A host request that may have to be turned away (R421 R14). -/
structure HostRequest where
  bar : Fin 8
  offset : Nat
  width : Nat
  write : Bool
deriving DecidableEq, Repr

/-- A doorbell bit that a receiver has not taken (R444). -/
inductive DoorbellAt where
  /-- Bit n toward the bindery or relayed by the host. -/
  | fromHost (n : Fin 32)
  /-- Bit n toward the host. -/
  | toHost (n : Fin 32)
  /-- Bit n rung by quire q toward the bindery. -/
  | fromQuire (q : QuireId) (n : Fin 32)
  /-- Bit n rung toward quire q. -/
  | toQuire (q : QuireId) (n : Fin 32)
deriving DecidableEq, Repr

/-- The commands of the block. An instruction row names the quire, the task and the 64-bit instruction word; it comes
about only where that word is the one the task's code holds at its PC (log entry 1). -/
inductive Instr where
  /-- NOP (R284). -/
  | nop (q : QuireId) (t : TaskId) (w : Word)
  /-- ALU (R286). -/
  | alu (q : QuireId) (t : TaskId) (w : Word)
  /-- ADDI (R286). -/
  | addi (q : QuireId) (t : TaskId) (w : Word)
  /-- ANDI (R286). -/
  | andi (q : QuireId) (t : TaskId) (w : Word)
  /-- ORI (R286). -/
  | ori (q : QuireId) (t : TaskId) (w : Word)
  /-- XORI (R286). -/
  | xori (q : QuireId) (t : TaskId) (w : Word)
  /-- SHLI (R286). -/
  | shli (q : QuireId) (t : TaskId) (w : Word)
  /-- SHRI (R286). -/
  | shri (q : QuireId) (t : TaskId) (w : Word)
  /-- SRAI (R286). -/
  | srai (q : QuireId) (t : TaskId) (w : Word)
  /-- SLTI (R286). -/
  | slti (q : QuireId) (t : TaskId) (w : Word)
  /-- LI (R286). -/
  | li (q : QuireId) (t : TaskId) (w : Word)
  /-- LIH (R286). -/
  | lih (q : QuireId) (t : TaskId) (w : Word)
  /-- GETS (R287). -/
  | gets (q : QuireId) (t : TaskId) (w : Word)
  /-- BR (R288). -/
  | br (q : QuireId) (t : TaskId) (w : Word)
  /-- J (R288). -/
  | j (q : QuireId) (t : TaskId) (w : Word)
  /-- CALL (R288). -/
  | call (q : QuireId) (t : TaskId) (w : Word)
  /-- RET (R288). -/
  | ret (q : QuireId) (t : TaskId) (w : Word)
  /-- IDLE (R273). -/
  | idle (q : QuireId) (t : TaskId) (w : Word)
  /-- YIELD (R273). -/
  | yield (q : QuireId) (t : TaskId) (w : Word)
  /-- END (R276). -/
  | endTask (q : QuireId) (t : TaskId) (w : Word)
  /-- RINGDB (R289). -/
  | ringdb (q : QuireId) (t : TaskId) (w : Word)
  /-- GETDB (R289). -/
  | getdb (q : QuireId) (t : TaskId) (w : Word)
  /-- TILE (R77). -/
  | tile (q : QuireId) (t : TaskId) (w : Word)
  /-- WPANEL (R140). -/
  | wpanel (q : QuireId) (t : TaskId) (w : Word)
  /-- VOP (R195). -/
  | vop (q : QuireId) (t : TaskId) (w : Word)
  /-- INJECT (R291). -/
  | inject (q : QuireId) (t : TaskId) (w : Word)
  /-- LAND (R108). -/
  | land (q : QuireId) (t : TaskId) (w : Word)
  /-- COPY (R108). -/
  | copy (q : QuireId) (t : TaskId) (w : Word)
  /-- REDUCE (R115). -/
  | reduce (q : QuireId) (t : TaskId) (w : Word)
  /-- SPLICE (R114). -/
  | splice (q : QuireId) (t : TaskId) (w : Word)
  /-- STREAM (R176). -/
  | stream (q : QuireId) (t : TaskId) (w : Word)
  /-- SDLOAD (R173). -/
  | sdload (q : QuireId) (t : TaskId) (w : Word)
  /-- WAITS (R177). -/
  | waits (q : QuireId) (t : TaskId) (w : Word)
  /-- WAITW (R182). -/
  | waitw (q : QuireId) (t : TaskId) (w : Word)
  /-- SWAP (R172). -/
  | swap (q : QuireId) (t : TaskId) (w : Word)
  /-- SETHP (R292). -/
  | sethp (q : QuireId) (t : TaskId) (w : Word)
  /-- LWAIT (R377). -/
  | lwait (q : QuireId) (t : TaskId) (w : Word)
  /-- XWAIT (R321). -/
  | xwait (q : QuireId) (t : TaskId) (w : Word)
  /-- UPD (R247). -/
  | upd (q : QuireId) (t : TaskId) (w : Word)
  /-- UGET (R261). -/
  | uget (q : QuireId) (t : TaskId) (w : Word)
  /-- USTAT (R257). -/
  | ustat (q : QuireId) (t : TaskId) (w : Word)
  /-- TILE_DRAIN (R79): the drain of the oldest finished set of quire q. -/
  | tileDrain (q : QuireId)
  /-- GATHERING_RESUME (R120): the halted gathering of quire q, after that many halted periods. -/
  | gatheringResume (q : QuireId) (periods : Nat)
  /-- RUN_AHEAD_START (R178): the scan of quire q starts the next read it meets. -/
  | runAheadStart (q : QuireId)
  /-- LANDING_COMPLETE (R176): pending landing number ix of quire q, counted from the oldest. -/
  | landingComplete (q : QuireId) (ix : Nat)
  /-- WRITE_COMPLETE (R182): incomplete far-memory write number ix of quire q, counted from the oldest. -/
  | writeComplete (q : QuireId) (ix : Nat)
  /-- MESSAGE_ACCEPT (R373): the send port takes its oldest waiting message. -/
  | messageAccept (port : LinkId)
  /-- MESSAGE_LANDED (R376): the oldest message being received on the port. -/
  | messageLanded (port : LinkId)
  /-- DATA_FLIT (R369): the 256 bytes received. -/
  | dataFlit (link : LinkId) (bytes : List Byte)
  /-- CTRL_FLIT (R374): the 256 bytes received. -/
  | ctrlFlit (link : LinkId) (bytes : List Byte)
  /-- HEARTBEAT_FLIT (R370): the 256 bytes received. -/
  | heartbeatFlit (link : LinkId) (bytes : List Byte)
  /-- TRAIN_FLIT (R382): what the peer reports (log entry 20). -/
  | trainFlit (link : LinkId) (phys : Nat) (deviceId : BitVec 32) (peerPort : Nat) (job : Word)
  /-- FAULT_FLIT (R381): the 256 bytes received. -/
  | faultFlit (link : LinkId) (bytes : List Byte)
  /-- REPLAY_TIMEOUT (R369). -/
  | replayTimeout (link : LinkId)
  /-- ACK_TIMEOUT (R368). -/
  | ackTimeout (link : LinkId)
  /-- HEARTBEAT_TIMEOUT (R370). -/
  | heartbeatTimeout (link : LinkId)
  /-- SILENCE (R370). -/
  | silence (link : LinkId)
  /-- PROMISE (R379). -/
  | promise (port : LinkId)
  /-- PARTIAL (R379). -/
  | partialMsg (port : LinkId)
  /-- LINK_TRAINING (R382). -/
  | linkTraining (link : LinkId)
  /-- LINK_TRAINED (R383): the lanes that pass. -/
  | linkTrained (link : LinkId) (lanes : BitVec 8)
  /-- BACKGROUND_RETRAIN (R384). -/
  | backgroundRetrain
  /-- FAULT_PATH (R468): where the fault comes from. -/
  | faultPath (src : FaultSource)
  /-- FAULT_RECORD (R468). -/
  | faultRecord
  /-- WAIT_TIMEOUT (R320). -/
  | waitTimeout (q : QuireId) (t : TaskId)
  /-- THROTTLE_RESUME (R327): the throttled gathering of quire q, after that many halted periods. -/
  | throttleResume (q : QuireId) (periods : Nat)
  /-- DROOP_STRETCH (R347): the droop that the folio's sensor reads, in mV below nominal. -/
  | droopStretch (folio : FolioId) (droop : Nat)
  /-- OPERATING_POINT_CHANGE (R345). -/
  | operatingPointChange
  /-- REFERENCE_LOSS (R348). -/
  | referenceLoss
  /-- HOLDOVER_EXPIRY (R349). -/
  | holdoverExpiry
  /-- REFERENCE_TIMEOUT (R349). -/
  | referenceTimeout
  /-- REFERENCE_RETURN (R350). -/
  | referenceReturn
  /-- POWER_TRIP (R354): the sample of input power of the tick, in watts and 1/65536 W. -/
  | powerTrip (watts fraction : BitVec 16)
  /-- THERMAL_TRIP (R355): the reading. -/
  | thermalTrip (sensor : Fin 24) (temp : BitVec 16)
  /-- THERMAL_WARNING (R355): the reading. -/
  | thermalWarning (sensor : Fin 24) (temp : BitVec 16)
  /-- POWER_DOMAIN_ON (R352). -/
  | powerDomainOn (pd : Fin 30)
  /-- SCRUB (R150): how many idle lc of the tick the engine finds on the weight port and on the moment port, and the bit errors that have come up in the quire's memories (log entries 9, 40). -/
  | scrub (q : QuireId) (wIdle mIdle : Nat) (upsets : List Upset)
  /-- FIX_QUEUE_WRITEBACK (R149). -/
  | fixQueueWriteback (q : QuireId) (bank : Fin 4)
  /-- TRACE_INCIDENT_END (R476). -/
  | traceIncidentEnd (folio : FolioId)
  /-- WATCHDOG (R466). -/
  | watchdog
  /-- COLD_POWER_ON (R459): what the boot meets. -/
  | coldPowerOn (env : BootEnv)
  /-- POWER_LOSS (R494). -/
  | powerLoss
  /-- PERST_N_ASSERT (R499). -/
  | perstAssert
  /-- PERST_N_RELEASE (R499). -/
  | perstRelease
  /-- BAR4_WRITE (R426). -/
  | bar4Write (offset : Nat) (bytes : List Byte)
  /-- BAR4_READ (R426). -/
  | bar4Read (offset : Nat) (length : Nat)
  /-- UNSUPPORTED_REQUEST (R421): the request. -/
  | unsupportedRequest (req : HostRequest)
  /-- COMPLETION_TIMEOUT (R441): the command whose request was not completed. -/
  | completionTimeout (ring : Fin 4) (tag : BitVec 16)
  /-- DB_IN_SET (R443). -/
  | dbInSet (value : BitVec 32)
  /-- DB_OUT (R445). -/
  | dbOut (value : BitVec 32)
  /-- DB_IN_MASK (R443). -/
  | dbInMask (value : BitVec 32)
  /-- DB_OUT_MASK (R446). -/
  | dbOutMask (value : BitVec 32)
  /-- QMASK (R443). -/
  | qmask (q : QuireId) (value : Word)
  /-- QUIRE_DOORBELL (R445). -/
  | quireDoorbell (q : QuireId)
  /-- DB_TIMEOUT (R444): the doorbell still set. -/
  | dbTimeout (db : DoorbellAt)
  /-- RING_CFG (R450). -/
  | ringCfg (ring : Fin 4) (value : Word)
  /-- HEARTBEAT (R444). -/
  | heartbeat (value : BitVec 32)
  /-- BAR4_SEG (R450). -/
  | bar4Seg (value : Word)
  /-- FENCE (R397). -/
  | fence (window : Fin 4) (value : Word)
  /-- PD_REQ (R352). -/
  | pdReq (value : Word)
  /-- DROOP_CFG (R357). -/
  | droopCfg (value : Word)
  /-- RECOVERY_GO (R467): the write, and whether the image verifies (log entry 12). -/
  | recoveryGo (value : Word) (verified : Bool)
  /-- REGISTER_WRITE (R12): a write of width bytes through BAR0 or BAR2. -/
  | registerWrite (bar2 : Bool) (offset : Nat) (width : Nat) (value : Word)
  /-- NOP_COMMAND (R434). -/
  | nopCommand (ring : Fin 4) (pkt : Packet)
  /-- QUERY (R440): the packet, and what the host link has answered (log entry 11). -/
  | query (ring : Fin 4) (pkt : Packet) (host : Option (List Byte))
  /-- LOAD_PROGRAM (R438): the packet, and what the host link has answered (log entry 11). -/
  | loadProgram (ring : Fin 4) (pkt : Packet) (host : Option (List Byte))
  /-- LOAD_REGION (R439). -/
  | loadRegion (ring : Fin 4) (pkt : Packet)
  /-- EXPORT_REGION (R439). -/
  | exportRegion (ring : Fin 4) (pkt : Packet)
  /-- START_TASK (R436). -/
  | startTask (ring : Fin 4) (pkt : Packet)
  /-- ABORT_TASK (R437). -/
  | abortTask (ring : Fin 4) (pkt : Packet)
  /-- SET_STEP (R243). -/
  | setStep (ring : Fin 4) (pkt : Packet)
  /-- RUN_UPDATE (R244). -/
  | runUpdate (ring : Fin 4) (pkt : Packet)
  /-- READ_LEDGER (R62): the packet, and what the host link has answered (log entry 11). -/
  | readLedger (ring : Fin 4) (pkt : Packet) (host : Option (List Byte))
  /-- READ_TELEMETRY (R440): the packet, and what the host link has answered (log entry 11). -/
  | readTelemetry (ring : Fin 4) (pkt : Packet) (host : Option (List Byte))
  /-- SET_OPERATING_POINT (R344). -/
  | setOperatingPoint (ring : Fin 4) (pkt : Packet)
  /-- SET_TOPOLOGY (R387). -/
  | setTopology (ring : Fin 4) (pkt : Packet)
  /-- TOPOLOGY_WAIT_EXPIRY (R387). -/
  | topologyWaitExpiry
  /-- LINK_CONTROL_RETRAIN (R385). -/
  | linkControlRetrain (ring : Fin 4) (pkt : Packet)
  /-- LINK_CONTROL_DISABLE (R385). -/
  | linkControlDisable (ring : Fin 4) (pkt : Packet)
  /-- LINK_CONTROL_ENABLE (R385). -/
  | linkControlEnable (ring : Fin 4) (pkt : Packet)
  /-- LINK_CONTROL_CLEAR (R385). -/
  | linkControlClear (ring : Fin 4) (pkt : Packet)
  /-- RESET_COMPUTE (R471). -/
  | resetCompute (ring : Fin 4) (pkt : Packet)
  /-- FW_UPDATE (R465): the packet, the host's data, and whether the image verifies and reads back (log entry 12). -/
  | fwUpdate (ring : Fin 4) (pkt : Packet) (host : Option (List Byte)) (verified written : Bool)
  /-- ATTEST (R464): the packet, and what the host link has answered (log entry 11). -/
  | attest (ring : Fin 4) (pkt : Packet) (host : Option (List Byte))
  /-- FENCED_COMMAND_START (R429). -/
  | fencedCommandStart (ring : Fin 4)
  /-- COMMAND_COMPLETION (R434). -/
  | commandCompletion (ring : Fin 4)
  /-- TASK_COMPLETION (R436). -/
  | taskCompletion (ring : Fin 4) (tag : BitVec 16)
  /-- IDENT (R501). -/
  | ident
  /-- STATUS (R501). -/
  | status
  /-- FAULT (R501). -/
  | fault
  /-- POWER (R501). -/
  | power
  /-- TEMP_MAX (R501). -/
  | tempMax
  /-- ALERT_CLEAR (R501). -/
  | alertClear
  /-- ALERT_RESPONSE (R501). -/
  | alertResponse
  /-- MSIX_VECTOR_UNMASK (R446). -/
  | msixVectorUnmask (vector : Fin 32)
  /-- UNCORRECTABLE_FLIT (R369). -/
  | uncorrectableFlit (link : LinkId)
  /-- FAULT_FLIT_RESEND (R381). -/
  | faultFlitResend (link : LinkId)
  /-- PCI_EXPRESS_LINK_DOWN (R444). -/
  | pcieLinkDown
  /-- D3HOT (R444): whether the function goes to D3hot, not back to D0. -/
  | d3hot (enter : Bool)
deriving DecidableEq, Repr

end Sys2Proof
end

