-- ==== Sys2Proof/Decode.lean ====
section
/-! DEFINITION. The command that a word of the table's bits spells. The table gives no row bits, so no word spells a
command. -/

namespace Sys2Proof

/-- No row of spec/opcode_table.json has bits, so a word spells no command (log entry 1). -/
def decodeTableWord (_nbits _w : Nat) : Option Instr := none

end Sys2Proof
end

