-- ==== Sys2Proof/Config.lean ====
section
/-! DEFINITION. What an implementation fixes and the values the spec leaves open: constants with no body. -/

namespace Sys2Proof.Config

/-- The free values of the model: value number n of a run is `freeBits n`, whatever the open value is (log entry 4). -/
opaque freeBits : Nat → BitVec 64

/-- What an ECC decoder makes of an error beyond its code's guarantee in a word (R148): 0 detected, 1 corrected with
wrong data, 2 passed without report; any other value reads as 0 (log entry 4). -/
opaque beyondGuarantee : Nat → Nat

/-- The wrong data such a word delivers, byte by byte (R148; log entry 4). -/
opaque wrongByte : Nat → Byte

/-- Which of two error patterns a flit's decoder takes where both explain the bytes received: true takes the one that
changes byte 255 (log entry 13). -/
opaque flitTie : List Byte → Bool

/-- The PSS signature of the module's identity key over a message (R464; log entry 12). -/
opaque identitySign : List Byte → List Byte

/-- The modulus of the module's identity key (R464; log entry 12). -/
opaque identityModulus : List Byte

end Sys2Proof.Config
end

