-- ==== Sys2Proof/Machine/Bits.lean ====
section
/-! DEFINITION. Bit fields, little-endian byte order and sign extension, shared by every unit. -/

namespace Sys2Proof.Machine

/-- Bits [lo+len-1:lo] of a natural number. -/
def bitsOf (n lo len : Nat) : Nat := (n >>> lo) % 2 ^ len

/-- Bits [lo+len-1:lo] of a word, as a number. -/
def fld (w : Word) (lo len : Nat) : Nat := bitsOf w.toNat lo len

/-- One bit of a word. -/
def bit (w : Word) (i : Nat) : Bool := fld w i 1 == 1

/-- The mask of bits [lo+len-1:lo]. -/
def maskOf (lo len : Nat) : Word := BitVec.ofNat 64 ((2 ^ len - 1) <<< lo)

/-- A word with bits [lo+len-1:lo] replaced by the low bits of v. -/
def setFld (w : Word) (lo len v : Nat) : Word :=
  (w &&& ~~~ maskOf lo len) ||| (BitVec.ofNat 64 ((v % 2 ^ len) <<< lo))

/-- 1 for true. -/
def b2n (b : Bool) : Nat := if b then 1 else 0

/-- A word built from fields (position, length, value), low bits of each value kept. -/
def packFlds (fs : List (Nat × Nat × Nat)) : Word :=
  fs.foldl (fun w f => setFld w f.1 f.2.1 f.2.2) 0

/-- The two's-complement reading of a len-bit field value. -/
def toSigned (v len : Nat) : Int := if v < 2 ^ (len - 1) then (v : Int) else (v : Int) - 2 ^ len

/-- A field of a word, sign-extended. -/
def sfld (w : Word) (lo len : Nat) : Int := toSigned (fld w lo len) len

/-- The n low bytes of a number, least significant first (R9). -/
def bytesLE : Nat → Nat → List Byte
  | 0, _ => []
  | n + 1, v => BitVec.ofNat 8 v :: bytesLE n (v / 256)

/-- The number that bytes spell, least significant first (R9). -/
def ofBytesLE : List Byte → Nat
  | [] => 0
  | b :: bs => b.toNat + 256 * ofBytesLE bs

/-- The bytes of a list from position `off`, `n` of them, a missing one read as 0. -/
def slice (bs : List Byte) (off n : Nat) : List Byte :=
  let p := (bs.drop off).take n
  p ++ List.replicate (n - p.length) 0

/-- The n-byte little-endian number at offset `off` of a list of bytes. -/
def numAt (bs : List Byte) (off n : Nat) : Nat := ofBytesLE (slice bs off n)

/-- Cuts a list into pieces of n elements, `k` pieces. -/
def pieces {α : Type} (n : Nat) : Nat → List α → List (List α)
  | 0, _ => []
  | k + 1, xs => xs.take n :: pieces n k (xs.drop n)

/-- Saturating increment of a counter of `len` bits. -/
def satAdd (len a n : Nat) : Nat := min (2 ^ len - 1) (a + n)

/-- Integer division rounded up. -/
def ceilDiv (a b : Nat) : Nat := (a + b - 1) / b

/-- The numbers of the set bits among the low n bits of v. -/
def setBits (v n : Nat) : List Nat := (List.range n).filter (fun i => bitsOf v i 1 == 1)

/-- The number with the listed bits set. -/
def maskOfList (is : List Nat) : Nat := is.foldl (fun a i => a ||| (1 <<< i)) 0

end Sys2Proof.Machine
end

