-- ==== Sys2Proof/Machine/Num.lean ====
section
/-! DEFINITION. Number formats, F32 arithmetic, narrowing, dot chunks and the generators (file 02). -/

namespace Sys2Proof.Machine

/-- The value of a code: NaN, an infinity, or (−1)^neg · m · 2^e exactly (R34). -/
inductive FV where
  | nan
  | inf (neg : Bool)
  | fin (neg : Bool) (m : Nat) (e : Int)
deriving DecidableEq, Repr

/-- The element formats of R33, and binary64 for the norms and sums (R232 R257). -/
inductive Fmt where
  | e2m1 | e4m3 | e5m2 | b16 | f32 | f64
deriving DecidableEq, Repr

/-- Exponent bits of a format (R33). -/
def Fmt.ebits : Fmt → Nat
  | .e2m1 => 2 | .e4m3 => 4 | .e5m2 => 5 | .b16 => 8 | .f32 => 8 | .f64 => 11

/-- Fraction bits of a format (R33). -/
def Fmt.mbits : Fmt → Nat
  | .e2m1 => 1 | .e4m3 => 3 | .e5m2 => 2 | .b16 => 7 | .f32 => 23 | .f64 => 52

/-- Exponent bias of a format (R34). -/
def Fmt.bias : Fmt → Int
  | .e2m1 => 1 | .e4m3 => 7 | .e5m2 => 15 | .b16 => 127 | .f32 => 127 | .f64 => 1023

/-- The code of the largest finite value (R34). -/
def Fmt.maxCode : Fmt → Nat
  | .e2m1 => 0x7 | .e4m3 => 0x7E | .e5m2 => 0x7B | .b16 => 0x7F7F | .f32 => 0x7F7F_FFFF
  | .f64 => 0x7FEF_FFFF_FFFF_FFFF

/-- Bits of one element. -/
def Fmt.width (f : Fmt) : Nat := 1 + f.ebits + f.mbits

/-- The canonical NaN code (R35). E2M1 has none; its block carries the NaN (R37) and the code is 0. -/
def Fmt.nanCode : Fmt → Nat
  | .e2m1 => 0 | .e4m3 => 0x7F | .e5m2 => 0x7F | .b16 => 0x7FC0 | .f32 => 0x7FC0_0000
  | .f64 => 0x7FF8_0000_0000_0000

/-- The value of an element code (R34). -/
def decodeCode (f : Fmt) (code : Nat) : FV :=
  let neg := bitsOf code (f.width - 1) 1 == 1
  let ex := bitsOf code f.mbits f.ebits
  let fr := bitsOf code 0 f.mbits
  let kmin : Int := 1 - f.bias - f.mbits
  match f with
  | .e4m3 => if ex == 15 && fr == 7 then .nan
             else if ex == 0 then .fin neg fr kmin else .fin neg (8 + fr) (kmin + ex - 1)
  | .e2m1 => if ex == 0 then .fin neg fr kmin else .fin neg (2 + fr) (kmin + ex - 1)
  | _ => if ex == 2 ^ f.ebits - 1 then (if fr == 0 then .inf neg else .nan)
         else if ex == 0 then .fin neg fr kmin
         else .fin neg (2 ^ f.mbits + fr) (kmin + ex - 1)

/-- The value of an F32 code. -/
def f32Val (x : F32) : FV := decodeCode .f32 x.toNat

/-- m · 2^(−s) rounded to the nearest integer, ties to even; exact where s ≤ 0. -/
def shiftRNE (m : Nat) (s : Int) : Nat :=
  if s ≤ 0 then m <<< (-s).toNat
  else
    let k := s.toNat
    let q := m >>> k
    let r := m % 2 ^ k
    let half := 2 ^ (k - 1)
    if r > half || (r == half && q % 2 == 1) then q + 1 else q

/-- floor(m · 2^(−s)). -/
def shiftFloor (m : Nat) (s : Int) : Nat :=
  if s ≤ 0 then m <<< (-s).toNat else m >>> s.toNat

/-- floor(log2(m · 2^e)) for m ≠ 0. -/
def flog (m : Nat) (e : Int) : Int := (Nat.log2 m : Int) + e

/-- The exponent of the quantum of the binade of m · 2^e in a format, or of its subnormals (R50, step 3). -/
def quantum (f : Fmt) (m : Nat) (e : Int) : Int :=
  max (flog m e - f.mbits) (1 - f.bias - f.mbits)

/-- The magnitude code of n quanta of exponent k: the binade arithmetic carries into the exponent field. -/
def magCode (f : Fmt) (k : Int) (n : Nat) : Nat :=
  ((k - (1 - f.bias - f.mbits)).toNat <<< f.mbits) + n

/-- The sign bit of a format. -/
def signBit (f : Fmt) (neg : Bool) : Nat := if neg then 2 ^ (f.width - 1) else 0

/-- F32 result of an exact value: one RNE with gradual underflow, overflow to infinity, canonical NaN (R35 R44 R47). -/
def f32OfVal : FV → F32
  | .nan => 0x7FC0_0000
  | .inf neg => if neg then 0xFF80_0000 else 0x7F80_0000
  | .fin neg m e =>
    if m == 0 then (if neg then 0x8000_0000 else 0)
    else
      let k := quantum .f32 m e
      let c := magCode .f32 k (shiftRNE m (k - e))
      BitVec.ofNat 32 (signBit .f32 neg + min c 0x7F80_0000)

/-- The signed integer of a finite value in units of 2^k, k not above its exponent. -/
def scaledInt (neg : Bool) (m : Nat) (e k : Int) : Int :=
  let v : Int := ((m <<< (e - k).toNat : Nat) : Int)
  if neg then -v else v

/-- The exact sum of two values under IEEE 754: a zero sum of unlike signs is +0. -/
def FV.add : FV → FV → FV
  | .nan, _ => .nan
  | _, .nan => .nan
  | .inf a, .inf b => if a == b then .inf a else .nan
  | .inf a, .fin .. => .inf a
  | .fin .., .inf b => .inf b
  | .fin na ma ea, .fin nb mb eb =>
    if ma == 0 && mb == 0 then .fin (na && nb) 0 0
    else if ma == 0 then .fin nb mb eb
    else if mb == 0 then .fin na ma ea
    else
      let k := min ea eb
      let s := scaledInt na ma ea k + scaledInt nb mb eb k
      if s == 0 then .fin false 0 0 else .fin (s < 0) s.natAbs k

/-- Negation of a value. -/
def FV.neg : FV → FV
  | .nan => .nan
  | .inf a => .inf (!a)
  | .fin a m e => .fin (!a) m e

/-- The exact product of two values under IEEE 754. -/
def FV.mul : FV → FV → FV
  | .nan, _ => .nan
  | _, .nan => .nan
  | .inf a, .inf b => .inf (a != b)
  | .inf a, .fin b m _ => if m == 0 then .nan else .inf (a != b)
  | .fin a m _, .inf b => if m == 0 then .nan else .inf (a != b)
  | .fin a ma ea, .fin b mb eb => .fin (a != b) (ma * mb) (ea + eb)

/-- Multiplication by 2^k, exact. -/
def FV.scale (k : Int) : FV → FV
  | .fin a m e => .fin a m (e + k)
  | v => v

/-- Is the value a zero? -/
def FV.isZero : FV → Bool
  | .fin _ m _ => m == 0
  | _ => false

/-- Is the value finite? -/
def FV.isFin : FV → Bool
  | .fin .. => true
  | _ => false

/-- a < b on values that are no NaN. -/
def FV.lt : FV → FV → Bool
  | .nan, _ => false
  | _, .nan => false
  | .inf a, .inf b => a && !b
  | .inf a, .fin .. => a
  | .fin .., .inf b => !b
  | .fin na ma ea, .fin nb mb eb =>
    let k := min ea eb
    decide (scaledInt na ma ea k < scaledInt nb mb eb k)

/-- a = b on values that are no NaN; the two zeros are equal. -/
def FV.eqv : FV → FV → Bool
  | .nan, _ => false
  | _, .nan => false
  | a, b => !(FV.lt a b) && !(FV.lt b a)

/-- F32 sum (R47). -/
def f32Add (a b : F32) : F32 := f32OfVal (FV.add (f32Val a) (f32Val b))

/-- F32 difference (R47). -/
def f32Sub (a b : F32) : F32 := f32OfVal (FV.add (f32Val a) (f32Val b).neg)

/-- F32 product (R47). -/
def f32Mul (a b : F32) : F32 := f32OfVal (FV.mul (f32Val a) (f32Val b))

/-- a·b + c with one rounding (R47). -/
def f32Fma (a b c : F32) : F32 := f32OfVal (FV.add (FV.mul (f32Val a) (f32Val b)) (f32Val c))

/-- The value of a binary64 word. -/
def f64Val (x : Word) : FV := decodeCode .f64 x.toNat

/-- Binary64 result of an exact value, round to nearest even; its NaN is the quiet NaN with no payload (R232). -/
def f64OfVal : FV → Word
  | .nan => 0x7FF8_0000_0000_0000
  | .inf neg => if neg then 0xFFF0_0000_0000_0000 else 0x7FF0_0000_0000_0000
  | .fin neg m e =>
    if m == 0 then (if neg then 0x8000_0000_0000_0000 else 0)
    else
      let k := quantum .f64 m e
      let c := magCode .f64 k (shiftRNE m (k - e))
      BitVec.ofNat 64 (signBit .f64 neg + min c 0x7FF0_0000_0000_0000)

/-- Binary64 sum (R232). -/
def f64Add (a b : Word) : Word := f64OfVal (FV.add (f64Val a) (f64Val b))

/-- The square of an F32 value, exact in binary64 (R232). -/
def f64Square (x : F32) : Word := f64OfVal (FV.mul (f32Val x) (f32Val x))

/-- Combines two values of which either may be empty (R209). -/
def combineOpt {α : Type} (f : α → α → α) : Option α → Option α → Option α
  | none, b => b
  | a, none => a
  | some a, some b => some (f a b)

/-- One level of the pairwise tree. -/
def treeLevel {α : Type} (f : α → α → α) : List (Option α) → List (Option α)
  | a :: b :: rest => combineOpt f a b :: treeLevel f rest
  | l => l

/-- The pairwise tree of n levels over 2^n leaves, empty leaves passed over (R209 R232). -/
def treeOf {α : Type} (f : α → α → α) : Nat → List (Option α) → Option α
  | 0, l => (l.head?).getD none
  | n + 1, l => treeOf f n (treeLevel f l)

/-- The quotient of two values, enough bits kept and a sticky bit added that every later RNE to F32 or binary64 is
that of the exact quotient. -/
def FV.div : FV → FV → FV
  | .nan, _ => .nan
  | _, .nan => .nan
  | .inf _, .inf _ => .nan
  | .inf a, .fin b _ _ => .inf (a != b)
  | .fin a _ _, .inf b => .fin (a != b) 0 0
  | .fin a ma ea, .fin b mb eb =>
    if mb == 0 then (if ma == 0 then .nan else .inf (a != b))
    else if ma == 0 then .fin (a != b) 0 0
    else
      let sh := Nat.log2 mb + 130
      let n := ma <<< sh
      let q := n / mb
      let st := if n % mb == 0 then 0 else 1
      .fin (a != b) (2 * q + st) (ea - eb - sh - 1)

/-- F32 quotient (R47). -/
def f32Div (a b : F32) : F32 := f32OfVal (FV.div (f32Val a) (f32Val b))

/-- The integer square root, bit by bit from bit b down. -/
def isqrtGo : Nat → Nat → Nat → Nat
  | 0, _, r => r
  | b + 1, n, r => isqrtGo b n (if (r + 2 ^ b) * (r + 2 ^ b) ≤ n then r + 2 ^ b else r)

/-- floor(√n). -/
def isqrt (n : Nat) : Nat := isqrtGo (Nat.log2 n / 2 + 1) n 0

/-- The square root of a value with a sticky bit, as in `FV.div`; the root of −0 is −0. -/
def FV.sqrt : FV → FV
  | .nan => .nan
  | .inf neg => if neg then .nan else .inf false
  | .fin neg m e =>
    if m == 0 then .fin neg 0 0
    else if neg then .nan
    else
      let par := e.toNat % 2 + (-e).toNat % 2
      let m' := m <<< (260 + par)
      let r := isqrt m'
      let st := if r * r == m' then 0 else 1
      .fin false (2 * r + st) ((e - par - 260) / 2 - 1)

/-- F32 square root (R47). -/
def f32Sqrt (a : F32) : F32 := f32OfVal (FV.sqrt (f32Val a))

/-- 1 ÷ √x with one rounding: root of the reciprocal, held with a sticky bit. -/
def FV.rsqrt : FV → FV
  | .nan => .nan
  | .inf neg => if neg then .nan else .fin false 0 0
  | .fin neg m e =>
    if m == 0 then .inf neg
    else if neg then .nan
    else
      let par := e.toNat % 2 + (-e).toNat % 2
      -- 1/sqrt(m·2^e) = sqrt(2^(2h+par) / m) · 2^(−(e+par)/2 − h), with e + par even
      let h := 200 + Nat.log2 m
      let n := 2 ^ (2 * h + par)
      let r := isqrt (n / m)
      let st := if r * r * m == n then 0 else 1
      .fin false (2 * r + st) (-((e + par) / 2) - h - 1)

/-! ## Narrowing (R48–R53) -/

/-- What one narrowed element records in a ledger slot (R50). -/
structure Events where
  sat : Nat
  ftz : Nat
  nans : Nat
  exps : List Int
deriving DecidableEq, Repr

/-- No event. -/
def Events.none : Events := { sat := 0, ftz := 0, nans := 0, exps := [] }

/-- The events of two elements together (R61). -/
def Events.join (a b : Events) : Events :=
  { sat := a.sat + b.sat, ftz := a.ftz + b.ftz, nans := a.nans + b.nans, exps := a.exps ++ b.exps }

/-- The rounding of one element: RNE, or SR with 16 random bits (R49 R52). -/
inductive Rnd where
  | rne
  | sr (rnd : Nat)
deriving DecidableEq, Repr

/-- The kept magnitude of m·2^e in quanta of exponent k (R50 step 3, R52). -/
def roundQuanta (r : Rnd) (m : Nat) (e k : Int) : Nat :=
  match r with
  | .rne => shiftRNE m (k - e)
  | .sr rnd => (shiftFloor m (k - e - 16) + rnd % 65536) / 65536

/-- Narrowing of one element under a scale exponent: the value narrowed is x·2^sh (R50 steps 2–6); sat tells whether
a value above the largest finite one records a saturation event (R51). -/
def narrowScaled (f : Fmt) (r : Rnd) (sh : Int) (satEv : Bool) (x : FV) : Nat × Events :=
  match x with
  | .nan => (f.nanCode, { Events.none with nans := 1 })
  | .inf neg => (signBit f neg + f.maxCode, { Events.none with sat := b2n satEv, exps := [128] })
  | .fin neg m e =>
    if m == 0 then (signBit f neg, Events.none)
    else
      let k := quantum f m (e + sh)
      let c := magCode f k (roundQuanta r m (e + sh) k)
      let big := decide (c > f.maxCode)
      let c' := if big then f.maxCode else c
      (signBit f neg + c',
        { sat := b2n (big && satEv), ftz := b2n (c' == 0), nans := 0, exps := [flog m e] })

/-- Narrowing to B16, E4M3 or E5M2 under an E8M0 scale S (ignored for B16) (R50). -/
def narrowElem (f : Fmt) (scale : Nat) (r : Rnd) (x : FV) : Nat × Events :=
  match f with
  | .b16 => narrowScaled .b16 r 0 true x
  | _ => if scale == 0xFF then (f.nanCode, { Events.none with nans := 1 })
         else narrowScaled f r (127 - (scale : Int)) true x

/-- The larger of two magnitudes' binary logarithms, for finite non-zero values. -/
def maxLog (a : Option Int) : FV → Option Int
  | .fin _ m e => if m == 0 then a else some (match a with | none => flog m e | some b => max b (flog m e))
  | _ => a

/-- The block scale of R51 for element values; emax is 2 for E2M1 and 8 for E4M3. -/
def blockScale (emax : Int) (xs : List FV) : Nat :=
  if xs.any (fun x => match x with | .inf _ => true | _ => false) then 254
  else match xs.foldl maxLog none with
    | none => 0
    | some l => ((max (-127) (min 127 (l - emax))) + 127).toNat

/-- Narrowing of one block of N4 (E2M1) or N8 (E4M3): the scale and, per element, code and events (R37 R51).
An element whose flag is false records nothing (a missing or masked one, R37 R89). -/
def narrowBlock (f : Fmt) (xs : List (FV × Rnd × Bool)) : Nat × List (Nat × Events) :=
  if xs.any (fun x => x.1 == FV.nan) then
    (0xFF, xs.map (fun x => (0, if x.2.2 then { Events.none with nans := 1 } else Events.none)))
  else
    let emax : Int := if f == .e2m1 then 2 else 8
    let s := blockScale emax (xs.map (·.1))
    (s, xs.map (fun x =>
      let r := narrowScaled f x.2.1 (127 - (s : Int)) (s == 254) x.1
      (r.1, if x.2.2 then r.2 else Events.none)))

/-! ## Dot chunks (R42–R46) -/

/-- The largest floor(log2|p|) of the non-zero finite products. -/
def chunkExp (ps : List FV) : Option Int := ps.foldl maxLog none

/-- The window sum and sticky bit of a chunk's finite products at least significant bit 2^k (R43). -/
def chunkWindow (k : Int) (ps : List FV) : Int × Bool :=
  ps.foldl (fun acc p =>
    match p with
    | .fin neg m e =>
      if m == 0 then acc
      else
        let t := shiftFloor m (k - e)
        let lost := decide (k > e) && (m % 2 ^ (k - e).toNat != 0)
        (acc.1 + (if neg then -(t : Int) else (t : Int)), acc.2 || lost)
    | _ => acc) (0, false)

/-- The accumulator after one chunk of products (R43 R44 R46). DESIGN CHOICE: R46 keeps the accumulator where a chunk has "no
non-zero product", which its parenthesis calls W = 0; a chunk whose non-zero products cancel exactly, with none lost, is taken
as W = 0, so the accumulator stays, a −0 included (log entry 47). -/
def chunkAdd (acc : F32) (ps : List FV) : F32 :=
  let posInf := ps.any (fun p => p == .inf false)
  let negInf := ps.any (fun p => p == .inf true)
  if ps.any (fun p => p == .nan) || (posInf && negInf) then 0x7FC0_0000
  else if posInf then f32OfVal (FV.add (f32Val acc) (.inf false))
  else if negInf then f32OfVal (FV.add (f32Val acc) (.inf true))
  else match chunkExp ps with
    | none => acc
    | some ex =>
      let k := ex - 56
      let ws := chunkWindow k ps
      let c := 2 * ws.1 + (if ws.2 then 1 else 0)
      if c == 0 then acc
      else f32OfVal (FV.add (f32Val acc) (.fin (c < 0) c.natAbs (k - 1)))

/-- The chunk has a zero element in every product and no infinite or NaN one (ARRAY.ZERO_CELLS, R91). -/
def zeroChunk (prs : List (FV × FV)) : Bool :=
  prs.all (fun p => p.1.isFin && p.2.isFin && (p.1.isZero || p.2.isZero))

/-! ## Generators (R54–R58) -/

/-- splitmix64 (R55). -/
def splitmix64 (x : Word) : Word :=
  let z := x + 0x9E37_79B9_7F4A_7C15#64
  let z := (z ^^^ (z >>> 30)) * 0xBF58_476D_1CE4_E5B9#64
  let z := (z ^^^ (z >>> 27)) * 0x94D0_49BB_1331_11EB#64
  z ^^^ (z >>> 31)

/-- The state a generator is seeded with (R55). -/
def seedLane (seed : Word) (q lane : Nat) : Word :=
  let z := splitmix64 (seed ^^^ BitVec.ofNat 64 (q <<< 16) ^^^ BitVec.ofNat 64 lane)
  if z == 0 then 0x9E37_79B9_7F4A_7C15#64 else z

/-- One advance of a generator's state (R54). -/
def advance (s : Word) : Word :=
  let s := s ^^^ (s <<< 13)
  let s := s ^^^ (s >>> 7)
  s ^^^ (s <<< 17)

/-- n advances. -/
def advanceN : Nat → Word → Word
  | 0, s => s
  | n + 1, s => advanceN n (advance s)

/-- The 32-bit output formed from a state (R54). -/
def genOut (s : Word) : Nat := ((s * 0x2545_F491_4F6C_DD1D#64) >>> 32).toNat % 2 ^ 32

/-- The output of lane `lane` of quire q in lc L of a run of this seed: each generator advances once per lc from the
run's first lc (R56 R57). -/
def laneOut (seed : Word) (q lane lc : Nat) : Nat := genOut (advanceN (lc + 1) (seedLane seed q lane))

/-- The 16 random bits of the lower-indexed (or only) element of a lane's lc, or of the other (R53). -/
def laneBits (out : Nat) (second : Bool) : Nat := if second then out % 65536 else out / 65536

end Sys2Proof.Machine
end

