-- ==== Sys2Proof/Machine/Units.lean ====
section
/-! DEFINITION. What the units of a quire hold while an operation runs, and the effects that an issued instruction has
still to bring about, each in the lc that the latency tables give it (R77 R82 R140 R177 R203 R247 R306). -/

namespace Sys2Proof.Machine

/-! ## Port accesses (R134 R157 R160 R161 R164 R521) -/

/-- One access that an instruction places on a port of a bank or a scratchpad. -/
structure Access where
  port : Nat                      -- 0 weight, 1 moment, 2 gradient, 3 activation, 4 partial-sum, 5 and 6 staging reads of even and odd rows, 7 and 8 staging writes, 9 to 11 scale ports
  first : Nat                     -- lc, and how many
  span : Nat
  qty : Nat                       -- gradient quarters; 1 on the other ports
  sub : Nat                       -- the quarter that R247 names, plus 1; 0 where none is named
  rank : Nat                      -- place in the precedence of R157 or R164
  x : Nat                         -- issue lc of its instruction
  task : Fin 4
  id : Nat                        -- the row, or the place among the instruction's accesses
deriving DecidableEq, Repr

/-! ## The array (R75 R281) -/

/-- The fields of a tile descriptor. -/
structure TileDesc where
  rowSrc : Nat
  colSrc : Nat
  rowFmt : Nat
  colFmt : Nat
  init : Nat
  setIx : Nat
  ends : Bool
  nchunk : Nat
  ktail : Nat
  convTag : Nat
  preloadRow : Nat
  rowMask : Nat
  colMask : Nat
  dest : Nat
  outFmt : Nat
  rnd : Nat
  deriv : Nat
  biasEn : Bool
  normEn : Bool
  flushSc : Bool
  ledger : Nat
  outScale : Nat
  destRow : Nat
  biasRow : Nat
  biasQtr : Nat
  derivRow : Nat
  tableRow : Nat
  scRow : Nat
deriving DecidableEq, Repr

/-- The fields of word 0 of a tensor descriptor. -/
structure TensorDesc where
  loc : Nat
  tr : Bool
  hpEn : Bool
  hp : Nat
  hpSide : Bool
  scale : Nat
  row : Nat
  cstride : Nat
  scRow : Nat
deriving DecidableEq, Repr

/-- A tile from its issue on: descriptors with the offsets of the issue, operands resolved, lc planned. -/
structure TileOp where
  x : Nat                         -- issue lc
  task : Fin 4
  d : TileDesc
  rt : TensorDesc
  ct : TensorDesc
  retire : Bool
  rowBase : Nat                   -- absolute first row of a scratchpad row operand
  rowSc : Nat                     -- absolute first row of its scale groups
  colBase : Nat                   -- absolute first staging row, or block, of the column operand
  colSc : Nat
  preRow : Nat                    -- absolute
  p : Nat                         -- first lc of preload or chunks
  c0 : Nat                        -- first lc of the first chunk
  n : Nat                         -- lc per chunk
  last : Nat                      -- last lc of the last chunk
  stop : Option Nat               -- first lc that an abandoned chunk does not reach (R93)
deriving DecidableEq, Repr

/-- What the reads of a chunk have delivered so far. -/
structure ChunkBuf where
  row : List Byte
  rowSc : List Byte
  col : List Byte
  colSc : List Byte
  lost : List Nat                 -- its halves of weight blocks that were not served (R157)
deriving DecidableEq, Repr

/-- A finished accumulator set from its tile's issue to the end of its drain (R79). -/
structure Drain where
  x : Nat                         -- issue lc of its tile
  task : Fin 4
  d : TileDesc
  scaleExp : Int                  -- Sa + Sb − 254 for 8-bit pairings, else 0 (R40 R82)
  start : Nat                     -- D (R79 R98)
  after : Nat                     -- lc of row 31 of the drain before it
  destRow : Nat                   -- first absolute destination row
  biasRow : Nat                   -- absolute
  derivRow : Nat                  -- absolute
  tableRow : Nat                  -- absolute
  scRow : Nat                     -- absolute
  writesSc : Bool                 -- its tile fills or flushes the scale collector (R86)
  bias : List Byte                -- the bias row as read
  stash : List Byte               -- the stashed rows read so far
  store : Bool                    -- the table store it uses (R228)
  noTable : Bool                  -- an access of its table has been lost (R237)
  stop : Option Nat               -- the lc from which the stop of its task ends it (R96)
  row : List Byte                 -- bytes of the destination row being formed
  scales : List Nat               -- block scales chosen so far
deriving DecidableEq, Repr

/-! ## The vector engine (R196–R199) -/

/-- Words 0 and 5 of a vector descriptor. -/
structure VecDesc where
  op : Nat
  red : Nat
  lineScope : Bool
  toReg : Bool
  sreg : Nat
  dEn : Bool
  rnd : Nat
  ledger : Nat
  nIn : Nat
  nOut : Nat
  pace : Nat
  redSpad : Nat
  redRow : Nat
  tabRow : Nat
deriving DecidableEq, Repr

/-- The fields of an operand word (R197). -/
structure OperandWord where
  raw : Word
  kind : Nat
  spad : Nat
  fmt : Nat
  hpEn : Bool
  hp : Nat
  side : Bool
  row : Nat
  stride : Nat
  sc : Nat
deriving DecidableEq, Repr

/-- An operand resolved at issue. -/
structure VecSrc where
  used : Bool
  kind : Nat
  spad : Nat
  fmt : Nat
  row : Nat                       -- relative
  base : Nat                      -- absolute first row
  stride : Nat
  scale : Nat
  scRow : Nat                     -- relative
  scBase : Nat                    -- absolute
  value : F32
deriving DecidableEq, Repr

/-- The constants of an operation. -/
structure VecPlan where
  x : Nat                         -- issue lc
  task : Fin 4
  d : VecDesc
  a : VecSrc
  b : VecSrc
  c : VecSrc
  o : VecSrc
  t0 : Nat                        -- lc of beat 0
  mode : Bool                     -- RED_MODE
  redBase : Nat                   -- absolute
  tabBase : Nat                   -- absolute
deriving DecidableEq, Repr

/-- A source row held since the beat that read it. -/
structure HeldRow where
  opd : Nat
  row : Nat
  data : List Byte
  scales : List Byte
  acc : Option Access             -- of a partial-sum row whose port may still be lost (R164)
deriving DecidableEq, Repr

/-- An operation that has beats to enter. -/
structure VecOp where
  plan : VecPlan
  n : Nat                         -- the next beat, or the one entered whose rows are being read
  reading : Option Nat            -- its lc
  tab : List F32                  -- its derivative table
  held : List HeldRow
  codes : List Nat                -- of the destination row being formed
  scs : List Nat                  -- its block scales
  scRow : Nat                     -- the scale row being collected (R204), absolute
  scBytes : List Byte             -- empty where none is
  acc : List (Option F32)         -- the reducer
  redVals : List F32              -- line results of the reduction row being formed
  lastRow : Nat                   -- lc of the last element row commit
  lastIn : Nat                    -- lc of the last beat entered
  cut : Option (Nat × Nat)        -- first beat and issue lc of the VOP that cut it (R210)
deriving DecidableEq, Repr

/-! ## WPANEL (R138) -/

/-- The fields of a panel descriptor. -/
structure PanelDesc where
  block : Nat
  orient : Bool
  fmt : Nat
  scale : Nat
  ledger : Nat
  nblk : Nat
  stride : Nat
  destRow : Nat
  scRow : Nat
deriving DecidableEq, Repr

/-- A panel from its issue on; its rows and blocks are absolute. -/
structure PanelOp where
  x : Nat
  task : Fin 4
  d : PanelDesc
  block : List Byte               -- the halves of the block being read
  lost : List Nat                 -- those of them that were not served (R157)
  chunk : List Byte               -- element bytes of an N4 chunk's first block
  scales : List Byte              -- scale groups collected
deriving DecidableEq, Repr

/-! ## The update engine (R241 R247) -/

/-- The fields of a layer update descriptor. -/
structure LayerDesc where
  rule : Nat
  n8 : Bool
  gkeep : Bool
  sr : Bool
  ledger : Nat
  gslot : Nat
  nsIters : Nat
  eta : F32
  wd : F32
  clip : F32
  mu : F32
  muc : F32
  nu : F32
  nuc : F32
  eps : F32
  bc1 : F32
  bc2 : F32
deriving DecidableEq, Repr

/-- The constants of one UPD. -/
structure UpdPlan where
  x : Nat
  op : Nat
  d : LayerDesc
  f : F32
  block0 : Nat                    -- absolute
  n : Nat
  kept : Bool                     -- keep bit of GSLOT
deriving DecidableEq, Repr

/-- What the engine has read of a block so far. -/
structure BlockIn where
  w : List Byte
  m : List Byte
  sc : List Byte
  g : List Byte
deriving DecidableEq, Repr

/-- What one row comes to: bytes written, block scales, events, and the values whose squares enter the sums. -/
structure RowOut where
  wBytes : List Byte
  mBytes : List Byte
  vBytes : List Byte
  mScale : Nat
  vScale : Nat
  events : Events
  sqA : List F32
  sqB : List F32
deriving DecidableEq, Repr

/-- What a block writes: weights, moments in byte order, scales. -/
structure BlockOut where
  w : List Byte
  m : List Byte
  v : List Byte
  sc : List Byte
  vc : List Byte
deriving DecidableEq, Repr

/-! ## The ring stop and the stream engine -/

/-- An INJECT that runs (R291). -/
structure InjectOp where
  x : Nat
  w : Word
  base : Nat                      -- absolute first row of a scratchpad source
  stop : Option Nat := none       -- the lc from which another INJECT has its leg (R291)
deriving DecidableEq, Repr

/-- A COPY that runs: issue lc, half, scratchpad, absolute first row (R108). -/
structure CopyOp where
  x : Nat
  half : Nat
  spad : Nat
  row : Nat
deriving DecidableEq, Repr

/-! ## Effects in flight -/

/-- One effect that a unit brings about in one lc. -/
inductive Micro where
  | writeRow (a : Access) (bytes : List Byte)
  | writeHalf (half off : Nat) (bytes : List Byte) (st : Nat)
  | ledger (slot : Nat) (ev : Events)
  | claim
  | preload (o : TileOp) (r : Nat)
  | accRow (setIx i : Nat) (vals : List F32)
  | chunk (o : TileOp) (c k : Nat) (b : ChunkBuf)
  | drainTable (x r : Nat)
  | drainBias (x : Nat)
  | drainStash (x r : Nat)
  | drainRow (x i : Nat)
  | drainOut (x i : Nat) (row : List F32)
  | drainAdd (x i : Nat) (row : List (F32 × Bool))
  | drainNorm (slot : Nat) (vals : List (Option F32))
  | gradNorm (slot a : Nat) (on lost : List Bool)
  | drainEnd (x : Nat)
  | collectorRow (a : Access)
  | vecTable (o : VecOp) (r : Nat)
  | vecBeat (o : VecOp)
  | panel (o : PanelOp) (k : Nat)
  | inject (o : InjectOp) (i : Nat) (low : List Byte)
  | injectEnd (half : Nat)
  | land (back : Bool) (half i n : Nat)
  | reduce (back : Bool) (half i : Nat)
  | copy (o : CopyOp) (i k : Nat) (bytes : List Byte)
  | commitRow (x target row k pace : Nat) (rows : List (List Byte))
  | sdload (second : Bool) (row : Nat)
  | send (x target row j k pace len : Nat)
  | sent (x : Nat) (a : Access) (bytes : List Byte)
  | updRead (p : UpdPlan) (j i : Nat) (b : BlockIn)
  | updRow (p : UpdPlan) (j i : Nat) (b : BlockIn) (o : BlockOut)
  | updSum (p : UpdPlan) (a b : List F32)
  | updWrite (p : UpdPlan) (j i : Nat) (o : BlockOut)
deriving DecidableEq, Repr

/-- An effect in flight: its lc, its place within the lc (0 reads, 1 accumulates, 2 writes, R136), its task. -/
structure Event where
  lc : Nat
  ph : Nat
  task : Fin 4
  op : Micro
deriving DecidableEq, Repr

end Sys2Proof.Machine
end

