-- ==== Sys2Proof/Machine/State.lean ====
section
/-! DEFINITION. The state of the module: every register, memory, queue, mode and pin the spec names, as plain data, and
the queue of waiting commands. -/

namespace Sys2Proof.Machine

/-! ## Quires -/

/-- A sparse memory: (address, byte) pairs, addresses strictly rising, no byte equal to the 0 an unlisted address
reads as (log entry 6). -/
abbrev Mem := List Host.Cell

/-- The state of a task context (SEQ.STATE_TASK, R293). -/
inductive TaskState where
  | stopped | running | held | faulted
deriving DecidableEq, Repr

/-- The kinds of blocking wait, in the order of WAIT.FAULT.KIND (R334). -/
inductive WaitKind where
  | waits | waitw | writeStream | lwait | xwait | splice | readStream
deriving DecidableEq, Repr

/-- A half-pair register HPn (R171). -/
structure HalfPair where
  spad : Nat
  rowA : Nat
  rowB : Nat
  front : Bool
deriving DecidableEq, Repr

/-- A read landing of the stream engine, from its start to its commit (R176). -/
structure Landing where
  task : Fin 4
  entry : Nat            -- table entry the descriptor came from (R181)
  desc : List Byte       -- the 32 bytes as captured or used
  pcIndex : Nat          -- index of its STREAM in the code (R183)
  issued : Bool
  x : Nat                -- issue lc of its STREAM
  landed : Bool
  data : List Byte       -- the landed bytes
  ready : Nat            -- first lc of a wait that its landing meets (R120)
  fetched : List (Nat × List Byte)  -- 256 B beats read before a write to them that no rule orders with the read (R180 R419)
  released : Bool        -- no fence holds its read any more (R398)
  target : Nat           -- TARGET, resolved at issue
  firstRow : Nat         -- first absolute row of the target, resolved at issue
  pace : Nat             -- lc per row
  len : Nat              -- rows
  far : Nat              -- FAR: 0 far memory, 1 endpaper
  port : Nat             -- LINK
  faddr : Nat            -- absolute far address, or ring offset
  storeBytes : Nat       -- landing-store space held
deriving DecidableEq, Repr

/-- A commit of a landing: row j is written, and its store space freed, in lc first + j·pace (R177). -/
structure Commit where
  task : Fin 4
  first : Nat
  pace : Nat
  len : Nat
  pastLast : Nat                  -- the lc after its last row
deriving DecidableEq, Repr

/-- A write STREAM in the outbound store (R182). -/
structure OutWrite where
  task : Fin 4
  far : Nat              -- FAR: 0 far memory, 2 send port
  port : Nat
  faddr : Nat
  x : Nat                -- issue lc of its STREAM
  edge : Int             -- clock edge of the die of that lc
  len : Nat              -- rows
  data : List Byte       -- the source rows read so far
  left : Bool            -- cut short at a source row in error: what has been read before it is on its way (R192)
deriving DecidableEq, Repr

/-- A completed write, which still counts as incomplete for a wait of task 0 that is judged before it (R120 R182). -/
structure DoneWrite where
  task : Fin 4
  bytes : Nat
  ready : Nat                     -- first lc of a wait that it meets
deriving DecidableEq, Repr

/-- A scalar-register write not yet readable (R271): the first lc in which it is read. -/
structure PendReg where
  lc : Nat
  reg : Fin 32
  value : Word
  byUnit : Bool                   -- written by a unit, not by an instruction (R296)
deriving DecidableEq, Repr

/-- A descriptor-table half loaded by SDLOAD and not yet usable (R173 R306). -/
structure PendLoad where
  lc : Nat                        -- first lc in which a STREAM uses it
  second : Bool                   -- entries 16–31
  bytes : List Byte
deriving DecidableEq, Repr

/-- One task context (R269). -/
structure Task where
  code : Word                     -- SEQ.CODE_TASK
  pc : BitVec 14                  -- SEQ.PC_TASK; 8,192 once it has passed the last index (R288)
  state : TaskState               -- SEQ.STATE_TASK
  sregs : Vector Word 32          -- SEQ.SREG_TASK
  pend : List PendReg
  bound : Word                    -- SCRATCH.BOUND_TASK
  region : Word                   -- BANK.REGION_TASK
  mwin : Word                     -- STREAM.MWIN_TASK
  hp : Vector HalfPair 8
  sdt : Mem                       -- 32 stream descriptors of 32 B (R173)
  sdtPend : List PendLoad
  arg : Word                      -- argument of the start (R287)
  heldWord : Option Word          -- the instruction held by an unmet wait
  heldKind : WaitKind
  heldCause : Nat                 -- idle cause its periods are booked to (R407)
  heldSince : Nat                 -- stitch tick in which the wait was first found unmet (R320)
  startsAt : Nat                  -- first tick in which it may issue (R436)
  idleUntil : Nat                 -- first lc in which a filler's IDLE no longer holds it (R274)
  joined : Bool                   -- in the rotation of the fillers (R274)
  endedBy : Nat                   -- how the last run ended: 0 not ended, 1 END, 2 abort, 3 fault (R436)
  runLc : Nat                     -- lc count of the run (R436)
deriving DecidableEq, Repr

/-- A ledger slot (R60). -/
structure LedgerSlot where
  sat : Nat
  ftz : Nat
  nans : Nat
  maxExp : Int
  minExp : Int
deriving DecidableEq, Repr

/-- A live or future token claim (R322): lc of the quire's run, both included. -/
structure Claim where
  first : Nat
  last : Nat
  tok : Nat
  task : Fin 4
  drain : Bool
  judged : Bool := false          -- its overdraw has been judged (R325)
deriving DecidableEq, Repr

/-- The memories of a quire (R27). -/
structure QuireMem where
  weight : Mem                    -- 16 MiB
  moment : Mem                    -- 16 MiB
  scale : Mem                     -- scale array, 512 KiB
  grad : Mem                      -- 32 MiB
  act : Mem                       -- 512 KiB
  ps : Mem                        -- 256 KiB
  stg : Mem                       -- 256 KiB
  half0 : Mem                     -- stop-buffer half H0, 4 KiB
  half1 : Mem                     -- stop-buffer half H1
  prog : Mem                      -- program store, 8,192 instructions of 8 B
  descActive : Mem                -- active descriptor store, 1,040 entries of 64 B
  descShadow : Mem                -- shadow descriptor store
deriving DecidableEq, Repr

/-- The array of a quire (file 03). -/
structure ArrayUnit where
  config : Word                   -- ARRAY.CONFIG
  chunks : Word                   -- ARRAY.CHUNKS
  tiles : Word                    -- ARRAY.TILES
  zeroCells : Word                -- ARRAY.ZERO_CELLS
  fault : Word                    -- ARRAY.FAULT
  set0 : List F32                 -- accumulators of set 0, row-major
  set1 : List F32
  running : Option TileOp         -- the tile issued last in the run (R81)
  drains : List Drain             -- tiles whose drain has not begun, oldest first
  draining : List Drain           -- drains in progress
  collector : List Byte           -- N4 scale collector, 32 B per tile (R86)
  lastChunk : Nat                 -- last lc of the last tile's last chunk (R81)
  table0 : List F32               -- derivative table stores (R228)
  table1 : List F32
  nextStore : Bool                -- BWD.STATUS.NEXT_STORE
deriving DecidableEq, Repr

/-- The ring stop of a quire (R122). -/
structure RingStop where
  skew : Word                     -- RSTOP.SKEW
  h0 : Nat                        -- H0_STATE
  h1 : Nat                        -- H1_STATE
  halted : Bool
  waitOwner : Bool
  pass : Bool
  injected : BitVec 16
  consumed : BitVec 16
  reduced : BitVec 16
  landed : BitVec 16
  fault : Word                    -- RSTOP.FAULT
  injFore : Nat                   -- lc of the last slot of the running INJECT on the fore leg plus 1 (R291)
  injBack : Nat
  splice : Option (BitVec 16)     -- mask of an issued SPLICE still waiting (R114)
  stalled : Bool                  -- halted by a throttle (R327)
  clearTo : Nat                   -- before this lc its positions carry no slots, behind a SPLICE (R114)
deriving DecidableEq, Repr

/-- The bank registers of a quire (R154). -/
structure BankUnit where
  scrubCtl : Word
  scrubActive : Word              -- the setting in force: a write takes effect at the next tick (R159)
  scrubStatus : Word
  scrubDefer : Word
  ceCount : Word
  ceGrad : Word
  ceLast : Word
  ueInfo : Word
  portConflict : Word
  repair : Word
  fixQueue : List (Nat × Nat)     -- (bank, word) of corrected words (R149)
  fixNext : Vector Nat 3          -- of the weight bank, the moment bank, the gradient buffer: first lc of the next write-back (R149)
  usedW : Nat                     -- lc of the tick in which the schedule has used the weight port (R150)
  usedM : Nat                     -- and the moment port
  scrubbed : Bool                 -- the tick's rows have been scrubbed (R150)
deriving DecidableEq, Repr

/-- The scratchpad and stream registers of a quire (R188). -/
structure StreamUnit where
  spadConflict : Word             -- SCRATCH.PORT_CONFLICT
  parityInfo : Word               -- SCRATCH.PARITY_INFO
  spadRepair : Word               -- SCRATCH.REPAIR
  discardDesc : Word              -- STREAM.DISCARD_DESC
  discardBytes : Word             -- STREAM.DISCARD_BYTES
  fault : Word                    -- STREAM.FAULT
  landings : List Landing         -- pending landings, in program order
  writes : List OutWrite          -- incomplete writes, in program order
  doneWrites : List DoneWrite
  commits : List Commit           -- commits whose rows may still hold store space
  commitEnd : Nat                 -- lc after the last row of the last commit (R177)
deriving DecidableEq, Repr

/-- An operation of the vector engine (R210 R213). -/
structure VecRun where
  task : Fin 4
  first : Nat                     -- lc of its first beat, and lc from beat to beat
  pace : Nat
  pastLast : Nat                  -- lc after its last beat
  op : Nat
  reduces : Bool
deriving DecidableEq, Repr

/-- An operation of the update engine (R247 R263). -/
structure UpdRun where
  x : Nat                         -- issue lc
  blocks : Nat
  adds : Bool                     -- it adds into SUM_A and SUM_B (R257)
deriving DecidableEq, Repr

/-- The vector engine of a quire (R213). -/
structure VecUnit where
  config : Word
  task : Fin 4
  beats : Word
  cut : Word
  fault : Word
  lastBeat : Nat                  -- lc after the last beat of the last operation (R210)
  op : Nat                        -- its OP, and whether it reduces
  reduces : Bool
  runs : List VecRun              -- operations of the run that are not long over
deriving DecidableEq, Repr

/-- The gradient slots of a quire (R234). -/
structure BwdUnit where
  keepNext : Vector Word 4
  keepActive : Vector Word 4
  norm : Vector Word 256
  discards : Word
deriving DecidableEq, Repr

/-- The update engine of a quire (R262). -/
structure UpdUnit where
  op : Nat
  entry : Nat
  shadowValid : Bool
  loading : Bool
  stepActive : Word
  stepShadow : Word
  sumA : Word
  sumB : Word
  blocks : Word
  discards : Word
  fault : Word
  lastIssue : Nat                 -- lc and block count of the last UPD of the run (R248 R264)
  lastBlocks : Nat
  runs : List UpdRun              -- operations of the run that are not long over
deriving DecidableEq, Repr

/-- The sequencer of a quire (file 10). -/
structure SeqUnit where
  tasks : Vector Task 4
  issued : Word                   -- SEQ.ISSUED
  fault : Word                    -- SEQ.FAULT
  inRun : Bool                    -- a run of task 0 is in progress (R56)
  lc : Nat                        -- the next lc of the run
  past : Nat                      -- lc after the last one in which the sequencer issued (R120)
  winEnd : Nat                    -- first lc after the current window (R273)
  rot : Fin 3                     -- rotation pointer: task rot + 1 (R274)
  seed : Word                     -- seed of the run, from which every generator is formed (R55–R58)
  adv : Nat                       -- advances of the generators held between runs (R57)
deriving DecidableEq, Repr

/-- One enabled quire (R27). -/
structure Quire where
  mem : QuireMem
  array : ArrayUnit
  rstop : RingStop
  bank : BankUnit
  stream : StreamUnit
  vec : VecUnit
  bwd : BwdUnit
  upd : UpdUnit
  seq : SeqUnit
  hazInfo : Word                  -- HAZ.INFO
  hazCount : Word                 -- HAZ.COUNT
  idleIssue : Word                -- IDLE.ISSUE
  idleCause : Vector Word 8       -- IDLE.CAUSE
  ledger : Vector LedgerSlot 256
  claims : List Claim
  ports : List Access             -- accesses placed on ports, in the order of precedence (R157 R164)
  flight : List Event             -- effects of issued instructions still to come about (R306)
  spineOff : Int                  -- spine time of lc 0 (log entry 14)
  edgeOff : Int                   -- die clock edge of lc 0 (log entry 14)
  upsets : List Upset
  qmask : Word                    -- MBOX.QMASK
  qflag : Word                    -- MBOX.QFLAG
  dbToQuire : BitVec 32           -- doorbell bits rung toward the quire (R289 R442)
  dbFromQuire : BitVec 32         -- doorbell bits rung toward the bindery and not yet taken
  dbToSince : Vector Nat 32       -- tick in which each bit toward the quire was set (R444)
  dbFromSince : Vector Nat 32
deriving DecidableEq, Repr

/-- The context of a task that has not run since reset (R293). -/
def Task.reset : Task :=
  { code := 0, pc := 0, state := .stopped, sregs := Vector.replicate 32 0, pend := [], bound := 0, region := 0,
    mwin := 0, hp := Vector.replicate 8 { spad := 0, rowA := 0, rowB := 0, front := false }, sdt := [], sdtPend := [], arg := 0,
    heldWord := none, heldKind := .waits, heldCause := 0, heldSince := 0, startsAt := 0, idleUntil := 0, joined := false, endedBy := 0, runLc := 0 }

/-- A cleared ledger slot (R60). -/
def LedgerSlot.reset : LedgerSlot := { sat := 0, ftz := 0, nans := 0, maxExp := -32768, minExp := 32767 }

/-- The registers of a quire after RESET_COMPUTE and cold power-on (R91 R122 R154 R188 R213 R234 R262 R293 R334
R415), its banks and scratchpads at zero (R153 R167); SKEW and REPAIR come from the colophon. -/
def Quire.reset (skew bankRepair spadRepair : Word) : Quire :=
  { mem := { weight := [], moment := [], scale := [], grad := [], act := [], ps := [], stg := [], half0 := [],
             half1 := [], prog := [], descActive := [], descShadow := [] },
    array := { config := 3, chunks := 0, tiles := 0, zeroCells := 0, fault := 0, set0 := List.replicate 1024 0,
               set1 := List.replicate 1024 0, running := none, drains := [], draining := [], collector := [], lastChunk := 0,
               table0 := List.replicate 256 0, table1 := List.replicate 256 0, nextStore := false },
    rstop := { skew := skew, h0 := 0, h1 := 0, halted := false, waitOwner := false, pass := true, injected := 0,
               consumed := 0, reduced := 0, landed := 0, fault := 0, injFore := 0, injBack := 0, splice := none,
               stalled := false, clearTo := 0 },
    bank := { scrubCtl := 0x4001, scrubActive := 0x4001, scrubStatus := 0, scrubDefer := 0, ceCount := 0, ceGrad := 0,
              ceLast := 0, ueInfo := 0, portConflict := 0, repair := bankRepair, fixQueue := [],
              fixNext := Vector.replicate 3 0, usedW := 0, usedM := 0, scrubbed := false },
    stream := { spadConflict := 0, parityInfo := 0, spadRepair := spadRepair, discardDesc := 0, discardBytes := 0,
                fault := 0, landings := [], writes := [], doneWrites := [], commits := [], commitEnd := 0 },
    vec := { config := 0, task := 0, beats := 0, cut := 0, fault := 0, lastBeat := 0, op := 0, reduces := false, runs := [] },
    bwd := { keepNext := Vector.replicate 4 (~~~0), keepActive := Vector.replicate 4 (~~~0),
             norm := Vector.replicate 256 0, discards := 0 },
    upd := { op := 0, entry := 0, shadowValid := false, loading := false, stepActive := 0, stepShadow := 0,
             sumA := 0, sumB := 0, blocks := 0, discards := 0, fault := 0,
             lastIssue := 0, lastBlocks := 0, runs := [] },
    seq := { tasks := Vector.replicate 4 Task.reset, issued := 0, fault := 0, inRun := false, lc := 0, past := 0, winEnd := 0,
             rot := 0, seed := 0, adv := 0 },
    hazInfo := 0, hazCount := 0, idleIssue := 0, idleCause := Vector.replicate 8 0,
    ledger := Vector.replicate 256 LedgerSlot.reset, claims := [], ports := [], flight := [], spineOff := 0, edgeOff := 0, upsets := [],
    qmask := 0, qflag := 0, dbToQuire := 0, dbFromQuire := 0, dbToSince := Vector.replicate 32 0,
    dbFromSince := Vector.replicate 32 0 }

/-! ## Spines -/

/-- A slot of a spine (R99 R100). It enters at spine time t0 and is met at a delivery time d with born < d and, once it
has left or was replaced, d ≤ left. -/
structure Slot where
  back : Bool                     -- LEG
  origin : Fin 64                 -- ORIGIN
  t0 : Int
  kind : Nat
  fmt : Nat
  ret : Bool
  seq : BitVec 16
  payload : List Byte             -- 1,024 B
  scales : List Byte              -- 64 B scale lane
  born : Int
  left : Option Int
deriving DecidableEq, Repr

/-- The SPINE block and the slots in flight (R122). -/
structure Spine where
  layout : BitVec 16              -- SPINE.LAYOUT.SPLICE
  discarded : Word                -- SPINE.DISCARDED
  boundary : Vector Word 16       -- SPINE.BOUNDARY
  slots : List Slot
  stretches : Vector (List Nat) 16  -- lc of the stretched periods of the last 64 lc, per folio (R118)
deriving DecidableEq, Repr
/-! ## Die-wide units -/

/-- The TOKEN, DEBUG, WAIT and XB blocks (R334). -/
structure Contract where
  pool : Word                     -- TOKEN.POOL
  diePeak : Nat                   -- TOKEN.DIE.PEAK
  folioPeak : Vector Nat 16       -- TOKEN.FOLIO.PEAK
  tokFault : Word                 -- TOKEN.FAULT
  debugCtl : Word                 -- DEBUG_CTL
  debugActive : Word              -- DEBUG_CTL in effect since the first lc of the last run (R328)
  waitLimit : Word                -- WAIT.LIMIT
  waitFault : Word                -- WAIT.FAULT
  xbCfg : Vector Word 32          -- XB.CFG
  xbCount : Vector (BitVec 32) 32 -- XB.COUNT
  xbLate : Vector (List Nat) 32   -- of the entries, the first lc of the owner's waits that the latest of them meet (R120)
  throttled : List (Nat × Nat)    -- throttled gatherings: the overdrawing quire and the first tick of its resumption
deriving DecidableEq, Repr

/-- A memory controller (R188). -/
structure Mc where
  split : Word
  mapLo : Word
  mapHi : Word
  idleRead : BitVec 32
  idleWrite : BitVec 32
deriving DecidableEq, Repr

/-- The clock root and the reference monitor (R357). -/
structure Clk where
  stitch : Word                   -- CLK.STITCH
  current : Nat                   -- OP_STATUS.CURRENT
  target : Nat                    -- OP_STATUS.TARGET
  opPending : Bool                -- OP_STATUS.PENDING
  source : Nat                    -- OP_STATUS.SOURCE
  cap : Nat                       -- OP_STATUS.CAP
  resetStep : Bool                -- OP_STATUS.RESET_STEP
  kettle : Word                   -- CLK.KETTLE
  lost : Bool                     -- CLK.REF.LOST
  present : Bool                  -- CLK.REF.PRESENT
  losses : BitVec 16
  lastTicks : BitVec 16
  inLoss : Bool                   -- a declared loss has not returned yet
  lossTick : Nat                  -- stitch tick of the last loss
  pendSource : Option Nat         -- clock source that takes over at the pending kettle count
  restore : Option Nat            -- index in force before a loss, restored after the return (R350)
  qtr : Vector (BitVec 32) 16     -- CLK.FOLIO.QTR
  half : Vector (BitVec 32) 16    -- CLK.FOLIO.HALF
  droopCfg : Word                 -- CLK.DROOP_CFG
  droopActive : Word              -- the thresholds in force: a write takes effect at the next tick (R357)
deriving DecidableEq, Repr

/-- Power domains, sensors and trips (R357). -/
structure Pwr where
  powered : Bool                  -- the input is in range (R494)
  on : BitVec 30                  -- PWR.PD_STATE
  req : Word                      -- PWR.PD_REQ
  starting : List (Nat × Nat)     -- domains that switch on: number and the tick in which they are up (R352)
  refused : Bool
  refusedPd : Nat
  samples : List (BitVec 32)      -- input power of the last 100,000 ticks, 1/65536 W, latest first (R354)
  sampled : Bool                  -- the sample of this tick has been taken (R477)
  peakLimit : BitVec 16
  sustLimit : BitVec 16
  trip : Word                     -- PWR.TRIP
  temp : Vector (BitVec 16) 24
  tempPeak : Vector (BitVec 16) 24
  warn : BitVec 8
  overSince : Option Nat          -- tick since which every 100-tick average exceeds the sustained limit (R354)
deriving DecidableEq, Repr

/-- One message a send port has accepted and the peer has not fully acknowledged (R373 R379). -/
structure TxMsg where
  num : Nat                       -- MSG
  bytes : Nat
  tick : Nat                      -- tick of acceptance
  lastSeq : Nat                   -- sequence number of its last flit
deriving DecidableEq, Repr

/-- An unacknowledged DATA flit of the send buffer (R369). -/
structure SentFlit where
  seq : BitVec 16
  body : List Byte                -- its first 240 bytes, without the acknowledgement
  tick : Nat                      -- tick of its last transmission
deriving DecidableEq, Repr

/-- One message being received (R375 R376 R379). -/
structure RxMsg where
  num : Nat
  bytes : Nat                     -- bytes taken so far
  first : Nat                     -- tick of the FIRST flit
  complete : Bool                 -- LAST taken
  spill : List (Nat × Byte)       -- landing-area bytes not yet in far memory: far address and byte
deriving DecidableEq, Repr

/-- What a link end reports in the identity stage (R382). -/
structure Identity where
  phys : Nat
  deviceId : BitVec 32
  port : Nat
  job : Word
deriving DecidableEq, Repr

/-- A chip-to-chip link with its endpaper (R389 R367–R370). -/
structure Link where
  state : Nat                     -- STATUS.STATE
  width : Nat                     -- STATUS.WIDTH
  laneOk : BitVec 8
  port : BitVec 5
  required : Bool
  retrains : BitVec 16
  corrected : BitVec 32
  replays : BitVec 16
  uncorr : BitVec 16
  fault : Word                    -- LINK.FAULT
  disabled : Bool                 -- by LINK_CONTROL (R385)
  txSeq : BitVec 16               -- next sequence number sent
  rxSeq : BitVec 16               -- next sequence number expected
  rxAny : Bool                    -- a DATA flit has been taken since training
  unacked : List SentFlit         -- the send buffer, oldest first (R369)
  lastSent : List (List Byte)     -- the flits of the link's last sending, oldest first (log entry 8)
  sentTick : Nat                  -- tick of the last sending
  heardTick : Nat                 -- tick of the last flit decoded
  ackOwed : Option Nat            -- tick of a DATA receipt not yet acknowledged (R368)
  discarding : Bool               -- DATA flits are discarded up to the replay (R369)
  faultTick : Option Nat          -- tick in which FAULT flits began (R381)
  peerPhys : Nat                  -- what the peer reported in the identity stage (R382)
  peerId : BitVec 32
  peerPort : Nat
  peerJob : Word
  identified : Bool
  told : Option Identity          -- what this end reported in the last identity stage (R382 R412)
deriving DecidableEq, Repr

/-- A logical port (R389). -/
structure Port where
  phys : BitVec 5
  width : Nat
  peerPort : Nat
  sendQuire : Nat
  sendValid : Bool
  recvQuire : Nat
  recvValid : Bool
  peerId : BitVec 32
  landBase : Nat                  -- landing area, units of 64 KiB (R386)
  landSize : Nat
  head : Nat                      -- RX.HEAD
  landed : Nat                    -- RX.LANDED
  taken : Nat                     -- RX.TAKEN
  takenBytes : Nat                -- ring bytes of the taken messages
  landedReady : List Nat          -- of each, the first lc of a wait of the receiver that it meets (R120)
  landedSizes : List Nat          -- sizes of the landed messages not yet taken, oldest first
  credit : Nat                    -- TX.CREDIT
  sent : BitVec 32                -- TX.SENT
  tx : List TxMsg
  rx : List RxMsg
  owed : Nat                      -- credit units owed to the peer (R374)
  granted : Nat                   -- credit units granted to the peer and not used by it yet (R376)
  drops : BitVec 32
  rxSize : Nat                    -- ring bytes
deriving DecidableEq, Repr

/-- The host interface (R450 R446 R499). -/
structure HostIf where
  bar4Seg : Word
  ringCfg : Vector Word 4
  ringPtr : Vector Word 4
  ahead : Vector (List Nat) 4     -- entries of ABORT_TASK packets handled ahead of CMD_CONS (R448)
  active : Vector Bool 4          -- the ring is being served: its bell was sampled (R428)
  taken : Vector Nat 4            -- packets taken from the ring in this tick (R429)
  turn : Nat                      -- one more than the ring whose packets this tick has come to; 0 while only ABORT_TASKs (R448)
  dbInMask : BitVec 32
  dbIn : BitVec 32                -- doorbells of the host held by a mask
  dbInSince : Vector Nat 32
  dbOut : BitVec 32
  dbOutMask : BitVec 32
  dbOutSince : Vector Nat 32
  dbTimeout : BitVec 32
  heartbeat : BitVec 32
  beatTick : Option Nat           -- tick of the last heartbeat (R444)
  ready : Bool
  faultBit : Bool
  resetBit : Bool
  colophonInvalid : Bool
  recovery : Bool
  msixAddr : Vector Word 32
  msixData : Vector (BitVec 32) 32
  msixMask : Vector Bool 32
  msixPending : BitVec 32
  aer : Bool                      -- an unsupported request has been logged (R421)
  perst : Bool                    -- PERST_N asserted
  linkUp : Bool                   -- PCI Express link
  d3hot : Bool
deriving DecidableEq, Repr

/-- The mailbox registers that are no quire's (R450). -/
structure Mbox where
  route : Vector Word 32          -- MBOX.ROUTE, indices 8–31 in use
  outSrc : Vector Word 32
deriving DecidableEq, Repr

/-- What a command has come to. -/
inductive CmdState where
  | waiting                       -- behind a fence (R429)
  | running
  | done (status : Nat) (r0 r1 : Word)
deriving DecidableEq, Repr

/-- A command taken from a ring and not yet answered. -/
structure Cmd where
  ring : Fin 4
  opcode : Nat
  pkt : Packet
  st : CmdState
  quires : List Nat               -- quires whose task it started and that have not ended (R436)
  task : Fin 4
  stopped : Word                  -- mask of quires aborted or stopped
  maxLc : Nat
  faulted : Bool
  since : Nat                     -- tick in which it was taken
  host : Option (List Byte)       -- what the host answered to its copy-engine requests (log entry 11)
  verified : Bool                 -- FW_UPDATE: the image verifies (log entry 12)
  written : Bool                  -- FW_UPDATE: it reads back as written
  doneAt : Nat                    -- place in the order of completion (R429)
  entry : Nat                     -- the ring index of its packet (R428)
  mute : Bool                     -- its ring has been disabled by the host: no status is posted
deriving DecidableEq, Repr

/-- A fault raised by a unit and not yet at the fault latch (R468). -/
structure Raised where
  cls : Nat                       -- class of R470
  quire : Option (Fin 64)
  link : Nat
  originClass : Nat
  originId : BitVec 32
  tick : Nat
  originStitch : Word := 0        -- of a received FAULT flit (R367)
  hops : Nat := 0
  cause : Nat := 0                -- of a link fault, and whether LINK.FAULT took it (R380 R390)
  noted : Bool := false
deriving DecidableEq, Repr

/-- The bindery (R479 R311 R21). -/
structure Bindery where
  fenceMap : Word
  stepping : Nat
  loaded : Nat                    -- ISA_CAPS.LOADED
  stage : Nat                     -- BOOT_STATUS fields
  colophonCode : Nat
  keyOk : Bool
  selftestFail : Bool
  mcFail : Nat
  bistFolio : Nat
  bistSite : Nat
  bootMs : Nat
  faultInfo : Word
  faultStitch : Word
  faultCount : BitVec 32
  latch : Bool                    -- the fault latch (R468)
  faultN : Bool                   -- FAULT_N asserted (R498)
  raised : List Raised
  firstFault : Option Raised      -- the fault that set the latch
  cmds : List Cmd                 -- commands taken and not answered, oldest first
  doneCount : Nat                 -- completions so far, for their order (R429)
  entries : Vector Word 16        -- ENTRY_00–15 of the loaded binary (R438)
  dieClaim : Nat                  -- declared claims of the loaded main binary (R326)
  folioClaim : Nat
  mainHash : List Byte            -- SHA-256 of the loaded main binary; empty without one (R464)
  fillerHash : List Byte          -- SHA-256 of the last filler loaded since
  runHash : List Byte             -- SHA-256 of the running image, as verified at boot (R464)
  runVersion : Nat                -- its firmware version (R457)
  formerIndex : Nat               -- index to restore after RESET_COMPUTE (R353)
  resetTick : Option Nat          -- RESET_COMPUTE in progress since this tick
  resetFault : Bool               -- a fault raised since that RESET_COMPUTE began (R472)
  alertN : Bool                   -- SMB_ALERT_N asserted (R501)
  job : Word
  deviceId : BitVec 32
  topoLoaded : Bool
  topoCmdTick : Nat
  held : Bool                     -- the compute part is held in reset (R22)
deriving DecidableEq, Repr

/-- A trace engine's incident (R476). -/
structure Incident where
  firstStitch : Nat
  held : List (List Byte)         -- the first 16 records
  latest : List (List Byte)       -- the latest 16 of the rest
  dropped : Nat
  lastStitch : Nat
deriving DecidableEq, Repr

/-- An alarm of the current tick (R473). -/
structure Alarm where
  cause : Nat
  source : Nat
  count : Nat
  detail : Nat
deriving DecidableEq, Repr

/-- The TRACE, ALARM and RECOVERY blocks (R479). -/
structure Trace where
  cfg : Word
  ptr : Vector Word 16
  drop : Vector Word 16
  incident : Vector (Option Incident) 16
  alarmCfg : Word
  alarmPtr : Word
  alarmDropped : BitVec 32
  alarmPend : List Alarm          -- alarms of the current tick (R473)
  recLength : Nat                 -- RECOVERY.CTL.LENGTH
  recState : Nat                  -- RECOVERY.STATUS
deriving DecidableEq, Repr

/-- The serial NOR flash (R456). -/
structure Flash where
  image : List Byte               -- the firmware image (R457)
  imageOk : Bool                  -- no write has left it broken (R465 R482)
  colophon : List Byte            -- the colophon record with its signature (R461)
  identity : List Byte            -- the identity block: wrapped identity key, fingerprint helper data (R456)
deriving DecidableEq, Repr

/-- The host-input windows (R415). -/
structure HostIn where
  cfg : Vector Word 4
  fence : Vector Word 4
deriving DecidableEq, Repr

/-- An MSI-X message: its vector, and the address and data that the MSI-X table gives it (R421 R446). -/
structure MsixMsg where
  vector : Fin 32
  addr : Word
  data : BitVec 32
deriving DecidableEq, Repr

/-- What last left the module, for each outside agent: the model's own record (log entry 8). -/
structure Out where
  read : List Byte                -- data of the last BAR read completion
  unsupported : Bool              -- the last request was answered with an unsupported-request completion
  dma : List (Nat × List Byte)    -- the write requests of the last command to host memory: bus address and bytes
  dmaRead : List (Nat × Nat)      -- its read requests: bus address and length
  msix : List MsixMsg             -- the MSI-X messages sent since reset, oldest first
  smbus : List Byte               -- the last SMBus block read
deriving DecidableEq, Repr

/-! ## The whole module -/

/-- The reasons a command could stop the machine. Every command of the table has an effect, or comes about with none,
so no meaning raises one. -/
inductive Fault where
  /-- Raised by no command: safe, since a step that never stops hides no behaviour. -/
  | unreached
deriving DecidableEq, Repr

/-- The reasons the model refuses a command. -/
inductive Refusal where
  /-- Raised by the dispatch for a command that has no meaning yet: safe, since nothing is proved of what it does. -/
  | notModelled (mnemonic : String)
deriving DecidableEq, Repr

/-- The state of the SFM-6440 as the spec gives it, with the queue of waiting commands. -/
structure State where
  quires : Vector Quire 64
  spine : Spine
  spineNow : Int
  edgeNow : Int
  far : Mem
  endpapers : Vector Mem 26
  mcs : Vector Mc 4
  con : Contract
  clk : Clk
  pwr : Pwr
  links : Vector Link 26
  ports : Vector Port 26
  host : HostIf
  mbox : Mbox
  bind : Bindery
  trace : Trace
  flash : Flash
  hostin : HostIn
  out : Out
  w1c : List (Nat × Word)         -- the registers with w1c bits set when the tick began: address and bits (R14)
  free : Nat
  pending : List Instr
deriving DecidableEq, Repr

/-- The default fencing of State.reset: S4 of every folio (log entry 31). -/
def defaultFence : Word := 0x0000_9249_2492_4924

/-- A quire of the reset module: every enabled site comes before the fenced S4 (R104), no spare row is in use. -/
def Quire.atReset : Quire := Quire.reset 0x9 0 0

/-- A link after cold power-on (R389). -/
def Link.reset : Link :=
  { state := 0, width := 0, laneOk := 0, port := 31, required := false, retrains := 0, corrected := 0, replays := 0,
    uncorr := 0, fault := 0, disabled := false, txSeq := 0, rxSeq := 0, rxAny := false, unacked := [], lastSent := [], sentTick := 0,
    heardTick := 0, ackOwed := none, discarding := false, faultTick := none, peerPhys := 0,
    peerId := 0, peerPort := 0, peerJob := 0, identified := false, told := none }

/-- A port after cold power-on (R389). -/
def Port.reset : Port :=
  { phys := 31, width := 0, peerPort := 0, sendQuire := 0, sendValid := false, recvQuire := 0, recvValid := false,
    peerId := 0, landBase := 0, landSize := 0, head := 0, landed := 0, taken := 0, takenBytes := 0,
    landedReady := [], landedSizes := [], credit := 0, sent := 0, tx := [], rx := [], owed := 0, granted := 0, drops := 0, rxSize := 0 }

/-- A memory controller after reset (R188). -/
def Mc.reset : Mc :=
  { split := 0x9184_9184, mapLo := 0xFEDC_BA98_7654_3210, mapHi := 0xFEDC_BA98_7654_3210, idleRead := 0, idleWrite := 0 }

/-- The SPINE block after reset (R122): GUTTER is 1 after F03, F07, F11 and F15. -/
def Spine.reset : Spine :=
  { layout := 0, discarded := 0,
    boundary := Vector.ofFn (fun i : Fin 16 => if i.val % 4 = 3 then 0x10_0000_0000 else 0), slots := [],
    stretches := Vector.replicate 16 [] }

/-- The contract blocks after reset (R334), with the pools of R324. -/
def Contract.reset (pool : Word) : Contract :=
  { pool := pool, diePeak := 0, folioPeak := Vector.replicate 16 0, tokFault := 0, debugCtl := 0x402,
    debugActive := 0x402, waitLimit := 10000, waitFault := 0, xbCfg := Vector.replicate 32 0,
    xbCount := Vector.replicate 32 0, xbLate := Vector.replicate 32 [], throttled := [] }

/-- The header of an image of one page: MAGIC, version 0, length (R457; log entry 31). -/
def defaultImage : List Byte :=
  bytesLE 4 0x574D4946 ++ bytesLE 4 0 ++ bytesLE 4 4096 ++ List.replicate 4084 0

/-- The colophon of an SFM-6440 with S4 fenced in every folio, no repair entry, every lane in its place (R461; log entry
31). -/
def defaultColophon : List Byte :=
  bytesLE 4 0x4C4F4346 ++ bytesLE 2 1 ++ bytesLE 2 6440 ++ bytesLE 4 0x514 ++ bytesLE 4 0 ++ bytesLE 8 0
    ++ bytesLE 2 3200 ++ bytesLE 2 3600 ++ bytesLE 4 16 ++ (List.range 16).flatMap (fun f => bytesLE 2 (f + 4 * 256))
    ++ (List.range 26).flatMap (fun _ => bytesLE 8 0o76543210) ++ List.replicate 1028 0 ++ List.replicate 384 0

/-- The module right after reset: every register at the value of its Reset column, the boot not begun (STAGE 1,
READY 0, FAULT_N asserted), the colophon fields those of the default colophon (log entry 31). -/
def State.reset : State :=
  { quires := Vector.replicate 64 Quire.atReset,
    spine := Spine.reset, spineNow := 0, edgeNow := 0, far := [], endpapers := Vector.replicate 26 [],
    mcs := Vector.replicate 4 Mc.reset,
    con := Contract.reset (BitVec.ofNat 64 (140000 + 11666 * 2 ^ 24)),
    clk := { stitch := 0, current := 5, target := 5, opPending := false, source := 0, cap := 0, resetStep := false,
             kettle := 0, lost := false, present := false, losses := 0, lastTicks := 0, inLoss := false, lossTick := 0,
             pendSource := none, restore := none, qtr := Vector.replicate 16 0, half := Vector.replicate 16 0, droopCfg := 0x4628, droopActive := 0x4628 },
    pwr := { powered := true, on := 0x3FFF_FFFF, req := 0x20F0, starting := [], refused := false,
             refusedPd := 0, samples := [], sampled := false, peakLimit := 3600, sustLimit := 3200, trip := 0,
             temp := Vector.replicate 24 0, tempPeak := Vector.replicate 24 0, warn := 95, overSince := none },
    links := Vector.replicate 26 Link.reset, ports := Vector.replicate 26 Port.reset,
    host := { bar4Seg := 0x3210, ringCfg := Vector.replicate 4 0x60, ringPtr := Vector.replicate 4 0,
              ahead := Vector.replicate 4 [], active := Vector.replicate 4 false, taken := Vector.replicate 4 0, turn := 0, dbInMask := 0, dbIn := 0,
              dbInSince := Vector.replicate 32 0, dbOut := 0, dbOutMask := 0xFFFF_FFFF,
              dbOutSince := Vector.replicate 32 0, dbTimeout := 0, heartbeat := 0, beatTick := none, ready := false,
              faultBit := false, resetBit := false, colophonInvalid := false, recovery := false,
              msixAddr := Vector.replicate 32 0, msixData := Vector.replicate 32 0,
              msixMask := Vector.replicate 32 true, msixPending := 0, aer := false, perst := true,
              linkUp := false, d3hot := false },
    mbox := { route := Vector.replicate 32 0, outSrc := Vector.replicate 32 0 },
    bind := { fenceMap := defaultFence, stepping := 0x10, loaded := 0, stage := 1, colophonCode := 0, keyOk := false,
              selftestFail := false, mcFail := 0, bistFolio := 0, bistSite := 0, bootMs := 0, faultInfo := 0,
              faultStitch := 0, faultCount := 0, latch := false, faultN := true, raised := [], firstFault := none,
              cmds := [], doneCount := 0, entries := Vector.replicate 16 0, dieClaim := 0, folioClaim := 0,
              mainHash := [], fillerHash := [], runHash := [], runVersion := 0, formerIndex := 5,
              resetTick := none, resetFault := false, alertN := false, job := 0, deviceId := 0, topoLoaded := false,
              topoCmdTick := 0, held := false },
    trace := { cfg := 0, ptr := Vector.replicate 16 0, drop := Vector.replicate 16 0,
               incident := Vector.replicate 16 none, alarmCfg := 0x80, alarmPtr := 0, alarmDropped := 0,
               alarmPend := [], recLength := 0, recState := 0 },
    flash := { image := defaultImage, imageOk := true, colophon := defaultColophon, identity := List.replicate 16384 0 },
    hostin := { cfg := Vector.replicate 4 0, fence := Vector.replicate 4 0 },
    out := { read := [], unsupported := false, dma := [], dmaRead := [], msix := [], smbus := [] },
    w1c := [], free := 0, pending := [] }

end Sys2Proof.Machine
end

