-- ==== Sys2Proof/Machine/Ops.lean ====
section
/-! DEFINITION. The named operations over memories, quires, tasks and scalar registers that every unit shares. -/

namespace Sys2Proof.Machine

/-! ## Memories (log entry 6) -/

/-- The byte at an address: 0 where nothing is listed. -/
def readByte (m : Mem) (a : Nat) : Byte :=
  match m with
  | [] => 0
  | c :: cs => if c.1 = a then c.2 else readByte cs a

/-- n bytes from address a on, of a memory whose listed addresses are not below a. -/
def fillBytes : Nat → Nat → Mem → List Byte
  | 0, _, _ => []
  | n + 1, _, [] => 0 :: fillBytes n 0 []
  | n + 1, a, c :: cs => if c.1 = a then c.2 :: fillBytes n (a + 1) cs else 0 :: fillBytes n (a + 1) (c :: cs)

/-- n bytes from address a on. -/
def readBytes (m : Mem) (a n : Nat) : List Byte := fillBytes n a (m.dropWhile (fun c => decide (c.1 < a)))

/-- The listed cells of consecutive bytes from address a on: zero bytes are not listed. -/
def cellsOf (a : Nat) : List Byte → Mem
  | [] => []
  | b :: bs => if b = 0 then cellsOf (a + 1) bs else (a, b) :: cellsOf (a + 1) bs

/-- Writes consecutive bytes from address a on, in canonical form. -/
def writeBytes (m : Mem) (a : Nat) (bs : List Byte) : Mem :=
  m.filter (fun c => decide (c.1 < a)) ++ cellsOf a bs ++ m.filter (fun c => decide (a + bs.length ≤ c.1))

/-- The canonical form: addresses strictly rising, no listed byte equal to 0. -/
def Mem.wf (m : Mem) : Bool :=
  match m with
  | [] => true
  | [c] => c.2 != 0
  | c :: d :: cs => c.2 != 0 && decide (c.1 < d.1) && Mem.wf (d :: cs)

/-- A 512 B row. -/
def readRow (m : Mem) (row : Nat) : List Byte := readBytes m (512 * row) 512

/-- Writes one 512 B row: the bytes given, filled up with zeros. -/
def writeRow (m : Mem) (row : Nat) (bs : List Byte) : Mem := writeBytes m (512 * row) (slice bs 0 512)

/-- Writes consecutive rows. -/
def writeRows (m : Mem) (row : Nat) (rows : List (List Byte)) : Mem :=
  (rows.zipIdx).foldl (fun m r => writeRow m (row + r.2) r.1) m

/-- The little-endian word of n bytes at an address. -/
def readNum (m : Mem) (a n : Nat) : Nat := ofBytesLE (readBytes m a n)

/-! ## State updates -/

/-- Changes one quire. -/
def updQ (s : State) (q : Fin 64) (f : Quire → Quire) : State :=
  { s with quires := s.quires.set q (f s.quires[q]) }

/-- Changes every quire. -/
def updAllQ (s : State) (f : Fin 64 → Quire → Quire) : State :=
  { s with quires := Vector.ofFn (fun q => f q s.quires[q]) }

/-- Changes one task context of a quire. -/
def updTask (qr : Quire) (t : Fin 4) (f : Task → Task) : Quire :=
  { qr with seq := { qr.seq with tasks := qr.seq.tasks.set t (f qr.seq.tasks[t]) } }

/-- Changes one task context. -/
def updT (s : State) (q : Fin 64) (t : Fin 4) (f : Task → Task) : State := updQ s q (fun qr => updTask qr t f)

/-- Changes one link. -/
def updLink (s : State) (l : Fin 26) (f : Link → Link) : State := { s with links := s.links.set l (f s.links[l]) }

/-- Changes one port. -/
def updPort (s : State) (p : Fin 26) (f : Port → Port) : State := { s with ports := s.ports.set p (f s.ports[p]) }

/-- The next free value and the state that has consumed it (log entry 4). -/
def takeFree (s : State) : BitVec 64 × State := (Config.freeBits s.free, { s with free := s.free + 1 })

/-- The current stitch tick. -/
def tick (s : State) : Nat := s.clk.stitch.toNat

/-- All quires, in logical order. -/
def allQuires : List (Fin 64) := List.finRange 64

/-- The folio of a quire (R19). -/
def folioOf (q : Fin 64) : Fin 16 := ⟨q.val / 4, by omega⟩

/-- The lc of one stitch tick at an index of the ladder (R342). -/
def lcPerTick (index : Nat) : Nat :=
  match index with | 0 => 2000 | 1 => 1800 | 2 => 1600 | 3 => 1400 | 4 => 1200 | 5 => 1000 | _ => 500

/-! ## Task state (R276 R293) -/

/-- Is a task in a run: running, or held by an unmet wait? -/
def Task.live (tk : Task) : Bool := tk.state == .running || tk.state == .held

/-- SEQ.STATE_TASK.STATE (R293). -/
def TaskState.code : TaskState → Nat
  | .stopped => 0 | .running => 1 | .held => 2 | .faulted => 3

/-- Fields of the bound registers (R188 R154 R293). -/
def Task.actBase (tk : Task) : Nat := fld tk.bound 0 10
def Task.actCount (tk : Task) : Nat := fld tk.bound 10 11
def Task.psBase (tk : Task) : Nat := fld tk.bound 21 9
def Task.psCount (tk : Task) : Nat := fld tk.bound 30 10
def Task.stgBase (tk : Task) : Nat := fld tk.bound 40 9
def Task.stgCount (tk : Task) : Nat := fld tk.bound 49 10
def Task.boundValid (tk : Task) : Bool := bit tk.bound 59
def Task.regBase (tk : Task) : Nat := fld tk.region 0 14
def Task.regCount (tk : Task) : Nat := fld tk.region 16 14
def Task.regValid (tk : Task) : Bool := bit tk.region 32
def Task.winBase (tk : Task) : Nat := fld tk.mwin 0 20 * 65536
def Task.winSize (tk : Task) : Nat := fld tk.mwin 20 20 * 65536
def Task.winValid (tk : Task) : Bool := bit tk.mwin 40
def Task.codeBase (tk : Task) : Nat := fld tk.code 0 13
def Task.codeCount (tk : Task) : Nat := fld tk.code 16 14
def Task.codeValid (tk : Task) : Bool := bit tk.code 32

/-- The base row of a scratchpad (0 activation, 1 partial-sum, 2 staging) for a task (R168). -/
def Task.spadBase (tk : Task) (spad : Nat) : Nat :=
  match spad with | 0 => tk.actBase | 1 => tk.psBase | _ => tk.stgBase

/-- The row count of a scratchpad for a task; 0 where the bounds are not valid (R169). -/
def Task.spadCount (tk : Task) (spad : Nat) : Nat :=
  if tk.boundValid then (match spad with | 0 => tk.actCount | 1 => tk.psCount | _ => tk.stgCount) else 0

/-- Do n rows from relative row r lie within the task's bound of a scratchpad (R169)? -/
def Task.spadOk (tk : Task) (spad r n : Nat) : Bool :=
  n == 0 || (tk.boundValid && decide (r + n ≤ tk.spadCount spad))

/-- Do blocks b .. b+n−1 lie within the task's region (R145)? -/
def Task.blocksOk (tk : Task) (b n : Nat) : Bool := tk.regValid && decide (b + n ≤ tk.regCount)

/-! ## Scratchpads of a quire -/

/-- The memory of a scratchpad code (R160). -/
def spadMem (qr : Quire) (spad : Nat) : Mem :=
  match spad with | 0 => qr.mem.act | 1 => qr.mem.ps | _ => qr.mem.stg

/-- Replaces the memory of a scratchpad code. -/
def setSpadMem (qr : Quire) (spad : Nat) (m : Mem) : Quire :=
  match spad with
  | 0 => { qr with mem := { qr.mem with act := m } }
  | 1 => { qr with mem := { qr.mem with ps := m } }
  | _ => { qr with mem := { qr.mem with stg := m } }

/-- Writes rows of a scratchpad: a row written anew has valid parity (R165). -/
def putRows (qr : Quire) (spad row : Nat) (rows : List (List Byte)) : Quire :=
  let qr := setSpadMem qr spad (writeRows (spadMem qr spad) row rows)
  let kept := fun u : Upset => !(u.mem == 4 + spad && decide (512 * row ≤ u.word) && decide (u.word < 512 * (row + rows.length)))
  { qr with upsets := qr.upsets.filter kept }

/-- The stop-buffer half of a number. -/
def halfMem (qr : Quire) (h : Nat) : Mem := if h = 0 then qr.mem.half0 else qr.mem.half1

/-- Replaces a stop-buffer half and its state (R122). -/
def setHalf (qr : Quire) (h : Nat) (m : Mem) (st : Nat) : Quire :=
  if h = 0 then { qr with mem := { qr.mem with half0 := m }, rstop := { qr.rstop with h0 := st } }
  else { qr with mem := { qr.mem with half1 := m }, rstop := { qr.rstop with h1 := st } }

/-! ## Scalar registers (R270 R271 R296) -/

/-- Applies the pending writes that are readable in lc x, in the order of their lc. -/
def settleRegs (x : Nat) (tk : Task) : Task :=
  { tk with
    sregs := (tk.pend.filter (fun p => decide (p.lc ≤ x))).foldl (fun rs p => rs.set p.reg p.value) tk.sregs,
    pend := tk.pend.filter (fun p => decide (x < p.lc)) }

/-- The value of a scalar register; s0 reads as 0 (R270). -/
def readReg (tk : Task) (r : Nat) : Word := if r = 0 then 0 else tk.sregs[r % 32]'(by omega)

/-- Inserts a pending write after those of earlier lc, and for one lc an instruction's before a unit's (R296). -/
def insertPend (p : PendReg) : List PendReg → List PendReg
  | [] => [p]
  | a :: as =>
    if p.lc < a.lc || (p.lc == a.lc && a.byUnit && !p.byUnit) then p :: a :: as else a :: insertPend p as

/-- A write of a scalar register that is readable from lc y on; a write to s0 is discarded (R270 R271). -/
def writeReg (tk : Task) (r : Nat) (v : Word) (y : Nat) (byUnit : Bool) : Task :=
  if r = 0 then tk
  else { tk with pend := insertPend { lc := y, reg := ⟨r % 32, by omega⟩, value := v, byUnit := byUnit } tk.pend }

/-! ## Effects in flight (R136 R306) -/

/-- Does an event come before another of its quire: by lc, within an lc reads, accumulates, writes (R136)? -/
def Event.before (a b : Event) : Bool := decide (a.lc < b.lc) || (a.lc == b.lc && decide (a.ph < b.ph))

/-- Inserts an event behind those that come before it or with it. -/
def insertEvent (e : Event) : List Event → List Event
  | [] => [e]
  | a :: as => if e.before a then e :: a :: as else a :: insertEvent e as

/-- A source row of a write STREAM, which no END and no ABORT_TASK cuts (R183). -/
def Micro.isSend : Micro → Bool
  | .send .. | .sent .. => true
  | _ => false

/-- Is an effect a source row of the write STREAM issued in lc x? -/
def Micro.sends (x : Nat) : Micro → Bool
  | .send y .. => y == x
  | .sent y .. => y == x
  | _ => false

/-- The first lc in which a stopped task brings about nothing more: a fault stops at the end of its lc, an END or an
ABORT_TASK at the start of the given one (R96 R276 R297). -/
def stopBound (how lc : Nat) : Nat := if how = 3 then lc + 1 else lc

/-- Does an lc come before a task's stop, or does the task still run? -/
def Task.reaches (tk : Task) (lc : Nat) : Bool := tk.live || decide (lc < stopBound tk.endedBy tk.runLc)

/-- Puts an effect in flight; nothing comes about after the stop of its task but the rest of a write (R96 R158 R183 R214
R266 R276). -/
def emit (qr : Quire) (e : Event) : Quire :=
  let tk := qr.seq.tasks[e.task]
  if tk.reaches e.lc then { qr with flight := insertEvent e qr.flight }
  else if e.op.isSend && tk.endedBy != 3 then { qr with flight := insertEvent e qr.flight }
  else qr

/-- Puts effects of one task in flight. -/
def emitAll (qr : Quire) (es : List Event) : Quire := es.foldl emit qr

/-- Puts one effect of a quire in flight. -/
def later (s : State) (q : Fin 64) (t : Fin 4) (lc ph : Nat) (op : Micro) : State :=
  updQ s q (fun qr => emit qr { lc := lc, ph := ph, task := t, op := op })

/-! ## Gatherings (R112) -/

/-- Is the mask legal (R112): 0, or a division into aligned runs of 1, 2, 4, 8 or 16 folios? -/
def runsOk : Nat → Nat → List Nat → Bool
  | _, start, [] => start == 16
  | fuel, start, f :: fs =>
    let n := f + 1 - start
    (n == 1 || n == 2 || n == 4 || n == 8 || n == 16) && start % n == 0 && runsOk fuel (f + 1) fs

/-- The legal splice masks (R112). -/
def maskLegal (m : BitVec 16) : Bool := m == 0 || runsOk 16 0 (setBits m.toNat 16)

/-- First and last folio of the gathering that holds folio f under a non-zero mask (R112). -/
def gatheringOf (m : BitVec 16) (f : Nat) : Nat × Nat :=
  let ends := setBits m.toNat 16
  let last := (ends.find? (fun e => decide (f ≤ e))).getD 15
  let first := (ends.foldl (fun a e => if e < f then e + 1 else a) 0)
  (first, last)

/-- Are two quires of one gathering; on the unspliced die the gathering is all 64 (R120)? -/
def sameGathering (m : BitVec 16) (a b : Fin 64) : Bool :=
  m == 0 || (gatheringOf m (a.val / 4) == gatheringOf m (b.val / 4))

/-- The quires of a quire's gathering. -/
def gatheringQuires (s : State) (q : Fin 64) : List (Fin 64) :=
  allQuires.filter (fun b => sameGathering s.spine.layout q b)

/-! ## Ledger (R59–R61) -/

/-- Records events into a slot: sticky counts, running extremes (R60 R61). -/
def LedgerSlot.record (l : LedgerSlot) (e : Events) : LedgerSlot :=
  { sat := satAdd 32 l.sat e.sat, ftz := satAdd 32 l.ftz e.ftz, nans := satAdd 32 l.nans e.nans,
    maxExp := e.exps.foldl max l.maxExp, minExp := e.exps.foldl min l.minExp }

/-- Records events into ledger slot n of a quire. -/
def recordLedger (qr : Quire) (n : Nat) (e : Events) : Quire :=
  { qr with ledger := qr.ledger.set (n % 256) (LedgerSlot.record (qr.ledger[n % 256]'(by omega)) e) (by omega) }

/-- The 16 bytes of a slot record (R60). -/
def LedgerSlot.bytes (l : LedgerSlot) : List Byte :=
  bytesLE 4 l.sat ++ bytesLE 4 l.ftz ++ bytesLE 4 l.nans ++ bytesLE 2 (l.maxExp % 65536).toNat
    ++ bytesLE 2 (l.minExp % 65536).toNat

/-- The events of several elements together. -/
def joinEvents (es : List Events) : Events :=
  { sat := (es.map (·.sat)).foldl (· + ·) 0, ftz := (es.map (·.ftz)).foldl (· + ·) 0,
    nans := (es.map (·.nans)).foldl (· + ·) 0, exps := es.flatMap (·.exps) }

/-- Books periods to an idle cause (R407). -/
def bookIdle (qr : Quire) (cause n : Nat) : Quire :=
  { qr with idleCause := qr.idleCause.set (cause % 8) ((qr.idleCause[cause % 8]'(by omega)) + BitVec.ofNat 64 n) (by omega) }

end Sys2Proof.Machine
end

