-- ==== Sys2Proof/Machine/Signal.lean ====
section
/-! DEFINITION. What the units tell the outside: trace records, alarms, doorbells and MSI-X messages (R442–R446
R473–R476). -/

namespace Sys2Proof.Machine

/-! ## Trace (R475 R476) -/

/-- Is power domain n on? -/
def pdOn (s : State) (n : Nat) : Bool := s.pwr.on.toNat.testBit n

/-- PROD and CONS of a folio's trace ring. -/
def traceProd (s : State) (f : Fin 16) : Nat := fld s.trace.ptr[f] 0 16
def traceCons (s : State) (f : Fin 16) : Nat := fld s.trace.ptr[f] 16 16

/-- Records waiting in a trace ring. -/
def traceFill (s : State) (f : Fin 16) : Nat := (traceProd s f + 65536 - traceCons s f) % 65536

/-- Writes one 32-byte record into a folio's ring and advances PROD. -/
def tracePut (s : State) (f : Fin 16) (rec : List Byte) : State :=
  let base := fld s.trace.cfg 16 16 * 2 ^ 20 + f.val * 2 ^ 20
  let p := traceProd s f
  { s with far := writeBytes s.far (base + 32 * (p % 32768)) (slice rec 0 32),
           trace := { s.trace with ptr := s.trace.ptr.set f (setFld s.trace.ptr[f] 0 16 (p + 1)) } }

/-- Adds an alarm to those of the tick: a repeat raises its count, and for causes 3 and 4 its DETAIL (R473). -/
def alarm (s : State) (cause source detail : Nat) : State :=
  let hit := fun a : Alarm => a.cause == cause && a.source == source
  let bump := fun a : Alarm =>
    if hit a then { a with count := a.count + 1,
                           detail := if cause == 3 || cause == 4 then a.detail + detail else detail }
    else a
  let l := if s.trace.alarmPend.any hit then s.trace.alarmPend.map bump
           else s.trace.alarmPend ++ [{ cause := cause, source := source, count := 1, detail := detail }]
  { s with trace := { s.trace with alarmPend := l } }

/-- A record met by a full ring or an incident in progress (R476). -/
def traceIncident (s : State) (f : Fin 16) (rec : List Byte) : State :=
  match s.trace.incident[f] with
  | none =>
    let d := s.trace.drop[f]
    let inc : Incident :=
      { firstStitch := numAt rec 0 8, held := [rec], latest := [], dropped := 0, lastStitch := numAt rec 0 8 }
    let s := { s with trace := { s.trace with
      incident := s.trace.incident.set f (some inc),
      ptr := s.trace.ptr.set f (setFld s.trace.ptr[f] 32 1 1),
      drop := s.trace.drop.set f (setFld d 32 16 (fld d 32 16 + 1)) } }
    alarm s 5 f.val (traceFill s f)
  | some inc =>
    let d := s.trace.drop[f]
    if inc.held.length < 16 then
      let inc := { inc with held := inc.held ++ [rec], lastStitch := numAt rec 0 8 }
      { s with trace := { s.trace with incident := s.trace.incident.set f (some inc) } }
    else if inc.latest.length < 16 then
      let inc := { inc with latest := inc.latest ++ [rec], lastStitch := numAt rec 0 8 }
      { s with trace := { s.trace with incident := s.trace.incident.set f (some inc) } }
    else
      let inc := { inc with latest := inc.latest.drop 1 ++ [rec], dropped := inc.dropped + 1, lastStitch := numAt rec 0 8 }
      { s with trace := { s.trace with
        incident := s.trace.incident.set f (some inc),
        drop := s.trace.drop.set f (setFld d 0 32 (fld d 0 32 + 1)) } }

/-- Makes a trace record of a kind for a folio, where the kind is enabled; subtype and detail are free values, which
the spec does not lay out (R475; log entry 4). A stretch stall may carry the next tick, in which the engine formed its
record, which of the two is free (R518). `quire` is 0xFF for a folio event. -/
def traceEvent (s : State) (f : Fin 16) (kind quire task lc : Nat) : State :=
  if bit s.trace.cfg 0 && bitsOf (fld s.trace.cfg 8 7) kind 1 == 1 then
    if !pdOn s 13 then
      let d := s.trace.drop[f]
      { s with trace := { s.trace with drop := s.trace.drop.set f (setFld d 48 16 (fld d 48 16 + 1)) } }
    else
      let (a, s) := takeFree s
      let (b, s) := takeFree s
      let (c, s) := takeFree s
      let formed := if kind == 2 && a.getLsbD 8 then tick s + 1 else tick s
      let rec' := bytesLE 8 formed ++ bytesLE 4 lc ++ bytesLE 1 kind ++ bytesLE 1 quire ++ bytesLE 1 task
        ++ bytesLE 1 a.toNat ++ bytesLE 8 b.toNat ++ bytesLE 8 c.toNat
      if s.trace.incident[f].isSome || traceFill s f ≥ 32768 then traceIncident s f rec' else tracePut s f rec'
  else s

/-- A trace record of a quire's task. -/
def traceQ (s : State) (q : Fin 64) (t : Fin 4) (kind : Nat) : State :=
  traceEvent s (folioOf q) kind q.val t.val s.quires[q].seq.lc

/-! ## Doorbells (R442–R446) -/

/-- Sends MSI-X vector n to the address that the MSI-X table gives it, or leaves it pending (R421 R446). -/
def sendMsix (s : State) (n : Fin 32) : State :=
  if !s.host.msixMask[n] && !s.host.dbOutMask.toNat.testBit n.val && s.host.linkUp
      && !s.host.perst then
    let m : MsixMsg := { vector := n, addr := s.host.msixAddr[n], data := s.host.msixData[n] }
    { s with out := { s.out with msix := s.out.msix ++ [m] },
             host := { s.host with msixPending := s.host.msixPending &&& ~~~ (1#32 <<< n.val) } }
  else { s with host := { s.host with msixPending := s.host.msixPending ||| (1#32 <<< n.val) } }

/-- The host cannot take a doorbell: in reset, asleep or without heartbeat (R444). -/
def hostDeaf (s : State) : Bool :=
  s.host.perst || !s.host.linkUp || s.host.d3hot ||
  (s.host.heartbeat != 0 &&
    (match s.host.beatTick with
     | none => true
     | some b => decide (tick s > b + s.host.heartbeat.toNat)))

/-- A quire cannot take a doorbell: in reset, on the fault path, or with no task running (R444). -/
def quireDeaf (s : State) (q : Fin 64) : Bool :=
  s.bind.resetTick.isSome || s.bind.latch || s.bind.held ||
  !((List.finRange 4).any (fun t => (s.quires[q].seq.tasks[t]).live))

/-- An event sets bits that writing 1 clears: a host write of the same tick leaves them set (R14). -/
def setW1c (a : Nat) (bits : Word) (s : State) : State :=
  { s with w1c := s.w1c.map (fun p => if p.1 = a then (p.1, p.2 &&& ~~~ bits) else p) }

/-- The bits of a write that clear: those set when the tick began and not set again in it (R14). -/
def clears (s : State) (a : Nat) (v : Word) : Word :=
  match s.w1c.find? (fun p => p.1 == a) with
  | none => 0
  | some p => v &&& p.2

/-- Rings bit n at the host, its notice included. -/
def ringHostRaw (s : State) (n : Fin 32) : State :=
  let s := setW1c 0x30058 (maskOf n.val 1) s
  if s.host.dbOut.toNat.testBit n.val then s
  else
    let s := { s with host := { s.host with dbOut := s.host.dbOut ||| (1#32 <<< n.val),
                                            dbOutSince := s.host.dbOutSince.set n (tick s) } }
    sendMsix s n

/-- Rings bit n at a quire. -/
def ringQuireRaw (s : State) (q : Fin 64) (n : Fin 32) : State :=
  updQ s q (fun qr =>
    if qr.dbToQuire.toNat.testBit n.val then qr
    else { qr with dbToQuire := qr.dbToQuire ||| (1#32 <<< n.val), dbToSince := qr.dbToSince.set n (tick s) })

/-- The alarm of a doorbell timeout: SOURCE 0 where the host did not take the bit, 1 where a quire did not; how DETAIL
holds bit and quire is not laid out, so it is a free value (R473; log entry 4). -/
def timeoutAlarm (s : State) (source : Nat) : State :=
  let (v, s) := takeFree s
  alarm s 6 source (v.toNat % 2 ^ 32)

/-- The timeout flag of a bit in HOST.DB_TIMEOUT (R444). -/
def setTimeout (s : State) (n : Fin 32) : State :=
  let s := setW1c 0x30068 (maskOf n.val 1) s
  { s with host := { s.host with dbTimeout := s.host.dbTimeout ||| (1#32 <<< n.val) } }

/-- A timeout flag towards the host (R444). -/
def flagHost (s : State) (n : Fin 32) : State :=
  timeoutAlarm (ringHostRaw (setTimeout s n) 6) 1

/-- A timeout flag towards every quire of a mask: DB07 of each (R444 R445). -/
def flagQuires (s : State) (mask : Word) : State :=
  timeoutAlarm (allQuires.foldl (fun s q => if mask.toNat.testBit q.val then ringQuireRaw s q 7 else s) s) 0

/-- The flag of a bit delivered to a host that cannot take it (R444 R445). -/
def checkHost (s : State) (n : Fin 32) : State :=
  if n.val ≥ 8 && hostDeaf s then flagQuires s s.mbox.outSrc[n] else s

/-- The flag of a bit delivered to a quire that cannot take it (R444 R445). -/
def checkQuire (s : State) (q : Fin 64) (n : Fin 32) : State :=
  if n.val ≥ 8 && quireDeaf s q then flagHost s n else s

/-- The bindery rings bit n at the host: set, and delivered where its mask bit is 0 (R443–R446). -/
def ringHost (s : State) (n : Fin 32) : State :=
  let was := s.host.dbOut.toNat.testBit n.val
  let s := ringHostRaw s n
  if was || s.host.dbOutMask.toNat.testBit n.val then s else checkHost s n

/-- The bindery rings bit n at a quire: set, and delivered where its mask bit is 0 (R443–R445). -/
def ringQuire (s : State) (q : Fin 64) (n : Fin 32) : State :=
  let was := s.quires[q].dbToQuire.toNat.testBit n.val
  let s := ringQuireRaw s q n
  if was || (fld s.quires[q].qmask 32 32).testBit n.val then s else checkQuire s q n

/-- One 16-byte alarm record (R473). -/
def alarmBytes (s : State) (a : Alarm) : List Byte :=
  bytesLE 8 (tick s) ++ bytesLE 1 a.cause ++ bytesLE 1 a.source ++ bytesLE 2 (min a.count 0xFFFF) ++ bytesLE 4 a.detail

/-- Writes one alarm to the alarm ring, or drops it (R474). -/
def alarmPut (s : State) (a : Alarm) : State :=
  let prod := fld s.trace.alarmPtr 0 16
  let cons := fld s.trace.alarmPtr 16 16
  let size := 2 ^ fld s.trace.alarmCfg 4 4
  if !bit s.trace.alarmCfg 0 then s
  else if (prod + 65536 - cons) % 65536 ≥ size then
    { s with trace := { s.trace with alarmDropped := s.trace.alarmDropped + 1 } }
  else
    let at' := fld s.trace.alarmCfg 8 24 * 4096 + 16 * (prod % size)
    { s with far := if at' + 16 ≤ 48 * 2 ^ 30 then writeBytes s.far at' (alarmBytes s a) else s.far,
             trace := { s.trace with alarmPtr := setFld s.trace.alarmPtr 0 16 (prod + 1) } }

/-- The bindery writes the alarms of the tick and rings DB04 (R473 R474). -/
def flushAlarms (s : State) : State :=
  if s.trace.alarmPend.isEmpty then s
  else
    let s := s.trace.alarmPend.foldl alarmPut s
    ringHost { s with trace := { s.trace with alarmPend := [] } } 4

end Sys2Proof.Machine
end

