-- ==== Sys2Proof/Machine/Protect.lean ====
section
/-! DEFINITION. Reads and writes of banks and scratchpads with their protection: ECC, parity, the fix queue (R132
R148–R151 R165), over the latent bit errors of the environment (log entry 9). -/

namespace Sys2Proof.Machine

/-- What a read found in one code word or row: 1 or 2 corrected bits, or 3 for an uncorrectable error. -/
structure ReadNote where
  mem : Nat
  word : Nat
  sev : Nat
deriving DecidableEq, Repr

/-- The memory of a bank code (BANK.CE_LAST, R154). -/
def bankMem (qr : Quire) (bank : Nat) : Mem :=
  match bank with | 0 => qr.mem.weight | 1 => qr.mem.moment | 2 => qr.mem.scale | _ => qr.mem.grad

/-- Replaces the memory of a bank code. -/
def setBankMem (qr : Quire) (bank : Nat) (m : Mem) : Quire :=
  match bank with
  | 0 => { qr with mem := { qr.mem with weight := m } }
  | 1 => { qr with mem := { qr.mem with moment := m } }
  | 2 => { qr with mem := { qr.mem with scale := m } }
  | _ => { qr with mem := { qr.mem with grad := m } }

/-- Bytes of a code word (R132); a scratchpad has a parity bit per byte (R165). -/
def codeBytes (mem : Nat) : Nat := if mem = 3 then 8 else if mem ≥ 4 then 1 else 32

/-- A number for an error pattern. -/
def upsetKey (u : Upset) : Nat := (u.word * 8 + u.mem) * 512 + u.bits

/-- What the decoder makes of an error: 1 or 2 corrected bits, 3 uncorrectable, 4 reported as corrected with wrong data,
5 wrong data unreported (R148); the parity bit of a scratchpad byte finds an odd number of wrong bits and no even one (R165). -/
def upsetSev (u : Upset) : Nat :=
  if u.mem ≥ 4 then (if u.bits % 2 = 1 then 3 else 5)
  else if u.mem = 3 then
    (if u.bits = 1 then 1 else if u.bits = 2 then 3
     else match Config.beyondGuarantee (upsetKey u) with | 1 => 4 | 2 => 5 | _ => 3)
  else
    (if u.bits = 1 then 1 else if u.bits = 2 then 2 else if u.bits = 3 then 3
     else match Config.beyondGuarantee (upsetKey u) with | 1 => 4 | 2 => 5 | _ => 3)

/-- The bytes a word with this error delivers. -/
def upsetData (u : Upset) (good : List Byte) : List Byte :=
  match upsetSev u with
  | 3 => good.map (fun _ => 0)
  | 4 | 5 => (List.range good.length).map (fun i => Config.wrongByte (upsetKey u * 512 + i))
  | _ => good

/-- Replaces the bytes of one code word within bytes read from address a on. -/
def patchWord (a : Nat) (u : Upset) (bs : List Byte) : List Byte :=
  let w := codeBytes u.mem
  let good := slice bs (u.word * w - a) w
  let bad := upsetData u good
  (bs.zipIdx).map (fun p =>
    if u.word * w ≤ a + p.2 && a + p.2 < u.word * w + w then (bad[a + p.2 - u.word * w]?).getD 0 else p.1)

/-- The errors of a memory that a read of n bytes at address a meets. -/
def upsetsIn (qr : Quire) (mem a n : Nat) : List Upset :=
  let w := codeBytes mem
  qr.upsets.filter (fun u => decide (0 < n) && u.mem == mem && decide (u.word * w < a + n) && decide (a < u.word * w + w) && u.bits != 0)

/-- What a read notes of an error; of a scratchpad, the row (R154 R165 R188). -/
def upsetNote (u : Upset) : ReadNote :=
  { mem := u.mem, word := if u.mem ≥ 4 then u.word / 512 else u.word, sev := if upsetSev u = 4 then 1 else upsetSev u }

/-- Zeros in place of the scratchpad rows in which a read has found a parity error (R165). -/
def zeroRows (a : Nat) (notes : List ReadNote) (bs : List Byte) : List Byte :=
  (bs.zipIdx).map (fun p => if notes.any (fun n => n.word == (a + p.2) / 512) then 0 else p.1)

/-- The bytes a bank or scratchpad memory delivers, and what the read found. -/
def protRead (qr : Quire) (mem a n : Nat) : List Byte × List ReadNote :=
  let m := if mem ≥ 4 then spadMem qr (mem - 4) else bankMem qr mem
  let us := upsetsIn qr mem a n
  let bs := us.foldl (fun b u => patchWord a u b) (readBytes m a n)
  let notes := (us.filter (fun u => upsetSev u != 5)).map upsetNote
  (if mem ≥ 4 && !notes.isEmpty then zeroRows a notes bs else bs, notes)

/-- One or more rows of a scratchpad, with what the read found. -/
def readSpad (qr : Quire) (spad row n : Nat) : List Byte × List ReadNote := protRead qr (4 + spad) (512 * row) (512 * n)

/-- Writes bytes of a bank: fresh check bits for the words written, whose fix-queue entries are superseded (R149). -/
def writeBank (qr : Quire) (bank a : Nat) (bs : List Byte) : Quire :=
  let w := codeBytes bank
  let hit := fun word => decide (word * w < a + bs.length) && decide (a < word * w + w)
  let qr := setBankMem qr bank (writeBytes (bankMem qr bank) a bs)
  let fq := qr.bank.fixQueue.filter (fun p => !(p.1 == bank && hit p.2))
  { qr with upsets := qr.upsets.filter (fun u => !(u.mem == bank && hit u.word)),
            bank := { qr.bank with fixQueue := fq } }

/-- One corrected word: counted, recorded, queued for its write-back (R149 R154). -/
def noteCorrected (s : State) (q : Fin 64) (n : ReadNote) (scrub : Bool) (queue : Bool) : State :=
  let qr := s.quires[q]
  let b := qr.bank
  let b := if n.mem = 0 then { b with ceCount := setFld b.ceCount 0 32 (fld b.ceCount 0 32 + 1) }
           else if n.mem = 3 then { b with ceGrad := setFld b.ceGrad 0 32 (fld b.ceGrad 0 32 + 1) }
           else { b with ceCount := setFld b.ceCount 32 32 (fld b.ceCount 32 32 + 1) }
  let b := { b with ceLast := packFlds [(0, 2, n.mem), (2, 1, b2n (n.sev == 2)), (3, 1, b2n scrub), (8, 22, n.word)] }
  let there := b.fixQueue.any (fun p => p == (n.mem, n.word))
  let dropped := queue && !there && decide (b.fixQueue.length ≥ 16)
  let b := if dropped then { b with ceGrad := setFld b.ceGrad 32 32 (fld b.ceGrad 32 32 + 1) }
           else if queue && !there then { b with fixQueue := b.fixQueue ++ [(n.mem, n.word)] } else b
  let s := alarm (updQ s q (fun qr => { qr with bank := b })) 3 q.val 1
  if dropped then alarm s 4 q.val 1 else s

/-- The first uncorrectable error of a bank since the last clear (BANK.UE_INFO). `src`: 0 array or WPANEL, 1 update
engine, 2 stream engine, 3 accumulating write, 4 scrub. -/
def noteUncorrectable (qr : Quire) (n : ReadNote) (src : Nat) : Quire :=
  if bit qr.bank.ueInfo 30 then qr
  else { qr with bank := { qr.bank with
           ueInfo := packFlds [(0, 2, n.mem), (2, 3, src), (8, 22, n.word), (30, 1, 1)] } }

/-- The first parity error of a scratchpad row since the last clear (SCRATCH.PARITY_INFO). `src`: 0 array or drain,
1 ring stop, 2 vector engine, 3 stream engine, 4 WPANEL or descriptor fetch. -/
def noteParity (qr : Quire) (n : ReadNote) (src : Nat) : Quire :=
  if bit qr.stream.parityInfo 15 then qr
  else { qr with stream := { qr.stream with
           parityInfo := packFlds [(0, 2, n.mem - 4), (2, 10, n.word), (12, 3, src), (15, 1, 1)] } }

/-- Records what reads found, without raising a fault: corrected words are counted and queued, uncorrectable ones
recorded. -/
def noteReads (s : State) (q : Fin 64) (bankSrc spadSrc : Nat) (notes : List ReadNote) : State :=
  notes.foldl (fun s n =>
    if n.sev ≤ 2 then noteCorrected s q n (bankSrc == 4) (bankSrc != 3)
    else updQ s q (fun qr => if n.mem ≥ 4 then noteParity qr n spadSrc else noteUncorrectable qr n bankSrc)) s

/-- Did reads find an uncorrectable error? -/
def anyUncorrectable (notes : List ReadNote) : Bool := notes.any (fun n => n.sev == 3)

/-- Are two memories of one bank? The scale array is the moment bank's (R148 R149). -/
def sameBank (a b : Nat) : Bool := a == b || ((a == 1 || a == 2) && (b == 1 || b == 2))

/-- Writes back one queued word of a bank, oldest first (R149): the good data, or the wrong data that was taken for
corrected. -/
def fixWriteBack (qr : Quire) (bank : Nat) : Quire :=
  match qr.bank.fixQueue.find? (fun p => sameBank p.1 bank) with
  | none => qr
  | some p =>
    let w := codeBytes p.1
    writeBank qr p.1 (p.2 * w) (protRead qr p.1 (p.2 * w) w).1

end Sys2Proof.Machine
end

