-- ==== Sys2Proof/Machine/Turn.lean ====
section
/-! DEFINITION. The turns of the tasks of a quire: windows, the rotation of the fillers, lc that pass without an issue (R273
R274). -/

namespace Sys2Proof.Machine

/-! ## Whose turn (R273 R274) -/

/-- Is a filler in the rotation? -/
def fillerIn (sq : SeqUnit) (k : Fin 4) : Bool := k != 0 && sq.tasks[k].joined && sq.tasks[k].live

/-- Is any filler in the rotation? -/
def anyFiller (sq : SeqUnit) : Bool := fillerIn sq 1 || fillerIn sq 2 || fillerIn sq 3

/-- The filler of a rotation place. -/
def rotTask (r : Fin 3) : Fin 4 := ⟨r.val + 1, by omega⟩

/-- The filler whose turn the next lc of a window is. -/
def nextTurn (sq : SeqUnit) : Option (Fin 4) :=
  if fillerIn sq (rotTask sq.rot) then some (rotTask sq.rot)
  else if fillerIn sq (rotTask (sq.rot + 1)) then some (rotTask (sq.rot + 1))
  else if fillerIn sq (rotTask (sq.rot + 2)) then some (rotTask (sq.rot + 2))
  else none

/-- The place of the next running filler of the rotation behind filler k (R274). -/
def nextPlace (k : Fin 4) (sq : SeqUnit) : Fin 3 :=
  let p : Fin 3 := ⟨k.val % 3, by omega⟩
  if fillerIn sq (rotTask p) then p
  else if fillerIn sq (rotTask (p + 1)) then p + 1
  else if fillerIn sq (rotTask (p + 2)) then p + 2 else p

/-- The turn of filler k has been given: the lc is over and the pointer stands at the next running task of the rotation. -/
def afterTurn (k : Fin 4) (sq : SeqUnit) : SeqUnit := { sq with lc := sq.lc + 1, rot := nextPlace k sq }

/-- May a filler issue in the lc of its turn: not held by an IDLE, nor by a wait? -/
def mayFill (sq : SeqUnit) (k : Fin 4) : Bool :=
  sq.tasks[k].state == .running && decide (sq.tasks[k].idleUntil ≤ sq.lc)

/-- Passes n window lc in which no filler issues: the sequencer after them, and how many were a filler's turn and how
many had no running filler. None where a filler that may issue has its turn. -/
def passWindow : Nat → SeqUnit → Nat → Nat → Option (SeqUnit × Nat × Nat)
  | 0, sq, f, b => some (sq, f, b)
  | n + 1, sq, f, b =>
    match nextTurn sq with
    | none => some ({ sq with lc := sq.lc + n + 1 }, f, b + n + 1)
    | some k => if mayFill sq k then none else passWindow n (afterTurn k sq) (f + 1) b

/-- Passes turns up to one of filler t in which it may issue or retry its wait, at most n of them. -/
def seekTurn (t : Fin 4) : Nat → SeqUnit → Nat → Option (SeqUnit × Nat)
  | 0, _, _ => none
  | n + 1, sq, f =>
    match nextTurn sq with
    | none => none
    | some k =>
      if k = t && decide (sq.tasks[t].idleUntil ≤ sq.lc) then some (sq, f)
      else if mayFill sq k then none
      else seekTurn t n (afterTurn k sq) (f + 1)

/-- The lc in which a sequencer acts next at the earliest: that of a filler that may issue in the window, or the first lc of
task 0 behind it; at most n lc are passed. -/
def actLc : Nat → SeqUnit → Nat
  | 0, sq => sq.lc
  | n + 1, sq =>
    match nextTurn sq with
    | none => sq.lc + n + 1
    | some k => if mayFill sq k then sq.lc else actLc n (afterTurn k sq)

/-- The lc of a window up to lc l pass without an issue and are booked (R274 R407). -/
def passTo (l : Nat) (qr : Quire) : Quire :=
  match passWindow (min l qr.seq.winEnd - qr.seq.lc) qr.seq 0 0 with
  | none => qr
  | some r => bookIdle (bookIdle { qr with seq := r.1 } 7 r.2.1) 0 r.2.2

end Sys2Proof.Machine
end

