-- ==== Sys2Proof/Machine/Faults.lean ====
section
/-! DEFINITION. Stopping tasks, recording faults, hazards and token claims (R96 R158 R183 R214 R266 R276 R297 R322–R329
R377 R522). -/

namespace Sys2Proof.Machine

/-! ## Whether the lc of a quire pass -/

/-- The clock edge of a quire's next lc. -/
def nextEdge (qr : Quire) : Int := (qr.seq.lc : Int) + qr.edgeOff

/-- Do the lc of a quire pass: no halt, no stall, not waiting at a SPLICE (R114 R118 R120)? -/
def lcPass (qr : Quire) : Bool := !qr.rstop.halted && !qr.rstop.stalled && qr.rstop.splice.isNone

/-! ## Stopping a task -/

/-- Releases the taken messages of a port: their ring space becomes credit owed to the peer (R377). -/
def releaseTaken (p : Port) : Port := { p with owed := p.owed + p.takenBytes / 512, taken := 0, takenBytes := 0 }

/-- Releases the taken messages of every port a quire owns as receiver (R377). -/
def releaseOwned (s : State) (q : Fin 64) : State :=
  { s with ports := s.ports.map (fun p => if p.recvValid && p.recvQuire == q.val then releaseTaken p else p) }

/-- Discards pending landings that a test picks, counting descriptors and bytes (R183). -/
def discardLandings (qr : Quire) (pick : Landing → Bool) : Quire :=
  let gone := qr.stream.landings.filter pick
  let bytes := (gone.map (fun l => l.len * 512)).foldl (· + ·) 0
  let st := qr.stream
  { qr with stream := { st with
      landings := st.landings.filter (fun l => !pick l),
      discardDesc := setFld st.discardDesc 0 32 (fld st.discardDesc 0 32 + gone.length),
      discardBytes := st.discardBytes + BitVec.ofNat 64 bytes } }

/-- Rows of a commit that are written in lc w or later. -/
def commitHeld (w : Nat) (c : Commit) : Nat :=
  if w ≤ c.first then c.len else c.len - min c.len (ceilDiv (w - c.first) c.pace)

/-- The commits of a task end at an lc boundary: one that still has rows is a discarded landing, its bytes those of the
rows not written (R183); the next commit follows those of other tasks only (R177). -/
def stopCommits (boundary : Nat) (t : Fin 4) (qr : Quire) : Quire :=
  let left := ((qr.stream.commits.filter (fun c => c.task == t)).map (commitHeld boundary)).filter (· != 0)
  let st := qr.stream
  let kept := st.commits.filter (fun c => c.task != t)
  { qr with stream := { st with
      commits := kept, commitEnd := (kept.map (·.pastLast)).foldl max 0,
      discardDesc := setFld st.discardDesc 0 32 (fld st.discardDesc 0 32 + left.length),
      discardBytes := st.discardBytes + BitVec.ofNat 64 (512 * left.foldl (· + ·) 0) } }

/-- Drops the unsent writes of a task at a fault, counting their bytes (R183). -/
def dropWrites (qr : Quire) (t : Fin 4) : Quire :=
  let gone := qr.stream.writes.filter (fun w => w.task == t && !w.left)
  let bytes := (gone.map (fun w => w.data.length)).foldl (· + ·) 0
  { qr with stream := { qr.stream with
      writes := qr.stream.writes.filter (fun w => w.task != t || w.left),
      discardBytes := qr.stream.discardBytes + BitVec.ofNat 64 bytes } }

/-- The context of a task that stops: bounds not valid any more, no wait, no window (R276). -/
def stopContext (lc how : Nat) (tk : Task) : Task :=
  let tk := settleRegs (stopBound how lc) tk
  { tk with code := setFld tk.code 32 1 0, bound := setFld tk.bound 59 1 0, region := setFld tk.region 32 1 0,
            mwin := setFld tk.mwin 40 1 0, state := .stopped, pend := [], heldWord := none, joined := false,
            endedBy := how, runLc := lc }

/-- The stop of task 0 ends the run, the generators hold their state and the ring stop goes into pass-through (R57
R126). -/
def stopRun (qr : Quire) : Quire :=
  { qr with seq := { qr.seq with inRun := false, adv := qr.seq.lc, winEnd := qr.seq.lc },
            rstop := { qr.rstop with pass := true, waitOwner := false, splice := none,
                                     injFore := 0, injBack := 0, h0 := if qr.rstop.h0 = 3 then 2 else qr.rstop.h0,
                                     h1 := if qr.rstop.h1 = 3 then 2 else qr.rstop.h1 } }

/-- The effects in flight after a stop of task t at an lc boundary: those of earlier lc, and what remains of a write
STREAM that no fault has stopped, each row in its own lc (R96 R158 R183 R214 R266). -/
def stopFlight (how boundary : Nat) (t : Fin 4) (fl : List Event) : List Event :=
  fl.filter (fun e => e.task != t || decide (e.lc < boundary) || (e.op.isSend && how != 3))

/-- The accesses on ports after such a stop: those of earlier lc, and those of the rows that are still sent. -/
def stopPorts (how boundary : Nat) (t : Fin 4) (fl : List Event) (ps : List Access) : List Access :=
  ps.filter (fun a => a.task != t || decide (a.first < boundary) || (how != 3 && fl.any (fun e => e.task == t && e.op.sends a.x)))

/-- The array after such a stop: no tile of the task runs, and no drain of it begins or goes on (R96). -/
def stopArray (boundary : Nat) (t : Fin 4) (ar : ArrayUnit) : ArrayUnit :=
  let mine := ar.running.any (fun o => o.task == t)
  { ar with
    running := if mine then none else ar.running,
    lastChunk := if mine then min ar.lastChunk boundary else ar.lastChunk,
    drains := ar.drains.filter (fun d => d.task != t),
    draining := ar.draining.map (fun d => if d.task = t && d.stop.isNone then { d with stop := some boundary } else d) }

/-- The work of a task in every unit of its quire stops at the lc boundary (R96 R158 R183 R214 R266). `how`: 1 END,
2 ABORT_TASK, 3 fault. -/
def stopUnits (how : Nat) (t : Fin 4) (qr : Quire) : Quire :=
  let lc := qr.seq.lc
  let qr := discardLandings qr (fun l => l.task == t)
  let qr := if how = 3 then dropWrites qr t else qr
  let qr := { qr with array := stopArray (stopBound how lc) t qr.array,
                      flight := stopFlight how (stopBound how lc) t qr.flight,
                      ports := stopPorts how (stopBound how lc) t qr.flight qr.ports }
  let qr := stopCommits (stopBound how lc) t qr
  let qr := if qr.vec.task = t then { qr with vec := { qr.vec with lastBeat := min qr.vec.lastBeat lc } } else qr
  let qr := { qr with vec := { qr.vec with runs := qr.vec.runs.filter (fun r => r.task != t) } }
  let qr := if t = 0 then { qr with upd := { qr.upd with runs := [] } } else qr
  let qr := updTask qr t (stopContext lc how)
  if t = 0 then stopRun qr else qr

/-- A quire's part of the command that started its task is over (R436). -/
def cmdQuireEnded (q : Fin 64) (t : Fin 4) (how lc : Nat) (c : Cmd) : Cmd :=
  if c.st == .running && (c.opcode == 0x05 || c.opcode == 0x08) && c.task == t && c.quires.contains q.val then
    { c with quires := c.quires.filter (fun x => x != q.val),
             stopped := if how = 1 then c.stopped else c.stopped ||| (1#64 <<< q.val),
             maxLc := max c.maxLc (stopBound how lc), faulted := c.faulted || how == 3 }
  else c

/-- The idle cause of a quire that stands: throttled, held by its own wait, else by another quire or at a SPLICE (R407 R408). -/
def standCause (qr : Quire) : Nat :=
  if qr.rstop.stalled then 4 else if qr.seq.tasks[0].state = .held then qr.seq.tasks[0].heldCause else 6

/-- The stop of task 0 ends a halt of its quire's own: the periods halted so far are booked. How many they are no command says:
a free value (R407; log entry 16). -/
def bookStand (s : State) (q : Fin 64) : State :=
  if lcPass s.quires[q] || !s.quires[q].seq.inRun then s
  else
    let (n, s) := takeFree s
    updQ s q (fun qr => bookIdle qr (standCause qr) n.toNat)

/-- Stops a live task of a quire. -/
def stopTask (s : State) (q : Fin 64) (t : Fin 4) (how : Nat) : State :=
  if !(s.quires[q].seq.tasks[t]).live then s
  else
    let lc := s.quires[q].seq.lc
    let s := if t = 0 then bookStand s q else s
    let s := updQ s q (stopUnits how t)
    let s := if t = 0 then releaseOwned s q else s
    let s := { s with bind := { s.bind with cmds := s.bind.cmds.map (cmdQuireEnded q t how lc) } }
    traceQ s q t 0

/-- Stops every task of a quire (R297). -/
def stopQuire (s : State) (q : Fin 64) (how : Nat) : State :=
  (List.finRange 4).foldl (fun s t => stopTask s q t how) s

/-! ## Raising a fault (R297 R468) -/

/-- A unit raises a fault of a class: the quire stops, the faulting task's STATE reads 3, and the fault is on its way to
the latch. -/
def raiseFault (s : State) (q : Fin 64) (t : Fin 4) (cls : Nat) : State :=
  let s := traceQ s q t 5
  let s := stopQuire s q 3
  let s := updT s q t (fun tk => { tk with state := .faulted })
  { s with bind := { s.bind with raised := s.bind.raised ++
      [{ cls := cls, quire := some q, link := 0, originClass := 0, originId := 0, tick := tick s }] } }

/-- A fault of no quire: links, clocks, power (R468). -/
def raiseDie (s : State) (cls link originClass : Nat) (originId : BitVec 32) : State :=
  { s with bind := { s.bind with raised := s.bind.raised ++
      [{ cls := cls, quire := none, link := link, originClass := originClass, originId := originId, tick := tick s }] } }

/-- The FAULT registers of a quire's units (R522). -/
inductive FaultReg where
  | array | wpanel | rstop | stream | vec | upd | seq
deriving DecidableEq, Repr

/-- A FAULT register that holds the first fault since the last clear. -/
def firstFault (old : Word) (cause : Nat) (t : Fin 4) (extra : List (Nat × Nat × Nat)) : Word :=
  if bit old 6 then old else packFlds ([(0, 4, cause), (4, 2, t.val), (6, 1, 1)] ++ extra)

/-- Records a fault in a unit's FAULT register. -/
def recordFault (qr : Quire) (r : FaultReg) (cause : Nat) (t : Fin 4) : Quire :=
  match r with
  | .array => { qr with array := { qr.array with fault := firstFault qr.array.fault cause t [] } }
  | .wpanel => { qr with array := { qr.array with fault := firstFault qr.array.fault cause t [(7, 1, 1)] } }
  | .rstop => { qr with rstop := { qr.rstop with fault := firstFault qr.rstop.fault cause t [] } }
  | .stream => { qr with stream := { qr.stream with fault := firstFault qr.stream.fault cause t [] } }
  | .vec => { qr with vec := { qr.vec with fault := firstFault qr.vec.fault cause t [] } }
  | .upd => { qr with upd := { qr.upd with fault := firstFault qr.upd.fault cause t [] } }
  | .seq => { qr with seq := { qr.seq with
      fault := firstFault qr.seq.fault cause t [(7, 13, qr.seq.tasks[t].pc.toNat)] } }

/-- A fault at issue: recorded in one register, and of class PROGRAM (R470 R522). -/
def programFault (s : State) (q : Fin 64) (t : Fin 4) (r : FaultReg) (cause : Nat) : State :=
  raiseFault (updQ s q (fun qr => recordFault qr r cause t)) q t 7

/-- An uncorrectable memory error met by a task (R94 R151 R165): the unit's register records it where it has a cause,
and the fault is of class MEMORY. -/
def memoryFault (s : State) (q : Fin 64) (t : Fin 4) (r : Option (FaultReg × Nat)) : State :=
  let s := match r with
    | none => s
    | some (r, cause) => updQ s q (fun qr => recordFault qr r cause t)
  raiseFault s q t 2

/-- A fault found in lc l stops the quire there: the lc of a window up to it have passed, and where its sequencer has passed on
to a later lc, the bubbles booked beyond did not come about. -/
def rewind (s : State) (q : Fin 64) (l : Nat) : State :=
  updQ s q (fun qr =>
    if qr.seq.lc ≤ l then passTo l qr
    else
      let n := qr.seq.lc - (l + 1)
      { qr with seq := { qr.seq with lc := l, winEnd := l },
                idleCause := qr.idleCause.set 0 (qr.idleCause[0] - BitVec.ofNat 64 n) })

/-- An uncorrectable memory error found by an access of lc l. -/
def accessFault (s : State) (q : Fin 64) (t : Fin 4) (l : Nat) (r : Option (FaultReg × Nat)) : State :=
  memoryFault (rewind s q l) q t r

/-! ## Hazards (R328 R329) -/

/-- Is the hazard checker on for the runs in progress, its domain PD13 up (R328 R351)? -/
def hazOn (s : State) : Bool := bit s.con.debugActive 0 && s.pwr.on.getLsbD 13

/-- The checker counts a hazard and records the first. -/
def noteHazard (s : State) (q : Fin 64) (t : Fin 4) (kind unit lc : Nat) : State :=
  traceQ (updQ s q (fun qr =>
    { qr with
      hazCount := setFld qr.hazCount 0 32 (satAdd 32 (fld qr.hazCount 0 32) 1),
      hazInfo := if bit qr.hazInfo 9 then qr.hazInfo
                 else packFlds [(0, 3, kind), (3, 4, unit), (7, 2, t.val), (9, 1, 1), (10, 32, lc)] })) q t 6

/-- The checker reports a hazard: counted, the first recorded, and with HAZ_STOP a fault for kinds 1 to 3. -/
def hazard (s : State) (q : Fin 64) (t : Fin 4) (kind unit lc : Nat) : State :=
  if !hazOn s then s
  else
    let s := noteHazard s q t kind unit lc
    if bit s.con.debugActive 1 && kind ≤ 3 then raiseFault s q t 9 else s

/-- A hazard that the checker finds in an access of lc l. -/
def hazardAt (s : State) (q : Fin 64) (t : Fin 4) (kind unit l : Nat) : State :=
  if hazOn s && bit s.con.debugActive 1 && kind ≤ 3 then hazard (rewind s q l) q t kind unit l else hazard s q t kind unit l

/-! ## Token claims (R322–R327) -/

/-- The clock edge whose lc a quire is in at a clock edge of the die: a quire that stands is in the lc held (R322). -/
def standsAt (qr : Quire) (e : Int) : Int := if lcPass qr || !qr.seq.inRun then e else min e (nextEdge qr)

/-- The sum of the claims that quires of a test hold at a clock edge of the die. -/
def liveSum (s : State) (e : Int) (pick : Fin 64 → Bool) : Nat :=
  (allQuires.filter pick).foldl (fun a q =>
    let qr := s.quires[q]
    let e := standsAt qr e
    let live := qr.claims.filter (fun c => decide ((c.first : Int) + qr.edgeOff ≤ e) && decide (e ≤ (c.last : Int) + qr.edgeOff))
    a + (live.map (·.tok)).foldl (· + ·) 0) 0

/-- The folio sum and the die sum at the first lc of a claim of quire q. -/
def sumsAt (s : State) (q : Fin 64) (first : Nat) : Nat × Nat :=
  let e := (first : Int) + s.quires[q].edgeOff
  (liveSum s e (fun b => b.val / 4 == q.val / 4), liveSum s e (fun _ => true))

/-- Keeps the largest sums seen (TOKEN.DIE.PEAK, TOKEN.FOLIO.PEAK). -/
def notePeaks (s : State) (q : Fin 64) (sums : Nat × Nat) : State :=
  let f := folioOf q
  { s with con := { s.con with diePeak := max s.con.diePeak sums.2,
                               folioPeak := s.con.folioPeak.set f (max s.con.folioPeak[f] sums.1) } }

/-- Does a claim take a sum above its pool at its first lc: the folio sum, the die sum? -/
def overdraws (s : State) (q : Fin 64) (c : Claim) : Bool × Bool :=
  let sums := sumsAt s q c.first
  (c.tok != 0 && decide (sums.1 > fld s.con.pool 24 16), c.tok != 0 && decide (sums.2 > fld s.con.pool 0 24))

/-- Does claim a come before claim b in the order of R325: logical quire, task, span before drain? -/
def claimBefore (a b : Fin 64 × Claim) : Bool :=
  if a.1 != b.1 then decide (a.1.val < b.1.val)
  else if a.2.task != b.2.task then decide (a.2.task.val < b.2.task.val)
  else !a.2.drain && b.2.drain

/-- The clock edge of the die at which a claim begins. -/
def claimEdge (s : State) (p : Fin 64 × Claim) : Int := (p.2.first : Int) + s.quires[p.1].edgeOff

/-- The overdrawing claims of every quire that begin in a span of edges. -/
def overdrawn (s : State) (lo hi : Int) : List (Fin 64 × Claim) :=
  (allQuires.flatMap (fun q => s.quires[q].claims.map (fun c => (q, c)))).filter (fun p =>
    let e := claimEdge s p
    let o := overdraws s p.1 p.2
    decide (lo ≤ e) && decide (e ≤ hi) && (o.1 || o.2))

/-- The first of overdrawing claims in the order of R325. -/
def firstClaim (l : List (Fin 64 × Claim)) : Option (Fin 64 × Claim) :=
  l.foldl (fun best p =>
    match best with
    | none => some p
    | some b => if claimBefore p b then some p else some b) none

/-- TOKEN.FAULT with the first overdraw since the last clear; a claim that joins the recorded overdraw in its lc may come
before the recorded one. -/
def recordOverdraw (s : State) (p : Fin 64 × Claim) (seen : List (Fin 64 × Claim)) (throttled : Bool) : State :=
  let old := s.con.tokFault
  let same := seen.any (fun b => fld old 7 6 == b.1.val && fld old 13 2 == b.2.task.val && fld old 15 12 == b.2.tok)
  if bit old 0 && !same then s
  else
    let o := overdraws s p.1 p.2
    let w := packFlds [(0, 1, 1), (1, 1, b2n o.2), (2, 1, b2n throttled), (3, 4, p.1.val / 4), (7, 6, p.1.val),
      (13, 2, p.2.task.val), (15, 12, p.2.tok), (27, 1, b2n (o.1 && o.2))]
    { s with con := { s.con with tokFault := w } }

/-- Halts the gathering of an overdrawing quire until its throttle is over (R327). -/
def throttle (s : State) (q : Fin 64) : State :=
  let back := max 1 (fld s.con.debugActive 8 8)
  let gq := gatheringQuires s q
  let s := gq.foldl (fun s b => updQ s b (fun qr => { qr with rstop := { qr.rstop with stalled := true } })) s
  { s with con := { s.con with throttled := s.con.throttled ++ [(q.val, tick s + back)] } }

/-- Throttles each gathering with an overdraw once per lc. -/
def throttleEach (s : State) (seen fresh : List (Fin 64 × Claim)) : State :=
  (fresh.foldl (fun (r : State × List (Fin 64)) p =>
    if (gatheringQuires s p.1).any (fun b => r.2.contains b) then r else (throttle r.1 p.1, p.1 :: r.2))
    (s, seen.map (·.1))).1

/-- Do overdraws throttle instead of faulting (R327)? -/
def throttling (s : State) : Bool := bit s.con.debugActive 0 && bit s.con.debugActive 2

/-- The overdraw at one clock edge: every claim that begins there and adds to an exceeded sum faults its instruction, or
throttles its gathering (R325 R327). -/
def judgeEdge (s : State) (e : Int) : State :=
  let all := overdrawn s e e
  let seen := all.filter (fun p => p.2.judged)
  let fresh := all.filter (fun p => !p.2.judged)
  let s := match firstClaim all with | none => s | some p => recordOverdraw s p seen (throttling s)
  let s := updAllQ s (fun _ qr =>
    { qr with claims := qr.claims.map (fun c =>
        if (c.first : Int) + qr.edgeOff = e then { c with judged := true } else c) })
  if throttling s then throttleEach s seen fresh
  else fresh.foldl (fun s p => raiseFault (rewind s p.1 p.2.first) p.1 p.2.task 6) s

/-- A claim of a quire begins in lc l: the sums of that clock edge are noted, and every claim that begins there is judged
(R325 R334). -/
def claimAt (s : State) (q : Fin 64) (l : Nat) : State :=
  judgeEdge (notePeaks s q (sumsAt s q l)) ((l : Int) + s.quires[q].edgeOff)

/-- Makes a claim, which begins in its first lc (R322). -/
def claimTok (s : State) (q : Fin 64) (c : Claim) : State :=
  if c.tok = 0 then s
  else later (updQ s q (fun qr => { qr with claims := qr.claims ++ [c] })) q c.task c.first 0 .claim

/-- Drops the claims of a quire that are over. -/
def pruneClaims (qr : Quire) : Quire :=
  { qr with claims := qr.claims.filter (fun c => decide (qr.seq.lc ≤ c.last)) }

end Sys2Proof.Machine
end

