-- ==== Sys2Proof/Machine/Ports.lean ====
section
/-! DEFINITION. The ports of the banks and scratchpads: which access a double-booked port serves, and what the hazard checker
finds (R134 R156 R157 R160 R161 R164 R191 R263 R521). -/

namespace Sys2Proof.Machine

/-! ## Ports -/

/-- Accesses that a port takes in an lc, or gradient quarters. -/
def portCap (port : Nat) : Nat := match port with | 2 => 4 | 5 | 6 | 9 | 10 | 11 => 2 | _ => 1

/-- The unit of HAZ.INFO that a port belongs to (R334). -/
def portUnit (port : Nat) : Nat := if port ≤ 5 then port else if port ≤ 8 then 5 else port - 6

/-- A row read of a scratchpad: partial-sum rows take 4 lc (R164), staging two banks (R161). -/
def rowRead (rank x : Nat) (t : Fin 4) (spad row l : Nat) : Access :=
  { port := match spad with | 0 => 3 | 1 => 4 | _ => 5 + row % 2, first := l, span := if spad = 1 then 4 else 1,
    qty := 1, sub := 0, rank := rank, x := x, task := t, id := row }

/-- A row write with its commit in lc l: of a partial-sum row the 4 lc that end there (R164). -/
def rowWrite (rank x : Nat) (t : Fin 4) (spad row l : Nat) : Access :=
  { port := match spad with | 0 => 3 | 1 => 4 | _ => 7 + row % 2, first := if spad = 1 then l - 3 else l,
    span := if spad = 1 then l + 1 - (l - 3) else 1, qty := 1, sub := 0, rank := rank, x := x, task := t, id := row }

/-- A read of block scales through the scale port of a scratchpad (R521). -/
def scaleRead (rank x : Nat) (t : Fin 4) (spad id l : Nat) : Access :=
  { port := 9 + spad, first := l, span := 1, qty := 1, sub := 0, rank := rank, x := x, task := t, id := id }

/-- An access of a bank port in one lc. -/
def bankAccess (rank x : Nat) (t : Fin 4) (port qty sub id l : Nat) : Access :=
  { port := port, first := l, span := 1, qty := qty, sub := sub, rank := rank, x := x, task := t, id := id }

/-! ## Precedence (R157 R164) -/

/-- Does an access come before another: by rank, within a rank by issue? -/
def Access.before (a b : Access) : Bool := decide (a.rank < b.rank) || (a.rank == b.rank && decide (a.x < b.x))

/-- Inserts an access behind those that come before it or with it. -/
def insertAccess (a : Access) : List Access → List Access
  | [] => [a]
  | b :: bs => if a.before b then a :: b :: bs else b :: insertAccess a bs

/-- Is an access on its port in an lc? -/
def Access.covers (a : Access) (l : Nat) : Bool := decide (a.first ≤ l) && decide (l < a.first + a.span)

/-- Has the port room for an access beside those it serves, in every lc of it? The quarters that two UPDs both name meet
(R263). -/
def portRoom (served : List Access) (a : Access) : Bool :=
  (List.range a.span).all (fun i =>
    let there := served.filter (fun b => b.port == a.port && b.covers (a.first + i))
    decide ((there.map (·.qty)).foldl (· + ·) 0 + a.qty ≤ portCap a.port) && !(a.sub != 0 && there.any (fun b => b.sub == a.sub)))

/-- Those of accesses in the order of precedence that their ports serve: one that is not served takes nothing. -/
def servedOf (l : List Access) : List Access := l.foldl (fun served a => if portRoom served a then a :: served else served) []

/-- Is an access served? -/
def portServes (qr : Quire) (a : Access) : Bool :=
  !qr.ports.contains a || (servedOf (qr.ports.filter (fun b => b.port == a.port))).contains a

/-! ## Claims on ports -/

/-- Places an access on its port; one that is there already is not placed again. -/
def placeAccess (qr : Quire) (a : Access) : Quire :=
  if qr.ports.contains a then qr else { qr with ports := insertAccess a qr.ports }

/-- Places accesses that the stop of their task does not come before. -/
def placeAll (as : List Access) (qr : Quire) : Quire :=
  as.foldl (fun qr a => if qr.seq.tasks[a.task].reaches a.first then placeAccess qr a else qr) qr

/-- Places the accesses of source rows, which go on after an END or an ABORT_TASK (R183). -/
def placeSends (as : List Access) (qr : Quire) : Quire :=
  as.foldl (fun qr a =>
    let tk := qr.seq.tasks[a.task]
    if tk.reaches a.first || tk.endedBy != 3 then placeAccess qr a else qr) qr

/-- Places accesses of a quire. -/
def placePorts (s : State) (q : Fin 64) (as : List Access) : State := updQ s q (placeAll as)

/-- Withdraws the accesses that a test picks. -/
def withdraw (pick : Access → Bool) (qr : Quire) : Quire := { qr with ports := qr.ports.filter (fun a => !pick a) }

/-- In how many lc do accesses use a port? -/
def lcUsed (port : Nat) (as : List Access) : Nat := (((as.filter (fun a => a.port == port)).map (·.first)).eraseDups).length

/-- Drops the accesses that are over long before lc l; the lc in which they used the weight and the moment port are counted
(R150). -/
def prunePorts (l : Nat) (qr : Quire) : Quire :=
  let past := fun a : Access => !decide (l ≤ a.first + a.span + 4)
  let gone := qr.ports.filter past
  { qr with ports := qr.ports.filter (fun a => !past a),
            bank := { qr.bank with usedW := qr.bank.usedW + lcUsed 0 gone, usedM := qr.bank.usedM + lcUsed 1 gone } }

/-- An access is lost: counted, and reported as a double-booked port (R157 R164 R329). -/
def loseAccess (s : State) (q : Fin 64) (l : Nat) (a : Access) : State :=
  let s := updQ s q (fun qr =>
    if a.port ≤ 2 then
      { qr with bank := { qr.bank with portConflict := setFld qr.bank.portConflict 0 32 (fld qr.bank.portConflict 0 32 + 1) } }
    else
      { qr with stream := { qr.stream with spadConflict := setFld qr.stream.spadConflict 0 32 (fld qr.stream.spadConflict 0 32 + 1) } })
  hazardAt s q a.task 1 (portUnit a.port) l

/-! ## Reads (R157 R164 R165) -/

/-- The memory of a stream target: scratchpads from 4 on, banks by their code. -/
def targetMem (target : Nat) : Nat := match target with | 0 => 4 | 1 => 5 | 2 => 6 | 3 => 0 | 4 => 1 | 5 => 3 | _ => 2

/-- Does an effect in flight write bytes of a range of a memory as part of a stream commit, in an lc after l? -/
def commitsInto (l mem a n : Nat) (e : Event) : Bool :=
  match e.op with
  | .commitRow _ target row k pace rows =>
    targetMem target == mem && (List.range rows.length).any (fun j =>
      decide (512 * (row + j) < a + n) && decide (a < 512 * (row + j + 1)) && decide (l < if j = 0 then e.lc else e.lc + j * pace - k))
  | _ => false

/-- A read of a row of a commit before the row's commit lc is a hazard (R191). -/
def noteInside (s : State) (q : Fin 64) (t : Fin 4) (l unit mem a n : Nat) : State :=
  if hazOn s && s.quires[q].flight.any (commitsInto l mem a n) then hazardAt s q t 2 unit l else s

/-- What a read brings: the state after it, its bytes, and what it found; zeros where its port does not serve it. -/
structure Got where
  s : State
  bytes : List Byte
  notes : List ReadNote
  lost : Bool

/-- A read of n bytes of a memory by an access in lc l. -/
def portRead (s : State) (q : Fin 64) (l : Nat) (a : Access) (mem at' n : Nat) : Got :=
  if portServes s.quires[q] a then
    let r := protRead s.quires[q] mem at' n
    { s := noteInside s q a.task l (portUnit a.port) mem at' n, bytes := r.1, notes := r.2, lost := false }
  else { s := loseAccess s q l a, bytes := List.replicate n 0, notes := [], lost := true }

/-- A read of a row of a scratchpad by an access in lc l. -/
def rowReadAt (s : State) (q : Fin 64) (l : Nat) (a : Access) (spad : Nat) : Got := portRead s q l a (4 + spad) (512 * a.id) 512

/-- The scratchpad of a row port. -/
def portSpad (port : Nat) : Nat := match port with | 3 => 0 | 4 => 1 | _ => 2

/-- A write of a row of a scratchpad at the end of lc l: it leaves the row unchanged where its port does not serve it. -/
def rowWriteAt (s : State) (q : Fin 64) (l : Nat) (a : Access) (bytes : List Byte) : State :=
  if portServes s.quires[q] a then updQ s q (fun qr => putRows qr (portSpad a.port) a.id [bytes]) else loseAccess s q l a

/-- A row write on its way: its access and its effect. -/
def laterRow (s : State) (q : Fin 64) (t : Fin 4) (l : Nat) (a : Access) (bytes : List Byte) : State :=
  later (placePorts s q [a]) q t l 2 (.writeRow a bytes)

end Sys2Proof.Machine
end

