-- ==== Sys2Proof/Machine/StreamFlow.lean ====
section
/-! DEFINITION. What the stream engine does in each lc: rows of commits written, source rows of writes read, descriptor rows
loaded (R173 R177 R182 R183). -/

namespace Sys2Proof.Machine

/-- The bank code of a bank target. -/
def targetBank (target : Nat) : Nat := match target with | 3 => 0 | 4 => 1 | 5 => 3 | _ => 2

/-- lc that the port of a target takes for a row, bytes of each, and the port with the quarters it takes (R25 R134). -/
def targetLcs (target : Nat) : Nat := match target with | 3 | 5 => 2 | 4 | 6 => 4 | _ => 1
def targetBytes (target : Nat) : Nat := 512 / targetLcs target
def targetPort (target : Nat) : Nat := match target with | 3 => 0 | 5 => 2 | _ => 1

/-- The access of piece k of a row of a bank, in lc l. -/
def pieceAccess (x : Nat) (t : Fin 4) (target row k l : Nat) : Access :=
  bankAccess 4 x t (targetPort target) (if target = 5 then 2 else 1) 0 (4 * row + k) l

/-- The access that a commit makes in the lc l of its row, or of piece k of it. -/
def commitAccess (x : Nat) (t : Fin 4) (target row k l : Nat) : Access :=
  if target ≤ 2 then rowWrite 6 x t target row l else pieceAccess x t target row k l

/-- The access that a source row read makes, or piece k of it. -/
def sendAccess (x : Nat) (t : Fin 4) (target row k l : Nat) : Access :=
  if target ≤ 2 then rowRead 6 x t target row l else pieceAccess x t target row k l

/-- One step of a commit on its way, with its access. -/
def laterCommit (s : State) (q : Fin 64) (t : Fin 4) (l x target row k pace : Nat) (rows : List (List Byte)) : State :=
  later (placePorts s q [commitAccess x t target row k l]) q t l 2 (.commitRow x target row k pace rows)

/-- A commit writes its next row at the end of lc l, a row of a bank piece by piece, and the row after it PACE lc later
(R134 R177). -/
def commitRowAt (s : State) (q : Fin 64) (t : Fin 4) (l x target row k pace : Nat) (rows : List (List Byte)) : State :=
  match rows with
  | [] => s
  | bs :: rest =>
    let a := commitAccess x t target row k l
    let n := targetBytes target
    let s := if target ≤ 2 then rowWriteAt s q l a bs
      else if portServes s.quires[q] a then
        updQ s q (fun qr => writeBank qr (targetBank target) (512 * row + n * k) (slice (bs.drop (n * k)) 0 n))
      else loseAccess s q l a
    if k + 1 < targetLcs target then laterCommit s q t (l + 1) x target row (k + 1) pace rows
    else if rest.isEmpty then s else laterCommit s q t (l + pace - k) x target (row + 1) 0 pace rest

/-- SDLOAD reads its row in the lc after its issue x; the entries are usable from the next lc on (R173 R306). DESIGN CHOICE: a
parity error in the row is one that the stream engine met, PARITY_INFO.SOURCE 3 and STREAM.FAULT cause 5; the spec names
neither for SDLOAD (log entry 43). -/
def sdloadAt (s : State) (q : Fin 64) (t : Fin 4) (l : Nat) (second : Bool) (row : Nat) : State :=
  let g := rowReadAt s q l (rowRead 6 (l - 1) t 2 row l) 2
  let s := noteReads g.s q 2 3 g.notes
  if anyUncorrectable g.notes then accessFault s q t l (some (.stream, 5))
  else updT s q t (fun tk => { tk with sdtPend := tk.sdtPend ++ [{ lc := l + 1, second := second, bytes := g.bytes }] })

/-- Bytes enter the outbound store as the next of the write that task t issued in lc x. -/
def storeSent (x : Nat) (t : Fin 4) (bytes : List Byte) (qr : Quire) : Quire :=
  { qr with stream := { qr.stream with
      writes := qr.stream.writes.map (fun o =>
        if o.x = x && o.task = t && decide (o.data.length < 512 * o.len) then { o with data := o.data ++ bytes } else o) } }

/-- A source row in error ends a write: the rows read before it have left, none of it or after it is sent (R192). -/
def cutSend (x : Nat) (t : Fin 4) (j : Nat) (qr : Quire) : Quire :=
  let ws := qr.stream.writes.map (fun o => if o.x = x && o.task = t then { o with len := j, left := true } else o)
  { qr with stream := { qr.stream with writes := ws.filter (fun o => o.len != 0) } }

/-- One step of a write STREAM on its way, with its access. -/
def laterSend (s : State) (q : Fin 64) (t : Fin 4) (l x target row j k pace len : Nat) : State :=
  later (updQ s q (placeSends [sendAccess x t target (row + j) k l])) q t l 0 (.send x target row j k pace len)

/-- Source row j of a write STREAM enters the outbound store, a row of a bank piece by piece, the next row PACE lc later
(R182); a partial-sum row at the end of its 4 lc, since its port may yet be lost in any of them (R164). -/
def sendAt (s : State) (q : Fin 64) (t : Fin 4) (l x target row j k pace len : Nat) : State :=
  let a := sendAccess x t target (row + j) k l
  let n := targetBytes target
  let g := if target ≤ 2 then rowReadAt s q l a target
    else portRead s q l a (targetBank target) (512 * (row + j) + n * k) n
  let s := noteReads g.s q 2 3 g.notes
  if anyUncorrectable g.notes then
    if target ≤ 2 then accessFault (updQ s q (cutSend x t j)) q t l (some (.stream, 5)) else accessFault s q t l none
  else
    let s := if target = 1 && !g.lost then later s q t (l + 3) 2 (.sent x a g.bytes) else updQ s q (storeSent x t g.bytes)
    if k + 1 < targetLcs target then laterSend s q t (l + 1) x target row j (k + 1) pace len
    else if j + 1 < len then laterSend s q t (l + pace - k) x target row (j + 1) 0 pace len else s

/-- A partial-sum source row enters the outbound store: zeros where its port has been lost meanwhile. -/
def sentAt (s : State) (q : Fin 64) (t : Fin 4) (l x : Nat) (a : Access) (bytes : List Byte) : State :=
  if portServes s.quires[q] a then updQ s q (storeSent x t bytes)
  else updQ (loseAccess s q l a) q (storeSent x t (List.replicate 512 0))

end Sys2Proof.Machine
end

