-- ==== Sys2Proof/Machine/Spine.lean ====
section
/-! DEFINITION. The spines, and what a ring stop does in each lc: slots placed, landed, reduced, halves copied (file 04,
R291). -/

namespace Sys2Proof.Machine

/-! ## Positions and deliveries (R103 R105 R113) -/

/-- The architected position of a quire (R103). -/
def posP (q : Nat) : Nat := 11 * (q / 4) + 4 * (q / 16) + 2 * (q % 4)

/-- The half loop h of the gathering of a quire: P(last) − P(first) + 5 (R113). -/
def halfLoop (m : BitVec 16) (q : Nat) : Nat :=
  let g := gatheringOf m (q / 4)
  posP (4 * g.2 + 3) - posP (4 * g.1) + 5

/-- The loop coordinate of a quire on a leg of its gathering (R113). -/
def coord (m : BitVec 16) (q : Nat) (back : Bool) : Nat :=
  let g := gatheringOf m (q / 4)
  if back then halfLoop m q + posP (4 * g.2 + 3) - posP q else posP q - posP (4 * g.1)

/-- The length of the loop a slot of quire a runs: 192 on the unspliced die, Λ in a gathering (R105 R113). -/
def loopLen (m : BitVec 16) (a : Nat) : Nat := if m = 0 then 192 else 2 * halfLoop m a

/-- lc from one lc after the injection at a to the delivery at b; none where the slot never meets b on that leg. -/
def slotDist (m : BitVec 16) (a : Fin 64) (la : Bool) (b : Fin 64) (lb : Bool) : Option Nat :=
  if m = 0 then
    (if la != lb then none
     else if la then some ((posP a.val + 192 - posP b.val) % 192) else some ((posP b.val + 192 - posP a.val) % 192))
  else if sameGathering m a b then
    some ((coord m b.val lb + loopLen m a.val - coord m a.val la) % loopLen m a.val)
  else none

/-- Does a slot with RET meet stop b on leg lb before the end of its own leg (R109)? -/
def retReaches (m : BitVec 16) (a : Fin 64) (la : Bool) (b : Fin 64) (lb : Bool) : Bool :=
  m == 0 || (la == lb && decide (coord m a.val la ≤ coord m b.val lb))

/-- Is the slot delivered to stop b on leg lb at spine time d? -/
def meets (m : BitVec 16) (sl : Slot) (b : Fin 64) (lb : Bool) (d : Int) : Bool :=
  match slotDist m sl.origin sl.back b lb with
  | none => false
  | some k => sl.t0 + 1 + k == d && decide (sl.born < d) && (sl.left.all (fun l => decide (d ≤ l)))
      && (!sl.ret || retReaches m sl.origin sl.back b lb)

/-- The slot delivered to a stop at a spine time. -/
def slotAt (s : State) (b : Fin 64) (lb : Bool) (d : Int) : Option Slot :=
  s.spine.slots.find? (fun sl => meets s.spine.layout sl b lb d)

/-- The slot delivered to a stop at a spine time leaves there, with what a REDUCE of the stop has made of it: later stops do not
meet it. -/
def leaveAt (s : State) (b : Fin 64) (lb : Bool) (d : Int) : State :=
  let f := fun sl : Slot =>
    if meets s.spine.layout { sl with born := min sl.born (d - 1) } b lb d then { sl with left := some d } else sl
  { s with spine := { s.spine with slots := s.spine.slots.map f } }

/-- Puts a new slot on a spine. -/
def placeSlot (s : State) (sl : Slot) : State := { s with spine := { s.spine with slots := s.spine.slots ++ [sl] } }

/-- The spine time of an lc of a quire. -/
def spineTime (s : State) (q : Fin 64) (lc : Nat) : Int := (lc : Int) + s.quires[q].spineOff

/-! ## The INJECT word (R285) -/

/-- The fields of an INJECT word (R285). -/
def injBack (w : Word) : Bool := bit w 6
def injKind (w : Word) : Nat := fld w 7 2
def injFmt (w : Word) : Nat := fld w 9 3
def injSrc (w : Word) : Nat := fld w 12 2
def injRef (w : Word) : Nat := fld w 14 16
def injCount (w : Word) : Nat := fld w 30 10
def injGap (w : Word) : Nat := 2 ^ fld w 40 2
def injRet (w : Word) : Bool := bit w 42

/-! ## INJECT, lc by lc (R123 R291) -/

/-- Slot lc of a running INJECT: slot i is placed in lc x + 2 + i·GAP. -/
def injLc (o : InjectOp) (i : Nat) : Nat := o.x + 2 + i * injGap o.w

/-- Places one slot of an INJECT: a slot already in the position is replaced and lost (R123). Positions behind a SPLICE take none
(R114). -/
def placeInject (s : State) (q : Fin 64) (t : Fin 4) (w : Word) (l : Nat) (pay sc : List Byte) : State :=
  if l < s.quires[q].rstop.clearTo then s else
  let d := spineTime s q l
  let hit := (slotAt s q (injBack w) (d + 1)).isSome
  let f := fun sl : Slot => if meets s.spine.layout sl q (injBack w) (d + 1) then { sl with left := some d } else sl
  let s := { s with spine := { s.spine with slots := s.spine.slots.map f } }
  let sl : Slot := { back := injBack w, origin := q, t0 := d, kind := injKind w, fmt := injFmt w, ret := injRet w,
                     seq := s.quires[q].rstop.injected, payload := pay, scales := sc, born := d, left := none }
  let s := updQ (placeSlot s sl) q (fun qr => { qr with rstop := { qr.rstop with injected := qr.rstop.injected + 1 } })
  if hit then hazardAt s q t 3 6 l else s

/-- The state of a half. DESIGN CHOICE: R122 names the four codes and not when a half takes them; here a half that is being
written reads 1 and then 2, one that an INJECT sends reads 3 and, once the INJECT is complete, 0; COPY and REDUCE leave it as
it was, and it reads 3 where another INJECT takes the leg over (log entry 42). -/
def setHalfState (qr : Quire) (h st : Nat) : Quire :=
  if h = 0 then { qr with rstop := { qr.rstop with h0 := st } } else { qr with rstop := { qr.rstop with h1 := st } }

/-- The row that holds the scale lane of slot i, and its place among the INJECT's accesses (R291). -/
def injScaleRow (o : InjectOp) (i : Nat) : Nat := o.base + 2 * injCount o.w + i / 8
def injScaleId (o : InjectOp) (i : Nat) : Nat := 8 * injScaleRow o i + i % 8

/-- The lc in which the reads of slot i begin: one before its own where activation rows are its source. -/
def injFirst (o : InjectOp) (i : Nat) : Nat := if injSrc o.w = 1 then injLc o i - 1 else injLc o i

/-- The accesses of step `upper` of slot i, in lc l: both rows from staging, one row after the other from activation, the
scale group with the last (R161 R291 R521). -/
def injAccesses (o : InjectOp) (t : Fin 4) (i l : Nat) (upper : Bool) : List Access :=
  let spad := if injSrc o.w = 0 then 2 else 0
  let sc := if injFmt o.w = 3 then [scaleRead 3 o.x t spad (injScaleId o i) l] else []
  if injSrc o.w ≥ 2 then []
  else if injSrc o.w = 0 then
    [rowRead 3 o.x t 2 (o.base + 2 * i) l, rowRead 3 o.x t 2 (o.base + 2 * i + 1) l] ++ sc
  else if upper then rowRead 3 o.x t 0 (o.base + 2 * i + 1) l :: sc
  else [rowRead 3 o.x t 0 (o.base + 2 * i) l]

/-- A step of slot i on its way, with its accesses; `low` is the lower row once it is read. -/
def laterInject (s : State) (q : Fin 64) (t : Fin 4) (l : Nat) (o : InjectOp) (i : Nat) (low : List Byte) : State :=
  later (placePorts s q (injAccesses o t i l (!low.isEmpty))) q t l 0 (.inject o i low)

/-- The scale lane of slot i from a scratchpad: the 64 B group of an N4 slot, else zeros. -/
def injScales (s : State) (q : Fin 64) (t : Fin 4) (l : Nat) (o : InjectOp) (spad i : Nat) : Got :=
  if injFmt o.w = 3 then
    portRead s q l (scaleRead 3 o.x t spad (injScaleId o i) l) (4 + spad) (512 * injScaleRow o i + 64 * (i % 8)) 64
  else { s := s, bytes := List.replicate 64 0, notes := [], lost := false }

/-- Slot i with the payload its reads have delivered, and the next slot put in flight. -/
def injectDone (s : State) (q : Fin 64) (t : Fin 4) (o : InjectOp) (i l : Nat) (pay sc : List Byte)
    (notes : List ReadNote) : State :=
  let s := noteReads s q 0 1 notes
  if anyUncorrectable notes then accessFault s q t l none
  else
    let s := placeInject s q t o.w l pay sc
    if i + 1 < injCount o.w then
      if o.stop.any (fun f => decide (f ≤ injLc o (i + 1))) then s else laterInject s q t (injFirst o (i + 1)) o (i + 1) []
    else if injSrc o.w ≥ 2 then later s q t l 2 (.injectEnd (injSrc o.w - 2)) else s

/-- What a running INJECT does for slot i in lc l: from activation the lower row is read one lc before the slot. -/
def injectAt (s : State) (q : Fin 64) (t : Fin 4) (l : Nat) (o : InjectOp) (i : Nat) (low : List Byte) : State :=
  if injSrc o.w ≥ 2 then
    let h := injSrc o.w - 2
    injectDone (updQ s q (fun qr => setHalfState qr h 3)) q t o i l (readBytes (halfMem s.quires[q] h) (1024 * i) 1024)
      (List.replicate 64 0) []
  else if injSrc o.w = 0 then
    let a := rowReadAt s q l (rowRead 3 o.x t 2 (o.base + 2 * i) l) 2
    let b := rowReadAt a.s q l (rowRead 3 o.x t 2 (o.base + 2 * i + 1) l) 2
    let g := injScales b.s q t l o 2 i
    injectDone g.s q t o i l (a.bytes ++ b.bytes) g.bytes (a.notes ++ b.notes ++ g.notes)
  else if low.isEmpty then
    let a := rowReadAt s q l (rowRead 3 o.x t 0 (o.base + 2 * i) l) 0
    let s := noteReads a.s q 0 1 a.notes
    if anyUncorrectable a.notes then accessFault s q t l none else laterInject s q t (l + 1) o i a.bytes
  else
    let b := rowReadAt s q l (rowRead 3 o.x t 0 (o.base + 2 * i + 1) l) 0
    let g := injScales b.s q t l o 0 i
    injectDone g.s q t o i l (low ++ b.bytes) g.bytes (b.notes ++ g.notes)

/-- Is an effect a slot of the leg that a new INJECT with its first slot in lc f takes over (R291)? -/
def takenOver (back : Bool) (f : Nat) (e : Event) : Bool :=
  match e.op with
  | .inject o i _ => injBack o.w == back && decide (f ≤ injLc o i)
  | _ => false

/-- The accesses of an effect of an INJECT. -/
def takenAccesses (e : Event) : List Access :=
  match e.op with
  | .inject o i low => injAccesses o e.task i e.lc (!low.isEmpty)
  | _ => []

/-- The INJECT of a leg places no slot from lc f on. -/
def endInject (back : Bool) (f : Nat) (e : Event) : Event :=
  match e.op with
  | .inject o i low => if injBack o.w == back then { e with op := .inject { o with stop := some f } i low } else e
  | _ => e

/-- A new INJECT takes over its leg: the slots of the running one that are not placed before it are not placed (R291). -/
def takeOver (back : Bool) (f : Nat) (qr : Quire) : Quire :=
  let gone := qr.flight.filter (takenOver back f)
  let as := gone.flatMap takenAccesses
  let left := qr.flight.filter (fun e => !takenOver back f e)
  withdraw as.contains { qr with flight := left.map (endInject back f) }

/-! ## LAND, REDUCE and COPY, lc by lc (R108 R115 R124) -/

/-- Position i of a LAND of n: its payload, or zeros, goes into 1,024 B of the half at the end of the lc; the slot
leaves. -/
def landAt (s : State) (q : Fin 64) (t : Fin 4) (l : Nat) (back : Bool) (half i n : Nat) : State :=
  let d := spineTime s q l
  let pay := match slotAt s q back d with | some sl => sl.payload | none => List.replicate 1024 0
  let s := leaveAt s q back d
  let s := updQ s q (fun qr => { qr with rstop := { qr.rstop with landed := qr.rstop.landed + 1 } })
  let s := later s q t l 2 (.writeHalf half (1024 * i) (slice pay 0 1024) (if i + 1 = n then 2 else 1))
  if i + 1 < n then later s q t (l + 1) 1 (.land back half (i + 1) n) else s

/-- Element by element F32 sums of two payloads. -/
def addPayload (a b : List Byte) : List Byte :=
  (List.range 256).flatMap (fun i =>
    bytesLE 4 (f32Add (BitVec.ofNat 32 (numAt a (4 * i) 4)) (BitVec.ofNat 32 (numAt b (4 * i) 4))).toNat)

/-- Position i of a REDUCE: a PSUM slot takes the sum, an empty one a new PSUM slot, any other slot is unchanged. Where a chunk
with RETIRE takes the position in the same lc, it leaves empty (R301); so it does for a LAND, which takes what was delivered:
DESIGN CHOICE, the spec gives the two no order (log entry 42). -/
def reduceAt (s : State) (q : Fin 64) (t : Fin 4) (l : Nat) (back : Bool) (half i : Nat) : State :=
  let d := spineTime s q l
  let part := readBytes (halfMem s.quires[q] half) (1024 * i) 1024
  let count := fun s : State => updQ s q (fun qr => { qr with rstop := { qr.rstop with reduced := qr.rstop.reduced + 1 } })
  let s := match slotAt s q back d with
    | some sl =>
      if sl.kind = 1 then
        count (placeSlot (leaveAt s q back d) { sl with payload := addPayload sl.payload part, born := d, left := sl.left })
      else s
    | none =>
      if l < s.quires[q].rstop.clearTo then s
      else
        count (placeSlot s { back := back, origin := q, t0 := d - 1, kind := 1, fmt := 4, ret := false,
                             seq := s.quires[q].rstop.injected, payload := part, scales := List.replicate 64 0,
                             born := d, left := none })
  if i < 3 then later s q t (l + 1) 0 (.reduce back half (i + 1)) else s

/-- lc from issue to the last row commit of a COPY (R306). -/
def copySpan (spad : Nat) : Nat := match spad with | 0 => 9 | 1 => 33 | _ => 5

/-- The accesses that a COPY issued in lc x places on the ports for its rows (R160 R164 R306). -/
def copyAccess (x : Nat) (t : Fin 4) (o : CopyOp) (i : Nat) : Access :=
  rowWrite 3 x t o.spad (o.row + i) (x + 2 + (match o.spad with | 0 => i | 1 => 4 * i + 3 | _ => i / 2))

/-- What a COPY issued in lc x does in an lc: activation takes a row, staging two, partial-sum a quarter row, which it
writes with the row's last quarter. -/
def copyAt (s : State) (q : Fin 64) (t : Fin 4) (l : Nat) (o : CopyOp) (i k : Nat) (bytes : List Byte) : State :=
  let m := halfMem s.quires[q] o.half
  let put := fun (s : State) (i : Nat) (bs : List Byte) => later s q t l 2 (.writeRow (copyAccess o.x t o i) bs)
  match o.spad with
  | 0 =>
    let s := put s i (readBytes m (512 * i) 512)
    if i < 7 then later s q t (l + 1) 0 (.copy o (i + 1) 0 []) else s
  | 1 =>
    let got := bytes ++ readBytes m (512 * i + 128 * k) 128
    if k < 3 then later s q t (l + 1) 0 (.copy o i (k + 1) got)
    else
      let s := put s i got
      if i < 7 then later s q t (l + 1) 0 (.copy o (i + 1) 0 []) else s
  | _ =>
    let s := put (put s i (readBytes m (512 * i) 512)) (i + 1) (readBytes m (512 * i + 512) 512)
    if i < 6 then later s q t (l + 1) 0 (.copy o (i + 2) 0 []) else s

end Sys2Proof.Machine
end

