-- ==== Sys2Proof/Machine/ArrayFlow.lean ====
section
/-! DEFINITION. What the array does in each lc of a tile: preload, operand reads, weight conversion, chunks (file 03, R135
R137 R219 R282 R301). -/

namespace Sys2Proof.Machine

/-- Format codes of the tile descriptor (R75); none for the illegal ones. -/
def fmtOfCode (c : Nat) : Option Fmt :=
  match c with | 0 => some .b16 | 1 => some .e4m3 | 2 => some .e5m2 | 3 => some .e2m1 | 4 => some .f32 | _ => none

/-- The dot depth of a row format (R70). -/
def dotDepth (fmt : Nat) : Nat := match fmt with | 0 => 16 | 3 => 64 | _ => 32

/-! ## Operand values (R38 R42 R66 R69 R101 R219) -/

/-- Element values of a 1,024 B chunk: 32 lines of d elements. N4 elements carry their block scale; an 8-bit operand
under the tensor scale 0xFF is NaN throughout (R42 R69). -/
def chunkLines (fmt scale : Nat) (tr : Bool) (bs sc : List Byte) : List (List FV) :=
  let at' := fun i => ((bs[i]?).getD 0).toNat
  let sAt := fun i => ((sc[i]?).getD 0).toNat
  (List.range 32).map (fun i =>
    match fmt with
    | 0 => (List.range 16).map (fun k => decodeCode .b16 (at' (32 * i + 2 * k) + 256 * at' (32 * i + 2 * k + 1)))
    | 3 => (List.range 64).map (fun k =>
        let s := sAt (2 * i + k / 32)
        if s = 0xFF then .nan
        else FV.scale ((s : Int) - 127) (decodeCode .e2m1 (bitsOf (at' (32 * i + k / 2)) (4 * (k % 2)) 4)))
    | f => (List.range 32).map (fun k =>
        if scale = 0xFF then .nan
        else decodeCode (if f = 1 then .e4m3 else .e5m2) (if tr then at' (32 * k + i) else at' (32 * i + k))))

/-- The B16 values of one half of a K block: line j, elements 16g to 16g + 15 along K; in W orientation line j is block
column j, in Wᵀ block row j (R133). -/
def halfLines (transposed : Bool) (bs : List Byte) : List (List FV) :=
  (List.range 32).map (fun j => (List.range 16).map (fun k =>
    decodeCode .b16 (numAt bs (2 * (if transposed then 16 * j + k else 32 * k + j)) 2)))

/-- The B16 values of a whole K block, from the bytes of its two halves. -/
def blockLines (transposed : Bool) (bs : List Byte) : List (List FV) :=
  List.zipWith (· ++ ·) (halfLines transposed (slice bs 0 1024)) (halfLines transposed (slice bs 1024 1024))

/-- The bytes of half g of weight block b: block rows 16g to 16g + 15 in W orientation, columns 16g to 16g + 15 in Wᵀ
(R133). -/
def weightHalf (qr : Quire) (b g : Nat) (transposed : Bool) : List Byte × List ReadNote :=
  if transposed then
    let rs := (List.range 32).map (fun r => protRead qr 0 (2048 * b + 64 * r + 32 * g) 32)
    (rs.flatMap (·.1), rs.flatMap (·.2))
  else protRead qr 0 (2048 * b + 1024 * g) 1024

/-- A read of half g of weight block b by an access in lc l: zeros where the port does not serve it (R157). -/
def weightRead (s : State) (q : Fin 64) (l : Nat) (a : Access) (b g : Nat) (transposed : Bool) : Got :=
  if portServes s.quires[q] a then
    let r := weightHalf s.quires[q] b g transposed
    let s := if transposed then noteInside s q a.task l 0 0 (2048 * b) 2048
             else noteInside s q a.task l 0 0 (2048 * b + 1024 * g) 1024
    { s := s, bytes := r.1, notes := r.2, lost := false }
  else { s := loseAccess s q l a, bytes := List.replicate 1024 0, notes := [], lost := true }

/-- Conversion of one line of 32 weights along K (R66 R137): values as the array takes them, and the events of the elements
that a test picks. -/
def convertLine (fmt scale : Nat) (on : Nat → Bool) (xs : List FV) : List FV × Events :=
  match fmt with
  | 0 => (xs, Events.none)
  | 3 =>
    let r := narrowBlock .e2m1 (xs.zipIdx.map (fun x => (x.1, Rnd.rne, on x.2)))
    (r.2.map (fun c => if r.1 = 0xFF then .nan else FV.scale ((r.1 : Int) - 127) (decodeCode .e2m1 c.1)),
     joinEvents (r.2.map (·.2)))
  | f =>
    let fm : Fmt := if f = 1 then .e4m3 else .e5m2
    let r := xs.map (narrowElem fm scale .rne)
    (r.map (fun c => if scale = 0xFF then .nan else decodeCode fm c.1), joinEvents (r.map (·.2)))

/-- Elements of chunk c that take part (R75 K_TAIL, R89). -/
def chunkValid (d : TileDesc) (c : Nat) : Nat :=
  if c + 1 = d.nchunk && d.ktail != 0 then d.ktail else dotDepth d.rowFmt

/-! ## Chunks (R43–R46 R70 R89) -/

/-- One chunk into the accumulators of a set; also how many active cells could be gated (R91). -/
def chunkStep (d : TileDesc) (valid : Nat) (rows cols : List (List FV)) (acc : List F32) : List F32 × Nat :=
  let cell := fun (i j : Nat) (a : F32) =>
    if d.rowMask.testBit i && d.colMask.testBit j then
      let prs := List.zip (((rows[i]?).getD []).take valid) (((cols[j]?).getD []).take valid)
      (chunkAdd a (prs.map (fun p => FV.mul p.1 p.2)), b2n (zeroChunk prs))
    else (a, 0)
  let r := acc.zipIdx.map (fun p => cell (p.2 / 32) (p.2 % 32) p.1)
  (r.map (·.1), (r.map (·.2)).foldl (· + ·) 0)

/-- The accumulators of a set. -/
def accSet (qr : Quire) (ix : Nat) : List F32 := if ix = 0 then qr.array.set0 else qr.array.set1

/-- Replaces the accumulators of a set. -/
def setAcc (qr : Quire) (ix : Nat) (a : List F32) : Quire :=
  if ix = 0 then { qr with array := { qr.array with set0 := a } } else { qr with array := { qr.array with set1 := a } }

/-! ## A chunk, lc by lc (R72 R73 R77 R135) -/

/-- The first lc of chunk c. -/
def chunkLc (o : TileOp) (c : Nat) : Nat := o.c0 + c * o.n

/-- Nothing read yet. -/
def ChunkBuf.empty : ChunkBuf := { row := [], rowSc := [], col := [], colSc := [], lost := [] }

/-- Halves of weight blocks that a chunk reads (R135). -/
def halvesOf (d : TileDesc) : Nat := if d.colSrc = 2 then 0 else (match d.colFmt with | 0 => 1 | 3 => 4 | _ => 2)

/-- The block and the half that read g of chunk c takes. -/
def halfRef (o : TileOp) (c g : Nat) : Nat × Nat :=
  match o.d.colFmt with
  | 0 => (o.colBase + (c / 2) * o.ct.cstride, c % 2)
  | 3 => (o.colBase + (2 * c + g / 2) * o.ct.cstride, g % 2)
  | _ => (o.colBase + c * o.ct.cstride, g)

/-- What the reads of a step leave of a chunk, and what they found. -/
structure ChunkGot where
  s : State
  b : ChunkBuf
  notes : List ReadNote

/-- The weight access of step k of a chunk, in lc t − 2 + k for the n lc that it lasts (R135). -/
def weightAccess (o : TileOp) (c k l : Nat) : Access := bankAccess 1 o.x o.task 0 1 0 (8 * c + k) l

/-- The rows, and scale groups, that a chunk reads from scratchpads (R72 R282). -/
def chunkRow (o : TileOp) (c j : Nat) : Nat := o.rowBase + c * o.rt.cstride + j
def chunkCol (o : TileOp) (c j : Nat) : Nat := o.colBase + c * o.ct.cstride + j
def groupAt (base c : Nat) : Nat := 8 * base + c
def rowOn (o : TileOp) (k : Nat) : Bool := o.d.rowSrc == 2 && (k == 2 || k == 3)
def rowScOn (o : TileOp) (k : Nat) : Bool := o.d.rowSrc == 2 && o.d.rowFmt == 3 && k == 2
def colOn (o : TileOp) (k : Nat) : Bool := o.d.colSrc == 2 && k == 2
def colScOn (o : TileOp) (k : Nat) : Bool := o.d.colSrc == 2 && o.d.colFmt == 3 && k == 2

/-- The accesses of step k of chunk c, in lc l: rows and columns from lc t on, scale groups in lc t (R135 R161 R521). -/
def chunkAccesses (o : TileOp) (c k l : Nat) : List Access :=
  (if o.d.colSrc ≠ 2 && decide (k < o.n) then [weightAccess o c k l] else [])
    ++ (if rowOn o k then [rowRead 1 o.x o.task 0 (chunkRow o c (k - 2)) l] else [])
    ++ (if rowScOn o k then [scaleRead 1 o.x o.task 0 (groupAt o.rowSc c) l] else [])
    ++ (if colOn o k then [rowRead 1 o.x o.task 2 (chunkCol o c 0) l, rowRead 1 o.x o.task 2 (chunkCol o c 1) l] else [])
    ++ (if colScOn o k then [scaleRead 1 o.x o.task 2 (groupAt o.colSc c) l] else [])

/-- Does the tile place nothing from lc l on, because another has taken the edges (R93)? -/
def TileOp.stopped (o : TileOp) (l : Nat) : Bool := o.stop.any (fun e => decide (e ≤ l))

/-- A step of a chunk on its way, with its accesses. -/
def laterChunk (s : State) (q : Fin 64) (l : Nat) (o : TileOp) (c k : Nat) (b : ChunkBuf) : State :=
  if o.stopped l then s else later (placePorts s q (chunkAccesses o c k l)) q o.task l 0 (.chunk o c k b)

/-- The weight-bank read of step k of a chunk, in lc t − 2 + k (R135). -/
def colBankRead (q : Fin 64) (l : Nat) (o : TileOp) (c k : Nat) (g : ChunkGot) : ChunkGot :=
  if k < halvesOf o.d then
    let r := weightRead g.s q l (weightAccess o c k l) (halfRef o c k).1 (halfRef o c k).2 (o.d.colSrc == 1)
    { s := r.s, b := { g.b with col := g.b.col ++ r.bytes, lost := if r.lost then k :: g.b.lost else g.b.lost },
      notes := g.notes ++ r.notes }
  else g

/-- The events of a half of a block under a tensor scale; of a whole block for N4, those of its served halves. -/
def halfEvents (o : TileOp) (v off : Nat) (on : Nat → Bool) (ls : List (List FV)) : Events :=
  joinEvents (ls.map (fun l => (convertLine o.d.colFmt o.ct.scale on (l.take (v - off))).2))

/-- The conversion in the lc after a read: of the half just read under a tensor scale, of a whole K block for N4 (R137).
Weights beyond K_TAIL are not read as operands, hence not converted (R89); a lost read records nothing (R157). -/
def convEvents (o : TileOp) (c k : Nat) (b : ChunkBuf) : Events :=
  let v := chunkValid o.d c
  let tr := o.d.colSrc == 1
  if o.d.colSrc = 2 || o.d.colFmt = 0 || k = 0 || halvesOf o.d < k then Events.none
  else if o.d.colFmt = 3 then
    (if k % 2 = 0 then
      halfEvents o v (16 * (k - 2)) (fun e => !b.lost.contains (k - 2 + e / 16))
        (blockLines tr (slice b.col (1024 * (k - 2)) 2048))
     else Events.none)
  else if b.lost.contains (k - 1) then Events.none
  else halfEvents o v (16 * (k - 1)) (fun _ => true) (halfLines tr (slice b.col (1024 * (k - 1)) 1024))

/-- One read of a chunk, where it takes place. -/
def chunkRead (q : Fin 64) (l : Nat) (on : Bool) (a : Access) (mem at' n : Nat) (put : ChunkBuf → List Byte → ChunkBuf)
    (g : ChunkGot) : ChunkGot :=
  if !on then g
  else
    let r := portRead g.s q l a mem at' n
    { s := r.s, b := put g.b r.bytes, notes := g.notes ++ r.notes }

/-- The scratchpad reads of step k (R72 R282 R521). -/
def chunkSpadRead (q : Fin 64) (l : Nat) (o : TileOp) (c k : Nat) (g : ChunkGot) : ChunkGot :=
  let r := chunkRow o c (k - 2)
  let g := chunkRead q l (rowOn o k) (rowRead 1 o.x o.task 0 r l) 4 (512 * r) 512
    (fun b bs => { b with row := b.row ++ bs }) g
  let g := chunkRead q l (rowScOn o k) (scaleRead 1 o.x o.task 0 (groupAt o.rowSc c) l) 4 (64 * groupAt o.rowSc c) 64
    (fun b bs => { b with rowSc := bs }) g
  let col := fun (j : Nat) (g : ChunkGot) =>
    chunkRead q l (colOn o k) (rowRead 1 o.x o.task 2 (chunkCol o c j) l) 6 (512 * chunkCol o c j) 512
      (fun b bs => { b with col := b.col ++ bs }) g
  chunkRead q l (colScOn o k) (scaleRead 1 o.x o.task 2 (groupAt o.colSc c) l) 6 (64 * groupAt o.colSc c) 64
    (fun b bs => { b with colSc := bs }) (col 1 (col 0 g))

/-- The slot that a chunk takes its rows from in lc t: consumed, and removed with RETIRE (R108 R301). -/
def chunkSlot (s : State) (q : Fin 64) (l : Nat) (o : TileOp) (b : ChunkBuf) : State × ChunkBuf :=
  let back := o.d.rowSrc == 1
  let d := spineTime s q l
  match slotAt s q back d with
  | none => (s, b)
  | some sl =>
    let s := updQ s q (fun qr => { qr with rstop := { qr.rstop with consumed := qr.rstop.consumed + 1 } })
    (if o.retire then leaveAt s q back d else s, { b with row := sl.payload, rowSc := sl.scales })

/-- The lines of the row operand; an empty slot reads as +0 throughout (R124), under a tensor scale of 0xFF too: DEDUCED,
R124 gives the empty position its elements, R36 and R69 the scale of elements that are read (log entry 41). -/
def rowLines (o : TileOp) (b : ChunkBuf) : List (List FV) :=
  if b.row.isEmpty then List.replicate 32 (List.replicate (dotDepth o.d.rowFmt) (FV.fin false 0 0))
  else chunkLines o.d.rowFmt o.rt.scale o.rt.tr b.row b.rowSc

/-- The lines of the column operand, weights converted. -/
def colLines (o : TileOp) (c : Nat) (b : ChunkBuf) : List (List FV) :=
  let v := chunkValid o.d c
  let tr := o.d.colSrc == 1
  if o.d.colSrc = 2 then chunkLines o.d.colFmt o.ct.scale o.ct.tr b.col b.colSc
  else match o.d.colFmt with
    | 0 => halfLines tr b.col
    | 3 =>
      let blk := fun (m : Nat) => (blockLines tr (slice b.col (2048 * m) 2048)).map
        (fun l => (convertLine 3 0 (fun _ => true) (l.take (v - 32 * m))).1)
      List.zipWith (· ++ ·) (blk 0) (blk 1)
    | f => (blockLines tr b.col).map (fun l => (convertLine f o.ct.scale (fun _ => true) (l.take v)).1)

/-- The update of the accumulators, n + 2 lc after the chunk's first lc; ZERO begins at +0 (R77 R78). DESIGN CHOICE: ZERO
takes its effect with the update of the first chunk, so a set keeps its old values where its ZERO tile is cut (R93) or
stopped before that update (log entry 41). -/
def chunkAddAt (s : State) (q : Fin 64) (o : TileOp) (c : Nat) (b : ChunkBuf) : State :=
  updQ s q (fun qr =>
    let old := if c = 0 && o.d.init = 0 then List.replicate 1024 0 else accSet qr o.d.setIx
    let r := chunkStep o.d (chunkValid o.d c) (rowLines o b) (colLines o c b) old
    let qr := setAcc qr o.d.setIx r.1
    { qr with array := { qr.array with zeroCells := qr.array.zeroCells + BitVec.ofNat 64 (r.2 * o.n) } })

/-- A chunk whose last lc is over counts as issued (R91). -/
def countChunk (s : State) (q : Fin 64) : State :=
  updQ s q (fun qr => { qr with array := { qr.array with chunks := qr.array.chunks + 1 } })

/-- Records conversion events under CONV_TAG. -/
def noteConv (s : State) (q : Fin 64) (o : TileOp) (c k : Nat) (b : ChunkBuf) : State :=
  if o.d.colSrc = 2 || o.d.colFmt = 0 then s else updQ s q (fun qr => recordLedger qr o.d.convTag (convEvents o c k b))

/-- The FAULT register of an uncorrectable error that a chunk meets: cause 4 for a scratchpad row, none for a bank. -/
def chunkFault (notes : List ReadNote) : Option (FaultReg × Nat) :=
  if notes.any (fun n => n.sev == 3 && n.mem ≥ 4) then some (.array, 4) else none

/-- Step k of chunk c, in lc t − 2 + k: its reads and conversions, and the next step put in flight. -/
def chunkReads (s : State) (q : Fin 64) (l : Nat) (o : TileOp) (c k : Nat) (b : ChunkBuf) : State :=
  let s := if k = 0 && decide (c + 1 < o.d.nchunk) then laterChunk s q (l + o.n) o (c + 1) 0 ChunkBuf.empty else s
  let s := noteConv s q o c k b
  let (s, b) := if o.d.rowSrc ≠ 2 && k = 2 then chunkSlot s q l o b else (s, b)
  let g := chunkSpadRead q l o c k (colBankRead q l o c k { s := s, b := b, notes := [] })
  let s := noteReads g.s q 0 0 g.notes
  if anyUncorrectable g.notes then accessFault s q o.task l (chunkFault g.notes)
  else if k = o.n + 1 then later (countChunk s q) q o.task (l + 3) 2 (.chunk o c (k + 3) g.b)
  else laterChunk s q (l + 1) o c (k + 1) g.b

/-- Step k of chunk c in lc l; a tile that another cuts short goes on with none but the updates of its full chunks (R93). -/
def chunkAt (s : State) (q : Fin 64) (l : Nat) (o : TileOp) (c k : Nat) (b : ChunkBuf) : State :=
  if k = o.n + 4 then chunkAddAt s q o c b
  else if o.stopped l then s
  else chunkReads s q l o c k b

/-! ## Preload (R78) -/

/-- The access of row r of a preload that begins in lc l. -/
def preloadAccess (o : TileOp) (r l : Nat) : Access := rowRead 1 o.x o.task 1 (o.preRow + r) l

/-- Row r of a preload on its way. -/
def laterPreload (s : State) (q : Fin 64) (l : Nat) (o : TileOp) (r : Nat) : State :=
  later (placePorts s q [preloadAccess o r l]) q o.task l 0 (.preload o r)

/-- Row r of a preload is read in lc p + 4r; it completes tile rows 4r to 4r + 3 at the end of lc p + 4r to p + 4r + 3. -/
def preloadAt (s : State) (q : Fin 64) (l : Nat) (o : TileOp) (r : Nat) : State :=
  let g := rowReadAt s q l (preloadAccess o r l) 1
  let s := noteReads g.s q 0 0 g.notes
  if anyUncorrectable g.notes then accessFault s q o.task l (some (.array, 5))
  else
    let vals := fun (i : Nat) => (List.range 32).map (fun j => (BitVec.ofNat 32 (numAt g.bytes (128 * i + 4 * j) 4) : F32))
    let s := (List.range 4).foldl (fun s i => later s q o.task (l + i) 2 (.accRow o.d.setIx (4 * r + i) (vals i))) s
    if r < 7 then laterPreload s q (l + 4) o (r + 1) else s

/-- A row of a set takes 32 values. -/
def setAccRow (qr : Quire) (ix i : Nat) (vals : List F32) : Quire :=
  let a := accSet qr ix
  setAcc qr ix (a.take (32 * i) ++ vals ++ a.drop (32 * i + 32))

end Sys2Proof.Machine
end

