-- ==== Sys2Proof/Machine/DrainFlow.lean ====
section
/-! DEFINITION. What the drain path does in each lc of a drain: the stages of a lane, the derivative stage, narrowing, the
gradient buffer and the partial norms (R79 R82–R90 R142 R224–R232). -/

namespace Sys2Proof.Machine

/-! ## The derivative table (R227) -/

/-- The clamp of a value to −8 … 8. -/
def clamp8 (z : FV) : FV :=
  if FV.lt z (.fin true 8 0) then .fin true 8 0 else if FV.lt (.fin false 8 0) z then .fin false 8 0 else z

/-- The segment of a clamped value: min(⌊(zc + 8)·4⌋, 63). -/
def tableSeg (zc : FV) : Nat :=
  match FV.add (FV.scale 2 zc) (.fin false 32 0) with
  | .fin false m e => min (shiftFloor m (-e)) 63
  | _ => 0

/-- The piecewise cubic g of a table of 256 coefficients at z (R227). -/
def tableEval (tab : List F32) (z : FV) : F32 :=
  match z with
  | .nan => 0x7FC0_0000
  | _ =>
    let zc := clamp8 z
    let sg := tableSeg zc
    let u := f32OfVal (FV.add zc (FV.scale (-2) (.fin (decide (32 ≤ sg)) (((32 : Int) - sg).natAbs) 0)))
    let c := fun k => (tab[4 * sg + k]?).getD 0
    f32Fma (f32Fma (f32Fma (c 3) u (c 2)) u (c 1)) u (c 0)

/-- The 256 F32 values of two rows. -/
def tableOf (bs : List Byte) : List F32 := (List.range 256).map (fun i => BitVec.ofNat 32 (numAt bs (4 * i) 4))

/-! ## Drains by the issue lc of their tile -/

/-- The drain of the tile issued in lc x. -/
def drainOf (qr : Quire) (x : Nat) : Option Drain := (qr.array.draining ++ qr.array.drains).find? (fun d => d.x == x)

/-- The drains of a quire that no stop has ended, in the order of their tiles. -/
def liveDrains (qr : Quire) : List Drain := (qr.array.draining ++ qr.array.drains).filter (fun d => d.stop.isNone)

/-- The lc of row 31 of the last drain of the other set than ix (R79). -/
def otherDrainEnd (qr : Quire) (ix : Nat) : Nat :=
  ((liveDrains qr).filter (fun d => d.d.setIx != ix)).foldl (fun e d => max e (d.start + 31)) 0

/-- Changes the drain of a tile. -/
def updDrain (qr : Quire) (x : Nat) (f : Drain → Drain) : Quire :=
  let g := fun d : Drain => if d.x = x then f d else d
  { qr with array := { qr.array with drains := qr.array.drains.map g, draining := qr.array.draining.map g } }

/-! ## The stages of a drain lane (R82 R83 R224–R227) -/

/-- The table that a drain uses. -/
def drainTab (qr : Quire) (dr : Drain) : List F32 :=
  if dr.store then qr.array.table1 else qr.array.table0

/-- The value w of element (i, j) that leaves the derivative stage. -/
def drainValue (dr : Drain) (tab : List F32) (i j : Nat) (a : F32) : F32 :=
  let d := dr.d
  let eight := d.rowFmt == 1 || d.rowFmt == 2
  let v := if eight then f32OfVal (FV.scale dr.scaleExp (f32Val a)) else a
  let v := if d.biasEn then f32Add v (BitVec.ofNat 32 (numAt dr.bias (128 * d.biasQtr + 4 * j) 4)) else v
  match d.deriv with
  | 1 => if bitsOf (numAt dr.stash (4 * i + j / 8) 1) (j % 8) 1 = 1 then v else 0
  | 2 => f32Mul v (tableEval tab (decodeCode .b16 (numAt dr.stash (64 * i + 2 * j) 2)))
  | _ => v

/-- Is element (i, j) computed by the tile (R89)? -/
def elemActive (d : TileDesc) (i j : Nat) : Bool := d.rowMask.testBit i && d.colMask.testBit j

/-- Row i of the 32 values w, +0 where masked, with their activity. -/
def drainLine (dr : Drain) (tab : List F32) (i : Nat) (row : List F32) : List (F32 × Bool) :=
  row.zipIdx.map (fun p => if elemActive dr.d i p.2 then (drainValue dr tab i p.2 p.1, true) else (0, false))

/-! ## Narrowing of a drained row (R48–R53 R84 R86 R89) -/

/-- The rounding of lane j in lc l: RNE, or the upper random bits of the lane. -/
def drainRnd (seed : Word) (q : Nat) (sr : Bool) (l j : Nat) : Rnd :=
  if sr then .sr (laneBits (laneOut seed q j l) false) else .rne

/-- One narrowed tile row: its block scale (N4 only), its element codes and its events. -/
def narrowRow (d : TileDesc) (rnd : Nat → Rnd) (row : List (F32 × Bool)) : Nat × List Nat × Events :=
  let es := row.zipIdx
  match fmtOfCode d.outFmt with
  | some .e2m1 =>
    let r := narrowBlock .e2m1 (es.map (fun p => (f32Val p.1.1, rnd p.2, p.1.2)))
    (r.1, r.2.map (·.1), joinEvents (r.2.map (·.2)))
  | some .f32 => (0, es.map (fun p => p.1.1.toNat), Events.none)
  | f =>
    let r := es.map (fun p =>
      if p.1.2 then narrowElem (f.getD .b16) d.outScale (rnd p.2) (f32Val p.1.1) else (0, Events.none))
    (0, r.map (·.1), joinEvents (r.map (·.2)))

/-- Bits of a row of element codes, the first lowest. -/
def codesBytes (width : Nat) (codes : List Nat) : List Byte :=
  if width = 4 then
    (List.range (codes.length / 2)).map (fun k =>
      BitVec.ofNat 8 ((codes[2 * k]?).getD 0 % 16 + 16 * ((codes[2 * k + 1]?).getD 0 % 16)))
  else codes.flatMap (fun c => bytesLE (width / 8) c)

/-- Bits of an element of an output format. -/
def outWidth (fmt : Nat) : Nat := match fmt with | 0 => 16 | 3 => 4 | 4 => 32 | _ => 8

/-- Tile rows of one destination row (R84). -/
def rowsPerCommit (fmt : Nat) : Nat := match fmt with | 0 => 8 | 1 => 16 | 2 => 16 | 3 => 32 | _ => 4

/-- The access of the destination row that tile row i completes, which commits in lc l (R82 R164). -/
def destAccess (dr : Drain) (i l : Nat) : Access :=
  rowWrite 2 dr.x dr.task dr.d.dest (dr.destRow + i / rowsPerCommit dr.d.outFmt) l

/-- The access of the accumulating write of tile row i in lc l: one quarter (R134). -/
def gradAccess (dr : Drain) (i l : Nat) : Access := bankAccess 2 dr.x dr.task 2 1 0 i l

/-- The access of the scale row that is written in lc l. -/
def scRowAccess (dr : Drain) (l : Nat) : Access := rowWrite 2 dr.x dr.task dr.d.dest dr.scRow l

/-- Rows of a scratchpad (R160). -/
def spadRows (spad : Nat) : Nat := if spad = 0 then 1024 else 512

/-- The accesses that tile row i, read in lc l = D + i, brings about later (R82 R85 R86). -/
def drainAccesses (dr : Drain) (i l : Nat) : List Access :=
  (if dr.d.dest = 3 then [gradAccess dr i (l + 8)]
   else if dr.d.dest ≤ 2 && (i + 1) % rowsPerCommit dr.d.outFmt == 0 then [destAccess dr i (l + 8)] else [])
    ++ (if i = 31 && dr.writesSc && decide (dr.scRow < spadRows dr.d.dest) then [scRowAccess dr (l + 9)] else [])

/-- The commit in lc l of the destination row that tile row i completes: a scratchpad row, or 512 B of a half; a B16 tile to
the spine is split over two slots (R84 R107). -/
def commitDest (dr : Drain) (i l : Nat) (bytes : List Byte) : List Micro :=
  let d := dr.d
  let k := i / rowsPerCommit d.outFmt
  let st := if i = 31 then 2 else 1
  if d.dest = 4 then
    (if d.outFmt = 0 then
      let rows := pieces 64 8 bytes
      [.writeHalf (dr.destRow % 2) (256 * k) (rows.flatMap (·.take 32)) st,
       .writeHalf (dr.destRow % 2) (1024 + 256 * k) (rows.flatMap (·.drop 32)) st]
     else [.writeHalf (dr.destRow % 2) (512 * k) bytes st])
  else [.writeRow (destAccess dr i l) bytes]

/-- The scale collector takes a tile's 32 scales; where the tile fills or flushes it, its row is written two lc later
(R86). DESIGN CHOICE: a stop between the two leaves the collector full; the next N4 tile then writes those 512 B to its
own SC_ROW, and its scales are dropped (log entry 41). -/
def collectScales (s : State) (q : Fin 64) (l : Nat) (dr : Drain) (scales : List Nat) : State :=
  let c := s.quires[q].array.collector ++ scales.map (fun n => (BitVec.ofNat 8 n : Byte))
  let s := updQ s q (fun qr => { qr with array := { qr.array with collector := c } })
  if (dr.d.flushSc || c.length ≥ 512) && decide (dr.scRow < spadRows dr.d.dest) then
    later s q dr.task (l + 2) 2 (.collectorRow (scRowAccess dr (l + 2)))
  else s

/-- The collector writes its row and is empty. -/
def collectorRowAt (s : State) (q : Fin 64) (l : Nat) (a : Access) : State :=
  let s := rowWriteAt s q l a (slice s.quires[q].array.collector 0 512)
  updQ s q (fun qr => { qr with array := { qr.array with collector := [] } })

/-- Tile row i is narrowed in lc l = D + i + 7: events recorded, its bytes on their way to the destination. -/
def drainNarrow (s : State) (q : Fin 64) (l : Nat) (dr : Drain) (i : Nat) (row : List (F32 × Bool)) : State :=
  let d := dr.d
  let nr := narrowRow d (drainRnd s.quires[q].seq.seed q.val (d.rnd = 1) l) row
  let s := if d.outFmt = 4 then s else updQ s q (fun qr => recordLedger qr d.ledger nr.2.2)
  let bytes := dr.row ++ codesBytes (outWidth d.outFmt) nr.2.1
  let full := decide ((i + 1) % rowsPerCommit d.outFmt = 0)
  let scales := dr.scales ++ [nr.1]
  let s := updQ s q (fun qr => updDrain qr dr.x (fun dr => { dr with row := if full then [] else bytes, scales := scales }))
  let s := if full then (commitDest dr i (l + 1) bytes).foldl (fun s m => later s q dr.task (l + 1) 2 m) s else s
  if d.outFmt = 3 && i = 31 then collectScales s q l dr scales else s

/-! ## The gradient buffer and the norms (R85 R142 R151 R230–R232) -/

/-- The keep bit in force for a gradient slot (R231). -/
def keepBit (qr : Quire) (slot : Nat) : Bool :=
  bit (qr.bwd.keepActive[(slot / 64) % 4]'(by omega)) (slot % 64)

/-- Accumulates tile row i of a kept slot: the bytes of its 128 B, which elements an uncorrectable word loses, and what the
reads found. -/
def gradSum (qr : Quire) (a : Nat) (row : List (F32 × Bool)) : List Byte × List Bool × List ReadNote :=
  let active := fun e => ((row[e]?).map (·.2)).getD false
  let r := protRead qr 3 a 128
  let raw := readBytes qr.mem.grad a 128
  let notes := r.2.filter (fun n => active (2 * (n.word - a / 8)) || active (2 * (n.word - a / 8) + 1))
  let lost := fun e => notes.any (fun n => n.sev == 3 && n.word == a / 8 + e / 2)
  let es := row.zipIdx.map (fun p =>
    let keep := BitVec.ofNat 32 (numAt raw (4 * p.2) 4)
    if !p.1.2 || lost p.2 then keep else f32Add (BitVec.ofNat 32 (numAt r.1 (4 * p.2) 4)) p.1.1)
  (es.flatMap (fun v => bytesLE 4 v.toNat), (List.range 32).map lost, notes)

/-- The code words that the accumulation writes anew. -/
def gradFresh (a : Nat) (row : List (F32 × Bool)) (lost : List Bool) (w : Nat) : Bool :=
  let active := fun e => ((row[e]?).map (·.2)).getD false
  let e := 2 * (w - a / 8)
  decide (a / 8 ≤ w) && decide (w < a / 8 + 16) && (active e || active (e + 1)) && !(lost[e]?).getD false

/-- Where the norm of a gradient row is taken, in the lc after its add (R232). -/
def laterNorm (s : State) (q : Fin 64) (l : Nat) (dr : Drain) (i : Nat) (row : List (F32 × Bool)) (lost : List Bool) : State :=
  if dr.d.normEn then
    later s q dr.task (l + 1) 0 (.gradNorm dr.d.ledger (512 * dr.destRow + 128 * i) (row.map (·.2)) lost)
  else s

/-- The accumulating write of tile row i in lc l = D + i + 8: discarded and counted where the slot is not kept; where its port
does not serve it, the bank is unchanged (R157). -/
def drainAddAt (s : State) (q : Fin 64) (l x i : Nat) (row : List (F32 × Bool)) : State :=
  match drainOf s.quires[q] x with
  | none => s
  | some dr =>
    let kept := keepBit s.quires[q] dr.d.ledger
    if !portServes s.quires[q] (gradAccess dr i l) then
      let s := loseAccess s q l (gradAccess dr i l)
      if kept then laterNorm s q l dr i row [] else s
    else if kept then
      let a := 512 * dr.destRow + 128 * i
      let g := gradSum s.quires[q] a row
      let fresh := gradFresh a row g.2.1
      let s := updQ s q (fun qr =>
        { qr with mem := { qr.mem with grad := writeBytes qr.mem.grad a g.1 },
                  upsets := qr.upsets.filter (fun u => !(u.mem == 3 && fresh u.word)),
                  bank := { qr.bank with fixQueue := qr.bank.fixQueue.filter (fun p => !(p.1 == 3 && fresh p.2)) } })
      let s := laterNorm s q l dr i row g.2.1
      let s := noteReads s q 3 0 g.2.2
      if anyUncorrectable g.2.2 then accessFault s q dr.task l none else s
    else
      let n := (row.filter (·.2)).length
      updQ s q (fun qr => { qr with bwd := { qr.bwd with discards := qr.bwd.discards + BitVec.ofNat 64 n } })

/-- Adds the squares of one tile row into a norm (R232). -/
def normRow (sum : Word) (row : List (Option F32)) : Word :=
  match treeOf f64Add 5 (row.map (fun o => o.map f64Square)) with
  | none => sum
  | some r => f64Add sum r

/-- The row sum enters a gradient slot. -/
def normAt (s : State) (q : Fin 64) (slot : Nat) (vals : List (Option F32)) : State :=
  updQ s q (fun qr =>
    let sum := normRow (qr.bwd.norm[slot % 256]'(by omega)) vals
    { qr with bwd := { qr.bwd with norm := qr.bwd.norm.set (slot % 256) sum (by omega) } })

/-- The norm of a gradient row takes what its elements hold at the end of the lc of their add; +0 for a word that held an
uncorrectable error (R232). -/
def gradNormAt (s : State) (q : Fin 64) (slot a : Nat) (on lost : List Bool) : State :=
  let raw := readBytes s.quires[q].mem.grad a 128
  normAt s q slot ((List.range 32).map (fun e =>
    if !(on[e]?).getD false then none
    else if (lost[e]?).getD false then some 0 else some (BitVec.ofNat 32 (numAt raw (4 * e) 4))))

/-! ## A drain, lc by lc (R79 R82 R83 R224 R228) -/

/-- The 128 F32 values of a row. -/
def f32Row (bs : List Byte) : List F32 := (List.range 128).map (fun i => BitVec.ofNat 32 (numAt bs (4 * i) 4))

/-- Replaces row r of a table of two rows. -/
def setTabRow (tab : List F32) (r : Nat) (vals : List F32) : List F32 :=
  if r = 0 then vals ++ tab.drop 128 else tab.take 128 ++ vals

/-- The accesses of the rows that a drain reads, in the 4 lc from lc l on; all are of rank 1 (R83 R224 R228). -/
def tableAccess (dr : Drain) (r l : Nat) : Access := rowRead 1 dr.x dr.task 1 (dr.tableRow + r) l
def biasAccess (dr : Drain) (l : Nat) : Access := rowRead 1 dr.x dr.task 1 dr.biasRow l
def stashAccess (dr : Drain) (r l : Nat) : Access := rowRead 1 dr.x dr.task 1 (dr.derivRow + r) l

/-- The access of the first stashed row, which its tile places at issue. -/
def firstStash (dr : Drain) : List Access :=
  if dr.d.deriv = 1 || dr.d.deriv = 2 then [stashAccess dr 0 (dr.start + 2)] else []

/-- A row that a drain reads of the partial-sum scratchpad: its bytes, or a fault. -/
def drainReadAt (s : State) (q : Fin 64) (l : Nat) (dr : Drain) (a : Access) (use : List Byte → Bool → State → State) : State :=
  let g := rowReadAt s q l a 1
  let s := noteReads g.s q 3 0 g.notes
  if anyUncorrectable g.notes then accessFault s q dr.task l (some (.array, 4)) else use g.bytes g.lost s

/-- The store whose turn it is becomes the drain's (R228). -/
def takeStore (qr : Quire) (x : Nat) : Quire :=
  let st := qr.array.nextStore
  let qr := updDrain qr x (fun dr => { dr with store := st })
  { qr with array := { qr.array with nextStore := !st } }

/-- Changes the store of a drain. -/
def updStore (qr : Quire) (store : Bool) (f : List F32 → List F32) : Quire :=
  if store then { qr with array := { qr.array with table1 := f qr.array.table1 } }
  else { qr with array := { qr.array with table0 := f qr.array.table0 } }

/-- Row r of a table enters the drain's store; once an access of the table has been lost, the store holds zeros (R237). -/
def loadStore (qr : Quire) (dr : Drain) (r : Nat) (lost : Bool) (vals : List F32) : Quire :=
  if lost || dr.noTable then
    updDrain (updStore qr dr.store (fun _ => List.replicate 256 0)) dr.x (fun d => { d with noTable := true })
  else updStore qr dr.store (fun tab => setTabRow tab r vals)

/-- Row r of the table of a TABLE drain, in lc D − 10 + 4r. -/
def drainTableAt (s : State) (q : Fin 64) (l x r : Nat) : State :=
  let s := if r = 0 then updQ s q (fun qr => takeStore qr x) else s
  match drainOf s.quires[q] x with
  | none => s
  | some dr =>
    drainReadAt s q l dr (tableAccess dr r l) (fun bs lost s =>
      let s := updQ s q (fun qr => loadStore qr dr r lost (f32Row bs))
      if r = 0 then later (placePorts s q [tableAccess dr 1 (l + 4)]) q dr.task (l + 4) 0 (.drainTable x 1) else s)

/-- The bias row, in lc D − 2. -/
def drainBiasAt (s : State) (q : Fin 64) (l x : Nat) : State :=
  match drainOf s.quires[q] x with
  | none => s
  | some dr => drainReadAt s q l dr (biasAccess dr l) (fun bs _ s => updQ s q (fun qr => updDrain qr x (fun dr => { dr with bias := bs })))

/-- Row r of the stashed operand, in lc D + 8r + 2. -/
def drainStashAt (s : State) (q : Fin 64) (l x r : Nat) : State :=
  match drainOf s.quires[q] x with
  | none => s
  | some dr =>
    drainReadAt s q l dr (stashAccess dr r l) (fun bs _ s =>
      let s := updQ s q (fun qr => updDrain qr x (fun dr => { dr with stash := dr.stash ++ bs }))
      if dr.d.deriv = 2 && decide (r < 3) then
        later (placePorts s q [stashAccess dr (r + 1) (l + 8)]) q dr.task (l + 8) 0 (.drainStash x (r + 1)) else s)

/-- Row i of the set is read in lc D + i. -/
def drainRowAt (s : State) (q : Fin 64) (l x i : Nat) : State :=
  match drainOf s.quires[q] x with
  | none => s
  | some dr =>
    let row := ((accSet s.quires[q] dr.d.setIx).drop (32 * i)).take 32
    let s := later s q dr.task (l + 7) 0 (.drainOut x i row)
    if i < 31 then later (placePorts s q (drainAccesses dr (i + 1) (l + 1))) q dr.task (l + 1) 0 (.drainRow x (i + 1)) else s

/-- Row i leaves the derivative stage and is narrowed, in lc l = D + i + 7; a gradient row is added in the next. -/
def drainOutAt (s : State) (q : Fin 64) (l x i : Nat) (row : List F32) : State :=
  match drainOf s.quires[q] x with
  | none => s
  | some dr =>
    let w := drainLine dr (drainTab s.quires[q] dr) i row
    let s := if dr.d.dest = 3 then later s q dr.task (l + 1) 1 (.drainAdd x i w) else drainNarrow s q l dr i w
    let s := if dr.d.dest ≠ 3 && dr.d.normEn
      then later s q dr.task (l + 2) 0 (.drainNorm dr.d.ledger (w.map (fun p => if p.2 then some p.1 else none))) else s
    if i = 31 then later s q dr.task (l + 1) 2 (.drainEnd x) else s

/-- The last row has committed in lc l: the drain is complete, and those that a stop has ended are gone. -/
def drainEndAt (s : State) (q : Fin 64) (l x : Nat) : State :=
  updQ s q (fun qr => { qr with array := { qr.array with
    tiles := qr.array.tiles + 1, draining := qr.array.draining.filter (fun d => d.x != x && !d.stop.any (· ≤ l)) } })

/-- The oldest finished set begins to drain: its rows are read from lc D on. -/
def startDrain (qr : Quire) : Quire :=
  match qr.array.drains with
  | [] => qr
  | dr :: rest =>
    let qr := { qr with array := { qr.array with drains := rest, draining := qr.array.draining ++ [dr] } }
    let qr := emit (placeAll (drainAccesses dr 0 dr.start) qr) { lc := dr.start, ph := 0, task := dr.task, op := .drainRow dr.x 0 }
    if dr.d.deriv = 1 || dr.d.deriv = 2 then
      emit (placeAll [stashAccess dr 0 (dr.start + 2)] qr) { lc := dr.start + 2, ph := 0, task := dr.task, op := .drainStash dr.x 0 }
    else qr

end Sys2Proof.Machine
end

