-- ==== Sys2Proof/Machine/UpdateFlow.lean ====
section
/-! DEFINITION. What the update engine does in each lc of a UPD: reads, the rules, narrowing, sums, writes and clears (file
09). -/

namespace Sys2Proof.Machine

/-! ## One row of 32 parameters (R249–R254) -/

/-- −x. -/
def f32Neg (x : F32) : F32 := x ^^^ 0x8000_0000

/-- What the rule computes for one parameter: first moment, second moment, weight, in F32, before any narrowing. -/
structure ParamOut where
  m : F32
  v : F32
  w : F32
deriving DecidableEq, Repr

/-- SGDM under FUSED (R250). -/
def sgdm (d : LayerDesc) (g m w : F32) : ParamOut :=
  let gh := f32Mul g d.clip
  let m := f32Fma d.mu m gh
  let u := f32Fma d.wd w m
  { m := m, v := 0, w := f32Fma (f32Neg d.eta) u w }

/-- ADAMC under FUSED (R251). -/
def adamc (d : LayerDesc) (g m v w : F32) : ParamOut :=
  let gh := f32Mul g d.clip
  let m := f32Fma d.mu m (f32Mul d.muc gh)
  let v := f32Fma d.nu v (f32Mul d.nuc (f32Mul gh gh))
  let dn := f32Add (f32Sqrt (f32Mul v d.bc2)) d.eps
  let u := f32Div (f32Mul m d.bc1) dn
  let u := f32Fma d.wd w u
  { m := m, v := v, w := f32Fma (f32Neg d.eta) u w }

/-- The momentum of TRUST and ORTHO under MOM (R252 R254). -/
def momentum (d : LayerDesc) (g m : F32) : F32 := f32Fma d.mu m (f32Mul g d.clip)

/-- The weight of APPLY, o being the moment (TRUST) or the matrix O (ORTHO) (R252 R254). -/
def applyStep (d : LayerDesc) (f o w : F32) : F32 :=
  f32Fma (f32Neg (f32Mul d.eta f)) (f32Fma d.wd w o) w

/-- An N8 element widened under its block scale (R200 R249). -/
def widenN8 (code sc : Nat) : F32 :=
  if sc = 0xFF then 0x7FC0_0000 else f32OfVal (FV.scale ((sc : Int) - 127) (decodeCode .e4m3 code))

/-- A B16 value widened. -/
def widenB16 (code : Nat) : F32 := f32OfVal (decodeCode .b16 code)

/-- What the generators of the update lanes are formed from. -/
structure Lanes where
  seed : Word
  q : Nat
deriving DecidableEq, Repr

/-- The rounding of a lane in an lc; `second` takes the lower random bits (R256). -/
def updRnd (g : Lanes) (p : UpdPlan) (lc lane : Nat) (second : Bool) : Rnd :=
  if p.d.sr then .sr (laneBits (laneOut g.seed g.q (0x200 + lane) lc) second) else .rne

/-- What the engine read of one row. -/
structure RowIn where
  w : List F32
  m : List F32
  v : List F32
  g : List F32
deriving DecidableEq, Repr

/-- A row narrowed to B16 by lanes `lane0` on. -/
def narrowRowB16 (g : Lanes) (p : UpdPlan) (lc lane0 : Nat) (xs : List F32) : List Nat × Events :=
  let r := xs.zipIdx.map (fun e => narrowElem .b16 0 (updRnd g p lc (lane0 + e.2) false) (f32Val e.1))
  (r.map (·.1), joinEvents (r.map (·.2)))

/-- A row narrowed to one N8 block by the moment lanes. -/
def narrowRowN8 (g : Lanes) (p : UpdPlan) (lc : Nat) (second : Bool) (xs : List F32) : Nat × List Nat × Events :=
  let r := narrowBlock .e4m3 (xs.zipIdx.map (fun e => (f32Val e.1, updRnd g p lc (32 + e.2) second, true)))
  (r.1, r.2.map (·.1), joinEvents (r.2.map (·.2)))

/-- Elementwise combination of three rows. -/
def zip3 {α : Type} (f : F32 → F32 → F32 → α) (a b c : List F32) : List α :=
  List.zipWith (fun g x => g x) (List.zipWith (fun x y => f x y) a b) c

/-- A row that writes nothing. -/
def RowOut.empty : RowOut :=
  { wBytes := [], mBytes := [], vBytes := [], mScale := 0, vScale := 0, events := Events.none, sqA := [], sqB := [] }

/-- FUSED of one row in the lc of its narrowing (R250 R251). -/
def rowFused (g : Lanes) (p : UpdPlan) (lc : Nat) (r : RowIn) : RowOut :=
  if p.d.rule = 1 then
    let o := zip3 (sgdm p.d) r.g r.m r.w
    let nm := narrowRowB16 g p lc 32 (o.map (·.m))
    let nw := narrowRowB16 g p lc 0 (o.map (·.w))
    { RowOut.empty with wBytes := nw.1.flatMap (bytesLE 2), mBytes := nm.1.flatMap (bytesLE 2),
                        events := Events.join nm.2 nw.2 }
  else
    let o := List.zipWith (fun f w => f w) (zip3 (fun g m v w => adamc p.d g m v w) r.g r.m r.v) r.w
    let nm := narrowRowN8 g p lc false (o.map (·.m))
    let nv := narrowRowN8 g p lc true (o.map (·.v))
    let nw := narrowRowB16 g p lc 0 (o.map (·.w))
    { RowOut.empty with wBytes := nw.1.flatMap (bytesLE 2), mBytes := nm.2.1.flatMap (bytesLE 1),
                        vBytes := nv.2.1.flatMap (bytesLE 1), mScale := nm.1, vScale := nv.1,
                        events := Events.join (Events.join nm.2.2 nv.2.2) nw.2 }

/-- MOM of one row (R252 R254). -/
def rowMom (g : Lanes) (p : UpdPlan) (lc : Nat) (r : RowIn) : RowOut :=
  let nm := narrowRowB16 g p lc 32 (List.zipWith (momentum p.d) r.g r.m)
  let mw := nm.1.map widenB16
  let out := { RowOut.empty with mBytes := nm.1.flatMap (bytesLE 2), events := nm.2 }
  if p.d.rule = 4 then { out with sqA := r.w, sqB := List.zipWith (fun w m => f32Fma p.d.wd w m) r.w mw }
  else { out with sqA := mw }

/-- APPLY of one row (R252 R254). -/
def rowApply (g : Lanes) (p : UpdPlan) (lc : Nat) (r : RowIn) : RowOut :=
  let o := if p.d.rule = 4 then r.m else r.g
  let nw := narrowRowB16 g p lc 0 (List.zipWith (applyStep p.d p.f) o r.w)
  { RowOut.empty with wBytes := nw.1.flatMap (bytesLE 2), events := nw.2 }

/-- The row under the operation of a UPD. -/
def rowOut (g : Lanes) (p : UpdPlan) (lc : Nat) (r : RowIn) : RowOut :=
  match p.op with
  | 0 => { RowOut.empty with sqA := r.g }
  | 1 => rowFused g p lc r
  | 2 => rowMom g p lc r
  | _ => rowApply g p lc r

/-! ## Periods (R246 R247 R256–R259) -/

/-- Which banks an operation reads (R246). -/
def readsWeights (p : UpdPlan) : Bool := p.op != 0
def readsMoments (p : UpdPlan) : Bool := p.op == 1 || p.op == 2 || (p.op == 3 && p.d.rule == 4)
def readsGradient (p : UpdPlan) : Bool := p.op != 3 || p.d.rule == 3

/-- Is the gradient cleared (R259)? -/
def clearsGradient (p : UpdPlan) : Bool :=
  match p.op with
  | 0 => false
  | 3 => p.d.rule == 3
  | _ => !p.d.gkeep

/-- Row i of a block, widened. -/
def rowIn (p : UpdPlan) (bi : BlockIn) (i : Nat) : RowIn :=
  let cols := List.range 32
  let mAt := fun c => if p.d.n8 then widenN8 (numAt bi.m (32 * i + c) 1) (numAt bi.sc i 1)
                      else widenB16 (numAt bi.m (64 * i + 2 * c) 2)
  { w := cols.map (fun c => widenB16 (numAt bi.w (64 * i + 2 * c) 2)), m := cols.map mAt,
    v := cols.map (fun c => widenN8 (numAt bi.m (1024 + 32 * i + c) 1) (numAt bi.sc (32 + i) 1)),
    g := cols.map (fun c => BitVec.ofNat 32 (numAt bi.g (128 * i + 4 * c) 4)) }

/-- The sum of squares of a row added into a sum (R232 R257). -/
def addSquares (sum : Word) (xs : List F32) : Word := normRow sum (xs.map some)

/-- Nothing read yet, nothing computed yet. -/
def BlockIn.empty : BlockIn := { w := [], m := [], sc := [], g := [] }
def BlockOut.empty : BlockOut := { w := [], m := [], v := [], sc := [], vc := [] }

/-- An access of the engine: in lc i of period j, a read or a write; the gradient ones are of quarter 0 and quarter 1
(R134 R247). -/
def updAccess (p : UpdPlan) (port j i : Nat) (write : Bool) (l : Nat) : Access :=
  bankAccess 3 p.x 0 port 1 (if port = 2 then (if write then 2 else 1) else 0) (64 * j + 2 * i + b2n write) l

/-- Which reads lc i of a period makes: a weight half, 128 B of moments with the scales beside them, a gradient row (R247). -/
def readsW (p : UpdPlan) (i : Nat) : Bool := readsWeights p && decide (i < 2)
def readsM (p : UpdPlan) (i : Nat) : Bool := readsMoments p && decide (i < 16)

/-- The accesses of lc i of a period that reads block j. -/
def readAccesses (p : UpdPlan) (j i l : Nat) : List Access :=
  (if readsW p i then [updAccess p 0 j i false l] else []) ++ (if readsM p i then [updAccess p 1 j i false l] else [])
    ++ (if readsGradient p then [updAccess p 2 j i false l] else [])

/-- The reads of a block in one lc. -/
structure UpdGot where
  s : State
  b : BlockIn
  notes : List ReadNote

/-- One read of the engine, where it takes place. -/
def updGet (q : Fin 64) (l : Nat) (on : Bool) (a : Access) (bank at' n : Nat) (put : BlockIn → List Byte → BlockIn) (g : UpdGot) :
    UpdGot :=
  if !on then g
  else
    let r := portRead g.s q l a bank at' n
    { s := r.s, b := put g.b r.bytes, notes := g.notes ++ r.notes }

/-- The scales beside a moment read, which are lost with it. -/
def updScales (q : Fin 64) (on : Bool) (a : Access) (at' : Nat) (g : UpdGot) : UpdGot :=
  if !on then g
  else
    let r := if portServes g.s.quires[q] a then protRead g.s.quires[q] 2 at' 32 else (List.replicate 32 0, [])
    { g with b := { g.b with sc := g.b.sc ++ r.1 }, notes := g.notes ++ r.2 }

/-- The reads of lc i of period j (R247). -/
def updReads (s : State) (q : Fin 64) (l : Nat) (p : UpdPlan) (j i : Nat) (b : BlockIn) : UpdGot :=
  let n := p.block0 + j
  let g : UpdGot := { s := s, b := b, notes := [] }
  let g := updGet q l (readsW p i) (updAccess p 0 j i false l) 0 (2048 * n + 1024 * i) 1024 (fun b bs => { b with w := b.w ++ bs }) g
  let g := updGet q l (readsM p i) (updAccess p 1 j i false l) 1 (2048 * n + 128 * i) 128 (fun b bs => { b with m := b.m ++ bs }) g
  let g := updScales q (readsM p i && p.d.n8 && decide (i < 2)) (updAccess p 1 j i false l) (64 * n + 32 * i) g
  updGet q l (readsGradient p) (updAccess p 2 j i false l) 3 (4096 * n + 128 * i) 128 (fun b bs => { b with g := b.g ++ bs }) g

/-- A step of the reads on its way, with its accesses. -/
def laterRead (s : State) (q : Fin 64) (l : Nat) (p : UpdPlan) (j i : Nat) (b : BlockIn) : State :=
  later (placePorts s q (readAccesses p j i l)) q 0 l 0 (.updRead p j i b)

/-- Is an accumulate of a gradient row in flight (R156)? -/
def accumulates (qr : Quire) (a : Nat) (e : Event) : Bool :=
  let here := fun (x i : Nat) => (drainOf qr x).any (fun dr => dr.d.dest == 3 && 512 * dr.destRow + 128 * i == a)
  match e.op with
  | .drainOut x i _ => here x i
  | .drainAdd x i _ => here x i
  | _ => false

/-- A gradient read inside an accumulate's latency is a hazard (R156). -/
def noteAccumulate (s : State) (q : Fin 64) (l : Nat) (p : UpdPlan) (j i : Nat) : State :=
  let a := 4096 * (p.block0 + j) + 128 * i
  if hazOn s && readsGradient p && s.quires[q].flight.any (accumulates s.quires[q] a) then hazardAt s q 0 2 2 l else s

/-- Lc i of period j of a UPD: its reads; the last completes the block, whose rows are narrowed from period j + 2 on. -/
def updReadAt (s : State) (q : Fin 64) (l : Nat) (p : UpdPlan) (j i : Nat) (b : BlockIn) : State :=
  let s := if i = 0 && decide (j + 1 < p.n) then laterRead s q (l + 32) p (j + 1) 0 BlockIn.empty else s
  let g := updReads (noteAccumulate s q l p j i) q l p j i b
  let s := noteReads g.s q 1 3 g.notes
  if anyUncorrectable g.notes then accessFault s q 0 l none
  else if i < 31 then laterRead s q (l + 1) p j (i + 1) g.b
  else
    let s := updQ s q (fun qr => { qr with upd := { qr.upd with blocks := qr.upd.blocks + 1 } })
    later s q 0 (l + 33) 0 (.updRow p j 0 g.b BlockOut.empty)

/-- Which accesses lc i of a write period makes: a cleared gradient row, a weight half, 128 B of moments (R247). -/
def writesW (p : UpdPlan) (i : Nat) : Bool := (p.op == 1 || p.op == 3) && decide (16 ≤ i) && decide (i < 18)
def writesM (p : UpdPlan) (i : Nat) : Bool := (p.op == 1 || p.op == 2) && decide (16 ≤ i)

/-- The accesses of lc i of the write period of block j. -/
def writeAccesses (p : UpdPlan) (j i l : Nat) : List Access :=
  (if writesW p i then [updAccess p 0 j i true l] else []) ++ (if writesM p i then [updAccess p 1 j i true l] else [])
    ++ (if clearsGradient p then [updAccess p 2 j i true l] else [])

/-- A step of the writes on its way, with its accesses. -/
def laterWrite (s : State) (q : Fin 64) (l : Nat) (p : UpdPlan) (j i : Nat) (o : BlockOut) : State :=
  later (placePorts s q (writeAccesses p j i l)) q 0 l 2 (.updWrite p j i o)

/-- Row i of block j is narrowed in lc T_j + 64 + i; its squares enter the sums in the next lc. A frozen slice records
nothing (R258). -/
def updRowAt (s : State) (q : Fin 64) (l : Nat) (p : UpdPlan) (j i : Nat) (b : BlockIn) (o : BlockOut) : State :=
  let r := rowOut { seed := s.quires[q].seq.seed, q := q.val } p l (rowIn p b i)
  let s := if p.kept then updQ s q (fun qr => recordLedger qr p.d.ledger r.events) else s
  let s := if p.kept && (p.op = 0 || p.op = 2) then later s q 0 (l + 1) 0 (.updSum p r.sqA r.sqB) else s
  let o : BlockOut := { w := o.w ++ r.wBytes, m := o.m ++ r.mBytes, v := o.v ++ r.vBytes,
                        sc := o.sc ++ [BitVec.ofNat 8 r.mScale], vc := o.vc ++ [BitVec.ofNat 8 r.vScale] }
  if i < 31 then later s q 0 (l + 1) 0 (.updRow p j (i + 1) b o) else laterWrite s q (l + 1) p j 0 o

/-- A row's squares enter the sums, or the norm of the gradient slot (R257). -/
def updSumAt (s : State) (q : Fin 64) (p : UpdPlan) (a b : List F32) : State :=
  updQ s q (fun qr =>
    if p.op = 0 then
      let sum := addSquares (qr.bwd.norm[p.d.gslot % 256]'(by omega)) a
      { qr with bwd := { qr.bwd with norm := qr.bwd.norm.set (p.d.gslot % 256) sum (by omega) } }
    else
      { qr with upd := { qr.upd with
          sumA := addSquares qr.upd.sumA a, sumB := if p.d.rule = 4 then addSquares qr.upd.sumB b else qr.upd.sumB } })

/-- A write of the engine, discarded and counted where the slice is frozen (R258). -/
def updPut (p : UpdPlan) (bank a width : Nat) (bs : List Byte) (qr : Quire) : Quire :=
  if bs.isEmpty then qr
  else if p.kept then writeBank qr bank a bs
  else if bank = 2 then qr
  else { qr with upd := { qr.upd with discards := qr.upd.discards + BitVec.ofNat 64 (bs.length / width) } }

/-- One write of the engine, where it takes place and its port serves it (R157). -/
def updSet (q : Fin 64) (l : Nat) (on : Bool) (a : Access) (f : Quire → Quire) (s : State) : State :=
  if !on then s else if portServes s.quires[q] a then updQ s q f else loseAccess s q l a

/-- Lc i of the write period of block j: a gradient row cleared, then weight halves, moments with their scales (R247). -/
def updWriteAt (s : State) (q : Fin 64) (l : Nat) (p : UpdPlan) (j i : Nat) (o : BlockOut) : State :=
  let b := p.block0 + j
  let mom := o.m ++ o.v
  let a := i - 16
  let moments := fun (qr : Quire) =>
    let qr := updPut p 1 (2048 * b + 128 * a) (if p.d.n8 then 1 else 2) ((mom.drop (128 * a)).take 128) qr
    if p.d.n8 && decide (a < 2) then updPut p 2 (64 * b + 32 * a) 1 (if a = 0 then o.sc else o.vc) qr else qr
  let s := updSet q l (clearsGradient p) (updAccess p 2 j i true l)
    (fun qr => writeBank qr 3 (4096 * b + 128 * i) (List.replicate 128 0)) s
  let s := updSet q l (writesM p i) (updAccess p 1 j i true l) moments s
  let s := updSet q l (writesW p i) (updAccess p 0 j i true l)
    (fun qr => updPut p 0 (2048 * b + 1024 * a) 2 ((o.w.drop (1024 * a)).take 1024) qr) s
  if i < 31 then laterWrite s q (l + 1) p j (i + 1) o else s

end Sys2Proof.Machine
end

