-- ==== Sys2Proof/Machine/Elementary.lean ====
section
/-! DEFINITION. The correctly rounded EXP2 and LOG2 of the vector engine (R202), by fixed-point series of 256 fraction
bits: results that are not exact are irrational, so a sticky bit below the series' error decides every rounding. -/

namespace Sys2Proof.Machine

/-- Fraction bits of the fixed-point numbers. -/
def fxBits : Nat := 256

/-- Σ z^(2k+1) / (2k+1) for n terms, from the term p = z^(2k+1) on; z2 = z². -/
def atanhGo : Nat → Nat → Nat → Nat → Nat
  | 0, _, _, _ => 0
  | n + 1, k, p, z2 => p / (2 * k + 1) + atanhGo n (k + 1) ((p * z2) >>> fxBits) z2

/-- atanh z for a fixed-point z of at most 1/3. -/
def fxAtanh (z : Nat) : Nat := atanhGo 90 0 z ((z * z) >>> fxBits)

/-- ln 2 = 2·atanh(1/3). -/
def fxLn2 : Nat := 2 * fxAtanh (2 ^ fxBits / 3)

/-- Σ y^k / k! for n terms, from the term p = y^k / k! on. -/
def expGo : Nat → Nat → Nat → Nat → Nat
  | 0, _, _, _ => 0
  | n + 1, k, p, y => p + expGo n (k + 1) (((p * y) >>> fxBits) / (k + 1)) y

/-- e^y for a fixed-point y below 1. -/
def fxExp (y : Nat) : Nat := expGo 70 0 (2 ^ fxBits) y

/-- 2^x, ready for one rounding (R202). -/
def FV.exp2 : FV → FV
  | .nan => .nan
  | .inf neg => if neg then .fin false 0 0 else .inf false
  | .fin neg m e =>
    if m == 0 then .fin false 1 0
    else if flog m e ≥ 8 then (if neg then .fin false 0 0 else .inf false)
    else
      let fx := shiftFloor m (-(e + fxBits))
      let v : Int := if neg then -(fx : Int) else fx
      let n := v.fdiv (2 ^ fxBits : Nat)
      let f := (v.fmod (2 ^ fxBits : Nat)).toNat
      if f == 0 then .fin false 1 n
      else .fin false (2 * fxExp ((f * fxLn2) >>> fxBits) + 1) (n - fxBits - 1)

/-- log2 x, ready for one rounding (R202). -/
def FV.log2 : FV → FV
  | .nan => .nan
  | .inf neg => if neg then .nan else .inf false
  | .fin neg m e =>
    if m == 0 then .inf true
    else if neg then .nan
    else
      let b := Nat.log2 m
      let n : Int := (b : Int) + e
      if m == 2 ^ b then .fin (decide (n < 0)) n.natAbs 0
      else
        let y := shiftFloor m ((b : Int) - fxBits)
        let z := ((y - 2 ^ fxBits) <<< fxBits) / (y + 2 ^ fxBits)
        let l := ((2 * fxAtanh z) <<< fxBits) / fxLn2
        let v : Int := 2 * (n * (2 ^ fxBits : Nat) + l) + 1
        .fin (decide (v < 0)) v.natAbs (-(fxBits : Int) - 1)

/-- F32 2^A. -/
def f32Exp2 (a : F32) : F32 := f32OfVal (FV.exp2 (f32Val a))

/-- F32 log2 A. -/
def f32Log2 (a : F32) : F32 := f32OfVal (FV.log2 (f32Val a))

end Sys2Proof.Machine
end

