-- ==== Sys2Proof/Machine/PanelFlow.lean ====
section
/-! DEFINITION. What a WPANEL does in each lc: block halves read, converted and committed to operand staging (R137 R139
R140). -/

namespace Sys2Proof.Machine

/-- Weights of one line along K as codes, with its block scale for N4 and the events of the elements that a test picks
(R137). -/
def lineCodes (d : PanelDesc) (on : Nat → Bool) (xs : List FV) : Nat × List Nat × Events :=
  if d.fmt = 3 then
    let r := narrowBlock .e2m1 (xs.zipIdx.map (fun x => (x.1, Rnd.rne, on x.2)))
    (r.1, r.2.map (·.1), joinEvents (r.2.map (·.2)))
  else
    let r := xs.map (narrowElem (if d.fmt = 1 then .e4m3 else .e5m2) d.scale .rne)
    (0, r.map (·.1), joinEvents (r.map (·.2)))

/-- Codes as bytes: two 4-bit codes a byte, the lower element low; else one byte each. -/
def packCodes (four : Bool) : List Nat → List Byte
  | a :: b :: rest =>
    if four then BitVec.ofNat 8 (a % 16 + 16 * (b % 16)) :: packCodes four rest
    else BitVec.ofNat 8 a :: packCodes four (b :: rest)
  | [a] => [BitVec.ofNat 8 a]
  | [] => []

/-- The bytes of column j of a converted block, for the 32 columns in turn. -/
def columnBytes (d : PanelDesc) (ls : List (Nat × List Nat × Events)) : List (List Byte) :=
  ls.map (fun l => packCodes (d.fmt = 3) l.2.1)

/-- The events of lines of weights (R137). -/
def lineEvents (d : PanelDesc) (on : Nat → Bool) (ls : List (List FV)) : Events :=
  joinEvents (ls.map (fun l => (lineCodes d on l).2.2))

/-- The conversion in the lc of step k: of the half read the lc before, or of a whole K block for N4; a lost read records
nothing (R157). -/
def panelEvents (o : PanelOp) (k : Nat) : Events :=
  let d := o.d
  if k = 0 then Events.none
  else if d.fmt = 3 then
    (if k % 2 = 0 then lineEvents d (fun e => !o.lost.contains (e / 16)) (blockLines d.orient o.block) else Events.none)
  else if o.lost.contains ((k - 1) % 2) then Events.none
  else lineEvents d (fun _ => true) (halfLines d.orient (o.block.drop (1024 * ((k - 1) % 2))))

/-- The two staging rows of chunk c commit in lc l + 1 (R140). -/
def panelCommit (s : State) (q : Fin 64) (l : Nat) (o : PanelOp) (c : Nat) (bytes : List Byte) : State :=
  let s := laterRow s q o.task (l + 1) (rowWrite 5 o.x o.task 2 (o.d.destRow + 2 * c) (l + 1)) (slice bytes 0 512)
  laterRow s q o.task (l + 1) (rowWrite 5 o.x o.task 2 (o.d.destRow + 2 * c + 1) (l + 1)) (slice bytes 512 512)

/-- The scale groups of an N4 panel: after chunk 8g + 7, or the last, their row is written in the lc after the chunk's
commit. -/
def panelScales (s : State) (q : Fin 64) (l : Nat) (o : PanelOp) (c : Nat) : State × PanelOp :=
  if c % 8 = 7 || c + 1 = o.d.nblk / 2 then
    (laterRow s q o.task (l + 2) (rowWrite 5 o.x o.task 2 (o.d.scRow + c / 8) (l + 2)) (slice o.scales 0 512),
     { o with scales := [] })
  else (s, o)

/-- Block m has been read and is converted in lc l: for N4 the first block of a chunk is kept for the second. -/
def panelBlock (s : State) (q : Fin 64) (l : Nat) (o : PanelOp) (m : Nat) : State × PanelOp :=
  let ls := (blockLines o.d.orient o.block).map (lineCodes o.d (fun _ => true))
  let cols := columnBytes o.d ls
  let o := { o with block := [], lost := [] }
  if o.d.fmt ≠ 3 then (panelCommit s q l o m cols.flatten, o)
  else
    let sc := ls.map (fun l => (BitVec.ofNat 8 l.1 : Byte))
    if m % 2 = 0 then (s, { o with chunk := cols.flatten ++ sc })
    else
      let first := pieces 16 32 (slice o.chunk 0 512)
      let bytes := (List.zipWith (· ++ ·) first cols).flatten
      let group := (List.zipWith (fun a b => [a, b]) (slice o.chunk 512 32) sc).flatten
      let o := { o with chunk := [], scales := o.scales ++ group }
      panelScales (panelCommit s q l o (m / 2) bytes) q l o (m / 2)

/-- The weight access of step k, in lc l (R140). -/
def panelAccess (o : PanelOp) (k l : Nat) : Access := bankAccess 1 o.x o.task 0 1 0 k l

/-- Step k of a panel on its way, with its access. -/
def laterPanel (s : State) (q : Fin 64) (l : Nat) (o : PanelOp) (k : Nat) : State :=
  let s := if k < 2 * o.d.nblk then placePorts s q [panelAccess o k l] else s
  later s q o.task l 0 (.panel o k)

/-- Step k of a panel, in lc l = x + 2 + k: half k mod 2 of block k div 2 is read, the half of the lc before converted. -/
def panelAt (s : State) (q : Fin 64) (l : Nat) (o : PanelOp) (k : Nat) : State :=
  let s := updQ s q (fun qr => recordLedger qr o.d.ledger (panelEvents o k))
  let (s, o) := if k % 2 = 0 && k != 0 then panelBlock s q l o (k / 2 - 1) else (s, o)
  if k < 2 * o.d.nblk then
    let g := weightRead s q l (panelAccess o k l) (o.d.block + (k / 2) * o.d.stride) (k % 2) o.d.orient
    let s := noteReads g.s q 0 4 g.notes
    if anyUncorrectable g.notes then accessFault s q o.task l none
    else
      let lost := if g.lost then (k % 2) :: o.lost else o.lost
      laterPanel s q (l + 1) { o with block := o.block ++ g.bytes, lost := lost } (k + 1)
  else s

end Sys2Proof.Machine
end

