-- ==== Sys2Proof/Machine/VectorFlow.lean ====
section
/-! DEFINITION. What the vector engine does in each lc of an operation: beats, narrowing, commits and reductions (R194 R195
R200–R210 R216). -/

namespace Sys2Proof.Machine

/-! ## Layout of rows and lines (R198) -/

/-- Elements of a row by format (R198). -/
def perRow (fmt : Nat) : Nat := match fmt with | 0 => 256 | 1 => 512 | 2 => 512 | 3 => 1024 | 4 => 128 | 5 => 512 | _ => 4096

/-- Rows of a line (R198). -/
def rowsPerLine (fmt nIn : Nat) : Nat := ceilDiv nIn (perRow fmt)

/-- Bytes of block scales per element row (R198); 0 for the formats without. -/
def scalesPerRow (fmt : Nat) : Nat := match fmt with | 3 => 32 | 5 => 16 | _ => 0

/-- The sources an operation uses (R202). -/
def usesB (op : Nat) : Bool := (1 ≤ op && op ≤ 6) || op == 12 || (16 ≤ op && op ≤ 19)
def usesC (op : Nat) : Bool := op == 4 || op == 19

/-- Is the operation a comparison? -/
def isCmp (op : Nat) : Bool := op == 16 || op == 17 || op == 18

/-! ## Element operations (R200 R202) -/

/-- The canonical NaN for every NaN (R35). -/
def canon (a : F32) : F32 := if f32Val a = .nan then 0x7FC0_0000 else a

/-- The larger of two F32 values: NaN if either is NaN, +0 above −0 (R202). -/
def f32Max (a b : F32) : F32 :=
  let va := f32Val a
  let vb := f32Val b
  if va = .nan || vb = .nan then 0x7FC0_0000
  else if FV.lt va vb then b
  else if FV.lt vb va then a
  else if va.isZero && (a == 0 || b == 0) then 0 else a

/-- The smaller of two F32 values: NaN if either is NaN, −0 below +0 (R202). -/
def f32Min (a b : F32) : F32 :=
  let va := f32Val a
  let vb := f32Val b
  if va = .nan || vb = .nan then 0x7FC0_0000
  else if FV.lt va vb then a
  else if FV.lt vb va then b
  else if va.isZero && (a == 0x8000_0000 || b == 0x8000_0000) then 0x8000_0000 else a

/-- 1.0 for true, +0 for false (R207). -/
def f32Bool (b : Bool) : F32 := if b then 0x3F80_0000 else 0

/-- The F32 result of an element (R202); c is the value of C, cbit the mask bit of SEL. -/
def vecElem (op : Nat) (tab : List F32) (a b c : F32) (cbit : Bool) : F32 :=
  let va := f32Val a
  let vb := f32Val b
  canon (match op with
    | 0 => a
    | 1 => f32Add a b
    | 2 => f32Sub a b
    | 3 => f32Mul a b
    | 4 => f32Fma a b c
    | 5 => f32Max a b
    | 6 => f32Min a b
    | 7 => a &&& 0x7FFF_FFFF
    | 8 => a ^^^ 0x8000_0000
    | 9 => f32Div 0x3F80_0000 a
    | 10 => f32Sqrt a
    | 11 => f32OfVal (FV.rsqrt va)
    | 12 => f32Div a b
    | 13 => f32Exp2 a
    | 14 => f32Log2 a
    | 15 => tableEval tab va
    | 16 => f32Bool (FV.lt vb va)
    | 17 => f32Bool (FV.lt vb va || FV.eqv va vb)
    | 18 => f32Bool (FV.eqv va vb)
    | _ => if cbit then a else b)

/-- The latency L of an operation (R202). -/
def vecLatency (op : Nat) : Nat :=
  match op with
  | 1 | 2 | 3 => 4
  | 4 => 5
  | 9 => 9
  | 10 | 11 => 11
  | 12 => 13
  | 13 | 14 => 12
  | 15 => 7
  | _ => 3

/-- A source element widened to F32 (R200): position p of a row, its block scale from the row's scales. -/
def widenElem (v : VecSrc) (row scales : List Byte) (p : Nat) : F32 :=
  let scaled := fun (f : Fmt) (code sc : Nat) =>
    if sc = 0xFF then (0x7FC0_0000 : F32) else f32OfVal (FV.scale ((sc : Int) - 127) (decodeCode f code))
  match v.fmt with
  | 0 => f32OfVal (decodeCode .b16 (numAt row (2 * p) 2))
  | 1 => scaled .e4m3 (numAt row p 1) v.scale
  | 2 => scaled .e5m2 (numAt row p 1) v.scale
  | 3 => scaled .e2m1 (bitsOf (numAt row (p / 2) 1) (4 * (p % 2)) 4) (numAt scales (p / 32) 1)
  | _ => BitVec.ofNat 32 (numAt row (4 * p) 4)

/-- A mask element of a row (R198). -/
def maskElem (row : List Byte) (p : Nat) : Bool := bitsOf (numAt row (p / 8) 1) (p % 8) 1 == 1

/-! ## The reducer (R207–R209) -/

/-- The combination of two results of a reduction. -/
def redCombine (red : Nat) (a b : F32) : F32 := match red with | 1 => f32Add a b | 3 => f32Min a b | _ => f32Max a b

/-- What a result contributes: its magnitude for MAXABS. -/
def redLeaf (red : Nat) (a : F32) : F32 := if red = 4 then canon (a &&& 0x7FFF_FFFF) else a

/-- One beat into the accumulators of a scope: one per lane in mode 0, one alone in mode 1. -/
def redBeat (mode : Bool) (red : Nat) (acc : List (Option F32)) (vs : List F32) : List (Option F32) :=
  let leaves := vs.map (fun v => some (redLeaf red v)) ++ List.replicate (64 - vs.length) none
  if mode then [combineOpt (redCombine red) ((acc.head?).getD none) (treeOf (redCombine red) 6 leaves)]
  else List.zipWith (combineOpt (redCombine red)) (acc ++ List.replicate (64 - acc.length) none) leaves

/-- The result of a scope. -/
def redResult (mode : Bool) (red : Nat) (acc : List (Option F32)) : F32 :=
  ((if mode then (acc.head?).getD none else treeOf (redCombine red) 6 acc)).getD 0

/-! ## One beat (R203–R205 R216) -/

/-- Beats of a line. -/
def VecDesc.beats (d : VecDesc) : Nat := ceilDiv d.nIn 64

/-- The row of a tensor operand that beat k of line l uses, relative to its first row. -/
def beatRow (v : VecSrc) (l k : Nat) : Nat := l * v.stride + 64 * k / perRow v.fmt

/-- The row that operand i of an operation reads in beat k of line l, relative to its first: a TENSOR row in the first beat
that uses it, a LINE row in the first beat of each line (R203). -/
def beatRead (o : VecOp) (i : Nat) (v : VecSrc) (l k : Nat) : Option Nat :=
  if !v.used || v.kind = 1 || v.kind = 2 then none
  else if v.kind = 3 then (if k ≠ 0 then none else some (l / 128))
  else
    let m := beatRow v l k
    if o.held.any (fun h => h.opd == i && h.row == m) then none else some m

/-- The accesses that read it in lc t: the row, and an N4 row's scales (R203 R521). -/
def operandAccess (p : VecPlan) (v : VecSrc) (m t : Nat) : Access := rowRead 4 p.x p.task v.spad (v.base + m) t
def operandScales (p : VecPlan) (v : VecSrc) (m t : Nat) : Access := scaleRead 4 p.x p.task v.spad (16 * v.scBase + m) t

/-- The accesses of an operand in a beat of lc t. -/
def operandAccesses (o : VecOp) (i : Nat) (v : VecSrc) (l k t : Nat) : List Access :=
  match beatRead o i v l k with
  | none => []
  | some m => operandAccess o.plan v m t :: (if v.kind = 0 && v.fmt = 3 then [operandScales o.plan v m t] else [])

/-- Does beat k of line l complete a row of D? -/
def completesRow (p : VecPlan) (k : Nat) : Bool :=
  p.d.dEn && (decide ((64 * k + 64) % perRow p.o.fmt = 0) || decide (k + 1 = p.d.beats))

/-- The access of the row of D that beat k of line l, entered in lc t, completes. -/
def destRowAccess (p : VecPlan) (l k t : Nat) : Access :=
  rowWrite 4 p.x p.task p.o.spad (p.o.base + beatRow p.o l k) (t + vecLatency p.d.op)

/-- The accesses of the next beat of an operation, entered in lc t. -/
def beatAccesses (o : VecOp) (t : Nat) : List Access :=
  let p := o.plan
  let l := o.n / p.d.beats
  let k := o.n % p.d.beats
  operandAccesses o 0 p.a l k t ++ operandAccesses o 1 p.b l k t ++ operandAccesses o 2 p.c l k t
    ++ (if completesRow p k then [destRowAccess p l k t] else [])

/-- What the reads of a beat have come to, and the accesses that have been read. -/
structure VecGot where
  s : State
  o : VecOp
  notes : List ReadNote
  done : List Access

/-- A read of an operand: one that another operand has made in the same lc is no second access (R203). -/
def sharedRead (done : List Access) (s : State) (q : Fin 64) (l : Nat) (a : Access) (mem at' n : Nat) : Got :=
  let g := portRead s q l a mem at' n
  if done.contains a then { g with s := s, notes := [] } else g

/-- Reads the row an operand needs in the beat of lc t, where it does not hold it yet. -/
def fetchOperand (q : Fin 64) (t i : Nat) (v : VecSrc) (l k : Nat) (r : VecGot) : VecGot :=
  match beatRead r.o i v l k with
  | none => r
  | some m =>
    let a := operandAccess r.o.plan v m t
    let g := sharedRead r.done r.s q t a (4 + v.spad) (512 * a.id) 512
    let n4 := v.kind == 0 && v.fmt == 3
    let b := operandScales r.o.plan v m t
    let sc := if n4 then sharedRead r.done g.s q t b (4 + v.spad) (512 * v.scBase + 32 * m) 32
      else { s := g.s, bytes := [], notes := [], lost := false }
    let h : HeldRow := { opd := i, row := if v.kind = 3 then 0 else m, data := g.bytes, scales := sc.bytes,
                         acc := if v.spad = 1 && !g.lost then some a else none }
    let kept := if v.kind = 3 then r.o.held.filter (fun h => h.opd != i) else r.o.held
    { s := sc.s, o := { r.o with held := h :: kept }, notes := r.notes ++ g.notes ++ sc.notes,
      done := a :: (if n4 then b :: r.done else r.done) }

/-- Rows held by an operation as the end of their reads leaves them, and the accesses that were lost. -/
structure HeldEnd where
  s : State
  held : List HeldRow
  gone : List Access

/-- A partial-sum row whose port has been lost after the read began delivers zeros (R164); an access that two operands share is
lost once (R203). -/
def settleHeld (q : Fin 64) (t : Nat) (r : HeldEnd) (h : HeldRow) : HeldEnd :=
  match h.acc with
  | none => { r with held := r.held ++ [h] }
  | some a =>
    let zeros := { h with data := List.replicate 512 0, acc := none }
    if r.gone.contains a then { r with held := r.held ++ [zeros] }
    else if portServes r.s.quires[q] a then { r with held := r.held ++ [{ h with acc := none }] }
    else { s := loseAccess r.s q t a, held := r.held ++ [zeros], gone := a :: r.gone }

/-- The reads of an operation that have ended by lc t. -/
def endReads (s : State) (q : Fin 64) (t : Nat) (o : VecOp) : State × VecOp :=
  let r := o.held.foldl (settleHeld q t) { s := s, held := [], gone := [] }
  (r.s, { o with held := r.held })

/-- The row an operand holds for a beat. -/
def heldRow (o : VecOp) (i : Nat) (v : VecSrc) (l k : Nat) : List Byte × List Byte :=
  let m := if v.kind = 3 then 0 else beatRow v l k
  match o.held.find? (fun h => h.opd == i && h.row == m) with
  | some h => (h.data, h.scales)
  | none => ([], [])

/-- The value of an operand for element e of line l. -/
def operandValue (v : VecSrc) (held : List Byte × List Byte) (l e : Nat) : F32 :=
  match v.kind with
  | 0 => widenElem v held.1 held.2 (e % perRow v.fmt)
  | 3 => BitVec.ofNat 32 (numAt held.1 (4 * (l % 128)) 4)
  | _ => v.value

/-- The results of a beat's active lanes. -/
def beatResults (o : VecOp) (l k : Nat) : List F32 :=
  let p := o.plan
  let ha := heldRow o 0 p.a l k
  let hb := heldRow o 1 p.b l k
  let hc := heldRow o 2 p.c l k
  (List.range (min 64 (p.d.nIn - 64 * k))).map (fun i =>
    let e := 64 * k + i
    vecElem p.d.op o.tab (operandValue p.a ha l e) (operandValue p.b hb l e) (operandValue p.c hc l e)
      (p.d.op == 19 && maskElem hc.1 (e % 4096)))

/-- The rounding of a lane in an lc (R53 R204). -/
def vecRnd (seed : Word) (q : Nat) (p : VecPlan) (lc lane : Nat) : Rnd :=
  if p.d.rnd = 1 then .sr (laneBits (laneOut seed q (0x100 + lane) lc) false) else .rne

/-- The results of a beat in D's format, narrowed in lc `lc`: codes, block scales, events (R204). -/
def narrowBeat (seed : Word) (q : Nat) (p : VecPlan) (lc : Nat) (vs : List F32) : List Nat × List Nat × Events :=
  let xs := vs.zipIdx
  match p.o.fmt with
  | 4 => (vs.map (·.toNat), [], Events.none)
  | 6 => (vs.map (fun v => b2n (v != 0)), [], Events.none)
  | 3 | 5 =>
    let f : Fmt := if p.o.fmt = 3 then .e2m1 else .e4m3
    let blocks := (pieces 32 (ceilDiv vs.length 32) (xs.map (fun x => (f32Val x.1, vecRnd seed q p lc x.2, true)))).map
      (narrowBlock f)
    (blocks.flatMap (fun b => b.2.map (·.1)), blocks.map (·.1), joinEvents (blocks.flatMap (fun b => b.2.map (·.2))))
  | f =>
    let fm : Fmt := match f with | 0 => .b16 | 1 => .e4m3 | _ => .e5m2
    let es := xs.map (fun x => narrowElem fm p.o.scale (vecRnd seed q p lc x.2) (f32Val x.1))
    (es.map (·.1), [], joinEvents (es.map (·.2)))

/-- A number of element codes of a format as the bytes of one row, +0 beyond the line's end (R205). -/
def rowBytes (fmt : Nat) (codes : List Nat) : List Byte :=
  let bytes := match fmt with
    | 6 => (List.range 512).map (fun i => BitVec.ofNat 8 (maskOfList ((List.range 8).filter (fun b => (codes[8 * i + b]?).getD 0 == 1))))
    | 3 => packCodes true (if codes.length % 2 = 1 then codes ++ [0] else codes)
    | 4 => codes.flatMap (bytesLE 4)
    | 0 => codes.flatMap (bytesLE 2)
    | _ => codes.map (fun c => BitVec.ofNat 8 c)
  slice bytes 0 512

/-- Writes bytes into a row's worth of bytes. -/
def overlay (row : List Byte) (off : Nat) (bs : List Byte) : List Byte :=
  row.take off ++ bs ++ row.drop (off + bs.length)

/-- The next destination row of an operation after that of beat k of line l; none after the last (R198). -/
def nextRow (p : VecPlan) (l k : Nat) : Option Nat :=
  let line := rowsPerLine p.o.fmt p.d.nIn
  let m := 64 * k / perRow p.o.fmt
  if m + 1 < line then some (l * p.o.stride + m + 1)
  else if l + 1 < p.d.nOut then some ((l + 1) * p.o.stride) else none

/-- The scale row that an element row of D maps into, absolute. -/
def scaleRowOf (p : VecPlan) (m : Nat) : Nat := p.o.scBase + scalesPerRow p.o.fmt * m / 512

/-- The scales of a destination row that commits in lc `lc` enter the engine's collector; a scale row is written in the lc
after the commit of the last element row that maps into it (R204). -/
def collectVecScales (s : State) (q : Fin 64) (o : VecOp) (m lc : Nat) (next : Option Nat) (scs : List Nat) : State × VecOp :=
  let p := o.plan
  let n := scalesPerRow p.o.fmt
  if n = 0 then (s, o)
  else
    let row := scaleRowOf p m
    let old := if o.scBytes.isEmpty then List.replicate 512 0 else o.scBytes
    let bs := overlay old (n * m % 512) (scs.map (fun v => (BitVec.ofNat 8 v : Byte)))
    if next.any (fun m' => scaleRowOf p m' == row) then (s, { o with scRow := row, scBytes := bs })
    else (laterRow s q p.task (lc + 1) (rowWrite 4 p.x p.task p.o.spad row (lc + 1)) bs, { o with scRow := row, scBytes := [] })

/-- The element results of a beat of lc t on their way to D: narrowed in lc t + L − 1; a row that the beat completes
commits in lc t + L (R203). -/
def destBeat (s : State) (q : Fin 64) (t l k : Nat) (vs : List F32) (o : VecOp) : State × VecOp :=
  let p := o.plan
  if !p.d.dEn then (s, o)
  else
    let lc := t + vecLatency p.d.op
    let nb := narrowBeat s.quires[q].seq.seed q.val p (lc - 1) vs
    let s := if p.o.fmt = 4 || p.o.fmt = 6 then s else later s q p.task (lc - 1) 0 (.ledger p.d.ledger nb.2.2)
    let codes := o.codes ++ nb.1
    let scs := o.scs ++ nb.2.1
    let full := decide (codes.length = perRow p.o.fmt) || decide (64 * k + vs.length = p.d.nIn)
    if !full then (s, { o with codes := codes, scs := scs })
    else
      let m := beatRow p.o l k
      let s := later s q p.task lc 2 (.writeRow (destRowAccess p l k t) (rowBytes p.o.fmt codes))
      collectVecScales s q { o with codes := [], scs := [], lastRow := lc } m lc (nextRow p l k) scs

/-- A row of reduction results is committed in the lc in which the last of them forms (R207). -/
def putResults (s : State) (q : Fin 64) (p : VecPlan) (lc row : Nat) (vals : List F32) : State :=
  laterRow s q p.task lc (rowWrite 4 p.x p.task p.d.redSpad (p.redBase + row) lc) (rowBytes 4 (vals.map (·.toNat)))

/-- The tensor result: a scalar register readable from the next lc, or element 0 of the reduction row (R207 R208). -/
def putTensor (s : State) (q : Fin 64) (p : VecPlan) (lc : Nat) (v : F32) : State :=
  if p.d.toReg then
    updT s q p.task (fun tk => if tk.live then writeReg tk p.d.sreg (BitVec.ofNat 64 v.toNat) (lc + 1) true else tk)
  else putResults s q p lc 0 [v]

/-- The results of a beat on their way to the reducer; a line's or the tensor's result forms in lc t + L + 28 (R208). -/
def reduceBeat (s : State) (q : Fin 64) (t l k : Nat) (vs : List F32) (o : VecOp) : State × VecOp :=
  let p := o.plan
  if p.d.red = 0 then (s, o)
  else
    let acc := redBeat p.mode p.d.red o.acc vs
    let lineEnd := k + 1 = p.d.beats
    let last := lineEnd && decide (l + 1 = p.d.nOut)
    let lc := t + vecLatency p.d.op + 28
    if p.d.lineScope then
      if !lineEnd then (s, { o with acc := acc })
      else
        let vals := o.redVals ++ [redResult p.mode p.d.red acc]
        if l % 128 = 127 || last then (putResults s q p lc (l / 128) vals, { o with acc := [], redVals := [] })
        else (s, { o with acc := [], redVals := vals })
    else if last then (putTensor s q p lc (redResult p.mode p.d.red acc), { o with acc := [] })
    else (s, { o with acc := acc })

/-- An operation that enters no further beats: its reductions form from the beats entered, its collected scale row is
written after its last element row and after the issue of the operation that cut it (R210). -/
def cutOff (s : State) (q : Fin 64) (o : VecOp) (issue : Nat) : State :=
  let p := o.plan
  let s := if o.scBytes.isEmpty then s
    else
      let lc := max o.lastRow issue + 1
      laterRow s q p.task lc (rowWrite 4 p.x p.task p.o.spad o.scRow lc) o.scBytes
  if p.d.red = 0 || o.n = 0 then s
  else
    let lc := o.lastIn + vecLatency p.d.op + 28
    let l := (o.n - 1) / p.d.beats
    if p.d.lineScope then
      let vals := if o.acc.isEmpty then o.redVals else o.redVals ++ [redResult p.mode p.d.red o.acc]
      if vals.isEmpty then s else putResults s q p lc (l / 128) vals
    else if o.acc.isEmpty then s else putTensor s q p lc (redResult p.mode p.d.red o.acc)

/-- Does the next beat of an operation, in lc t, come too late because another operation cuts it? -/
def cutBefore (o : VecOp) (t : Nat) : Option Nat :=
  match o.cut with
  | some (first, issue) => if first ≤ t then some issue else none
  | none => none

/-- The next beat on its way, in lc t, with its accesses. -/
def laterBeat (s : State) (q : Fin 64) (t : Nat) (o : VecOp) : State :=
  later (placePorts s q (beatAccesses o t)) q o.plan.task t 0 (.vecBeat o)

/-- The beat entered in lc t enters the lanes with the rows it has read. -/
def beatDone (s : State) (q : Fin 64) (t : Nat) (o : VecOp) : State × VecOp :=
  let p := o.plan
  let l := o.n / p.d.beats
  let k := o.n % p.d.beats
  let vs := beatResults o l k
  let (s, o) := destBeat s q t l k vs { o with n := o.n + 1, lastIn := t, reading := none }
  reduceBeat s q t l k vs o

/-- After the beat of lc t: none after the last or because of a cut, else the next one. -/
def nextBeat (s : State) (q : Fin 64) (t : Nat) (o : VecOp) : State :=
  let p := o.plan
  if o.n = p.d.nOut * p.d.beats then s
  else match cutBefore o (t + p.d.pace) with
    | some issue => cutOff s q o issue
    | none => laterBeat s q (t + p.d.pace) o

/-- A beat enters in lc t: its rows are read. The lanes take it at once, or a lc later where a partial-sum row's port may yet
be lost; with PACE 1 the next beat's accesses are placed at once. -/
def enterBeat (s : State) (q : Fin 64) (t : Nat) (o : VecOp) : State :=
  let p := o.plan
  let l := o.n / p.d.beats
  let k := o.n % p.d.beats
  let f := fetchOperand q t 2 p.c l k (fetchOperand q t 1 p.b l k (fetchOperand q t 0 p.a l k { s := s, o := o, notes := [], done := [] }))
  let s := noteReads f.s q 0 2 f.notes
  let s := updQ s q (fun qr => { qr with vec := { qr.vec with beats := qr.vec.beats + 1 } })
  if anyUncorrectable f.notes then accessFault s q p.task t (some (.vec, 3))
  else if f.o.held.any (·.acc.isSome) then
    let next := { f.o with n := o.n + 1 }
    let more := p.d.pace == 1 && decide (next.n < p.d.nOut * p.d.beats) && (cutBefore o (t + 1)).isNone
    let s := if more then placePorts s q (beatAccesses next (t + 1)) else s
    later s q p.task (t + 1) 0 (.vecBeat { f.o with reading := some t })
  else
    let (s, o) := beatDone s q t f.o
    nextBeat s q t o

/-- A step of an operation in lc t: the beat that was being read enters the lanes, and what is due in lc t follows. -/
def vecBeatAt (s : State) (q : Fin 64) (t : Nat) (o : VecOp) : State :=
  match o.reading with
  | none => enterBeat s q t o
  | some t0 =>
    let h := endReads s q t o
    let (s, o) := beatDone h.1 q t0 h.2
    if o.plan.d.pace = 1 && decide (o.n < o.plan.d.nOut * o.plan.d.beats) && (cutBefore o t).isNone then enterBeat s q t o
    else nextBeat s q t0 o

/-- The access of row r of a derivative table, from lc t on. -/
def vecTableAccess (p : VecPlan) (r t : Nat) : Access := rowRead 4 p.x p.task 1 (p.tabBase + r) t

/-- The operand number under which the rows of a derivative table are held. -/
def tabOpd : Nat := 9

/-- The table that an operation has read. -/
def heldTable (o : VecOp) : List F32 :=
  tableOf ([0, 1].flatMap (fun r =>
    match o.held.find? (fun h => h.opd == tabOpd && h.row == r) with | some h => h.data | none => List.replicate 512 0))

/-- Step r of the table load of a TAB: row 0 in lc x + 2, row 1 in lc x + 6; the first beat follows in lc x + 10 (R195). -/
def vecTableAt (s : State) (q : Fin 64) (t : Nat) (o : VecOp) (r : Nat) : State :=
  let p := o.plan
  let h := endReads s q t o
  let s := h.1
  let o := h.2
  if r = 2 then
    (match cutBefore o t with
     | some issue => cutOff s q o issue
     | none => enterBeat s q t { o with tab := heldTable o, held := [] })
  else
    let a := vecTableAccess p r t
    let g := rowReadAt s q t a 1
    let s := noteReads g.s q 0 2 g.notes
    if anyUncorrectable g.notes then accessFault s q p.task t (some (.vec, 3))
    else
      let row : HeldRow := { opd := tabOpd, row := r, data := g.bytes, scales := [], acc := if g.lost then none else some a }
      let next := if r = 0 then [vecTableAccess p 1 (t + 4)] else beatAccesses { o with held := [] } (t + 4)
      later (placePorts s q next) q p.task (t + 4) 0 (.vecTable { o with held := row :: o.held } (r + 1))

/-- An operation cut by the VOP issued in lc x with its first beat in lc t0: where another has cut it before, no beat enters from
the earlier of their first beats on (R210). -/
def VecOp.cutBy (t0 x : Nat) (o : VecOp) : VecOp :=
  { o with cut := some (match o.cut with | none => (t0, x) | some c => (min c.1 t0, c.2)) }

/-- An operation in flight that a new one with its first beat in lc t0 cuts; one that enters no more beats is finished at
once (R210). -/
def cutEvent (t0 x : Nat) (e : Event) : Event × Option VecOp :=
  match e.op with
  | .vecBeat o =>
    let o := o.cutBy t0 x
    if t0 ≤ e.lc && o.reading.isNone then (e, some o) else ({ e with op := .vecBeat o }, none)
  | .vecTable o r => ({ e with op := .vecTable (o.cutBy t0 x) r }, none)
  | _ => (e, none)

/-- The accesses of an operation's step that beats from lc t0 on place. -/
def cutAccesses (t0 : Nat) (e : Event) : List Access :=
  match e.op with
  | .vecBeat o =>
    (match o.reading with
     | none => if t0 ≤ e.lc then beatAccesses o e.lc else []
     | some _ => if t0 ≤ e.lc then beatAccesses { o with n := o.n + 1 } e.lc else [])
  | .vecTable o 2 => if t0 ≤ e.lc then beatAccesses { o with held := [] } e.lc else []
  | _ => []

/-- The VOP issued in lc x with its first beat in lc t0 cuts what still has beats to enter. -/
def cutRunning (s : State) (q : Fin 64) (t0 x : Nat) : State :=
  let fl := s.quires[q].flight
  let es := fl.map (cutEvent t0 x)
  let as := fl.flatMap (cutAccesses t0)
  let s := updQ s q (fun qr => withdraw as.contains { qr with flight := (es.filter (fun p => p.2.isNone)).map (·.1) })
  es.foldl (fun s p => match p.2 with | some o => cutOff s q o x | none => s) s

/-- Has task t an operation in flight whose result goes to one of some scalar registers (R208 R215)? -/
def resultDue (qr : Quire) (t : Fin 4) (regs : List Nat) : Bool :=
  qr.flight.any (fun e => match e.op with
    | .vecBeat o | .vecTable o _ =>
      let d := o.plan.d
      e.task == t && d.red != 0 && !d.lineScope && d.toReg && regs.contains d.sreg
    | _ => false)

end Sys2Proof.Machine
end

