-- ==== Sys2Proof/Machine/Flight.lean ====
section
/-! DEFINITION. The effects in flight come about in the order of the clock edges of the die, within an lc reads first, then
accumulates, then writes (R120 R136 R163 R306). -/

namespace Sys2Proof.Machine

/-- One effect of a quire in its lc. -/
def microAt (s : State) (q : Fin 64) (t : Fin 4) (l : Nat) (op : Micro) : State :=
  match op with
  | .writeRow a bytes => rowWriteAt s q l a bytes
  | .writeHalf h off bytes st => updQ s q (fun qr => setHalf qr h (writeBytes (halfMem qr h) off bytes) st)
  | .ledger slot ev => updQ s q (fun qr => recordLedger qr slot ev)
  | .claim => claimAt s q l
  | .preload o r => preloadAt s q l o r
  | .accRow ix i vals => updQ s q (fun qr => setAccRow qr ix i vals)
  | .chunk o c k b => chunkAt s q l o c k b
  | .drainTable x r => drainTableAt s q l x r
  | .drainBias x => drainBiasAt s q l x
  | .drainStash x r => drainStashAt s q l x r
  | .drainRow x i => drainRowAt s q l x i
  | .drainOut x i row => drainOutAt s q l x i row
  | .drainAdd x i row => drainAddAt s q l x i row
  | .drainNorm slot vals => normAt s q slot vals
  | .gradNorm slot a on lost => gradNormAt s q slot a on lost
  | .drainEnd x => drainEndAt s q l x
  | .collectorRow a => collectorRowAt s q l a
  | .vecTable o r => vecTableAt s q l o r
  | .vecBeat o => vecBeatAt s q l o
  | .panel o k => panelAt s q l o k
  | .inject o i low => injectAt s q t l o i low
  | .injectEnd h => updQ s q (fun qr => setHalfState qr h 0)
  | .land back half i n => landAt s q t l back half i n
  | .reduce back half i => reduceAt s q t l back half i
  | .copy o i k bytes => copyAt s q t l o i k bytes
  | .commitRow x target row k pace rows => commitRowAt s q t l x target row k pace rows
  | .sdload second row => sdloadAt s q t l second row
  | .send x target row j k pace len => sendAt s q t l x target row j k pace len
  | .sent x a bytes => sentAt s q t l x a bytes
  | .updRead p j i b => updReadAt s q l p j i b
  | .updRow p j i b o => updRowAt s q l p j i b o
  | .updSum p a b => updSumAt s q p a b
  | .updWrite p j i o => updWriteAt s q l p j i o

/-- How far effects come about: up to a clock edge of the die, up to the present of the die, all of one quire. -/
inductive Reach where
  | edge (e : Int)
  | now
  | only (q : Fin 64)
deriving DecidableEq, Repr

/-- The clock edge that the die has come to: of the quires whose lc pass in a run, the earliest next lc. -/
def dieNow (s : State) : Option Int :=
  allQuires.foldl (fun m q =>
    let qr := s.quires[q]
    if qr.seq.inRun && lcPass qr then some (match m with | none => nextEdge qr | some e => min e (nextEdge qr)) else m) none

/-- The first lc of a quire that the die has not come to. Once its run has ended, time goes on with the other quires; where
none of them runs either, nothing holds back what the quire has left (R183). -/
def reachedLc (now : Option Int) (qr : Quire) : Nat :=
  match now with
  | none => if qr.seq.inRun then qr.seq.lc else 2 ^ 64
  | some e => let n := (e - qr.edgeOff).toNat; if qr.seq.inRun then min qr.seq.lc n else n

/-- Has the lc of an event of quire q been reached? A set whose drain is due but has not begun holds the lc from D on
(R79). -/
def reached (r : Reach) (now : Option Int) (q : Fin 64) (qr : Quire) (e : Event) : Bool :=
  let free := match qr.array.drains with | [] => true | dr :: _ => decide (e.lc < dr.start)
  match r with
  | .edge x => lcPass qr && free && decide ((e.lc : Int) + qr.edgeOff < x)
  | .now => lcPass qr && free && decide (e.lc < reachedLc now qr)
  | .only p => p == q

/-- The place in the order of edges of a quire's first effect, where it has been reached. -/
def headAt (r : Reach) (now : Option Int) (s : State) (q : Fin 64) : Option (Int × Nat) :=
  match s.quires[q].flight with
  | [] => none
  | e :: _ => if reached r now q s.quires[q] e then some ((e.lc : Int) + s.quires[q].edgeOff, e.ph) else none

/-- Does one place come before another? -/
def placeBefore (a b : Int × Nat) : Bool := decide (a.1 < b.1) || (a.1 == b.1 && decide (a.2 < b.2))

/-- The quire whose first effect is next. -/
def nextQuire (r : Reach) (s : State) : Option (Fin 64) :=
  let now := dieNow s
  (allQuires.foldl (fun (best : Option (Fin 64 × (Int × Nat))) q =>
    match headAt r now s q, best with
    | none, _ => best
    | some p, none => some (q, p)
    | some p, some b => if placeBefore p b.2 then some (q, p) else best) none).map (·.1)

/-- The first effect of a quire comes about. -/
def runHead (s : State) (q : Fin 64) : State :=
  match s.quires[q].flight with
  | [] => s
  | e :: rest => microAt (updQ s q (fun qr => prunePorts e.lc { qr with flight := rest })) q e.task e.lc e.op

/-- Every effect that has been reached comes about, one after the other; the number bounds how many. -/
def settleN (r : Reach) : Nat → State → State
  | 0, s => s
  | n + 1, s => match nextQuire r s with | none => s | some q => settleN r n (runHead s q)

/-- More effects than any program store's instructions put in flight. -/
def settleFuel : Nat := 2 ^ 40

/-- Every effect that has been reached comes about. -/
def settle (r : Reach) (s : State) : State := settleN r settleFuel s

/-- A quire's drains that are due before lc l begin. -/
def startDue (l : Nat) (qr : Quire) : Quire :=
  let go := fun (qr : Quire) => match qr.array.drains with
    | [] => qr
    | dr :: _ => if dr.start < l then startDrain qr else qr
  go (go qr)

/-- The present of the die: everything of the lc that have passed has come about, drains that are due among it. -/
def catchUp (s : State) : State :=
  let now := dieNow s
  settle .now (updAllQ s (fun _ qr => if qr.array.drains.isEmpty || !lcPass qr then qr else startDue (reachedLc now qr) qr))

/-- What a quire has left of an ended run comes about to its end, drains that wait among it. DESIGN CHOICE: the effects of a
filler go on behind the last lc of the run, and a stochastic narrowing among them takes the generator as if the run's lc had
gone on, where R57 says only that generators hold between runs (log entry 47). -/
def finishRun (s : State) (q : Fin 64) : State := settle (.only q) (updQ s q (fun qr => startDue (2 ^ 64) qr))

end Sys2Proof.Machine
end

