-- ==== Sys2Proof/Machine/Issue.lean ====
section
/-! DEFINITION. The issue of one instruction by a task of a quire: whose turn it is, the fetch, the checks of the word,
and what issuing changes in the sequencer (R272–R275 R284 R297 R300 R523). -/

namespace Sys2Proof.Machine

/-- What an instruction's own effect comes to. -/
inductive Res where
  /-- The instruction has issued with this state. -/
  | done (s : State)
  /-- A taken branch: the next instruction is the one of this index. -/
  | jump (s : State) (target : Nat)
  /-- IDLE: the task issues nothing in the next n lc. -/
  | idle (s : State) (n : Nat)
  /-- YIELD: the next n lc go to the fillers. -/
  | window (s : State) (n : Nat)
  /-- END: the task is over. -/
  | ended (s : State)
  /-- A blocking wait that is not met, and the idle cause its halt is booked to (R407). -/
  | wait (k : WaitKind) (cause : Nat)
  /-- The state as the instruction leaves it, issue lc included. -/
  | raw (s : State)
  /-- An uncorrectable memory error met by the instruction (R94 R151 R165), with its unit's register and cause. -/
  | memory (s : State) (r : Option (FaultReg × Nat))
  /-- A fault at issue, by an instruction that has read these registers (R308). -/
  | bad (r : FaultReg) (cause : Nat) (reads : List Nat := [])

/-- An instruction reads registers, whatever it comes to. -/
def Res.reading (regs : List Nat) : Res → Res
  | .bad r c _ => .bad r c regs
  | r => r

/-! ## The instruction word (R284 R285 R299–R302) -/

/-- The operand bits that a listed opcode may set (tables "Operand fields" and R302). -/
def listedBits (op : Nat) : List (Nat × Nat) :=
  match op with
  | 0x01 => [(6, 22)]
  | 0x02 | 0x03 | 0x04 | 0x05 | 0x06 | 0x07 | 0x08 | 0x09 => [(6, 42)]
  | 0x0A | 0x0B => [(6, 5), (16, 32)]
  | 0x0C => [(6, 5), (16, 8)]
  | 0x10 => [(6, 42)]
  | 0x11 => [(21, 27)]
  | 0x12 => [(6, 5), (21, 27)]
  | 0x13 => [(11, 5)]
  | 0x14 | 0x15 => [(16, 16)]
  | 0x17 => [(16, 32)]
  | 0x18 => [(6, 5)]
  | 0x20 => [(6, 29)]
  | 0x21 => [(6, 18)]
  | 0x22 => [(6, 17)]
  | 0x24 => [(6, 37)]
  | 0x25 => [(6, 4)]
  | 0x26 => [(6, 19)]
  | 0x27 => [(6, 2)]
  | 0x28 => [(6, 16)]
  | 0x2C => [(6, 10)]
  | 0x2D => [(6, 17)]
  | 0x30 => [(11, 8)]
  | 0x31 => [(6, 38)]
  | 0x34 | 0x35 => [(6, 21)]
  | 0x38 => [(6, 42)]
  | 0x39 => [(6, 19)]
  | 0x3A => [(6, 5)]
  | _ => []

/-- The opcodes of the map (R284). -/
def opcodeListed (op : Nat) : Bool :=
  op ≤ 0x0C || (0x10 ≤ op && op ≤ 0x18) || (0x20 ≤ op && op ≤ 0x22) || (0x24 ≤ op && op ≤ 0x28)
    || (0x2C ≤ op && op ≤ 0x31) || op == 0x34 || op == 0x35 || (0x38 ≤ op && op ≤ 0x3A)

/-- The heavy instructions (R300). -/
def opcodeHeavy (op : Nat) : Bool :=
  op == 0x20 || op == 0x21 || op == 0x22 || op == 0x24 || op == 0x26 || op == 0x27 || op == 0x2C || op == 0x38

/-- Every unlisted bit of the word is 0, TOK only on a heavy instruction, RETIRE only on TILE (R284 R299 R300). -/
def wordFieldsOk (op : Nat) (w : Word) : Bool :=
  let listed := (listedBits op).foldl (fun m f => m ||| maskOf f.1 f.2) 0
  (w &&& ~~~ (listed ||| maskOf 0 6 ||| maskOf 48 16)) == 0 && fld w 61 3 == 0
    && (op == 0x20 || !bit w 60) && (opcodeHeavy op || fld w 48 12 == 0)

/-- TOK of a word (R299). -/
def tokOf (w : Word) : Nat := fld w 48 12

/-! ## The turn of a task (R273 R274) -/

/-- The sequencer of a quire at the issue lc of task t's next instruction, with the window lc passed on the way booked
(R274 R407); none where it is not the task's turn. -/
def atTurn (qr : Quire) (t : Fin 4) : Option Quire :=
  let sq := qr.seq
  if t = 0 then
    (passWindow (sq.winEnd - sq.lc) sq 0 0).map (fun r =>
      bookIdle (bookIdle { qr with seq := r.1 } 7 r.2.1) 0 r.2.2)
  else if sq.tasks[t].joined then
    (seekTurn t (sq.winEnd - sq.lc) sq 0).map (fun r => bookIdle { qr with seq := r.1 } 7 r.2)
  else none

/-! ## Guards -/

/-- The compute part runs: the module is powered, the colophon applied, no reset in progress (R22 R468 R471). -/
def computeUp (s : State) : Bool := s.pwr.powered && !s.bind.held && s.bind.resetTick.isNone

/-- A quire whose sequencer may issue: in a run, not halted, not stopped at a SPLICE. -/
def quireRuns (qr : Quire) : Bool := qr.seq.inRun && lcPass qr

/-- The clock edge in which the sequencer of a quire acts next at the earliest. -/
def actEdge (qr : Quire) : Int := (actLc (qr.seq.winEnd - qr.seq.lc) qr.seq : Int) + qr.edgeOff

/-- Instructions issue in the order of the clock edges of the die: none does while a running quire has still to act at an
earlier one (R120 R332; log entry 14). -/
def inOrder (s : State) (e : Int) : Bool :=
  allQuires.all (fun b => !quireRuns s.quires[b] || decide (e ≤ actEdge s.quires[b]))

/-- The word of a task's code at its PC (R269 R288): none past the last instruction. -/
def fetchWord (qr : Quire) (t : Fin 4) : Option Word :=
  let tk := qr.seq.tasks[t]
  if tk.codeValid && decide (tk.pc.toNat < tk.codeCount) then
    some (BitVec.ofNat 64 (readNum qr.mem.prog (8 * (tk.codeBase + tk.pc.toNat)) 8))
  else none

/-- A task that may issue: running, or a filler that retries its wait. -/
def taskReady (tk : Task) (t : Fin 4) : Bool := tk.state == .running || (t != 0 && tk.state == .held)

/-- A drain that is due in the lc of the turn begins before anything issues there (R79). -/
def drainDue (qr : Quire) (t : Fin 4) : Bool :=
  match atTurn qr t, qr.array.drains with
  | some qr', dr :: _ => decide (dr.start ≤ qr'.seq.lc)
  | _, _ => false

/-- The clock edge of the lc in which task t issues next. -/
def issueEdge (s : State) (q : Fin 64) (t : Fin 4) : Int :=
  (((atTurn s.quires[q] t).getD s.quires[q]).seq.lc : Int) + s.quires[q].edgeOff

/-- The event "task t of quire q issues the word w, an instruction of opcode op" can come about (log entry 1). -/
def canIssue (s : State) (q : Fin 64) (t : Fin 4) (w : Word) (op : Nat) : Bool :=
  let qr := s.quires[q]
  computeUp s && quireRuns qr && taskReady qr.seq.tasks[t] t && fetchWord qr t == some w && fld w 0 6 == op
    && (atTurn qr t).isSome && !drainDue qr t && inOrder s (issueEdge s q t)

/-- The die at the clock edge of an issue: everything of earlier edges has come about. -/
def arrive (s : State) (q : Fin 64) (t : Fin 4) : State := settle (.edge (issueEdge s q t)) s

/-- Applies the descriptor-table loads that are usable in lc x (R306). -/
def settleLoads (x : Nat) (tk : Task) : Task :=
  { tk with
    sdt := (tk.sdtPend.filter (fun p => decide (p.lc ≤ x))).foldl
      (fun m p => writeBytes m (if p.second then 512 else 0) (slice p.bytes 0 512)) tk.sdt,
    sdtPend := tk.sdtPend.filter (fun p => decide (x < p.lc)) }

/-- Drops the commits whose last row is written before the quire's lc, and the completed writes that no wait of a later lc counts
any more. -/
def pruneCommits (qr : Quire) : Quire :=
  { qr with stream := { qr.stream with
      commits := qr.stream.commits.filter (fun c => decide (qr.seq.lc < c.pastLast)),
      doneWrites := qr.stream.doneWrites.filter (fun d => decide (qr.seq.lc < d.ready)) } }

/-- Drops the operations of the vector and update engines that are over long before the quire's lc. -/
def pruneRuns (qr : Quire) : Quire :=
  { qr with vec := { qr.vec with runs := qr.vec.runs.filter (fun r => decide (qr.seq.lc < r.pastLast + 100)) },
            upd := { qr.upd with runs := qr.upd.runs.filter (fun r => decide (qr.seq.lc < r.x + 32 * r.blocks + 100)) } }

/-- The state in the issue lc: turns passed, the task's registers and descriptor loads settled; claims, commits, completed
writes and operations that are over dropped. -/
def atIssue (s : State) (q : Fin 64) (t : Fin 4) : State :=
  updQ s q (fun qr =>
    let qr := (atTurn qr t).getD qr
    pruneRuns (pruneCommits (pruneClaims (updTask qr t (fun tk => settleLoads qr.seq.lc (settleRegs qr.seq.lc tk))))))

/-! ## After the issue -/

/-- The issue lc is over: a filler's turn passes the rotation on and is booked FILLER; an lc of task 0 is booked as an
issue lc (R274 R407). -/
def endLc (t : Fin 4) (qr : Quire) : Quire :=
  let past := qr.seq.lc + 1
  if t = 0 then
    { qr with seq := { qr.seq with lc := past, past := past }, idleIssue := qr.idleIssue + 1 }
  else bookIdle { qr with seq := { afterTurn t qr.seq with past := past } } 7 1

/-- The instruction has issued: counted, the PC at the next index, no wait held (R269 R293). -/
def retire (t : Fin 4) (npc : BitVec 14) (qr : Quire) : Quire :=
  let qr := endLc t qr
  let qr := { qr with seq := { qr.seq with issued := qr.seq.issued + 1 } }
  updTask qr t (fun tk => { tk with pc := npc, state := .running, heldWord := none })

/-- What an instruction left in the units although a fault inside it has stopped its task: no landing, write or drain
of the task goes on (R96 R183). -/
def dropPending (t : Fin 4) (qr : Quire) : Quire :=
  let qr := dropWrites (discardLandings qr (fun l => l.task == t)) t
  { qr with array := { qr.array with drains := qr.array.drains.filter (fun d => d.task != t) } }

/-- Retires where the task still runs: a fault inside the instruction has stopped it. -/
def finish (s : State) (q : Fin 64) (t : Fin 4) (npc : BitVec 14) : State :=
  if s.quires[q].seq.tasks[t].live then updQ s q (retire t npc) else updQ s q (dropPending t)

/-- Every filler that runs and has begun joins the rotation at the window that begins (R274 R436). -/
def joinFillers (now : Nat) (sq : SeqUnit) : SeqUnit :=
  { sq with tasks := sq.tasks.map (fun tk => if tk.live && decide (tk.startsAt ≤ now) then { tk with joined := true } else tk) }

/-- A task is held by an unmet wait (R120 R275): the gathering halts for task 0, a filler keeps its turns. -/
def holdTask (s : State) (q : Fin 64) (t : Fin 4) (w : Word) (k : WaitKind) (cause : Nat) : State :=
  let again := s.quires[q].seq.tasks[t].state == .held
  let s := updT s q t (fun tk =>
    { tk with state := .held, heldWord := some w, heldKind := k, heldCause := cause,
              heldSince := if again then tk.heldSince else tick s })
  if t = 0 then
    let s := (gatheringQuires s q).foldl (fun s b =>
      updQ s b (fun qr => { qr with rstop := { qr.rstop with halted := true } })) s
    let s := updQ s q (fun qr => { qr with rstop := { qr.rstop with waitOwner := true } })
    traceQ s q t 1
  else updQ s q (fun qr => endLc t qr)

/-- The registers an instruction reads: a read before a write of them is readable, or before the result of a vector operation
is formed, is a hazard (R215 R271 R329). -/
def readsEarly (s : State) (q : Fin 64) (t : Fin 4) (regs : List Nat) : Bool :=
  s.quires[q].seq.tasks[t].pend.any (fun p => regs.contains p.reg.val) || resultDue s.quires[q] t regs

/-- What a result of an instruction makes of the state in its issue lc. -/
def applyRes (s : State) (q : Fin 64) (t : Fin 4) (w : Word) (r : Res) : State :=
  let npc := s.quires[q].seq.tasks[t].pc + 1
  match r with
  | .done s' => finish s' q t npc
  | .jump s' target => finish s' q t (BitVec.ofNat 14 target)
  | .idle s' n =>
    if t = 0 then
      updQ (finish s' q t npc) q (fun qr => bookIdle { qr with seq := { qr.seq with lc := qr.seq.lc + n, winEnd := qr.seq.lc + n } } 0 n)
    else updT (finish s' q t npc) q t (fun tk => { tk with idleUntil := s.quires[q].seq.lc + 1 + n })
  | .window s' n =>
    updQ (finish s' q t npc) q (fun qr =>
      { qr with seq := joinFillers (tick s) { qr.seq with winEnd := qr.seq.lc + n } })
  | .ended s' => stopTask (finish s' q t npc) q t 1
  | .wait k cause => holdTask s q t w k cause
  | .raw s' => s'
  | .memory s' r => memoryFault s' q t r
  | .bad reg cause reads =>
    let s' := programFault s q t reg cause
    if hazOn s && readsEarly s q t (reads.filter (· != 0)) then noteHazard s' q t 2 10 s.quires[q].seq.lc else s'

/-- The instruction in its issue lc: the checks of its word, its effect, and what else that lc brings about where the task
is over. -/
def issueNow (op : Nat) (q : Fin 64) (t : Fin 4) (w : Word) (body : State → Nat → Res) (s : State) : State :=
  let e := issueEdge s q t
  let s := atIssue s q t
  let s := if !wordFieldsOk op w then programFault s q t .seq 2 else applyRes s q t w (body s s.quires[q].seq.lc)
  if s.quires[q].seq.tasks[t].live then s else settle (.edge (e + 1)) s

/-- An instruction that does not come to issue: its task stops in the lc of its turn, which goes on for the other units. -/
def issueFault (s : State) (q : Fin 64) (t : Fin 4) (reg : FaultReg) (cause : Nat) : State :=
  let e := issueEdge s q t
  settle (.edge (e + 1)) (programFault (atIssue s q t) q t reg cause)

/-- A wait in whose lc a gathering halts at this clock edge by the wait of another of its quires (R120 R189): the quire is in a
run, it stands in the lc of the wait, and its wait is the one that is fetched. -/
def canJoin (s : State) (q : Fin 64) (t : Fin 4) (w : Word) (op : Nat) : Bool :=
  let qr := s.quires[q]
  let owner := fun b : Fin 64 => s.quires[b].rstop.waitOwner && nextEdge s.quires[b] == issueEdge s q t
  computeUp s && qr.seq.inRun && qr.rstop.halted && !qr.rstop.stalled && qr.rstop.splice.isNone && t == 0
    && qr.seq.tasks[t].state == .running && fetchWord qr t == some w && fld w 0 6 == op && wordFieldsOk op w
    && (atTurn qr t).isSome && (gatheringQuires s q).any owner

/-- A wait of a quire whose gathering has halted in its lc is held with it where it is not met; a met one issues with the
resumption. -/
def joinHalt (q : Fin 64) (t : Fin 4) (w : Word) (body : State → Nat → Res) (s : State) : State :=
  let a := atIssue s q t
  match body a a.quires[q].seq.lc with
  | .wait k cause => holdTask a q t w k cause
  | _ => s

/-- One instruction of opcode op: nothing where it cannot come about. What is in flight comes about first; a fault found
there may stop the quire before the issue. -/
def issueRow (op : Nat) (q : Fin 64) (t : Fin 4) (w : Word) (body : State → Nat → Res) (s : State) : State :=
  if !canIssue s q t w op then (if canJoin s q t w op then joinHalt q t w body s else s)
  else
    let s := arrive s q t
    if canIssue s q t w op then issueNow op q t w body s else s

/-! ## Reading and writing scalar registers in an instruction -/

/-- Reports an early read of a scalar register (R271 R329). -/
def noteEarly (s : State) (q : Fin 64) (t : Fin 4) (x : Nat) (regs : List Nat) : State :=
  if readsEarly s q t (regs.filter (· != 0)) then hazard s q t 2 10 x else s

/-- An instruction's write of a scalar register, readable from lc y on; a pair with a unit's write of the same lc is a
double-booked port (R296). -/
def setReg (s : State) (q : Fin 64) (t : Fin 4) (x r : Nat) (v : Word) (y : Nat) : State :=
  let clash := r != 0 && s.quires[q].seq.tasks[t].pend.any (fun p => p.byUnit && p.reg.val == r && p.lc == y)
  let s := updT s q t (fun tk => writeReg tk r v y false)
  if clash then hazard s q t 1 10 x else s

end Sys2Proof.Machine
end

