-- ==== Sys2Proof/Machine/Scalar.lean ====
section
/-! DEFINITION. The scalar instructions (R270 R271 R286 R287). -/

namespace Sys2Proof.Machine

/-- The register fields and immediates of a word (table "Operand fields", R285). -/
def wRD (w : Word) : Nat := fld w 6 5
def wRA (w : Word) : Nat := fld w 11 5
def wRB (w : Word) : Nat := fld w 16 5
def wImm (w : Word) : Nat := fld w 16 32

/-- The immediate, sign-extended to 64 bits. -/
def wImmS (w : Word) : Word := (BitVec.ofNat 32 (wImm w)).signExtend 64

/-- The immediate, zero-extended to 64 bits. -/
def wImmZ (w : Word) : Word := BitVec.ofNat 64 (wImm w)

/-- The result of an ALU function (table "ALU functions", R286); none for FN 16 to 127. -/
def aluResult (fn : Nat) (a b : Word) : Option Word :=
  match fn with
  | 0 => some (a + b)
  | 1 => some (a - b)
  | 2 => some (a &&& b)
  | 3 => some (a ||| b)
  | 4 => some (a ^^^ b)
  | 5 => some (a <<< (b.toNat % 64))
  | 6 => some (a >>> (b.toNat % 64))
  | 7 => some (a.sshiftRight (b.toNat % 64))
  | 8 => some (a * b)
  | 9 => some (if a.slt b then 1 else 0)
  | 10 => some (if a.ult b then 1 else 0)
  | 11 => some (if a = b then 1 else 0)
  | 12 => some (if a.slt b then a else b)
  | 13 => some (if a.slt b then b else a)
  | 14 => some (if a.ult b then a else b)
  | 15 => some (if a.ult b then b else a)
  | _ => none

/-- The lc from which an ALU result is readable: x + 3 for the multiply, else x + 1 (R306). -/
def aluReady (fn x : Nat) : Nat := if fn = 8 then x + 3 else x + 1

/-- The operands of an instruction of a task in issue lc x. -/
def srcReg (s : State) (q : Fin 64) (t : Fin 4) (r : Nat) : Word := readReg s.quires[q].seq.tasks[t] r

/-- RD takes a value computed from RA, readable from lc x + 1 on. -/
def unaryBody (q : Fin 64) (t : Fin 4) (w : Word) (f : Word → Word) (s : State) (x : Nat) : Res :=
  let v := f (srcReg s q t (wRA w))
  .done (setReg (noteEarly s q t x [wRA w]) q t x (wRD w) v (x + 1))

/-- RD takes a value that reads no register, readable from lc x + 1 on. -/
def loadBody (q : Fin 64) (t : Fin 4) (w : Word) (v : Word) (s : State) (x : Nat) : Res :=
  .done (setReg s q t x (wRD w) v (x + 1))

/-- ALU: RD takes the function of RA and RB. -/
def aluBody (q : Fin 64) (t : Fin 4) (w : Word) (s : State) (x : Nat) : Res :=
  match aluResult (fld w 21 7) (srcReg s q t (wRA w)) (srcReg s q t (wRB w)) with
  | none => .bad .seq 2
  | some v => .done (setReg (noteEarly s q t x [wRA w, wRB w]) q t x (wRD w) v (aluReady (fld w 21 7) x))

/-- The shifts by an immediate: IMM[31:6] must be 0. -/
def shiftBody (q : Fin 64) (t : Fin 4) (w : Word) (f : Word → Nat → Word) (s : State) (x : Nat) : Res :=
  if wImm w ≥ 64 then .bad .seq 2 else unaryBody q t w (fun a => f a (wImm w)) s x

/-- The sources of GETS (table "GETS sources", R287). -/
def getsValue (s : State) (q : Fin 64) (t : Fin 4) (x sel : Nat) : Option Word :=
  match sel with
  | 0 => some (if s.quires[q].seq.inRun then BitVec.ofNat 64 x else 0)
  | 1 => some (BitVec.ofNat 64 q.val)
  | 2 => some (BitVec.ofNat 64 t.val)
  | 3 => some (BitVec.ofNat 64 s.bind.loaded)
  | 4 => some s.quires[q].seq.tasks[t].arg
  | 5 => some s.quires[q].upd.stepActive
  | _ => none

/-- GETS: RD takes the named source; other SEL values are illegal. -/
def getsBody (q : Fin 64) (t : Fin 4) (w : Word) (s : State) (x : Nat) : Res :=
  match getsValue s q t x (fld w 16 8) with
  | none => .bad .seq 2
  | some v => loadBody q t w v s x

/-- NOP: issues and does nothing (R284). -/
def execNop (q : Fin 64) (t : Fin 4) (w : Word) (s : State) : Host.Outcome State Fault Refusal :=
  .next (issueRow 0x00 q t w (fun s _ => .done s) s)

/-- ALU (R286). -/
def execAlu (q : Fin 64) (t : Fin 4) (w : Word) (s : State) : Host.Outcome State Fault Refusal :=
  .next (issueRow 0x01 q t w (aluBody q t w) s)

/-- ADDI: RA plus the sign-extended immediate (R286). -/
def execAddi (q : Fin 64) (t : Fin 4) (w : Word) (s : State) : Host.Outcome State Fault Refusal :=
  .next (issueRow 0x02 q t w (unaryBody q t w (fun a => a + wImmS w)) s)

/-- ANDI (R286). -/
def execAndi (q : Fin 64) (t : Fin 4) (w : Word) (s : State) : Host.Outcome State Fault Refusal :=
  .next (issueRow 0x03 q t w (unaryBody q t w (fun a => a &&& wImmZ w)) s)

/-- ORI (R286). -/
def execOri (q : Fin 64) (t : Fin 4) (w : Word) (s : State) : Host.Outcome State Fault Refusal :=
  .next (issueRow 0x04 q t w (unaryBody q t w (fun a => a ||| wImmZ w)) s)

/-- XORI (R286). -/
def execXori (q : Fin 64) (t : Fin 4) (w : Word) (s : State) : Host.Outcome State Fault Refusal :=
  .next (issueRow 0x05 q t w (unaryBody q t w (fun a => a ^^^ wImmZ w)) s)

/-- SHLI (R286). -/
def execShli (q : Fin 64) (t : Fin 4) (w : Word) (s : State) : Host.Outcome State Fault Refusal :=
  .next (issueRow 0x06 q t w (shiftBody q t w (fun a n => a <<< n)) s)

/-- SHRI (R286). -/
def execShri (q : Fin 64) (t : Fin 4) (w : Word) (s : State) : Host.Outcome State Fault Refusal :=
  .next (issueRow 0x07 q t w (shiftBody q t w (fun a n => a >>> n)) s)

/-- SRAI (R286). -/
def execSrai (q : Fin 64) (t : Fin 4) (w : Word) (s : State) : Host.Outcome State Fault Refusal :=
  .next (issueRow 0x08 q t w (shiftBody q t w (fun a n => a.sshiftRight n)) s)

/-- SLTI: 1 where RA is below the sign-extended immediate, signed; else 0 (R286). -/
def execSlti (q : Fin 64) (t : Fin 4) (w : Word) (s : State) : Host.Outcome State Fault Refusal :=
  .next (issueRow 0x09 q t w (unaryBody q t w (fun a => if a.slt (wImmS w) then 1 else 0)) s)

/-- LI: the sign-extended immediate (R286). -/
def execLi (q : Fin 64) (t : Fin 4) (w : Word) (s : State) : Host.Outcome State Fault Refusal :=
  .next (issueRow 0x0A q t w (loadBody q t w (wImmS w)) s)

/-- LIH: the immediate into RD[63:32]; RD[31:0] is kept (R286). -/
def execLih (q : Fin 64) (t : Fin 4) (w : Word) (s : State) : Host.Outcome State Fault Refusal :=
  .next (issueRow 0x0B q t w (fun s x =>
    let low := (srcReg s q t (wRD w)).toNat % 2 ^ 32
    loadBody q t w (BitVec.ofNat 64 (wImm w * 2 ^ 32 + low)) (noteEarly s q t x [wRD w]) x) s)

/-- GETS (R287). -/
def execGets (q : Fin 64) (t : Fin 4) (w : Word) (s : State) : Host.Outcome State Fault Refusal :=
  .next (issueRow 0x0C q t w (getsBody q t w) s)

end Sys2Proof.Machine
end

