-- ==== Sys2Proof/Machine/Operands.lean ====
section
/-! DEFINITION. The operand forms of the unit instructions: row references, half-pairs, descriptor indices, the offset
register (R171 R277–R279). -/

namespace Sys2Proof.Machine

/-- The first row of a half of a half-pair register: with FRONT = 0 the front half starts at ROW_A (R171). -/
def halfRow (h : HalfPair) (frontSide : Bool) : Nat := if frontSide == !h.front then h.rowA else h.rowB

/-- A row named by HP, side and offset; none where the register's scratchpad is another (R278). -/
def hpRow (tk : Task) (hp : Nat) (frontSide : Bool) (off spad : Nat) : Option Nat :=
  let h := tk.hp[hp % 8]'(by omega)
  if h.spad == spad then some (halfRow h frontSide + off) else none

/-- A 16-bit row reference (table "Row reference", R278). -/
def rowRef (tk : Task) (ref spad : Nat) : Option Nat :=
  if bitsOf ref 15 1 == 1 then hpRow tk (bitsOf ref 12 3) (bitsOf ref 11 1 == 1) (bitsOf ref 0 11) spad
  else some (bitsOf ref 0 15)

/-- The quire as it stands at the start of lc x + 1: what is in flight in lc x has come about (R163 R277). -/
def afterLc (s : State) (q : Fin 64) (x : Nat) : Quire :=
  (settle (.edge ((x : Int) + 1 + s.quires[q].edgeOff)) s).quires[q]

/-- A descriptor of `size` bytes named by an index in operand staging, its first bytes read in the issue lc and the rest in
the next one: none where its row lies outside the task's staging bound (R277). -/
def descAt (qr next : Quire) (tk : Task) (ix size first : Nat) : Option (List Byte × List ReadNote) :=
  let per := 512 / size
  if tk.spadOk 2 (ix / per) 1 then
    let a := 512 * (tk.stgBase + ix / per) + size * (ix % per)
    let r0 := protRead qr 6 a first
    let r1 := protRead next 6 (a + first) (size - first)
    some (r0.1 ++ r1.1, r0.2 ++ r1.2)
  else none

/-- A descriptor is read as rows of operand staging are: inside a stream commit that is not over, the read is a hazard (R191). -/
def noteDesc (s : State) (q : Fin 64) (t : Fin 4) (x : Nat) (tk : Task) (ix size first : Nat) : State :=
  let a := 512 * (tk.stgBase + ix / (512 / size)) + size * (ix % (512 / size))
  if s.quires[q].flight.any (fun e => commitsInto x 6 a first e || commitsInto (x + 1) 6 (a + first) (size - first) e)
  then hazard s q t 2 5 x else s

/-- The 16-bit part n of an offset register (R279). -/
def xrPart (v : Word) (n : Nat) : Nat := fld v (16 * n) 16

/-- Adds an offset to a 16-bit field, modulo 2^16 (R279). -/
def addOff (a b : Nat) : Nat := (a + b) % 65536

/-- The w-th 64-bit word of a descriptor. -/
def dword (bs : List Byte) (w : Nat) : Word := BitVec.ofNat 64 (numAt bs (8 * w) 8)

/-- Are bits [lo+len-1:lo] of word w of a descriptor all 0? -/
def zeroField (bs : List Byte) (w lo len : Nat) : Bool := fld (dword bs w) lo len == 0

end Sys2Proof.Machine
end

