-- ==== Sys2Proof/Machine/Array.lean ====
section
/-! DEFINITION. TILE: the tile descriptor, its checks, and the issue of a tile (file 03, R219 R279–R283 R299–R301). -/

namespace Sys2Proof.Machine

/-! ## The tile descriptor (R75) and the tensor descriptors (R281) -/

/-- Reads a tile descriptor's words (R75). -/
def parseTile (bs : List Byte) : TileDesc :=
  let w0 := dword bs 0
  let w1 := dword bs 1
  let w2 := dword bs 2
  let w3 := dword bs 3
  { rowSrc := fld w0 0 2, colSrc := fld w0 2 2, rowFmt := fld w0 4 3, colFmt := fld w0 7 3, init := fld w0 10 2,
    setIx := fld w0 12 1, ends := bit w0 13, nchunk := fld w0 16 16, ktail := fld w0 32 7, convTag := fld w0 40 8,
    preloadRow := fld w0 48 16, rowMask := fld w1 0 32, colMask := fld w1 32 32, dest := fld w2 0 3,
    outFmt := fld w2 3 3, rnd := fld w2 6 2, deriv := fld w2 8 2, biasEn := bit w2 10, normEn := bit w2 11,
    flushSc := bit w2 12, ledger := fld w2 16 8, outScale := fld w2 24 8, destRow := fld w2 32 16,
    biasRow := fld w2 48 16, biasQtr := fld w3 0 2, derivRow := fld w3 16 16, tableRow := fld w3 32 16,
    scRow := fld w3 48 16 }

/-- Reads a tensor descriptor at a byte offset of the operand pair (R281). -/
def parseTensor (bs : List Byte) (off : Nat) : TensorDesc :=
  let w := dword (bs.drop off) 0
  { loc := fld w 0 2, tr := bit w 2, hpEn := bit w 3, hp := fld w 4 3, hpSide := bit w 7, scale := fld w 8 8,
    row := fld w 16 16, cstride := fld w 32 16, scRow := fld w 48 16 }

/-- The pairings of R41. -/
def pairingOk (a b : Nat) : Bool :=
  (a == 0 && b == 0) || (a == 3 && b == 3) || ((a == 1 || a == 2) && (b == 1 || b == 2))

/-- Rows of 512 B of a drained tile (R84). -/
def tileRows (fmt : Nat) : Nat := match fmt with | 0 => 4 | 1 => 2 | 2 => 2 | 3 => 1 | _ => 8

/-- The destinations R84 permits. -/
def destOk (dest fmt : Nat) : Bool :=
  match fmt with
  | 0 => dest == 0 || dest == 1 || dest == 2 || dest == 4
  | 1 | 2 => dest == 0 || dest == 2 || dest == 4
  | 3 => dest == 0 || dest == 2
  | _ => dest == 1 || dest == 3 || dest == 4

/-- Every value of a tile descriptor is legal and every reserved field 0 (R75 R76). -/
def tileValuesOk (bs : List Byte) (d : TileDesc) : Bool :=
  d.rowSrc != 3 && d.colSrc != 3 && d.rowFmt ≤ 3 && d.colFmt ≤ 3 && d.init != 3 && d.nchunk != 0
    && decide (d.ktail ≤ dotDepth d.rowFmt) && d.dest ≤ 4 && d.outFmt ≤ 4 && d.rnd ≤ 1 && d.deriv != 3
    && zeroField bs 0 14 2 && zeroField bs 0 39 1 && zeroField bs 2 13 3 && zeroField bs 3 2 14
    && zeroField bs 4 0 64 && zeroField bs 5 0 64 && zeroField bs 6 0 64 && zeroField bs 7 0 64
    && destOk d.dest d.outFmt

/-- The settings R283 and R219 require of the row tensor. -/
def rowTensorOk (d : TileDesc) (r : TensorDesc) : Bool :=
  let eight := d.rowFmt == 1 || d.rowFmt == 2
  r.loc == 0 && (!r.tr || eight) && (eight || r.scale == 0x7F)
    && (d.rowSrc == 2 || (!r.hpEn && r.hp == 0 && !r.hpSide && r.row == 0 && r.cstride == 0 && r.scRow == 0))
    && (d.rowFmt == 3 || r.scRow == 0)

/-- The settings R283 and R219 require of the column tensor. -/
def colTensorOk (d : TileDesc) (c : TensorDesc) : Bool :=
  let eight := d.colFmt == 1 || d.colFmt == 2
  (eight || c.scale == 0x7F) &&
  (if d.colSrc == 2 then c.loc == 2 && (!c.tr || eight) && (d.colFmt == 3 || c.scRow == 0)
   else c.loc == 3 && !c.tr && !c.hpEn && c.hp == 0 && !c.hpSide && c.scRow == 0 && decide (c.row < 16384))

/-- The reserved words of both tensor descriptors are 0 (R281). -/
def pairReservedOk (bs : List Byte) : Bool :=
  [1, 2, 3, 5, 6, 7].all (fun w => zeroField bs w 0 64)

/-- lc per chunk (R73). -/
def chunkInterval (d : TileDesc) : Nat :=
  let rows := if d.rowSrc = 2 then 2 else 1
  let cols := if d.colSrc = 2 then 1 else (match d.colFmt with | 0 => 1 | 3 => 4 | _ => 2)
  max rows cols

/-- K blocks of 32 elements that the chunks read (R282). -/
def kBlocks (d : TileDesc) : Nat :=
  match d.colFmt with | 0 => ceilDiv d.nchunk 2 | 3 => 2 * d.nchunk | _ => d.nchunk

/-- The lc figures of a tile: first lc, first chunk lc, lc per chunk, last chunk lc (R77 R78). -/
def planTimes (x : Nat) (d : TileDesc) : Nat × Nat × Nat × Nat :=
  let p := x + 2
  let c0 := if d.init = 2 then p + 32 else p
  let n := chunkInterval d
  (p, c0, n, c0 + d.nchunk * n - 1)

/-- The rows of every chunk of a scratchpad operand lie within bounds (R282). -/
def chunkRowsOk (tk : Task) (spad base stride n : Nat) : Bool :=
  (List.range n).all (fun c => tk.spadOk spad (base + c * stride) 2)

/-- Bound checks of a tile (R78 R95 R145 R169 R228 R282). -/
def tileBoundsOk (tk : Task) (d : TileDesc) (rt ct : TensorDesc) (rb cb : Nat) (writesSc : Bool) : Bool :=
  let spad := d.dest
  (d.rowSrc != 2 || (chunkRowsOk tk 0 rb rt.cstride d.nchunk
      && (d.rowFmt != 3 || tk.spadOk 0 rt.scRow (ceilDiv d.nchunk 8))))
  && (if d.colSrc = 2 then chunkRowsOk tk 2 cb ct.cstride d.nchunk
        && (d.colFmt != 3 || tk.spadOk 2 ct.scRow (ceilDiv d.nchunk 8))
      else (List.range (kBlocks d)).all (fun m => tk.blocksOk (cb + m * ct.cstride) 1))
  && (d.init != 2 || tk.spadOk 1 d.preloadRow 8)
  && (!d.ends ||
      ((if d.dest = 3 then tk.regValid && decide (d.destRow + 8 ≤ tk.regCount * 8)
        else if d.dest = 4 then true else tk.spadOk spad d.destRow (tileRows d.outFmt))
       && (!d.biasEn || tk.spadOk 1 d.biasRow 1)
       && (match d.deriv with | 1 => tk.spadOk 1 d.derivRow 1 | 2 => tk.spadOk 1 d.derivRow 4 && tk.spadOk 1 d.tableRow 2 | _ => true)
       && (!writesSc || tk.spadOk spad d.scRow 1)))

/-- Is a write of the scale collector on its way, which leaves it empty? -/
def collectorLeaves (e : Event) : Bool := match e.op with | .collectorRow _ => true | _ => false

/-- Does a tile of N4 output fill or flush the scale collector (R86)? The tiles whose scales are not collected yet come
first. -/
def fillsCollector (qr : Quire) (d : TileDesc) : Bool :=
  let open' := (liveDrains qr).filter (fun dr => dr.d.outFmt == 3 && decide (dr.scales.length < 32))
  let there := if qr.flight.any collectorLeaves then 0 else qr.array.collector.length / 32
  let waiting := open'.foldl (fun n dr => if dr.writesSc then 0 else n + 1) there
  d.ends && d.outFmt == 3 && (d.flushSc || waiting == 15)

/-- The first lc of a drain's claim: D, and D − 2 on the A0 stepping (R322 R513). -/
def drainClaimFirst (s : State) (d : Nat) : Nat := if s.bind.stepping = 0 then d - 2 else d

/-! ## The issue of a tile (R79 R81 R92 R93) -/

/-- The drain of a tile with END, resolved (R79 R82–R86 R142). -/
def newDrain (tk : Task) (o : TileOp) (start after : Nat) (writesSc : Bool) : Drain :=
  let d := o.d
  let spadBase := tk.spadBase d.dest
  { x := o.x, task := o.task, d := d, start := start, after := after,
    scaleExp := if d.rowFmt = 1 || d.rowFmt = 2 then (o.rt.scale : Int) + o.ct.scale - 254 else 0,
    destRow := if d.dest = 3 then tk.regBase * 8 + d.destRow else if d.dest = 4 then d.destRow else spadBase + d.destRow,
    biasRow := tk.psBase + d.biasRow, derivRow := tk.psBase + d.derivRow, tableRow := tk.psBase + d.tableRow,
    scRow := spadBase + d.scRow, writesSc := writesSc, bias := [], stash := [], store := false, noTable := false, stop := none, row := [], scales := [] }

/-- The start of a drain after a last chunk lc, behind the drain of the other set where that still reads (R79). -/
def drainStart (after last : Nat) : Nat := if last + 4 ≤ after then after + 1 else last + 4

/-- Chunks of a running tile that have run all their lc before lc f. -/
def fullChunks (o : TileOp) (f : Nat) : Nat := (f - o.c0) / o.n

/-- The chunks of a tile go on no further in lc f. -/
def abandonChunk (o : TileOp) (f : Nat) (e : Event) : Event :=
  match e.op with
  | .chunk o' c k b => if o'.x = o.x then { e with op := .chunk { o' with stop := some f } c k b } else e
  | _ => e

/-- Is an access a chunk read of a tile in lc f or later? -/
def chunkAfter (o : TileOp) (f : Nat) (a : Access) : Bool := a.x == o.x && a.rank == 1 && a.port != 4 && decide (f ≤ a.first)

/-- The effects of a drain that are bound to its start. -/
def ofDrain (x : Nat) (e : Event) : Bool :=
  match e.op with
  | .drainTable y _ | .drainBias y | .drainStash y _ | .drainRow y _ => y == x
  | _ => false

/-- The accesses of such an effect. -/
def drainReads (dr : Drain) (e : Event) : List Access :=
  match e.op with
  | .drainTable _ r => [tableAccess dr r e.lc]
  | .drainBias _ => [biasAccess dr e.lc]
  | .drainStash _ r => [stashAccess dr r e.lc]
  | _ => []

/-- Moves the start of a tile's drain, and with it the effects bound to it; none falls before lc x. -/
def moveDrain (x' start : Nat) (dr : Drain) (qr : Quire) : Quire :=
  let old := qr.flight.filter (ofDrain dr.x)
  let moved := old.map (fun e => { e with lc := max x' (e.lc + start - dr.start) })
  let reads := old.flatMap (drainReads dr) ++ firstStash dr
  let qr := withdraw reads.contains (updDrain qr dr.x (fun d => { d with start := start }))
  let qr := placeAll (moved.flatMap (drainReads dr) ++ firstStash { dr with start := start }) qr
  { qr with flight := moved.foldl (fun l e => insertEvent e l) (qr.flight.filter (fun e => !ofDrain dr.x e)) }

/-- A tile issued in lc x with its first lc p and its first chunk in lc c0 takes both edges from a tile that has chunks left
in lc c0: from lc p on that one issues no further chunks, and its drain follows its last full chunk (R81 R93). -/
def cutTile (x p c0 : Nat) (qr : Quire) : Quire :=
  match qr.array.running with
  | none => qr
  | some o =>
    if o.last < c0 then qr
    else
      let f := p
      let last := o.c0 + fullChunks o f * o.n - 1
      let qr := withdraw (chunkAfter o f) qr
      let qr := { qr with flight := qr.flight.map (abandonChunk o f),
                          array := { qr.array with running := some { o with last := last } } }
      match drainOf qr o.x with
      | none => qr
      | some dr => moveDrain x (drainStart dr.after last) dr qr

/-- The effects that a tile's issue puts in flight. -/
def tileEvents (o : TileOp) (dr : Option Drain) : List Event :=
  let ev := fun (lc : Nat) (op : Micro) => ({ lc := lc, ph := 0, task := o.task, op := op } : Event)
  [ev (o.c0 - 2) (.chunk o 0 0 ChunkBuf.empty)]
    ++ (if o.d.init = 2 then [ev o.p (.preload o 0)] else [])
    ++ (match dr with
        | none => []
        | some dr => (if dr.d.biasEn then [ev (dr.start - 2) (.drainBias dr.x)] else [])
            ++ (if dr.d.deriv = 2 then [ev (dr.start - 10) (.drainTable dr.x 0)] else []))

/-- Their accesses. -/
def tileAccesses (o : TileOp) (dr : Option Drain) : List Access :=
  chunkAccesses o 0 0 (o.c0 - 2) ++ (if o.d.init = 2 then [preloadAccess o 0 o.p] else [])
    ++ (match dr with
        | none => []
        | some dr => (if dr.d.biasEn then [biasAccess dr (dr.start - 2)] else [])
            ++ (if dr.d.deriv = 2 then [tableAccess dr 0 (dr.start - 10)] else []) ++ firstStash dr)

/-- Does a tile fill a set before the drain of that set lets it: its first chunk before D + 29, with PRELOAD its first lc
before D + 1 (R80)? -/
def fillsEarly (o : TileOp) (dr : Drain) : Bool :=
  dr.d.setIx == o.d.setIx && (if o.d.init = 2 then decide (o.p < dr.start + 1) else decide (o.c0 < dr.start + 29))

/-- The effect of a tile whose checks hold, in its issue lc. -/
def tileRun (q : Fin 64) (t : Fin 4) (w : Word) (o : TileOp) (start : Nat) (s : State) (x : Nat) : Res :=
  let before := s.quires[q]
  let d := o.d
  let early := (liveDrains before).any (fillsEarly o)
  let dr := if d.ends then
      some (newDrain before.seq.tasks[t] o start (otherDrainEnd (cutTile x o.p o.c0 before) d.setIx) (fillsCollector before d))
    else none
  let s := updQ s q (fun qr =>
    let qr := cutTile x o.p o.c0 qr
    let ar := qr.array
    let qr := { qr with array := { ar with running := some o, lastChunk := o.last + 1, drains := ar.drains ++ dr.toList } }
    emitAll (placeAll (tileAccesses o dr) qr) (tileEvents o dr))
  let s := if decide (o.c0 < before.array.lastChunk) then hazard s q t 1 9 x else s
  let s := if early then hazard s q t 2 9 x else s
  let s := claimTok s q { first := o.p, last := o.last, tok := tokOf w, task := t, drain := false }
  .done (if d.ends then
    claimTok s q { first := drainClaimFirst s start, last := start + 39, tok := 150, task := t, drain := true }
    else s)

/-- The descriptor with the offsets of XR added to the fields the tile uses (R279). -/
def tileOffsets (xr : Word) (d : TileDesc) (rt ct : TensorDesc) : TileDesc × TensorDesc × TensorDesc :=
  ({ d with destRow := addOff d.destRow (xrPart xr 2),
            derivRow := if d.deriv = 0 then d.derivRow else addOff d.derivRow (xrPart xr 3) },
   if d.rowSrc = 2 then { rt with row := addOff rt.row (xrPart xr 0) } else rt,
   { ct with row := addOff ct.row (xrPart xr 1) })

/-- The first of the illegal-opcode checks that a tile descriptor breaks by itself, with the start of its drain (R75 R76 R106
R228 R301). -/
def tileIllegal (t : Fin 4) (w : Word) (bs : List Byte) (d : TileDesc) (x start : Nat) : Option FaultReg :=
  if !tileValuesOk bs d || !pairingOk d.rowFmt d.colFmt || (bit w 60 && d.rowSrc == 2) then some .array
  else if d.ends && d.deriv == 2 && decide (start < x + 12) then some .array
  else if t ≠ 0 && d.rowSrc ≠ 2 then some .rstop else none

/-- The start of the drain that a tile would have (R79). -/
def plannedStart (qr : Quire) (x : Nat) (d : TileDesc) : Nat :=
  let (p, c0, _, last) := planTimes x d
  drainStart (otherDrainEnd (cutTile x p c0 qr) d.setIx) last

/-- A TILE one of whose descriptor indices lies beyond its store: what can be read of the other is checked before (R523). -/
def tileNoDesc (t : Fin 4) (w : Word) (qr : Quire) (x : Nat) (td od : Option (List Byte)) : Res :=
  let bad := match td with
    | some bs => tileIllegal t w bs (parseTile bs) x (plannedStart qr x (parseTile bs))
    | none => if od.any (fun bs => !pairReservedOk bs) then some .array else none
  match bad with | some r => .bad r 1 | none => .bad .seq 4

/-- TILE: descriptors, checks in the order of R523, then the tile. -/
def tileBody (q : Fin 64) (t : Fin 4) (w : Word) (s : State) (x : Nat) : Res :=
  let qr := s.quires[q]
  let tk := qr.seq.tasks[t]
  let xr := srcReg s q t (fld w 6 5)
  let s := noteEarly s q t x [fld w 6 5]
  let next := afterLc s q x
  match descAt qr next tk (fld w 11 12) 64 64, descAt qr next tk (fld w 23 12) 64 0 with
  | some td, some od =>
    if anyUncorrectable (td.2 ++ od.2) then .memory (noteReads s q 0 4 (td.2 ++ od.2)) none else
    let bs := td.1
    let (d, rt, ct) := tileOffsets xr (parseTile bs) (parseTensor od.1 0) (parseTensor od.1 32)
    let (p, c0, n, last) := planTimes x d
    let dr := plannedStart qr x d
    if !rowTensorOk d rt || !colTensorOk d ct || !pairReservedOk od.1 then .bad .array 1
    else match tileIllegal t w bs d x dr with
    | some r => .bad r 1
    | none =>
      let rb := if d.rowSrc = 2 && rt.hpEn then hpRow tk rt.hp rt.hpSide rt.row 0 else some rt.row
      let cb := if d.colSrc = 2 && ct.hpEn then hpRow tk ct.hp ct.hpSide ct.row 2 else some ct.row
      match rb, cb with
      | some rb, some cb =>
        if d.init = 2 && d.preloadRow % 8 != 0 then .bad .array 2
        else if d.ends && d.dest = 4 && decide (d.destRow ≥ 2) then .bad .rstop 2
        else if d.ends && d.dest ≠ 4 && d.destRow % tileRows d.outFmt != 0 then .bad .array 2
        else if d.ends && d.deriv = 2 && d.derivRow % 4 != 0 then .bad .array 2
        else if !tileBoundsOk tk d rt ct rb cb (fillsCollector qr d) then .bad .array 3
        else
          let o : TileOp :=
            { x := x, task := t, d := d, rt := rt, ct := ct, retire := bit w 60, rowBase := tk.actBase + rb,
              rowSc := tk.actBase + rt.scRow, colBase := (if d.colSrc = 2 then tk.stgBase else tk.regBase) + cb,
              colSc := tk.stgBase + ct.scRow, preRow := tk.psBase + d.preloadRow, p := p, c0 := c0, n := n, last := last,
              stop := none }
          tileRun q t w o dr (noteDesc (noteDesc s q t x tk (fld w 11 12) 64 64) q t x tk (fld w 23 12) 64 0) x
      | _, _ => .bad .array 1
  | td, od =>
    let notes := ((td.map (·.2)).getD []) ++ ((od.map (·.2)).getD [])
    if anyUncorrectable notes then .memory (noteReads s q 0 4 notes) none
    else tileNoDesc t w qr x (td.map (·.1)) (od.map (·.1))

/-- TILE (R77). -/
def execTile (q : Fin 64) (t : Fin 4) (w : Word) (s : State) : Host.Outcome State Fault Refusal :=
  .next (issueRow 0x20 q t w (fun s x => (tileBody q t w s x).reading [fld w 6 5]) s)

end Sys2Proof.Machine
end

