-- ==== Sys2Proof/Machine/Answer.lean ====
section
/-! DEFINITION. Commands that have been taken and not yet answered (R429 R434). -/

namespace Sys2Proof.Machine

/-- A command still running is done with a status and its results. -/
def Cmd.finish (place status : Nat) (r0 r1 : Word) (c : Cmd) : Cmd :=
  if c.st == .running then { c with st := .done status r0 r1, doneAt := place } else c

/-- Every running command that a test picks is done. -/
def answerCmds (s : State) (pick : Cmd → Bool) (status : Nat) (r0 r1 : Word) : State :=
  let n := s.bind.doneCount
  { s with bind := { s.bind with
      doneCount := n + 1,
      cmds := s.bind.cmds.map (fun c => if pick c then c.finish n status r0 r1 else c) } }

/-- Is a command of an opcode still waiting or running? -/
def opcodeOpen (s : State) (op : Nat) : Bool :=
  s.bind.cmds.any (fun c => c.opcode == op && (c.st == .running || c.st == .waiting))

/-- Is a command of an opcode running? -/
def opcodeRuns (s : State) (op : Nat) : Bool := s.bind.cmds.any (fun c => c.opcode == op && c.st == .running)

/-- Does the host reach the module's registers and memory: powered, the link up, out of reset, in D0 (R420 R499)? -/
def hostReach (s : State) : Bool := s.pwr.powered && s.host.linkUp && !s.host.perst && !s.host.d3hot

/-- The bindery's firmware runs: cold power-on complete, not on the recovery path, no image being read again (R459 R466
R467). -/
def firmwareRuns (s : State) : Bool := s.pwr.powered && s.host.ready && !s.host.recovery && s.bind.stage == 15

/-- The views outside the recovery path (R488). -/
def mainView (s : State) : Bool := hostReach s && !s.host.recovery

end Sys2Proof.Machine
end

