-- ==== Sys2Proof/Machine/Flit.lean ====
section
/-! DEFINITION. Flits: the header fields, the Reed–Solomon code RS(256,240) and its decoder (R366 R367). -/

namespace Sys2Proof.Machine

/-! ## The field GF(2⁸), polynomial 0x11D, α = 2 (R366) -/

/-- Multiplication by α. -/
def gfX (a : Nat) : Nat := if a < 128 then 2 * a else (2 * a) ^^^ 0x11D

/-- Product of two field elements. -/
def gfMul (a b : Nat) : Nat :=
  ((List.range 8).foldl (fun p i => (if b.testBit i then p.1 ^^^ p.2 else p.1, gfX p.2)) (0, a)).1

/-- α to the n. -/
def gfExp (n : Nat) : Nat := (List.range (n % 255)).foldl (fun a _ => gfX a) 1

/-- The inverse of a non-zero element, its 254th power. -/
def gfInv (a : Nat) : Nat := (List.range 254).foldl (fun p _ => gfMul p a) 1

/-- Value of a polynomial, lowest coefficient first. -/
def gfEval (p : List Nat) (x : Nat) : Nat := p.foldr (fun c a => c ^^^ gfMul a x) 0

/-- Sum of two polynomials. -/
def gfAdd : List Nat → List Nat → List Nat
  | [], b => b
  | a, [] => a
  | x :: a, y :: b => (x ^^^ y) :: gfAdd a b

/-- Product of two polynomials. -/
def gfPolyMul (a b : List Nat) : List Nat :=
  a.foldr (fun c acc => gfAdd (b.map (gfMul c)) (0 :: acc)) []

/-- The generator polynomial, lowest coefficient first: the product of (x − αⁱ), i = 0 to 15. -/
def rsGenerator : List Nat := (List.range 16).foldl (fun g i => gfPolyMul g [gfExp i, 1]) [1]

/-- The sixteen parity bytes of 240 bytes, byte 0 being the coefficient of highest degree. -/
def rsParity (body : List Byte) : List Byte :=
  let low := (rsGenerator.take 16).reverse
  let reg := body.foldl (fun (reg : List Nat) b =>
    let f := b.toNat ^^^ reg.headD 0
    gfAdd ((reg.drop 1) ++ [0]) (low.map (gfMul f))) (List.replicate 16 0)
  reg.map (fun n => BitVec.ofNat 8 n)

/-- A flit: 240 bytes and their parity. -/
def encodeFlit (body : List Byte) : List Byte := let b := slice body 0 240; b ++ rsParity b

/-! ## The decoder -/

/-- The sixteen syndromes of 256 bytes. -/
def rsSyndromes (bs : List Byte) : List Nat :=
  (List.range 16).map (fun i => bs.foldl (fun a b => gfMul a (gfExp i) ^^^ b.toNat) 0)

/-- What the search for the error locator carries: the locator, its predecessor, its degree, the shift and the last
discrepancy. -/
structure Bm where
  c : List Nat
  b : List Nat
  l : Nat
  m : Nat
  d : Nat
deriving DecidableEq, Repr

/-- One step of the search, at syndrome n. -/
def bmStep (syn : List Nat) (z : Bm) (n : Nat) : Bm :=
  let d := (List.range (z.l + 1)).foldl (fun a i => a ^^^ gfMul (z.c.getD i 0) (syn.getD (n - i) 0)) 0
  if d = 0 then { z with m := z.m + 1 }
  else
    let f := gfMul d (gfInv z.d)
    let c := gfAdd z.c (List.replicate z.m 0 ++ z.b.map (gfMul f))
    if 2 * z.l ≤ n then { c := c, b := z.c, l := n + 1 - z.l, m := 1, d := d }
    else { z with c := c, m := z.m + 1 }

/-- The error locator and its degree. -/
def rsLocator (syn : List Nat) : Bm := (List.range 16).foldl (bmStep syn) { c := [1], b := [1], l := 0, m := 1, d := 1 }

/-- The powers p with αᵖ a locator of an erroneous byte. -/
def rsPlaces (c : List Nat) : List Nat := (List.range 255).filter (fun p => gfEval c (gfExp (255 - p)) == 0)

/-- The error value at power p. -/
def rsValue (syn c : List Nat) (p : Nat) : Nat :=
  let xi := gfExp (255 - p)
  let om := (gfPolyMul syn c).take 16
  let dc := (c.drop 1).zipIdx.map (fun e => if e.2 % 2 = 0 then e.1 else 0)
  gfMul (gfExp p) (gfMul (gfEval om xi) (gfInv (gfEval dc xi)))

/-- The byte that power p names: powers 0 and 255 are one locator, so bytes 255 and 0 share it (log entry 13). -/
def rsByte (bs : List Byte) (p : Nat) : Nat := if p = 0 then (if Config.flitTie bs then 255 else 0) else 255 - p

/-- Decodes 256 bytes: the corrected bytes and how many were corrected; none for an uncorrectable flit. -/
def decodeFlit (bs : List Byte) : Option (List Byte × Nat) :=
  let syn := rsSyndromes bs
  if syn.all (· == 0) then some (bs, 0)
  else
    let z := rsLocator syn
    let ps := rsPlaces z.c
    if z.l ≤ 8 && ps.length == z.l then
      let fix := ps.foldl (fun (b : List Byte) p =>
        b.modify (rsByte bs p) (fun x => x ^^^ BitVec.ofNat 8 (rsValue syn z.c p))) bs
      if (rsSyndromes fix).all (· == 0) then some (fix, z.l) else none
    else none

/-! ## Header and payload (R367) -/

/-- The header of a flit. -/
def flitHeader (bs : List Byte) : Word := BitVec.ofNat 64 (numAt bs 0 8)

/-- TYPE. -/
def flitType (bs : List Byte) : Nat := fld (flitHeader bs) 0 4

/-- The first 240 bytes of a flit from its header and payload. -/
def flitBody (h : Word) (payload : List Byte) : List Byte := bytesLE 8 h.toNat ++ slice payload 0 232

/-- The header with the acknowledgement fields set: the last in-order SEQ received and, for a CTRL flit, NAK. -/
def withAck (l : Link) (nak : Bool) (body : List Byte) : List Byte :=
  let h := flitHeader body
  let h := setFld h 16 12 (if l.rxAny then (l.rxSeq.toNat + 4095) % 4096 else 0)
  let h := setFld (setFld h 28 1 (b2n l.rxAny)) 29 1 (b2n nak)
  bytesLE 8 h.toNat ++ body.drop 8

/-- The DATA flits of a message, from sequence number seq on. -/
def dataBodies (seq num : Nat) (bytes : List Byte) : List (BitVec 16 × List Byte) :=
  let n := ceilDiv bytes.length 232
  (List.range n).map (fun i =>
    let part := (bytes.drop (232 * i)).take 232
    let sq := (seq + i) % 4096
    let h := packFlds [(0, 4, 1), (4, 12, sq), (30, 1, b2n (i == 0)), (31, 1, b2n (i + 1 == n)), (32, 8, part.length),
      (52, 6, num)]
    (BitVec.ofNat 16 sq, flitBody h part))

end Sys2Proof.Machine
end

