-- ==== Sys2Proof/Machine/Stream.lean ====
section
/-! DEFINITION. The stream engine: STREAM, SDLOAD, WAITS, WAITW, SWAP and SETHP, the run-ahead scan, landings and writes
(file 06, R372 R378 R397). -/

namespace Sys2Proof.Machine

/-! ## Stream descriptors (R174 R175) -/

/-- The fields of a stream descriptor. -/
structure StreamDesc where
  write : Bool
  dir : Nat
  target : Nat
  ordered : Bool
  paceCode : Nat
  hpEn : Bool
  hp : Nat
  side : Bool
  far : Nat
  row : Nat
  len : Nat
  link : Nat
  faddr : Nat
deriving DecidableEq, Repr

/-- Reads a stream descriptor. -/
def parseStream (bs : List Byte) : StreamDesc :=
  let w := dword bs 0
  { write := fld w 0 2 == 1, dir := fld w 0 2, target := fld w 2 3, ordered := bit w 5, paceCode := fld w 6 2,
    hpEn := bit w 8, hp := fld w 9 3, side := bit w 12, far := fld w 13 2, row := fld w 16 16, len := fld w 32 8,
    link := fld w 40 5, faddr := (dword bs 1).toNat }

/-- lc per row. -/
def StreamDesc.pace (d : StreamDesc) : Nat := 2 ^ d.paceCode

/-- The minimum PACE of a target (R174). -/
def minPace (target : Nat) : Nat := match target with | 0 => 1 | 2 => 1 | 3 => 2 | 5 => 2 | _ => 4

/-- Legal values and reserved fields of a stream descriptor (R174 R175). -/
def streamValuesOk (bs : List Byte) (d : StreamDesc) : Bool :=
  d.dir ≤ 1 && d.target != 7 && d.far != 3 && decide (minPace d.target ≤ d.pace) && !(d.hpEn && decide (d.target ≥ 3))
    && d.len != 0 && d.len ≤ 128 && (d.far == 0 || decide (d.link < 26))
    && zeroField bs 0 15 1 && zeroField bs 0 45 19 && zeroField bs 2 0 64 && zeroField bs 3 0 64

/-- The descriptor with the offset of XR added (R279). -/
def streamOffsets (xr : Word) (d : StreamDesc) : StreamDesc :=
  { d with row := addOff d.row (xrPart xr 0),
           faddr := if d.far = 2 then d.faddr else (d.faddr + 512 * (xr.toNat / 65536)) % 2 ^ 64 }

/-- A logical port by number. -/
def portOf (s : State) (n : Nat) : Port := s.ports[n % 26]'(by omega)

/-- Is a port mapped to a link (R371)? -/
def Port.mapped (p : Port) : Bool := decide (p.phys.toNat < 26)

/-- The uses of FAR 1 and FAR 2 that R372 makes legal. -/
def farUseOk (s : State) (q : Fin 64) (t : Fin 4) (d : StreamDesc) : Bool :=
  let p := portOf s d.link
  match d.far with
  | 0 => true
  | 1 => !d.write && d.ordered && t == 0 && p.mapped
  | _ => d.write && t == 0 && p.mapped && p.sendValid && p.sendQuire == q.val

/-- The relative first row: the descriptor's, or its offset into a half; none where the half-pair is of another
scratchpad (R174 R278). -/
def streamRow (tk : Task) (d : StreamDesc) : Option Nat :=
  if d.hpEn then hpRow tk d.hp d.side d.row d.target else some d.row

/-- Rows of the target lie within the task's bounds (R145 R169 R174). -/
def streamRowsOk (tk : Task) (d : StreamDesc) (row : Nat) : Bool :=
  match d.target with
  | 3 | 4 => tk.regValid && decide (row + d.len ≤ 4 * tk.regCount)
  | 5 => tk.regValid && decide (row + d.len ≤ 8 * tk.regCount)
  | 6 => tk.regValid && decide (row + d.len ≤ tk.regCount / 8)
  | sp => tk.spadOk sp row d.len

/-- The alignment R162 and R174 require. -/
def streamAligned (tk : Task) (d : StreamDesc) : Bool :=
  (d.far == 2 || d.faddr % 512 == 0) && (d.target != 6 || (tk.regBase % 8 == 0 && tk.regCount % 8 == 0))

/-- The far range lies within the task's window or the port's ring (R169 R378). -/
def streamFarOk (s : State) (tk : Task) (d : StreamDesc) : Bool :=
  match d.far with
  | 0 => tk.winValid && decide (d.faddr + 512 * d.len ≤ tk.winSize)
  | 1 => decide (d.faddr < (portOf s d.link).rxSize) && decide (512 * d.len ≤ (portOf s d.link).rxSize)
  | _ => true

/-- The first row of a target, absolute in its scratchpad or bank. -/
def streamFirst (tk : Task) (target row : Nat) : Nat :=
  match target with
  | 3 | 4 => 4 * tk.regBase + row
  | 5 => 8 * tk.regBase + row
  | 6 => tk.regBase / 8 + row
  | sp => tk.spadBase sp + row

/-! ## Stores and limits (R175 R178 R179 R182) -/

/-- The two stores: task 0's, and that of tasks 1 to 3. -/
def sameStore (a b : Fin 4) : Bool := (a == 0) == (b == 0)

/-- Bytes of a task's landing store, and of its outbound store. -/
def landStoreSize (t : Fin 4) : Nat := if t = 0 then 131072 else 32768
def outStoreSize (t : Fin 4) : Nat := if t = 0 then 65536 else 16384

/-- Landing-store bytes in use at the start of lc w by a task's store (R177 R179). -/
def landUsed (qr : Quire) (t : Fin 4) (w : Nat) : Nat :=
  let l := (qr.stream.landings.filter (fun l => sameStore l.task t)).map (·.storeBytes)
  let c := (qr.stream.commits.filter (fun c => sameStore c.task t)).map (fun c => 512 * commitHeld w c)
  l.foldl (· + ·) 0 + c.foldl (· + ·) 0

/-- Rows of a commit that hold store space for a read STREAM that would issue in lc w: for task 0, which is judged at the start of
lc w − 6, a commit that does not run yet frees none (R179). -/
def landHeld (t : Fin 4) (w : Nat) (c : Commit) : Nat := if t = 0 && decide (w < c.first + 6) then c.len else commitHeld w c

/-- Landing-store bytes in use for a read STREAM of a task that would issue in lc w (R179). -/
def streamUsed (qr : Quire) (t : Fin 4) (w : Nat) : Nat :=
  let l := (qr.stream.landings.filter (fun l => sameStore l.task t)).map (·.storeBytes)
  let c := (qr.stream.commits.filter (fun c => sameStore c.task t)).map (fun c => 512 * landHeld t w c)
  l.foldl (· + ·) 0 + c.foldl (· + ·) 0

/-- Does a wait of a task in lc x count what is ready for waits from lc `ready` on? A wait of task 0 is judged at the start of
lc x − 6 and, once it halts its gathering, at every moment; a filler's at its turn (R120 R275). -/
def inTime (qr : Quire) (t : Fin 4) (x ready : Nat) : Bool :=
  t != 0 || qr.seq.tasks[t].state == .held || decide (ready ≤ x)

/-- The first lc of a wait of task 0 that counts what comes about now: no lc in which the sequencer has issued is later, and
bubbles are not counted as passed (R120; log entry 16). -/
def readyFrom (qr : Quire) : Nat := if qr.seq.inRun then qr.seq.past + 6 else 0

/-- Completed writes of a task's store that a wait in lc x does not count yet. -/
def lateWrites (qr : Quire) (t : Fin 4) (x : Nat) : List DoneWrite :=
  qr.stream.doneWrites.filter (fun d => sameStore d.task t && !inTime qr t x d.ready)

/-- Outbound-store bytes in use for a write STREAM of a task in lc x (R182). -/
def writeUsed (qr : Quire) (t : Fin 4) (x : Nat) : Nat :=
  ((qr.stream.writes.filter (fun o => sameStore o.task t)).map (fun o => 512 * o.len)).foldl (· + ·) 0
    + ((lateWrites qr t x).map (·.bytes)).foldl (· + ·) 0

/-- Outbound-store bytes in use. -/
def outUsed (qr : Quire) (t : Fin 4) : Nat :=
  ((qr.stream.writes.filter (fun o => sameStore o.task t)).map (fun o => 512 * o.len)).foldl (· + ·) 0

/-- Issued, uncommitted landings of a task. -/
def issuedLandings (qr : Quire) (t : Fin 4) : Nat :=
  (qr.stream.landings.filter (fun l => l.task == t && l.issued)).length

/-- The landing limit of a task (R175 R178). -/
def landLimit (t : Fin 4) : Nat := if t = 0 then 8 else 2

/-! ## Far memory, host-input windows and receive rings (R184 R185 R375 R378 R397) -/

/-- Replaces part of a memory kept in canonical form. -/
def farWrite (s : State) (a : Nat) (bs : List Byte) : State := { s with far := writeBytes s.far a bs }

/-- The pieces of a ring range: ring offset and length, cut at the endpaper's end and at the ring's end. -/
def ringPieces (size : Nat) : Nat → Nat → Nat → List (Nat × Nat)
  | 0, _, _ => []
  | fuel + 1, off, n =>
    if n = 0 ∨ size = 0 then []
    else
      let o := off % size
      let stop := if o < 262144 then min 262144 size else size
      let k := min n (stop - o)
      (o, k) :: ringPieces size fuel (o + k) (n - k)

/-- Reads bytes of a port's receive ring (R378). -/
def ringRead (s : State) (p : Port) (off n : Nat) : List Byte :=
  (ringPieces p.rxSize 6 off n).flatMap (fun r =>
    if r.1 < 262144 then readBytes (s.endpapers[p.phys.toNat % 26]'(by omega)) r.1 r.2
    else readBytes s.far (p.landBase * 65536 + (r.1 - 262144)) r.2)

/-- The valid host-input window in which a far range begins, if any (R397). -/
def windowOf (s : State) (a : Nat) : Option (Fin 4) :=
  (List.finRange 4).find? (fun w =>
    let c := s.hostin.cfg[w]
    bit c 40 && decide (fld c 0 20 * 65536 ≤ a) && decide (a < (fld c 0 20 + fld c 20 20) * 65536))

/-- Is a read of far range [a, a + n) held at a fence (R397)? -/
def fenceHolds (s : State) (a n : Nat) : Bool :=
  match windowOf s a with
  | none => false
  | some w =>
    let c := s.hostin.cfg[w]
    let need := min (a + n - fld c 0 20 * 65536) (fld c 20 20 * 65536)
    decide (fld s.hostin.fence[w] 0 20 * 65536 < need)

/-- Does a far range touch a controller (R184)? -/
def onController (m : Fin 4) (a n : Nat) : Bool :=
  let lo := m.val * 0x3_0000_0000
  decide (a < lo + 0x3_0000_0000) && decide (lo < a + n)

/-- Has a controller a slot of a class and a beat of a folio (R185)? -/
def mcServes (m : Mc) (cls folio : Nat) : Bool :=
  (List.range 16).any (fun i => fld m.split (2 * i) 2 == cls)
    && (List.range 16).any (fun b => fld m.mapLo (4 * b) 4 == folio || fld m.mapHi (4 * b) 4 == folio)

/-- Every controller that a far range touches serves the class and folio (R184 R185). -/
def farServed (s : State) (q : Fin 64) (cls a n : Nat) : Bool :=
  (List.finRange 4).all (fun m =>
    !onController m a n || mcServes s.mcs[m] cls (q.val / 4))

/-! ## Starting and issuing reads (R176–R181) -/

/-- A landing as it starts. -/
def newLanding (tk : Task) (t : Fin 4) (entry pc : Nat) (bs : List Byte) (d : StreamDesc) : Landing :=
  { task := t, entry := entry, desc := bs, pcIndex := pc, issued := false, x := 0, landed := false, data := [],
    ready := 0, fetched := [], released := false, target := d.target, firstRow := 0, pace := d.pace, len := d.len, far := d.far, port := d.link,
    faddr := if d.far = 0 then tk.winBase + d.faddr else d.faddr, storeBytes := 512 * d.len }

/-- A read that comes to its controller: where no fence holds it then, none does later (R397 R398 R418). -/
def arriveLanding (s : State) (l : Landing) : Landing :=
  { l with released := l.far != 0 || !fenceHolds s l.faddr (512 * l.len) }

/-- A landing whose STREAM issues in lc x: its quire-side rows are resolved (R176). -/
def issueLanding (tk : Task) (d : StreamDesc) (row x : Nat) (l : Landing) : Landing :=
  { l with issued := true, x := x, target := d.target, firstRow := streamFirst tk d.target row, pace := d.pace, len := d.len }

/-- The place of the landing that run-ahead has started for the STREAM at an index. -/
def startedAt (ls : List Landing) (pc : Nat) : Option Nat :=
  ls.findIdx? (fun l => l.task == 0 && !l.issued && l.pcIndex == pc)

/-- Replaces the landings of a quire. -/
def setLandings (qr : Quire) (ls : List Landing) : Quire := { qr with stream := { qr.stream with landings := ls } }

/-- Counts a landing that is dropped because its entry has changed, and starts its read again (R181 R183). -/
def refetch (qr : Quire) (old : Landing) : Quire :=
  let st := qr.stream
  let dd := setFld st.discardDesc 0 32 (fld st.discardDesc 0 32 + 1)
  { qr with stream := { st with discardDesc := setFld dd 32 32 (fld dd 32 32 + 1),
                                discardBytes := st.discardBytes + BitVec.ofNat 64 (512 * old.len) } }

/-- The claim of a STREAM (R322). -/
def streamClaim (s : State) (q : Fin 64) (t : Fin 4) (w : Word) (d : StreamDesc) (x : Nat) : State :=
  claimTok s q { first := x + 2, last := x + 1 + d.len * d.pace, tok := tokOf w, task := t, drain := false }

/-- A read STREAM whose checks hold. -/
def streamRead (q : Fin 64) (t : Fin 4) (w : Word) (bs : List Byte) (entry : Nat) (d : StreamDesc) (row : Nat)
    (s : State) (x : Nat) : Res :=
  let qr := s.quires[q]
  let tk := qr.seq.tasks[t]
  let pc := tk.pc.toNat
  let fresh := arriveLanding s (issueLanding tk d row x (newLanding tk t entry pc bs d))
  let ls := qr.stream.landings
  let started := if t = 0 then startedAt ls pc else none
  match started with
  | some i =>
    match ls[i]? with
    | some l =>
      if l.desc == bs && l.entry == entry then
        .done (streamClaim (updQ s q (fun qr => setLandings qr (ls.set i (issueLanding tk d row x l)))) q t w d x)
      else
        let qr' := refetch (setLandings qr (ls.eraseIdx i)) l
        if streamUsed qr' t x + 512 * d.len > landStoreSize t then .wait .readStream 2
        else .done (streamClaim (updQ s q (fun _ => setLandings qr' (ls.set i fresh))) q t w d x)
    | none => .done s
  | none =>
    if streamUsed qr t x + 512 * d.len > landStoreSize t then .wait .readStream 2
    else .done (streamClaim (updQ s q (fun qr => setLandings qr (ls ++ [fresh]))) q t w d x)

/-- Has the quire an incomplete write to a send port? -/
def sendsWaiting (qr : Quire) : Bool := qr.stream.writes.any (fun o => o.far == 2)

/-- The idle cause of an unmet write STREAM or WAITW (R407). -/
def writeCause (qr : Quire) : Nat := if sendsWaiting qr then 1 else 2

/-- Do two byte ranges overlap? -/
def rangesMeet (a n b m : Nat) : Bool := decide (a < b + m) && decide (b < a + n)

/-- Does a landing of task 0 wait behind a write of far memory that issues at an index: started ahead of it, of the same bytes
(R180)? -/
def behindWrite (pc a n : Nat) (l : Landing) : Bool :=
  l.task == 0 && !l.issued && l.far == 0 && decide (pc < l.pcIndex) && rangesMeet l.faddr (512 * l.len) a n

/-- A write issues before reads that run-ahead has started behind it: those of its bytes have been held back, so none of them
has landed (R180 R406). -/
def holdBack (pc a n : Nat) (ls : List Landing) : List Landing :=
  ls.map (fun l => if behindWrite pc a n l then { l with landed := false, data := [], fetched := [] } else l)

/-- A write STREAM whose checks hold: its source rows enter the outbound store from lc x + 2 on (R182 R373). -/
def streamWrite (q : Fin 64) (t : Fin 4) (w : Word) (d : StreamDesc) (row : Nat) (s : State) (x : Nat) : Res :=
  let qr := s.quires[q]
  let tk := qr.seq.tasks[t]
  if writeUsed qr t x + 512 * d.len > outStoreSize t then .wait .writeStream (writeCause qr)
  else
    let o : OutWrite := { task := t, far := d.far, port := d.link, faddr := if d.far = 0 then tk.winBase + d.faddr else 0,
                          x := x, edge := (x : Int) + qr.edgeOff, len := d.len, data := [], left := false }
    let back := fun ls => if t = 0 && o.far == 0 then holdBack tk.pc.toNat o.faddr (512 * o.len) ls else ls
    let s := updQ s q (fun qr => { qr with stream := { qr.stream with
      writes := qr.stream.writes ++ [o], landings := back qr.stream.landings } })
    let s := laterSend s q t (x + 2) x d.target (streamFirst tk d.target row) 0 0 d.pace d.len
    .done (streamClaim s q t w d x)

/-- The descriptor of a table entry. -/
def sdtEntry (tk : Task) (entry : Nat) : List Byte := readBytes tk.sdt (32 * entry) 32

/-- A read that run-ahead has started for the STREAM at an index is discarded: SDLOAD has since made its entry a write (R181
R183). -/
def dropStarted (pc : Nat) (qr : Quire) : Quire :=
  discardLandings qr (fun l => l.task == 0 && !l.issued && l.pcIndex == pc)

/-- STREAM: the checks of R175 in the order of R523, then the transfer. -/
def streamBody (q : Fin 64) (t : Fin 4) (w : Word) (s : State) (x : Nat) : Res :=
  let tk := s.quires[q].seq.tasks[t]
  let entry := fld w 11 5
  let bs := sdtEntry tk entry
  let s := noteEarly s q t x [fld w 6 5]
  let d := streamOffsets (srcReg s q t (fld w 6 5)) (parseStream bs)
  if !streamValuesOk bs d || !farUseOk s q t d then .bad .stream 1
  else match streamRow tk d with
    | none => .bad .stream 1
    | some row =>
      if !streamAligned tk d then .bad .stream 2
      else if !streamRowsOk tk d row then .bad .stream 3
      else if !streamFarOk s tk d then .bad .stream 4
      else if d.write then
        if 512 * d.len > outStoreSize t then .bad .stream 1
        else streamWrite q t w d row (if t = 0 then updQ s q (dropStarted tk.pc.toNat) else s) x
      else if issuedLandings s.quires[q] t ≥ landLimit t || 512 * d.len > landStoreSize t then .bad .stream 1
      else streamRead q t w bs entry d row s x

/-- STREAM (R176 R182). -/
def execStream (q : Fin 64) (t : Fin 4) (w : Word) (s : State) : Host.Outcome State Fault Refusal :=
  .next (issueRow 0x2C q t w (fun s x => (streamBody q t w s x).reading [fld w 6 5]) s)

/-! ## SDLOAD, SWAP, SETHP (R171–R173 R292) -/

/-- SDLOAD: one staging row into half of the descriptor table, usable from lc x + 2. -/
def sdloadBody (q : Fin 64) (t : Fin 4) (w : Word) (s : State) (x : Nat) : Res :=
  let tk := s.quires[q].seq.tasks[t]
  match rowRef tk (fld w 7 16) 2 with
  | none => .bad .seq 6
  | some r =>
    if !tk.spadOk 2 r 1 then .bad .stream 3
    else
      let s := placePorts s q [rowRead 6 x t 2 (tk.stgBase + r) (x + 1)]
      .done (later s q t (x + 1) 0 (.sdload (bit w 6) (tk.stgBase + r)))

/-- SDLOAD (R173). -/
def execSdload (q : Fin 64) (t : Fin 4) (w : Word) (s : State) : Host.Outcome State Fault Refusal :=
  .next (issueRow 0x2D q t w (sdloadBody q t w) s)

/-- The half-pair registers with the FRONT bits of a mask inverted. -/
def swapHalves (mask : Nat) (hp : Vector HalfPair 8) : Vector HalfPair 8 :=
  Vector.ofFn (fun i : Fin 8 => if mask.testBit i.val then { hp[i] with front := !(hp[i]).front } else hp[i])

/-- SWAP (R172). -/
def execSwap (q : Fin 64) (t : Fin 4) (w : Word) (s : State) : Host.Outcome State Fault Refusal :=
  .next (issueRow 0x30 q t w (fun s _ =>
    .done (updT s q t (fun tk => { tk with hp := swapHalves (fld w 11 8) tk.hp }))) s)

/-- SETHP: writes a half-pair register; scratchpad code 3 is illegal (R171 R292). -/
def sethpBody (q : Fin 64) (t : Fin 4) (w : Word) (s : State) (_x : Nat) : Res :=
  if fld w 9 2 = 3 then .bad .seq 2
  else
    let h : HalfPair := { spad := fld w 9 2, rowA := fld w 12 16, rowB := fld w 28 16, front := bit w 11 }
    .done (updT s q t (fun tk => { tk with hp := tk.hp.set (fld w 6 3 % 8) h (by omega) }))

/-- SETHP (R171). -/
def execSethp (q : Fin 64) (t : Fin 4) (w : Word) (s : State) : Host.Outcome State Fault Refusal :=
  .next (issueRow 0x31 q t w (sethpBody q t w) s)

/-! ## Run-ahead, landings and completed writes (R176 R178 R180 R182 R185) -/

/-- Does the scan stop at an opcode: a jump, a call, a return, SPLICE or task end (R178)? -/
def scanStops (op : Nat) : Bool := op == 0x11 || op == 0x12 || op == 0x13 || op == 0x28 || op == 0x16

/-- The index and entry of the next read that the scan would start, from index i on, at most n instructions (R178
R280). -/
def scanFrom (qr : Quire) (tk : Task) : Nat → Nat → Option (Nat × Nat)
  | 0, _ => none
  | n + 1, i =>
    if tk.codeCount ≤ i then none
    else
      let w : Word := BitVec.ofNat 64 (readNum qr.mem.prog (8 * (tk.codeBase + i)) 8)
      let op := fld w 0 6
      if scanStops op then none
      else if op == 0x2C then
        let entry := fld w 11 5
        let d := parseStream (sdtEntry tk entry)
        if d.dir = 0 && (startedAt qr.stream.landings i).isNone then
          if d.ordered || fld w 6 5 != 0 then none else some (i, entry)
        else scanFrom qr tk n (i + 1)
      else scanFrom qr tk n (i + 1)

/-- May the scan start this read: legal, of far memory within the window, one of at most 8, fitting the store? -/
def scanFits (qr : Quire) (tk : Task) (bs : List Byte) (d : StreamDesc) : Bool :=
  streamValuesOk bs d && d.far == 0 && d.faddr % 512 == 0 && tk.winValid && decide (d.faddr + 512 * d.len ≤ tk.winSize)
    && decide ((qr.stream.landings.filter (fun l => l.task == 0)).length < 8)
    && decide (landUsed qr 0 qr.seq.lc + 512 * d.len ≤ landStoreSize 0)

/-- RUN_AHEAD_START: the scan of a quire's task 0 starts the next read that it meets and may start. -/
def runAhead (q : Fin 64) (s : State) : State :=
  let qr := s.quires[q]
  let tk := settleLoads qr.seq.lc qr.seq.tasks[0]
  if !computeUp s || !qr.seq.inRun || !tk.live || !tk.codeValid then s
  else match scanFrom qr tk 257 tk.pc.toNat with
    | none => s
    | some (i, entry) =>
      let bs := sdtEntry tk entry
      let d := parseStream bs
      if scanFits qr tk bs d then
        updQ s q (fun qr => setLandings qr (qr.stream.landings ++ [arriveLanding s (newLanding tk 0 entry i bs d)]))
      else s

/-- RUN_AHEAD_START (R178). -/
def execRunAheadStart (q : Fin 64) (s : State) : Host.Outcome State Fault Refusal := .next (runAhead q (catchUp s))

/-- Must a read of far memory wait: held at a fence, behind an earlier write of its task, or never served (R180 R185
R397)? -/
def landingBlocked (s : State) (q : Fin 64) (l : Landing) : Bool :=
  let n := 512 * l.len
  l.far == 0 &&
    (!l.released || !farServed s q 0 l.faddr n
      || s.quires[q].stream.writes.any (fun o => o.far == 0 && o.task == l.task && (!l.issued || decide (o.x < l.x))
        && rangesMeet l.faddr n o.faddr (512 * o.len)))

/-! ## Beats of 256 B that a read and a write meet in no order (R180 R193 R419)

Such a beat is read before or after the write: a free value decides (log entry 26). -/

/-- Those of n beats that free values pick. -/
def pickBeats {α : Type} (s : State) (beats : List α) : List α :=
  (beats.zipIdx.filter (fun p => (Config.freeBits (s.free + p.2)).getLsbD 0)).map (·.1)

/-- The beats that incomplete writes have for a range of far memory, each with its address. -/
def beatsOnTheWay (s : State) (a n : Nat) : List (Nat × List Byte) :=
  (allQuires.flatMap (fun q => s.quires[q].stream.writes)).flatMap (fun o =>
    if o.far = 0 then
      ((List.range (2 * o.len)).map (fun j => (o.faddr + 256 * j, (o.data.drop (256 * j)).take 256))).filter
        (fun b => rangesMeet b.1 b.2.length a n)
    else [])

/-- Puts beats into a memory. -/
def putBeats (m : Mem) (beats : List (Nat × List Byte)) : Mem := beats.foldl (fun m b => writeBytes m b.1 b.2) m

/-- What a read of far memory brings: the bytes that stand there, of each beat on the way perhaps the new ones; beats read
before stay as they were then. -/
def farRead (s : State) (fetched : List (Nat × List Byte)) (a n : Nat) : List Byte × State :=
  let beats := beatsOnTheWay s a n
  (readBytes (putBeats (putBeats s.far (pickBeats s beats)) fetched) a n, { s with free := s.free + beats.length })

/-- Of a read in flight, the beats that a write of a range meets are perhaps read already. -/
def fetchBeats (a n : Nat) (s : State) (q : Fin 64) (i : Nat) : State :=
  match s.quires[q].stream.landings[i]? with
  | none => s
  | some l =>
    if l.far ≠ 0 || l.landed || landingBlocked s q l then s
    else
      let beats := ((List.range (2 * l.len)).map (fun j => l.faddr + 256 * j)).filter
        (fun b => rangesMeet b 256 a n && !l.fetched.any (fun f => f.1 == b))
      let now := (pickBeats s beats).map (fun b => (b, readBytes s.far b 256))
      { updQ s q (fun qr => setLandings qr (qr.stream.landings.set i { l with fetched := l.fetched ++ now })) with
        free := s.free + beats.length }

/-- Bytes come to far memory while reads are in flight. -/
def farWriteShared (s : State) (a : Nat) (bs : List Byte) : State :=
  farWrite (allQuires.foldl (fun s q =>
    (List.range s.quires[q].stream.landings.length).foldl (fun s i => fetchBeats a bs.length s q i) s) s) a bs

/-- The bytes of a pending landing, from far memory or from its port's receive ring. -/
def landingBytes (s : State) (l : Landing) : List Byte × State :=
  if l.far = 0 then farRead s l.fetched l.faddr (512 * l.len)
  else (ringRead s (portOf s l.port) l.faddr (512 * l.len), s)

/-- LANDING_COMPLETE: every byte of pending landing ix, counted from the oldest, is in the landing store. -/
def landingComplete (q : Fin 64) (ix : Nat) (s : State) : State :=
  let qr := s.quires[q]
  let ls := qr.stream.landings
  match ls[ix]? with
  | none => s
  | some l =>
    if !computeUp s || l.landed || landingBlocked s q l then s
    else
      let r := landingBytes s l
      updQ r.2 q (fun qr => setLandings qr (ls.set ix { l with landed := true, data := r.1, fetched := [], ready := readyFrom qr }))

/-- LANDING_COMPLETE (R176). -/
def execLandingComplete (q : Fin 64) (ix : Nat) (s : State) : Host.Outcome State Fault Refusal :=
  .next (landingComplete q ix (catchUp s))

/-- The valid cross-gathering buffer in whose range an address lies (R321). -/
def bufferOf (s : State) (a : Nat) : Option (Fin 32) :=
  (List.finRange 32).find? (fun b =>
    let c := s.con.xbCfg[b]
    bit c 60 && decide (fld c 0 27 * 512 ≤ a) && decide (a < (fld c 0 27 + fld c 27 27) * 512))

/-- A completed write of task 0 that begins in a buffer raises its count, which saturates (R321). -/
def countBuffer (s : State) (o : OutWrite) : State :=
  if o.task ≠ 0 || o.left then s
  else match bufferOf s o.faddr with
    | none => s
    | some b =>
      let n := satAdd 32 s.con.xbCount[b].toNat 1
      let owner := s.quires[fld s.con.xbCfg[b] 54 6 % 64]'(by omega)
      let late := s.con.xbLate[b].filter (fun r => decide (owner.seq.past < r))
      { s with con := { s.con with xbCount := s.con.xbCount.set b (BitVec.ofNat 32 n)
                                   xbLate := s.con.xbLate.set b (late ++ [readyFrom owner]) } }

/-- A write leaves the outbound store: it is complete (R182). -/
def dropWrite (s : State) (q : Fin 64) (ix : Nat) (o : OutWrite) : State :=
  updQ s q (fun qr => { qr with stream := { qr.stream with
    writes := qr.stream.writes.eraseIdx ix,
    doneWrites := qr.stream.doneWrites ++ [{ task := o.task, bytes := 512 * o.len, ready := readyFrom qr }] } })

/-- Is a write of far memory the oldest of its folio on every controller that it touches (R185)? -/
def oldestWrite (s : State) (q : Fin 64) (ix : Nat) (o : OutWrite) : Bool :=
  let n := 512 * o.len
  let meets' := fun p : OutWrite => p.far == 0 && (List.finRange 4).any (fun m => onController m o.faddr n && onController m p.faddr (512 * p.len))
  (allQuires.filter (fun b => b.val / 4 == q.val / 4)).all (fun b =>
    (s.quires[b].stream.writes.zipIdx).all (fun p =>
      !(meets' p.1 && (if b = q then decide (p.2 < ix) else decide (p.1.edge < o.edge)))))

/-- Every source row of a write has been read (R182). -/
def OutWrite.whole (o : OutWrite) : Bool := o.data.length == 512 * o.len

/-- WRITE_COMPLETE: the controller has written the last byte of incomplete write ix, counted from the oldest, a write of
far memory; a beat serves the oldest request of its class and folio (R185). -/
def writeComplete (q : Fin 64) (ix : Nat) (s : State) : State :=
  match s.quires[q].stream.writes[ix]? with
  | none => s
  | some o =>
    if !s.pwr.powered || o.far ≠ 0 || !o.whole || !farServed s q 1 o.faddr o.data.length || !oldestWrite s q ix o then s
    else countBuffer (dropWrite (farWriteShared s o.faddr o.data) q ix o) o

/-- WRITE_COMPLETE (R182). -/
def execWriteComplete (q : Fin 64) (ix : Nat) (s : State) : Host.Outcome State Fault Refusal :=
  .next (writeComplete q ix (catchUp s))

end Sys2Proof.Machine
end

