-- ==== Sys2Proof/Machine/Links.lean ====
section
/-! DEFINITION. Chip-to-chip links and logical ports: sending, receiving, acknowledgement and replay, deadlines, link
faults, FAULT flits and training (file 14, R515 R519). -/

namespace Sys2Proof.Machine

/-! ## Links and their bands (R23 R351) -/

/-- The band domain of a link: headband west PD04, headband east PD05, tailband east PD07, tailband west PD06. -/
def bandOf (l : Fin 26) : Nat := if l.val < 7 then 4 else if l.val < 13 then 5 else if l.val < 19 then 7 else 6

/-- Is the link's band domain on? -/
def bandOn (s : State) (l : Fin 26) : Bool := s.pwr.powered && pdOn s (bandOf l)

/-- Is the link up? -/
def linkIsUp (s : State) (l : Fin 26) : Bool := bandOn s l && s.links[l].state == 2

/-- The port mapped to a link, if any. -/
def portOn (s : State) (l : Fin 26) : Option (Fin 26) := (List.finRange 26).find? (fun p => s.ports[p].phys.toNat == l.val)

/-- LINK_xx.STATUS (R389); while the band is off STATE and WIDTH read 0 (R487). -/
def linkStatusWord (s : State) (l : Fin 26) : Word :=
  let k := s.links[l]
  let on := bandOn s l
  packFlds [(0, 2, if on then k.state else 0), (2, 2, if on then k.width else 0), (4, 8, k.laneOk.toNat),
    (12, 5, k.port.toNat), (17, 1, b2n k.required), (18, 16, k.retrains.toNat)]

/-- Does the compute part run: powered, not held in reset, not stopped by the fault path (R380)? -/
def computeRuns (s : State) : Bool := computeUp s && !s.bind.latch

/-- The alarm of a link that has come up or gone down (R473). -/
def linkAlarm (s : State) (l : Fin 26) : State := alarm s 2 l.val ((linkStatusWord s l).toNat % 2 ^ 32)

/-! ## Link faults (R380) -/

/-- LINK.FAULT with a cause. -/
def linkFaultWord (cause : Nat) (only : Bool) (origin : Nat) : Word :=
  packFlds [(0, 3, cause), (3, 1, 1), (4, 1, b2n only), (32, 32, origin)]

/-- Records the first link fault or received FAULT flit since the last clear. -/
def recordLink (k : Link) (cause : Nat) (only : Bool) (origin : Nat) : Link :=
  if bit k.fault 3 then k else { k with fault := linkFaultWord cause only origin }

/-- Is a raised fault a link fault of link l in this tick? -/
def sameLinkTick (s : State) (l : Fin 26) (g : Raised) : Bool := g.cause != 0 && g.link == l.val && g.tick == tick s

/-- Raises a link fault; two of one link in one tick are one fault, recorded with the lower cause (R390). -/
def raiseLink (s : State) (l : Fin 26) (r : Raised) : State :=
  match s.bind.raised.find? (sameLinkTick s l) with
  | none =>
    let s' := updLink s l (fun k => recordLink k r.cause false r.originId.toNat)
    { s' with bind := { s'.bind with raised := s.bind.raised ++ [{ r with noted := !bit s.links[l].fault 3 }] } }
  | some g =>
    if r.cause < g.cause then
      let s' := if g.noted then updLink s l (fun k => { k with fault := linkFaultWord r.cause false r.originId.toNat }) else s
      { s' with bind := { s'.bind with
          raised := s.bind.raised.map (fun e => if sameLinkTick s l e then { r with noted := g.noted } else e) } }
    else s

/-- A link fault: only of a required link, and only while the compute part runs (R380). -/
def linkFault (s : State) (l : Fin 26) (cause : Nat) : State :=
  if s.links[l].required && computeRuns s then
    raiseLink s l { cls := 4, quire := none, link := l.val, originClass := 0, originId := 0, tick := tick s, cause := cause }
  else s

/-! ## Going down (R370 R382 R391) -/

/-- The messages of a port that a link loses: those not fully acknowledged, and the one being received. -/
def portInFlight (p : Port) : Nat := p.tx.length + (p.rx.filter (fun r => !r.complete)).length

/-- The port loses them; credit starts at 0 when the link trains again (R382). -/
def dropInFlight (count : Bool) (p : Port) : Port :=
  { p with drops := if count then p.drops + BitVec.ofNat 32 (portInFlight p) else p.drops, tx := [],
           rx := p.rx.filter (·.complete), credit := 0, granted := 0 }

/-- A link that is no longer up. -/
def Link.down (state : Nat) (k : Link) : Link :=
  { k with state := state, width := 0, txSeq := 0, rxSeq := 0, rxAny := false, unacked := [], ackOwed := none,
           discarding := false, identified := false }

/-- A link goes to a state other than up: a port that is not required drops and counts what the link carried. -/
def leaveUp (s : State) (l : Fin 26) (state : Nat) : State :=
  let was := s.links[l].state == 2
  let count := !s.links[l].required
  let s := updLink s l (Link.down state)
  let s := match portOn s l with
    | none => s
    | some p => updPort s p (dropInFlight count)
  if was then linkAlarm s l else s

/-! ## Sending (R367 R368 R373 R374) -/

/-- Flits leave the link, acknowledgement and parity added. -/
def sendFlits (s : State) (l : Fin 26) (nak : Bool) (bodies : List (List Byte)) : State :=
  updLink s l (fun k => { k with lastSent := bodies.map (fun b => encodeFlit (withAck k nak b)), sentTick := tick s, ackOwed := none })

/-- Bytes that wait in the spill queue of a band router (R376). -/
def spillBytes (s : State) (band : Nat) : Nat :=
  ((List.finRange 26).map (fun p =>
    let po := s.ports[p]
    if h : po.phys.toNat < 26 then
      (if bandOf ⟨po.phys.toNat, h⟩ == band then (po.rx.map (fun r => r.spill.length)).foldl (· + ·) 0 else 0)
    else 0)).foldl (· + ·) 0

/-- Ring units of a port: its endpaper has 512, its landing area the rest (R375). -/
def ringUnits (po : Port) : Nat := po.rxSize / 512

/-- How many of n ring units from a position on lie in the landing area. -/
def landUnits (ring pos : Nat) : Nat → Nat
  | 0 => 0
  | n + 1 => (if pos % ring < 512 then 0 else 1) + landUnits ring (pos + 1) n

/-- The ring position, in units, up to which a port has taken bytes in. -/
def ringTail (po : Port) : Nat :=
  po.head + ((po.rx.find? (fun m => !m.complete)).map (fun m => m.bytes / 512)).getD 0

/-- Landing units that a port has granted and its peer has not used. -/
def landGranted (po : Port) : Nat := if po.landSize = 0 then 0 else landUnits (ringUnits po) (ringTail po) po.granted

/-- The spill units of a band router that neither a byte nor a granted landing unit claims (R376). -/
def spillRoom (s : State) (band : Nat) : Nat :=
  let mine := fun p : Fin 26 => (List.finRange 26).any (fun l => bandOf l == band && s.ports[p].phys.toNat == l.val)
  2048 - ceilDiv (spillBytes s band) 512 - (((List.finRange 26).filter mine).map (fun p => landGranted s.ports[p])).foldl (· + ·) 0

/-- Of at most n ring units from a position on, how many may be granted: every endpaper unit, a landing unit while the
spill queue has room for it (R376). -/
def grantRun (ring : Nat) : Nat → Nat → Nat → Nat
  | 0, _, _ => 0
  | n + 1, pos, room =>
    if pos % ring < 512 then 1 + grantRun ring n (pos + 1) room
    else if room = 0 then 0 else 1 + grantRun ring n (pos + 1) (room - 1)

/-- Units of credit that a port grants in one flit: at most 4,095, of its landing area no more than the spill queue has
room for (R374 R376). -/
def grantable (s : State) (l p : Fin 26) : Nat :=
  let po := s.ports[p]
  let n := min po.owed 4095
  if po.landSize = 0 then n else grantRun (ringUnits po) n (ringTail po + po.granted) (spillRoom s (bandOf l))

/-- Takes the credit that the next flit of a link carries. -/
def takeGrant (s : State) (l : Fin 26) : Nat × State :=
  match portOn s l with
  | none => (0, s)
  | some p =>
    let n := grantable s l p
    (n, updPort s p (fun po => { po with owed := po.owed - n, granted := po.granted + n }))

/-- FAULT flits fill every flit position of a link: the first 16 µs of the fault path (R381). -/
def faultFilled (s : State) (l : Fin 26) : Bool := s.links[l].faultTick.any (fun t => decide (tick s < t + 16))

/-- A flit without payload leaves the link: HEARTBEAT, or CTRL with or without NAK; none while FAULT flits fill it. -/
def sendBare (s : State) (l : Fin 26) (type : Nat) (nak : Bool) : State :=
  if faultFilled s l then s
  else
    let (n, s) := takeGrant s l
    sendFlits s l nak [flitBody (packFlds [(0, 4, type), (40, 12, n)]) []]

/-- The space that a ring has to grant leaves in a CTRL flit (R374). -/
def sendGrant (s : State) (l : Fin 26) : State :=
  match portOn s l with
  | none => s
  | some p => if linkIsUp s l && grantable s l p != 0 then sendBare s l 2 false else s

/-- Every unacknowledged DATA flit is sent again, oldest first, and the replay counted (R369); none while FAULT flits fill
the link. -/
def replay (s : State) (l : Fin 26) : State :=
  let us := s.links[l].unacked
  if us.isEmpty || faultFilled s l then s
  else
    let s := sendFlits s l false (us.map (·.body))
    updLink s l (fun k => { k with replays := k.replays + 1, unacked := us.map (fun u => { u with tick := tick s }) })

/-- The oldest waiting message of a port: its place among the incomplete writes of the send owner. -/
def waitingMessage (s : State) (p : Fin 26) : Option (Fin 64 × Nat × OutWrite) :=
  let po := s.ports[p]
  let q : Fin 64 := ⟨po.sendQuire % 64, by omega⟩
  let ws := s.quires[q].stream.writes
  match ws.findIdx? (fun o => o.far == 2 && o.port == p.val) with
  | none => none
  | some ix => (ws[ix]?).map (fun o => (q, ix, o))

/-- The send port takes a message: numbered, cut into flits and sent (R367 R373). -/
def acceptMessage (s : State) (l p : Fin 26) (bytes : List Byte) : State :=
  let (n, s) := takeGrant s l
  let num := s.ports[p].sent.toNat % 64
  let k := s.links[l]
  let fl := dataBodies k.txSeq.toNat num bytes
  let fl := match fl with
    | [] => []
    | f :: fs => (f.1, flitBody (setFld (flitHeader f.2) 40 12 n) (f.2.drop 8)) :: fs
  let s := sendFlits s l false (fl.map (·.2))
  let s := updLink s l (fun k =>
    { k with txSeq := BitVec.ofNat 16 ((k.txSeq.toNat + fl.length) % 4096),
             unacked := k.unacked ++ fl.map (fun f => { seq := f.1, body := f.2, tick := tick s }) })
  updPort s p (fun po =>
    { po with credit := po.credit - bytes.length / 512, sent := po.sent + 1,
              tx := po.tx ++ [{ num := num, bytes := bytes.length, tick := tick s,
                                lastSeq := (k.txSeq.toNat + fl.length + 4095) % 4096 }] })

/-- MESSAGE_ACCEPT: the port has credit and the send buffer room for its oldest waiting message, whose write completes
(R182 R373); every earlier message has been sent once (log entry 3). -/
def messageAccept (p : Fin 26) (s : State) : State :=
  let po := s.ports[p]
  if h : po.phys.toNat < 26 then
    let l : Fin 26 := ⟨po.phys.toNat, h⟩
    match waitingMessage s p with
    | none => s
    | some (q, ix, o) =>
      let room := s.links[l].unacked.length + ceilDiv o.data.length 232
      if o.whole && linkIsUp s l && computeRuns s && decide (o.data.length ≤ 512 * po.credit) && decide (room ≤ 1024) then
        acceptMessage (dropWrite s q ix o) l p o.data
      else s
  else s

/-- MESSAGE_ACCEPT (R373). -/
def execMessageAccept (port : LinkId) (s : State) : Host.Outcome State Fault Refusal := .next (messageAccept port (catchUp s))

/-! ## Receiving (R368 R369 R374 R375) -/

/-- Flits up to an acknowledged number leave the send buffer. -/
def ackUnacked (ack : Nat) (us : List SentFlit) : List SentFlit :=
  match us.findIdx? (fun u => u.seq.toNat == ack) with
  | none => us
  | some i => us.drop (i + 1)

/-- The acknowledgement and NAK of a received flit (R368 R369). -/
def takeAck (s : State) (l : Fin 26) (h : Word) : State :=
  if !bit h 28 && !bit h 29 then s
  else
    let us := if bit h 28 then ackUnacked (fld h 16 12) s.links[l].unacked else s.links[l].unacked
    let s := updLink s l (fun k => { k with unacked := us })
    let s := match portOn s l with
      | none => s
      | some p => updPort s p (fun po =>
          { po with tx := po.tx.filter (fun m => us.any (fun u => u.seq.toNat == m.lastSeq)) })
    if bit h 29 then replay s l else s

/-- The credit that a flit carries (R374). -/
def takeCredit (s : State) (l : Fin 26) (h : Word) : State :=
  match portOn s l with
  | none => s
  | some p => updPort s p (fun po => { po with credit := po.credit + fld h 40 12 })

/-- A flit or the rest of a gap is discarded; one NAK goes out for the gap (R369). -/
def discardGap (s : State) (l : Fin 26) : State :=
  if s.links[l].discarding then s
  else sendBare (updLink s l (fun k => { k with discarding := true })) l 2 true

/-- Writes payload into the receive ring of a port from an offset on: the endpaper at once, the landing area by way of
the spill queue (R375 R376). -/
def ringWrite (s : State) (l p : Fin 26) (off : Nat) (bytes : List Byte) : State :=
  let po := s.ports[p]
  ((ringPieces po.rxSize 6 off bytes.length).foldl (fun (a : State × List Byte) r =>
    let part := a.2.take r.2
    let rest := a.2.drop r.2
    if r.1 < 262144 then
      ({ a.1 with endpapers := a.1.endpapers.set l (writeBytes a.1.endpapers[l] r.1 part) }, rest)
    else
      let base := po.landBase * 65536 + (r.1 - 262144)
      let cells := part.zipIdx.map (fun e => (base + e.2, e.1))
      let spill := fun m : RxMsg => if m.complete then m else { m with spill := m.spill ++ cells }
      (updPort a.1 p (fun po => { po with rx := po.rx.map spill }), rest)) (s, bytes)).1

/-- The message being received, started anew by a FIRST flit. -/
def startRx (po : Port) (first : Bool) (num now : Nat) : Port :=
  if first then
    { po with rx := po.rx.filter (·.complete) ++
        [{ num := num, bytes := 0, first := now, complete := false, spill := [] }] }
  else po

/-- The message being received has n bytes more, its units of credit used; with LAST it is complete and the next one lands
behind it. -/
def advanceRx (po : Port) (n : Nat) (last : Bool) : Port :=
  match po.rx.find? (fun m => !m.complete) with
  | none => po
  | some m =>
    let total := m.bytes + n
    let rx := po.rx.map (fun r => if r.complete then r else { r with bytes := total, complete := last })
    { po with rx := rx, granted := po.granted - (total / 512 - m.bytes / 512), head := if last then (po.head + ceilDiv total 512) % max 1 (po.rxSize / 512) else po.head }

/-- Payload bytes per microsecond of a width (R365). -/
def widthRate (w : Nat) : Nat := match w with | 3 => 116000 | 2 => 58000 | _ => 29000

/-- The deadline D in ticks of a message of B bytes (R379). -/
def deadline (w bytes : Nat) : Nat := 4 + ceilDiv bytes (widthRate w)

/-- Takes the payload of a DATA flit in order (R369 R375); a LAST flit behind the receiver's deadline is a link fault
(R379). -/
def takePayload (s : State) (l : Fin 26) (h : Word) (body : List Byte) : State :=
  match portOn s l with
  | none => s
  | some p =>
    let n := fld h 32 8
    let s := updPort s p (fun po => startRx po (bit h 30) (fld h 52 6) (tick s))
    match (s.ports[p].rx.find? (fun m => !m.complete)) with
    | none => s
    | some m =>
      let s := ringWrite s l p (512 * s.ports[p].head + m.bytes) (slice body 8 n)
      let s := updPort s p (fun po => advanceRx po n (bit h 31))
      if bit h 31 && decide (m.first + deadline s.links[l].width (m.bytes + n) < tick s) then linkFault s l 2 else s

/-- A DATA flit met on the fault path is discarded; its message is counted with its last flit (R381). -/
def dropData (s : State) (l : Fin 26) (h : Word) : State :=
  match portOn s l with
  | none => s
  | some p => if bit h 31 then updPort s p (fun po => { po with drops := po.drops + 1 }) else s

/-- A decoded DATA flit: taken in SEQ order, else discarded. -/
def takeData (s : State) (l : Fin 26) (h : Word) (body : List Byte) : State :=
  if s.bind.latch then dropData s l h
  else if fld h 4 12 ≠ s.links[l].rxSeq.toNat then discardGap s l
  else
    let s := updLink s l (fun k =>
      { k with rxSeq := BitVec.ofNat 16 ((k.rxSeq.toNat + 1) % 4096), rxAny := true, discarding := false,
               ackOwed := some (k.ackOwed.getD (tick s)) })
    takeCredit (takePayload s l h body) l h

/-- An uncorrectable flit is counted and discarded. -/
def uncorrectable (s : State) (l : Fin 26) : State :=
  discardGap (updLink s l (fun k => { k with uncorr := k.uncorr + 1 })) l

/-- Receipt of a flit of a type: decoded, its corrected bytes counted (R519), its acknowledgement taken. -/
def recvFlit (s : State) (l : Fin 26) (bytes : List Byte) (type : Nat) (take : State → Word → List Byte → State) : State :=
  if !linkIsUp s l || bytes.length != 256 then s
  else match decodeFlit bytes with
    | none => uncorrectable s l
    | some (body, n) =>
      if flitType body ≠ type then s
      else
        let s := updLink s l (fun k => { k with heardTick := tick s, corrected := k.corrected + BitVec.ofNat 32 n })
        let h := flitHeader body
        take (takeAck s l h) h body

/-- DATA_FLIT (R369). -/
def execDataFlit (link : LinkId) (bytes : List Byte) (s : State) : Host.Outcome State Fault Refusal :=
  .next (recvFlit s link bytes 1 (fun s h b => takeData s link h b))

/-- CTRL_FLIT (R374). -/
def execCtrlFlit (link : LinkId) (bytes : List Byte) (s : State) : Host.Outcome State Fault Refusal :=
  .next (recvFlit s link bytes 2 (fun s h _ => takeCredit s link h))

/-- HEARTBEAT_FLIT (R370). -/
def execHeartbeatFlit (link : LinkId) (bytes : List Byte) (s : State) : Host.Outcome State Fault Refusal :=
  .next (recvFlit s link bytes 0 (fun s h _ => takeCredit s link h))

/-- UNCORRECTABLE_FLIT (R369). -/
def execUncorrectableFlit (link : LinkId) (s : State) : Host.Outcome State Fault Refusal :=
  .next (if linkIsUp s link then uncorrectable s link else s)

/-- MESSAGE_LANDED: every byte of the oldest complete message is in the ring. -/
def messageLanded (p : Fin 26) (s : State) : State :=
  match s.ports[p].rx with
  | [] => s
  | m :: rest =>
    if !(s.pwr.powered && m.complete) then s
    else
      let s := { s with far := m.spill.foldl (fun f c => writeBytes f c.1 [c.2]) s.far }
      updPort s p (fun po =>
        { po with rx := rest, landed := po.landed + 1, landedSizes := po.landedSizes ++ [m.bytes],
                  landedReady := po.landedReady ++ [if po.recvValid then readyFrom s.quires[po.recvQuire % 64] else 0] })

/-- MESSAGE_LANDED (R376). -/
def execMessageLanded (port : LinkId) (s : State) : Host.Outcome State Fault Refusal := .next (messageLanded port s)

/-! ## Timers (R368–R370 R379) -/

/-- REPLAY_TIMEOUT: a flit has stayed unacknowledged for 2 µs after its last transmission. -/
def execReplayTimeout (link : LinkId) (s : State) : Host.Outcome State Fault Refusal :=
  .next (if linkIsUp s link && s.links[link].unacked.any (fun u => decide (u.tick + 2 ≤ tick s)) then replay s link else s)

/-- ACK_TIMEOUT: 1 µs after a DATA receipt a CTRL flit carries the acknowledgement (R368). -/
def execAckTimeout (link : LinkId) (s : State) : Host.Outcome State Fault Refusal :=
  .next (if linkIsUp s link && s.links[link].ackOwed.any (fun t => decide (t + 1 ≤ tick s)) then sendBare s link 2 false else s)

/-- HEARTBEAT_TIMEOUT: a link end that has sent nothing for 1 µs sends a HEARTBEAT (R370). -/
def execHeartbeatTimeout (link : LinkId) (s : State) : Host.Outcome State Fault Refusal :=
  .next (if linkIsUp s link && decide (s.links[link].sentTick + 1 ≤ tick s) then sendBare s link 0 false else s)

/-- SILENCE: no flit decoded for 8 µs, the link goes down (R370). -/
def silenced (l : Fin 26) (s : State) : State :=
  if linkIsUp s l && decide (s.links[l].heardTick + 8 ≤ tick s) then leaveUp (linkFault s l 3) l 0 else s

/-- SILENCE (R370). -/
def execSilence (link : LinkId) (s : State) : Host.Outcome State Fault Refusal := .next (silenced link s)

/-- PROMISE: a message accepted in tick a is not acknowledged by the end of tick a + D + 1. -/
def promiseMissed (p : Fin 26) (s : State) : State :=
  let po := s.ports[p]
  if h : po.phys.toNat < 26 then
    let l : Fin 26 := ⟨po.phys.toNat, h⟩
    if s.pwr.powered && po.tx.any (fun m => decide (m.tick + deadline s.links[l].width m.bytes + 1 < tick s)) then linkFault s l 1 else s
  else s

/-- PROMISE (R379). -/
def execPromise (port : LinkId) (s : State) : Host.Outcome State Fault Refusal := .next (promiseMissed port s)

/-- PARTIAL: a message begun in tick f is not complete by the end of tick f + D; its size is not known before its LAST
flit, so D is here that of the largest message, 64 KiB, and a smaller message is judged at its LAST flit (log entry 22). -/
def partialMissed (p : Fin 26) (s : State) : State :=
  let po := s.ports[p]
  if h : po.phys.toNat < 26 then
    let l : Fin 26 := ⟨po.phys.toNat, h⟩
    let late := po.rx.any (fun m => !m.complete && decide (m.first + deadline s.links[l].width 65536 < tick s))
    if s.pwr.powered && late then linkFault s l 2 else s
  else s

/-- PARTIAL (R379). -/
def execPartialMsg (port : LinkId) (s : State) : Host.Outcome State Fault Refusal := .next (partialMissed port s)

/-- REFERENCE_TIMEOUT: at tick 1,000 of an unreturned loss every required link raises a link fault (R349 R380). -/
def referenceTimeout (s : State) : State :=
  if s.pwr.powered && s.clk.inLoss && tick s == s.clk.lossTick + 1000 then
    (List.finRange 26).foldl (fun s l => linkFault s l 6) s
  else s

/-- REFERENCE_TIMEOUT (R349). -/
def execReferenceTimeout (s : State) : Host.Outcome State Fault Refusal := .next (referenceTimeout s)

/-! ## FAULT flits (R367 R381) -/

/-- The FAULT flit of the incident in progress: the origin's device id, stitch count and class, and the links crossed;
an origin sends 1, the first link (log entry 23). -/
def faultBody (s : State) (r : Raised) : List Byte :=
  let own := r.cls != 5
  let id := if own then s.bind.deviceId else r.originId
  let st := if own then r.tick else r.originStitch.toNat
  let cls := if own then r.cls else r.originClass
  flitBody (packFlds [(0, 4, 4)])
    (bytesLE 4 id.toNat ++ bytesLE 8 st ++ bytesLE 1 cls ++ bytesLE 1 (if own then 1 else r.hops + 1))

/-- One FAULT flit leaves a link. -/
def sendFault (s : State) (l : Fin 26) : State :=
  match s.bind.firstFault with
  | none => s
  | some r => sendFlits s l false [faultBody s r]

/-- The fault path begins on the links: nothing more is accepted, FAULT flits begin on every link that is up. -/
def startFaultFlits (s : State) : State :=
  (List.finRange 26).foldl (fun s l =>
    if linkIsUp s l then sendFault (updLink s l (fun k => { k with faultTick := some (tick s) })) l else s) s

/-- FAULT_FLIT_RESEND: after the first 16 µs one FAULT flit per µs until RESET_COMPUTE. -/
def faultResend (l : Fin 26) (s : State) : State :=
  let k := s.links[l]
  if linkIsUp s l && s.bind.latch && k.faultTick.any (fun t => decide (t + 16 ≤ tick s)) && decide (k.sentTick + 1 ≤ tick s) then
    sendFault s l
  else s

/-- FAULT_FLIT_RESEND (R381). -/
def execFaultFlitResend (link : LinkId) (s : State) : Host.Outcome State Fault Refusal := .next (faultResend link s)

/-- A received FAULT flit: a fault of cause 4 on a required link while the compute part runs, else only recorded. -/
def takeFault (s : State) (l : Fin 26) (body : List Byte) : State :=
  let id := numAt body 8 4
  let req := s.links[l].required
  if req && computeRuns s then
    raiseLink s l
      { cls := 5, quire := none, link := l.val, originClass := numAt body 20 1, originId := BitVec.ofNat 32 id, tick := tick s,
        originStitch := BitVec.ofNat 64 (numAt body 12 8), hops := numAt body 21 1, cause := 4 }
  else updLink s l (fun k => recordLink k 4 (!req) id)

/-- FAULT_FLIT (R381). -/
def execFaultFlit (link : LinkId) (bytes : List Byte) (s : State) : Host.Outcome State Fault Refusal :=
  .next (recvFlit s link bytes 4 (fun s _ b => takeFault s link b))

/-! ## Training (R382–R384 R393) -/

/-- The colophon's lanes that a link must not use (R383 R461). -/
def barredLanes (s : State) (l : Fin 26) : Nat := numAt s.flash.colophon (0x40 + 8 * l.val + 3) 1

/-- The first candidate of R383 that passes: its width code; none is 0. On A0 lanes 6–7 never pass (R515). -/
def trainWidth (a0 : Bool) (lanes : Nat) : Nat :=
  let all := fun m : Nat => lanes &&& m == m
  if all 0xFF then 3
  else if all 0x0F || all 0xF0 then 2
  else if all 0x03 || all 0x0C || all 0x30 || (all 0xC0 && !a0) then 1 else 0

/-- May a link train: its band on, not disabled, the reference present, the module not held (R22), no training in
progress? -/
def mayTrain (s : State) (l : Fin 26) : Bool :=
  bandOn s l && s.clk.present && !s.bind.held && s.links[l].state != 1 && !s.links[l].disabled

/-- A link begins to train. -/
def beginTraining (s : State) (l : Fin 26) : State :=
  if mayTrain s l then
    updLink (leaveUp s l 1) l (fun k => { k with retrains := k.retrains + 1 })
  else s

/-- LINK_TRAINING: training begins, from this end or the peer's. -/
def execLinkTraining (link : LinkId) (s : State) : Host.Outcome State Fault Refusal := .next (beginTraining s link)

/-- Free space of a port's ring in units: after training the peer's credit starts at 0, and the space is granted anew
(R374 R382; log entry 21). -/
def regrant (p : Port) : Port :=
  let held := p.takenBytes + p.landedSizes.foldl (· + ·) 0 + (p.rx.map (·.bytes)).foldl (· + ·) 0
  { p with credit := 0, granted := 0, owed := ringUnits p - ceilDiv held 512 }

/-- What this end reports of a link in the identity stage: the logical id of its module, the port mapped to it (R382
R412). -/
def identityOf (s : State) (l : Fin 26) : Identity :=
  { phys := l.val, deviceId := s.bind.deviceId, port := ((portOn s l).map (·.val)).getD 31, job := s.bind.job }

/-- The identity stage of a link end: its report leaves, SEQ starts at 0 (R382). -/
def Link.startIdentity (id : Identity) (k : Link) : Link :=
  { k with told := some id, txSeq := 0, rxSeq := 0, rxAny := false, unacked := [], ackOwed := none, discarding := false,
           identified := false }

/-- The identity stage runs on a link that is up: the report leaves, SEQ and credits start at 0 and the ring's space is
granted anew; what the link carried is lost (R382 R387; log entry 44). -/
def runIdentity (s : State) (l : Fin 26) : State :=
  let s := updLink s l (Link.startIdentity (identityOf s l))
  let s := match portOn s l with
    | none => s
    | some p => updPort s p (fun po => regrant (dropInFlight true po))
  sendGrant s l

/-- A training ends: up at the first passing width, or down. -/
def endTraining (s : State) (l : Fin 26) (lanes : BitVec 8) : State :=
  let ok := lanes.toNat &&& (255 - barredLanes s l)
  let w := trainWidth (s.bind.stepping == 0) ok
  let told := if w = 0 then none else some (identityOf s l)
  let s := updLink s l (fun k =>
    { k.down (if w = 0 then 0 else 2) with width := w, laneOk := BitVec.ofNat 8 ok, identified := k.identified, told := told,
                                           heardTick := tick s, sentTick := tick s,
                                           faultTick := if s.bind.latch then some (tick s) else none })
  if w = 0 then s
  else
    let s := match portOn s l with
      | none => s
      | some p => updPort s p regrant
    linkAlarm (sendGrant s l) l

/-- LINK_TRAINED (R383). -/
def execLinkTrained (link : LinkId) (lanes : BitVec 8) (s : State) : Host.Outcome State Fault Refusal :=
  .next (if bandOn s link && s.links[link].state == 1 then endTraining s link lanes else s)

/-- BACKGROUND_RETRAIN: every 100 ms each link that is down, and each link up below x8 that is not required. -/
def backgroundRetrain (s : State) : State :=
  if !(s.pwr.powered && tick s != 0 && tick s % 100000 == 0) then s
  else (List.finRange 26).foldl (fun s l =>
    let k := s.links[l]
    if k.state == 0 || (k.state == 2 && k.width != 3 && !k.required) then beginTraining s l else s) s

/-- BACKGROUND_RETRAIN (R384). -/
def execBackgroundRetrain (s : State) : Host.Outcome State Fault Refusal := .next (backgroundRetrain s)

/-- The peer of a port reports what its topology entry names (R387). -/
def identityOk (s : State) (l p : Fin 26) : Bool :=
  let k := s.links[l]
  let po := s.ports[p]
  k.identified && k.peerId == po.peerId && k.peerPort == po.peerPort && k.peerJob == s.bind.job

/-- TRAIN_FLIT: what the peer reports in the identity stage, which it may begin anew on a link that is up; on a required link
another identity is cause 5 (R393). -/
def trainFlit (l : Fin 26) (phys : Nat) (id : BitVec 32) (pp : Nat) (job : Word) (s : State) : State :=
  if !(bandOn s l && (s.links[l].state == 1 || s.links[l].state == 2)) then s
  else
    let s := if s.links[l].state == 2 && s.links[l].identified then runIdentity s l else s
    let s := updLink s l (fun k =>
      { k with peerPhys := phys, peerId := id, peerPort := pp, peerJob := job, identified := true, heardTick := tick s })
    match portOn s l with
    | none => s
    | some p => if s.bind.topoLoaded && !identityOk s l p then linkFault s l 5 else s

/-- TRAIN_FLIT (R382). -/
def execTrainFlit (link : LinkId) (phys : Nat) (deviceId : BitVec 32) (peerPort : Nat) (job : Word) (s : State) :
    Host.Outcome State Fault Refusal := .next (trainFlit link phys deviceId peerPort job s)

end Sys2Proof.Machine
end

