-- ==== Sys2Proof/Machine/Power.lean ====
section
/-! DEFINITION. Power domains, power and thermal limits (R351–R356 R364 R392). -/

namespace Sys2Proof.Machine

/-! ## Power and thermal trips (R354–R356) -/

/-- Records the first trip since the last clear (R357). -/
def recordTrip (s : State) (cause sensor : Nat) : State :=
  if bit s.pwr.trip 0 then s
  else { s with pwr := { s.pwr with trip := packFlds [(0, 1, 1), (1, 2, cause), (3, 5, sensor)] } }

/-- A trip: recorded, and a fault of class POWER. -/
def trip (s : State) (cause sensor : Nat) : State := raiseDie (recordTrip s cause sensor) 1 0 0 0

/-- The sum of the last n samples of input power, in 1/65536 W (R354). -/
def powerSum (p : Pwr) (n : Nat) : Nat := ((p.samples.take n).map (·.toNat)).foldl (· + ·) 0

/-- Does the average over the last n ticks exceed a limit? Ticks before the first sample had no input power. -/
def averageOver (p : Pwr) (n : Nat) (limit : BitVec 16) : Bool := decide (65536 * n * limit.toNat < powerSum p n)

/-- The cause that the samples meet at a tick, in the order of the table (R354). -/
def tripCause (p : Pwr) (now : Nat) : Option Nat :=
  if averageOver p 100 p.peakLimit then some 0
  else if p.overSince.any (fun t => decide (t + 10000 ≤ now)) then some 1
  else if averageOver p 100000 p.sustLimit then some 2
  else none

/-- The tick's sample joins the last 100,000; since when the 100-tick average exceeds the sustained limit. -/
def takeSample (power : BitVec 32) (now : Nat) (p : Pwr) : Pwr :=
  let p := { p with samples := (power :: p.samples).take 100000, sampled := true }
  { p with overSince := if averageOver p 100 p.sustLimit then some (p.overSince.getD now) else none }

/-- POWER_TRIP: the input power of the tick is sampled (R354 R477), once a tick; a met condition trips. -/
def powerTrip (watts fraction : BitVec 16) (s : State) : State :=
  if !s.pwr.powered || s.pwr.sampled then s
  else
    let s := { s with pwr := takeSample (watts ++ fraction) (tick s) s.pwr }
    match tripCause s.pwr (tick s) with
    | none => s
    | some c => trip s c 0

/-- POWER_TRIP (R354). -/
def execPowerTrip (watts fraction : BitVec 16) (s : State) : Host.Outcome State Fault Refusal :=
  .next (powerTrip watts fraction s)

/-- The warning threshold in force, °C (R357). -/
def warnAt (p : Pwr) : Nat := min 104 (max 60 p.warn.toNat)

/-- A sensor's reading of a tick: TEMP and PEAK, and an alarm at or above the warning threshold (R355 R357 R501). -/
def senseTemp (sensor : Fin 24) (temp : BitVec 16) (s : State) : State :=
  let p := s.pwr
  let s := { s with pwr := { p with
    temp := p.temp.set sensor temp,
    tempPeak := if p.tempPeak[sensor].toInt < temp.toInt then p.tempPeak.set sensor temp else p.tempPeak } }
  if (8 * warnAt p : Int) ≤ temp.toInt then
    let s := alarm s 0 sensor.val temp.toNat
    { s with bind := { s.bind with alertN := true } }
  else s

/-- THERMAL_TRIP: a reading at or above 105 °C trips. -/
def thermalTrip (sensor : Fin 24) (temp : BitVec 16) (s : State) : State :=
  if !s.pwr.powered then s
  else
    let s := senseTemp sensor temp s
    if (840 : Int) ≤ temp.toInt then trip s 3 sensor.val else s

/-- THERMAL_TRIP (R355). -/
def execThermalTrip (sensor : Fin 24) (temp : BitVec 16) (s : State) : Host.Outcome State Fault Refusal :=
  .next (thermalTrip sensor temp s)

/-- THERMAL_WARNING (R355): the same reading, judged by the same two thresholds. -/
def execThermalWarning (sensor : Fin 24) (temp : BitVec 16) (s : State) : Host.Outcome State Fault Refusal :=
  .next (thermalTrip sensor temp s)

/-! ## Power domains (R351 R352 R364 R392) -/

/-- The domains that software switches. -/
def softDomains : List Nat := [4, 5, 6, 7, 13]

/-- Is switching off a domain refused (R352)? -/
def refusesOff (s : State) (pd : Nat) : Bool :=
  if pd = 13 then bit s.con.debugCtl 0
  else (List.finRange 26).any (fun l => bandOf l == pd && s.links[l].required)

/-- PD_REQ: the bits taken; a refused bit reads back 1 and is reported. -/
def writePdReq (v : Word) (s : State) : State :=
  let refused := softDomains.filter (fun pd => !bit v pd && bit s.pwr.req pd && refusesOff s pd)
  let req := softDomains.foldl (fun w pd => setFld w pd 1 (b2n (bit v pd || refused.contains pd))) 0
  let s := if refused.isEmpty then s else setW1c 0x20010 1 s
  { s with pwr := { s.pwr with
    req := req, refused := s.pwr.refused || !refused.isEmpty, refusedPd := (refused.getLast?).getD s.pwr.refusedPd } }

/-- PD_REQ (R352). -/
def execPdReq (value : Word) (s : State) : Host.Outcome State Fault Refusal :=
  .next (if mainView s then writePdReq value s else s)

/-- The port of a link leaves the topology (R392). -/
def unmapPort (p : Port) : Port :=
  { p with phys := 31, width := 0, peerPort := 0, peerId := 0, landBase := 0, landSize := 0, head := 0, landed := 0,
           taken := 0, takenBytes := 0, landedReady := [], landedSizes := [], credit := 0, tx := [], rx := [], owed := 0, granted := 0, rxSize := 0 }

/-- No topology is in force on a link; the descriptor of a SET_TOPOLOGY that still waits keeps its port, whose link then fails it
(R364 R387 R392). -/
def unmapLink (s : State) (l : Fin 26) : State :=
  if opcodeRuns s 0x0C then s
  else
    let s := match portOn s l with
      | none => s
      | some p => updPort s p unmapPort
    updLink s l (fun k => { k with port := 31, required := false })

/-- A band domain goes off: its links are down, its endpapers and send buffers lost, no topology in force on its links
(R352 R392; log entry 6). -/
def bandOff (s : State) (pd : Nat) : State :=
  ((List.finRange 26).filter (fun l => bandOf l == pd)).foldl (fun s l =>
    let s := unmapLink (leaveUp s l 0) l
    { s with endpapers := s.endpapers.set l [] }) s

/-- The requested changes of one domain are taken at a tick: off at once, on after 200 ticks. -/
def takeDomain (s : State) (pd : Nat) : State :=
  let want := bit s.pwr.req pd
  let coming := s.pwr.starting.any (fun p => p.1 == pd)
  if want && !pdOn s pd && !coming then
    { s with pwr := { s.pwr with starting := s.pwr.starting ++ [(pd, tick s + 200)] } }
  else if !want && (pdOn s pd || coming) then
    let s := if pd = 13 then s else bandOff s pd
    { s with pwr := { s.pwr with on := s.pwr.on &&& ~~~ (1#30 <<< pd), starting := s.pwr.starting.filter (fun p => p.1 != pd) } }
  else s

/-- Every requested change is taken at a tick (R352). -/
def takeDomains (s : State) : State := softDomains.foldl takeDomain s

/-- POWER_DOMAIN_ON: a domain has completed its 200 ticks. -/
def powerDomainOn (pd : Fin 30) (s : State) : State :=
  if s.pwr.powered && s.pwr.starting.any (fun p => p.1 == pd.val && decide (p.2 ≤ tick s)) then
    { s with pwr := { s.pwr with on := s.pwr.on ||| (1#30 <<< pd.val),
                                 starting := s.pwr.starting.filter (fun p => p.1 != pd.val) } }
  else s

/-- POWER_DOMAIN_ON (R352). -/
def execPowerDomainOn (pd : Fin 30) (s : State) : Host.Outcome State Fault Refusal := .next (powerDomainOn pd s)

end Sys2Proof.Machine
end

