-- ==== Sys2Proof/Machine/Clocks.lean ====
section
/-! DEFINITION. Droop stretches, operating-point changes and the module reference (R118 R119 R345–R350 R353 R357–R361
R512). -/

namespace Sys2Proof.Machine

/-! ## Droop and stretching (R118 R119 R347 R512) -/

/-- The quires of a folio. -/
def folioQuires (f : Fin 16) : List (Fin 64) := allQuires.filter (fun q => q.val / 4 == f.val)

/-- Does a quire of the folio run task 0? -/
def folioRuns (s : State) (f : Fin 16) : Bool := (folioQuires f).any (fun q => s.quires[q].seq.inRun)

/-- The clock edge that a folio stands at: that of its quire furthest on. -/
def folioEdge (s : State) (f : Fin 16) : Nat :=
  ((folioQuires f).filter (fun q => s.quires[q].seq.inRun)).foldl
    (fun a q => max a (((s.quires[q].seq.lc : Int) + s.quires[q].edgeOff).toNat)) 0

/-- The stretched periods of a folio after n entries more in the period of an lc, a period being stretched once; only those of the
last 64 lc are kept (log entry 14). -/
def addStretch (lc n : Nat) (l : List Nat) : List Nat :=
  let e := match l.getLast? with
    | none => lc
    | some p => if lc ≤ p then p + 1 else lc
  (l ++ List.replicate n e).filter (fun p => decide (e < p + 64))

/-- The quires of the echo domain of a folio: its gathering (R118). -/
def echoDomain (s : State) (f : Fin 16) : List (Fin 64) := gatheringQuires s ⟨4 * f.val, by omega⟩

/-- Does a quire of the echo domain run task 0? -/
def domainRuns (s : State) (f : Fin 16) : Bool := (echoDomain s f).any (fun q => s.quires[q].seq.inRun)

/-- The lc in which an echo domain stands, counted on its spine: that of its quire furthest on (R118). -/
def domainLc (s : State) (f : Fin 16) : Nat :=
  let now := dieNow s
  ((echoDomain s f).filter (fun q => s.quires[q].seq.inRun)).foldl
    (fun a q => max a (((reachedLc now s.quires[q] : Int) + s.quires[q].spineOff).toNat)) 0

/-- A quire of the domain stalls for n lc: booked STRETCH during a run; the lc counts stand (R118 R407). One that waits at a
SPLICE stands in any case, and its periods are those of the SPLICE (R408). -/
def stallQuire (n : Nat) (qr : Quire) : Quire :=
  if qr.seq.inRun && qr.rstop.splice.isNone then let qr := bookIdle qr 3 n; { qr with edgeOff := qr.edgeOff + n } else qr

/-- The whole echo domain stalls for n lc, set off by the buffer of boundary b; within a halt the stall is absorbed
(R118 R121). -/
def stretchStall (s : State) (f b : Fin 16) (n : Nat) : State :=
  let dom := echoDomain s f
  if n = 0 || dom.any (fun q => s.quires[q].rstop.halted || s.quires[q].rstop.stalled) then s
  else
    let w := s.spine.boundary[b]
    let s := { s with spine := { s.spine with
      boundary := s.spine.boundary.set b (setFld w 0 32 (satAdd 32 (fld w 0 32) n)) } }
    let s := dom.foldl (fun s q => updQ s q (stallQuire n)) s
    ((List.finRange 16).filter (fun g => dom.any (fun q => q.val / 4 == g.val))).foldl
      (fun s g => traceEvent s g 2 0xFF 0 (folioEdge s g)) s

/-- The boundary after a folio, and the one before it. -/
def boundaryAfter (f : Fin 16) : Fin 16 := f
def boundaryBefore (f : Fin 16) : Fin 16 := f - 1

/-- A boundary's largest drift seen: how far a stretch moves a buffer the spec does not state, so a free value up to the
buffer's half depth stands for it (log entry 4). -/
def noteDrift (s : State) (b : Fin 16) : State :=
  let (v, s) := takeFree s
  let w := s.spine.boundary[b]
  let depth := if bit w 36 then 8 else 4
  { s with spine := { s.spine with
    boundary := s.spine.boundary.set b (setFld w 32 4 (max (fld w 32 4) (v.toNat % (depth + 1)))) } }

/-- A boundary buffer overflows (R119). -/
def overflowAt (s : State) (b : Fin 16) : State :=
  let s := setW1c (0x60010 + 8 * b.val) (maskOf 38 1) s
  { s with spine := { s.spine with boundary := s.spine.boundary.set b (setFld s.spine.boundary[b] 38 1 1) } }

/-- Does a buffer overflow: more than 12 stretched periods in the window, every period stretched from the seventh on, so that
no stall has come between them (R119)? -/
def overflows (l : List Nat) : Bool :=
  let rest := l.drop 6
  decide (12 < l.length) && (List.zipWith (fun a b => decide (b ≤ a + 1)) rest (rest.drop 1)).all id

/-- The effect of n stretched periods on the elastic buffers (R118 R119). DESIGN CHOICE: the spec names neither the boundary that
sets off a stall nor the one that overflows; the stall is booked at one of the two boundaries next to the folio, which a free
value picks, and an overflow is recorded at both (log entry 42). -/
def stretchBuffers (s : State) (f : Fin 16) (n : Nat) : State :=
  let new := addStretch (domainLc s f) n s.spine.stretches[f]
  let s := { s with spine := { s.spine with stretches := s.spine.stretches.set f new } }
  let s := noteDrift (noteDrift s (boundaryAfter f)) (boundaryBefore f)
  let (v, s) := takeFree s
  let b := if v.toNat % 2 = 0 then boundaryAfter f else boundaryBefore f
  let s := stretchStall s f b (min n (new.length - 6))
  if overflows new then raiseDie (overflowAt (overflowAt s (boundaryAfter f)) (boundaryBefore f)) 3 0 0 0 else s

/-- The folio's droop monitor is powered: PD14 to PD29 on. -/
def droopWatched (s : State) (f : Fin 16) : Bool := s.pwr.powered && pdOn s (14 + f.val)

/-- A period of a folio is stretched by a quarter or by a half, and counted; on A0 a stretch by a half takes two entries (R512). -/
def stretchPeriod (f : Fin 16) (half : Bool) (s : State) : State :=
  let s := if half then { s with clk := { s.clk with half := s.clk.half.set f (s.clk.half[f] + 1) } }
           else { s with clk := { s.clk with qtr := s.clk.qtr.set f (s.clk.qtr[f] + 1) } }
  if domainRuns s f then stretchBuffers s f (if half && s.bind.stepping == 0 then 2 else 1) else s

/-- DROOP_STRETCH: a droop in mV below nominal against the two thresholds in force. -/
def droopStretch (f : Fin 16) (droop : Nat) (s : State) : State :=
  if !droopWatched s f then s
  else if fld s.clk.droopActive 8 8 < droop then stretchPeriod f true s
  else if fld s.clk.droopActive 0 8 < droop then stretchPeriod f false s else s

/-- DROOP_STRETCH (R347). -/
def execDroopStretch (folio : FolioId) (droop : Nat) (s : State) : Host.Outcome State Fault Refusal :=
  .next (droopStretch folio droop (catchUp s))

/-! ## Register words -/

/-- CLK.OP_STATUS (R357). -/
def opStatusWord (c : Clk) : Word :=
  packFlds [(0, 3, c.current), (3, 3, c.target), (6, 1, b2n c.opPending), (7, 2, c.source), (9, 3, c.cap),
    (12, 1, b2n c.resetStep)]

/-- CLK.REF (R357). -/
def refWord (c : Clk) : Word :=
  packFlds [(0, 1, b2n c.lost), (1, 1, b2n c.present), (16, 16, c.losses.toNat), (32, 16, c.lastTicks.toNat)]

/-! ## Operating-point changes (R344 R345 R353 R361) -/

/-- A change waits for a kettle count. -/
def Clk.schedule (c : Clk) (target : Nat) (kettle : Nat) : Clk :=
  { c with target := target, opPending := true, kettle := BitVec.ofNat 64 kettle }

/-- No change waits. -/
def Clk.settle (c : Clk) : Clk := { c with target := c.current, opPending := false, kettle := 0, pendSource := none }

/-- The status of a RESET_COMPUTE that has done its work (R471 R472). -/
def resetStatus (s : State) : Nat := if s.bind.latch then 0x0E else 0x00

/-- The commands that end with the change at hand: SET_OPERATING_POINT, and RESET_COMPUTE once its clearing step is done
(R344 R353 R361). -/
def answerChange (s : State) (status : Nat) : State :=
  if s.bind.resetTick.isSome then s
  else answerCmds (answerCmds s (fun c => c.opcode == 0x0B) status 0 0) (fun c => c.opcode == 0x0E) (resetStatus s) 0 0

/-- The clock root after the pending change (R345 R349 R350 R353). -/
def Clk.change (c : Clk) (inReset : Bool) (now : Nat) : Clk :=
  let c' := { c with current := c.target, source := c.pendSource.getD c.source, resetStep := inReset }
  let c' := c'.settle
  match c.pendSource, c.restore with
  | some 0, some r => if inReset then c' else { c'.schedule r (now + 64) with restore := none }
  | _, _ => c'

/-- OPERATING_POINT_CHANGE: at its kettle count the pending change takes effect. -/
def operatingPointChange (s : State) : State :=
  if !(s.pwr.powered && s.clk.opPending && decide (s.clk.kettle.toNat ≤ tick s)) then s
  else
    let s := { s with clk := s.clk.change s.bind.resetTick.isSome (tick s) }
    answerChange s 0x00

/-- OPERATING_POINT_CHANGE (R345). -/
def execOperatingPointChange (s : State) : Host.Outcome State Fault Refusal := .next (operatingPointChange s)

/-! ## The module reference (R348–R350 R359) -/

/-- REFERENCE_LOSS: the loss is declared, a pending change is cancelled. -/
def referenceLoss (s : State) : State :=
  if !(s.pwr.powered && s.clk.present) then s
  else
    let s := setW1c 0x10018 1 s
    let c := s.clk
    let c := { c with lost := true, present := false, inLoss := true, losses := c.losses + 1, lossTick := tick s }
    let c := if c.source = 0 then { c with source := 1, restore := some c.current } else c
    let pend := c.opPending
    let s := { s with clk := if pend then c.settle else c }
    let s := if pend then answerChange s 0x09 else s
    alarm s 1 0 ((refWord s.clk).toNat % 2 ^ 32)

/-- REFERENCE_LOSS (R348). -/
def execReferenceLoss (s : State) : Host.Outcome State Fault Refusal := .next (referenceLoss s)

/-- HOLDOVER_EXPIRY: 100 ticks after the loss the bindery sets kettle count 164 for the internal oscillator. -/
def holdoverExpiry (s : State) : State :=
  let c := s.clk
  if !(s.pwr.powered && c.source == 1 && decide (c.lossTick + 100 ≤ tick s) && c.pendSource != some 2) then s
  else { s with clk := { c.schedule (max c.current 5) (c.lossTick + 164) with pendSource := some 2 } }

/-- HOLDOVER_EXPIRY (R349). -/
def execHoldoverExpiry (s : State) : Host.Outcome State Fault Refusal := .next (holdoverExpiry s)

/-- The clock root when the reference has returned: in holdover the running core relocks; later the idle core locks to
the reference, and takes over 64 ticks ahead (R350). -/
def Clk.returned (c : Clk) (now : Nat) : Clk :=
  let ago := if c.inLoss then BitVec.ofNat 16 (min 0xFFFF (now - c.lossTick)) else c.lastTicks
  let c := { c with present := true, inLoss := false, lastTicks := ago }
  if c.source = 1 && c.pendSource.isNone then { c with source := 0, restore := none }
  else { c.schedule c.current (now + 64) with pendSource := some 0 }

/-- REFERENCE_RETURN: the reference has been within its window for 16 ticks, which a loss, or the power-on without it, comes
before. -/
def referenceReturn (s : State) : State :=
  if !s.pwr.powered || s.clk.present || decide (tick s < s.clk.lossTick + 16) then s
  else
    let s := { s with clk := s.clk.returned (tick s) }
    alarm s 1 1 ((refWord s.clk).toNat % 2 ^ 32)

/-- REFERENCE_RETURN (R350). -/
def execReferenceReturn (s : State) : Host.Outcome State Fault Refusal := .next (referenceReturn s)

/-- DROOP_CFG: a write outside either range leaves the register unchanged; an accepted one is in force from the next tick on. -/
def writeDroopCfg (v : Word) (s : State) : State :=
  let t1 := fld v 0 8
  let t2 := fld v 8 8
  if 20 ≤ t1 && t1 ≤ 120 && t1 + 10 ≤ t2 && t2 ≤ 150 then
    { s with clk := { s.clk with droopCfg := setFld (setFld 0 0 8 t1) 8 8 t2 } }
  else s

/-- DROOP_CFG (R357). -/
def execDroopCfg (value : Word) (s : State) : Host.Outcome State Fault Refusal :=
  .next (if mainView s then writeDroopCfg value s else s)

end Sys2Proof.Machine
end

