-- ==== Sys2Proof/Machine/HostPort.lean ====
section
/-! DEFINITION. What the host does at the module's PCI Express port: BAR4, resets, doorbells and their masks, rings,
heartbeat and fences (file 16, R397 R398 R499 R501). -/

namespace Sys2Proof.Machine

/-! ## PCI Express function (R420 R421 R444 R499) -/

/-- The PCI Express function: its configuration, fixed (R420). Rates are generations, widths numbers of lanes. -/
structure PcieFunction where
  rates : List Nat
  widths : List Nat
  functions : Nat
  classCode : Nat
  msixVectors : Nat
  maxPayload : Nat                -- bytes of one memory write request
  maxRead : Nat                   -- bytes of one memory read request
  tagBits : Nat
deriving DecidableEq, Repr

/-- The function of the module (R420). -/
def pcieFunction : PcieFunction :=
  { rates := [1, 2, 3, 4, 5, 6, 7], widths := [4, 2, 1], functions := 1, classCode := 0x120000, msixVectors := 32,
    maxPayload := 512, maxRead := 4096, tagBits := 10 }

/-- A command whose copy-engine request is still open (R441). -/
def requestOpen (c : Cmd) : Bool := c.st == .running && bit (BitVec.ofNat 64 c.pkt.flags.toNat) 1 && c.host.isNone

/-- PERST_N_ASSERT: the function is held in reset; open copy-engine requests end with HOST_ERROR. -/
def perstAssert (s : State) : State :=
  answerCmds { s with host := { s.host with perst := true, linkUp := false } } requestOpen 0x0F 0 0

/-- PERST_N_ASSERT (R499). -/
def execPerstAssert (s : State) : Host.Outcome State Fault Refusal := .next (perstAssert s)

/-- PERST_N_RELEASE: the MSI-X table is at its reset values, the function in D0 and the link trains. -/
def perstRelease (s : State) : State :=
  if !s.host.perst then s
  else { s with host := { s.host with
    perst := false, linkUp := s.pwr.powered, d3hot := false, aer := false, msixAddr := Vector.replicate 32 0,
    msixData := Vector.replicate 32 0, msixMask := Vector.replicate 32 true } }

/-- PERST_N_RELEASE (R499). -/
def execPerstRelease (s : State) : Host.Outcome State Fault Refusal := .next (perstRelease s)

/-- PCI_EXPRESS_LINK_DOWN (R444). -/
def execPcieLinkDown (s : State) : Host.Outcome State Fault Refusal :=
  .next { s with host := { s.host with linkUp := false } }

/-- D3HOT: the function moves between D0 and D3hot (R420 R444). -/
def execD3hot (enter : Bool) (s : State) : Host.Outcome State Fault Refusal :=
  .next (if s.pwr.powered && s.host.linkUp && !s.host.perst then { s with host := { s.host with d3hot := enter } } else s)

/-- Is a request inside the BARs, of a legal width and alignment (R14 R421 R422)? -/
def requestLegal (r : HostRequest) : Bool :=
  let size := match r.bar.val with | 0 => 2 ^ 26 | 2 => 2 ^ 16 | 4 => 2 ^ 34 | _ => 0
  decide (r.offset + r.width ≤ size) && (r.bar == 4 || ((r.width == 4 || r.width == 8) && r.offset % r.width == 0))

/-- Does a request lie outside the three BARs? -/
def requestOutside (r : HostRequest) : Bool :=
  let size := match r.bar.val with | 0 => 2 ^ 26 | 2 => 2 ^ 16 | 4 => 2 ^ 34 | _ => 0
  !decide (r.offset + r.width ≤ size)

/-- UNSUPPORTED_REQUEST: answered with an unsupported-request completion; outside the BARs also logged through AER. -/
def unsupportedRequest (r : HostRequest) (s : State) : State :=
  if !hostReach s || requestLegal r then s
  else { s with out := { s.out with unsupported := true },
                host := { s.host with aer := s.host.aer || requestOutside r } }

/-- UNSUPPORTED_REQUEST (R14 R421). -/
def execUnsupportedRequest (req : HostRequest) (s : State) : Host.Outcome State Fault Refusal :=
  .next (unsupportedRequest req s)

/-! ## BAR4 (R425 R426 R467 R491) -/

/-- The far address of segment k; on the recovery path segment 0 alone is mapped, to 0x9_0000_0000. -/
def segBase (s : State) (k : Nat) : Option Nat :=
  if s.host.recovery then (if k = 0 then some 0x9_0000_0000 else none) else some (fld s.host.bar4Seg (4 * k) 4 * 2 ^ 32)

/-- The part of [off, off + n) in segment k: where it begins in the request, its offset in the segment, its length. -/
def segPart (off n k : Nat) : Nat × Nat × Nat :=
  let lo := max off (k * 2 ^ 32)
  let hi := min (off + n) ((k + 1) * 2 ^ 32)
  (lo - off, lo - k * 2 ^ 32, hi - lo)

/-- BAR4_WRITE: the bytes go to the far memory that the segments map. -/
def bar4Write (off : Nat) (bytes : List Byte) (s : State) : State :=
  if !hostReach s || decide (2 ^ 34 < off + bytes.length) then s
  else (List.range 4).foldl (fun s k =>
    let p := segPart off bytes.length k
    match segBase s k with
    | some b => if p.2.2 = 0 then s else farWriteShared s (b + p.2.1) ((bytes.drop p.1).take p.2.2)
    | none => s) s

/-- BAR4_WRITE (R426). -/
def execBar4Write (offset : Nat) (bytes : List Byte) (s : State) : Host.Outcome State Fault Refusal :=
  .next (bar4Write offset bytes s)

/-- The bytes of a BAR4 range, each segment's part behind those before it. -/
def bar4Bytes (off n : Nat) (s : State) : List Byte × State :=
  (List.range 4).foldl (fun r k =>
    let p := segPart off n k
    match segBase s k with
    | some b =>
      let got := farRead r.2 [] (b + p.2.1) p.2.2
      (r.1 ++ got.1, got.2)
    | none => (r.1 ++ List.replicate p.2.2 0, r.2)) ([], s)

/-- BAR4_READ: the last write to each byte received before the read (R426), of a beat that a stream write is changing the old
or the new bytes (R193). -/
def bar4Read (off n : Nat) (s : State) : State :=
  if !hostReach s || decide (2 ^ 34 < off + n) then s
  else
    let r := bar4Bytes off n s
    { r.2 with out := { r.2.out with read := r.1, unsupported := false } }

/-- BAR4_READ (R426). -/
def execBar4Read (offset : Nat) (length : Nat) (s : State) : Host.Outcome State Fault Refusal :=
  .next (bar4Read offset length s)

/-- The segment bases with the legal fields of a write taken. -/
def segWrite (old v : Word) : Word :=
  (List.range 4).foldl (fun w k => if fld v (4 * k) 4 ≤ 11 then setFld w (4 * k) 4 (fld v (4 * k) 4) else w) old

/-- BAR4_SEG: a field of 12 to 15 stays unchanged (R450). -/
def execBar4Seg (value : Word) (s : State) : Host.Outcome State Fault Refusal :=
  .next (if mainView s then { s with host := { s.host with bar4Seg := segWrite s.host.bar4Seg value } } else s)

/-! ## Rings (R427 R428 R450 R451) -/

/-- The indices of a ring. -/
def cmdProd (s : State) (r : Fin 4) : Nat := fld s.host.ringPtr[r] 0 16
def cmdCons (s : State) (r : Fin 4) : Nat := fld s.host.ringPtr[r] 16 16
def stsProd (s : State) (r : Fin 4) : Nat := fld s.host.ringPtr[r] 32 16
def stsCons (s : State) (r : Fin 4) : Nat := fld s.host.ringPtr[r] 48 16

/-- Entries of a ring. -/
def ringSize (s : State) (r : Fin 4) : Nat := 2 ^ fld s.host.ringCfg[r] 4 4

/-- Is a ring enabled? -/
def ringOn (s : State) (r : Fin 4) : Bool := bit s.host.ringCfg[r] 0

/-- Packets that wait in a ring. -/
def ringFill (s : State) (r : Fin 4) : Nat := (cmdProd s r + 65536 - cmdCons s r) % 65536

/-- A producer index beyond the ring size: ERR set, EN cleared, the indices left, DB07 rung (R428). -/
def ringCheck (s : State) (r : Fin 4) : State :=
  if ringOn s r && s.host.active[r] && decide (ringSize s r < ringFill s r) then
    let c := setFld (setFld s.host.ringCfg[r] 0 1 0) 1 1 1
    ringHost (setW1c (0x30008 + 8 * r.val) 2 { s with host := { s.host with ringCfg := s.host.ringCfg.set r c } }) 7
  else s

/-- The bell of a ring is sampled: it is active until CMD_CONS equals CMD_PROD (R429 R451). -/
def ringBell (s : State) (r : Fin 4) : State :=
  ringCheck { s with host := { s.host with active := s.host.active.set r (ringFill s r != 0) } } r

/-- Does either ring, as configured, reach at or beyond 48 GiB (R450 R490)? -/
def ringsFit (cfg : Word) : Bool :=
  let n := 2 ^ fld cfg 4 4
  decide (fld cfg 8 24 * 4096 + n * 64 ≤ 48 * 2 ^ 30) && decide (fld cfg 32 24 * 4096 + n * 32 ≤ 48 * 2 ^ 30)

/-- The configuration after a write: fields held while EN = 1, ERR cleared by 1, EN only where the sizes are legal. -/
def ringCfgAfter (old v : Word) : Word :=
  let w := if bit old 0 then old else setFld (setFld (setFld old 4 4 (fld v 4 4)) 8 24 (fld v 8 24)) 32 24 (fld v 32 24)
  let w := if bit v 1 then setFld w 1 1 0 else w
  let ok := 6 ≤ fld w 4 4 && fld w 4 4 ≤ 12 && ringsFit w
  setFld w 0 1 (b2n (bit v 0 && (bit old 0 || ok)))

/-- RING_CFG: a write with EN 0 zeroes the ring's indices; commands it had in progress are answered nowhere (log entry
24). -/
def writeRingCfg (r : Fin 4) (v : Word) (s : State) : State :=
  let s := { s with host := { s.host with ringCfg := s.host.ringCfg.set r (ringCfgAfter s.host.ringCfg[r] v) } }
  if bit v 0 then s
  else
    { s with
      host := { s.host with ringPtr := s.host.ringPtr.set r 0, ahead := s.host.ahead.set r [], active := s.host.active.set r false },
      bind := { s.bind with cmds := s.bind.cmds.map (fun c => if c.ring == r then { c with mute := true } else c) } }

/-- A host write of RING_CFG: ERR clears where it was set when the tick began (R14 R450). -/
def hostRingCfg (r : Fin 4) (v : Word) (s : State) : State :=
  let a := 0x30008 + 8 * r.val
  setW1c a (v &&& 2) (writeRingCfg r (setFld v 1 1 (fld (clears s a v) 1 1)) s)

/-- RING_CFG (R450). -/
def execRingCfg (ring : Fin 4) (value : Word) (s : State) : Host.Outcome State Fault Refusal :=
  .next (if mainView s then hostRingCfg ring value s else s)

/-! ## Doorbells (R442–R446 R454) -/

/-- A flag towards the host of a bit that the recovery path does not take: no alarm is written there (R444 R467). -/
def flagRecovery (s : State) (n : Fin 32) : State := ringHostRaw (setTimeout s n) 6

/-- The bindery samples host doorbell n: a ring bell, or a relay to the routed quires; on the recovery path the bit
stays set and the host is flagged (R442 R444 R445 R454). -/
def sampleIn (s : State) (n : Fin 32) : State :=
  if s.host.recovery then
    flagRecovery { s with host := { s.host with dbIn := s.host.dbIn ||| (1#32 <<< n.val),
                                                dbInSince := s.host.dbInSince.set n (tick s) } } n
  else
    let s := { s with host := { s.host with dbIn := s.host.dbIn &&& ~~~ (1#32 <<< n.val) } }
    if h : n.val < 4 then ringBell s ⟨n.val, h⟩
    else
      let route := s.mbox.route[n]
      allQuires.foldl (fun s q => if route.toNat.testBit q.val then ringQuire s q n else s) s

/-- Bit n arrives: a masked one is held, and so is one that comes before READY (R443 R460). -/
def arriveIn (s : State) (n : Fin 32) : State :=
  if s.host.dbInMask.toNat.testBit n.val || !(firmwareRuns s || s.host.recovery) then
    { s with host := { s.host with dbIn := s.host.dbIn ||| (1#32 <<< n.val) } }
  else sampleIn s n

/-- The host rings bit n: a reserved bit is discarded, one that is set already stays set (R442 R443). -/
def ringIn (s : State) (n : Fin 32) : State :=
  if (4 ≤ n.val && n.val ≤ 7) || s.host.dbIn.toNat.testBit n.val then s else arriveIn s n

/-- The host rings every bit of a mask, in increasing order (R448). -/
def ringMask (v : BitVec 32) (s : State) : State :=
  (List.finRange 32).foldl (fun s n => if v.toNat.testBit n.val then ringIn s n else s) s

/-- DB_IN_SET (R443). -/
def execDbInSet (value : BitVec 32) (s : State) : Host.Outcome State Fault Refusal :=
  .next (if hostReach s then ringMask value s else s)

/-- A write of the host-to-bindery mask: held bits whose mask bit it clears are delivered. -/
def writeInMask (v : BitVec 32) (s : State) : State :=
  let held := s.host.dbIn &&& s.host.dbInMask &&& ~~~ v
  let s := { s with host := { s.host with dbInMask := v } }
  (List.finRange 32).foldl (fun s n => if held.toNat.testBit n.val then arriveIn s n else s) s

/-- The bindery samples every bit that waits and is not masked (R454 R460). -/
def sampleHeld (s : State) : State :=
  let held := s.host.dbIn &&& ~~~ s.host.dbInMask
  (List.finRange 32).foldl (fun s n => if held.toNat.testBit n.val then sampleIn s n else s) s

/-- DB_IN_MASK (R443). -/
def execDbInMask (value : BitVec 32) (s : State) : Host.Outcome State Fault Refusal :=
  .next (if mainView s then writeInMask value s else s)

/-- The host's clear of doorbells, and with them of OUT_SRC (R445). -/
def clearOut (v : BitVec 32) (s : State) : State :=
  { s with host := { s.host with dbOut := s.host.dbOut &&& ~~~ v },
           mbox := { s.mbox with outSrc := Vector.ofFn (fun n : Fin 32 =>
             if n.val ≥ 8 && v.toNat.testBit n.val then 0 else s.mbox.outSrc[n]) } }

/-- Both masks of a vector are clear: its pending message goes out if the bit is still set (R446). -/
def releaseMsix (s : State) (n : Fin 32) : State :=
  if s.host.msixPending.toNat.testBit n.val && !s.host.msixMask[n] && !s.host.dbOutMask.toNat.testBit n.val then
    if s.host.dbOut.toNat.testBit n.val then sendMsix s n
    else { s with host := { s.host with msixPending := s.host.msixPending &&& ~~~ (1#32 <<< n.val) } }
  else s

/-- A held bit toward the host is delivered: its timer starts, its message goes out (R443 R446). -/
def deliverOut (s : State) (n : Fin 32) : State :=
  let s := releaseMsix s n
  if s.host.dbOut.toNat.testBit n.val then
    checkHost { s with host := { s.host with dbOutSince := s.host.dbOutSince.set n (tick s) } } n
  else s

/-- A write of the bindery-to-host mask: bits whose mask bit it clears are delivered. -/
def writeOutMask (v : BitVec 32) (s : State) : State :=
  let opened := s.host.dbOutMask &&& ~~~ v
  let s := { s with host := { s.host with dbOutMask := v } }
  (List.finRange 32).foldl (fun s n => if opened.toNat.testBit n.val then deliverOut s n else s) s

/-- DB_OUT_MASK (R446). -/
def execDbOutMask (value : BitVec 32) (s : State) : Host.Outcome State Fault Refusal :=
  .next (if mainView s then writeOutMask value s else s)

/-- A vector is unmasked in the MSI-X table (R446). -/
def unmaskVector (n : Fin 32) (s : State) : State :=
  releaseMsix { s with host := { s.host with msixMask := s.host.msixMask.set n false } } n

/-- MSIX_VECTOR_UNMASK (R446). -/
def execMsixVectorUnmask (vector : Fin 32) (s : State) : Host.Outcome State Fault Refusal :=
  .next (if mainView s then unmaskVector vector s else s)

/-- The bindery takes bits that a quire has rung: 0 to 7 are latched in QFLAG, the others relayed to the host with the
quire noted in OUT_SRC (R442 R445). -/
def takeQuireBit (q : Fin 64) (s : State) (n : Fin 32) : State :=
  let s := updQ s q (fun qr => { qr with dbFromQuire := qr.dbFromQuire &&& ~~~ (1#32 <<< n.val) })
  if n.val < 8 then
    updQ (setW1c (0x40380 + 8 * q.val) (maskOf n.val 1) s) q (fun qr => { qr with qflag := setFld qr.qflag n.val 1 1 })
  else
    ringHost { s with mbox := { s.mbox with outSrc := s.mbox.outSrc.set n (s.mbox.outSrc[n] ||| (1#64 <<< q.val)) } } n

/-- The delivered bits of a quire toward the bindery: rung and not masked. -/
def deliveredFrom (qr : Quire) : BitVec 32 := qr.dbFromQuire &&& ~~~ (BitVec.ofNat 32 (fld qr.qmask 0 32))

/-- The bindery takes every delivered bit of a quire, in increasing order (R448). -/
def takeQuireBits (q : Fin 64) (s : State) : State :=
  let v := deliveredFrom s.quires[q]
  (List.finRange 32).foldl (fun s n => if v.toNat.testBit n.val then takeQuireBit q s n else s) s

/-- QUIRE_DOORBELL (R445). -/
def execQuireDoorbell (q : QuireId) (s : State) : Host.Outcome State Fault Refusal :=
  .next (if s.pwr.powered && !s.host.recovery then takeQuireBits q s else s)

/-- A held bit toward a quire is delivered: its timer starts (R443). -/
def deliverToQuire (q : Fin 64) (s : State) (n : Fin 32) : State :=
  if s.quires[q].dbToQuire.toNat.testBit n.val then
    checkQuire (updQ s q (fun qr => { qr with dbToSince := qr.dbToSince.set n (tick s) })) q n
  else s

/-- A write of a quire's mask: bits whose mask bit it clears are delivered. -/
def writeQmask (q : Fin 64) (v : Word) (s : State) : State :=
  let old := s.quires[q].qmask
  let s := updQ s q (fun qr => { qr with qmask := v })
  let opened := fld (old &&& ~~~ v) 32 32
  let s := (List.finRange 32).foldl (fun s n => if opened.testBit n.val then deliverToQuire q s n else s) s
  takeQuireBits q s

/-- QMASK (R443). -/
def execQmask (q : QuireId) (value : Word) (s : State) : Host.Outcome State Fault Refusal :=
  .next (if mainView s then writeQmask q value s else s)

/-- DB_TIMEOUT: a delivered bit is still set at the end of tick t + 20; its sender is flagged (R444 R445). -/
def dbTimeout (db : DoorbellAt) (s : State) : State :=
  if !s.pwr.powered then s
  else match db with
  | .fromHost n =>
    if s.host.recovery && s.host.dbIn.toNat.testBit n.val && !s.host.dbInMask.toNat.testBit n.val
        && tick s == s.host.dbInSince[n] + 20 then flagRecovery s n
    else s
  | .toHost n =>
    if n.val ≥ 8 && s.host.dbOut.toNat.testBit n.val && !s.host.dbOutMask.toNat.testBit n.val
        && tick s == s.host.dbOutSince[n] + 20 then flagQuires s s.mbox.outSrc[n]
    else s
  | .toQuire q n =>
    let qr := s.quires[q]
    if n.val ≥ 8 && qr.dbToQuire.toNat.testBit n.val && !(fld qr.qmask 32 32).testBit n.val
        && tick s == qr.dbToSince[n] + 20 then flagHost s n
    else s
  | .fromQuire q n =>
    let qr := s.quires[q]
    if (deliveredFrom qr).toNat.testBit n.val && tick s == qr.dbFromSince[n] + 20 then ringQuireRaw s q 7 else s

/-- DB_TIMEOUT (R444). -/
def execDbTimeout (db : DoorbellAt) (s : State) : Host.Outcome State Fault Refusal := .next (dbTimeout db s)

/-- HEARTBEAT: every write is a heartbeat and sets the limit (R444 R450). -/
def writeHeartbeat (v : BitVec 32) (s : State) : State :=
  { s with host := { s.host with heartbeat := v, beatTick := some (tick s) } }

/-- HEARTBEAT (R444). -/
def execHeartbeat (value : BitVec 32) (s : State) : Host.Outcome State Fault Refusal :=
  .next (if mainView s then writeHeartbeat value s else s)

/-- The reads of a quire that no fence holds are released (R397). -/
def releaseReads (s : State) (qr : Quire) : Quire :=
  setLandings qr (qr.stream.landings.map (fun l => { l with released := l.released || !fenceHolds s l.faddr (512 * l.len) }))

/-- A fence write; every BAR4 write received before it is in far memory, and it releases the reads that it covers (R397 R398). -/
def writeFence (w : Fin 4) (v : Word) (s : State) : State :=
  let s := { s with hostin := { s.hostin with fence := s.hostin.fence.set w (setFld 0 0 20 (fld v 0 20)) } }
  updAllQ s (fun _ => releaseReads s)

/-- FENCE (R397). -/
def execFence (window : Fin 4) (value : Word) (s : State) : Host.Outcome State Fault Refusal :=
  .next (if mainView s then writeFence window value s else s)

end Sys2Proof.Machine
end

