-- ==== Sys2Proof/Machine/Vector.lean ====
section
/-! DEFINITION. VOP: the vector descriptor, its checks, and the issue of an operation (file 07). -/

namespace Sys2Proof.Machine

/-! ## Descriptor and operand words (R196 R197) -/

/-- Reads words 0 and 5 of a vector descriptor (R196). -/
def parseVec (bs : List Byte) : VecDesc :=
  let w0 := dword bs 0
  let w5 := dword bs 5
  { op := fld w0 0 5, red := fld w0 5 3, lineScope := bit w0 8, toReg := bit w0 9, sreg := fld w0 10 5,
    dEn := bit w0 15, rnd := fld w0 16 2, ledger := fld w0 24 8, nIn := fld w0 32 16, nOut := fld w0 48 16,
    pace := 2 ^ fld w5 0 2, redSpad := fld w5 2 2, redRow := fld w5 16 16, tabRow := fld w5 32 16 }

/-- Reads operand word w of a descriptor. -/
def parseOperand (bs : List Byte) (w : Nat) : OperandWord :=
  let o := dword bs w
  { raw := o, kind := fld o 0 2, spad := fld o 2 2, fmt := fld o 4 3, hpEn := bit o 7, hp := fld o 8 3,
    side := bit o 11, row := fld o 16 16, stride := fld o 32 16, sc := fld o 48 16 }

/-- Every field of an operand word is legal by itself (R197). -/
def operandLegal (o : OperandWord) : Bool :=
  match o.kind with
  | 0 => o.spad != 3 && o.fmt != 7 && fld o.raw 12 4 == 0
      && (match o.fmt with | 1 | 2 => decide (o.sc < 256) | 3 | 5 => true | _ => o.sc == 0)
  | 1 => (o.raw &&& ~~~ (maskOf 0 2 ||| maskOf 16 5)) == 0
  | 2 => (o.raw &&& ~~~ (maskOf 0 2 ||| maskOf 16 32)) == 0
  | _ => o.spad != 3 && o.fmt == 4 && fld o.raw 12 4 == 0 && o.sc == 0

/-- Kinds and formats of a source A, B or C of FMA (R201). -/
def sourceOk (o : OperandWord) : Bool := operandLegal o && (o.kind != 0 || o.fmt ≤ 4)

/-- Kinds and formats of D (R201). -/
def destOperandOk (op : Nat) (o : OperandWord) : Bool :=
  operandLegal o && o.kind == 0 && (if isCmp op then o.fmt == 6 else o.fmt != 6)

/-- The checks of fields, operands and roles (R196 R197 R201 R207). -/
def vecLegal (bs : List Byte) (d : VecDesc) (a b c o : OperandWord) : Bool :=
  d.op ≤ 19 && d.red ≤ 4 && !(d.toReg && d.lineScope) && d.rnd ≤ 1 && d.nIn != 0 && d.nOut != 0 && d.redSpad != 3
    && zeroField bs 0 18 6 && zeroField bs 5 4 12 && zeroField bs 5 48 16 && zeroField bs 6 0 64 && zeroField bs 7 0 64
    && (d.dEn || d.red != 0)
    && sourceOk a
    && (if usesB d.op then sourceOk b else b.raw == 0)
    && (if d.op == 19 then operandLegal c && c.kind == 0 && c.fmt == 6
        else if usesC d.op then sourceOk c else c.raw == 0)
    && (if d.dEn then destOperandOk d.op o && (decide (d.nOut ≤ 1) || decide (rowsPerLine o.fmt d.nIn ≤ o.stride))
        else o.raw == 0)
    && (a.kind == 0 || (usesB d.op && b.kind == 0) || (usesC d.op && c.kind == 0) || d.dEn)

/-! ## Resolved operands (R198 R199 R279) -/

/-- An operand that is not used. -/
def VecSrc.absent : VecSrc :=
  { used := false, kind := 2, spad := 0, fmt := 4, row := 0, base := 0, stride := 0, scale := 0, scRow := 0,
    scBase := 0, value := 0 }

/-- Resolves an operand: offset added, half-pair applied, scalar read; none where the half-pair is of another
scratchpad. -/
def resolveOperand (s : State) (q : Fin 64) (t : Fin 4) (o : OperandWord) (off : Nat) : Option VecSrc :=
  let tk := s.quires[q].seq.tasks[t]
  match o.kind with
  | 1 => some { VecSrc.absent with used := true, kind := 1,
                                   value := BitVec.ofNat 32 (srcReg s q t (fld o.raw 16 5)).toNat }
  | 2 => some { VecSrc.absent with used := true, kind := 2, value := BitVec.ofNat 32 (fld o.raw 16 32) }
  | k =>
    let r := addOff o.row off
    let rr := if o.hpEn then hpRow tk o.hp o.side r o.spad else some r
    rr.map (fun row =>
      { used := true, kind := k, spad := o.spad, fmt := o.fmt, row := row, base := tk.spadBase o.spad + row,
        stride := o.stride, scale := o.sc % 256, scRow := o.sc, scBase := tk.spadBase o.spad + o.sc, value := 0 })

/-- Element rows from the first row of an operand to its last, both counted (R198). -/
def operandSpan (d : VecDesc) (v : VecSrc) : Nat := (d.nOut - 1) * v.stride + rowsPerLine v.fmt d.nIn

/-- Every row and scale row of an operand lies within the task's bounds (R169 R198 R199). -/
def operandBoundsOk (tk : Task) (d : VecDesc) (v : VecSrc) : Bool :=
  if !v.used || v.kind = 1 || v.kind = 2 then true
  else if v.kind = 3 then tk.spadOk v.spad v.row (ceilDiv d.nOut 128)
  else
    let span := operandSpan d v
    tk.spadOk v.spad v.row span
      && (scalesPerRow v.fmt == 0 || tk.spadOk v.spad v.scRow (ceilDiv (span * scalesPerRow v.fmt) 512))

/-- Bound checks of an operation (R212). -/
def vecBoundsOk (tk : Task) (d : VecDesc) (a b c o : VecSrc) : Bool :=
  operandBoundsOk tk d a && operandBoundsOk tk d b && operandBoundsOk tk d c && operandBoundsOk tk d o
    && (d.red == 0 || d.toReg || tk.spadOk d.redSpad d.redRow (if d.lineScope then ceilDiv d.nOut 128 else 1))
    && (d.op != 15 || tk.spadOk 1 d.tabRow 2)

/-! ## VOP -/

/-- An operation as it starts. -/
def newVecOp (p : VecPlan) : VecOp :=
  { plan := p, n := 0, tab := [], held := [], codes := [], scs := [], scRow := 0, scBytes := [], acc := [], redVals := [],
    lastRow := 0, lastIn := 0, cut := none, reading := none }

/-- An operation of the engine that a VOP with its first beat in lc t0 cuts: its last beat is the last one before t0 (R210). -/
def VecRun.cutAt (t0 : Nat) (r : VecRun) : VecRun :=
  if r.pastLast ≤ t0 then r
  else if t0 ≤ r.first then { r with pastLast := r.first, reduces := false }
  else { r with pastLast := r.first + (t0 - 1 - r.first) / r.pace * r.pace + 1 }

/-- An operation whose checks hold: its table load or first beat is put in flight, and it cuts what has beats left (R195
R210). -/
def vecRun (q : Fin 64) (t : Fin 4) (w : Word) (p : VecPlan) (s : State) (x : Nat) : Res :=
  let last := p.t0 + (p.d.nOut * p.d.beats - 1) * p.d.pace
  let cut := decide (p.t0 < s.quires[q].vec.lastBeat)
  let s := if cut then cutRunning s q p.t0 x else s
  let s := if p.d.op = 15 then
      later (placePorts s q [vecTableAccess p 0 (x + 2)]) q t (x + 2) 0 (.vecTable (newVecOp p) 0)
    else laterBeat s q p.t0 (newVecOp p)
  let s := updQ s q (fun qr =>
    let v := qr.vec
    let run : VecRun := { task := t, first := p.t0, pace := p.d.pace, pastLast := last + 1, op := p.d.op, reduces := p.d.red != 0 }
    { qr with vec := { v with task := t, lastBeat := last + 1, op := p.d.op, reduces := p.d.red != 0,
                              runs := v.runs.map (VecRun.cutAt p.t0) ++ [run],
                              cut := if cut then setFld v.cut 0 32 (fld v.cut 0 32 + 1) else v.cut } })
  let s := if cut then hazard s q t 1 7 x else s
  .done (claimTok s q { first := p.t0, last := last, tok := tokOf w, task := t, drain := false })

/-- The scalar registers that operand words read. -/
def operandRegs (os : List OperandWord) : List Nat := (os.filter (fun o => o.kind == 1)).map (fun o => fld o.raw 16 5)

/-- VOP: descriptor, checks in the order of R523, then the operation. -/
def vopBody (q : Fin 64) (t : Fin 4) (w : Word) (s : State) (x : Nat) : Res :=
  let qr := s.quires[q]
  let tk := qr.seq.tasks[t]
  let xr := srcReg s q t (fld w 6 5)
  let ix := fld w 11 12
  match descAt qr (afterLc s q x) tk ix 64 32 with
  | none => .bad .seq 4 [fld w 6 5]
  | some vd =>
    if anyUncorrectable vd.2 then .memory (noteReads s q 0 4 vd.2) none else
    let bs := vd.1
    let d := parseVec bs
    let a := parseOperand bs 1
    let b := parseOperand bs 2
    let c := parseOperand bs 3
    let o := parseOperand bs 4
    let reads := fld w 6 5 :: operandRegs [a, b, c]
    if !vecLegal bs d a b c o then .bad .vec 1 [fld w 6 5]
    else
      let part := fun (on : Bool) (o : OperandWord) (n : Nat) =>
        if on then resolveOperand s q t o (xrPart xr n) else some VecSrc.absent
      match part true a 0, part (usesB d.op) b 1, part (usesC d.op) c 2, part d.dEn o 3 with
      | some va, some vb, some vc, some vo =>
        if !vecBoundsOk tk d va vb vc vo then .bad .vec 2 reads
        else
          let s := noteEarly (noteDesc s q t x tk ix 64 32) q t x reads
          let p : VecPlan :=
            { x := x, task := t, d := d, a := va, b := vb, c := vc, o := vo, t0 := if d.op = 15 then x + 10 else x + 2,
              mode := bit qr.vec.config 0, redBase := tk.spadBase d.redSpad + d.redRow, tabBase := tk.psBase + d.tabRow }
          vecRun q t w p s x
      | _, _, _, _ => .bad .vec 1 reads

/-- VOP (R195). -/
def execVop (q : Fin 64) (t : Fin 4) (w : Word) (s : State) : Host.Outcome State Fault Refusal :=
  .next (issueRow 0x22 q t w (vopBody q t w) s)

end Sys2Proof.Machine
end

