-- ==== Sys2Proof/Machine/Regs.lean ====
section
/-! DEFINITION. The register space: what a read of every register returns, and the address map (R12 R14 R423 R424
R483–R488). -/

namespace Sys2Proof.Machine

/-! ## Register words that are put together from the state -/

/-- HOST.STATUS (R450). -/
def hostStatusWord (s : State) : Word :=
  packFlds [(0, 1, b2n s.host.ready), (1, 1, b2n s.host.faultBit), (2, 1, b2n s.host.resetBit),
    (3, 1, b2n s.host.colophonInvalid), (4, 1, b2n s.host.recovery), (5, 1, b2n (s.bind.loaded != 0))]

/-- BINDERY.ISA_CAPS (R311). -/
def isaCapsWord (s : State) : Word := packFlds [(0, 8, s.bind.stepping), (8, 16, 0x0200), (32, 16, s.bind.loaded)]

/-- BINDERY.BOOT_STATUS (R479). -/
def bootStatusWord (s : State) : Word :=
  let b := s.bind
  packFlds [(0, 4, b.stage), (4, 2, b.colophonCode), (6, 1, b2n b.keyOk), (7, 1, b2n b.selftestFail), (8, 4, b.mcFail),
    (12, 4, b.bistFolio), (16, 3, b.bistSite), (20, 12, b.bootMs)]

/-- PWR.INPUT (R357). -/
def powerInputWord (p : Pwr) : Word :=
  packFlds [(0, 16, powerSum p 100 / 6553600), (16, 16, powerSum p 100000 / 6553600000), (32, 16, p.peakLimit.toNat),
    (48, 16, p.sustLimit.toNat)]

/-- What an effect in flight says of a set in lc lc: 1 in a preload, 2 from the first chunk to the last accumulator update (R77). -/
def fillState (lc n : Nat) (e : Event) : Nat :=
  let tile := fun o : TileOp => if o.d.setIx = n && decide (o.p ≤ lc) then (if lc < o.c0 then 1 else 2) else 0
  match e.op with
  | .preload o _ => tile o
  | .chunk o _ _ _ => tile o
  | .accRow ix _ _ => if ix = n then 2 else 0
  | _ => 0

/-- The state of a set in ARRAY.STATUS: 1 in a preload, 2 while it fills, 3 in its drain (R79 R91). -/
def setState (qr : Quire) (lc n : Nat) : Nat :=
  let fills := qr.flight.map (fillState lc n)
  if fills.contains 1 then 1 else if fills.contains 2 then 2
  else if qr.array.draining.any (fun d => d.d.setIx == n && d.stop.isNone) then 3 else 0

/-- ARRAY.STATUS (R91); a collector whose sixteenth tile is in it reads as empty (log entry 41). -/
def arrayStatusWord (qr : Quire) (lc : Nat) : Word :=
  packFlds [(0, 2, setState qr lc 0), (2, 2, setState qr lc 1), (4, 1, b2n (qr.array.draining.any (·.stop.isNone))),
    (5, 6, qr.array.collector.length / 32 % 16)]

/-- RSTOP.STATUS and RSTOP.COUNT_SLOTS (R122). -/
def rstopStatusWord (r : RingStop) : Word :=
  packFlds [(0, 2, r.h0), (2, 2, r.h1), (4, 1, b2n r.halted), (5, 1, b2n r.waitOwner), (6, 1, b2n r.pass)]
def rstopCountWord (r : RingStop) : Word :=
  packFlds [(0, 16, r.injected.toNat), (16, 16, r.consumed.toNat), (32, 16, r.reduced.toNat), (48, 16, r.landed.toNat)]

/-- STREAM.STATUS (R188). -/
def streamStatusWord (qr : Quire) (lc : Nat) : Word :=
  let now := qr.stream.commits.any (fun c => decide (c.first ≤ lc) && decide (lc ≤ c.first + (c.len - 1) * c.pace))
  packFlds [(0, 4, issuedLandings qr 0), (4, 4, (qr.stream.landings.filter (fun l => l.task == 0)).length),
    (8, 18, landUsed qr 0 lc), (26, 17, outUsed qr 0), (43, 1, b2n now)]

/-- The physical latency of a vector operation on a stepping (R306 R307). -/
def vecPhysical (a0 : Bool) (op : Nat) : Nat :=
  if a0 then vecLatency op
  else match op with | 15 => 6 | 9 => 6 | 10 | 11 => 8 | 13 | 14 => 9 | 12 => 10 | _ => vecLatency op

/-- VEC.STATUS (R213): busy up to the last commit of an operation, on B0 only up to its pad stage (R520). -/
def vecStatusWord (a0 : Bool) (qr : Quire) (lc : Nat) : Word :=
  let runs := qr.vec.runs
  packFlds [(0, 1, b2n (runs.any (fun r => decide (lc < r.pastLast + vecPhysical a0 r.op)))), (1, 2, qr.vec.task.val),
    (3, 1, b2n (runs.any (fun r => r.reduces && decide (lc < r.pastLast + vecLatency r.op + 28))))]

/-- BWD.STATUS (R234): a TABLE drain loads or uses a store. -/
def bwdStatusWord (qr : Quire) (lc : Nat) : Word :=
  packFlds [(0, 1, b2n qr.array.nextStore), (1, 1, b2n ((liveDrains qr).any (fun d => d.d.deriv == 2 && decide (d.start ≤ lc + 10))))]

/-- UPD.STATUS (R262 R306). -/
def updStatusWord (qr : Quire) (lc : Nat) : Word :=
  let u := qr.upd
  let busy := u.runs.any (fun r => decide (lc ≤ r.x + 32 * r.blocks + 97))
  let left := if u.runs.isEmpty then 0 else u.lastBlocks - min u.lastBlocks ((lc - (u.lastIssue + 2)) / 32)
  packFlds [(0, 1, b2n busy), (1, 2, u.op), (3, 10, u.entry), (13, 14, left), (27, 1, b2n u.shadowValid), (28, 1, b2n u.loading)]

/-- The claims that quires of a test hold at the read (R334). -/
def liveNow (s : State) (pick : Fin 64 → Bool) : Nat := liveSum s ((dieNow s).getD (2 ^ 64)) pick

/-! ## The register map (R483 R484) -/

/-- Element i of a vector of words; 0 past its end. -/
def vecAt {α : Type} {n : Nat} (v : Vector α n) (d : α) (i : Nat) : α := if h : i < n then v[i] else d

/-- A register of a quire window: block number and index; `lc` is the lc at whose start it is read. -/
def readQuireReg (a0 : Bool) (lc : Nat) (qr : Quire) (blk i : Nat) : Word :=
  let tk := fun j : Nat => qr.seq.tasks[j % 4]'(by omega)
  match blk with
  | 0 => match i with
    | 0 => qr.array.config | 1 => arrayStatusWord qr lc | 2 => qr.array.chunks | 3 => qr.array.tiles
    | 4 => qr.array.zeroCells | 5 => qr.array.fault | _ => 0
  | 1 => match i with
    | 0 => qr.rstop.skew | 1 => rstopStatusWord qr.rstop | 2 => rstopCountWord qr.rstop | 3 => qr.rstop.fault | _ => 0
  | 2 => match i with
    | 0 => qr.bank.scrubCtl | 1 => qr.bank.scrubStatus | 2 => qr.bank.scrubDefer | 3 => qr.bank.ceCount
    | 4 => qr.bank.ceGrad | 5 => qr.bank.ceLast | 6 => qr.bank.ueInfo | 11 => qr.bank.portConflict
    | 12 => qr.bank.repair | _ => if 7 ≤ i && i ≤ 10 then (tk (i - 7)).region else 0
  | 3 => match i with
    | 4 => qr.stream.spadConflict | 5 => qr.stream.parityInfo | 6 => qr.stream.spadRepair
    | _ => if i < 4 then (tk i).bound else 0
  | 4 => match i with
    | 0 => streamStatusWord qr lc | 1 => qr.stream.discardDesc | 2 => qr.stream.discardBytes | 7 => qr.stream.fault
    | _ => if 3 ≤ i && i ≤ 6 then (tk (i - 3)).mwin else 0
  | 5 => match i with
    | 0 => qr.vec.config | 1 => vecStatusWord a0 qr lc | 2 => qr.vec.beats | 3 => qr.vec.cut | 4 => qr.vec.fault | _ => 0
  | 6 =>
    if i < 4 then vecAt qr.bwd.keepNext 0 i
    else if i < 8 then vecAt qr.bwd.keepActive 0 (i - 4)
    else if i < 264 then vecAt qr.bwd.norm 0 (i - 8)
    else if i = 264 then qr.bwd.discards else if i = 265 then bwdStatusWord qr lc else 0
  | 7 => match i with
    | 0 => updStatusWord qr lc | 1 => qr.upd.stepActive | 2 => qr.upd.stepShadow | 3 => qr.upd.sumA | 4 => qr.upd.sumB
    | 5 => qr.upd.blocks | 6 => qr.upd.discards | 7 => qr.upd.fault | _ => 0
  | 8 =>
    if i < 4 then (tk i).code
    else if i < 8 then BitVec.ofNat 64 ((tk (i - 4)).pc.toNat % 8192)
    else if i < 12 then BitVec.ofNat 64 (tk (i - 8)).state.code
    else if i < 140 then readReg (settleRegs lc (tk ((i - 12) / 32))) ((i - 12) % 32)
    else if i = 140 then qr.seq.issued else if i = 141 then qr.seq.fault else 0
  | 9 => match i with | 0 => qr.hazInfo | 1 => qr.hazCount | _ => 0
  | 10 => if i = 0 then qr.idleIssue else vecAt qr.idleCause 0 (i - 1)
  | _ => 0

/-- A register of a LINK_xx block, and of a PORT_xx block (R389). -/
def readLinkReg (s : State) (l : Fin 26) (i : Nat) : Word :=
  let k := s.links[l]
  match i with
  | 0 => linkStatusWord s l
  | 1 => packFlds [(0, 32, k.corrected.toNat), (32, 16, k.replays.toNat), (48, 16, k.uncorr.toNat)]
  | 2 => k.fault
  | _ => 0
def readPortReg (p : Port) (i : Nat) : Word :=
  match i with
  | 0 => packFlds [(0, 5, p.phys.toNat), (5, 2, p.width), (8, 5, p.peerPort), (13, 6, p.sendQuire), (19, 1, b2n p.sendValid),
      (20, 6, p.recvQuire), (26, 1, b2n p.recvValid), (32, 32, p.peerId.toNat)]
  | 1 => packFlds [(0, 20, p.head), (20, 12, p.landed), (32, 12, p.taken), (44, 20, p.rxSize / 512)]
  | 2 => packFlds [(0, 20, p.credit), (20, 12, p.tx.length), (32, 32, p.sent.toNat)]
  | 3 => BitVec.ofNat 64 p.drops.toNat
  | _ => 0

/-- A register of an MC_xx block (R188). -/
def readMcReg (m : Mc) (i : Nat) : Word :=
  match i with
  | 0 => m.split | 1 => m.mapLo | 2 => m.mapHi
  | 3 => packFlds [(0, 32, m.idleRead.toNat), (32, 32, m.idleWrite.toNat)]
  | _ => 0

/-- A register of the MBOX block (R450). -/
def readMboxReg (s : State) (i : Nat) : Word :=
  if i < 24 then vecAt s.mbox.route 0 (i + 8)
  else if i < 48 then vecAt s.mbox.outSrc 0 (i - 24 + 8)
  else if i < 112 then (s.quires[(i - 48) % 64]'(by omega)).qmask
  else if i < 176 then (s.quires[(i - 112) % 64]'(by omega)).qflag
  else 0

/-- A register of the HOST block (R450). -/
def readHostReg (h : HostIf) (status : Word) (i : Nat) : Word :=
  match i with
  | 0 => h.bar4Seg
  | 10 => BitVec.ofNat 64 h.dbInMask.toNat
  | 11 => BitVec.ofNat 64 h.dbOut.toNat
  | 12 => BitVec.ofNat 64 h.dbOutMask.toNat
  | 13 => BitVec.ofNat 64 h.dbTimeout.toNat
  | 14 => BitVec.ofNat 64 h.heartbeat.toNat
  | 15 => status
  | _ => if 1 ≤ i && i ≤ 4 then vecAt h.ringCfg 0 (i - 1) else if 5 ≤ i && i ≤ 8 then vecAt h.ringPtr 0 (i - 5) else 0

/-- A register of the PWR block (R357). -/
def readPwrReg (p : Pwr) (i : Nat) : Word :=
  match i with
  | 0 => BitVec.ofNat 64 p.on.toNat
  | 1 => p.req
  | 2 => packFlds [(0, 1, b2n p.refused), (1, 5, p.refusedPd)]
  | 3 => powerInputWord p
  | 4 => p.trip
  | 29 => packFlds [(0, 8, p.warn.toNat), (8, 8, 105)]
  | _ => if 5 ≤ i && i ≤ 28 then packFlds [(0, 16, (vecAt p.temp 0 (i - 5)).toNat), (16, 16, (vecAt p.tempPeak 0 (i - 5)).toNat)] else 0

/-- A register of the TOKEN block (R334). -/
def readTokenReg (s : State) (i : Nat) : Word :=
  let c := s.con
  match i with
  | 0 => c.pool
  | 1 => packFlds [(0, 24, liveNow s (fun _ => true)), (32, 24, c.diePeak)]
  | 18 => c.tokFault
  | _ => if 2 ≤ i && i ≤ 17 then packFlds [(0, 16, liveNow s (fun q => q.val / 4 == i - 2)), (16, 16, vecAt c.folioPeak 0 (i - 2))] else 0

/-- A register of a die-wide block: block number and index. -/
def readDieReg (s : State) (blk i : Nat) : Word :=
  match blk with
  | 0 => match i with
    | 0 => s.bind.fenceMap | 1 => isaCapsWord s | 2 => bootStatusWord s | 3 => s.bind.faultInfo
    | 4 => s.bind.faultStitch | 5 => BitVec.ofNat 64 s.bind.faultCount.toNat | _ => 0
  | 1 => match i with
    | 0 => s.clk.stitch | 1 => opStatusWord s.clk | 2 => s.clk.kettle | 3 => refWord s.clk | 20 => s.clk.droopCfg
    | _ => if 4 ≤ i && i ≤ 19 then packFlds [(0, 32, (vecAt s.clk.qtr 0 (i - 4)).toNat), (32, 32, (vecAt s.clk.half 0 (i - 4)).toNat)] else 0
  | 2 => readPwrReg s.pwr i
  | 3 => readHostReg s.host (hostStatusWord s) i
  | 4 => readMboxReg s i
  | 5 => if i < 4 then vecAt s.hostin.cfg 0 i else vecAt s.hostin.fence 0 (i - 4)
  | 6 => match i with
    | 0 => BitVec.ofNat 64 s.spine.layout.toNat | 1 => s.spine.discarded | _ => vecAt s.spine.boundary 0 (i - 2)
  | 7 => readTokenReg s i
  | 8 => match i with | 0 => s.con.waitLimit | 1 => s.con.waitFault | _ => 0
  | 9 => if i < 32 then vecAt s.con.xbCfg 0 i else BitVec.ofNat 64 (vecAt s.con.xbCount 0 (i - 32)).toNat
  | 10 => if i = 0 then s.con.debugCtl else 0
  | 11 => if i = 0 then s.trace.cfg else if i ≤ 16 then vecAt s.trace.ptr 0 (i - 1) else vecAt s.trace.drop 0 (i - 17)
  | 12 => match i with
    | 0 => s.trace.alarmCfg | 1 => s.trace.alarmPtr | 2 => BitVec.ofNat 64 s.trace.alarmDropped.toNat | _ => 0
  | 13 => if s.host.recovery then (match i with
    | 0 => packFlds [(8, 13, s.trace.recLength)] | 1 => BitVec.ofNat 64 s.trace.recState | _ => 0) else 0
  | _ => 0

/-- Are the quire windows and the SPINE block readable: not held in reset, not within the span of a RESET_COMPUTE from
the step that switches their domains off on (R471 R487)? -/
def windowsOpen (s : State) : Bool := !s.bind.held && !s.bind.resetTick.any (fun r => decide (r + 1000 ≤ tick s))

/-- The MSI-X table and the pending-bit array (R423). -/
def readMsix (h : HostIf) (a : Nat) : Word :=
  if a < 0x3FFF000 then
    let n := (a - 0x3FFE000) / 16
    if 32 ≤ n then 0
    else if a % 16 = 0 then vecAt h.msixAddr 0 n
    else packFlds [(0, 32, (vecAt h.msixData 0 n).toNat), (32, 1, b2n (vecAt h.msixMask true n))]
  else if a = 0x3FFF000 then BitVec.ofNat 64 h.msixPending.toNat else 0

/-- The register at an internal address, a multiple of 8, on the view outside the recovery path. -/
def readMain (s : State) (a : Nat) : Word :=
  if a < 0xE0000 then
    (if a / 0x10000 = 6 && !windowsOpen s then 0 else readDieReg s (a / 0x10000) (a % 0x10000 / 8))
  else if 0x200000 ≤ a && a < 0x21A000 then
    readLinkReg s ⟨(a - 0x200000) / 0x1000 % 26, by omega⟩ (a % 0x1000 / 8)
  else if 0x300000 ≤ a && a < 0x31A000 then
    readPortReg (s.ports[(a - 0x300000) / 0x1000 % 26]'(by omega)) (a % 0x1000 / 8)
  else if 0x400000 ≤ a && a < 0x404000 then
    readMcReg (s.mcs[(a - 0x400000) / 0x1000 % 4]'(by omega)) (a % 0x1000 / 8)
  else if 0x1000000 ≤ a && a < 0x1400000 then
    (if windowsOpen s then
      (let qr := s.quires[(a - 0x1000000) / 0x10000 % 64]'(by omega)
       readQuireReg (s.bind.stepping == 0) (reachedLc (dieNow s) qr) qr (a % 0x10000 / 0x1000) (a % 0x1000 / 8))
     else 0)
  else if 0x3FFE000 ≤ a then readMsix s.host a
  else 0

/-- The register at an internal address: on the recovery path only HOST.STATUS, CLK.STITCH and RECOVERY (R488). -/
def regRead (s : State) (a : Nat) : Word :=
  if s.host.recovery then
    (if a = 0x30078 then hostStatusWord s else if a = 0x10000 then s.clk.stitch
     else if 0xD0000 ≤ a && a < 0xE0000 then readDieReg s 13 (a % 0x10000 / 8) else 0)
  else readMain s a

/-! ## Bits that writing 1 clears (R12 R14) -/

/-- The bits of a register that writing 1 clears. -/
def w1cMask (a : Nat) : Word :=
  if a = 0x10018 || a = 0x20010 || a = 0x20020 || a = 0x70090 then 1
  else if a = 0x30008 || a = 0x30010 || a = 0x30018 || a = 0x30020 then 2
  else if a = 0x30058 || a = 0x30068 then 0xFFFF_FFFF
  else if 0x40380 ≤ a && a < 0x40580 then 0xFF
  else if 0x60010 ≤ a && a < 0x60090 then maskOf 38 1
  else if a = 0x80008 then maskOf 11 1
  else if 0x200000 ≤ a && a < 0x21A000 && a % 0x1000 = 0x10 then maskOf 3 1
  else if 0x1000000 ≤ a && a < 0x1400000 then
    (match a % 0x10000 with
     | 0x0028 | 0x1018 | 0x4038 | 0x5020 | 0x7038 | 0x8468 => maskOf 6 1
     | 0x2030 => maskOf 30 1
     | 0x3028 => maskOf 15 1
     | 0x9000 => maskOf 9 1
     | _ => 0)
  else 0

/-- The addresses of the registers with such bits. -/
def w1cAddrs : List Nat :=
  [0x10018, 0x20010, 0x20020, 0x70090, 0x80008, 0x30008, 0x30010, 0x30018, 0x30020, 0x30058, 0x30068]
    ++ (List.range 64).map (fun i => 0x40380 + 8 * i) ++ (List.range 16).map (fun i => 0x60010 + 8 * i)
    ++ (List.range 26).map (fun i => 0x200010 + 0x1000 * i)
    ++ (List.range 64).flatMap (fun q =>
      [0x0028, 0x1018, 0x4038, 0x5020, 0x7038, 0x8468, 0x2030, 0x3028, 0x9000].map (fun o => 0x1000000 + 0x10000 * q + o))

/-- The bits set when a tick begins. -/
def w1cSnapshot (s : State) : List (Nat × Word) :=
  (w1cAddrs.map (fun a => (a, readMain s a &&& w1cMask a))).filter (fun p => p.2 != 0)

end Sys2Proof.Machine
end

