-- ==== Sys2Proof/Machine/Commands.lean ====
section
/-! DEFINITION. Command rings: taking a packet, the checks that come before a command's own, fences, and the posting of
status packets (R427–R434 R441 R451). -/

namespace Sys2Proof.Machine

/-! ## Packets (R430) -/

/-- The 64 bytes of a packet. -/
def packetBytes (op : Nat) (k : Packet) : List Byte :=
  bytesLE 1 op ++ bytesLE 1 k.flags.toNat ++ bytesLE 2 k.tag.toNat ++ bytesLE 4 k.rsvd.toNat
    ++ k.p.toList.flatMap (fun w => bytesLE 8 w.toNat)

/-- The packet that 64 bytes spell, opcode first. -/
def packetOf (bs : List Byte) : Nat × Packet :=
  (numAt bs 0 1,
   { flags := BitVec.ofNat 8 (numAt bs 1 1), tag := BitVec.ofNat 16 (numAt bs 2 2), rsvd := BitVec.ofNat 32 (numAt bs 4 4),
     p := Vector.ofFn (fun i : Fin 7 => BitVec.ofNat 64 (numAt bs (8 + 8 * i.val) 8)) })

/-- FENCE and HOSTADDR. -/
def pktFenced (k : Packet) : Bool := k.flags.toNat.testBit 0
def pktHost (k : Packet) : Bool := k.flags.toNat.testBit 1

/-- The packet j entries behind the bindery's index of a ring, as it stands in far memory. -/
def packetAt (s : State) (r : Fin 4) (j : Nat) : List Byte :=
  readBytes s.far (fld s.host.ringCfg[r] 8 24 * 4096 + 64 * ((cmdCons s r + j) % 65536 % ringSize s r)) 64

/-- The packet at the bindery's index of a ring. -/
def frontPacket (s : State) (r : Fin 4) : List Byte := packetAt s r 0

/-- Commands of a ring that hold a status entry. -/
def inProgress (s : State) (r : Fin 4) : Nat := (s.bind.cmds.filter (fun c => c.ring == r && !c.mute)).length

/-- A status entry is free for one more packet after n others: STS_PROD plus the commands in progress is less than
STS_CONS + size (R429). -/
def statusRoom (s : State) (r : Fin 4) (n : Nat) : Bool :=
  decide ((stsProd s r + 65536 - stsCons s r) % 65536 + inProgress s r + n < ringSize s r)

/-- The bindery may take packets of a ring, after n others. -/
def ringOpen (s : State) (r : Fin 4) (n : Nat) : Bool :=
  firmwareRuns s && ringOn s r && s.host.active[r] && decide (ringFill s r ≤ ringSize s r) && statusRoom s r n

/-- The bindery may take the next packet of a ring: at most 8 in a tick. -/
def mayTake (s : State) (r : Fin 4) : Bool := ringFill s r != 0 && ringOpen s r 0 && decide (s.host.taken[r] < 8)

/-- An ABORT_TASK that does not wait, which is handled before the other packets of its tick (R448). -/
def goesFirst (op : Nat) (k : Packet) : Bool := op == 0x06 && !pktFenced k

/-- The order of R448 within a tick: ABORT_TASKs first, then the other packets, each by increasing ring. -/
def ringTurn (s : State) (r : Fin 4) (first : Bool) : Bool :=
  if first then s.host.turn == 0 && (List.finRange 4).all (fun k => decide (k ≤ r) || s.host.taken[k] == 0)
  else decide (s.host.turn ≤ r.val + 1)

/-- The tick has come to the packets of a ring that are no ABORT_TASKs. -/
def noteTurn (r : Fin 4) (first : Bool) (s : State) : State :=
  if first then s else { s with host := { s.host with turn := r.val + 1 } }

/-- Entries from CMD_CONS on that have been handled ahead, at most n of them. -/
def aheadRun (l : List Nat) (at0 : Nat) : Nat → Nat
  | 0 => 0
  | n + 1 => if l.contains at0 then 1 + aheadRun l ((at0 + 1) % 65536) n else 0

/-- One more packet of a ring is taken in this tick. -/
def countTaken (h : HostIf) (r : Fin 4) : Vector Nat 4 := h.taken.set r (h.taken[r] + 1)

/-- The packet is taken: CMD_CONS advances past it and past those handled ahead, and the ring is idle once it equals
CMD_PROD. -/
def advanceRing (s : State) (r : Fin 4) : State :=
  let n := 1 + aheadRun s.host.ahead[r] ((cmdCons s r + 1) % 65536) 8
  let gone := fun e : Nat => decide ((e + 65536 - cmdCons s r) % 65536 < n)
  let w := setFld s.host.ringPtr[r] 16 16 (cmdCons s r + n)
  { s with host := { s.host with ringPtr := s.host.ringPtr.set r w, taken := countTaken s.host r,
                                 ahead := s.host.ahead.set r (s.host.ahead[r].filter (fun e => !gone e)),
                                 active := s.host.active.set r (ringFill s r != n) } }

/-! ## The checks of every command (R433) -/

/-- The parameter bits that an opcode lists, P0 first (R434 R435 R439). -/
def paramMasks (op : Nat) : List Word :=
  let run : List Word := [maskOf 0 59, 0x3FFF_3FFF, maskOf 0 40, ~~~0, ~~~0]
  match op with
  | 0x01 => [~~~0]
  | 0x02 => [~~~0, ~~~0, 1]
  | 0x03 | 0x04 => [0x7_01FF, 0x1_FFFF_0001_FFFF, ~~~0, ~~~0]
  | 0x05 => (maskOf 0 9 ||| maskOf 10 2 ||| maskOf 16 13 ||| maskOf 32 14) :: run
  | 0x06 => [maskOf 0 9 ||| maskOf 10 2]
  | 0x07 => [~~~0, ~~~0]
  | 0x08 => maskOf 0 4 :: run
  | 0x09 => [maskOf 0 9 ||| maskOf 16 17 ||| maskOf 40 1, ~~~0]
  | 0x0A => [~~~0, maskOf 0 10, ~~~0]
  | 0x0B => [7, ~~~0]
  | 0x0C => [~~~0]
  | 0x0D => [maskOf 0 5 ||| maskOf 8 2]
  | 0x0F => [~~~0, ~~~0]
  | 0x10 => [~~~0, ~~~0, ~~~0, ~~~0, ~~~0, ~~~0]
  | _ => []

/-- Every reserved bit of the packet is 0. -/
def reservedOk (op : Nat) (k : Packet) : Bool :=
  k.flags.toNat < 4 && k.rsvd == 0
    && (List.finRange 7).all (fun i => k.p[i] &&& ~~~ ((paramMasks op)[i.val]?).getD 0 == 0)

/-- Opcodes of the table, privileged ones, and those that accept HOSTADDR. -/
def commandListed (op : Nat) : Bool := op ≤ 0x10
def commandPrivileged (op : Nat) : Bool := 0x0B ≤ op && op ≤ 0x0F
def commandHost (op : Nat) : Bool := op == 0x01 || op == 0x02 || op == 0x09 || op == 0x0A || op == 0x0F || op == 0x10

/-- Steps 1 to 6 of R433: the status of the first that fails. A fault that has been raised comes before a command of its tick
(R449). -/
def firstCheck (s : State) (op : Nat) (r : Fin 4) (k : Packet) : Option Nat :=
  if !commandListed op then some 0x01
  else if commandPrivileged op && r != 0 then some 0x02
  else if s.bind.colophonCode != 0 && !(op == 0x00 || op == 0x0F || op == 0x10) then some 0x0C
  else if !reservedOk op k || (pktHost k && !commandHost op) then some 0x03
  else if s.bind.resetTick.isSome && !(op == 0x00 || op == 0x01 || op == 0x0A || op == 0x10) then some 0x04
  else if (s.bind.latch || !s.bind.raised.isEmpty) && ((0x02 ≤ op && op ≤ 0x05) || op == 0x07 || op == 0x08 || op == 0x0B || op == 0x0C) then some 0x0E
  else none

/-! ## What a command comes to -/

/-- The outcome of a command's own work. -/
inductive Reply where
  /-- Done, with its status and results. -/
  | done (s : State) (status : Nat) (r0 r1 : Word)
  /-- Under way: it ends in a later step. -/
  | going (s : State) (c : Cmd)

/-- Fails without effect. -/
def Reply.fail (s : State) (status : Nat) : Reply := .done s status 0 0

/-- A command as taken from its packet. -/
def Cmd.ofPacket (r : Fin 4) (op : Nat) (k : Packet) (host : Option (List Byte)) (verified written : Bool) (now entry : Nat) : Cmd :=
  { ring := r, opcode := op, pkt := k, st := .running, quires := [], task := 0, stopped := 0, maxLc := 0,
    faulted := false, since := now, host := host, verified := verified, written := written, doneAt := 0, entry := entry, mute := false }

/-- Is a command of an opcode still in progress: taken, and its status not posted (R434)? A command that failed a check
is not. -/
def Cmd.open (op : Nat) (c : Cmd) : Bool :=
  c.opcode == op && (match c.st with | .done st _ _ => st == 0 | _ => true)

/-- Puts a command with the outcome of its work at place n among those taken. -/
def placeReply (n : Nat) (c : Cmd) (r : Reply) : State :=
  let put := fun (s : State) (c : Cmd) =>
    { s with bind := { s.bind with cmds := s.bind.cmds.take n ++ c :: s.bind.cmds.drop n } }
  match r with
  | .done s st r0 r1 =>
    put { s with bind := { s.bind with doneCount := s.bind.doneCount + 1 } }
      { c with st := .done st r0 r1, doneAt := s.bind.doneCount }
  | .going s c' => put s c'

/-- A command starts: the common checks, then its own work, which finds the quires as the die has come to (R433). -/
def startCmd (work : State → Cmd → Reply) (s : State) (c : Cmd) : Reply :=
  match firstCheck s c.opcode c.ring c.pkt with
  | some st => .fail s st
  | none => work (catchUp s) c

/-- Is d the earlier of two commands of one ring? -/
def Cmd.before (d c : Cmd) : Bool :=
  let gap := (c.entry + 65536 - d.entry) % 65536
  gap != 0 && decide (gap < 32768)

/-- Must a command wait: for every earlier one of its ring, or a RUN_UPDATE for the SET_STEPs among them (R244 R429)? -/
def mustWait (cs : List Cmd) (c : Cmd) : Bool :=
  cs.any (fun d => d.ring == c.ring && !d.mute && d.before c && (pktFenced c.pkt || (c.opcode == 0x08 && d.opcode == 0x07)))

/-- One command row: the packet at the front of its ring is taken and, unless it waits, starts. -/
def commandRow (work : State → Cmd → Reply) (op : Nat) (r : Fin 4) (k : Packet) (host : Option (List Byte))
    (verified written : Bool) (s : State) : State :=
  if !(mayTake s r && ringTurn s r (goesFirst op k) && frontPacket s r == packetBytes op k) then s
  else
    let c := Cmd.ofPacket r op k host verified written (tick s) (cmdCons s r)
    let s := noteTurn r (goesFirst op k) (advanceRing s r)
    let n := s.bind.cmds.length
    if mustWait s.bind.cmds c then placeReply n c (.going s { c with st := .waiting })
    else placeReply n c (startCmd work s c)

/-- The place, from CMD_CONS on, of an ABORT_TASK packet that is handled ahead of the packets before it: the bindery takes
up to 8 packets in a tick and handles the ABORT_TASKs among them first (R429 R448; log entry 36). One with FENCE waits for
those before it. -/
def abortPlace (r : Fin 4) (k : Packet) (s : State) : Option Nat :=
  ((List.range 8).drop 1).find? (fun j =>
    decide (j < ringFill s r) && ringOpen s r j && goesFirst 0x06 k && ringTurn s r true
      && decide (s.host.taken[r] + j < 8 + s.host.ahead[r].length)
      && !s.host.ahead[r].contains ((cmdCons s r + j) % 65536) && packetAt s r j == packetBytes 0x06 k)

/-- ABORT_TASK: taken in its turn, or ahead of the packets that are taken with it. -/
def abortRow (work : State → Cmd → Reply) (r : Fin 4) (k : Packet) (s : State) : State :=
  if frontPacket s r == packetBytes 0x06 k then commandRow work 0x06 r k none false false s
  else
    match abortPlace r k s with
    | none => s
    | some j =>
      let e := (cmdCons s r + j) % 65536
      let c := Cmd.ofPacket r 0x06 k none false false (tick s) e
      let s := { s with host := { s.host with ahead := s.host.ahead.set r (e :: s.host.ahead[r]), taken := countTaken s.host r } }
      placeReply s.bind.cmds.length c (startCmd work s c)

/-! ## Addresses (R434 R441) -/

/-- A far-memory range: a multiple of 512, below 48 GiB. -/
def farOk (a n : Nat) : Bool := a % 512 == 0 && decide (a + n ≤ 48 * 2 ^ 30)

/-- The address parameter of a command with n bytes: far memory, or with HOSTADDR a bus address, a multiple of 64. -/
def addrOk (c : Cmd) (a : Word) (n : Nat) : Bool := if pktHost c.pkt then a.toNat % 64 == 0 else farOk a.toNat n

/-- Bytes to a bus address, cut into requests of at most n bytes that end at multiples of n (R441). The first number bounds
how many. -/
def cutBytes (n : Nat) : Nat → Nat → List Byte → List (Nat × List Byte)
  | 0, _, _ => []
  | k + 1, a, bs =>
    if bs.isEmpty then []
    else (a, bs.take (n - a % n)) :: cutBytes n k (a + (n - a % n)) (bs.drop (n - a % n))

/-- A range of bus addresses, cut in the same way. -/
def cutRange (n : Nat) : Nat → Nat → Nat → List (Nat × Nat)
  | 0, _, _ => []
  | k + 1, a, len => if len = 0 then [] else (a, min len (n - a % n)) :: cutRange n k (a + (n - a % n)) (len - (n - a % n))

/-- The write requests of the copy engine for some results, each at most the max payload size. -/
def writeRequests (l : List (Nat × List Byte)) : List (Nat × List Byte) :=
  l.flatMap (fun e => cutBytes pcieFunction.maxPayload (e.2.length / pcieFunction.maxPayload + 2) e.1 e.2)

/-- The read requests of the copy engine for some sources, each at most the max read request size. -/
def readRequests (l : List (Nat × Nat)) : List (Nat × Nat) :=
  l.flatMap (fun e => cutRange pcieFunction.maxRead (e.2 / pcieFunction.maxRead + 2) e.1 e.2)

/-- The write requests of a command whose results do not depend on what the host answers. -/
def resultsToHost (c : Cmd) (r : Reply) : List (Nat × List Byte) :=
  match r with
  | .done s _ _ _ => if c.opcode == 0x01 || c.opcode == 0x09 || c.opcode == 0x10 then s.out.dma else []
  | .going _ _ => []

/-- With HOSTADDR the copy engine issues its read requests, and the work waits for the host's answer: HOST_ERROR where the
host cannot be reached. Where it has not answered, some of the write requests have left, which stay written: how many is a
free value (R441 R499; log entries 4, 11). -/
def withHost (s : State) (c : Cmd) (reads : List (Nat × Nat)) (work : State → Reply) : Reply :=
  if !pktHost c.pkt then work s
  else if s.host.perst || !s.host.linkUp then .fail s 0x0F
  else
    let s := { s with out := { s.out with dmaRead := readRequests reads } }
    if c.host.isNone then
      let ws := resultsToHost c (work s)
      let (n, s) := takeFree s
      .going { s with out := { s.out with dma := ws.take (n.toNat % (ws.length + 1)) } } c
    else work s

/-- The bytes of a source: far memory, or what the host has answered. -/
def sourceBytes (s : State) (c : Cmd) (a : Word) (n : Nat) : List Byte :=
  if pktHost c.pkt then slice (c.host.getD []) 0 n else readBytes s.far a.toNat n

/-- Writes results to their destination: far memory, or host memory by the copy engine (log entry 8). -/
def writeResults (s : State) (c : Cmd) (l : List (Nat × List Byte)) : State :=
  if pktHost c.pkt then { s with out := { s.out with dma := writeRequests l } } else l.foldl (fun s e => farWrite s e.1 e.2) s

/-! ## Posting (R428 R429 R431) -/

/-- The 32 bytes of a status packet. -/
def statusBytes (s : State) (c : Cmd) (status : Nat) (r0 r1 : Word) : List Byte :=
  bytesLE 2 c.pkt.tag.toNat ++ bytesLE 1 c.opcode ++ bytesLE 1 status
    ++ bytesLE 4 (1 - stsProd s c.ring / ringSize s c.ring % 2) ++ bytesLE 8 (tick s) ++ bytesLE 8 r0.toNat ++ bytesLE 8 r1.toNat

/-- Writes a status packet at STS_PROD, advances it and rings the host. -/
def postStatus (s : State) (c : Cmd) (status : Nat) (r0 r1 : Word) : State :=
  let r := c.ring
  let a := fld s.host.ringCfg[r] 32 24 * 4096 + 32 * (stsProd s r % ringSize s r)
  let w := setFld s.host.ringPtr[r] 32 16 (stsProd s r + 1)
  let s' := farWrite s a (statusBytes s c status r0 r1)
  ringHost { s' with host := { s'.host with ringPtr := s'.host.ringPtr.set r w } } ⟨r.val, by omega⟩

/-- The place of the command of a ring that was done first, if any. -/
def firstDone (cs : List Cmd) (r : Fin 4) : Option Nat :=
  let best := cs.foldl (fun (b : Option Nat) c =>
    match c.st with
    | .done _ _ _ => if c.ring == r then some (match b with | none => c.doneAt | some m => min m c.doneAt) else b
    | _ => b) none
  match best with
  | none => none
  | some m => cs.findIdx? (fun c => c.ring == r && c.doneAt == m && (match c.st with | .done _ _ _ => true | _ => false))

end Sys2Proof.Machine
end

