-- ==== Sys2Proof/Machine/SpineOps.lean ====
section
/-! DEFINITION. The ring-stop instructions INJECT, LAND, COPY, REDUCE and SPLICE (file 04, R291 R302
R304). -/

namespace Sys2Proof.Machine

/-! ## INJECT (R108 R111 R123 R291 R304) -/

/-- KIND, FMT, SRC, COUNT and GAP go together (R291 R304). -/
def injectLegal (w : Word) : Bool :=
  let fromHalf := decide (injSrc w ≥ 2)
  (match injKind w with
   | 0 => decide (injFmt w ≤ 3)
   | 1 => injFmt w == 4 && fromHalf && decide (injCount w ≤ 4)
   | 2 => injFmt w == 0
   | _ => false)
  && injCount w != 0 && (!fromHalf || decide (injCount w ≤ 4)) && (injSrc w != 1 || decide (injGap w ≥ 2))

/-- Rows an INJECT from staging or activation reads, scale rows of N4 included (R291). -/
def injRows (w : Word) : Nat := 2 * injCount w + (if injFmt w = 3 then ceilDiv (injCount w) 8 else 0)

/-- INJECT: its slots are placed in lc x + 2, x + 2 + GAP, …; where the first comes before the last of the previous INJECT of its
leg, it takes the leg over (R291). -/
def injectBody (q : Fin 64) (t : Fin 4) (w : Word) (s : State) (x : Nat) : Res :=
  let qr := s.quires[q]
  let tk := qr.seq.tasks[t]
  let fromHalf := decide (injSrc w ≥ 2)
  let spad := if injSrc w = 0 then 2 else 0
  if !injectLegal w then .bad .seq 2
  else if t ≠ 0 then .bad .rstop 1
  else
    let row := if fromHalf then some 0 else rowRef tk (injRef w) spad
    match row with
    | none => .bad .seq 6
    | some r =>
      if !fromHalf && !tk.spadOk spad r (injRows w) then .bad .rstop 5
      else
        let o : InjectOp := { x := x, w := w, base := if fromHalf then 0 else tk.spadBase spad + r }
        let prev := if injBack w then qr.rstop.injBack else qr.rstop.injFore
        let cut := decide (x + 3 < prev)
        let last := injLc o (injCount w - 1)
        let s := updQ s q (fun qr =>
          let rs := if injBack w then { qr.rstop with injBack := last + 1 } else { qr.rstop with injFore := last + 1 }
          let qr := { qr with rstop := rs }
          if cut then takeOver (injBack w) (x + 2) qr else qr)
        let s := laterInject s q t (injFirst o 0) o 0 []
        let s := if cut then hazard s q t 3 6 (x + 2) else s
        .done (claimTok s q { first := x + 2, last := last, tok := tokOf w, task := t, drain := false })

/-- INJECT (R291). -/
def execInject (q : Fin 64) (t : Fin 4) (w : Word) (s : State) : Host.Outcome State Fault Refusal :=
  .next (issueRow 0x24 q t w (injectBody q t w) s)

/-! ## LAND and COPY (R108 R111 R124) -/

/-- LAND: takes COUNT + 1 slot positions off the spine into a half. -/
def landBody (q : Fin 64) (t : Fin 4) (w : Word) (s : State) (x : Nat) : Res :=
  if t ≠ 0 then .bad .rstop 1
  else .done (later s q t (x + 2) 1 (.land (bit w 6) (fld w 7 1) 0 (fld w 8 2 + 1)))

/-- LAND (R108). -/
def execLand (q : Fin 64) (t : Fin 4) (w : Word) (s : State) : Host.Outcome State Fault Refusal :=
  .next (issueRow 0x25 q t w (landBody q t w) s)

/-- COPY: a half into eight rows of a scratchpad. -/
def copyBody (q : Fin 64) (t : Fin 4) (w : Word) (s : State) (x : Nat) : Res :=
  let tk := s.quires[q].seq.tasks[t]
  let spad := fld w 7 2
  if spad = 3 then .bad .seq 2
  else if t ≠ 0 then .bad .rstop 1
  else match rowRef tk (fld w 9 16) spad with
    | none => .bad .seq 6
    | some r =>
      if !tk.spadOk spad r 8 then .bad .rstop 5
      else
        let o : CopyOp := { x := x, half := fld w 6 1, spad := spad, row := tk.spadBase spad + r }
        let s := later (placePorts s q ((List.range 8).map (copyAccess x t o))) q t (x + 2) 0 (.copy o 0 0 [])
        .done (claimTok s q { first := x + 2, last := x + copySpan spad, tok := tokOf w, task := t, drain := false })

/-- COPY (R108). -/
def execCopy (q : Fin 64) (t : Fin 4) (w : Word) (s : State) : Host.Outcome State Fault Refusal :=
  .next (issueRow 0x26 q t w (copyBody q t w) s)

/-! ## REDUCE (R108 R115 R124) -/

/-- REDUCE: adds a half into the four positions of lc x + 2 to x + 5. -/
def reduceBody (q : Fin 64) (t : Fin 4) (w : Word) (s : State) (x : Nat) : Res :=
  if t ≠ 0 then .bad .rstop 1
  else
    let s := later s q t (x + 2) 0 (.reduce (bit w 6) (fld w 7 1) 0)
    .done (claimTok s q { first := x + 2, last := x + 5, tok := tokOf w, task := t, drain := false })

/-- REDUCE (R115). -/
def execReduce (q : Fin 64) (t : Fin 4) (w : Word) (s : State) : Host.Outcome State Fault Refusal :=
  .next (issueRow 0x27 q t w (reduceBody q t w) s)

/-! ## SPLICE (R112 R114) -/

/-- Is a slot still on its spine at time now: placed, not gone, not back at its injector nor at the end of its leg
with RET (R109)? -/
def slotAlive (m : BitVec 16) (now : Int) (sl : Slot) : Bool :=
  let a := sl.origin.val
  let legLeft := if sl.back then loopLen m a - coord m a true else halfLoop m a - coord m a false
  let span := if sl.ret && m != 0 then legLeft else loopLen m a
  decide (sl.t0 ≤ now) && decide (now < sl.t0 + 1 + span) && sl.left.all (fun l => decide (now < l))

/-- The last of the 64 quires has issued SPLICE with the same mask: slots discarded, layout in force, every quire goes
on at one clock edge, 16 lc after its own SPLICE (R114). -/
def spliceAll (s : State) (m : BitVec 16) : State :=
  let now := allQuires.foldl (fun a q => max a (spineTime s q s.quires[q].seq.lc)) s.spineNow
  let edge := allQuires.foldl (fun a q => max a ((s.quires[q].seq.lc : Int) + s.quires[q].edgeOff)) s.edgeNow
  let gone := (s.spine.slots.filter (slotAlive s.spine.layout now)).length
  let sp := s.spine
  let sp := { sp with layout := m, slots := [], discarded := sp.discarded + BitVec.ofNat 64 gone,
                      boundary := Vector.ofFn (fun i : Fin 16 =>
                        setFld sp.boundary[i] 37 1 (b2n (m.toNat.testBit i.val))) }
  let s := updAllQ { s with spine := sp, spineNow := now + 16, edgeNow := edge + 16 } (fun _ qr =>
    let lc := qr.seq.lc
    let stall := (edge - ((lc : Int) + qr.edgeOff)).toNat
    let qr := bookIdle qr 6 (stall + 15)
    let qr := { qr with rstop := { qr.rstop with splice := none, pass := false, clearTo := lc + 16 },
                        seq := { qr.seq with lc := lc + 16, winEnd := lc + 16, issued := qr.seq.issued + 1 },
                        idleIssue := qr.idleIssue + 1,
                        spineOff := now + 16 - ((lc : Int) + 16), edgeOff := edge + 16 - ((lc : Int) + 16) }
    updTask qr 0 (fun tk => { tk with state := .running, heldWord := none, pc := tk.pc + 1 }))
  allQuires.foldl (fun s q => traceQ s q 0 3) s

/-- The quires whose masks differ from quire 00's record the fault (R114). -/
def spliceMismatch (s : State) (m0 : BitVec 16) : State :=
  let differ := allQuires.filter (fun q => s.quires[q].rstop.splice != some m0)
  differ.foldl (fun s q => programFault s q 0 .rstop 4) s

/-- SPLICE: the quire stops, its ring stop in pass-through, until all 64 have issued it. -/
def spliceBody (q : Fin 64) (t : Fin 4) (w : Word) (s : State) (_x : Nat) : Res :=
  let m := BitVec.ofNat 16 (fld w 6 16)
  if !maskLegal m then .bad .rstop 4
  else if t ≠ 0 then .bad .rstop 1
  else
    let s := updQ s q (fun qr =>
      updTask { qr with rstop := { qr.rstop with splice := some m, pass := true } } 0 (fun tk =>
        { tk with state := .held, heldWord := some w, heldKind := .splice, heldCause := 6, heldSince := tick s }))
    let m0 := s.quires[0].rstop.splice
    if !allQuires.all (fun b => s.quires[b].rstop.splice.isSome) then .raw s
    else if allQuires.all (fun b => s.quires[b].rstop.splice == m0) then .raw (spliceAll s m)
    else .raw (spliceMismatch s (m0.getD 0))

/-- SPLICE (R114). -/
def execSplice (q : Fin 64) (t : Fin 4) (w : Word) (s : State) : Host.Outcome State Fault Refusal :=
  .next (issueRow 0x28 q t w (spliceBody q t w) s)

end Sys2Proof.Machine
end

