-- ==== Sys2Proof/Machine/Tasks.lean ====
section
/-! DEFINITION. START_TASK, RUN_UPDATE, ABORT_TASK and the completion of tasks (R56 R144 R168 R171 R231 R244 R257 R328
R329 R388 R435–R437). -/

namespace Sys2Proof.Machine

/-- Parameter n of a command. -/
def prm (c : Cmd) (n : Fin 7) : Word := c.pkt.p[n]

/-- The quires that P0 names: QUIRE, or every one with ALL; none where QUIRE is above 63 (R31). -/
def namedQuires (p0 : Word) : Option (List (Fin 64)) :=
  if bit p0 8 then some allQuires
  else if h : fld p0 0 8 < 64 then some [⟨fld p0 0 8, h⟩] else none

/-! ## Checks of a start (R436) -/

/-- Bases and counts within the scratchpads and banks, the window within 48 GiB (R144 R168). -/
def boundsOk (c : Cmd) : Bool :=
  let a := prm c 1
  let r := prm c 2
  let w := prm c 3
  decide (fld a 0 10 + fld a 10 11 ≤ 1024) && decide (fld a 21 9 + fld a 30 10 ≤ 512) && decide (fld a 40 9 + fld a 49 10 ≤ 512)
    && decide (fld r 0 14 + fld r 16 14 ≤ 8192) && decide (fld w 0 20 + fld w 20 20 ≤ 786432)

/-- A code range: at least one instruction, within the store. -/
def codeOk (base count : Nat) : Bool := 1 ≤ count && decide (base + count ≤ 8192)

/-- A LOAD_REGION or EXPORT_REGION in progress on a quire (R147 R436). -/
def regionOpen (s : State) (q : Fin 64) : Bool :=
  s.bind.cmds.any (fun c => (c.open 0x03 || c.open 0x04) && ((namedQuires (prm c 0)).getD []).contains q)

/-- Is a port's required link below its width, or its peer another than its entry names (R388 R393)? -/
def linkShort (s : State) (l p : Fin 26) : Bool :=
  s.ports[p].width != 0 && (!linkIsUp s l || decide (s.links[l].width < s.ports[p].width) || !identityOk s l p)

/-- The topology does not serve the binary: an owned port is unmapped, or a required link does not serve its port (R388
R393). -/
def topologyShort (s : State) : Bool :=
  (List.finRange 26).any (fun p =>
    let po := s.ports[p]
    ((po.sendValid || po.recvValid) && po.phys == 31)
      || (if h : po.phys.toNat < 26 then linkShort s ⟨po.phys.toNat, h⟩ p else false))

/-- Do two ranges of a base and a count share an element? -/
def countsMeet (a an b bn : Nat) : Bool := decide (max a b < min (a + an) (b + bn))

/-- The bounds that two contexts share, each with its UNIT code of HAZ.INFO: bank region, three scratchpads, and the
far-memory window, which no code names. A bank region covers three memories, each with a code of its own; the model takes
that of the weight bank (R146 R170 R402; log entry 32). -/
def boundsMeet (a b : Task) : List (Option Nat) :=
  (if countsMeet a.regBase a.regCount b.regBase b.regCount then [some 0] else [])
    ++ (if countsMeet a.actBase a.actCount b.actBase b.actCount then [some 3] else [])
    ++ (if countsMeet a.psBase a.psCount b.psBase b.psCount then [some 4] else [])
    ++ (if countsMeet a.stgBase a.stgCount b.stgBase b.stgCount then [some 5] else [])
    ++ (if countsMeet a.winBase a.winSize b.winBase b.winSize then [none] else [])

/-- The context that a start in a tick gives a task, which begins in the next tick (R269 R171 R173 R287 R436). -/
def startContext (c : Cmd) (base count now : Nat) : Task :=
  { Task.reset with
    startsAt := now + 1,
    code := packFlds [(0, 13, base), (16, 14, count), (32, 1, 1)],
    state := .running,
    bound := setFld (prm c 1) 59 1 1,
    region := setFld (prm c 2) 32 1 1,
    mwin := setFld (prm c 3) 40 1 1,
    arg := prm c 5 }

/-- A kind 4 hazard of a quire: counted, the first recorded (R329). -/
def noteOverlap (t : Fin 4) (unit : Nat) (qr : Quire) : Quire :=
  { qr with
    hazCount := setFld qr.hazCount 0 32 (satAdd 32 (fld qr.hazCount 0 32) 1),
    hazInfo := if bit qr.hazInfo 9 then qr.hazInfo
               else packFlds [(0, 3, 4), (3, 4, unit), (7, 2, t.val), (9, 1, 1), (10, 32, qr.seq.lc)] }

/-- The overlaps of a new context with the running tasks of the quire, each a hazard. -/
def overlapsOf (qr : Quire) (t : Fin 4) (new : Task) : List (Option Nat) :=
  (List.finRange 4).flatMap (fun k => if k != t && qr.seq.tasks[k].live then boundsMeet new qr.seq.tasks[k] else [])

/-- One hazard is recorded; the unit of a window is a free value (log entry 4). -/
def recordOverlap (q : Fin 64) (t : Fin 4) (s : State) (u : Option Nat) : State :=
  match u with
  | some n => traceQ (updQ s q (noteOverlap t n)) q t 6
  | none =>
    let (v, s) := takeFree s
    traceQ (updQ s q (noteOverlap t (v.toNat % 11))) q t 6

/-- The overlaps of a start, recorded where the checker is on. -/
def noteOverlaps (s : State) (t : Fin 4) (qs : List (Fin 64)) (new : Task) : State :=
  qs.foldl (fun s q => (overlapsOf s.quires[q] t new).foldl (recordOverlap q t) s) s

/-- DEBUG_CTL as it applies to a start: a run of task 0 takes it over, a filler runs under the one in force (R328). -/
def startDebug (s : State) (t : Fin 4) : Word := if t = 0 then s.con.debugCtl else s.con.debugActive

/-! ## The start (R56 R231 R244 R257) -/

/-- The other tasks when a new run begins: its lc count from 0, so what waited for an lc of the last run is over. -/
def settleTask (tk : Task) : Task :=
  let tk := settleLoads (2 ^ 64) (settleRegs (2 ^ 64) tk)
  { tk with idleUntil := 0 }

/-- A new run of task 0 is set up in every unit of its quire; a halt of its gathering goes on. -/
def beginRun (seed : Word) (spine edge : Int) (qr : Quire) : Quire :=
  { qr with
    seq := { qr.seq with inRun := false, lc := 0, past := 0, winEnd := 0, seed := seed, adv := 0,
                         tasks := qr.seq.tasks.map settleTask },
    claims := [], spineOff := spine, edgeOff := edge,
    flight := [], ports := [],
    array := { qr.array with lastChunk := 0, running := none, drains := [], draining := [] },
    vec := { qr.vec with lastBeat := 0, runs := [] },
    rstop := { qr.rstop with pass := false, waitOwner := false, injFore := 0, injBack := 0, splice := none, clearTo := 0 },
    bank := { qr.bank with fixNext := Vector.replicate 3 0 },
    stream := { qr.stream with commits := [], commitEnd := 0, doneWrites := [] },
    upd := { qr.upd with lastIssue := 0, lastBlocks := 0, runs := [] },
    bwd := { qr.bwd with keepActive := qr.bwd.keepNext } }

/-- RUN_UPDATE: a valid shadow store becomes the active one, the sums begin at +0 (R244 R257). -/
def activateStore (qr : Quire) : Quire :=
  let qr := { qr with upd := { qr.upd with sumA := 0, sumB := 0 } }
  if qr.upd.shadowValid then
    { qr with mem := { qr.mem with descActive := qr.mem.descShadow },
              upd := { qr.upd with shadowValid := false, stepActive := qr.upd.stepShadow } }
  else qr

/-- The clock edge and the spine time of the first lc of a run that starts now (log entry 14). -/
def edgeNext (s : State) : Int := allQuires.foldl (fun a q => max a ((s.quires[q].seq.lc : Int) + s.quires[q].edgeOff)) s.edgeNow
def spineNext (s : State) : Int := allQuires.foldl (fun a q => max a (spineTime s q s.quires[q].seq.lc)) s.spineNow

/-- What waits of a quire for its next run: messages and buffer entries meet its waits from the first lc on (R120). -/
def forgetLate (q : Fin 64) (s : State) : State :=
  { s with
    ports := s.ports.map (fun p => if p.recvQuire == q.val then { p with landedReady := p.landedReady.map (fun _ => 0) } else p),
    con := { s.con with xbLate := Vector.ofFn (fun i : Fin 32 => if fld s.con.xbCfg[i] 54 6 == q.val then [] else s.con.xbLate[i]) } }

/-- Task t starts on the named quires. Task 0 begins at one clock edge, in the next tick. -/
def startTasks (s : State) (t : Fin 4) (qs : List (Fin 64)) (seed : Word) (new : Task) (update : Bool) : State :=
  let s := if t = 0 then qs.foldl finishRun s else s
  let e := edgeNext s
  let z := spineNext s
  let s := if t = 0 then { s with con := { s.con with debugActive := s.con.debugCtl }, edgeNow := e, spineNow := z } else s
  qs.foldl (fun s q =>
    let s := if t = 0 then forgetLate q s else s
    let s := updQ s q (fun qr =>
      let qr := if t = 0 then beginRun seed z e qr else qr
      let qr := if update then activateStore qr else qr
      updTask qr t (fun _ => new))
    traceQ s q t 0) s

/-- A run of task 0 that begins in this tick. -/
def comesUp (now : Nat) (qr : Quire) : Bool :=
  !qr.seq.inRun && qr.seq.tasks[0].live && decide (qr.seq.tasks[0].startsAt ≤ now)

/-- The runs that begin in a tick begin at one clock edge of the die, behind every lc that has issued (R436; log entry 14). -/
def startRuns (s : State) : State :=
  if allQuires.any (fun q => comesUp (tick s) s.quires[q]) then
    let e := edgeNext s
    let z := spineNext s
    updAllQ { s with edgeNow := e, spineNow := z } (fun _ qr =>
      if comesUp (tick s) qr then { qr with seq := { qr.seq with inRun := true }, edgeOff := e, spineOff := z } else qr)
  else s

/-- The checks of R436 and the start of a task on the named quires. -/
def launch (s : State) (c : Cmd) (t : Fin 4) (qs : List (Fin 64)) (base count : Nat) : Reply :=
  let new := startContext c base count (tick s)
  let dbg := startDebug s t
  let meets := bit dbg 0 && qs.any (fun q => !(overlapsOf s.quires[q] t new).isEmpty)
  if s.bind.loaded = 0 then .fail s 0x03
  else if !(boundsOk c && codeOk base count) then .fail s 0x03
  else if qs.any (fun q => s.quires[q].seq.tasks[t].live || regionOpen s q) then .fail s 0x04
  else if topologyShort s then .fail s 0x08
  else if bit s.con.debugCtl 0 && decide (s.clk.current < 5) then .fail s 0x0A
  else if meets && bit dbg 1 then .fail (noteOverlaps s t qs new) 0x0B
  else
    let s := if meets then noteOverlaps s t qs new else s
    .going (startTasks s t qs (prm c 4) new (c.opcode == 0x08)) { c with quires := qs.map (·.val), task := t }

/-- The work of START_TASK. -/
def startTaskWork (s : State) (c : Cmd) : Reply :=
  let p0 := prm c 0
  match namedQuires p0 with
  | none => .fail s 0x03
  | some qs => launch s c ⟨fld p0 10 2 % 4, by omega⟩ qs (fld p0 16 13) (fld p0 32 14)

/-- START_TASK (R435 R436). -/
def execStartTask (ring : Fin 4) (pkt : Packet) (s : State) : Host.Outcome State Fault Refusal :=
  .next (commandRow startTaskWork 0x05 ring pkt none false false s)

/-- The work of RUN_UPDATE: task 0 of every quire, at an entry of the loaded binary; an unused entry has count 0. -/
def runUpdateWork (s : State) (c : Cmd) : Reply :=
  let e := s.bind.entries[fld (prm c 0) 0 4 % 16]'(by omega)
  launch s c 0 allQuires (fld e 0 13) (fld e 16 14)

/-- RUN_UPDATE (R244). -/
def execRunUpdate (ring : Fin 4) (pkt : Packet) (s : State) : Host.Outcome State Fault Refusal :=
  .next (commandRow runUpdateWork 0x08 ring pkt none false false s)

/-! ## ABORT_TASK (R437) -/

/-- The work of ABORT_TASK: the task stops on every named quire where it runs. -/
def abortWork (s : State) (c : Cmd) : Reply :=
  let p0 := prm c 0
  let t : Fin 4 := ⟨fld p0 10 2 % 4, by omega⟩
  match namedQuires p0 with
  | none => .fail s 0x03
  | some qs =>
    if qs.any (fun q => s.quires[q].seq.tasks[t].live) then .done (qs.foldl (fun s q => stopTask s q t 2) s) 0x00 0 0
    else .fail s 0x05

/-- ABORT_TASK (R437). -/
def execAbortTask (ring : Fin 4) (pkt : Packet) (s : State) : Host.Outcome State Fault Refusal :=
  .next (abortRow abortWork ring pkt s)

/-! ## Task completion (R436) -/

/-- The status of a start whose task has ended on every named quire. -/
def endStatus (c : Cmd) : Nat := if c.faulted then 0x0E else if c.stopped != 0 then 0x0D else 0x00

/-- A start that completes: its task has ended on every named quire. -/
def Cmd.completeRun (place : Nat) (c : Cmd) : Cmd := c.finish place (endStatus c) c.stopped (BitVec.ofNat 64 c.maxLc)

/-- TASK_COMPLETION: the start with that ring and TAG completes once its task has ended on every named quire. -/
def taskCompletion (r : Fin 4) (tag : BitVec 16) (s : State) : State :=
  let hit := fun c : Cmd => c.ring == r && c.pkt.tag == tag && (c.opcode == 0x05 || c.opcode == 0x08) && c.st == .running
    && c.quires.isEmpty
  if !(firmwareRuns s && s.bind.cmds.any hit) then s
  else
    let n := s.bind.doneCount
    { s with bind := { s.bind with
        doneCount := n + 1, cmds := s.bind.cmds.map (fun c => if hit c then c.completeRun n else c) } }

/-- TASK_COMPLETION (R436). -/
def execTaskCompletion (ring : Fin 4) (tag : BitVec 16) (s : State) : Host.Outcome State Fault Refusal :=
  .next (taskCompletion ring tag s)

end Sys2Proof.Machine
end

