-- ==== Sys2Proof/Machine/FaultPath.lean ====
section
/-! DEFINITION. The fault path and RESET_COMPUTE (R29 R30 R125 R284 R288 R353 R361 R381 R453 R460 R468–R472 R487). -/

namespace Sys2Proof.Machine

/-! ## The fault path (R468 R469) -/

/-- The milliseconds of RESET_COMPUTE in ticks: domains off, on again, and the clearing step (R471). -/
def resetOff : Nat := 1000
def resetOn : Nat := 31000
def resetClear : Nat := 83000

/-- RESET_COMPUTE runs and its domains are not up again (R472). -/
def resetBeforeUp (s : State) : Bool := s.bind.resetTick.any (fun r => decide (tick s < r + resetOn))

/-- The fault latch is set by a first fault: FAULT_N asserted, every quire stopped, FAULT flits begun. Before the domains
of a RESET_COMPUTE are up it is only recorded (R472). -/
def latchFault (f : Raised) (s : State) : State :=
  let s := { s with bind := { s.bind with latch := true, faultN := true, firstFault := some f },
                    host := { s.host with faultBit := true } }
  if resetBeforeUp s then s else startFaultFlits (allQuires.foldl (fun s q => stopQuire s q 3) s)

/-- A fault reaches the latch: counted; the first starts the incident. -/
def takeFaultNow (f : Raised) (s : State) : State :=
  let s := { s with bind := { s.bind with
    faultCount := BitVec.ofNat 32 (satAdd 32 s.bind.faultCount.toNat 1),
    resetFault := s.bind.resetFault || s.bind.resetTick.isSome } }
  if s.bind.latch then s else latchFault f s

/-- The place of a fault's class in the precedence of R447 and R448: trips, memory errors, other faults of a quire, elastic
buffers, links; SELFTEST and FIRMWARE, which the table does not list, come last (log entry 45). -/
def classRank (cls : Nat) : Nat :=
  match cls with
  | 1 => 0 | 2 => 1 | 6 | 7 | 8 | 9 => 2 | 3 => 3 | 4 | 5 => 4 | _ => 5

/-- Is a fault taken before another: by tick, by rank, then by its quire or link (R447 R448)? -/
def raisedBefore (a b : Raised) : Bool :=
  let num := fun f : Raised => (f.quire.map (·.val)).getD f.link
  decide (a.tick < b.tick) || (a.tick == b.tick &&
    (decide (classRank a.cls < classRank b.cls) || (classRank a.cls == classRank b.cls && decide (num a < num b))))

/-- The place of the fault that is taken next: of the oldest tick the first in precedence (R447 R448). -/
def nextRaised (l : List Raised) : Nat :=
  ((l.zipIdx.foldl (fun (best : Option (Raised × Nat)) p =>
    match best with
    | none => some p
    | some b => if raisedBefore p.1 b.1 then some p else best) none).map (·.2)).getD 0

/-- The fault that comes first of those raised reaches the latch. -/
def takeOldest (s : State) : State :=
  let n := nextRaised s.bind.raised
  match s.bind.raised[n]? with
  | none => s
  | some f => takeFaultNow f { s with bind := { s.bind with raised := s.bind.raised.eraseIdx n } }

/-- Task t of quire q comes to issue its next word, and the turn is its own. -/
def comesToIssue (s : State) (q : Fin 64) (t : Fin 4) : Bool :=
  computeUp s && quireRuns s.quires[q] && taskReady s.quires[q].seq.tasks[t] t && (atTurn s.quires[q] t).isSome
    && !drainDue s.quires[q] t && inOrder s (issueEdge s q t)

/-- A fault of an opcode that the map does not list, at its issue (R284). -/
def unlistedFault (q : Fin 64) (t : Fin 4) (s : State) : State :=
  match fetchWord s.quires[q] t with
  | none => s
  | some w =>
    let s' := arrive s q t
    if comesToIssue s q t && comesToIssue s' q t && !opcodeListed (fld w 0 6) then issueFault s' q t .seq 1 else s

/-- A fault of a fetch past the last instruction of the code (R288). -/
def fetchFault (q : Fin 64) (t : Fin 4) (s : State) : State :=
  let s' := arrive s q t
  if comesToIssue s q t && comesToIssue s' q t && (fetchWord s.quires[q] t).isNone then issueFault s' q t .seq 3 else s

/-- A fault of a quire that no instruction raises: its tasks stop, and the fault is on its way. -/
def raiseQuire (s : State) (q : Fin 64) (cls : Nat) : State :=
  let s := stopQuire s q 3
  { s with bind := { s.bind with raised := s.bind.raised ++
      [{ cls := cls, quire := some q, link := 0, originClass := 0, originId := 0, tick := tick s }] } }

/-- The site of a logical quire under a fence field (R19). -/
def siteOf (fenced : Nat) (q : Fin 64) : Nat := if q.val % 4 < fenced then q.val % 4 else q.val % 4 + 1

/-- The quires of a folio whose site a test picks. -/
def quiresAt (s : State) (f : Fin 16) (pick : Nat → Bool) : List (Fin 64) :=
  allQuires.filter (fun q => folioOf q == f && pick (siteOf (fld s.bind.fenceMap (3 * f.val) 3) q))

/-- The ring stop that records a parity error found at a site: its own, or of a fenced site the nearest enabled one; which of two
that stand equally near is a free value (R125; log entry 4). -/
def recordingStop (s : State) (f : Fin 16) (site : Fin 5) : Option (Fin 64) × State :=
  match quiresAt s f (fun n => n == site.val), quiresAt s f (fun n => n + 1 == site.val || n == site.val + 1) with
  | q :: _, _ => (some q, s)
  | [], [] => (none, s)
  | [], [q] => (some q, s)
  | [], q :: p :: _ => let (v, s) := takeFree s; (some (if v.getLsbD 0 then q else p), s)

/-- The delivery skew of a ring stop on a leg (R104). -/
def deliverySkew (qr : Quire) (back : Bool) : Nat := b2n (bit qr.rstop.skew (if back then 2 else 0))

/-- Does a slot pass the stop of a quire on a leg now, `more` lc allowed for a stop beside it? While no quire runs, the slots go
round with no lc of a program, and one that reaches the stop passes it at some time. -/
def slotPasses (s : State) (q : Fin 64) (back : Bool) (more : Nat) : Bool :=
  let now := dieNow s
  match now with
  | none => s.spine.slots.any (fun sl => sl.left.isNone && (slotDist s.spine.layout sl.origin sl.back q back).isSome)
  | some _ =>
    let d := spineTime s q (reachedLc now s.quires[q]) + deliverySkew s.quires[q] back
    (List.range (more + 1)).any (fun i => (slotAt s q back (d + i)).isSome)

/-- A parity error in a slot, found by the ring stop of an enabled or fenced site that the slot passes (R99 R117 R125). -/
def slotParity (f : Fin 16) (site : Fin 5) (back : Bool) (s : State) : State :=
  if !computeUp s then s
  else
    let own := quiresAt s f (fun n => n == site.val)
    match recordingStop s f site with
    | (none, s) => s
    | (some q, s) =>
      if slotPasses s q back (if own.isEmpty then 1 else 0) then
        raiseQuire (updQ s q (fun qr => recordFault qr .rstop 3 0)) q 2
      else s

/-- A failure of any other part of a site: of an enabled one it is its quire's, of a fenced one no quire's. Its class is a free
value among those of R470. During a reset it is taken as R472 says (R29 R30 R472; log entry 4). -/
def siteFault (f : Fin 16) (site : Fin 5) (s : State) : State :=
  let (v, s) := takeFree s
  let cls := 1 + v.toNat % 11
  match quiresAt s f (fun n => n == site.val) with
  | q :: _ => raiseQuire s q cls
  | [] => raiseDie s cls 0 0 0

/-- FAULT_PATH: a fault reaches the fault latch, or at time 0 of the table of R468 one is raised that no other row raises, which
stops its quire; it reaches the latch by a further FAULT_PATH. -/
def faultPath (src : FaultSource) (s : State) : State :=
  if !s.pwr.powered then s
  else match src with
    | .raised => takeOldest s
    | .unlistedOpcode q t => unlistedFault q t s
    | .fetchPast q t => fetchFault q t s
    | .slotParity f site back => slotParity f site back s
    | .site f site => siteFault f site s

/-- FAULT_PATH (R468). -/
def execFaultPath (src : FaultSource) (s : State) : Host.Outcome State Fault Refusal := .next (faultPath src (catchUp s))

/-- BINDERY.FAULT_INFO of an incident (R470 R479). -/
def faultInfoWord (f : Raised) : Word :=
  packFlds [(0, 1, 1), (1, 4, f.cls), (5, 1, b2n f.quire.isSome), (6, 6, (f.quire.map (·.val)).getD 0),
    (12, 4, f.originClass), (16, 5, f.link), (32, 32, f.originId.toNat)]

/-- A command that the fault path has stopped: a start with a quire stopped by it, or a region transfer (R436 R439). -/
def stoppedByFault (c : Cmd) : Bool :=
  ((c.opcode == 0x05 || c.opcode == 0x08) && c.faulted) || c.opcode == 0x03 || c.opcode == 0x04

/-- Running commands that the fault path has stopped answer FAULTED. -/
def answerStopped (s : State) : State :=
  let n := s.bind.doneCount
  { s with bind := { s.bind with
      doneCount := n + 1,
      cmds := s.bind.cmds.map (fun c =>
        if stoppedByFault c then c.finish n 0x0E c.stopped (BitVec.ofNat 64 c.maxLc) else c) } }

/-- FAULT_RECORD: at the next stitch tick firmware records the incident and tells the host. -/
def faultRecord (s : State) : State :=
  match s.bind.firstFault with
  | none => s
  | some f =>
    if !(firmwareRuns s && s.bind.latch && !bit s.bind.faultInfo 0) then s
    else
      let s := { s with bind := { s.bind with faultInfo := faultInfoWord f, faultStitch := s.clk.stitch } }
      answerStopped (alarm (ringHost s 5) 7 0 f.cls)

/-- FAULT_RECORD (R468). -/
def execFaultRecord (s : State) : Host.Outcome State Fault Refusal := .next (faultRecord s)

/-! ## RESET_COMPUTE (R353 R361 R453 R471) -/

/-- Commands whose work is in the compute part and that RESET_COMPUTE ends with ABORTED; a start ends by R436. -/
def usesCompute (c : Cmd) : Bool := c.open 0x02 || c.open 0x03 || c.open 0x04 || c.open 0x07

/-- They answer ABORTED. -/
def abortCommands (s : State) : State :=
  let n := s.bind.doneCount
  let cut := fun c : Cmd => usesCompute c && !(c.st == .waiting)
  { s with bind := { s.bind with
      doneCount := n + 1,
      cmds := s.bind.cmds.map (fun c => if cut c then { c with st := .done 0x0D 0 0, doneAt := n } else c) } }

/-- Every raised fault reaches the latch: the faults of a tick come before its commands (R447 R481). -/
def takeAll (s : State) : State := s.bind.raised.foldl (fun s _ => takeOldest s) s

/-- The start of a RESET_COMPUTE, behind the faults that have been raised: every task aborted, index 5 at a kettle count 64
ticks ahead; a pending change becomes what is restored at the end. -/
def startReset (s : State) : State :=
  let s := takeAll s
  let former := if s.clk.opPending then s.clk.target else s.clk.current
  let s := allQuires.foldl (fun s q => stopQuire s q 2) s
  let s := abortCommands s
  { s with clk := s.clk.schedule 5 (tick s + 64),
           bind := { s.bind with formerIndex := former, resetTick := some (tick s), resetFault := false },
           host := { s.host with resetBit := true } }

/-- The work of RESET_COMPUTE. -/
def resetWork (s : State) (c : Cmd) : Reply := .going (startReset s) c

/-- RESET_COMPUTE (R471). -/
def execResetCompute (ring : Fin 4) (pkt : Packet) (s : State) : Host.Outcome State Fault Refusal :=
  .next (commandRow resetWork 0x0E ring pkt none false false s)

/-- The compute domains PD12 and PD14 to PD29. -/
def computeDomains : BitVec 30 := 0x3FFF_D000

/-- The fabric is quiesced: every far-memory write of the outbound stores is written (R183 R471). -/
def quiesceWrites (s : State) : State :=
  allQuires.foldl (fun s q =>
    let s := s.quires[q].stream.writes.foldl (fun s o => if o.far = 0 then farWrite s o.faddr o.data else s) s
    updQ s q (fun qr => { qr with stream := { qr.stream with writes := qr.stream.writes.filter (fun o => o.far != 0) } })) s

/-- A quire after the clearing step: banks and scratchpads zero, blocks at reset values, its mask of MBOX kept. -/
def clearQuire (qr : Quire) : Quire :=
  { Quire.reset qr.rstop.skew qr.bank.repair qr.stream.spadRepair with qmask := qr.qmask }

/-- The blocks that RESET_COMPUTE returns to their reset values (R122 R186 R188 R311 R334 R357 R389 R398 R415 R450). -/
def clearBlocks (s : State) : State :=
  { s with
    quires := s.quires.map clearQuire,
    spine := Spine.reset,
    con := Contract.reset s.con.pool,
    mcs := Vector.replicate 4 Mc.reset,
    hostin := { cfg := Vector.replicate 4 0, fence := Vector.replicate 4 0 },
    mbox := { s.mbox with outSrc := Vector.replicate 32 0 },
    ports := s.ports.map (fun p => { p with sendQuire := 0, sendValid := false, recvQuire := 0, recvValid := false }),
    clk := { s.clk with qtr := Vector.replicate 16 0, half := Vector.replicate 16 0 },
    pwr := { s.pwr with trip := 0 },
    bind := { s.bind with loaded := 0, entries := Vector.replicate 16 0, dieClaim := 0, folioClaim := 0, mainHash := [],
                          fillerHash := [] } }

/-- The fault path ends: latch and FAULT_N released, FAULT flits stopped, its registers zeroed. -/
def releaseFault (s : State) : State :=
  { s with
    bind := { s.bind with latch := false, faultN := false, firstFault := none, faultInfo := 0, faultStitch := 0, faultCount := 0 },
    host := { s.host with faultBit := false },
    links := s.links.map (fun k => { k with faultTick := none }) }

/-- The clock root at the end of a RESET_COMPUTE: the index in force before it is restored 64 ticks ahead. Without the reference
it is also what the return restores, and from the internal oscillator no index below 5 is taken; a change of source that waits
comes first (R349 R350 R353; log entry 27). -/
def restoreIndex (former now : Nat) (c : Clk) : Clk :=
  let index := min (c.restore.getD former) former
  if c.pendSource.isSome then { c with restore := some index }
  else if c.source = 0 then { c.schedule index (now + 64) with restore := none }
  else { c.schedule (if c.source = 1 then index else max index 5) (now + 64) with restore := some index }

/-- The clearing step: a fault of the reset itself, or a failed self-test, keeps the compute part held (R460 R472). -/
def clearStep (s : State) : State :=
  let s := clearBlocks s
  let s := if s.bind.resetFault || s.bind.selftestFail then s else releaseFault s
  { s with clk := restoreIndex s.bind.formerIndex (tick s) s.clk,
           bind := { s.bind with resetTick := none, resetFault := false },
           host := { s.host with resetBit := false } }

/-- What a RESET_COMPUTE in progress does at a tick (R471). -/
def resetPhase (s : State) : State :=
  match s.bind.resetTick with
  | none => s
  | some r =>
    let e := tick s - r
    if e < resetOff then s
    else if e < resetOn then quiesceWrites { s with pwr := { s.pwr with on := s.pwr.on &&& ~~~ computeDomains } }
    else
      let s := { s with pwr := { s.pwr with on := s.pwr.on ||| computeDomains } }
      if e < resetClear then s else clearStep s

end Sys2Proof.Machine
end

