-- ==== Sys2Proof/Machine/RegWrite.lean ====
section
/-! DEFINITION. Writes of the register space, by access code and by each register's own rules (R12 R14 R159 R238 R328
R424 R485–R488). -/

namespace Sys2Proof.Machine

/-- Clears bits of a word. -/
def dropBits (w c : Word) : Word := w &&& ~~~ c

/-- A write within a quire window: block, index, the merged value and the bits it clears. -/
def writeQuireReg (qr : Quire) (blk i : Nat) (v c : Word) : Quire :=
  match blk with
  | 0 => match i with
    | 0 => { qr with array := { qr.array with config := v &&& 3 } }
    | 5 => { qr with array := { qr.array with fault := dropBits qr.array.fault c } }
    | _ => qr
  | 1 => if i = 3 then { qr with rstop := { qr.rstop with fault := dropBits qr.rstop.fault c } } else qr
  | 2 => match i with
    | 0 => { qr with bank := { qr.bank with scrubCtl := v &&& 0xFF01 } }
    | 6 => { qr with bank := { qr.bank with ueInfo := dropBits qr.bank.ueInfo c } }
    | _ => qr
  | 3 => if i = 5 then { qr with stream := { qr.stream with parityInfo := dropBits qr.stream.parityInfo c } } else qr
  | 4 => if i = 7 then { qr with stream := { qr.stream with fault := dropBits qr.stream.fault c } } else qr
  | 5 => if i = 4 then { qr with vec := { qr.vec with fault := dropBits qr.vec.fault c } } else qr
  | 6 =>
    if h : i < 4 then { qr with bwd := { qr.bwd with keepNext := qr.bwd.keepNext.set i v } }
    else if h : 8 ≤ i ∧ i < 264 then { qr with bwd := { qr.bwd with norm := qr.bwd.norm.set (i - 8) v } }
    else qr
  | 7 => if i = 7 then { qr with upd := { qr.upd with fault := dropBits qr.upd.fault c } } else qr
  | 8 => if i = 141 then { qr with seq := { qr.seq with fault := dropBits qr.seq.fault c } } else qr
  | 9 => if i = 0 then { qr with hazInfo := dropBits qr.hazInfo c } else qr
  | _ => qr

/-- A write of the PWR block. -/
def writePwrReg (s : State) (i : Nat) (v c : Word) : State :=
  match i with
  | 1 => writePdReq v s
  | 2 => if bit c 0 then { s with pwr := { s.pwr with refused := false } } else s
  | 4 => { s with pwr := { s.pwr with trip := dropBits s.pwr.trip c } }
  | 29 => { s with pwr := { s.pwr with warn := BitVec.ofNat 8 (fld v 0 8) } }
  | _ =>
    if h : 5 ≤ i ∧ i < 29 then
      { s with pwr := { s.pwr with tempPeak := s.pwr.tempPeak.set (i - 5) (BitVec.ofNat 16 (fld v 16 16)) } }
    else s

/-- The host writes its indices of a ring (R428 R450). -/
def writeRingPtr (r : Fin 4) (v : Word) (s : State) : State :=
  let w := setFld (setFld s.host.ringPtr[r] 0 16 (fld v 0 16)) 48 16 (fld v 48 16)
  { s with host := { s.host with ringPtr := s.host.ringPtr.set r w } }

/-- A write of the HOST block; `one` is the written half alone. -/
def writeHostReg (s : State) (i : Nat) (v one c : Word) : State :=
  match i with
  | 0 => { s with host := { s.host with bar4Seg := segWrite s.host.bar4Seg v } }
  | 9 => ringMask (BitVec.ofNat 32 (fld one 0 32)) s
  | 10 => writeInMask (BitVec.ofNat 32 (fld v 0 32)) s
  | 11 => clearOut (BitVec.ofNat 32 (fld c 0 32)) s
  | 12 => writeOutMask (BitVec.ofNat 32 (fld v 0 32)) s
  | 13 => { s with host := { s.host with dbTimeout := s.host.dbTimeout &&& ~~~ (BitVec.ofNat 32 (fld c 0 32)) } }
  | 14 => writeHeartbeat (BitVec.ofNat 32 (fld v 0 32)) s
  | _ =>
    if h : 1 ≤ i ∧ i < 5 then writeRingCfg ⟨i - 1, by omega⟩ (setFld v 1 1 (fld c 1 1)) s
    else if h : 5 ≤ i ∧ i < 9 then writeRingPtr ⟨i - 5, by omega⟩ v s
    else s

/-- A write of the MBOX block. -/
def writeMboxReg (s : State) (i : Nat) (v c : Word) : State :=
  if h : i < 24 then { s with mbox := { s.mbox with route := s.mbox.route.set (i + 8) v } }
  else if h : 48 ≤ i ∧ i < 112 then writeQmask ⟨i - 48, by omega⟩ v s
  else if h : 112 ≤ i ∧ i < 176 then updQ s ⟨i - 112, by omega⟩ (fun qr => { qr with qflag := dropBits qr.qflag c })
  else s

/-- TRACE.CFG after a write: BASE only while EN = 0, a multiple of 16 below 49,136 (R479). -/
def traceCfgAfter (old v : Word) : Word :=
  let w := setFld (setFld old 0 1 (fld v 0 1)) 8 7 (fld v 8 7)
  if !bit old 0 && fld v 16 16 % 16 == 0 && decide (fld v 16 16 < 49136) then setFld w 16 16 (fld v 16 16) else w

/-- A write of the TOKEN block: PEAK fields are set, the fault's VALID cleared (R334). -/
def writeTokenReg (s : State) (i : Nat) (v c : Word) : State :=
  match i with
  | 1 => { s with con := { s.con with diePeak := fld v 32 24 } }
  | 18 => { s with con := { s.con with tokFault := dropBits s.con.tokFault c } }
  | _ =>
    if h : 2 ≤ i ∧ i < 18 then { s with con := { s.con with folioPeak := s.con.folioPeak.set (i - 2) (fld v 16 16) } } else s

/-- RECOVERY.CTL without GO: the length (R479). -/
def writeRecLength (v : Word) (s : State) : State := { s with trace := { s.trace with recLength := fld v 8 13 } }

/-- A write of a die-wide block. -/
def writeDieReg (s : State) (blk i : Nat) (v one c : Word) : State :=
  match blk with
  | 1 => match i with
    | 3 => if bit c 0 then { s with clk := { s.clk with lost := false } } else s
    | 20 => writeDroopCfg v s
    | _ => s
  | 2 => writePwrReg s i v c
  | 3 => writeHostReg s i v one c
  | 4 => writeMboxReg s i v c
  | 5 => if h : 4 ≤ i ∧ i < 8 then writeFence ⟨i - 4, by omega⟩ v s else s
  | 6 =>
    if h : 2 ≤ i ∧ i < 18 then
      { s with spine := { s.spine with boundary := s.spine.boundary.set (i - 2) (dropBits s.spine.boundary[i - 2] c) } }
    else s
  | 7 => writeTokenReg s i v c
  | 8 => match i with
    | 0 => { s with con := { s.con with waitLimit := v &&& 0xFFFF_FFFF } }
    | 1 => { s with con := { s.con with waitFault := dropBits s.con.waitFault c } }
    | _ => s
  | 10 => if i = 0 then { s with con := { s.con with debugCtl := v &&& 0xFF07 } } else s
  | 11 =>
    if i = 0 then { s with trace := { s.trace with cfg := traceCfgAfter s.trace.cfg v } }
    else if h : 1 ≤ i ∧ i < 17 then
      { s with trace := { s.trace with ptr := s.trace.ptr.set (i - 1) (setFld s.trace.ptr[i - 1] 16 16 (fld v 16 16)) } }
    else s
  | 12 => match i with
    | 0 => { s with trace := { s.trace with alarmCfg := v &&& 0xFFFF_FFF1 } }
    | 1 => { s with trace := { s.trace with alarmPtr := setFld s.trace.alarmPtr 16 16 (fld v 16 16) } }
    | _ => s
  | _ => s

/-- A write of a physical link's FAULT register. -/
def clearLinkFault (s : State) (l : Fin 26) (c : Word) : State := updLink s l (fun k => { k with fault := dropBits k.fault c })

/-- A write of the MSI-X table (R423 R446). -/
def writeMsix (s : State) (a : Nat) (v : Word) : State :=
  if h : (a - 0x3FFE000) / 16 < 32 then
    let n : Fin 32 := ⟨(a - 0x3FFE000) / 16, h⟩
    if a % 16 = 0 then { s with host := { s.host with msixAddr := s.host.msixAddr.set n v } }
    else
      let s := { s with host := { s.host with msixData := s.host.msixData.set n (BitVec.ofNat 32 (fld v 0 32)) } }
      if bit v 32 then { s with host := { s.host with msixMask := s.host.msixMask.set n true } } else unmaskVector n s
  else s

/-- What a write does at an internal address, a multiple of 8: `m` holds the half or halves written (R486). -/
def regWriteAt (s : State) (a : Nat) (v m : Word) : State :=
  let merged := (readMain s a &&& ~~~ m) ||| (v &&& m)
  let c := clears s a (v &&& m &&& w1cMask a)
  if a < 0xE0000 then
    (if a / 0x10000 = 6 && !windowsOpen s then s
     else writeDieReg s (a / 0x10000) (a % 0x10000 / 8) merged (v &&& m) c)
  else if 0x200000 ≤ a && a < 0x21A000 then
    (if a % 0x1000 = 0x10 then clearLinkFault s ⟨(a - 0x200000) / 0x1000 % 26, by omega⟩ c else s)
  else if 0x1000000 ≤ a && a < 0x1400000 then
    (if windowsOpen s then
      updQ s ⟨(a - 0x1000000) / 0x10000 % 64, by omega⟩ (fun qr => writeQuireReg qr (a % 0x10000 / 0x1000) (a % 0x1000 / 8) merged c)
     else s)
  else if 0x3FFE000 ≤ a && a < 0x3FFF000 then writeMsix s a merged
  else s

/-- A write to an internal address. A w1c bit that it has cleared is not cleared by a further write of the tick, which an event
may then have set (R14). -/
def regWriteMain (s : State) (a : Nat) (v m : Word) : State := setW1c a (v &&& m &&& w1cMask a) (regWriteAt s a v m)

/-- The internal address of a BAR2 offset and the bits its writes act on (R424). -/
def bar2Map (o : Nat) : Option (Nat × Word) :=
  match o with
  | 0x0000 => some (0x30048, 0xFFFF_FF0E)
  | 0x0008 => some (0x30058, 0xFFFF_FF4E)
  | 0x0010 => some (0x30068, 0xFFFF_FF0E)
  | 0x0018 => some (0x30078, ~~~0)
  | 0x0020 => some (0x10000, ~~~0)
  | 0x0100 => some (0x30030, ~~~0)
  | 0x0110 => some (0x30038, ~~~0)
  | 0x0120 => some (0x30040, ~~~0)
  | 0x0200 => some (0x50020, ~~~0)
  | 0x0208 => some (0x50028, ~~~0)
  | 0x0210 => some (0x50030, ~~~0)
  | 0x0218 => some (0x50038, ~~~0)
  | _ => none

/-- What a read of a BAR2 offset, a multiple of 8, returns: an offset that is not listed reads zero, and so does BAR2 on the
recovery path (R424 R488). -/
def bar2Read (s : State) (o : Nat) : Word :=
  if s.host.recovery then 0 else match bar2Map o with | none => 0 | some (a, _) => regRead s a

/-- The half or halves that an access of a width at an offset addresses, and the value there (R486). -/
def accessMask (offset width : Nat) : Word := if width = 8 then ~~~0 else if offset % 8 = 0 then maskOf 0 32 else maskOf 32 32
def accessValue (offset width : Nat) (v : Word) : Word := if width = 8 || offset % 8 = 0 then v else v <<< 32

/-- A write on the recovery path: the RECOVERY block only, and its GO is a command of its own (R488). -/
def regWriteRecovery (s : State) (a : Nat) (v m : Word) : State :=
  if a = 0xD0000 then writeRecLength ((readDieReg s 13 0 &&& ~~~ m) ||| (v &&& m)) s else s

/-- REGISTER_WRITE: a write of 4 or 8 bytes, naturally aligned, through BAR0 or BAR2. -/
def registerWrite (bar2 : Bool) (offset width : Nat) (value : Word) (s : State) : State :=
  let legal := (width == 4 || width == 8) && offset % width == 0 && decide (offset < if bar2 then 2 ^ 16 else 2 ^ 26)
  if !hostReach s || !legal then s
  else
    let m := accessMask offset width
    let v := accessValue offset width value
    let base := offset - offset % 8
    if s.host.recovery then (if bar2 then s else regWriteRecovery s base v m)
    else if bar2 then
      match bar2Map base with
      | none => s
      | some (a, on) => if on = ~~~0 then regWriteMain s a v m else regWriteMain s a (v &&& on) m
    else regWriteMain s base v m

/-- REGISTER_WRITE (R12). -/
def execRegisterWrite (bar2 : Bool) (offset : Nat) (width : Nat) (value : Word) (s : State) :
    Host.Outcome State Fault Refusal := .next (registerWrite bar2 offset width value (catchUp s))

/-- The host's write of HOST.DB_OUT: bits that were set when the tick began clear (R14 R445). -/
def writeOut (v : BitVec 32) (s : State) : State :=
  let c := BitVec.ofNat 64 v.toNat
  setW1c 0x30058 c (clearOut (BitVec.ofNat 32 (fld (clears s 0x30058 c) 0 32)) s)

/-- DB_OUT (R445). -/
def execDbOut (value : BitVec 32) (s : State) : Host.Outcome State Fault Refusal :=
  .next (if mainView s then writeOut value s else s)

end Sys2Proof.Machine
end

