-- ==== Sys2Proof/Machine/Sha.lean ====
section
/-! DEFINITION. SHA-256, the digest that images, colophon and binaries are reported under (R457 R458 R464; log entry 12). Its
constants are computed from the roots of the first primes that define them. -/

namespace Sys2Proof.Machine

/-- The largest r of b bits, above the bits already found, whose k-th power is at most n. -/
def rootBits (k n : Nat) : Nat → Nat → Nat
  | 0, r => r
  | b + 1, r => rootBits k n b (if (r + 2 ^ b) ^ k ≤ n then r + 2 ^ b else r)

/-- The first 32 bits behind the point of the k-th root of p, for p below 512. -/
def rootFraction (k p : Nat) : BitVec 32 := BitVec.ofNat 32 (rootBits k (p <<< (32 * k)) 37 0)

/-- The 64 primes below 312. -/
def digestPrimes : List Nat := (List.range 312).filter (fun p => 2 ≤ p && (List.range p).all (fun d => d < 2 || p % d != 0))

/-- The eight working words of a digest. -/
structure Digest where
  a : BitVec 32
  b : BitVec 32
  c : BitVec 32
  d : BitVec 32
  e : BitVec 32
  f : BitVec 32
  g : BitVec 32
  h : BitVec 32
deriving DecidableEq, Repr

/-- The digest before the first block: square roots of the first eight primes. -/
def Digest.first : Digest :=
  let r := rootFraction 2
  { a := r 2, b := r 3, c := r 5, d := r 7, e := r 11, f := r 13, g := r 17, h := r 19 }

/-- The words of two digests added. -/
def Digest.plus (x y : Digest) : Digest :=
  { a := x.a + y.a, b := x.b + y.b, c := x.c + y.c, d := x.d + y.d, e := x.e + y.e, f := x.f + y.f, g := x.g + y.g,
    h := x.h + y.h }

/-- The 32 bytes of a digest, each word most significant byte first. -/
def Digest.bytes (x : Digest) : List Byte :=
  [x.a, x.b, x.c, x.d, x.e, x.f, x.g, x.h].flatMap (fun w => (bytesLE 4 w.toNat).reverse)

/-- A word turned right by three amounts, the results combined. -/
def turned (i j k : Nat) (w : BitVec 32) : BitVec 32 := w.rotateRight i ^^^ w.rotateRight j ^^^ w.rotateRight k

/-- The word that follows a window of the latest 16 of a message's schedule. -/
def nextWord (win : List (BitVec 32)) : BitVec 32 :=
  let back := fun i : Nat => ((win[16 - i]?).getD 0 : BitVec 32)
  let near := back 2
  let far := back 15
  back 16 + back 7 + (far.rotateRight 7 ^^^ far.rotateRight 18 ^^^ (far >>> 3))
    + (near.rotateRight 17 ^^^ near.rotateRight 19 ^^^ (near >>> 10))

/-- One round with the constant k: the digest and the window of the schedule move on by a word. -/
def digestRound (v : Digest × List (BitVec 32)) (k : BitVec 32) : Digest × List (BitVec 32) :=
  let x := v.1
  let choose := (x.e &&& x.f) ||| (x.g &&& ~~~ x.e)
  let most := (x.a &&& (x.b ||| x.c)) ||| (x.b &&& x.c)
  let up := x.h + turned 6 11 25 x.e + choose + k + (v.2.head?).getD 0
  ({ a := up + turned 2 13 22 x.a + most, b := x.a, c := x.b, d := x.c, e := x.d + up, f := x.e, g := x.f, h := x.g },
   v.2.drop 1 ++ [nextWord v.2])

/-- The digest after a block of 64 bytes, under the round constants ks. -/
def digestBlock (ks : List (BitVec 32)) (x : Digest) (block : List Byte) : Digest :=
  let win := (pieces 4 16 block).map (fun p => BitVec.ofNat 32 (ofBytesLE p.reverse))
  x.plus (ks.foldl digestRound (x, win)).1

/-- The SHA-256 digest, 32 bytes: over the message, a one bit, zeros, and the length in bits in the last eight bytes of the
last block. -/
def sha256 (m : List Byte) : List Byte :=
  let blocks := (m.length + 8) / 64 + 1
  let padded := slice (m ++ [0x80]) 0 (64 * blocks - 8) ++ (bytesLE 8 (8 * m.length)).reverse
  let ks := digestPrimes.map (rootFraction 3)
  ((pieces 64 blocks padded).foldl (digestBlock ks) Digest.first).bytes

end Sys2Proof.Machine
end

