-- ==== Sys2Proof/Machine/Programs.lean ====
section
/-! DEFINITION. LOAD_PROGRAM (R186 R209 R310 R321 R326 R397 R398 R401 R438) and SET_STEP (R243). -/

namespace Sys2Proof.Machine

/-! ## The binary (R438) -/

/-- Fields of a binary's header. -/
def binVersion (h : List Byte) : Nat := numAt h 0x004 2
def binFlags (h : List Byte) : Nat := numAt h 0x006 2
def binBase (h : List Byte) : Nat := numAt h 0x008 2
def binCount (h : List Byte) : Nat := numAt h 0x00A 2
def binDieClaim (h : List Byte) : Nat := numAt h 0x00C 4
def binFolioClaim (h : List Byte) : Nat := numAt h 0x010 2
def binLength (h : List Byte) : Nat := numAt h 0x020 8
def binXb (h : List Byte) (i : Nat) : Word := BitVec.ofNat 64 (numAt h (0x100 + 8 * i) 8)

/-- FILLER and PER_QUIRE of a header. -/
def binFiller (h : List Byte) : Bool := (binFlags h).testBit 1
def binPerQuire (h : List Byte) : Bool := (binFlags h).testBit 0

/-- Bytes of the code. -/
def binCodeBytes (h : List Byte) : Nat := binCount h * 8 * (if binPerQuire h then 64 else 1)

/-- MAGIC, LENGTH, code range and FILLER (R438). -/
def binWellFormed (h : List Byte) (length : Nat) (filler : Bool) : Bool :=
  numAt h 0 4 == 0x4E425A46 && binLength h == length && length == 4096 + binCodeBytes h && codeOk (binBase h) (binCount h)
    && binFiller h == filler

/-- Every controller has a remote slot (R186). -/
def binSplitOk (h : List Byte) : Bool :=
  (List.range 4).all (fun k =>
    (List.range 16).any (fun i => bitsOf (numAt h (0x40 + 4 * k) 4) (2 * i) 2 == 2))

/-- No two valid buffers share a byte (R321). -/
def binBuffersOk (h : List Byte) : Bool :=
  (List.range 32).all (fun i => (List.range i).all (fun j =>
    let a := binXb h i
    let b := binXb h j
    !(bit a 60 && bit b 60 && countsMeet (fld a 0 27) (fld a 27 27) (fld b 0 27) (fld b 27 27))))

/-- Any task of any quire runs. -/
def anyTaskRuns (s : State) : Bool := allQuires.any (fun q => (List.finRange 4).any (fun t => (s.quires[q].seq.tasks[t]).live))

/-- The code range of a filler meets the code bound of a running task (R401). -/
def fillerMeets (s : State) (h : List Byte) : Bool :=
  allQuires.any (fun q => (List.finRange 4).any (fun t =>
    let tk := s.quires[q].seq.tasks[t]
    tk.live && tk.codeValid && countsMeet (binBase h) (binCount h) tk.codeBase tk.codeCount))

/-- The pools are exceeded by the declared claims, a filler's on top of the main binary's (R326 R401). -/
def claimsTooBig (s : State) (h : List Byte) : Bool :=
  let d := binDieClaim h + (if binFiller h then s.bind.dieClaim else 0)
  let f := binFolioClaim h + (if binFiller h then s.bind.folioClaim else 0)
  decide (fld s.con.pool 0 24 < d) || decide (fld s.con.pool 24 16 < f)

/-- The status of the first check of LOAD_PROGRAM that fails, in the order of R438. -/
def loadCheck (s : State) (h : List Byte) (length : Nat) (filler : Bool) : Option Nat :=
  if !binWellFormed h length filler then some 0x03
  else if binVersion h ≠ 0x0200 then some 0x06
  else if !filler && !(binSplitOk h && binBuffersOk h) then some 0x03
  else if (if filler then fillerMeets s h else anyTaskRuns s) then some 0x04
  else if claimsTooBig s h then some 0x07
  else none

/-! ## The load -/

/-- The code that quire q receives. -/
def codeOf (bin : List Byte) (q : Fin 64) : List Byte :=
  let n := 8 * binCount bin
  slice bin (4096 + if binPerQuire bin then n * q.val else 0) n

/-- The program store of a quire after the load: NOP outside the code of a main binary. -/
def fillStore (bin : List Byte) (q : Fin 64) (qr : Quire) : Quire :=
  let old := if binFiller bin then qr.mem.prog else []
  { qr with mem := { qr.mem with prog := writeBytes old (8 * binBase bin) (codeOf bin q) } }

/-- The owners of a port (R371). -/
def loadOwners (bin : List Byte) (p : Fin 26) (po : Port) : Port :=
  let w := numAt bin (0x200 + 2 * p.val) 2
  { po with sendQuire := bitsOf w 0 6, sendValid := w.testBit 6, recvQuire := bitsOf w 8 6, recvValid := w.testBit 14 }

/-- The header state of a main binary (R186 R209 R321 R326 R397 R398). -/
def loadHeader (bin : List Byte) (s : State) : State :=
  let w := fun a n => BitVec.ofNat 64 (numAt bin a n)
  let s := updAllQ s (fun _ qr => { qr with vec := { qr.vec with config := BitVec.ofNat 64 (bitsOf (binFlags bin) 2 1) } })
  { s with
    mcs := Vector.ofFn (fun k : Fin 4 =>
      { s.mcs[k] with split := w (0x40 + 4 * k.val) 4, mapLo := w (0x50 + 16 * k.val) 8, mapHi := w (0x58 + 16 * k.val) 8 }),
    con := { s.con with xbCfg := Vector.ofFn (fun i : Fin 32 => binXb bin i.val &&& maskOf 0 61), xbCount := Vector.replicate 32 0 },
    ports := Vector.ofFn (fun p : Fin 26 => loadOwners bin p s.ports[p]),
    hostin := { cfg := Vector.ofFn (fun k : Fin 4 => w (0x240 + 8 * k.val) 8 &&& maskOf 0 41), fence := Vector.replicate 4 0 },
    bind := { s.bind with
      loaded := binVersion bin, dieClaim := binDieClaim bin, folioClaim := binFolioClaim bin,
      entries := Vector.ofFn (fun i : Fin 16 => w (0x280 + 4 * i.val) 4),
      mainHash := sha256 bin, fillerHash := [] } }

/-- The binary goes into every store. -/
def loadBinary (bin : List Byte) (s : State) : State :=
  let s := updAllQ s (fillStore bin)
  if binFiller bin then { s with bind := { s.bind with fillerHash := sha256 bin } } else loadHeader bin s

/-- The work of LOAD_PROGRAM. -/
def loadProgramWork (s : State) (c : Cmd) : Reply :=
  let n := (prm c 1).toNat
  if !addrOk c (prm c 0) n || decide (n < 4096) then .fail s 0x03
  else withHost s c [((prm c 0).toNat, n)] (fun s =>
    let bin := sourceBytes s c (prm c 0) n
    match loadCheck s bin n (bit (prm c 2) 0) with
    | some st => .fail s st
    | none => .done (loadBinary bin s) 0x00 0 0)

/-- LOAD_PROGRAM (R438). -/
def execLoadProgram (ring : Fin 4) (pkt : Packet) (host : Option (List Byte)) (s : State) : Host.Outcome State Fault Refusal :=
  .next (commandRow loadProgramWork 0x02 ring pkt host false false s)

/-! ## SET_STEP (R243) -/

/-- The shadow store of a quire takes an image. -/
def loadShadow (image : List Byte) (qr : Quire) : Quire :=
  { qr with mem := { qr.mem with descShadow := writeBytes [] 0 image }, upd := { qr.upd with loading := true } }

/-- The work of SET_STEP: the image goes into every shadow store; it counts from its COMPLETE on. -/
def setStepWork (s : State) (c : Cmd) : Reply :=
  let a := (prm c 1).toNat
  if !farOk a 66560 then .fail s 0x03
  else .done (updAllQ s (fun _ => loadShadow (readBytes s.far a 66560))) 0x00 0 0

/-- SET_STEP (R243). -/
def execSetStep (ring : Fin 4) (pkt : Packet) (s : State) : Host.Outcome State Fault Refusal :=
  .next (commandRow setStepWork 0x07 ring pkt none false false s)

/-- SET_STEP reports COMPLETE: SHADOW_VALID and the step number are set on every quire. -/
def stepReady (s : State) (step : Word) : State :=
  updAllQ s (fun _ qr => { qr with upd := { qr.upd with loading := false, shadowValid := true, stepShadow := step } })

end Sys2Proof.Machine
end

