-- ==== Sys2Proof/Machine/Reports.lean ====
section
/-! DEFINITION. The commands that report: NOP, QUERY, READ_LEDGER, READ_TELEMETRY, ATTEST, and FW_UPDATE (R62 R434 R440
R457 R458 R463–R465 R477). -/

namespace Sys2Proof.Machine

/-- NOP (R434). -/
def nopWork (s : State) (_c : Cmd) : Reply := .done s 0x00 0 0

/-- NOP_COMMAND (R434). -/
def execNopCommand (ring : Fin 4) (pkt : Packet) (s : State) : Host.Outcome State Fault Refusal :=
  .next (commandRow nopWork 0x00 ring pkt none false false s)

/-! ## QUERY (R440) -/

/-- The model number: that of the variant whose cap is in force (R343 R461). -/
def modelNumber (s : State) : Nat := match s.clk.cap with | 0 => 6440 | 1 => 6436 | _ => 6432

/-- SERIAL of the colophon record as read; 0 where it could not be read (R461 R464). -/
def serialNumber (s : State) : Nat := if s.bind.colophonCode = 3 then 0 else numAt s.flash.colophon 0x10 8

/-- The 512-byte record of QUERY. -/
def queryRecord (s : State) : List Byte :=
  let w := fun x : Word => bytesLE 8 x.toNat
  bytesLE 8 (serialNumber s) ++ bytesLE 2 (modelNumber s) ++ bytesLE 2 s.bind.runVersion ++ bytesLE 4 0
    ++ w (isaCapsWord s) ++ w s.bind.fenceMap ++ w (opStatusWord s.clk) ++ w s.con.pool ++ w (powerInputWord s.pwr)
    ++ w s.clk.stitch ++ (List.finRange 26).flatMap (fun l => w (linkStatusWord s l)) ++ w (hostStatusWord s)
    ++ List.replicate 232 0

/-- The work of QUERY. -/
def queryWork (s : State) (c : Cmd) : Reply :=
  if !addrOk c (prm c 0) 512 then .fail s 0x03
  else withHost s c [] (fun s => .done (writeResults s c [((prm c 0).toNat, queryRecord s)]) 0x00 0 0)

/-- QUERY (R440). -/
def execQuery (ring : Fin 4) (pkt : Packet) (host : Option (List Byte)) (s : State) : Host.Outcome State Fault Refusal :=
  .next (commandRow queryWork 0x01 ring pkt host false false s)

/-! ## READ_LEDGER (R62 R440) -/

/-- The records of COUNT slots from FIRST on. -/
def ledgerRecords (qr : Quire) (first count : Nat) : List Byte :=
  (List.range count).flatMap (fun i => (vecAt qr.ledger LedgerSlot.reset (first + i)).bytes)

/-- The captured slots at their reset values. -/
def clearSlots (first count : Nat) (qr : Quire) : Quire :=
  { qr with ledger := Vector.ofFn (fun i : Fin 256 =>
      if first ≤ i.val && i.val < first + count then LedgerSlot.reset else qr.ledger[i]) }

/-- The work of READ_LEDGER. -/
def readLedgerWork (s : State) (c : Cmd) : Reply :=
  let p0 := prm c 0
  let first := fld p0 16 8
  let count := fld p0 24 9
  match namedQuires p0 with
  | none => .fail s 0x03
  | some qs =>
    if count = 0 || decide (256 < first + count) then .fail s 0x03
    else if !addrOk c (prm c 1) (qs.length * count * 16) then .fail s 0x03
    else withHost s c [] (fun s =>
      let at' := fun q : Fin 64 => (prm c 1).toNat + if bit p0 8 then q.val * count * 16 else 0
      let s' := writeResults s c (qs.map (fun q => (at' q, ledgerRecords s.quires[q] first count)))
      .done (if bit p0 40 then qs.foldl (fun s q => updQ s q (clearSlots first count)) s' else s') 0x00 0 0)

/-- READ_LEDGER (R62). -/
def execReadLedger (ring : Fin 4) (pkt : Packet) (host : Option (List Byte)) (s : State) : Host.Outcome State Fault Refusal :=
  .next (commandRow readLedgerWork 0x09 ring pkt host false false s)

/-! ## READ_TELEMETRY (R440 R477 R478) -/

/-- The entries of a request list. -/
def requestList (bs : List Byte) (n : Nat) : List Nat := (List.range n).map (fun i => numAt bs (8 * i) 8)

/-- A BAR0 offset in [25:0], a multiple of 8. -/
def entryOk (e : Nat) : Bool := decide (e < 2 ^ 26) && e % 8 == 0

/-- The work of READ_TELEMETRY. -/
def readTelemetryWork (s : State) (c : Cmd) : Reply :=
  let n := (prm c 1).toNat
  if n = 0 || decide (512 < n) || !addrOk c (prm c 0) (8 * n) || !addrOk c (prm c 2) (8 * n) then .fail s 0x03
  else withHost s c [((prm c 0).toNat, 8 * n)] (fun s =>
    let es := requestList (sourceBytes s c (prm c 0) (8 * n)) n
    if !es.all entryOk then .fail s 0x03
    else .done (writeResults s c [((prm c 2).toNat, es.flatMap (fun e => bytesLE 8 (regRead s e).toNat))]) 0x00 0 0)

/-- READ_TELEMETRY (R440). -/
def execReadTelemetry (ring : Fin 4) (pkt : Packet) (host : Option (List Byte)) (s : State) :
    Host.Outcome State Fault Refusal := .next (commandRow readTelemetryWork 0x0A ring pkt host false false s)

/-! ## ATTEST (R464) -/

/-- The signed bytes of the colophon with their signature; none where it could not be read (R461 R464). -/
def colophonHash (s : State) : List Byte :=
  if s.bind.colophonCode = 3 then List.replicate 32 0
  else sha256 (slice s.flash.colophon 0 (numAt s.flash.colophon 8 4 + 384))

/-- Bytes 0x000 to 0x0FF of the report. -/
def attestHead (s : State) (c : Cmd) : List Byte :=
  let flags := b2n (!s.bind.keyOk) + 2 * b2n (s.bind.loaded == 0) + 4 * b2n (s.bind.colophonCode != 0)
  bytesLE 4 0x54535441 ++ bytesLE 2 1 ++ bytesLE 2 flags ++ bytesLE 8 (serialNumber s) ++ bytesLE 8 (tick s)
    ++ bytesLE 8 (isaCapsWord s).toNat ++ ([0, 1, 2, 3] : List (Fin 7)).flatMap (fun i => bytesLE 8 (prm c i).toNat)
    ++ slice s.bind.runHash 0 32 ++ colophonHash s ++ slice s.bind.mainHash 0 32 ++ slice s.bind.fillerHash 0 32
    ++ bytesLE 8 s.bind.fenceMap.toNat ++ List.replicate 56 0

/-- The report: without the identity key modulus and signature are 0. -/
def attestReport (s : State) (c : Cmd) : List Byte :=
  if !s.bind.keyOk then attestHead s c ++ List.replicate 768 0
  else
    let signed := attestHead s c ++ slice Config.identityModulus 0 384
    signed ++ slice (Config.identitySign signed) 0 384

/-- The work of ATTEST. -/
def attestWork (s : State) (c : Cmd) : Reply :=
  let n := (prm c 5).toNat
  if decide (n < 1024) || !addrOk c (prm c 4) n then .fail s 0x03
  else withHost s c [] (fun s => .done (writeResults s c [((prm c 4).toNat, attestReport s c)]) 0x00 0 0)

/-- ATTEST (R464). -/
def execAttest (ring : Fin 4) (pkt : Packet) (host : Option (List Byte)) (s : State) : Host.Outcome State Fault Refusal :=
  .next (commandRow attestWork 0x10 ring pkt host false false s)

/-! ## FW_UPDATE (R457 R458 R465) -/

/-- MAGIC and length of an image are valid: a header of 4,096 bytes, at most 12 MiB in all (R457 R458). Whether modulus and
signature are those of the root key, whose hash only the mask ROM holds, is an operand of the row (log entry 12). -/
def imageShape (img : List Byte) : Bool :=
  numAt img 0 4 == 0x574D4946 && numAt img 8 4 == img.length && decide (4096 ≤ img.length) && decide (img.length ≤ 12 * 2 ^ 20)

/-- The version in an image's header (R457). -/
def imageVersion (img : List Byte) : Nat := numAt img 4 2

/-- The boot ROM can run what the flash holds: no write has left it broken, and MAGIC and length are valid (R458 R465 R482). -/
def flashGood (f : Flash) : Bool := f.imageOk && imageShape f.image

/-- The image region of the flash after the write; a write that never reads back as written leaves it broken. -/
def flashImage (img : List Byte) (written : Bool) (s : State) : State :=
  { s with flash := { s.flash with image := img, imageOk := written } }

/-- The work of FW_UPDATE. -/
def fwUpdateWork (s : State) (c : Cmd) : Reply :=
  let n := (prm c 1).toNat
  if !addrOk c (prm c 0) n then .fail s 0x03
  else if s.bind.cmds.any (fun d => d.open 0x0F) then .fail s 0x04
  else withHost s c [((prm c 0).toNat, n)] (fun s =>
    let img := sourceBytes s c (prm c 0) n
    if !(c.verified && imageShape img) then .fail s 0x10
    else .done (flashImage img c.written s) (if c.written then 0x00 else 0x10) 0 0)

/-- FW_UPDATE (R465). -/
def execFwUpdate (ring : Fin 4) (pkt : Packet) (host : Option (List Byte)) (verified written : Bool) (s : State) :
    Host.Outcome State Fault Refusal := .next (commandRow fwUpdateWork 0x0F ring pkt host verified written s)

end Sys2Proof.Machine
end

