-- ==== Sys2Proof/Machine/Boot.lean ====
section
/-! DEFINITION. Cold power-on, the colophon, power loss, the bindery's watchdog and the recovery path (R17 R22 R32 R104
R152 R166 R324 R354 R456–R467 R482 R494 R498). -/

namespace Sys2Proof.Machine

/-! ## The colophon (R22 R152 R166 R461 R462) -/

/-- The fence entries: folio and site. DESIGN CHOICE: the field holds 16 entries, and R461 does not say which a FENCE_COUNT above
16 names; here the first 16 form FENCE_MAP, and the fencing is inconsistent (log entry 46). -/
def fenceEntries (col : List Byte) : List (Nat × Nat) :=
  (List.range (min 16 (numAt col 0x1C 1))).map (fun i => (numAt col (0x20 + 2 * i) 1, numAt col (0x21 + 2 * i) 1))

/-- Every folio has exactly one entry, and no entry names a folio or a site that does not exist (R22). -/
def fencingOk (col : List Byte) : Bool :=
  let es := fenceEntries col
  decide (numAt col 0x1C 1 ≤ 16) && es.all (fun e => decide (e.1 ≤ 15) && decide (e.2 ≤ 4))
    && (List.range 16).all (fun f => (es.filter (fun e => e.1 == f)).length == 1)

/-- The field of a folio in FENCE_MAP: the site of its only entry, else 7 (R32). -/
def fenceField (col : List Byte) (f : Nat) : Nat :=
  match (fenceEntries col).filter (fun e => e.1 == f) with
  | [e] => if e.2 ≤ 4 then e.2 else 7
  | _ => 7

/-- BINDERY.FENCE_MAP by the outcome of the colophon (R32 R462). -/
def fenceMapOf (col : List Byte) (outcome : Nat) : Word :=
  packFlds ((List.range 16).map (fun f => (3 * f, 3, if outcome = 0 || outcome = 2 then fenceField col f else 7)))

/-- The repair entries. -/
def repairEntries (col : List Byte) : List Word :=
  (List.range (numAt col 0x510 4)).map (fun i => BitVec.ofNat 64 (numAt col (0x520 + 8 * i) 8))

/-- Physical rows and spares of a memory code of the repair entries (R152 R166). -/
def repairRows (mem : Nat) : Nat :=
  match mem with | 0 => 32768 | 1 => 33792 | 2 => 65536 | 3 => 1024 | 4 => 512 | _ => 512
def repairSpares (mem : Nat) : Nat :=
  match mem with | 0 => 64 | 1 => 64 | 2 => 128 | 3 => 8 | _ => 4

/-- The rows listed for a memory of a site, each once. -/
def repairsOf (col : List Byte) (f site mem : Nat) : List Nat :=
  (((repairEntries col).filter (fun e => fld e 0 4 == f && fld e 4 3 == site && fld e 8 3 == mem)).map (fun e => fld e 16 16)).eraseDups

/-- The repair entries are consistent; those of a fenced site are ignored (R152 R166 R462). -/
def repairsOk (col : List Byte) : Bool :=
  (repairEntries col).all (fun e =>
      decide (fld e 4 3 ≤ 4) && decide (fld e 8 3 ≤ 5)
        && (fenceField col (fld e 0 4) == fld e 4 3 || decide (fld e 16 16 < repairRows (fld e 8 3))))
    && (List.range 16).all (fun f => (List.range 5).all (fun site => (List.range 6).all (fun mem =>
      fenceField col f == site || decide ((repairsOf col f site mem).length ≤ repairSpares mem))))

/-- Limits of a variant by its cap: sustained and peak power, die and folio pool (R3 R324 R354). -/
def variantLimits (cap : Nat) : Nat × Nat × Nat × Nat :=
  match cap with
  | 0 => (3200, 3600, 140000, 11666)
  | 1 => (2800, 3150, 133333, 11111)
  | _ => (2400, 2700, 125000, 10416)

/-- MODEL, CAP, SUSTAINED_W and PEAK_W agree with the tables (R462). -/
def limitsAgree (col : List Byte) : Bool :=
  let cap := numAt col 0x0C 1
  let l := variantLimits cap
  decide (cap ≤ 2) && numAt col 6 2 == 6440 - 4 * cap && numAt col 0x18 2 == l.1 && numAt col 0x1A 2 == l.2.1

/-- The outcome of the colophon: 0 applied, 1 signature failed, 2 inconsistent, 3 unreadable (R462). -/
def colophonOutcome (env : BootEnv) (col : List Byte) : Nat :=
  if !env.colophonReadable then 3
  else if !env.colophonSigned then 1
  else if !(limitsAgree col && fencingOk col && repairsOk col) then 2 else 0

/-- A quire after cold power-on: skew and spares from the colophon (R104 R154 R188). -/
def bootQuire (col : List Byte) (map : Word) (q : Fin 64) (qr : Quire) : Quire :=
  let z := fld map (3 * (q.val / 4)) 3
  let site := siteOf z q
  let n := fun mem => (repairsOf col (q.val / 4) site mem).length
  let skew : Word := if site < z then 0x9 else 0x6
  { Quire.reset skew (packFlds [(0, 7, n 0), (8, 7, n 1), (16, 8, n 2)]) (packFlds [(0, 4, n 3), (4, 3, n 4), (7, 3, n 5)]) with
    qmask := qr.qmask }

/-! ## Cold power-on (R459 R460) -/

/-- The cap of the colophon is set; an index below it is not in force any more (R343). -/
def Clk.capped (cap : Nat) (c : Clk) : Clk :=
  if c.current < cap then { c.settle with cap := cap, current := 5, target := 5 } else { c with cap := cap }

/-- Stage 3 and 5: the firmware starts, the colophon is applied or not. -/
def bootBindery (env : BootEnv) (s : State) : State :=
  let col := s.flash.colophon
  let outcome := colophonOutcome env col
  let map := fenceMapOf col outcome
  let cap := if outcome = 0 then numAt col 0x0C 1 else 2
  let l := variantLimits cap
  let pool : Word := BitVec.ofNat 64 (l.2.2.1 + l.2.2.2 * 2 ^ 24)
  let s := clearBlocks s
  { s with
    quires := Vector.ofFn (fun q : Fin 64 => bootQuire (if outcome = 0 then col else []) map q s.quires[q]),
    con := Contract.reset pool,
    clk := s.clk.capped cap,
    pwr := { s.pwr with on := 0x3FFF_FFFF, sustLimit := BitVec.ofNat 16 l.1, peakLimit := BitVec.ofNat 16 l.2.1 },
    host := { s.host with colophonInvalid := outcome != 0, recovery := false },
    bind := { s.bind with
      fenceMap := map, colophonCode := outcome, keyOk := env.keyOk, held := outcome != 0,
      runHash := sha256 s.flash.image, runVersion := imageVersion s.flash.image } }

/-- The reference at the first power-on: without it the root runs from the internal oscillator (R343 R349 R350). -/
def bootClock (env : BootEnv) (c : Clk) : Clk :=
  if env.reference then { c with present := true, source := 0 }
  else { c with present := false, source := 2, restore := some c.current }

/-- Stage 6a and 6b: failures of an enabled site and of controllers are recorded (R460). DESIGN CHOICE: R22 keeps the compute part
of an inconsistent colophon in reset and does not say whether its sites are tested; here they are, and as FENCE_MAP then names
no fenced site, a failure of any site counts (log entry 46). -/
def bootSelftest (env : BootEnv) (s : State) : State :=
  let site := env.selftestFail.filter (fun p => fld s.bind.fenceMap (3 * p.1.val) 3 != p.2.val)
  let failed := site.isSome || env.mcFail != 0
  { s with bind := { s.bind with
      selftestFail := failed, mcFail := env.mcFail.toNat,
      bistFolio := (site.map (·.1.val)).getD 0, bistSite := (site.map (·.2.val)).getD 0 } }

/-- Stage 6c: the first training of every link, where the reference is present and the colophon applied (R22 R382). -/
def bootLinks (env : BootEnv) (s : State) : State :=
  if !s.clk.present || s.bind.held then s
  else (List.finRange 26).foldl (fun s l =>
    if s.links[l].disabled then s else endTraining (updLink s l (fun k => { k with state := 1 })) l env.lanes[l]) s

/-- READY: FAULT_N released unless the fault path holds, and what the host rang before is sampled; a failed self-test
starts the fault path (R460 R498). -/
def bootReady (env : BootEnv) (s : State) : State :=
  let s := { s with bind := { s.bind with stage := 15, bootMs := env.bootMs, faultN := s.bind.latch },
                    host := { s.host with ready := true, linkUp := s.host.linkUp || !s.host.perst } }
  let s := if s.bind.selftestFail then raiseDie s 10 0 0 0 else s
  sampleHeld s

/-- The recovery path begins: the boot ROM alone runs (R467). -/
def enterRecovery (s : State) : State :=
  { s with bind := { s.bind with stage := 2, faultN := true },
           host := { s.host with recovery := true, linkUp := s.host.linkUp || !s.host.perst },
           trace := { s.trace with recState := 0 } }

/-- The domains of the recovery path at a power-on: bindery, clock root, mesh, host interface and MC3. -/
def recoveryDomains : BitVec 30 := 0x80F

/-- The boot from stage 2 on; the stitch count runs on by the time that BOOT_MS records (log entry 31). -/
def bootFrom (env : BootEnv) (s : State) : State :=
  let s := { s with clk := { s.clk with stitch := s.clk.stitch + BitVec.ofNat 64 (1000 * env.bootMs) } }
  if !(env.imageOk && flashGood s.flash) then
    let s := enterRecovery s
    { s with pwr := { s.pwr with on := recoveryDomains }, bind := { s.bind with held := true } }
  else bootReady env (bootLinks env (bootSelftest env (bootBindery env s)))

/-- The module when its input comes into range: everything at its power-on value, the stepping of the die, flash and board pins kept. -/
def powerUp (s : State) : State :=
  { State.reset with flash := s.flash, free := s.free, pending := s.pending,
                     host := { State.reset.host with perst := s.host.perst },
                     bind := { State.reset.bind with stepping := s.bind.stepping } }

/-- COLD_POWER_ON: from no power, or the rest of a boot that has begun. -/
def coldPowerOn (env : BootEnv) (s : State) : State :=
  if s.pwr.powered && (s.bind.stage == 15 || s.host.recovery) then s
  else
    let s := if s.pwr.powered then s else powerUp s
    bootFrom env (if s.bind.stage = 1 then { s with clk := bootClock env s.clk } else s)

/-- COLD_POWER_ON (R459). -/
def execColdPowerOn (env : BootEnv) (s : State) : Host.Outcome State Fault Refusal := .next (coldPowerOn env s)

/-- POWER_LOSS: all state outside flash is lost; an image being written is left broken (R482 R494 R498). -/
def powerLoss (s : State) : State :=
  let broken := s.bind.cmds.any (fun c => c.opcode == 0x0F && (match c.st with | .done st _ _ => st == 0 | _ => false))
  let s' := powerUp s
  { s' with pwr := { s'.pwr with powered := false },
            flash := { s.flash with imageOk := s.flash.imageOk && !broken } }

/-- POWER_LOSS (R494). -/
def execPowerLoss (s : State) : Host.Outcome State Fault Refusal := .next (powerLoss s)

/-! ## Watchdog and recovery path (R466 R467) -/

/-- Commands in progress answer FAULTED. -/
def faultCommands (s : State) : State :=
  let n := s.bind.doneCount
  { s with bind := { s.bind with
      doneCount := n + 1,
      cmds := s.bind.cmds.map (fun c =>
        match c.st with
        | .done _ _ _ => c
        | _ => { c with st := .done 0x0E c.stopped (BitVec.ofNat 64 c.maxLc), doneAt := n }) } }

/-- WATCHDOG: the fault path starts, the commands in progress answer FAULTED, and the flash image runs again or the
recovery path is entered. -/
def watchdog (s : State) : State :=
  if !firmwareRuns s then s
  else
    let s := faultCommands (raiseDie s 11 0 0 0)
    if flashGood s.flash then
      { s with bind := { s.bind with runHash := sha256 s.flash.image, runVersion := imageVersion s.flash.image } }
    else enterRecovery s

/-- WATCHDOG (R466). -/
def execWatchdog (s : State) : Host.Outcome State Fault Refusal := .next (watchdog s)

/-- The image that the host has placed at BAR4 offset 0, as long as its header says. -/
def recoveryImage (s : State) (units : Nat) : List Byte :=
  let raw := readBytes s.far 0x9_0000_0000 (4096 * units)
  raw.take (numAt raw 8 4)

/-- GO: an image that verifies goes into flash and the boot restarts at stage 2; another sets STATE 3. -/
def recoveryRun (verified : Bool) (s : State) : State :=
  let units := s.trace.recLength
  let img := recoveryImage s units
  if verified && 1 ≤ units && units ≤ 3072 && imageShape img then
    { s with flash := { s.flash with image := img, imageOk := true },
             host := { s.host with recovery := false }, bind := { s.bind with stage := 2 },
             trace := { s.trace with recState := 0 } }
  else { s with trace := { s.trace with recState := 3 } }

/-- RECOVERY_GO: a write of RECOVERY.CTL on the recovery path. -/
def recoveryGo (value : Word) (verified : Bool) (s : State) : State :=
  if !(hostReach s && s.host.recovery) then s
  else
    let s := writeRecLength value s
    if bit value 0 then recoveryRun verified s else s

/-- RECOVERY_GO (R467). -/
def execRecoveryGo (value : Word) (verified : Bool) (s : State) : Host.Outcome State Fault Refusal :=
  .next (recoveryGo value verified s)

/-! ## The end of a trace incident (R476) -/

/-- The incident marker; the lc count, the task and where no quire is named are free values (log entry 4). -/
def markerBytes (inc : Incident) (lc task : Nat) : List Byte :=
  bytesLE 8 inc.firstStitch ++ bytesLE 4 lc ++ bytesLE 1 7 ++ bytesLE 1 0xFF ++ bytesLE 1 task
    ++ bytesLE 1 (inc.held.length + inc.latest.length) ++ bytesLE 8 inc.dropped ++ bytesLE 8 inc.lastStitch

/-- TRACE_INCIDENT_END: with 64 free records the marker and the kept records are written. -/
def incidentEnd (f : Fin 16) (s : State) : State :=
  match s.trace.incident[f] with
  | none => s
  | some inc =>
    if !(s.pwr.powered && pdOn s 13) || decide (32768 < traceFill s f + 64) then s
    else
      let (a, s) := takeFree s
      let (b, s) := takeFree s
      let s := { s with trace := { s.trace with
        incident := s.trace.incident.set f none, ptr := s.trace.ptr.set f (setFld s.trace.ptr[f] 32 1 0) } }
      (markerBytes inc a.toNat b.toNat :: (inc.held ++ inc.latest)).foldl (fun s rec' => tracePut s f rec') s

/-- TRACE_INCIDENT_END (R476). -/
def execTraceIncidentEnd (folio : FolioId) (s : State) : Host.Outcome State Fault Refusal := .next (incidentEnd folio s)

end Sys2Proof.Machine
end

