-- ==== Sys2Proof/Machine/Regions.lean ====
section
/-! DEFINITION. LOAD_REGION and EXPORT_REGION (R31 R147 R439). -/

namespace Sys2Proof.Machine

/-- Rows of a TARGET of R439. -/
def regionRows (target : Nat) : Nat :=
  match target with
  | 0 => 1024 | 1 => 512 | 2 => 512 | 3 => 32768 | 4 => 32768 | 5 => 65536 | 6 => 1024 | _ => 0

/-- Memory code of a TARGET: 0 weight, 1 moment, 2 scale array, 3 gradient, 4 to 6 the scratchpads. -/
def regionMem (target : Nat) : Nat :=
  match target with
  | 0 => 4 | 1 => 5 | 2 => 6 | 3 => 0 | 4 => 1 | 5 => 3 | _ => 2

/-- Where quire q's rows lie in far memory. -/
def regionAddr (c : Cmd) (q : Fin 64) : Nat :=
  (prm c 2).toNat + if bit (prm c 0) 8 then q.val * (prm c 3).toNat else 0

/-- The checks of both commands, in the order R31, the parameters, R147. -/
def regionCheck (s : State) (c : Cmd) : Option Nat :=
  let target := fld (prm c 0) 16 3
  let first := fld (prm c 1) 0 17
  let rows := fld (prm c 1) 32 17
  match namedQuires (prm c 0) with
  | none => some 0x03
  | some qs =>
    if target = 7 || rows = 0 || decide (65536 < rows) || decide (regionRows target < first + rows) then some 0x03
    else if bit (prm c 0) 8 && (prm c 3).toNat % 512 != 0 then some 0x03
    else if !(qs.all (fun q => farOk (regionAddr c q) (512 * rows))) then some 0x03
    else if qs.any (fun q => (List.finRange 4).any (fun t => (s.quires[q].seq.tasks[t]).live)) then some 0x04
    else none

/-- Moves rows of one quire into the target. -/
def loadRows (c : Cmd) (far : Mem) (q : Fin 64) (qr : Quire) : Quire :=
  let mem := regionMem (fld (prm c 0) 16 3)
  let first := fld (prm c 1) 0 17
  let rows := fld (prm c 1) 32 17
  let bs := readBytes far (regionAddr c q) (512 * rows)
  if mem ≥ 4 then putRows qr (mem - 4) first (pieces 512 rows bs) else writeBank qr mem (512 * first) bs

/-- The work of LOAD_REGION. -/
def loadRegionWork (s : State) (c : Cmd) : Reply :=
  match regionCheck s c with
  | some st => .fail s st
  | none =>
    .done (((namedQuires (prm c 0)).getD []).foldl (fun s q => updQ s q (loadRows c s.far q)) s) 0x00 0 0

/-- LOAD_REGION (R439). -/
def execLoadRegion (ring : Fin 4) (pkt : Packet) (s : State) : Host.Outcome State Fault Refusal :=
  .next (commandRow loadRegionWork 0x03 ring pkt none false false s)

/-- The 512 B row of what a read found: a scratchpad names the row itself. -/
def noteRow (n : ReadNote) : Nat := if n.mem ≥ 4 then n.word else n.word * codeBytes n.mem / 512

/-- The rows before the first one that holds a failed word. -/
def goodRows (notes : List ReadNote) (first rows : Nat) : Nat :=
  (notes.filter (fun n => n.sev == 3)).foldl (fun a n => min a (noteRow n - first)) rows

/-- Exports the rows of one quire; with an uncorrectable error none from the failed one on, and a fault of class MEMORY
(R151 R165 R439). The flag says that the transfer goes on. -/
def exportRows (c : Cmd) (a : State × Bool) (q : Fin 64) : State × Bool :=
  if !a.2 then a
  else
    let s := a.1
    let mem := regionMem (fld (prm c 0) 16 3)
    let first := fld (prm c 1) 0 17
    let rows := fld (prm c 1) 32 17
    let rd := protRead s.quires[q] mem (512 * first) (512 * rows)
    let good := goodRows rd.2 first rows
    let met := rd.2.filter (fun n => decide (noteRow n - first ≤ good))
    let s := noteReads (farWrite s (regionAddr c q) (rd.1.take (512 * good))) q 2 3 met
    if anyUncorrectable rd.2 then
      ({ s with bind := { s.bind with raised := s.bind.raised ++
          [{ cls := 2, quire := some q, link := 0, originClass := 0, originId := 0, tick := tick s }] } }, false)
    else (s, true)

/-- The work of EXPORT_REGION; stopped by a fault it stays in progress until the fault path answers it. -/
def exportRegionWork (s : State) (c : Cmd) : Reply :=
  match regionCheck s c with
  | some st => .fail s st
  | none =>
    let r := ((namedQuires (prm c 0)).getD []).foldl (exportRows c) (s, true)
    if r.2 then .done r.1 0x00 0 0 else .going r.1 c

/-- EXPORT_REGION (R439). -/
def execExportRegion (ring : Fin 4) (pkt : Packet) (s : State) : Host.Outcome State Fault Refusal :=
  .next (commandRow exportRegionWork 0x04 ring pkt none false false s)

end Sys2Proof.Machine
end

