-- ==== Sys2Proof/Machine/Topology.lean ====
section
/-! DEFINITION. SET_OPERATING_POINT, SET_TOPOLOGY and LINK_CONTROL (R344 R385–R389). -/

namespace Sys2Proof.Machine

/-! ## SET_OPERATING_POINT (R344) -/

/-- The checks of SET_OPERATING_POINT, in the order given. -/
def operatingCheck (s : State) (target kettle : Nat) : Option Nat :=
  let n := tick s
  if target = 7 || decide (target < s.clk.cap) then some 0x03
  else if decide (target < 5) && bit s.con.debugCtl 0 then some 0x03
  else if decide (kettle < n + 64) || decide (n + 1000000 < kettle) then some 0x03
  else if s.clk.source ≠ 0 then some 0x09
  else if s.clk.opPending then some 0x04
  else none

/-- The work of SET_OPERATING_POINT: the change is pending until its kettle count. -/
def operatingWork (s : State) (c : Cmd) : Reply :=
  let target := fld (prm c 0) 0 3
  let kettle := (prm c 1).toNat
  match operatingCheck s target kettle with
  | some st => .fail s st
  | none => .going { s with clk := s.clk.schedule target kettle } c

/-- SET_OPERATING_POINT (R344). -/
def execSetOperatingPoint (ring : Fin 4) (pkt : Packet) (s : State) : Host.Outcome State Fault Refusal :=
  .next (commandRow operatingWork 0x0B ring pkt none false false s)

/-! ## SET_TOPOLOGY (R386 R387 R389) -/

/-- The two words of port p's entry in a descriptor. -/
def entryWord (d : List Byte) (p i : Nat) : Word := BitVec.ofNat 64 (numAt d (64 + 16 * p + 8 * i) 8)

/-- One port's entry is legal. -/
def entryLegal (w0 w1 : Word) : Bool :=
  let phys := fld w0 0 5
  (decide (phys < 26) || (phys == 31 && fld w0 5 2 == 0)) && fld w0 7 1 == 0 && fld w0 13 19 == 0 && fld w1 32 32 == 0
    && decide (fld w0 8 5 < 26 || phys = 31) && decide (fld w1 0 20 + fld w1 20 12 ≤ 786432)

/-- No two ports name one physical link. -/
def physDistinct (d : List Byte) : Bool :=
  (List.range 26).all (fun p => (List.range p).all (fun o =>
    fld (entryWord d p 0) 0 5 == 31 || fld (entryWord d p 0) 0 5 != fld (entryWord d o 0) 0 5))

/-- The descriptor is accepted: version, reserved bytes, every entry. -/
def topologyOk (d : List Byte) : Bool :=
  numAt d 0 2 == 1 && numAt d 2 2 == 0 && (slice d 12 52).all (· == 0) && (slice d 480 32).all (· == 0)
    && (List.range 26).all (fun p => entryLegal (entryWord d p 0) (entryWord d p 1)) && physDistinct d

/-- Messages of the outbound stores for a port. -/
def outboundOf (s : State) (p : Fin 26) : Nat :=
  (allQuires.map (fun q => (s.quires[q].stream.writes.filter (fun o => o.far == 2 && o.port == p.val)).length)).foldl (· + ·) 0

/-- Messages that a port holds: landed or taken, being received, sent and unacknowledged, or waiting. -/
def heldMessages (s : State) (p : Fin 26) : Nat :=
  let po := s.ports[p]
  po.landedSizes.length + po.taken + po.rx.length + po.tx.length + outboundOf s p

/-- Every message held for a link is dropped and counted. -/
def dropMessages (s : State) : State :=
  let s := { s with ports := Vector.ofFn (fun p : Fin 26 =>
    let po := s.ports[p]
    { po with drops := po.drops + BitVec.ofNat 32 (heldMessages s p) }) }
  updAllQ s (fun _ qr => { qr with stream := { qr.stream with writes := qr.stream.writes.filter (fun o => o.far != 2) } })

/-- A port under a descriptor: mapped as its entry says, its rings empty, its space to be granted anew (R373 R386). -/
def mapPort (d : List Byte) (p : Fin 26) (po : Port) : Port :=
  let w0 := entryWord d p.val 0
  let w1 := entryWord d p.val 1
  let size := if fld w0 0 5 = 31 then 0 else 262144 + fld w1 20 12 * 65536
  { po with phys := BitVec.ofNat 5 (fld w0 0 5), width := fld w0 5 2, peerPort := fld w0 8 5,
            peerId := BitVec.ofNat 32 (fld w0 32 32), landBase := fld w1 0 20, landSize := fld w1 20 12, head := 0, landed := 0,
            taken := 0, takenBytes := 0, landedReady := [], landedSizes := [], credit := 0, sent := 0, tx := [], rx := [],
            owed := size / 512, granted := 0, rxSize := size }

/-- A link under the ports of a descriptor that is not in force yet: its port; no link is required (R380 R387). -/
def mapLink (s : State) (l : Fin 26) : Link :=
  { s.links[l] with port := BitVec.ofNat 5 (((portOn s l).map (·.val)).getD 31), required := false }

/-- A link under the descriptor in force: required where its port requires a width (R380). -/
def requireLink (s : State) (l : Fin 26) : Link :=
  { s.links[l] with required := ((portOn s l).map (fun p => s.ports[p].width != 0)).getD false }

/-- Every message is dropped, the remap is loaded, the identity stage runs on every link that is up (R387 steps 1 to 3). -/
def loadTopology (d : List Byte) (s : State) : State :=
  let s := dropMessages s
  let s := { s with ports := Vector.ofFn (fun p : Fin 26 => mapPort d p s.ports[p]),
                    bind := { s.bind with deviceId := BitVec.ofNat 32 (numAt d 4 4), job := BitVec.ofNat 64 (numAt d 8 4),
                                          topoLoaded := false, topoCmdTick := tick s } }
  let s := { s with links := Vector.ofFn (fun l : Fin 26 => mapLink s l) }
  ((List.finRange 26).filter (fun l => linkIsUp s l)).foldl runIdentity s

/-- Every required port has its link up at its width or wider, and the peer reports what the entry names (R387). -/
def topologyMet (s : State) : Bool :=
  (List.finRange 26).all (fun p =>
    let po := s.ports[p]
    if h : po.phys.toNat < 26 then
      let l : Fin 26 := ⟨po.phys.toNat, h⟩
      po.width == 0 || (linkIsUp s l && decide (po.width ≤ s.links[l].width) && identityOk s l p)
    else true)

/-- Task 0 runs on some quire. -/
def anyRun (s : State) : Bool := allQuires.any (fun q => (s.quires[q].seq.tasks[0]).live)

/-- The work of SET_TOPOLOGY: another one in progress makes it BUSY (log entry 33). -/
def topologyWork (s : State) (c : Cmd) : Reply :=
  let a := (prm c 0).toNat
  let d := readBytes s.far a 512
  if !farOk a 512 then .fail s 0x03
  else if !topologyOk d then .fail s 0x03
  else if anyRun s || s.bind.cmds.any (fun d => d.open 0x0C) then .fail s 0x04
  else .going (loadTopology d s) c

/-- SET_TOPOLOGY (R387). -/
def execSetTopology (ring : Fin 4) (pkt : Packet) (s : State) : Host.Outcome State Fault Refusal :=
  .next (commandRow topologyWork 0x0C ring pkt none false false s)

/-- The descriptor loaded is the topology in force. -/
def enforceTopology (s : State) : State :=
  { s with links := Vector.ofFn (fun l : Fin 26 => requireLink s l), bind := { s.bind with topoLoaded := true } }

/-- A SET_TOPOLOGY whose conditions are met is COMPLETE, and its descriptor in force (R387). -/
def settleTopology (s : State) : State :=
  if opcodeRuns s 0x0C && topologyMet s then answerCmds (enforceTopology s) (fun c => c.opcode == 0x0C) 0x00 0 0
  else s

/-- No topology is in force: every port unmapped, no link required. -/
def unloadTopology (s : State) : State :=
  { s with ports := s.ports.map unmapPort,
           links := s.links.map (fun k => { k with port := 31, required := false }),
           bind := { s.bind with topoLoaded := false } }

/-- TOPOLOGY_WAIT_EXPIRY: the 100,000 ticks of the wait are over; COMPLETE where the conditions are met, else
TOPOLOGY_MISMATCH. -/
def topologyExpiry (s : State) : State :=
  if !(firmwareRuns s && opcodeRuns s 0x0C && decide (s.bind.topoCmdTick + 100000 ≤ tick s)) then s
  else if topologyMet s then settleTopology s
  else answerCmds (unloadTopology s) (fun c => c.opcode == 0x0C) 0x08 0 0

/-- TOPOLOGY_WAIT_EXPIRY (R387). -/
def execTopologyWaitExpiry (s : State) : Host.Outcome State Fault Refusal := .next (topologyExpiry s)

/-! ## LINK_CONTROL (R385) -/

/-- An action of LINK_CONTROL on a link: `busy` says that a required link refuses it while the compute part runs. -/
def linkAction (busy : Bool) (act : State → Fin 26 → State) (s : State) (c : Cmd) : Reply :=
  if h : fld (prm c 0) 0 5 < 26 then
    let l : Fin 26 := ⟨fld (prm c 0) 0 5, h⟩
    if busy && s.links[l].required && computeRuns s then .fail s 0x04
    else
      let s := act s l
      .done s 0x00 (linkStatusWord s l) 0
  else .fail s 0x03

/-- DISABLE: down, and out of background retraining. -/
def disableLink (s : State) (l : Fin 26) : State := updLink (leaveUp s l 3) l (fun k => { k with disabled := true })

/-- ENABLE: the end of DISABLE; the link retrains. -/
def enableLink (s : State) (l : Fin 26) : State :=
  beginTraining (updLink s l (fun k => { k with disabled := false, state := if k.state = 3 then 0 else k.state })) l

/-- CLEAR: the ERRORS counters. -/
def clearErrors (s : State) (l : Fin 26) : State := updLink s l (fun k => { k with corrected := 0, replays := 0, uncorr := 0 })

/-- The work of LINK_CONTROL, by its ACTION. -/
def linkControlWork (s : State) (c : Cmd) : Reply :=
  match fld (prm c 0) 8 2 with
  | 0 => linkAction true beginTraining s c
  | 1 => linkAction true disableLink s c
  | 2 => linkAction false enableLink s c
  | _ => linkAction false clearErrors s c

/-- The row of one ACTION. -/
def linkControlRow (action : Nat) (r : Fin 4) (k : Packet) (s : State) : State :=
  if fld k.p[0] 8 2 = action then commandRow linkControlWork 0x0D r k none false false s else s

/-- LINK_CONTROL_RETRAIN (R385). -/
def execLinkControlRetrain (ring : Fin 4) (pkt : Packet) (s : State) : Host.Outcome State Fault Refusal :=
  .next (linkControlRow 0 ring pkt s)

/-- LINK_CONTROL_DISABLE (R385). -/
def execLinkControlDisable (ring : Fin 4) (pkt : Packet) (s : State) : Host.Outcome State Fault Refusal :=
  .next (linkControlRow 1 ring pkt s)

/-- LINK_CONTROL_ENABLE (R385). -/
def execLinkControlEnable (ring : Fin 4) (pkt : Packet) (s : State) : Host.Outcome State Fault Refusal :=
  .next (linkControlRow 2 ring pkt s)

/-- LINK_CONTROL_CLEAR (R385). -/
def execLinkControlClear (ring : Fin 4) (pkt : Packet) (s : State) : Host.Outcome State Fault Refusal :=
  .next (linkControlRow 3 ring pkt s)

end Sys2Proof.Machine
end

