-- ==== Sys2Proof/Machine/CommandRows.lean ====
section
/-! DEFINITION. What happens to commands once taken: fenced starts, completion with its status packet, timeouts of the
copy engine, packets of no listed opcode (R429 R432–R434 R441). -/

namespace Sys2Proof.Machine

/-- The work of every opcode. -/
def workOf (s : State) (c : Cmd) : Reply :=
  match c.opcode with
  | 0x00 => nopWork s c
  | 0x01 => queryWork s c
  | 0x02 => loadProgramWork s c
  | 0x03 => loadRegionWork s c
  | 0x04 => exportRegionWork s c
  | 0x05 => startTaskWork s c
  | 0x06 => abortWork s c
  | 0x07 => setStepWork s c
  | 0x08 => runUpdateWork s c
  | 0x09 => readLedgerWork s c
  | 0x0A => readTelemetryWork s c
  | 0x0B => operatingWork s c
  | 0x0C => topologyWork s c
  | 0x0D => linkControlWork s c
  | 0x0E => resetWork s c
  | 0x0F => fwUpdateWork s c
  | 0x10 => attestWork s c
  | _ => .fail s 0x01

/-- The place of the first waiting command of a ring that need not wait any longer. -/
def freedPlace (cs : List Cmd) (r : Fin 4) : Option Nat :=
  (List.range cs.length).find? (fun n =>
    match cs[n]? with
    | none => false
    | some c => c.ring == r && c.st == .waiting && !mustWait cs c)

/-- FENCED_COMMAND_START: a waiting command starts once what it waits for has completed. -/
def fencedStart (r : Fin 4) (s : State) : State :=
  if !firmwareRuns s then s
  else match freedPlace s.bind.cmds r with
    | none => s
    | some n =>
      match s.bind.cmds[n]? with
      | none => s
      | some c =>
        let c := { c with st := .running }
        placeReply n c (startCmd workOf { s with bind := { s.bind with cmds := s.bind.cmds.eraseIdx n } } c)

/-- FENCED_COMMAND_START (R429). -/
def execFencedCommandStart (ring : Fin 4) (s : State) : Host.Outcome State Fault Refusal := .next (fencedStart ring s)

/-- What the completion of a command sets: a SET_STEP that is COMPLETE makes its table the shadow (R243). -/
def completeEffect (s : State) (c : Cmd) (status : Nat) : State :=
  if c.opcode = 0x07 && status = 0 then stepReady s (prm c 0) else s

/-- A command that is done leaves the commands in progress; its status packet is posted unless its ring has been
disabled meanwhile. -/
def completeAt (n : Nat) (c : Cmd) (status : Nat) (r0 r1 : Word) (s : State) : State :=
  let s := completeEffect { s with bind := { s.bind with cmds := s.bind.cmds.eraseIdx n } } c status
  if c.mute then s else postStatus s c status r0 r1

/-- COMMAND_COMPLETION: the command of the ring that was done first completes. -/
def commandCompletion (r : Fin 4) (s : State) : State :=
  if !firmwareRuns s then s
  else
    let s := settleTopology s
    match firstDone s.bind.cmds r with
    | none => s
    | some n =>
      match s.bind.cmds[n]? with
      | none => s
      | some c =>
        match c.st with
        | .done st r0 r1 => if c.mute || ringOn s r then completeAt n c st r0 r1 s else s
        | _ => s

/-- COMMAND_COMPLETION (R434). -/
def execCommandCompletion (ring : Fin 4) (s : State) : Host.Outcome State Fault Refusal := .next (commandCompletion ring s)

/-- COMPLETION_TIMEOUT: a request of the copy engine ends with an error or not at all, and its command with HOST_ERROR. -/
def completionTimeout (r : Fin 4) (tag : BitVec 16) (s : State) : State :=
  if s.pwr.powered then answerCmds s (fun c => c.ring == r && c.pkt.tag == tag && requestOpen c) 0x0F 0 0 else s

/-- COMPLETION_TIMEOUT (R441). -/
def execCompletionTimeout (ring : Fin 4) (tag : BitVec 16) (s : State) : Host.Outcome State Fault Refusal :=
  .next (completionTimeout ring tag s)

/-- Packets of no listed opcode at the front of a ring are taken at a tick, at most 8 of them, and answered BAD_OPCODE
(R429 R432 R433; log entry 34). -/
def takeUnlisted (r : Fin 4) : Nat → State → State
  | 0, s => s
  | n + 1, s =>
    let k := packetOf (frontPacket s r)
    if mayTake s r && !commandListed k.1 then
      let c := Cmd.ofPacket r k.1 k.2 none false false (tick s) (cmdCons s r)
      let s := advanceRing s r
      let at' := s.bind.cmds.length
      takeUnlisted r n (if mustWait s.bind.cmds c then placeReply at' c (.going s { c with st := .waiting })
                        else placeReply at' c (startCmd workOf s c))
    else s

end Sys2Proof.Machine
end

