-- ==== Sys2Proof/Machine/Control.lean ====
section
/-! DEFINITION. The control instructions (R272 R273 R276 R288–R290). -/

namespace Sys2Proof.Machine

/-- The signed branch offset, in instructions (R285). -/
def wOfs (w : Word) : Int := sfld w 21 27

/-- Does a comparison of BR hold (R288)? None for the illegal CC 6 to 31. -/
def brCond (cc : Nat) (a b : Word) : Option Bool :=
  match cc with
  | 0 => some (a == b)
  | 1 => some (a != b)
  | 2 => some (a.slt b)
  | 3 => some (!a.slt b)
  | 4 => some (a.ult b)
  | 5 => some (!a.ult b)
  | _ => none

/-- A taken branch discards the landings started ahead of it on the sequential path (R183). -/
def branchDiscard (s : State) (q : Fin 64) (t : Fin 4) : State :=
  let pc := s.quires[q].seq.tasks[t].pc.toNat
  updQ s q (fun qr => discardLandings qr (fun l => l.task == t && !l.issued && decide (pc < l.pcIndex)))

/-- A branch is taken to an index: a base/bound fault at or beyond the code count (R288). -/
def takeBranch (s : State) (q : Fin 64) (t : Fin 4) (target : Int) : Res :=
  if target < 0 || (s.quires[q].seq.tasks[t].codeCount : Int) ≤ target then .bad .seq 3
  else .jump (branchDiscard s q t) target.toNat

/-- The target of a relative branch: the branch's own index plus OFS. -/
def relTarget (s : State) (q : Fin 64) (t : Fin 4) (w : Word) : Int :=
  (s.quires[q].seq.tasks[t].pc.toNat : Int) + wOfs w

/-- BR: compares RA with RB and branches where the condition holds (R288). -/
def execBr (q : Fin 64) (t : Fin 4) (w : Word) (s : State) : Host.Outcome State Fault Refusal :=
  .next (issueRow 0x10 q t w (fun s x =>
    match brCond (fld w 6 5) (srcReg s q t (wRA w)) (srcReg s q t (wRB w)) with
    | none => .bad .seq 2
    | some c =>
      let s := noteEarly s q t x [wRA w, wRB w]
      if c then (takeBranch s q t (relTarget s q t w)).reading [wRA w, wRB w] else .done s) s)

/-- J: always branches (R288). -/
def execJ (q : Fin 64) (t : Fin 4) (w : Word) (s : State) : Host.Outcome State Fault Refusal :=
  .next (issueRow 0x11 q t w (fun s _ => takeBranch s q t (relTarget s q t w)) s)

/-- CALL: RD takes the index of the next instruction, then the branch is taken (R288). -/
def execCall (q : Fin 64) (t : Fin 4) (w : Word) (s : State) : Host.Outcome State Fault Refusal :=
  .next (issueRow 0x12 q t w (fun s x =>
    let link := BitVec.ofNat 64 (s.quires[q].seq.tasks[t].pc.toNat + 1)
    let target := relTarget s q t w
    takeBranch (setReg s q t x (wRD w) link (x + 1)) q t target) s)

/-- RET: branches to the index held in RA (R288). -/
def execRet (q : Fin 64) (t : Fin 4) (w : Word) (s : State) : Host.Outcome State Fault Refusal :=
  .next (issueRow 0x13 q t w (fun s x =>
    (takeBranch (noteEarly s q t x [wRA w]) q t (srcReg s q t (wRA w)).toNat).reading [wRA w]) s)

/-- IDLE n: the task issues its next instruction in lc x + 1 + n (R273); a COUNT of 0 is illegal. -/
def execIdle (q : Fin 64) (t : Fin 4) (w : Word) (s : State) : Host.Outcome State Fault Refusal :=
  .next (issueRow 0x14 q t w (fun s _ => if fld w 16 16 = 0 then .bad .seq 2 else .idle s (fld w 16 16)) s)

/-- YIELD n: task 0 resumes in lc x + 1 + n and the lc between go to the fillers (R273 R274 R290). -/
def execYield (q : Fin 64) (t : Fin 4) (w : Word) (s : State) : Host.Outcome State Fault Refusal :=
  .next (issueRow 0x15 q t w (fun s _ =>
    if fld w 16 16 = 0 then .bad .seq 2
    else if t ≠ 0 then .bad .seq 5
    else .window s (fld w 16 16)) s)

/-- END: the task ends in its issue lc (R276). -/
def execEndTask (q : Fin 64) (t : Fin 4) (w : Word) (s : State) : Host.Outcome State Fault Refusal :=
  .next (issueRow 0x16 q t w (fun s _ => .ended s) s)

/-- A quire rings bits toward the bindery: a bit already set stays set and starts no new timer (R289 R443). -/
def ringFromQuire (s : State) (q : Fin 64) (mask : BitVec 32) : State :=
  updQ s q (fun qr =>
    let fresh := mask &&& ~~~ qr.dbFromQuire
    { qr with dbFromQuire := qr.dbFromQuire ||| mask,
              dbFromSince := Vector.ofFn (fun n : Fin 32 =>
                if fresh.toNat.testBit n.val then tick s else qr.dbFromSince[n]) })

/-- RINGDB: rings each doorbell bit of MASK toward the bindery (R289). -/
def execRingdb (q : Fin 64) (t : Fin 4) (w : Word) (s : State) : Host.Outcome State Fault Refusal :=
  .next (issueRow 0x17 q t w (fun s _ =>
    .done (traceQ (ringFromQuire s q (BitVec.ofNat 32 (wImm w))) q t 4)) s)

/-- The bits delivered toward a quire: rung, and not held by its mask (R289 R443). -/
def deliveredTo (qr : Quire) : BitVec 32 := qr.dbToQuire &&& ~~~ (BitVec.ofNat 32 (fld qr.qmask 32 32))

/-- GETDB: RD takes the bits the bindery has rung toward the quire, and they are cleared (R289). -/
def execGetdb (q : Fin 64) (t : Fin 4) (w : Word) (s : State) : Host.Outcome State Fault Refusal :=
  .next (issueRow 0x18 q t w (fun s x =>
    let v := deliveredTo s.quires[q]
    let s := updQ s q (fun qr => { qr with dbToQuire := qr.dbToQuire &&& ~~~ v })
    loadBody q t w (BitVec.ofNat 64 v.toNat) s x) s)

end Sys2Proof.Machine
end

