-- ==== Sys2Proof/Machine/Drain.lean ====
section
/-! DEFINITION. TILE_DRAIN: a finished accumulator set begins to drain (R79). -/

namespace Sys2Proof.Machine

/-- TILE_DRAIN: the oldest finished set of a quire begins its drain in its lc D, once the quire's lc have come to it; a halt
holds it (R79 R120). What each lc of the drain brings about is in flight from then on. -/
def tileDrain (q : Fin 64) (s : State) : State :=
  let qr := s.quires[q]
  let due := match qr.array.drains with | [] => false | dr :: _ => decide (dr.start ≤ max qr.seq.lc qr.seq.winEnd)
  if computeUp s && qr.seq.inRun && lcPass qr && due then updQ s q startDrain else s

/-- TILE_DRAIN (R79). -/
def execTileDrain (q : Fin 64) (s : State) : Host.Outcome State Fault Refusal := .next (tileDrain q s)

end Sys2Proof.Machine
end

