-- ==== Sys2Proof/Machine/Panel.lean ====
section
/-! DEFINITION. WPANEL: whole converted weight panels into operand staging (R137–R141 R514). -/

namespace Sys2Proof.Machine

/-- Reads a panel descriptor (R138). -/
def parsePanel (bs : List Byte) : PanelDesc :=
  let w0 := dword bs 0
  let w1 := dword bs 1
  { block := fld w0 0 14, orient := bit w0 16, fmt := fld w0 17 3, scale := fld w0 24 8, ledger := fld w0 32 8,
    nblk := fld w0 40 8, stride := fld w0 48 16, destRow := fld w1 0 16, scRow := fld w1 16 16 }

/-- Legal values and reserved fields; A0 takes no N4 panel of more than 128 blocks (R138 R141 R514). -/
def panelValuesOk (s : State) (bs : List Byte) (d : PanelDesc) : Bool :=
  (d.fmt == 1 || d.fmt == 2 || d.fmt == 3) && d.nblk != 0 && !(d.fmt == 3 && d.nblk % 2 == 1)
    && !(d.fmt == 3 && decide (d.nblk > 128) && s.bind.stepping == 0)
    && zeroField bs 0 14 2 && zeroField bs 0 20 4 && zeroField bs 1 32 32 && zeroField bs 2 0 64 && zeroField bs 3 0 64

/-- The descriptor with the offsets of XR added (R279). -/
def panelOffsets (xr : Word) (d : PanelDesc) : PanelDesc :=
  { d with block := addOff d.block (xrPart xr 0), destRow := addOff d.destRow (xrPart xr 1),
           scRow := if d.fmt = 3 then addOff d.scRow (xrPart xr 2) else d.scRow }

/-- Element rows of a panel, and scale rows (R139). -/
def panelRows (d : PanelDesc) : Nat := if d.fmt = 3 then d.nblk else 2 * d.nblk
def panelScRows (d : PanelDesc) : Nat := if d.fmt = 3 then ceilDiv d.nblk 16 else 0

/-- A panel whose checks hold: its first half is read in lc x + 2 (R140). -/
def panelRun (q : Fin 64) (t : Fin 4) (w : Word) (d : PanelDesc) (s : State) (x : Nat) : Res :=
  let o : PanelOp := { x := x, task := t, d := d, block := [], lost := [], chunk := [], scales := [] }
  .done (claimTok (laterPanel s q (x + 2) o 0) q
    { first := x + 2, last := x + 1 + 2 * d.nblk, tok := tokOf w, task := t, drain := false })

/-- WPANEL: the checks of R141 in the order of R523, then the panel. -/
def wpanelBody (q : Fin 64) (t : Fin 4) (w : Word) (s : State) (x : Nat) : Res :=
  let qr := s.quires[q]
  let tk := qr.seq.tasks[t]
  let xr := srcReg s q t (fld w 6 5)
  let s := noteEarly s q t x [fld w 6 5]
  let ix := fld w 11 13
  match descAt qr (afterLc s q x) tk ix 32 16 with
  | none => .bad .seq 4
  | some pd =>
    if anyUncorrectable pd.2 then .memory (noteReads s q 0 4 pd.2) none else
    let d := panelOffsets xr (parsePanel pd.1)
    if !panelValuesOk s pd.1 d || !tk.regValid then .bad .wpanel 1
    else if d.destRow % 2 = 1 then .bad .wpanel 2
    else if !(List.range d.nblk).all (fun m => tk.blocksOk (d.block + m * d.stride) 1) then .bad .wpanel 3
    else if !tk.spadOk 2 d.destRow (panelRows d) || !tk.spadOk 2 d.scRow (panelScRows d) then .bad .wpanel 3
    else panelRun q t w { d with block := tk.regBase + d.block, destRow := tk.stgBase + d.destRow, scRow := tk.stgBase + d.scRow }
      (noteDesc s q t x tk ix 32 16) x

/-- WPANEL (R140). -/
def execWpanel (q : Fin 64) (t : Fin 4) (w : Word) (s : State) : Host.Outcome State Fault Refusal :=
  .next (issueRow 0x21 q t w (fun s x => (wpanelBody q t w s x).reading [fld w 6 5]) s)

end Sys2Proof.Machine
end

