-- ==== Sys2Proof/Machine/Scrubbing.lean ====
section
/-! DEFINITION. SCRUB and FIX_QUEUE_WRITEBACK: bank scrubbing and the write-back of corrected words (R148–R151 R155
R158 R159). -/

namespace Sys2Proof.Machine

/-- Rows of the weight bank, and of the moment bank with its scale array (R150 R154). -/
def scrubRowsW : Nat := 32768
def scrubRowsM : Nat := 33792

/-- What a scrub read of one row finds: weight row r, or moment row r, rows from 32,768 on being the scale array. -/
def scrubRow (qr : Quire) (moment : Bool) (r : Nat) : List ReadNote :=
  if !moment then (protRead qr 0 (512 * r) 512).2
  else if r < 32768 then (protRead qr 1 (512 * r) 512).2
  else (protRead qr 2 (512 * (r - 32768)) 512).2

/-- The scrub pointers after n weight rows and m moment rows. -/
def scrubAdvance (w : Word) (n m : Nat) : Word :=
  let wn := fld w 0 16 + n
  let mn := fld w 16 16 + m
  packFlds [(0, 16, wn % scrubRowsW), (16, 16, mn % scrubRowsM), (32, 16, fld w 32 16 + wn / scrubRowsW)]

/-- Idle lc of a port in a tick: no more than the schedule has left of the tick's lc (R150 R342). -/
def idleLc (s : State) (claimed used : Nat) : Nat := min claimed (lcPerTick s.clk.current - used)

/-- One tick of the scrub engine of a quire: up to ROWS_PER_TICK rows of each bank, as far as the idle lc reach, with 32 words of
the weight bank or 4 of the moment bank in each, 16 words a row. -/
def scrubTick (q : Fin 64) (wIdle mIdle : Nat) (s : State) : State :=
  let qr := s.quires[q]
  let ctl := qr.bank.scrubActive
  let due := if bit ctl 0 && !qr.bank.scrubbed then fld ctl 8 8 else 0
  let n := min due (32 * idleLc s wIdle (qr.bank.usedW + lcUsed 0 qr.ports) / 16)
  let m := min due (4 * idleLc s mIdle (qr.bank.usedM + lcUsed 1 qr.ports) / 16)
  let st := qr.bank.scrubStatus
  let notes := (List.range n).flatMap (fun i => scrubRow qr false ((fld st 0 16 + i) % scrubRowsW))
    ++ (List.range m).flatMap (fun i => scrubRow qr true ((fld st 16 16 + i) % scrubRowsM))
  let s := updQ s q (fun qr => { qr with bank := { qr.bank with
    scrubbed := true, scrubStatus := scrubAdvance st n m,
    scrubDefer := qr.bank.scrubDefer + BitVec.ofNat 64 ((due - n) + (due - m)) } })
  let s := noteReads s q 4 3 notes
  if anyUncorrectable notes then
    let s := stopQuire s q 3
    { s with bind := { s.bind with raised := s.bind.raised ++
        [{ cls := 2, quire := some q, link := 0, originClass := 0, originId := 0, tick := tick s }] } }
  else s

/-- SCRUB: the bit errors that have come up, then the tick's scrub reads, which also run during halts and while no task
runs. -/
def scrub (q : Fin 64) (wIdle mIdle : Nat) (ups : List Upset) (s : State) : State :=
  if !computeUp s then s
  else scrubTick q wIdle mIdle (updQ s q (fun qr => { qr with upsets := qr.upsets ++ ups }))

/-- SCRUB (R150). -/
def execScrub (q : Fin 64) (wIdle mIdle : Nat) (ups : List Upset) (s : State) : Host.Outcome State Fault Refusal :=
  .next (scrub q wIdle mIdle ups (catchUp s))

/-- The number of a bank among the weight bank, the moment bank with its scale array, the gradient buffer. -/
def bankPort (bank : Fin 4) : Fin 3 := if bank = 0 then 0 else if bank = 3 then 2 else 1

/-- Does the schedule leave the port of a bank room for a word in an lc: the weight port or the moment port free, or one of the
four quarters (R149)? -/
def portIdle (qr : Quire) (bank : Fin 4) (l : Nat) : Bool :=
  let port := (bankPort bank).val
  let there := qr.ports.filter (fun a => a.port == port && a.covers l)
  decide ((there.map (·.qty)).foldl (· + ·) 0 < portCap port)

/-- FIX_QUEUE_WRITEBACK: one queued word of a bank is written back with fresh check bits, in an lc that leaves its port idle, one
word per bank and lc; a quire whose lc stand has no scheduled access. -/
def fixQueueWriteback (q : Fin 64) (bank : Fin 4) (s : State) : State :=
  let qr := s.quires[q]
  let l := reachedLc (dieNow s) qr
  let b := bankPort bank
  if !computeUp s then s
  else if !lcPass qr then updQ s q (fun qr => fixWriteBack qr bank.val)
  else if !portIdle qr bank l || (qr.seq.inRun && decide (l < qr.bank.fixNext[b])) then s
  else updQ s q (fun qr =>
    let next := if qr.seq.inRun then l + 1 else 0
    fixWriteBack { qr with bank := { qr.bank with fixNext := qr.bank.fixNext.set b next } } bank.val)

/-- FIX_QUEUE_WRITEBACK (R149). -/
def execFixQueueWriteback (q : Fin 64) (bank : Fin 4) (s : State) : Host.Outcome State Fault Refusal :=
  .next (fixQueueWriteback q bank (catchUp s))

end Sys2Proof.Machine
end

