-- ==== Sys2Proof/Machine/Sideband.lean ====
section
/-! DEFINITION. The SMBus target at address 0x5A and the pin SMB_ALERT_N (R501). -/

namespace Sys2Proof.Machine

/-- The firmware serves the SMBus: powered, from stage 3 on, not on the recovery path. -/
def smbusUp (s : State) : Bool := s.pwr.powered && decide (3 ≤ s.bind.stage) && !s.host.recovery

/-- SMB_ALERT_N is asserted: while FAULT_N is, and after a thermal warning until ALERT_CLEAR. -/
def smbAlert (s : State) : Bool := s.bind.faultN || s.bind.alertN

/-- A block read answers with these bytes. -/
def smbusRead (s : State) (bs : List Byte) : State := if smbusUp s then { s with out := { s.out with smbus := bs } } else s

/-- IDENT: serial, model, firmware version, stepping. -/
def identBytes (s : State) : List Byte :=
  bytesLE 8 (serialNumber s) ++ bytesLE 2 (modelNumber s) ++ bytesLE 2 s.bind.runVersion ++ bytesLE 1 s.bind.stepping ++ bytesLE 3 0

/-- IDENT (R501). -/
def execIdent (s : State) : Host.Outcome State Fault Refusal := .next (smbusRead s (identBytes s))

/-- STATUS (R501). -/
def execStatus (s : State) : Host.Outcome State Fault Refusal := .next (smbusRead s (bytesLE 8 (hostStatusWord s).toNat))

/-- FAULT (R501). -/
def execFault (s : State) : Host.Outcome State Fault Refusal := .next (smbusRead s (bytesLE 8 s.bind.faultInfo.toNat))

/-- POWER (R501). -/
def execPower (s : State) : Host.Outcome State Fault Refusal := .next (smbusRead s (bytesLE 8 (powerInputWord s.pwr).toNat))

/-- The sensor with the highest temperature; of equal ones the lowest number. -/
def hottest (p : Pwr) : Fin 24 :=
  (List.finRange 24).foldl (fun b i => if p.temp[b].toInt < p.temp[i].toInt then i else b) 0

/-- TEMP_MAX: the highest temperature and its sensor. -/
def tempMaxBytes (p : Pwr) : List Byte := bytesLE 2 (p.temp[hottest p]).toNat ++ bytesLE 1 (hottest p).val ++ bytesLE 1 0

/-- TEMP_MAX (R501). -/
def execTempMax (s : State) : Host.Outcome State Fault Refusal := .next (smbusRead s (tempMaxBytes s.pwr))

/-- ALERT_CLEAR: releases SMB_ALERT_N unless FAULT_N is asserted. -/
def alertClear (s : State) : State :=
  if smbusUp s && !s.bind.faultN then { s with bind := { s.bind with alertN := false } } else s

/-- ALERT_CLEAR (R501). -/
def execAlertClear (s : State) : Host.Outcome State Fault Refusal := .next (alertClear s)

/-- ALERT_RESPONSE: while it asserts the alert, the module answers the Alert Response Address with its own address, in
the seven upper bits of the byte (log entry 35). -/
def execAlertResponse (s : State) : Host.Outcome State Fault Refusal := .next (if smbAlert s then smbusRead s [0xB4] else s)

end Sys2Proof.Machine
end

