-- ==== Sys2Proof/Machine/Update.lean ====
section
/-! DEFINITION. UPD, UGET and USTAT: layer update descriptors, their checks, and the issue of a pass (file 09, R302 R303). -/

namespace Sys2Proof.Machine

/-! ## Layer update descriptors (R241 R246) -/

/-- Reads a layer update descriptor. -/
def parseLayer (bs : List Byte) : LayerDesc :=
  let w := dword bs 0
  let f := fun i => (BitVec.ofNat 32 (numAt bs i 4) : F32)
  { rule := fld w 0 3, n8 := bit w 3, gkeep := bit w 4, sr := bit w 5, ledger := fld w 8 8, gslot := fld w 16 8,
    nsIters := fld w 27 4, eta := f 8, wd := f 12, clip := f 16, mu := f 20, muc := f 24, nu := f 28, nuc := f 32,
    eps := f 36, bc1 := f 40, bc2 := f 44 }

/-- Does a rule accept an operation (R246)? -/
def ruleAccepts (rule op : Nat) : Bool :=
  match op with
  | 0 => rule != 0
  | 1 => rule == 1 || rule == 2
  | _ => rule == 3 || rule == 4

/-- The entry is legal for the operation: rule, formats, reserved fields (R241 R246). -/
def layerOk (bs : List Byte) (d : LayerDesc) (op : Nat) : Bool :=
  d.rule != 0 && d.rule ≤ 4 && ruleAccepts d.rule op && d.n8 == (d.rule == 2) && !(d.rule == 3 && d.gkeep)
    && (d.rule != 3 || (d.nsIters != 0 && d.nsIters ≤ 8))
    && zeroField bs 0 6 2 && zeroField bs 0 31 33 && zeroField bs 7 0 64

/-- Entry n of a descriptor store. -/
def storeEntry (m : Mem) (n : Nat) : List Byte := readBytes m (64 * n) 64

/-! ## UPD, UGET, USTAT -/

/-- Does a UPD issued in lc x break the spacing rule of R248 against one of the run that may still go on? -/
def updClash (qr : Quire) (x : Nat) : Bool :=
  qr.upd.runs.any (fun r =>
    let d := x - r.x
    !((d % 32 == 0 && decide (32 * r.blocks ≤ d)) || decide (32 * (r.blocks + 3) ≤ d)))

/-- A UPD whose checks hold: its first period begins in lc x + 2 (R247). -/
def updRun (q : Fin 64) (t : Fin 4) (w : Word) (p : UpdPlan) (entry : Nat) (s : State) (x : Nat) : Res :=
  let clash := updClash s.quires[q] x
  let s := updQ s q (fun qr =>
    let u := { qr.upd with op := p.op, entry := entry, lastIssue := x, lastBlocks := p.n,
                             runs := qr.upd.runs ++ [{ x := x, blocks := p.n, adds := p.op == 2 && p.kept }] }
    { qr with upd := u })
  let s := laterRead s q (x + 2) p 0 0 BlockIn.empty
  let s := if clash then hazard s q t 1 8 x else s
  .done (claimTok s q { first := x + 2, last := x + 1 + 32 * p.n, tok := tokOf w, task := t, drain := false })

/-- UPD: the checks of R240, R246 and R303 in the order of R523, then the blocks in order. -/
def updBody (q : Fin 64) (t : Fin 4) (w : Word) (s : State) (x : Nat) : Res :=
  let qr := s.quires[q]
  let tk := qr.seq.tasks[t]
  let fr := fld w 6 4
  let op := fld w 10 2
  let entry := fld w 12 10
  let b0 := fld w 22 13
  let n := fld w 35 13 + 1
  let bs := storeEntry qr.mem.descActive entry
  let d := parseLayer bs
  let reads := if op = 3 then [2 * fr] else []
  if op ≠ 3 && fr ≠ 0 then .bad .upd 1
  else if !layerOk bs d op then .bad .upd 1 reads
  else if t ≠ 0 then .bad .upd 3 reads
  else if !tk.blocksOk b0 n then .bad .upd 2 reads
  else
    let f := BitVec.ofNat 32 (srcReg s q t (2 * fr)).toNat
    let s := noteEarly s q t x reads
    updRun q t w { x := x, op := op, d := d, f := f, block0 := tk.regBase + b0, n := n, kept := keepBit qr d.gslot } entry s x

/-- UPD (R247). -/
def execUpd (q : Fin 64) (t : Fin 4) (w : Word) (s : State) : Host.Outcome State Fault Refusal :=
  .next (issueRow 0x38 q t w (updBody q t w) s)

/-- A scalar register written by the update engine, readable from lc x + 2 (R306); an instruction's write of the same lc gives
way to it, and the pair is a double-booked port (R296). -/
def unitReg (s : State) (q : Fin 64) (t : Fin 4) (x r : Nat) (v : Word) : State :=
  let clash := r != 0 && s.quires[q].seq.tasks[t].pend.any (fun p => !p.byUnit && p.reg.val == r && p.lc == x + 2)
  let s := updT s q t (fun tk => writeReg tk r v (x + 2) true)
  if clash then hazard s q t 1 10 x else s

/-- UGET: a word of an entry of the active store into RD (R261). -/
def ugetBody (q : Fin 64) (t : Fin 4) (w : Word) (s : State) (x : Nat) : Res :=
  let entry := fld w 11 11
  if entry > 1039 then .bad .upd 4
  else if t ≠ 0 then .bad .upd 3
  else .done (unitReg s q t x (fld w 6 5) (dword (storeEntry s.quires[q].mem.descActive entry) (fld w 22 3)))

/-- UGET (R261). -/
def execUget (q : Fin 64) (t : Fin 4) (w : Word) (s : State) : Host.Outcome State Fault Refusal :=
  .next (issueRow 0x39 q t w (ugetBody q t w) s)

/-- A binary64 sum rounded to F32 (R257). -/
def f64ToF32 (x : Word) : F32 := f32OfVal (f64Val x)

/-- USTAT: both sums into an even register pair, and both cleared (R257 R264 R303). -/
def ustatBody (q : Fin 64) (t : Fin 4) (w : Word) (s : State) (x : Nat) : Res :=
  let rd := fld w 6 5
  let u := s.quires[q].upd
  if rd % 2 = 1 then .bad .upd 1
  else if t ≠ 0 then .bad .upd 3
  else
    let early := u.runs.any (fun r => r.adds && decide (x ≤ r.x + 32 * r.blocks + 66))
    let s := unitReg s q t x rd (BitVec.ofNat 64 (f64ToF32 u.sumA).toNat)
    let s := unitReg s q t x (rd + 1) (BitVec.ofNat 64 (f64ToF32 u.sumB).toNat)
    let s := updQ s q (fun qr => { qr with upd := { qr.upd with sumA := 0, sumB := 0 } })
    .done (if early then hazard s q t 2 8 x else s)

/-- USTAT (R257). -/
def execUstat (q : Fin 64) (t : Fin 4) (w : Word) (s : State) : Host.Outcome State Fault Refusal :=
  .next (issueRow 0x3A q t w (ustatBody q t w) s)

end Sys2Proof.Machine
end

