-- ==== Sys2Proof/Machine/Waits.lean ====
section
/-! DEFINITION. The blocking waits WAITS, WAITW, LWAIT and XWAIT, the resumption of a halted gathering, the wait timeout
and the end of a throttle (R120 R121 R177 R182 R320 R321 R327 R377). -/

namespace Sys2Proof.Machine

/-! ## The waits -/

/-- The place of the oldest issued, uncommitted landing of a task. -/
def oldestIssued (qr : Quire) (t : Fin 4) : Option Nat := qr.stream.landings.findIdx? (fun l => l.task == t && l.issued)

/-- The first lc of a commit issued in lc x: the next one, or the one behind the previous commit (R177). -/
def commitStart (qr : Quire) (x : Nat) : Nat := max (x + 1) qr.stream.commitEnd

/-- The commit of a landed landing (R177): its place is freed, and its rows are written from lc c on. -/
def takeLanding (ix : Nat) (l : Landing) (c : Nat) (qr : Quire) : Quire :=
  let st := qr.stream
  { qr with stream := { st with
      landings := st.landings.eraseIdx ix,
      commits := st.commits ++ [{ task := l.task, first := c, pace := l.pace, len := l.len,
                                  pastLast := c + (l.len - 1) * l.pace + targetLcs l.target }],
      commitEnd := c + (l.len - 1) * l.pace + targetLcs l.target } }

/-- The commit of landing ix by a WAITS issued in lc x. -/
def commitLanding (s : State) (q : Fin 64) (ix : Nat) (l : Landing) (x : Nat) : State :=
  let c := commitStart s.quires[q] x
  laterCommit (updQ s q (takeLanding ix l c)) q l.task c x l.target l.firstRow 0 l.pace (pieces 512 l.len l.data)

/-- WAITS: the oldest issued landing of the task commits; without one it has no effect (R177 R189). -/
def waitsBody (q : Fin 64) (t : Fin 4) (_w : Word) (s : State) (x : Nat) : Res :=
  let qr := s.quires[q]
  match oldestIssued qr t with
  | none => .done s
  | some ix =>
    match qr.stream.landings[ix]? with
    | none => .done s
    | some l =>
      if l.landed && inTime qr t x l.ready then .done (commitLanding s q ix l x)
      else .wait .waits (if !l.landed && l.far = 0 && !l.released then 5 else 2)

/-- WAITS (R177). -/
def execWaits (q : Fin 64) (t : Fin 4) (w : Word) (s : State) : Host.Outcome State Fault Refusal :=
  .next (issueRow 0x2E q t w (waitsBody q t w) s)

/-- WAITW: every earlier write of the task is complete (R182). -/
def waitwBody (q : Fin 64) (t : Fin 4) (_w : Word) (s : State) (x : Nat) : Res :=
  let qr := s.quires[q]
  if qr.stream.writes.any (fun o => o.task == t) || (lateWrites qr t x).any (fun d => d.task == t) then .wait .waitw (writeCause qr) else .done s

/-- WAITW (R182). -/
def execWaitw (q : Fin 64) (t : Fin 4) (w : Word) (s : State) : Host.Outcome State Fault Refusal :=
  .next (issueRow 0x2F q t w (waitwBody q t w) s)

/-- What an LWAIT makes of its port: the messages it takes, and those of the previous one released (R377). -/
def takeMessages (n : Nat) (p : Port) : Port :=
  let p := releaseTaken p
  { p with landed := p.landed - n, taken := n, takenBytes := (p.landedSizes.take n).foldl (· + ·) 0,
           landedReady := p.landedReady.drop n, landedSizes := p.landedSizes.drop n }

/-- Messages of a port that an LWAIT in lc x does not count yet (R120 R377). -/
def lateMessages (qr : Quire) (x : Nat) (p : Port) : Nat := (p.landedReady.filter (fun r => !inTime qr 0 x r)).length

/-- LWAIT: waits for COUNT landed messages of a port that the quire owns as receiver, and takes them. -/
def lwaitBody (q : Fin 64) (t : Fin 4) (w : Word) (s : State) (x : Nat) : Res :=
  let n := fld w 11 16
  if h : fld w 6 5 < 26 then
    if t ≠ 0 then .bad .seq 5 else
    let l : Fin 26 := ⟨fld w 6 5, h⟩
    let p := s.ports[l]
    if !(p.mapped && p.recvValid && p.recvQuire == q.val) then .bad .seq 7
    else if p.landed - lateMessages s.quires[q] x p < n then .wait .lwait 1
    else .done (updPort s l (takeMessages n))
  else .bad .seq 2

/-- LWAIT (R377). -/
def execLwait (q : Fin 64) (t : Fin 4) (w : Word) (s : State) : Host.Outcome State Fault Refusal :=
  .next (issueRow 0x34 q t w (lwaitBody q t w) s)

/-- XWAIT: waits until a cross-gathering buffer of the quire holds COUNT entries, and takes them (R321). -/
def xwaitBody (q : Fin 64) (t : Fin 4) (w : Word) (s : State) (x : Nat) : Res :=
  let n := fld w 11 16
  let b : Fin 32 := ⟨fld w 6 5 % 32, by omega⟩
  let c := s.con.xbCfg[b]
  if t ≠ 0 then .bad .seq 5
  else if !(bit c 60 && fld c 54 6 == q.val) then .bad .seq 7
  else if s.con.xbCount[b].toNat - ((s.con.xbLate[b]).filter (fun r => !inTime s.quires[q] t x r)).length < n then .wait .xwait 6
  else .done { s with con := { s.con with xbCount := s.con.xbCount.set b (s.con.xbCount[b] - BitVec.ofNat 32 n) } }

/-- XWAIT (R321). -/
def execXwait (q : Fin 64) (t : Fin 4) (w : Word) (s : State) : Host.Outcome State Fault Refusal :=
  .next (issueRow 0x35 q t w (xwaitBody q t w) s)

/-! ## The resumption of a halted gathering (R120 R121) -/

/-- The body of a held instruction. -/
def heldBody (q : Fin 64) (t : Fin 4) (w : Word) : State → Nat → Res :=
  match fld w 0 6 with
  | 0x2C => streamBody q t w
  | 0x2E => waitsBody q t w
  | 0x2F => waitwBody q t w
  | 0x34 => lwaitBody q t w
  | 0x35 => xwaitBody q t w
  | _ => fun s _ => .done s

/-- The word that task 0 of a quire is held at by an unmet wait of R120. -/
def heldAt (qr : Quire) : Option Word :=
  if qr.seq.tasks[0].state = .held && qr.rstop.splice.isNone then qr.seq.tasks[0].heldWord else none

/-- Is the wait of a quire met, or does it have none? -/
def waitMet (s : State) (q : Fin 64) : Bool :=
  match heldAt s.quires[q] with
  | none => true
  | some w =>
    match heldBody q 0 w s s.quires[q].seq.lc with
    | .wait _ _ => false
    | _ => true

/-- Books halted periods of a quire in a run; outside runs none is booked (R407). -/
def bookRun (qr : Quire) (cause n : Nat) : Quire := if qr.seq.inRun then bookIdle qr cause n else qr

/-- The halted periods of a quire of a resuming gathering are booked: to its own wait's cause, or SPINE_STALL. Where a fence held
the read of its WAITS, those up to its release are HOST_WAIT and the rest STREAM_WAIT (R399 R407); how many they are no
command says: a free value (log entry 16). -/
def bookHalt (periods : Nat) (s : State) (q : Fin 64) : State :=
  let qr := s.quires[q]
  let cause := if (heldAt qr).isSome then qr.seq.tasks[0].heldCause else 6
  if cause = 5 then
    let (v, s) := takeFree s
    let held := v.toNat % (periods + 1)
    updQ s q (fun qr => bookRun (bookRun qr 5 held) 2 (periods - held))
  else updQ s q (fun qr => bookRun qr cause periods)

/-- The halt of a quire of a resuming gathering is over. -/
def leaveHalt (periods : Nat) (qr : Quire) : Quire :=
  { qr with rstop := { qr.rstop with halted := false, waitOwner := false }, edgeOff := qr.edgeOff + periods }

/-- A quire's met wait issues in the lc in which it was held. -/
def issueHeld (s : State) (q : Fin 64) : State :=
  match heldAt s.quires[q] with
  | none => s
  | some w =>
    let s := updQ s q (fun qr => updTask qr 0 (fun tk => settleLoads qr.seq.lc (settleRegs qr.seq.lc tk)))
    applyRes s q 0 w (heldBody q 0 w s s.quires[q].seq.lc)

/-- GATHERING_RESUME: every unmet wait of a halted gathering is met, and its quires resume at one clock edge. -/
def gatheringResume (q : Fin 64) (periods : Nat) (s : State) : State :=
  let g := gatheringQuires s q
  if !computeUp s || !g.any (fun b => s.quires[b].rstop.halted && !s.quires[b].rstop.stalled) then s
  else if g.any (fun b => s.quires[b].rstop.stalled) || !g.all (waitMet s) then s
  else
    let owners := g.filter (fun b => (heldAt s.quires[b]).isSome)
    let s := g.foldl (fun s b => if s.quires[b].rstop.halted then updQ (bookHalt periods s b) b (leaveHalt periods) else s) s
    owners.foldl issueHeld s

/-- GATHERING_RESUME (R120). -/
def execGatheringResume (q : Fin 64) (periods : Nat) (s : State) : Host.Outcome State Fault Refusal :=
  .next (gatheringResume q periods (catchUp s))

/-! ## Wait timeout and throttle (R320 R327) -/

/-- WAIT.FAULT.KIND of a wait (R334). -/
def WaitKind.code : WaitKind → Nat
  | .waits => 0 | .waitw => 1 | .writeStream => 2 | .lwait => 3 | .xwait => 4 | .splice => 5 | .readStream => 6

/-- Is the wait that holds a task still unmet? -/
def stillUnmet (s : State) (q : Fin 64) (t : Fin 4) : Bool :=
  let qr := s.quires[q]
  let tk := qr.seq.tasks[t]
  if tk.state ≠ .held then false
  else if tk.heldKind = .splice then true
  else match tk.heldWord with
    | none => false
    | some w => match heldBody q t w s qr.seq.lc with | .wait _ _ => true | _ => false

/-- WAIT_TIMEOUT: a wait has been unmet for more than WAIT.LIMIT ticks (values below 16 act as 16). -/
def waitTimeout (q : Fin 64) (t : Fin 4) (s : State) : State :=
  let tk := s.quires[q].seq.tasks[t]
  let limit := max 16 (fld s.con.waitLimit 0 32)
  if !computeUp s || !stillUnmet s q t || tick s ≤ tk.heldSince + limit then s
  else
    let rec' := packFlds [(0, 6, q.val), (6, 2, t.val), (8, 3, tk.heldKind.code), (11, 1, 1)]
    let s := if bit s.con.waitFault 11 then s else { s with con := { s.con with waitFault := rec' } }
    raiseFault s q t 8

/-- WAIT_TIMEOUT (R320). -/
def execWaitTimeout (q : Fin 64) (t : Fin 4) (s : State) : Host.Outcome State Fault Refusal := .next (waitTimeout q t (catchUp s))

/-- THROTTLE_RESUME: TOK_BACKOFF ticks after an overdraw its gathering resumes; the halted periods are booked to
TOKEN_WAIT on every quire of it that is in a run (R407). A halt by a wait goes on. -/
def throttleResume (q : Fin 64) (periods : Nat) (s : State) : State :=
  match s.con.throttled.find? (fun p => p.1 == q.val && decide (p.2 ≤ tick s)) with
  | none => s
  | some e =>
    let rest := s.con.throttled.filter (fun p => p != e)
    let s := { s with con := { s.con with throttled := rest } }
    let other := (gatheringQuires s q).any (fun b => rest.any (fun p => p.1 == b.val))
    (gatheringQuires s q).foldl (fun s b => updQ s b (fun qr =>
      let qr := bookRun qr 4 periods
      { qr with rstop := { qr.rstop with stalled := other }, edgeOff := qr.edgeOff + periods })) s

/-- THROTTLE_RESUME (R327). -/
def execThrottleResume (q : Fin 64) (periods : Nat) (s : State) : Host.Outcome State Fault Refusal :=
  .next (throttleResume q periods (catchUp s))

end Sys2Proof.Machine
end

