-- ==== Sys2Proof/Machine/Dispatch.lean ====
section
/-! DEFINITION. The meaning of every command: one arm per row of the table. -/

namespace Sys2Proof.Machine

/-- The effect of a command on everything but the queue. -/
def exec (i : Instr) (s : State) : Host.Outcome State Fault Refusal :=
  match i with
  | .nop q t w => Sys2Proof.Machine.execNop q t w s
  | .alu q t w => Sys2Proof.Machine.execAlu q t w s
  | .addi q t w => Sys2Proof.Machine.execAddi q t w s
  | .andi q t w => Sys2Proof.Machine.execAndi q t w s
  | .ori q t w => Sys2Proof.Machine.execOri q t w s
  | .xori q t w => Sys2Proof.Machine.execXori q t w s
  | .shli q t w => Sys2Proof.Machine.execShli q t w s
  | .shri q t w => Sys2Proof.Machine.execShri q t w s
  | .srai q t w => Sys2Proof.Machine.execSrai q t w s
  | .slti q t w => Sys2Proof.Machine.execSlti q t w s
  | .li q t w => Sys2Proof.Machine.execLi q t w s
  | .lih q t w => Sys2Proof.Machine.execLih q t w s
  | .gets q t w => Sys2Proof.Machine.execGets q t w s
  | .br q t w => Sys2Proof.Machine.execBr q t w s
  | .j q t w => Sys2Proof.Machine.execJ q t w s
  | .call q t w => Sys2Proof.Machine.execCall q t w s
  | .ret q t w => Sys2Proof.Machine.execRet q t w s
  | .idle q t w => Sys2Proof.Machine.execIdle q t w s
  | .yield q t w => Sys2Proof.Machine.execYield q t w s
  | .endTask q t w => Sys2Proof.Machine.execEndTask q t w s
  | .ringdb q t w => Sys2Proof.Machine.execRingdb q t w s
  | .getdb q t w => Sys2Proof.Machine.execGetdb q t w s
  | .tile q t w => Sys2Proof.Machine.execTile q t w s
  | .wpanel q t w => Sys2Proof.Machine.execWpanel q t w s
  | .vop q t w => Sys2Proof.Machine.execVop q t w s
  | .inject q t w => Sys2Proof.Machine.execInject q t w s
  | .land q t w => Sys2Proof.Machine.execLand q t w s
  | .copy q t w => Sys2Proof.Machine.execCopy q t w s
  | .reduce q t w => Sys2Proof.Machine.execReduce q t w s
  | .splice q t w => Sys2Proof.Machine.execSplice q t w s
  | .stream q t w => Sys2Proof.Machine.execStream q t w s
  | .sdload q t w => Sys2Proof.Machine.execSdload q t w s
  | .waits q t w => Sys2Proof.Machine.execWaits q t w s
  | .waitw q t w => Sys2Proof.Machine.execWaitw q t w s
  | .swap q t w => Sys2Proof.Machine.execSwap q t w s
  | .sethp q t w => Sys2Proof.Machine.execSethp q t w s
  | .lwait q t w => Sys2Proof.Machine.execLwait q t w s
  | .xwait q t w => Sys2Proof.Machine.execXwait q t w s
  | .upd q t w => Sys2Proof.Machine.execUpd q t w s
  | .uget q t w => Sys2Proof.Machine.execUget q t w s
  | .ustat q t w => Sys2Proof.Machine.execUstat q t w s
  | .tileDrain q => Sys2Proof.Machine.execTileDrain q s
  | .gatheringResume q periods => Sys2Proof.Machine.execGatheringResume q periods s
  | .runAheadStart q => Sys2Proof.Machine.execRunAheadStart q s
  | .landingComplete q ix => Sys2Proof.Machine.execLandingComplete q ix s
  | .writeComplete q ix => Sys2Proof.Machine.execWriteComplete q ix s
  | .messageAccept port => Sys2Proof.Machine.execMessageAccept port s
  | .messageLanded port => Sys2Proof.Machine.execMessageLanded port s
  | .dataFlit link bytes => Sys2Proof.Machine.execDataFlit link bytes s
  | .ctrlFlit link bytes => Sys2Proof.Machine.execCtrlFlit link bytes s
  | .heartbeatFlit link bytes => Sys2Proof.Machine.execHeartbeatFlit link bytes s
  | .trainFlit link phys deviceId peerPort job => Sys2Proof.Machine.execTrainFlit link phys deviceId peerPort job s
  | .faultFlit link bytes => Sys2Proof.Machine.execFaultFlit link bytes s
  | .replayTimeout link => Sys2Proof.Machine.execReplayTimeout link s
  | .ackTimeout link => Sys2Proof.Machine.execAckTimeout link s
  | .heartbeatTimeout link => Sys2Proof.Machine.execHeartbeatTimeout link s
  | .silence link => Sys2Proof.Machine.execSilence link s
  | .promise port => Sys2Proof.Machine.execPromise port s
  | .partialMsg port => Sys2Proof.Machine.execPartialMsg port s
  | .linkTraining link => Sys2Proof.Machine.execLinkTraining link s
  | .linkTrained link lanes => Sys2Proof.Machine.execLinkTrained link lanes s
  | .backgroundRetrain => Sys2Proof.Machine.execBackgroundRetrain s
  | .faultPath src => Sys2Proof.Machine.execFaultPath src s
  | .faultRecord => Sys2Proof.Machine.execFaultRecord s
  | .waitTimeout q t => Sys2Proof.Machine.execWaitTimeout q t s
  | .throttleResume q periods => Sys2Proof.Machine.execThrottleResume q periods s
  | .droopStretch folio droop => Sys2Proof.Machine.execDroopStretch folio droop s
  | .operatingPointChange => Sys2Proof.Machine.execOperatingPointChange s
  | .referenceLoss => Sys2Proof.Machine.execReferenceLoss s
  | .holdoverExpiry => Sys2Proof.Machine.execHoldoverExpiry s
  | .referenceTimeout => Sys2Proof.Machine.execReferenceTimeout s
  | .referenceReturn => Sys2Proof.Machine.execReferenceReturn s
  | .powerTrip watts fraction => Sys2Proof.Machine.execPowerTrip watts fraction s
  | .thermalTrip sensor temp => Sys2Proof.Machine.execThermalTrip sensor temp s
  | .thermalWarning sensor temp => Sys2Proof.Machine.execThermalWarning sensor temp s
  | .powerDomainOn pd => Sys2Proof.Machine.execPowerDomainOn pd s
  | .scrub q wIdle mIdle upsets => Sys2Proof.Machine.execScrub q wIdle mIdle upsets s
  | .fixQueueWriteback q bank => Sys2Proof.Machine.execFixQueueWriteback q bank s
  | .traceIncidentEnd folio => Sys2Proof.Machine.execTraceIncidentEnd folio s
  | .watchdog => Sys2Proof.Machine.execWatchdog s
  | .coldPowerOn env => Sys2Proof.Machine.execColdPowerOn env s
  | .powerLoss => Sys2Proof.Machine.execPowerLoss s
  | .perstAssert => Sys2Proof.Machine.execPerstAssert s
  | .perstRelease => Sys2Proof.Machine.execPerstRelease s
  | .bar4Write offset bytes => Sys2Proof.Machine.execBar4Write offset bytes s
  | .bar4Read offset length => Sys2Proof.Machine.execBar4Read offset length s
  | .unsupportedRequest req => Sys2Proof.Machine.execUnsupportedRequest req s
  | .completionTimeout ring tag => Sys2Proof.Machine.execCompletionTimeout ring tag s
  | .dbInSet value => Sys2Proof.Machine.execDbInSet value s
  | .dbOut value => Sys2Proof.Machine.execDbOut value s
  | .dbInMask value => Sys2Proof.Machine.execDbInMask value s
  | .dbOutMask value => Sys2Proof.Machine.execDbOutMask value s
  | .qmask q value => Sys2Proof.Machine.execQmask q value s
  | .quireDoorbell q => Sys2Proof.Machine.execQuireDoorbell q s
  | .dbTimeout db => Sys2Proof.Machine.execDbTimeout db s
  | .ringCfg ring value => Sys2Proof.Machine.execRingCfg ring value s
  | .heartbeat value => Sys2Proof.Machine.execHeartbeat value s
  | .bar4Seg value => Sys2Proof.Machine.execBar4Seg value s
  | .fence window value => Sys2Proof.Machine.execFence window value s
  | .pdReq value => Sys2Proof.Machine.execPdReq value s
  | .droopCfg value => Sys2Proof.Machine.execDroopCfg value s
  | .recoveryGo value verified => Sys2Proof.Machine.execRecoveryGo value verified s
  | .registerWrite bar2 offset width value => Sys2Proof.Machine.execRegisterWrite bar2 offset width value s
  | .nopCommand ring pkt => Sys2Proof.Machine.execNopCommand ring pkt s
  | .query ring pkt host => Sys2Proof.Machine.execQuery ring pkt host s
  | .loadProgram ring pkt host => Sys2Proof.Machine.execLoadProgram ring pkt host s
  | .loadRegion ring pkt => Sys2Proof.Machine.execLoadRegion ring pkt s
  | .exportRegion ring pkt => Sys2Proof.Machine.execExportRegion ring pkt s
  | .startTask ring pkt => Sys2Proof.Machine.execStartTask ring pkt s
  | .abortTask ring pkt => Sys2Proof.Machine.execAbortTask ring pkt s
  | .setStep ring pkt => Sys2Proof.Machine.execSetStep ring pkt s
  | .runUpdate ring pkt => Sys2Proof.Machine.execRunUpdate ring pkt s
  | .readLedger ring pkt host => Sys2Proof.Machine.execReadLedger ring pkt host s
  | .readTelemetry ring pkt host => Sys2Proof.Machine.execReadTelemetry ring pkt host s
  | .setOperatingPoint ring pkt => Sys2Proof.Machine.execSetOperatingPoint ring pkt s
  | .setTopology ring pkt => Sys2Proof.Machine.execSetTopology ring pkt s
  | .topologyWaitExpiry => Sys2Proof.Machine.execTopologyWaitExpiry s
  | .linkControlRetrain ring pkt => Sys2Proof.Machine.execLinkControlRetrain ring pkt s
  | .linkControlDisable ring pkt => Sys2Proof.Machine.execLinkControlDisable ring pkt s
  | .linkControlEnable ring pkt => Sys2Proof.Machine.execLinkControlEnable ring pkt s
  | .linkControlClear ring pkt => Sys2Proof.Machine.execLinkControlClear ring pkt s
  | .resetCompute ring pkt => Sys2Proof.Machine.execResetCompute ring pkt s
  | .fwUpdate ring pkt host verified written => Sys2Proof.Machine.execFwUpdate ring pkt host verified written s
  | .attest ring pkt host => Sys2Proof.Machine.execAttest ring pkt host s
  | .fencedCommandStart ring => Sys2Proof.Machine.execFencedCommandStart ring s
  | .commandCompletion ring => Sys2Proof.Machine.execCommandCompletion ring s
  | .taskCompletion ring tag => Sys2Proof.Machine.execTaskCompletion ring tag s
  | .ident => Sys2Proof.Machine.execIdent s
  | .status => Sys2Proof.Machine.execStatus s
  | .fault => Sys2Proof.Machine.execFault s
  | .power => Sys2Proof.Machine.execPower s
  | .tempMax => Sys2Proof.Machine.execTempMax s
  | .alertClear => Sys2Proof.Machine.execAlertClear s
  | .alertResponse => Sys2Proof.Machine.execAlertResponse s
  | .msixVectorUnmask vector => Sys2Proof.Machine.execMsixVectorUnmask vector s
  | .uncorrectableFlit link => Sys2Proof.Machine.execUncorrectableFlit link s
  | .faultFlitResend link => Sys2Proof.Machine.execFaultFlitResend link s
  | .pcieLinkDown => Sys2Proof.Machine.execPcieLinkDown s
  | .d3hot enter => Sys2Proof.Machine.execD3hot enter s

end Sys2Proof.Machine
end

