-- ==== Sys2Proof/Machine/Tick.lean ====
section
/-! DEFINITION. One stitch tick: what happens on an empty queue (log entry 2). -/

namespace Sys2Proof.Machine

/-- A write of SCRUB_CTL takes effect at the tick, and the scrub engine has its rows of the tick before it (R150 R159). -/
def tickQuire (qr : Quire) : Quire :=
  { qr with bank := { qr.bank with scrubActive := qr.bank.scrubCtl, usedW := 0, usedM := 0, scrubbed := false } }

/-- What the firmware does at a tick: the alarms of the tick before go out, rings in error are found, packets of no
listed opcode are answered (R428 R429 R473). -/
def tickFirmware (s : State) : State :=
  if !firmwareRuns s then s
  else
    let s := flushAlarms s
    let s := (List.finRange 4).foldl ringCheck s
    (List.finRange 4).foldl (fun s r => takeUnlisted r 8 s) s

/-- The stitch count advances by one (R340). -/
def countTick (s : State) : State := { s with clk := { s.clk with stitch := s.clk.stitch + 1 } }

/-- What is counted or sampled once a tick begins anew, and DROOP_CFG takes effect (R357 R429 R448 R477). -/
def newTick (s : State) : State :=
  { s with host := { s.host with taken := Vector.replicate 4 0, turn := 0 }, pwr := { s.pwr with sampled := false },
           clk := { s.clk with droopActive := s.clk.droopCfg } }

/-- One stitch tick of a powered module. -/
def stitchTick (s : State) : State :=
  if !s.pwr.powered then s
  else
    let s := tickFirmware (catchUp s)
    let s := updAllQ (newTick (countTick s)) (fun _ => tickQuire)
    let s := startRuns (takeDomains (resetPhase s))
    { s with w1c := w1cSnapshot s }

end Sys2Proof.Machine
end

