-- ==== Sys2Proof/Safety.lean ====
section
/-! DEFINITION. What counts as a safe run, in the terms the statements use: the block never stops, its memories keep
their canonical form, its operating point stays one of the table, reserved bits read 0. -/

namespace Sys2Proof.Machine

/-- A step answers a next state: the block never stops. -/
def Completes (o : Host.Outcome State Fault Refusal) : Prop := ∃ t, o = .next t

/-- Every memory of a quire is in canonical form. -/
def QuireMem.canonical (m : QuireMem) : Prop :=
  Mem.wf m.weight = true ∧ Mem.wf m.moment = true ∧ Mem.wf m.scale = true ∧ Mem.wf m.grad = true ∧ Mem.wf m.act = true
    ∧ Mem.wf m.ps = true ∧ Mem.wf m.stg = true ∧ Mem.wf m.half0 = true ∧ Mem.wf m.half1 = true ∧ Mem.wf m.prog = true
    ∧ Mem.wf m.descActive = true ∧ Mem.wf m.descShadow = true

/-- So are the memories of a quire and the descriptor tables of its tasks. -/
def Quire.canonical (qr : Quire) : Prop := qr.mem.canonical ∧ ∀ t : Fin 4, Mem.wf qr.seq.tasks[t].sdt = true

/-- Every memory of the module is in canonical form: far memory, the endpapers, those of every quire. -/
def State.canonical (s : State) : Prop :=
  Mem.wf s.far = true ∧ (∀ l : Fin 26, Mem.wf s.endpapers[l] = true) ∧ ∀ q : Fin 64, s.quires[q].canonical

/-- Every index of the clock root names an operating point of the table (R343): the present one, the target, and those
kept to be restored (R350 R353). -/
def State.pointLegal (s : State) : Prop :=
  s.clk.current ≤ 6 ∧ s.clk.target ≤ 6 ∧ (∀ r, s.clk.restore = some r → r ≤ 6) ∧ s.bind.formerIndex ≤ 6

/-- The reserved bits of a quire's writable registers ARRAY.CONFIG and BANK.SCRUB_CTL are 0 (R12 R91 R154). -/
def Quire.reservedZero (qr : Quire) : Prop := qr.array.config &&& ~~~3 = 0 ∧ qr.bank.scrubCtl &&& ~~~0xFF01 = 0

/-- The reserved bits of writable registers are 0: those of the quires, DEBUG_CTL, WAIT.LIMIT, ALARM.CFG and
CLK.DROOP_CFG (R12 R334 R357 R479). -/
def State.reservedZero (s : State) : Prop :=
  s.con.debugCtl &&& ~~~0xFF07 = 0 ∧ s.con.waitLimit &&& ~~~0xFFFF_FFFF = 0 ∧ s.trace.alarmCfg &&& ~~~0xFFFF_FFF1 = 0
    ∧ s.clk.droopCfg &&& ~~~0xFFFF = 0 ∧ ∀ q : Fin 64, s.quires[q].reservedZero

/-! ## Instructions that issue (R269 R273 R274 R284; log entry 1) -/

/-- The state in the issue lc of task t's next instruction: everything of earlier clock edges has come about, the lc is the
task's turn, and its register writes that are readable there have taken effect. -/
def issueState (s : State) (q : Fin 64) (t : Fin 4) : State := atIssue (arrive s q t) q t

/-- The quire in that lc, the lc itself, and the context of the task. -/
def issueQuire (s : State) (q : Fin 64) (t : Fin 4) : Quire := (issueState s q t).quires[q]
def issueLc (s : State) (q : Fin 64) (t : Fin 4) : Nat := (issueQuire s q t).seq.lc
def issueTask (s : State) (q : Fin 64) (t : Fin 4) : Task := (issueQuire s q t).seq.tasks[t]

/-- The word w, an instruction of opcode op, is task t's next, it is the task's turn now and still when everything of
earlier clock edges has come about, and no bit of the word is set that its format does not list. -/
def Issues (s : State) (q : Fin 64) (t : Fin 4) (w : Word) (op : Nat) : Prop :=
  canIssue s q t w op = true ∧ canIssue (arrive s q t) q t w op = true ∧ wordFieldsOk op w = true

/-- The hazard checker is off, or no register of a list is read inside the latency of a write (R271 R329). -/
def ReadsReady (s : State) (q : Fin 64) (t : Fin 4) (regs : List Nat) : Prop :=
  hazOn (issueState s q t) = false ∨ readsEarly (issueState s q t) q t (regs.filter (· != 0)) = false

/-- The hazard checker is off, or no unit writes register r in lc y (R296 R329). -/
def WriteClear (s : State) (q : Fin 64) (t : Fin 4) (r y : Nat) : Prop :=
  hazOn (issueState s q t) = false ∨
    (issueTask s q t).pend.any (fun p => p.byUnit && p.reg.val == r && p.lc == y) = false

/-- The hazard checker is off, or no instruction's write of register r waits for the lc of a unit's write (R296 R329). -/
def UnitClear (s : State) (q : Fin 64) (t : Fin 4) (r : Nat) : Prop :=
  hazOn (issueState s q t) = false ∨ r = 0 ∨
    (issueTask s q t).pend.any (fun p => !p.byUnit && p.reg.val == r && p.lc == issueLc s q t + 2) = false

/-- The hazard checker is off, or no stream commit that is not over writes the rows of a descriptor of `size` bytes, whose first
bytes are read in the issue lc and the rest in the next (R191 R277 R329). -/
def DescClear (s : State) (q : Fin 64) (t : Fin 4) (ix size first : Nat) : Prop :=
  let a := 512 * ((issueTask s q t).stgBase + ix / (512 / size)) + size * (ix % (512 / size))
  let x := issueLc s q t
  hazOn (issueState s q t) = false ∨
    ∀ e ∈ (issueQuire s q t).flight, commitsInto x 6 a first e = false ∧ commitsInto (x + 1) 6 (a + first) (size - first) e = false

/-- The next index of the task. -/
def nextPc (s : State) (q : Fin 64) (t : Fin 4) : BitVec 14 := (issueTask s q t).pc + 1

/-- Nothing is in flight in any quire. -/
def State.quiet (s : State) : Prop := ∀ b : Fin 64, s.quires[b].flight = []

/-- What the issue of an instruction adds to the effect `a` that the instruction itself has had in its issue lc: the task
stands at the index given, running, with no wait held; one instruction and one lc more, the lc booked, a filler's turn
passed on to the next running filler; nothing else. -/
structure Retired (a u : State) (q : Fin 64) (t : Fin 4) (npc : BitVec 14) : Prop where
  task : u.quires[q].seq.tasks[t] = { a.quires[q].seq.tasks[t] with pc := npc, state := .running, heldWord := none }
  tasks : ∀ k : Fin 4, k ≠ t → u.quires[q].seq.tasks[k] = a.quires[q].seq.tasks[k]
  seq : u.quires[q].seq = { a.quires[q].seq with
    tasks := u.quires[q].seq.tasks, issued := a.quires[q].seq.issued + 1, lc := a.quires[q].seq.lc + 1,
    past := a.quires[q].seq.lc + 1, rot := if t = 0 then a.quires[q].seq.rot else nextPlace t a.quires[q].seq }
  issue : u.quires[q].idleIssue = if t = 0 then a.quires[q].idleIssue + 1 else a.quires[q].idleIssue
  filler : u.quires[q].idleCause =
    if t = 0 then a.quires[q].idleCause else a.quires[q].idleCause.set 7 (a.quires[q].idleCause[7] + 1)
  quire : u.quires[q] = { a.quires[q] with
    seq := u.quires[q].seq, idleIssue := u.quires[q].idleIssue, idleCause := u.quires[q].idleCause }
  others : ∀ b : Fin 64, b ≠ q → u.quires[b] = a.quires[b]
  rest : { u with quires := a.quires } = a

/-- The register r of the task takes v, readable from lc y on. -/
def withReg (a : State) (q : Fin 64) (t : Fin 4) (r : Nat) (v : Word) (y : Nat) : State :=
  updT a q t (fun tk => writeReg tk r v y false)

/-- An instruction that computes v into its RD from registers it reads: it completes, and RD takes v, readable from lc y
on; nothing else changes. -/
def Computes (s : State) (q : Fin 64) (t : Fin 4) (w : Word) (op : Nat) (regs : List Nat) (v : Word) (y : Nat)
    (out : Host.Outcome State Fault Refusal) : Prop :=
  Issues s q t w op → ReadsReady s q t regs → WriteClear s q t (wRD w) y →
    ∃ u, out = .next u ∧ Retired (withReg (issueState s q t) q t (wRD w) v y) u q t (nextPc s q t)

/-- The contents of a quire without its schedules: the effects in flight, the accesses placed on ports, the token claims. -/
def Quire.content (qr : Quire) : Quire := { qr with flight := [], ports := [], claims := [] }

/-- The claims of some tokens begin, each in its first lc (R322). -/
def claimEvents (cs : List Claim) : List Event :=
  (cs.filter (fun c => c.tok != 0)).map (fun c => { lc := c.first, ph := 0, task := c.task, op := .claim })

/-- What an instruction that puts work in flight does in its issue lc: the content of its quire becomes that of `v`; the
effects `es` are in flight beside those that were, the accesses `as` placed on ports beside those that were, and of the
claims `cs` those of some tokens made, each to begin in its first lc; no other quire changes, and nothing outside the
quires. -/
structure Launches (b a : State) (q : Fin 64) (v : Quire) (es : List Event) (as : List Access) (cs : List Claim) : Prop where
  content : a.quires[q].content = v.content
  flight : a.quires[q].flight.Perm (claimEvents cs ++ es ++ b.quires[q].flight)
  ports : ∀ p, p ∈ a.quires[q].ports ↔ p ∈ b.quires[q].ports ∨ p ∈ as
  claims : a.quires[q].claims = b.quires[q].claims ++ cs.filter (fun c => c.tok != 0)
  others : ∀ k : Fin 64, k ≠ q → a.quires[k] = b.quires[k]
  rest : { a with quires := b.quires } = b

/-- An instruction that puts work in flight completes. -/
def StartsWork (s : State) (q : Fin 64) (t : Fin 4) (v : Quire) (es : List Event) (as : List Access) (cs : List Claim)
    (out : Host.Outcome State Fault Refusal) : Prop :=
  ∃ a u, out = .next u ∧ Launches (issueState s q t) a q v es as cs ∧ Retired a u q t (nextPc s q t)

/-- What a fault of a class, raised by task t in its issue lc, leaves where nothing else is in flight: the task stopped by
the fault, every other task of the quire stopped, no instruction counted and no PC advanced, nothing written; the fault is on
its way to the latch (R96 R297 R468). -/
structure Faulted (s u : State) (q : Fin 64) (t : Fin 4) (cls : Nat) : Prop where
  state : u.quires[q].seq.tasks[t].state = .faulted
  stopped : ∀ k : Fin 4, u.quires[q].seq.tasks[k].live = false
  run : u.quires[q].seq.inRun = ((issueQuire s q t).seq.inRun && !(issueQuire s q t).seq.tasks[0].live)
  pcs : ∀ k : Fin 4, u.quires[q].seq.tasks[k].pc = (issueQuire s q t).seq.tasks[k].pc
  issued : u.quires[q].seq.issued = (issueQuire s q t).seq.issued
  mem : u.quires[q].mem = (issueQuire s q t).mem
  ledger : u.quires[q].ledger = (issueQuire s q t).ledger
  others : ∀ b : Fin 64, b ≠ q → u.quires[b] = (issueState s q t).quires[b]
  raised : u.bind.raised = (issueState s q t).bind.raised ++
    [{ cls := cls, quire := some q, link := 0, originClass := 0, originId := 0, tick := tick (issueState s q t) }]

/-- A fault of the sequencer at issue: SEQ.FAULT records it where it holds no fault yet (R293 R522), its class is PROGRAM
(R470). -/
def SeqFault (s : State) (q : Fin 64) (t : Fin 4) (cause : Nat) (out : Host.Outcome State Fault Refusal) : Prop :=
  ∃ u, out = .next u ∧ Faulted s u q t 7 ∧
    u.quires[q].seq.fault =
      if bit (issueQuire s q t).seq.fault 6 then (issueQuire s q t).seq.fault
      else packFlds [(0, 4, cause), (4, 2, t.val), (6, 1, 1), (7, 13, (issueTask s q t).pc.toNat)]

/-- What the FAULT register of a unit holds after a fault of its own: the first since the last clear. -/
def unitFault (old : Word) (cause : Nat) (t : Fin 4) : Word :=
  if bit old 6 then old else packFlds [(0, 4, cause), (4, 2, t.val), (6, 1, 1)]

/-- A fault of the ring stop at issue, recorded in RSTOP.FAULT (R522). -/
def RstopFault (s : State) (q : Fin 64) (t : Fin 4) (cause : Nat) (out : Host.Outcome State Fault Refusal) : Prop :=
  ∃ u, out = .next u ∧ Faulted s u q t 7 ∧ u.quires[q].rstop.fault = unitFault (issueQuire s q t).rstop.fault cause t

/-- A fault of the update engine at issue, recorded in UPD.FAULT (R522). -/
def UpdFault (s : State) (q : Fin 64) (t : Fin 4) (cause : Nat) (out : Host.Outcome State Fault Refusal) : Prop :=
  ∃ u, out = .next u ∧ Faulted s u q t 7 ∧ u.quires[q].upd.fault = unitFault (issueQuire s q t).upd.fault cause t

/-! ## Commands of the rings (R428–R434) -/

/-- The packet k of opcode op stands at the bindery's index of ring r, the bindery may take it, and the ring's turn in the tick
is not over (R429 R448). -/
def Takes (s : State) (r : Fin 4) (op : Nat) (k : Packet) : Prop :=
  mayTake s r = true ∧ ringTurn s r (goesFirst op k) = true ∧ frontPacket s r = packetBytes op k

/-- Nothing in progress holds the command back: it carries no fence and is no RUN_UPDATE, or nothing of its ring is in
progress (R244 R429). -/
def Unfenced (s : State) (r : Fin 4) (op : Nat) (k : Packet) : Prop :=
  (pktFenced k = false ∧ op ≠ 0x08) ∨ ∀ d ∈ s.bind.cmds, d.ring ≠ r

/-- The command starts in the step that takes it, and passes steps 1 to 6 of R433. -/
def Starts (s : State) (r : Fin 4) (op : Nat) (k : Packet) : Prop :=
  Takes s r op k ∧ Unfenced s r op k ∧ firstCheck s op r k = none

/-- The state in which the command of the front packet does its work: CMD_CONS past the packet, the tick come to its ring unless
it is an ABORT_TASK that goes first, everything of earlier clock edges come about. -/
def workState (s : State) (r : Fin 4) (first : Bool := false) : State := catchUp (noteTurn r first (advanceRing s r))

/-- The command that a packet makes. -/
def commandOf (s : State) (r : Fin 4) (op : Nat) (k : Packet) (host : Option (List Byte)) : Cmd :=
  Cmd.ofPacket r op k host false false (tick s) (cmdCons s r)

/-- The state b with a command behind those that were in progress before it. -/
def withCommand (s b : State) (c : Cmd) : State :=
  { b with bind := { b.bind with cmds := b.bind.cmds.take s.bind.cmds.length ++ c :: b.bind.cmds.drop s.bind.cmds.length } }

/-- The state b with the command of a row done there: its status and results wait for their status packet (R434). -/
def Ended (s b : State) (c : Cmd) (status : Nat) (r0 r1 : Word) : State :=
  withCommand s { b with bind := { b.bind with doneCount := b.bind.doneCount + 1 } }
    { c with st := .done status r0 r1, doneAt := b.bind.doneCount }

/-- The memory of a TARGET of R439. -/
def rowsTarget (k : Quire) (target : Nat) : Mem :=
  match target with
  | 0 => k.mem.act | 1 => k.mem.ps | 2 => k.mem.stg | 3 => k.mem.weight | 4 => k.mem.moment | 5 => k.mem.grad | _ => k.mem.scale

/-- A quire without what its reads in flight have already read. -/
def Quire.unfetched (k : Quire) : Quire :=
  { k with stream := { k.stream with landings := k.stream.landings.map (fun l => { l with fetched := [] }) } }

/-- Of every read in flight, a write of n bytes at a makes no beat old that it does not meet: what has been read before it is
what stood there before it, and every other landing stays as it was (R180 R419). -/
def Fetches (b u : State) (a n : Nat) : Prop :=
  ∀ (c : Fin 64) (i : Nat) (l m : Landing), b.quires[c].stream.landings[i]? = some l → u.quires[c].stream.landings[i]? = some m →
    if l.far = 0 ∧ l.landed = false ∧ landingBlocked b c l = false then
      ∀ f ∈ m.fetched, f ∈ l.fetched ∨ rangesMeet f.1 256 a n = true ∧ f.2 = readBytes b.far f.1 256
    else m = l

/-- The bytes bs lie at address a, and x is one of their addresses. -/
def Within (a : Nat) (bs : List Byte) (x : Nat) : Prop := a ≤ x ∧ x < a + bs.length

/-- The byte v of an incomplete write of far memory lies at address x (R180 R193). -/
def OnTheWay (b : State) (x : Nat) (v : Option Byte) : Prop :=
  ∃ (c : Fin 64), ∃ o ∈ b.quires[c].stream.writes, o.far = 0 ∧ Within o.faddr o.data x ∧ v = o.data[x - o.faddr]?

/-- The quire that owns a cross-gathering buffer (R321). -/
def bufferOwnerOf (s : State) (f : Fin 32) : Fin 64 := ⟨fld s.con.xbCfg[f] 54 6 % 64, by omega⟩
def bufferOwner (s : State) (f : Fin 32) : Quire := s.quires[bufferOwnerOf s f]

/-! ## Link faults (R380 R390) -/

/-- The fault of a link that its own end finds: class 4, no origin (R470). -/
def linkRaise (l : Fin 26) (cause t : Nat) : Raised :=
  { cls := 4, quire := none, link := l.val, originClass := 0, originId := 0, tick := t, cause := cause }

/-- What a fault r of link l leaves where it is one of the required links of a running compute part: LINK.FAULT holds the first
fault since its last clear, and the fault is on its way to the latch. A second fault of the link in one tick is no fault of
its own: the two are one, of the lower cause (R390). -/
def linkFaulted (s : State) (l : Fin 26) (r : Raised) : State :=
  let same := fun e : Raised => e.cause != 0 && e.link == l.val && e.tick == tick s
  let record := updLink s l (fun k =>
    { k with fault := packFlds [(0, 3, r.cause), (3, 1, 1), (32, 32, r.originId.toNat)] })
  match s.bind.raised.find? same with
  | none =>
    let taken := bit s.links[l].fault 3
    { (if taken then s else record) with bind := { s.bind with raised := s.bind.raised ++ [{ r with noted := !taken }] } }
  | some g =>
    if r.cause < g.cause then
      { (if g.noted then record else s) with bind := { s.bind with
          raised := s.bind.raised.map (fun e => if same e then { r with noted := g.noted } else e) } }
    else s

/-- Nothing is in flight in any quire and no drain waits. -/
def State.still (s : State) : Prop := ∀ q : Fin 64, s.quires[q].flight = [] ∧ s.quires[q].array.drains = []

end Sys2Proof.Machine
end

