-- ==== Sys2Proof/Certificates/Slice0/Obligations.lean ====
section
/-! DEFINITION. The statements for the provers. -/

section
open Sys2Proof Sys2Proof.Machine

/-! ## The block -/

/-- A step takes the command at the front of the queue and runs it on the state with the rest of the queue. -/
def Obligations.StepRunsFront : Prop :=
  ∀ (s : State) (c : Instr) (cs : List Instr), step { s with pending := c :: cs } = exec c { s with pending := cs }

/-- On an empty queue one stitch tick passes (the model's choice, log entry 2): CLK.STITCH advances by one (R340), the queue
stays empty; a task 0 whose first tick has come is in its run (R436); without power nothing happens. No step stops the block. -/
def Obligations.IdleTick : Prop :=
  (∀ s : State, s.pending = [] → s.pwr.powered = true → s.still →
    ∃ u, step s = .next u ∧ u.clk.stitch = s.clk.stitch + 1 ∧ u.pending = [] ∧ u.pwr.powered = true
      ∧ u.flash = s.flash ∧ (∀ q : Fin 64, u.quires[q].bank.scrubActive = u.quires[q].bank.scrubCtl)
      ∧ u.host.taken = Vector.replicate 4 0 ∧ u.pwr.sampled = false ∧ u.clk.droopActive = s.clk.droopCfg
      ∧ ∀ q : Fin 64, u.quires[q].seq.inRun = false → u.quires[q].seq.tasks[0].live = true → tick u < u.quires[q].seq.tasks[0].startsAt)
  ∧ (∀ s : State, s.pending = [] → s.pwr.powered = false → step s = .next s)
  ∧ ∀ s : State, Completes (step s)

/-- What the spec gives the registers after reset: ARRAY.CONFIG 3, every KEEP word ones (R234), SCRUB_CTL 0x4001 (R154), the
s registers and contexts cleared (R293), MINEXP and MAXEXP of a ledger slot at their ends (R60), DEBUG_CTL 0x402, WAIT.LIMIT
10,000 (R334), PWR.PD_REQ 0x20F0, the clock root at index 5 (R357), GUTTER behind F03, F07, F11 and F15 (R122), RING_CFG 0x60,
DB_OUT_MASK all ones (R450), FAULT_N asserted (R498), no task, command, slot or step of a unit in progress.
Readings of the model: log entries 5, 6, 31. -/
def Obligations.ResetRegisters : Prop :=
  let s := State.reset
  (∀ q : Fin 64, s.quires[q].array.config = 3 ∧ (∀ i : Fin 4, s.quires[q].bwd.keepNext[i] = ~~~0)
    ∧ s.quires[q].bank.scrubCtl = 0x4001 ∧ s.quires[q].bank.scrubStatus = 0 ∧ s.quires[q].rstop.pass = true
    ∧ (∀ i : Fin 256, s.quires[q].ledger[i] = LedgerSlot.reset) ∧ s.quires[q].flight = [] ∧ s.quires[q].seq.inRun = false
    ∧ (∀ t : Fin 4, s.quires[q].seq.tasks[t].state = .stopped ∧ s.quires[q].seq.tasks[t].pc = 0
      ∧ ∀ r : Fin 32, s.quires[q].seq.tasks[t].sregs[r] = 0))
  ∧ LedgerSlot.reset.maxExp = -32768 ∧ LedgerSlot.reset.minExp = 32767
  ∧ s.con.debugCtl = 0x402 ∧ s.con.waitLimit = 10000 ∧ s.pwr.req = 0x20F0 ∧ s.clk.current = 5 ∧ s.clk.opPending = false
  ∧ (∀ i : Fin 16, bit s.spine.boundary[i] 36 = decide (i.val % 4 = 3)) ∧ s.spine.layout = 0 ∧ s.spine.slots = []
  ∧ (∀ r : Fin 4, s.host.ringCfg[r] = 0x60 ∧ s.host.ringPtr[r] = 0) ∧ s.host.dbOutMask = ~~~0 ∧ s.host.ready = false
  ∧ s.bind.faultN = true ∧ s.bind.latch = false ∧ s.bind.loaded = 0 ∧ s.bind.cmds = [] ∧ s.far = [] ∧ s.pending = []

/-! ## Invariants -/

/-- After reset every memory is in its canonical form, every index of the clock root is legal, and the reserved bits are 0.
Readings of the model: log entry 6. -/
def Obligations.InvariantsAtReset : Prop :=
  State.reset.canonical ∧ State.reset.pointLegal ∧ State.reset.reservedZero

/-- Every step keeps every memory of the module in its canonical form: far memory, the endpapers, and the banks, scratchpads,
stop-buffers, program and descriptor stores of every quire.
Readings of the model: log entry 6. -/
def Obligations.StepKeepsMemories : Prop := ∀ s t : State, s.canonical → step s = .next t → t.canonical

/-- Every step keeps every index of the clock root one of the seven operating points (R343). -/
def Obligations.StepKeepsPoint : Prop := ∀ s t : State, s.pointLegal → step s = .next t → t.pointLegal

/-- Every step keeps the reserved bits of the writable registers 0 (R12). -/
def Obligations.StepKeepsReserved : Prop := ∀ s t : State, s.reservedZero → step s = .next t → t.reservedZero

/-! ## Instructions of the sequencer -/

/-- NOP issues and does nothing; a WAITS without an issued landing of its task (R189) and a WAITW whose task has no incomplete
write (R182) do no more; a wait of task 0 is judged 6 lc before its own (R120).
Readings of the model: log entry 1. -/
def Obligations.NopAndMetWaits : Prop :=
  ∀ (s : State) (q : Fin 64) (t : Fin 4) (w : Word),
    (Issues s q t w 0x00 → ∃ u, exec (.nop q t w) s = .next u ∧ Retired (issueState s q t) u q t (nextPc s q t))
    ∧ (Issues s q t w 0x2E → (∀ l ∈ (issueQuire s q t).stream.landings, l.task = t → l.issued = false) →
        ∃ u, exec (.waits q t w) s = .next u ∧ Retired (issueState s q t) u q t (nextPc s q t))
    ∧ (Issues s q t w 0x2F → (∀ o ∈ (issueQuire s q t).stream.writes, o.task ≠ t) →
        (∀ d ∈ (issueQuire s q t).stream.doneWrites, d.task = t → t ≠ 0 ∨ d.ready ≤ issueLc s q t) →
        ∃ u, exec (.waitw q t w) s = .next u ∧ Retired (issueState s q t) u q t (nextPc s q t))

/-- The immediate instructions of R286: RD takes the function of RA and the immediate, readable from lc x + 1 on (R306). The
shifts take an immediate below 64.
The sixteen functions of ALU (table "ALU functions" of R286); a multiply is readable from lc x + 3 on, every other result
from lc x + 1 on (R306).
LI writes the immediate sign-extended; LIH writes it into RD[63:32] and keeps RD[31:0] (R286).
Readings of the model: log entry 1. -/
def Obligations.ScalarResults : Prop :=
  (∀ (s : State) (q : Fin 64) (t : Fin 4) (w : Word),
     let a := readReg (issueTask s q t) (wRA w)
     let y := issueLc s q t + 1
     let imm : BitVec 32 := BitVec.ofNat 32 (fld w 16 32)
     Computes s q t w 0x02 [wRA w] (a + imm.signExtend 64) y (exec (.addi q t w) s)
     ∧ Computes s q t w 0x03 [wRA w] (a &&& imm.zeroExtend 64) y (exec (.andi q t w) s)
     ∧ Computes s q t w 0x04 [wRA w] (a ||| imm.zeroExtend 64) y (exec (.ori q t w) s)
     ∧ Computes s q t w 0x05 [wRA w] (a ^^^ imm.zeroExtend 64) y (exec (.xori q t w) s)
     ∧ Computes s q t w 0x09 [wRA w] (if a.toInt < imm.toInt then 1 else 0) y (exec (.slti q t w) s)
     ∧ (imm.toNat < 64 →
         Computes s q t w 0x06 [wRA w] (a <<< imm.toNat) y (exec (.shli q t w) s)
         ∧ Computes s q t w 0x07 [wRA w] (a >>> imm.toNat) y (exec (.shri q t w) s)
         ∧ Computes s q t w 0x08 [wRA w] (a.sshiftRight imm.toNat) y (exec (.srai q t w) s)))
  ∧ (∀ (s : State) (q : Fin 64) (t : Fin 4) (w : Word),
       let a := readReg (issueTask s q t) (wRA w)
       let b := readReg (issueTask s q t) (wRB w)
       let n := b.toNat % 64
       let sMin := if a.toInt < b.toInt then a else b
       let sMax := if a.toInt < b.toInt then b else a
       let uMin := if a.toNat < b.toNat then a else b
       let uMax := if a.toNat < b.toNat then b else a
       let table : List Word :=
         [a + b, a - b, a &&& b, a ||| b, a ^^^ b, a <<< n, a >>> n, a.sshiftRight n, a * b,
          if a.toInt < b.toInt then 1 else 0, if a.toNat < b.toNat then 1 else 0, if a = b then 1 else 0, sMin, sMax, uMin, uMax]
       ∀ (fn : Nat) (v : Word), fld w 21 7 = fn → table[fn]? = some v →
         Computes s q t w 0x01 [wRA w, wRB w] v (issueLc s q t + if fn = 8 then 3 else 1) (exec (.alu q t w) s))
  ∧ (∀ (s : State) (q : Fin 64) (t : Fin 4) (w : Word),
       let imm : BitVec 32 := BitVec.ofNat 32 (fld w 16 32)
       let low : BitVec 32 := (readReg (issueTask s q t) (wRD w)).setWidth 32
       Computes s q t w 0x0A [] (imm.signExtend 64) (issueLc s q t + 1) (exec (.li q t w) s)
       ∧ Computes s q t w 0x0B [wRD w] (imm ++ low) (issueLc s q t + 1) (exec (.lih q t w) s))

/-- GETS writes RD from the source that SEL names; other SEL values are illegal (R287). -/
def Obligations.GetsSources : Prop :=
  ∀ (s : State) (q : Fin 64) (t : Fin 4) (w : Word),
    let k := issueQuire s q t
    let table : List Word :=
      [if k.seq.inRun then BitVec.ofNat 64 (issueLc s q t) else 0, BitVec.ofNat 64 q.val, BitVec.ofNat 64 t.val,
       BitVec.ofNat 64 (issueState s q t).bind.loaded, (issueTask s q t).arg, k.upd.stepActive]
    (∀ v, table[fld w 16 8]? = some v → Computes s q t w 0x0C [] v (issueLc s q t + 1) (exec (.gets q t w) s))
    ∧ (fld w 16 8 ≥ 6 → Issues s q t w 0x0C → (issueState s q t).quiet → SeqFault s q t 2 (exec (.gets q t w) s))

/-- s0 reads as 0 and a write to it is discarded; a written register keeps its value to lc y − 1 and takes the new one from lc
y on (R270 R271), where no other write of it waits. -/
def Obligations.RegisterWrites : Prop :=
  ∀ (tk : Task) (r : Nat) (v : Word) (y : Nat) (byUnit : Bool), r < 32 →
    readReg tk 0 = 0 ∧ writeReg tk 0 v y byUnit = tk
    ∧ (r ≠ 0 → (∀ p ∈ tk.pend, p.reg.val ≠ r) →
        (∀ x, y ≤ x → readReg (settleRegs x (writeReg tk r v y byUnit)) r = v)
        ∧ (∀ x, x < y → readReg (settleRegs x (writeReg tk r v y byUnit)) r = readReg tk r))
    ∧ (∀ x k, k < 32 → k ≠ r → readReg (settleRegs x (writeReg tk r v y byUnit)) k = readReg (settleRegs x tk) k)

/-- BR compares RA with RB by CC and goes on at the next index where the condition does not hold; where it holds, and for J,
CALL and RET, the task goes on at the target, landings started ahead of the branch on the sequential path are discarded
(R183), and CALL writes the index of the next instruction into RD (R288).
A taken target at or beyond the code count, or before the first instruction, is a base/bound fault at the issue of the
branch (R288 R522).
Readings of the model: log entries 1, 15. -/
def Obligations.BranchesAndBounds : Prop :=
  (∀ (s : State) (q : Fin 64) (t : Fin 4) (w : Word),
     let b := issueState s q t
     let a := readReg (issueTask s q t) (wRA w)
     let c := readReg (issueTask s q t) (wRB w)
     let conds : List Bool :=
       [decide (a = c), decide (a ≠ c), decide (a.toInt < c.toInt), decide (c.toInt ≤ a.toInt), decide (a.toNat < c.toNat),
        decide (c.toNat ≤ a.toNat)]
     let pc := (issueTask s q t).pc.toNat
     let rel : Int := pc + sfld w 21 27
     let within := fun n : Int => 0 ≤ n ∧ n < ((issueTask s q t).codeCount : Int)
     let taken := fun (a : State) (n : Int) (out : Host.Outcome State Fault Refusal) =>
       ∃ u, out = .next u ∧ Retired (branchDiscard a q t) u q t (BitVec.ofNat 14 n.toNat)
     (Issues s q t w 0x10 → ReadsReady s q t [wRA w, wRB w] →
       (conds[fld w 6 5]? = some false →
         ∃ u, exec (.br q t w) s = .next u ∧ Retired b u q t (nextPc s q t))
       ∧ (conds[fld w 6 5]? = some true → within rel → taken b rel (exec (.br q t w) s)))
     ∧ (Issues s q t w 0x11 → within rel → taken b rel (exec (.j q t w) s))
     ∧ (Issues s q t w 0x12 → WriteClear s q t (wRD w) (issueLc s q t + 1) → within rel →
         taken (withReg b q t (wRD w) (BitVec.ofNat 64 (pc + 1)) (issueLc s q t + 1)) rel (exec (.call q t w) s))
     ∧ (Issues s q t w 0x13 → ReadsReady s q t [wRA w] → within a.toNat → taken b a.toNat (exec (.ret q t w) s)))
  ∧ (∀ (s : State) (q : Fin 64) (t : Fin 4) (w : Word), (issueState s q t).quiet →
       let rel : Int := (issueTask s q t).pc.toNat + sfld w 21 27
       let beyond := fun n : Int => n < 0 ∨ ((issueTask s q t).codeCount : Int) ≤ n
       (Issues s q t w 0x10 → fld w 6 5 = 0 → readReg (issueTask s q t) (wRA w) = readReg (issueTask s q t) (wRB w) →
           beyond rel → SeqFault s q t 3 (exec (.br q t w) s))
       ∧ (Issues s q t w 0x11 → beyond rel → SeqFault s q t 3 (exec (.j q t w) s))
       ∧ (Issues s q t w 0x12 → beyond rel → SeqFault s q t 3 (exec (.call q t w) s))
       ∧ (Issues s q t w 0x13 → beyond (readReg (issueTask s q t) (wRA w)).toNat → SeqFault s q t 3 (exec (.ret q t w) s)))

/-- A field that a format does not list, or a field value called illegal, is an illegal-opcode fault at issue, and the
instruction has no effect: SEQ.FAULT cause 2 (R284 R522).
Readings of the model: log entry 1. -/
def Obligations.IllegalWords : Prop :=
  ∀ (s : State) (q : Fin 64) (t : Fin 4) (w : Word), (issueState s q t).quiet →
    (∀ op, canIssue s q t w op = true → canIssue (arrive s q t) q t w op = true → wordFieldsOk op w = false →
      (op = 0x00 → SeqFault s q t 2 (exec (.nop q t w) s)) ∧ (op = 0x16 → SeqFault s q t 2 (exec (.endTask q t w) s))
      ∧ (op = 0x20 → SeqFault s q t 2 (exec (.tile q t w) s)) ∧ (op = 0x30 → SeqFault s q t 2 (exec (.swap q t w) s)))
    ∧ (Issues s q t w 0x01 → 16 ≤ fld w 21 7 → SeqFault s q t 2 (exec (.alu q t w) s))
    ∧ (Issues s q t w 0x06 → 64 ≤ fld w 16 32 → SeqFault s q t 2 (exec (.shli q t w) s))
    ∧ (Issues s q t w 0x10 → 6 ≤ fld w 6 5 → SeqFault s q t 2 (exec (.br q t w) s))
    ∧ (Issues s q t w 0x14 → fld w 16 16 = 0 → SeqFault s q t 2 (exec (.idle q t w) s))
    ∧ (Issues s q t w 0x15 → fld w 16 16 = 0 → SeqFault s q t 2 (exec (.yield q t w) s))
    ∧ (Issues s q t w 0x31 → fld w 9 2 = 3 → SeqFault s q t 2 (exec (.sethp q t w) s))

/-- IDLE n of task 0 makes it issue next in lc x + 1 + n, the lc between booked SCHEDULED_BUBBLE; of a filler it holds that
filler as long. YIELD n of task 0 opens a window of n lc that every running filler that has begun joins (R273 R274 R436).
Readings of the model: log entry 1. -/
def Obligations.IdleAndYield : Prop :=
  ∀ (s : State) (q : Fin 64) (t : Fin 4) (w : Word),
    let b := issueState s q t
    let n := fld w 16 16
    let next := issueLc s q t + 1
    n ≠ 0 →
      (Issues s q t w 0x14 → ∃ m u, exec (.idle q t w) s = .next u ∧ Retired b m q t (nextPc s q t)
        ∧ u = if t = 0 then
            updQ m q (fun k => { k with
              seq := { k.seq with lc := next + n, winEnd := next + n }
              idleCause := k.idleCause.set 0 (k.idleCause[0] + BitVec.ofNat 64 n) })
          else updT m q t (fun tk => { tk with idleUntil := next + n }))
      ∧ (t = 0 → Issues s q t w 0x15 → ∃ m u, exec (.yield q t w) s = .next u ∧ Retired b m q t (nextPc s q t)
        ∧ u = updQ m q (fun k => { k with
            seq := { k.seq with
              winEnd := next + n
              tasks := k.seq.tasks.map (fun tk =>
                if (tk.state = .running ∨ tk.state = .held) ∧ tk.startsAt ≤ tick b then { tk with joined := true } else tk) } }))

/-- END ends its task in its issue lc: the task stands stopped behind the END, its bounds no longer valid, their other fields
and its registers kept; for task 0 the run is over and the ring stop in pass-through (R276).
Readings of the model: log entries 1, 17. -/
def Obligations.EndStopsTask : Prop :=
  ∀ (s : State) (q : Fin 64) (t : Fin 4) (w : Word), Issues s q t w 0x16 → (issueState s q t).quiet →
    ∃ u, exec (.endTask q t w) s = .next u ∧
      let tk := issueTask s q t
      let k := u.quires[q].seq.tasks[t]
      k.state = .stopped ∧ k.pc = tk.pc + 1
      ∧ k.code = setFld tk.code 32 1 0 ∧ k.bound = setFld tk.bound 59 1 0 ∧ k.region = setFld tk.region 32 1 0
      ∧ k.mwin = setFld tk.mwin 40 1 0 ∧ k.endedBy = 1 ∧ k.runLc = issueLc s q t + 1
      ∧ k.sregs = (settleRegs (issueLc s q t + 1) tk).sregs
      ∧ u.quires[q].seq.issued = (issueQuire s q t).seq.issued + 1
      ∧ (t = 0 → u.quires[q].seq.inRun = false ∧ u.quires[q].rstop.pass = true)
      ∧ (∀ j : Fin 4, j ≠ t → u.quires[q].seq.tasks[j] = (issueQuire s q t).seq.tasks[j])
      ∧ u.quires[q].mem = (issueQuire s q t).mem
      ∧ (∀ b : Fin 64, b ≠ q → u.quires[b] = (issueState s q t).quires[b])

/-- RINGDB sets each doorbell bit of MASK toward the bindery; GETDB writes the bits rung toward the quire and not held by its
mask into RD[31:0], zeros above, and clears them in the same lc (R289). -/
def Obligations.QuireDoorbells : Prop :=
  ∀ (s : State) (q : Fin 64) (t : Fin 4) (w : Word),
    let b := issueState s q t
    let k := issueQuire s q t
    let mask : BitVec 32 := BitVec.ofNat 32 (fld w 16 32)
    let got := k.dbToQuire &&& ~~~ (k.qmask.extractLsb' 32 32)
    (Issues s q t w 0x17 → ∃ a u, exec (.ringdb q t w) s = .next u ∧ Retired a u q t (nextPc s q t)
      ∧ a.quires[q].dbFromQuire = k.dbFromQuire ||| mask
      ∧ { a.quires[q] with dbFromQuire := k.dbFromQuire, dbFromSince := k.dbFromSince } = k
      ∧ (∀ c : Fin 64, c ≠ q → a.quires[c] = b.quires[c])
      ∧ { a with quires := b.quires, trace := b.trace, far := b.far, free := b.free } = b)
    ∧ (Issues s q t w 0x18 → WriteClear s q t (wRD w) (issueLc s q t + 1) →
        ∃ u, exec (.getdb q t w) s = .next u
          ∧ Retired (withReg (updQ b q (fun k => { k with dbToQuire := k.dbToQuire &&& ~~~ got })) q t (wRD w)
              (got.zeroExtend 64) (issueLc s q t + 1)) u q t (nextPc s q t))

/-- SWAP inverts the FRONT bit of each half-pair register of its mask; SETHP writes one (R171 R172 R292). Both take effect for
instructions issued later, and change nothing else: no landing, commit or drain moves. -/
def Obligations.HalfPairs : Prop :=
  ∀ (s : State) (q : Fin 64) (t : Fin 4) (w : Word),
    let b := issueState s q t
    (Issues s q t w 0x30 → ∃ u, exec (.swap q t w) s = .next u
      ∧ Retired (updT b q t (fun tk => { tk with
          hp := Vector.ofFn (fun i : Fin 8 =>
            { tk.hp[i] with front := if bit w (11 + i.val) then !(tk.hp[i]).front else (tk.hp[i]).front }) })) u q t (nextPc s q t))
    ∧ (Issues s q t w 0x31 → fld w 9 2 ≠ 3 → ∃ u, exec (.sethp q t w) s = .next u
      ∧ Retired (updT b q t (fun tk => { tk with
          hp := Vector.ofFn (fun i : Fin 8 =>
            if i.val = fld w 6 3 then { spad := fld w 9 2, rowA := fld w 12 16, rowB := fld w 28 16, front := bit w 11 }
            else tk.hp[i]) })) u q t (nextPc s q t))

/-- YIELD, LWAIT and XWAIT are reserved to task 0 (R290), and so are the spine instructions (R106) and those of the update
engine (R240): issued by task 1, 2 or 3 each is an illegal-opcode fault, recorded where R522 says; a field that is illegal by
itself comes first, and has its own cause (R522 R523).
Readings of the model: log entry 1. -/
def Obligations.ReservedToTaskZero : Prop :=
  ∀ (s : State) (q : Fin 64) (t : Fin 4) (w : Word), t ≠ 0 → (issueState s q t).quiet →
    let layer := readBytes (issueQuire s q t).mem.descActive (64 * fld w 12 10) 64
    (Issues s q t w 0x15 → SeqFault s q t (if fld w 16 16 = 0 then 2 else 5) (exec (.yield q t w) s))
    ∧ (Issues s q t w 0x34 → SeqFault s q t (if fld w 6 5 < 26 then 5 else 2) (exec (.lwait q t w) s))
    ∧ (Issues s q t w 0x35 → SeqFault s q t 5 (exec (.xwait q t w) s))
    ∧ (Issues s q t w 0x24 → injectLegal w = true → RstopFault s q t 1 (exec (.inject q t w) s))
    ∧ (Issues s q t w 0x25 → RstopFault s q t 1 (exec (.land q t w) s))
    ∧ (Issues s q t w 0x26 → fld w 7 2 ≠ 3 → RstopFault s q t 1 (exec (.copy q t w) s))
    ∧ (Issues s q t w 0x27 → RstopFault s q t 1 (exec (.reduce q t w) s))
    ∧ (Issues s q t w 0x28 →
        RstopFault s q t (if maskLegal (BitVec.ofNat 16 (fld w 6 16)) then 1 else 4) (exec (.splice q t w) s))
    ∧ (Issues s q t w 0x38 →
        let legal := (fld w 10 2 = 3 ∨ fld w 6 4 = 0) ∧ layerOk layer (parseLayer layer) (fld w 10 2) = true
        UpdFault s q t (if legal then 3 else 1) (exec (.upd q t w) s))
    ∧ (Issues s q t w 0x39 → UpdFault s q t (if fld w 11 11 ≤ 1039 then 3 else 4) (exec (.uget q t w) s))
    ∧ (Issues s q t w 0x3A → UpdFault s q t (if wRD w % 2 = 0 then 3 else 1) (exec (.ustat q t w) s))

/-! ## Instructions of the ring stop -/

/-- INJECT: its first slot step is in flight for lc x + 2 (a lc earlier where activation rows are the source), its leg is
taken up to its last slot, its token claim spans its slots (R291 R304 R322); where its first slot does not come before the last
of the previous INJECT of its leg.
Readings of the model: log entries 1, 18. -/
def Obligations.InjectStarts : Prop :=
  ∀ (s : State) (q : Fin 64) (w : Word) (base : Nat),
    let k := issueQuire s q 0
    let x := issueLc s q 0
    let spad := if injSrc w = 0 then 2 else 0
    let o : InjectOp := { x := x, w := w, base := base }
    let last := x + 2 + (injCount w - 1) * injGap w
    let c : Claim := { first := x + 2, last := last, tok := tokOf w, task := 0, drain := false }
    Issues s q 0 w 0x24 → injectLegal w = true →
    (if 2 ≤ injSrc w then base = 0
     else ∃ r, rowRef (issueTask s q 0) (injRef w) spad = some r ∧ (issueTask s q 0).spadOk spad r (injRows w) = true
       ∧ base = (issueTask s q 0).spadBase spad + r) →
    (if injBack w then k.rstop.injBack else k.rstop.injFore) ≤ x + 3 →
    StartsWork s q 0
      { k with rstop := if injBack w then { k.rstop with injBack := last + 1 } else { k.rstop with injFore := last + 1 } }
      [{ lc := if injSrc w = 1 then x + 1 else x + 2, ph := 0, task := 0, op := .inject o 0 [] }]
      (injAccesses o 0 0 (if injSrc w = 1 then x + 1 else x + 2) false) [c] (exec (.inject q 0 w) s)

/-- LAND acts on the first slot position, REDUCE adds into it and COPY moves the first rows in lc x + 2; COPY's row writes
have their places on the scratchpad's port (R108 R115 R124 R306).
Readings of the model: log entries 1, 18. -/
def Obligations.LandCopyReduceStart : Prop :=
  ∀ (s : State) (q : Fin 64) (w : Word),
    let k := issueQuire s q 0
    let x := issueLc s q 0
    let at2 := fun op : Micro => ({ lc := x + 2, ph := 0, task := 0, op := op } : Event)
    let claim := fun last : Nat => ({ first := x + 2, last := last, tok := tokOf w, task := 0, drain := false } : Claim)
    (Issues s q 0 w 0x25 →
      StartsWork s q 0 k [{ at2 (.land (bit w 6) (fld w 7 1) 0 (fld w 8 2 + 1)) with ph := 1 }] [] [] (exec (.land q 0 w) s))
    ∧ (Issues s q 0 w 0x27 →
      StartsWork s q 0 k [at2 (.reduce (bit w 6) (fld w 7 1) 0)] [] [claim (x + 5)] (exec (.reduce q 0 w) s))
    ∧ (∀ r, Issues s q 0 w 0x26 → fld w 7 2 ≠ 3 → rowRef (issueTask s q 0) (fld w 9 16) (fld w 7 2) = some r →
      (issueTask s q 0).spadOk (fld w 7 2) r 8 = true →
      let o : CopyOp := { x := x, half := fld w 6 1, spad := fld w 7 2, row := (issueTask s q 0).spadBase (fld w 7 2) + r }
      let lastLc := x + (match fld w 7 2 with | 0 => 9 | 1 => 33 | _ => 5)
      StartsWork s q 0 k [at2 (.copy o 0 0 [])] ((List.range 8).map (copyAccess x 0 o)) [claim lastLc] (exec (.copy q 0 w) s))

/-- A SPLICE waits until all 64 quires have issued one: the quire stops with its mask, its ring stop in pass-through (R114).
With the last of the 64 equal masks the layout is in force, every slot is gone, and every quire goes on behind its SPLICE at
one clock edge, 16 lc after its own SPLICE (R114).
Readings of the model: log entries 14, 15. -/
def Obligations.Splices : Prop :=
  (∀ (s : State) (q : Fin 64) (w : Word), Issues s q 0 w 0x28 → maskLegal (BitVec.ofNat 16 (fld w 6 16)) = true →
     (∃ b : Fin 64, b ≠ q ∧ (issueState s q 0).quires[b].rstop.splice = none) →
     exec (.splice q 0 w) s = .next (updQ (issueState s q 0) q (fun k => { k with
       rstop := { k.rstop with splice := some (BitVec.ofNat 16 (fld w 6 16)), pass := true }
       seq := { k.seq with tasks := k.seq.tasks.set 0 { k.seq.tasks[0] with
         state := .held, heldWord := some w, heldKind := .splice, heldCause := 6
         heldSince := tick (issueState s q 0) } } })))
  ∧ (∀ (s : State) (q : Fin 64) (w : Word),
       let b := issueState s q 0
       let m : BitVec 16 := BitVec.ofNat 16 (fld w 6 16)
       Issues s q 0 w 0x28 → maskLegal m = true → (∀ c : Fin 64, c ≠ q → b.quires[c].rstop.splice = some m) →
       ∃ u, exec (.splice q 0 w) s = .next u ∧ u.spine.layout = m ∧ u.spine.slots = []
         ∧ (∀ c d : Fin 64, (u.quires[c].seq.lc : Int) + u.quires[c].edgeOff = u.quires[d].seq.lc + u.quires[d].edgeOff)
         ∧ ∀ c : Fin 64, u.quires[c].seq.lc = b.quires[c].seq.lc + 16 ∧ u.quires[c].rstop.splice = none
             ∧ u.quires[c].rstop.pass = false ∧ u.quires[c].seq.tasks[0] = { b.quires[c].seq.tasks[0] with
                 state := .running, pc := b.quires[c].seq.tasks[0].pc + 1, heldWord := none
                 heldKind := u.quires[c].seq.tasks[0].heldKind, heldCause := u.quires[c].seq.tasks[0].heldCause
                 heldSince := u.quires[c].seq.tasks[0].heldSince }
             ∧ u.quires[c].seq.issued = b.quires[c].seq.issued + 1 ∧ u.quires[c].mem = b.quires[c].mem)

/-! ## Instructions of the stream engine -/

/-- A read STREAM whose checks hold (R174 R175): a landing of its descriptor, with the rows of the target resolved at the
issue, waits for its data and holds its landing-store space (R176 R179), where run-ahead has not started it; the one that
run-ahead has started is the STREAM's (R178 R181).
A write STREAM whose checks hold: its message has a place in the outbound store, and its first source row is read in lc
x + 2 (R182 R373); of task 0, reads that run-ahead has started are held behind it where they are of its bytes (R180), and one
that run-ahead has started for its own entry, a read then, is discarded (R181 R183).
Readings of the model: log entries 1, 37. -/
def Obligations.StreamStarts : Prop :=
  (∀ (s : State) (q : Fin 64) (t : Fin 4) (w : Word) (row : Nat),
     let k := issueQuire s q t
     let tk := issueTask s q t
     let x := issueLc s q t
     let bs := sdtEntry tk (fld w 11 5)
     let d := streamOffsets (readReg tk (fld w 6 5)) (parseStream bs)
     let c : Claim := { first := x + 2, last := x + 1 + d.len * d.pace, tok := tokOf w, task := t, drain := false }
     let issued := fun l : Landing =>
       { l with issued := true, x := x, target := d.target, firstRow := streamFirst tk d.target row, pace := d.pace, len := d.len }
     let fresh : Landing :=
       { task := t, entry := fld w 11 5, desc := bs, pcIndex := tk.pc.toNat, issued := true, x := x, landed := false, data := []
         ready := 0, fetched := [], released := d.far ≠ 0 || !fenceHolds (issueState s q t) (tk.winBase + d.faddr) (512 * d.len)
         target := d.target, firstRow := streamFirst tk d.target row, pace := d.pace, len := d.len, far := d.far, port := d.link,
         faddr := if d.far = 0 then tk.winBase + d.faddr else d.faddr, storeBytes := 512 * d.len }
     Issues s q t w 0x2C → ReadsReady s q t [fld w 6 5] → streamValuesOk bs d = true →
     farUseOk (issueState s q t) q t d = true → streamRow tk d = some row → streamAligned tk d = true →
     streamRowsOk tk d row = true → streamFarOk (issueState s q t) tk d = true → d.write = false →
     issuedLandings k t < landLimit t → 512 * d.len ≤ landStoreSize t →
     (((t = 0 → startedAt k.stream.landings tk.pc.toNat = none) ∧ streamUsed k t x + 512 * d.len ≤ landStoreSize t →
         StartsWork s q t { k with stream := { k.stream with landings := k.stream.landings ++ [fresh] } } [] [] [c]
           (exec (.stream q t w) s))
       ∧ (∀ i l, t = 0 → startedAt k.stream.landings tk.pc.toNat = some i → k.stream.landings[i]? = some l → l.desc = bs →
           l.entry = fld w 11 5 →
           StartsWork s q t { k with stream := { k.stream with landings := k.stream.landings.set i (issued l) } } [] [] [c]
             (exec (.stream q t w) s))))
  ∧ (∀ (s : State) (q : Fin 64) (t : Fin 4) (w : Word) (row : Nat),
       let k := issueQuire s q t
       let tk := issueTask s q t
       let x := issueLc s q t
       let bs := sdtEntry tk (fld w 11 5)
       let d := streamOffsets (readReg tk (fld w 6 5)) (parseStream bs)
       let c : Claim := { first := x + 2, last := x + 1 + d.len * d.pace, tok := tokOf w, task := t, drain := false }
       let o : OutWrite := { task := t, far := d.far, port := d.link, faddr := if d.far = 0 then tk.winBase + d.faddr else 0,
                             x := x, edge := (x : Int) + k.edgeOff, len := d.len, data := [], left := false }
       let first := streamFirst tk d.target row
       let kept := if t = 0 then dropStarted tk.pc.toNat k else k
       let ls := kept.stream.landings
       Issues s q t w 0x2C → ReadsReady s q t [fld w 6 5] → streamValuesOk bs d = true →
       farUseOk (issueState s q t) q t d = true → streamRow tk d = some row → streamAligned tk d = true →
       streamRowsOk tk d row = true → streamFarOk (issueState s q t) tk d = true → d.write = true →
       writeUsed k t x + 512 * d.len ≤ outStoreSize t →
       StartsWork s q t { kept with stream := { kept.stream with
           writes := k.stream.writes ++ [o]
           landings := if t = 0 ∧ d.far = 0 then holdBack tk.pc.toNat o.faddr (512 * d.len) ls else ls } }
         [{ lc := x + 2, ph := 0, task := t, op := .send x d.target first 0 0 d.pace d.len }]
         [sendAccess x t d.target first 0 (x + 2)] [c] (exec (.stream q t w) s))

/-- SDLOAD reads its staging row in lc x + 1 (R173); a WAITS whose landing has landed commits it: its rows are written PACE
lc apart from lc x + 1 on, or from the lc behind the commit before it (R177); task 0's wait is judged 6 lc before its own (R120).
Readings of the model: log entries 1, 37. -/
def Obligations.SdloadAndCommit : Prop :=
  ∀ (s : State) (q : Fin 64) (t : Fin 4) (w : Word),
    let k := issueQuire s q t
    let tk := issueTask s q t
    let x := issueLc s q t
    (∀ r, Issues s q t w 0x2D → rowRef tk (fld w 7 16) 2 = some r → tk.spadOk 2 r 1 = true →
      StartsWork s q t k [{ lc := x + 1, ph := 0, task := t, op := .sdload (bit w 6) (tk.stgBase + r) }]
        [rowRead 6 x t 2 (tk.stgBase + r) (x + 1)] [] (exec (.sdload q t w) s))
    ∧ (∀ i l, Issues s q t w 0x2E → k.stream.landings[i]? = some l → l.task = t → l.issued = true → l.landed = true →
      (t ≠ 0 ∨ l.ready ≤ x) → (∀ j m, j < i → k.stream.landings[j]? = some m → ¬ (m.task = t ∧ m.issued = true)) →
      let first := max (x + 1) k.stream.commitEnd
      let pastLast := first + (l.len - 1) * l.pace + targetLcs l.target
      StartsWork s q t
        { k with stream := { k.stream with
            landings := k.stream.landings.eraseIdx i
            commits := k.stream.commits ++ [{ task := t, first := first, pace := l.pace, len := l.len, pastLast := pastLast }]
            commitEnd := pastLast } }
        [{ lc := first, ph := 2, task := t, op := .commitRow x l.target l.firstRow 0 l.pace (pieces 512 l.len l.data) }]
        [commitAccess x t l.target l.firstRow 0 first] [] (exec (.waits q t w) s))

/-! ## Waits -/

/-- A met LWAIT takes its messages, those of the port's previous LWAIT released as credit (R377); a met XWAIT takes COUNT
entries of its buffer (R321); neither counts what came about later than 6 lc before it (R120).
Readings of the model: log entries 1, 15, 16. -/
def Obligations.MetWaitsTake : Prop :=
  ∀ (s : State) (q : Fin 64) (w : Word),
    let b := issueState s q 0
    let n := fld w 11 16
    let late := fun l : List Nat => (l.filter (fun r => issueLc s q 0 < r)).length
    (∀ l : Fin 26, Issues s q 0 w 0x34 → fld w 6 5 = l.val → b.ports[l].mapped = true → b.ports[l].recvValid = true →
      b.ports[l].recvQuire = q.val → n ≤ b.ports[l].landed - late b.ports[l].landedReady →
      ∃ u, exec (.lwait q 0 w) s = .next u
        ∧ Retired { b with ports := b.ports.set l { b.ports[l] with
            owed := b.ports[l].owed + b.ports[l].takenBytes / 512, landed := b.ports[l].landed - n, taken := n
            takenBytes := (b.ports[l].landedSizes.take n).sum, landedReady := b.ports[l].landedReady.drop n
            landedSizes := b.ports[l].landedSizes.drop n } } u q 0
            (nextPc s q 0))
    ∧ (∀ f : Fin 32, Issues s q 0 w 0x35 → fld w 6 5 = f.val → bit b.con.xbCfg[f] 60 = true → fld b.con.xbCfg[f] 54 6 = q.val →
      n ≤ b.con.xbCount[f].toNat - late b.con.xbLate[f] →
      ∃ u, exec (.xwait q 0 w) s = .next u
        ∧ Retired { b with con := { b.con with xbCount := b.con.xbCount.set f (b.con.xbCount[f] - BitVec.ofNat 32 n) } } u q 0
            (nextPc s q 0))

/-- An unmet wait of task 0 halts its gathering: nothing issues, the quire's task is held with its word, every quire of the
gathering stands (R120); a filler is held alone and its turn passes (R275).
Readings of the model: log entries 1, 16. -/
def Obligations.UnmetWaitsHold : Prop :=
  ∀ (s : State) (q : Fin 64) (t : Fin 4) (w : Word),
    let b := issueState s q t
    let n := fld w 11 16
    let held := fun (u : State) (k : WaitKind) =>
      u.quires[q].seq.tasks[t].state = .held ∧ u.quires[q].seq.tasks[t].heldWord = some w ∧ u.quires[q].seq.tasks[t].heldKind = k
      ∧ u.quires[q].seq.tasks[t].pc = (issueTask s q t).pc ∧ u.quires[q].seq.issued = (issueQuire s q t).seq.issued
      ∧ u.quires[q].mem = (issueQuire s q t).mem
      ∧ if t = 0 then
          u.quires[q].rstop.waitOwner = true ∧ u.quires[q].seq.lc = issueLc s q t
          ∧ (∀ c : Fin 64, sameGathering b.spine.layout q c = true → u.quires[c].rstop.halted = true)
          ∧ (∀ c : Fin 64, sameGathering b.spine.layout q c = false → u.quires[c] = b.quires[c])
        else u.quires[q].rstop = (issueQuire s q t).rstop ∧ u.quires[q].seq.lc = issueLc s q t + 1
          ∧ ∀ c : Fin 64, c ≠ q → u.quires[c] = b.quires[c]
    (∀ l : Fin 26, t = 0 → Issues s q t w 0x34 → fld w 6 5 = l.val → b.ports[l].mapped = true → b.ports[l].recvValid = true →
      b.ports[l].recvQuire = q.val → b.ports[l].landed < n → ∃ u, exec (.lwait q t w) s = .next u ∧ held u .lwait)
    ∧ (∀ f : Fin 32, t = 0 → Issues s q t w 0x35 → fld w 6 5 = f.val → bit b.con.xbCfg[f] 60 = true →
      fld b.con.xbCfg[f] 54 6 = q.val → b.con.xbCount[f].toNat < n → ∃ u, exec (.xwait q t w) s = .next u ∧ held u .xwait)
    ∧ (Issues s q t w 0x2F → (∃ o ∈ (issueQuire s q t).stream.writes, o.task = t) →
      ∃ u, exec (.waitw q t w) s = .next u ∧ held u .waitw)

/-! ## Instructions of the array, the vector engine and the update engine -/

/-- TILE: the descriptors are read (R277), its checks hold in the order of R523, no chunk of another tile is left and its set
is free: the tile runs, its preload, chunk and drain steps are in flight, its accesses on the ports, its claims made
(R77–R81 R322).
Readings of the model: log entries 1, 18, 19, 38. -/
def Obligations.TileStarts : Prop :=
  ∀ (s : State) (q : Fin 64) (t : Fin 4) (w : Word) (td od : List Byte × List ReadNote) (rb cb : Nat),
    let k := issueQuire s q t
    let tk := issueTask s q t
    let x := issueLc s q t
    let next := afterLc (issueState s q t) q x
    let f := tileOffsets (readReg tk (fld w 6 5)) (parseTile td.1) (parseTensor od.1 0) (parseTensor od.1 32)
    let d := f.1
    let rt := f.2.1
    let ct := f.2.2
    let p := x + 2
    let c0 := if d.init = 2 then x + 34 else x + 2
    let n := chunkInterval d
    let last := c0 + d.nchunk * n - 1
    let after := otherDrainEnd k d.setIx
    let start := drainStart after last
    let o : TileOp :=
      { x := x, task := t, d := d, rt := rt, ct := ct, retire := bit w 60, rowBase := tk.actBase + rb
        rowSc := tk.actBase + rt.scRow, colBase := (if d.colSrc = 2 then tk.stgBase else tk.regBase) + cb
        colSc := tk.stgBase + ct.scRow, preRow := tk.psBase + d.preloadRow, p := p, c0 := c0, n := n, last := last, stop := none }
    let dr := if d.ends then some (newDrain tk o start after (fillsCollector k d)) else none
    let span : Claim := { first := p, last := last, tok := tokOf w, task := t, drain := false }
    let drain : Claim :=
      { first := drainClaimFirst (issueState s q t) start, last := start + 39, tok := 150, task := t, drain := true }
    let cs := if d.ends then [span, drain] else [span]
    Issues s q t w 0x20 → ReadsReady s q t [fld w 6 5] →
    descAt k next tk (fld w 11 12) 64 64 = some td → descAt k next tk (fld w 23 12) 64 0 = some od →
    anyUncorrectable (td.2 ++ od.2) = false → tileValuesOk td.1 d = true → pairingOk d.rowFmt d.colFmt = true →
    rowTensorOk d rt = true → colTensorOk d ct = true → pairReservedOk od.1 = true → (bit w 60 = true → d.rowSrc ≠ 2) →
    (d.ends = true → d.deriv = 2 → x + 12 ≤ start) → (t ≠ 0 → d.rowSrc = 2) →
    (if d.rowSrc = 2 ∧ rt.hpEn = true then hpRow tk rt.hp rt.hpSide rt.row 0 else some rt.row) = some rb →
    (if d.colSrc = 2 ∧ ct.hpEn = true then hpRow tk ct.hp ct.hpSide ct.row 2 else some ct.row) = some cb →
    (d.init = 2 → d.preloadRow % 8 = 0) → (d.ends = true → d.dest = 4 → d.destRow < 2) →
    (d.ends = true → d.dest ≠ 4 → d.destRow % tileRows d.outFmt = 0) →
    (d.ends = true → d.deriv = 2 → d.derivRow % 4 = 0) → tileBoundsOk tk d rt ct rb cb (fillsCollector k d) = true →
    (∀ r, k.array.running = some r → r.last < c0) → k.array.lastChunk ≤ c0 →
    (∀ r ∈ liveDrains k, r.d.setIx = d.setIx → if d.init = 2 then r.start + 1 ≤ p else r.start + 29 ≤ c0) →
    DescClear s q t (fld w 11 12) 64 64 → DescClear s q t (fld w 23 12) 64 0 →
    StartsWork s q t
      { k with array := { k.array with
          running := some o, lastChunk := last + 1, drains := k.array.drains ++ dr.toList } }
      (tileEvents o dr) (tileAccesses o dr) cs (exec (.tile q t w) s)

/-- WPANEL: its descriptor read and its checks hold: the first half of its first block is read in lc x + 2 (R138–R141).
Readings of the model: log entries 1, 18, 38. -/
def Obligations.WpanelStarts : Prop :=
  ∀ (s : State) (q : Fin 64) (t : Fin 4) (w : Word) (pd : List Byte × List ReadNote),
    let k := issueQuire s q t
    let tk := issueTask s q t
    let x := issueLc s q t
    let d := panelOffsets (readReg tk (fld w 6 5)) (parsePanel pd.1)
    let o : PanelOp :=
      { x := x, task := t
        d := { d with block := tk.regBase + d.block, destRow := tk.stgBase + d.destRow, scRow := tk.stgBase + d.scRow }
        block := [], lost := [], chunk := [], scales := [] }
    let c : Claim := { first := x + 2, last := x + 1 + 2 * d.nblk, tok := tokOf w, task := t, drain := false }
    Issues s q t w 0x21 → ReadsReady s q t [fld w 6 5] →
    descAt k (afterLc (issueState s q t) q x) tk (fld w 11 13) 32 16 = some pd → anyUncorrectable pd.2 = false →
    panelValuesOk (issueState s q t) pd.1 d = true → tk.regValid = true → d.destRow % 2 = 0 →
    (∀ m < d.nblk, tk.blocksOk (d.block + m * d.stride) 1 = true) → tk.spadOk 2 d.destRow (panelRows d) = true →
    tk.spadOk 2 d.scRow (panelScRows d) = true → DescClear s q t (fld w 11 13) 32 16 →
    StartsWork s q t k [{ lc := x + 2, ph := 0, task := t, op := .panel o 0 }] [panelAccess o 0 (x + 2)] [c]
      (exec (.wpanel q t w) s)

/-- VOP: its descriptor read, its operands resolved and its checks hold: beat 0 enters in lc x + 2, for TAB behind the load of
its table in lc x + 10 (R195–R203), where the engine has no beats left of another operation.
Readings of the model: log entries 1, 18, 38. -/
def Obligations.VopStarts : Prop :=
  ∀ (s : State) (q : Fin 64) (t : Fin 4) (w : Word) (vd : List Byte × List ReadNote) (va vb vc vo : VecSrc),
    let b := issueState s q t
    let k := issueQuire s q t
    let tk := issueTask s q t
    let x := issueLc s q t
    let xr := readReg tk (fld w 6 5)
    let d := parseVec vd.1
    let a1 := parseOperand vd.1 1
    let a2 := parseOperand vd.1 2
    let a3 := parseOperand vd.1 3
    let a4 := parseOperand vd.1 4
    let t0 := if d.op = 15 then x + 10 else x + 2
    let last := t0 + (d.nOut * d.beats - 1) * d.pace
    let p : VecPlan :=
      { x := x, task := t, d := d, a := va, b := vb, c := vc, o := vo, t0 := t0, mode := bit k.vec.config 0
        redBase := tk.spadBase d.redSpad + d.redRow, tabBase := tk.psBase + d.tabRow }
    let c : Claim := { first := t0, last := last, tok := tokOf w, task := t, drain := false }
    let run : VecRun := { task := t, first := t0, pace := d.pace, pastLast := last + 1, op := d.op, reduces := decide (d.red ≠ 0) }
    Issues s q t w 0x22 → ReadsReady s q t (fld w 6 5 :: operandRegs [a1, a2, a3]) →
    descAt k (afterLc b q x) tk (fld w 11 12) 64 32 = some vd → anyUncorrectable vd.2 = false →
    vecLegal vd.1 d a1 a2 a3 a4 = true → resolveOperand b q t a1 (xrPart xr 0) = some va →
    (if usesB d.op then resolveOperand b q t a2 (xrPart xr 1) else some VecSrc.absent) = some vb →
    (if usesC d.op then resolveOperand b q t a3 (xrPart xr 2) else some VecSrc.absent) = some vc →
    (if d.dEn then resolveOperand b q t a4 (xrPart xr 3) else some VecSrc.absent) = some vo →
    vecBoundsOk tk d va vb vc vo = true → k.vec.lastBeat ≤ t0 →
    DescClear s q t (fld w 11 12) 64 32 →
    StartsWork s q t
      { k with vec := { k.vec with
          task := t, lastBeat := last + 1, op := d.op, reduces := decide (d.red ≠ 0), runs := k.vec.runs.map (VecRun.cutAt t0) ++ [run] } }
      [if d.op = 15 then { lc := x + 2, ph := 0, task := t, op := .vecTable (newVecOp p) 0 }
       else { lc := t0, ph := 0, task := t, op := .vecBeat (newVecOp p) }]
      (if d.op = 15 then [vecTableAccess p 0 (x + 2)] else beatAccesses (newVecOp p) t0) [c] (exec (.vop q t w) s)

/-- UPD: its entry of the active store and its operands pass the checks of R246 and R303: the first block is read from lc
x + 2 on (R247), UPD.STATUS shows operation and entry.
UGET brings a word of an entry of the active store into RD; USTAT brings both sums, as F32, into an even pair and clears
them; readable from lc x + 2 on (R257 R261 R306).
Readings of the model: log entries 1, 18, 39. -/
def Obligations.UpdateEngine : Prop :=
  (∀ (s : State) (q : Fin 64) (w : Word),
     let k := issueQuire s q 0
     let tk := issueTask s q 0
     let x := issueLc s q 0
     let op := fld w 10 2
     let n := fld w 35 13 + 1
     let bs := readBytes k.mem.descActive (64 * fld w 12 10) 64
     let d := parseLayer bs
     let p : UpdPlan :=
       { x := x, op := op, d := d, f := (readReg tk (2 * fld w 6 4)).setWidth 32, block0 := tk.regBase + fld w 22 13, n := n,
         kept := keepBit k d.gslot }
     let c : Claim := { first := x + 2, last := x + 1 + 32 * n, tok := tokOf w, task := 0, drain := false }
     Issues s q 0 w 0x38 → (op ≠ 3 → fld w 6 4 = 0) → layerOk bs d op = true → tk.blocksOk (fld w 22 13) n = true →
     (op = 3 → ReadsReady s q 0 [2 * fld w 6 4]) → updClash k x = false →
     StartsWork s q 0
       { k with upd := { k.upd with
           op := op, entry := fld w 12 10, lastIssue := x, lastBlocks := n, runs := k.upd.runs ++ [{ x := x, blocks := n, adds := op == 2 && p.kept }] } }
       [{ lc := x + 2, ph := 0, task := 0, op := .updRead p 0 0 BlockIn.empty }] (readAccesses p 0 0 (x + 2)) [c]
       (exec (.upd q 0 w) s))
  ∧ (∀ (s : State) (q : Fin 64) (w : Word),
       let b := issueState s q 0
       let k := issueQuire s q 0
       let x := issueLc s q 0
       let put := fun (a : State) (r : Nat) (v : Word) => updT a q 0 (fun tk => writeReg tk r v (x + 2) true)
       (Issues s q 0 w 0x39 → fld w 11 11 ≤ 1039 → UnitClear s q 0 (wRD w) → ∃ u, exec (.uget q 0 w) s = .next u
         ∧ Retired (put b (wRD w) (dword (readBytes k.mem.descActive (64 * fld w 11 11) 64) (fld w 22 3))) u q 0
             (nextPc s q 0))
       ∧ (Issues s q 0 w 0x3A → wRD w % 2 = 0 → UnitClear s q 0 (wRD w) → UnitClear s q 0 (wRD w + 1) →
         (∀ r ∈ k.upd.runs, r.adds = true → r.x + 32 * r.blocks + 66 < x) →
         ∃ u, exec (.ustat q 0 w) s = .next u
           ∧ Retired (updQ (put (put b (wRD w) ((f64ToF32 k.upd.sumA).zeroExtend 64)) (wRD w + 1)
               ((f64ToF32 k.upd.sumB).zeroExtend 64)) q (fun k => { k with upd := { k.upd with sumA := 0, sumB := 0 } })) u q 0
               (nextPc s q 0)))

/-! ## Events of the quires -/

/-- TILE_DRAIN: once the quire's lc have come to D of its oldest finished set, that set leaves the queue and its drain is in flight: row 0 is read in lc D (R79), with a derivative stash its first row in lc D + 2. SCRUB, where no word it reads has an
error, advances the pointers by the rows that the tick reached, at most ROWS_PER_TICK of each bank, 32 words of the weight bank
or 4 of the moment bank in each idle lc that the schedule leaves, 16 words a row, and counts the others as deferred; the rows of
a tick are scrubbed once (R150 R154). FIX_QUEUE_WRITEBACK writes the oldest queued word of a bank back with its corrected data,
one word per bank and lc, in an lc that leaves the port idle: no byte of any memory changes, the entry and the error are gone
(R149 R155).
Readings of the model: log entries 9, 40. -/
def Obligations.DrainAndScrub : Prop :=
  (∀ (s : State) (q : Fin 64) (dr : Drain) (rest : List Drain),
    let k := s.quires[q]
    let stash := dr.d.deriv = 1 ∨ dr.d.deriv = 2
    computeUp s = true → k.seq.inRun = true → lcPass k = true → k.array.drains = dr :: rest →
    dr.start ≤ max k.seq.lc k.seq.winEnd → k.seq.tasks[dr.task].live = true →
    ∃ u, exec (.tileDrain q) s = .next u ∧
      Launches s u q { k with array := { k.array with drains := rest, draining := k.array.draining ++ [dr] } }
        ({ lc := dr.start, ph := 0, task := dr.task, op := .drainRow dr.x 0 } ::
          if stash then [{ lc := dr.start + 2, ph := 0, task := dr.task, op := .drainStash dr.x 0 }] else [])
        (drainAccesses dr 0 dr.start ++ if stash then [stashAccess dr 0 (dr.start + 2)] else []) [])
  ∧ (∀ (s : State) (q : Fin 64) (wIdle mIdle : Nat),
    let b := catchUp s
    let k := b.quires[q]
    let st := k.bank.scrubStatus
    let due := if bit k.bank.scrubActive 0 ∧ k.bank.scrubbed = false then fld k.bank.scrubActive 8 8 else 0
    let idle := fun claimed used : Nat => min claimed (lcPerTick b.clk.current - used)
    let n := min due (2 * idle wIdle (k.bank.usedW + lcUsed 0 k.ports))
    let m := min due (idle mIdle (k.bank.usedM + lcUsed 1 k.ports) / 4)
    computeUp b = true → k.upsets = [] →
    exec (.scrub q wIdle mIdle []) s = .next (updQ b q (fun k => { k with bank := { k.bank with
      scrubbed := true
      scrubStatus := packFlds [(0, 16, (fld st 0 16 + n) % 32768), (16, 16, (fld st 16 16 + m) % 33792),
        (32, 16, fld st 32 16 + (fld st 0 16 + n) / 32768)]
      scrubDefer := k.bank.scrubDefer + BitVec.ofNat 64 ((due - n) + (due - m)) } })))
  ∧ ∀ (s : State) (q : Fin 64) (bank : Fin 4) (word : Nat) (pre post : List (Nat × Nat)),
    let b := catchUp s
    let k := b.quires[q]
    computeUp b = true → k.canonical → k.upsets = [{ mem := bank.val, word := word, bits := 1 }] →
    k.bank.fixQueue = pre ++ (bank.val, word) :: post → (∀ p ∈ pre, sameBank p.1 bank.val = false) → (bank.val, word) ∉ post →
    let l := reachedLc (dieNow b) k
    let i := bankPort bank
    (lcPass k = true → portIdle k bank l = true ∧ (k.seq.inRun = true → k.bank.fixNext[i] ≤ l)) →
    exec (.fixQueueWriteback q bank) s =
      .next (updQ b q (fun k => { k with upsets := [], bank := { k.bank with
        fixQueue := pre ++ post
        fixNext := if lcPass k then k.bank.fixNext.set i (if k.seq.inRun then l + 1 else 0) else k.bank.fixNext } }))

/-- RUN_AHEAD_START: from the word at the PC on, at most 256 further ones, over branches and reads already started, the first
read STREAM not started starts where it may (R178). LANDING_COMPLETE brings the bytes of a pending landing into the landing
store (R176): from far memory, of a 256 B beat that a write not ordered with the read changes the old or the new bytes (R180
R419), or from a port's receive ring (R378). WRITE_COMPLETE writes a whole write of far memory, the oldest
of its folio on its controllers (R185), and, of task 0 into a cross-gathering buffer, raises its count (R182 R321). What has
come about meets waits of task 0 from 6 lc on (R120).
Readings of the model: log entries 16, 26. -/
def Obligations.ReadsAndWrites : Prop :=
  ∀ (s : State) (q : Fin 64),
    let b := catchUp s
    let k := b.quires[q]
    let tk := settleLoads k.seq.lc k.seq.tasks[0]
    let word := fun i : Nat => BitVec.ofNat 64 (readNum k.mem.prog (8 * (tk.codeBase + i)) 8)
    let desc := fun i : Nat => sdtEntry tk (fld (word i) 11 5)
    let startsRead := fun i : Nat =>
      fld (word i) 0 6 = 0x2C ∧ (parseStream (desc i)).dir = 0 ∧ ¬ ∃ l ∈ k.stream.landings, l.task = 0 ∧ l.issued = false ∧ l.pcIndex = i
    (∀ n : Nat, let pc := tk.pc.toNat
      let d := parseStream (desc (pc + n))
      computeUp b = true → k.seq.inRun = true → tk.live = true → tk.codeValid = true → n ≤ 256 → pc + n < tk.codeCount →
      (∀ j < n, scanStops (fld (word (pc + j)) 0 6) = false ∧ ¬ startsRead (pc + j)) → startsRead (pc + n) →
      d.ordered = false → fld (word (pc + n)) 6 5 = 0 → scanFits k tk (desc (pc + n)) d = true →
      exec (.runAheadStart q) s = .next (updQ b q (fun k => { k with stream := { k.stream with
        landings := k.stream.landings ++ [arriveLanding b (newLanding tk 0 (fld (word (pc + n)) 11 5) (pc + n) (desc (pc + n)) d)] } })))
    ∧ (∀ (ix : Nat) (l : Landing), computeUp b = true → k.stream.landings[ix]? = some l → l.landed = false →
      landingBlocked b q l = false →
      ∃ (data : List Byte) (n : Nat), exec (.landingComplete q ix) s =
          .next { updQ b q (fun k => { k with stream := { k.stream with
            landings := k.stream.landings.set ix { l with landed := true, ready := readyFrom k, fetched := [], data := data } } }) with
            free := n }
        ∧ (l.far ≠ 0 → data = ringRead b (portOf b l.port) l.faddr (512 * l.len) ∧ n = b.free)
        ∧ (l.far = 0 → data.length = 512 * l.len ∧ ∀ i < 512 * l.len,
            (∃ f ∈ l.fetched, Within f.1 f.2 (l.faddr + i) ∧ data[i]? = f.2[l.faddr + i - f.1]?)
            ∨ (∀ f ∈ l.fetched, ¬ Within f.1 f.2 (l.faddr + i))
              ∧ (data[i]? = some (readByte b.far (l.faddr + i)) ∨ OnTheWay b (l.faddr + i) data[i]?)))
    ∧ ∀ (ix : Nat) (o : OutWrite), b.pwr.powered = true → k.stream.writes[ix]? = some o → o.far = 0 →
      o.data.length = 512 * o.len → farServed b q 1 o.faddr (512 * o.len) = true → oldestWrite b q ix o = true →
      let counted := fun f : Fin 32 => o.task = 0 ∧ o.left = false ∧ bufferOf b o.faddr = some f
      ∃ u, exec (.writeComplete q ix) s = .next u
        ∧ (∀ a, readByte u.far a =
            if o.faddr ≤ a ∧ a < o.faddr + 512 * o.len then (o.data[a - o.faddr]?).getD 0 else readByte b.far a)
        ∧ u.quires[q].unfetched = Quire.unfetched { k with stream := { k.stream with
            writes := k.stream.writes.eraseIdx ix
            doneWrites := k.stream.doneWrites ++ [{ task := o.task, bytes := 512 * o.len, ready := readyFrom k }] } }
        ∧ (∀ c : Fin 64, c ≠ q → u.quires[c].unfetched = b.quires[c].unfetched) ∧ Fetches b u o.faddr (512 * o.len)
        ∧ (∀ f : Fin 32, u.con.xbCount[f] =
            if counted f then BitVec.ofNat 32 (min (2 ^ 32 - 1) (b.con.xbCount[f].toNat + 1)) else b.con.xbCount[f])
        ∧ (∀ f : Fin 32, u.con.xbLate[f] =
            if counted f then b.con.xbLate[f].filter (fun r => (bufferOwner b f).seq.past < r) ++ [readyFrom (bufferOwner b f)]
            else b.con.xbLate[f])
        ∧ { u with far := b.far, quires := b.quires, free := b.free,
                   con := { u.con with xbCount := b.con.xbCount, xbLate := b.con.xbLate } } = b

/-- WAIT_TIMEOUT: a wait unmet for more than WAIT.LIMIT ticks faults its task, the first recorded in WAIT.FAULT, with the fault
of class 8 raised (R320 R334). THROTTLE_RESUME: the gathering of an overdrawing quire resumes, its periods booked to
TOKEN_WAIT on its quires that are in a run (R327 R407); a halt by a wait goes on. GATHERING_RESUME: a gathering halted by one WAITW of task 0 whose task has no incomplete write left
resumes at one clock edge, the periods of its quires in a run booked to the wait's cause on the waiting quire and SPINE_STALL on
the others, and the wait issues (R120 R407).
Readings of the model: log entry 16. -/
def Obligations.HaltsEnd : Prop :=
  ∀ (s : State) (q : Fin 64),
    let b := catchUp s
    let booked := fun (k : Quire) (cause periods : Nat) =>
      { k with idleCause := Vector.ofFn (fun i : Fin 8 =>
                 if i.val = cause ∧ k.seq.inRun = true then k.idleCause[i] + BitVec.ofNat 64 periods else k.idleCause[i])
               edgeOff := k.edgeOff + periods }
    (∀ t : Fin 4, computeUp b = true → stillUnmet b q t = true →
      b.quires[q].seq.tasks[t].heldSince + max 16 (fld b.con.waitLimit 0 32) < tick b →
      ∃ u, exec (.waitTimeout q t) s = .next u
        ∧ u.con.waitFault = (if bit b.con.waitFault 11 then b.con.waitFault else
            packFlds [(0, 6, q.val), (6, 2, t.val), (8, 3, (b.quires[q].seq.tasks[t].heldKind).code), (11, 1, 1)])
        ∧ u.quires[q].seq.tasks[t].state = .faulted ∧ (∀ k : Fin 4, u.quires[q].seq.tasks[k].live = false)
        ∧ (∀ k : Fin 4, u.quires[q].seq.tasks[k].pc = b.quires[q].seq.tasks[k].pc) ∧ u.quires[q].mem = b.quires[q].mem
        ∧ (∀ c : Fin 64, c ≠ q → u.quires[c] = b.quires[c])
        ∧ u.bind.raised = b.bind.raised ++
            [{ cls := 8, quire := some q, link := 0, originClass := 0, originId := 0, tick := tick b }])
    ∧ (∀ (periods due : Nat), b.con.throttled = [(q.val, due)] → due ≤ tick b →
      ∃ u, exec (.throttleResume q periods) s = .next u
        ∧ (∀ c : Fin 64, u.quires[c] = if sameGathering b.spine.layout q c then
            { booked b.quires[c] 4 periods with rstop := { b.quires[c].rstop with stalled := false } }
            else b.quires[c])
        ∧ { u with quires := b.quires, con := { u.con with throttled := b.con.throttled } } = b ∧ u.con.throttled = [])
    ∧ ∀ (o : Fin 64) (w : Word) (periods : Nat),
      let tk := b.quires[o].seq.tasks[0]
      let lc := b.quires[o].seq.lc
      computeUp b = true → sameGathering b.spine.layout q o = true →
      (∀ c : Fin 64, sameGathering b.spine.layout q c = true →
        b.quires[c].rstop.halted = true ∧ b.quires[c].rstop.stalled = false ∧ (c ≠ o → heldAt b.quires[c] = none)) →
      heldAt b.quires[o] = some w → fld w 0 6 = 0x2F → tk.heldCause < 8 → tk.heldCause ≠ 5 → (∀ x ∈ b.quires[o].stream.writes, x.task ≠ 0) →
      ∃ a u, exec (.gatheringResume q periods) s = .next u
        ∧ (∀ c : Fin 64, a.quires[c] = if sameGathering b.spine.layout q c then
            { booked b.quires[c] (if c = o then tk.heldCause else 6) periods with
              rstop := { b.quires[c].rstop with halted := false, waitOwner := false } } else b.quires[c])
        ∧ { a with quires := b.quires } = b
        ∧ Retired (updT a o 0 (fun tk => settleLoads lc (settleRegs lc tk))) u o 0 (tk.pc + 1)

/-! ## Links and messages -/

/-- MESSAGE_ACCEPT: the oldest waiting message of a port whose credit and send buffer have room is accepted: its write is
complete, LEN units leave the credit, its DATA flits are sent and kept up to their acknowledgement (R182 R369 R373).
MESSAGE_LANDED: the oldest message taken whole is in its ring, its landing-area bytes in far memory, and LANDED rises by 1
(R376); a wait of the receiver counts it from 6 lc on (R120).
Readings of the model: log entries 3, 26. -/
def Obligations.Messages : Prop :=
  ∀ (s : State) (p l : Fin 26),
    let b := catchUp s
    (∀ (q : Fin 64) (ix : Nat) (o : OutWrite),
      let k := b.links[l]
      let po := b.ports[p]
      let n := ceilDiv o.data.length 232
      b.ports[p].phys.toNat = l.val → waitingMessage b p = some (q, ix, o) → o.data.length = 512 * o.len →
      linkIsUp b l = true → computeRuns b = true → o.len ≤ po.credit → k.unacked.length + n ≤ 1024 →
      (∀ x : Fin 26, x ≠ p → b.ports[x].phys.toNat ≠ l.val) →
      ∃ u, exec (.messageAccept p) s = .next u
        ∧ u.quires = (updQ b q (fun k => { k with stream := { k.stream with
            writes := k.stream.writes.eraseIdx ix
            doneWrites := k.stream.doneWrites ++ [{ task := o.task, bytes := 512 * o.len, ready := readyFrom k }] } })).quires
        ∧ u.ports[p] = { po with
            credit := po.credit - o.len, sent := po.sent + 1, owed := po.owed - grantable b l p,
            granted := po.granted + grantable b l p
            tx := po.tx ++ [{ num := po.sent.toNat % 64, bytes := o.data.length, tick := tick b,
                              lastSeq := (k.txSeq.toNat + n + 4095) % 4096 }] }
        ∧ (∀ x : Fin 26, x ≠ p → u.ports[x] = b.ports[x])
        ∧ u.links[l].txSeq.toNat = (k.txSeq.toNat + n) % 4096
        ∧ u.links[l].unacked.map (·.seq) =
            k.unacked.map (·.seq) ++ (List.range n).map (fun i => BitVec.ofNat 16 ((k.txSeq.toNat + i) % 4096))
        ∧ (∀ i < n, ∃ f, u.links[l].unacked[k.unacked.length + i]? = some f ∧ f.tick = tick b
            ∧ f.body.drop 8 = slice ((o.data.drop (232 * i)).take 232) 0 232
            ∧ flitType f.body = 1 ∧ fld (flitHeader f.body) 4 12 = (k.txSeq.toNat + i) % 4096
            ∧ bit (flitHeader f.body) 30 = decide (i = 0) ∧ bit (flitHeader f.body) 31 = decide (i + 1 = n)
            ∧ fld (flitHeader f.body) 52 6 = po.sent.toNat % 64)
        ∧ u.links[l].lastSent.length = n ∧ u.links[l].sentTick = tick b
        ∧ (∀ x : Fin 26, x ≠ l → u.links[x] = b.links[x])
        ∧ { u with quires := b.quires, ports := b.ports, links := b.links } = b)
    ∧ ∀ (m : RxMsg) (rest : List RxMsg), s.pwr.powered = true → s.ports[p].rx = m :: rest → m.complete = true →
      exec (.messageLanded p) s = .next (updPort
        { s with far := m.spill.foldl (fun f c => writeBytes f c.1 [c.2]) s.far } p
        (fun po => { po with
          rx := rest, landed := po.landed + 1, landedSizes := po.landedSizes ++ [m.bytes],
          landedReady := po.landedReady ++ [if po.recvValid then readyFrom s.quires[po.recvQuire % 64] else 0] }))

/-- A received flit that decodes: HEARTBEAT and CTRL flits add their CREDIT to the port (R374), acknowledge every flit up to
ACK, and with NAK have every unacknowledged one sent again, the replay counted (R369). A DATA flit of the expected SEQ is
taken: its bytes go behind those of its message in the ring (R375), its acknowledgement is owed (R368); a LAST flit behind the
receiver's deadline is a link fault of cause 2 of a required link while the compute part runs (R379 R380).
Readings of the model: log entries 8, 21, 22, 30. -/
def Obligations.FlitsTaken : Prop :=
  ∀ (s : State) (l p : Fin 26) (bytes body : List Byte) (n : Nat),
    let h := flitHeader body
    let heard := updLink s l (fun k => { k with heardTick := tick s, corrected := k.corrected + BitVec.ofNat 32 n })
    let credit := fun (po : Port) => { po with credit := po.credit + fld h 40 12 }
    linkIsUp s l = true → bytes.length = 256 → decodeFlit bytes = some (body, n) → portOn s l = some p →
    ∀ out, (flitType body = 2 ∧ out = exec (.ctrlFlit l bytes) s ∨ flitType body = 0 ∧ out = exec (.heartbeatFlit l bytes) s) ∨
        flitType body = 1 ∧ out = exec (.dataFlit l bytes) s →
      (flitType body ≠ 1 → bit h 28 = false → bit h 29 = false → out = .next (updPort heard p credit))
      ∧ (∀ pre a post, flitType body ≠ 1 → bit h 28 = true → bit h 29 = false → s.links[l].unacked = pre ++ a :: post →
        a.seq.toNat = fld h 16 12 → (∀ x ∈ pre, x.seq.toNat ≠ fld h 16 12) →
        out = .next (updPort (updLink heard l (fun k => { k with unacked := post })) p
          (fun po => credit { po with tx := po.tx.filter (fun m => post.any (fun x => x.seq.toNat == m.lastSeq)) })))
      ∧ (flitType body ≠ 1 → bit h 28 = false → bit h 29 = true → s.links[l].unacked ≠ [] → faultFilled s l = false →
        out = .next (updPort (updLink heard l (fun k => { k with
            lastSent := k.unacked.map (fun x => encodeFlit (withAck k false x.body)), sentTick := tick s, ackOwed := none
            replays := k.replays + 1, unacked := k.unacked.map (fun x => { x with tick := tick s }) })) p
          (fun po => credit { po with
            tx := po.tx.filter (fun m => s.links[l].unacked.any (fun x => x.seq.toNat == m.lastSeq)) })))
      ∧ (∀ (done : List RxMsg) (m : RxMsg), flitType body = 1 → bit h 28 = false → bit h 29 = false → s.bind.latch = false →
        fld h 4 12 = s.links[l].rxSeq.toNat → (∀ r ∈ done, r.complete = true) →
        (if bit h 30 then s.ports[p].rx = done ∧ m = { num := fld h 52 6, bytes := 0, first := tick s, complete := false, spill := [] }
          else s.ports[p].rx = done ++ [m] ∧ m.complete = false) →
        let off := 512 * s.ports[p].head + m.bytes
        let len := fld h 32 8
        let rate := if s.links[l].width = 3 then 116000 else if s.links[l].width = 2 then 58000 else 29000
        let late := bit h 31 = true ∧ m.first + (4 + ceilDiv (m.bytes + len) rate) < tick s
        0 < len → off + len ≤ min 262144 s.ports[p].rxSize →
        ∃ u, out = .next (if late ∧ s.links[l].required = true ∧ computeRuns s = true then linkFaulted u l (linkRaise l 2 (tick s)) else u)
          ∧ u.endpapers[l] = writeBytes s.endpapers[l] off (slice body 8 len)
          ∧ u.links[l] = { heard.links[l] with rxSeq := BitVec.ofNat 16 ((fld h 4 12 + 1) % 4096), rxAny := true, discarding := false
                                               ackOwed := some (s.links[l].ackOwed.getD (tick s)) }
          ∧ u.ports[p] = { s.ports[p] with
              rx := done ++ [{ m with bytes := m.bytes + len, complete := bit h 31 }]
              granted := s.ports[p].granted - ((m.bytes + len) / 512 - m.bytes / 512)
              head := if bit h 31 then (s.ports[p].head + ceilDiv (m.bytes + len) 512) % max 1 (s.ports[p].rxSize / 512) else s.ports[p].head
              credit := s.ports[p].credit + fld h 40 12 }
          ∧ (∀ x : Fin 26, x ≠ l → u.endpapers[x] = s.endpapers[x] ∧ u.links[x] = s.links[x])
          ∧ (∀ x : Fin 26, x ≠ p → u.ports[x] = s.ports[x])
          ∧ { u with endpapers := s.endpapers, links := s.links, ports := s.ports } = s)

/-- A DATA flit out of sequence, an uncorrectable one and UNCORRECTABLE_FLIT take nothing; the gap has one NAK, which goes out
unless FAULT flits fill the link (R369 R381). On the
fault path a DATA flit is discarded, its message counted with its LAST flit (R381). A FAULT flit is recorded; on a required
link of a running compute part it is a fault of class 5 with the origin that it names (R380 R381).
Readings of the model: log entry 30. -/
def Obligations.FlitsRefused : Prop :=
  ∀ (s : State) (l p : Fin 26) (bytes body : List Byte) (n : Nat),
    let h := flitHeader body
    let heard := updLink s l (fun k => { k with heardTick := tick s, corrected := k.corrected + BitVec.ofNat 32 n })
    let nak := fun (a : State) =>
      if a.links[l].discarding then a
      else if faultFilled a l then updLink a l (fun k => { k with discarding := true })
      else
        let g := grantable a l p
        updPort (updLink a l (fun k => { k with
          discarding := true, sentTick := tick s, ackOwed := none
          lastSent := [encodeFlit (withAck k true (flitBody (packFlds [(0, 4, 2), (40, 12, g)]) []))] })) p
          (fun po => { po with owed := po.owed - g, granted := po.granted + g })
    let lost := nak (updLink s l (fun k => { k with uncorr := k.uncorr + 1 }))
    linkIsUp s l = true → bytes.length = 256 → portOn s l = some p →
      exec (.uncorrectableFlit l) s = .next lost
      ∧ (decodeFlit bytes = none → exec (.dataFlit l bytes) s = .next lost ∧ exec (.ctrlFlit l bytes) s = .next lost
        ∧ exec (.heartbeatFlit l bytes) s = .next lost ∧ exec (.faultFlit l bytes) s = .next lost)
      ∧ (decodeFlit bytes = some (body, n) → bit h 28 = false → bit h 29 = false →
        (flitType body = 1 → s.bind.latch = false → fld h 4 12 ≠ s.links[l].rxSeq.toNat →
          exec (.dataFlit l bytes) s = .next (nak heard))
        ∧ (flitType body = 1 → s.bind.latch = true → exec (.dataFlit l bytes) s =
          .next (if bit h 31 then updPort heard p (fun po => { po with drops := po.drops + 1 }) else heard))
        ∧ (flitType body = 4 →
          let runs := computeUp s && !s.bind.latch
          let only := !s.links[l].required
          let id := numAt body 8 4
          exec (.faultFlit l bytes) s = .next (if s.links[l].required && runs then
            linkFaulted heard l
              { cls := 5, quire := none, link := l.val, originClass := numAt body 20 1, originId := BitVec.ofNat 32 id, tick := tick s,
                originStitch := BitVec.ofNat 64 (numAt body 12 8), hops := numAt body 21 1, cause := 4 }
            else updLink heard l (fun k =>
              if bit k.fault 3 then k else { k with fault := packFlds [(0, 3, 4), (3, 1, 1), (4, 1, b2n only), (32, 32, id)] }))))

/-- The timers of a link: a flit unacknowledged for 2 µs has every unacknowledged one sent again (R369), an acknowledgement
owed for 1 µs goes out in a CTRL flit (R368), a quiet link sends a HEARTBEAT, a silent one goes down (R370); a fault-path
link sends its FAULT flit again each µs after the first 16 (R381).
While FAULT flits fill a link, nothing else leaves it (R381).
Missed deadlines (R379) and a reference that has not returned by tick 1,000 of its loss (R349) are link faults of every
required link they meet while the compute part runs, the first recorded in its LINK.FAULT (R380), of two in one tick the lower
cause (R390).
Readings of the model: log entries 2, 22. -/
def Obligations.LinkTimers : Prop :=
  (∀ (s : State) (l p : Fin 26), linkIsUp s l = true → portOn s l = some p →
     let k := s.links[l]
     let bare := fun (type : Nat) =>
       let g := grantable s l p
       updPort (updLink s l (fun k => { k with
         sentTick := tick s, ackOwed := none
         lastSent := [encodeFlit (withAck k false (flitBody (packFlds [(0, 4, type), (40, 12, g)]) []))] })) p
         (fun po => { po with owed := po.owed - g, granted := po.granted + g })
     let filled := faultFilled s l = true
     ((∃ x ∈ k.unacked, x.tick + 2 ≤ tick s) → exec (.replayTimeout l) s = .next (if filled then s else updLink s l (fun k => { k with
         lastSent := k.unacked.map (fun x => encodeFlit (withAck k false x.body)), sentTick := tick s, ackOwed := none
         replays := k.replays + 1, unacked := k.unacked.map (fun x => { x with tick := tick s }) })))
     ∧ (∀ t, k.ackOwed = some t → t + 1 ≤ tick s → exec (.ackTimeout l) s = .next (if filled then s else bare 2))
     ∧ (k.sentTick + 1 ≤ tick s → exec (.heartbeatTimeout l) s = .next (if filled then s else bare 0))
     ∧ (k.heardTick + 8 ≤ tick s → ∃ u, exec (.silence l) s = .next u
         ∧ u.links[l].state = 0 ∧ u.links[l].unacked = [] ∧ u.ports[p].tx = [] ∧ u.ports[p].credit = 0
         ∧ u.ports[p].rx = s.ports[p].rx.filter (·.complete)
         ∧ u.ports[p].drops = s.ports[p].drops +
             (if k.required then 0 else BitVec.ofNat 32 (s.ports[p].tx.length + (s.ports[p].rx.filter (fun r => !r.complete)).length))
         ∧ (let f := if k.required ∧ computeRuns s = true then linkFaulted s l (linkRaise l 3 (tick s)) else s
            u.bind = f.bind ∧ u.links[l].fault = f.links[l].fault)
         ∧ (∀ x : Fin 26, x ≠ l → u.links[x] = s.links[x]) ∧ (∀ x : Fin 26, x ≠ p → u.ports[x] = s.ports[x])
         ∧ { u with links := s.links, ports := s.ports, bind := s.bind, trace := s.trace } = s)
     ∧ (∀ (r : Raised) (t : Nat), s.bind.latch = true → s.bind.firstFault = some r → r.cls ≠ 5 → k.faultTick = some t →
         t + 16 ≤ tick s → k.sentTick + 1 ≤ tick s →
         exec (.faultFlitResend l) s = .next (updLink s l (fun k => { k with
           sentTick := tick s, ackOwed := none
           lastSent := [encodeFlit (withAck k false (flitBody (packFlds [(0, 4, 4)])
             (bytesLE 4 s.bind.deviceId.toNat ++ bytesLE 8 r.tick ++ bytesLE 1 r.cls ++ bytesLE 1 1)))] }))))
  ∧ (∀ (s : State) (l : Fin 26), s.links[l].required = true → computeRuns s = true →
       let faulted := fun (u : State) (l : Fin 26) (cause : Nat) =>
         u.links[l] = { s.links[l] with
           fault := if bit s.links[l].fault 3 then s.links[l].fault else packFlds [(0, 3, cause), (3, 1, 1)] }
       let raised : Fin 26 → Raised := fun l => { linkRaise l 6 (tick s) with noted := !bit s.links[l].fault 3 }
       let limit := fun (bytes : Nat) =>
         4 + ceilDiv bytes (if s.links[l].width = 3 then 116000 else if s.links[l].width = 2 then 58000 else 29000)
       (∀ (p : Fin 26) (m : TxMsg), s.ports[p].phys.toNat = l.val → m ∈ s.ports[p].tx → m.tick + limit m.bytes + 1 < tick s →
         exec (.promise p) s = .next (linkFaulted s l (linkRaise l 1 (tick s))))
       ∧ (∀ (p : Fin 26) (m : RxMsg), s.ports[p].phys.toNat = l.val → m ∈ s.ports[p].rx → m.complete = false →
         m.first + limit 65536 < tick s → exec (.partialMsg p) s = .next (linkFaulted s l (linkRaise l 2 (tick s))))
       ∧ (s.clk.inLoss = true → tick s = s.clk.lossTick + 1000 → (∀ e ∈ s.bind.raised, e.cause = 0 ∨ e.tick ≠ tick s) → ∃ u, exec .referenceTimeout s = .next u
         ∧ (∀ x : Fin 26, if s.links[x].required then faulted u x 6 else u.links[x] = s.links[x])
         ∧ u.bind.raised = s.bind.raised ++ ((List.finRange 26).filter (fun x => s.links[x].required)).map raised
         ∧ { u with links := s.links, bind := { u.bind with raised := s.bind.raised } } = s))

/-- Training: LINK_TRAINING takes a link down and counts it (R382); with the lanes that pass, less those that the colophon
bars, it comes up at the first candidate of R383, else it is down; BACKGROUND_RETRAIN trains each link that is down and each
one below x8 that is not required (R384); none trains while the module is held (R22). A trained end reports the logical id of its
module, its port and its job (R382 R412). TRAIN_FLIT keeps what the peer reports, on a link that is up the identity stage
beginning anew with SEQ 0 and credit 0; another identity than the topology's on a required link is cause 5 (R380 R393).
Readings of the model: log entries 21, 30. -/
def Obligations.LinkTraining : Prop :=
  (∀ (s : State) (l : Fin 26), bandOn s l = true → s.clk.present = true → s.bind.held = false → s.links[l].state ≠ 1 → s.links[l].disabled = false →
    ∃ u, exec (.linkTraining l) s = .next u ∧ u.links[l].state = 1 ∧ u.links[l].retrains = s.links[l].retrains + 1
      ∧ u.links[l].width = 0 ∧ u.links[l].txSeq = 0 ∧ u.links[l].rxSeq = 0
      ∧ (∀ x : Fin 26, x ≠ l → u.links[x] = s.links[x]) ∧ u.quires = s.quires ∧ u.bind = s.bind ∧ u.far = s.far)
  ∧ (∀ (s : State) (l : Fin 26) (lanes : BitVec 8), bandOn s l = true → s.links[l].state = 1 →
    let ok := lanes.toNat &&& (255 - numAt s.flash.colophon (0x40 + 8 * l.val + 3) 1)
    let pass := fun m : Nat => ok &&& m = m
    let w := if pass 0xFF then 3 else if pass 0x0F ∨ pass 0xF0 then 2
      else if pass 0x03 ∨ pass 0x0C ∨ pass 0x30 ∨ pass 0xC0 ∧ s.bind.stepping ≠ 0 then 1 else 0
    ∃ u, exec (.linkTrained l lanes) s = .next u ∧ u.links[l].width = w ∧ u.links[l].state = (if w = 0 then 0 else 2)
      ∧ u.links[l].laneOk = BitVec.ofNat 8 ok ∧ u.links[l].heardTick = tick s ∧ u.links[l].unacked = []
      ∧ (∀ p, portOn s l = some p → w ≠ 0 → u.ports[p].credit = 0)
      ∧ u.links[l].told = (if w = 0 then none else
          some { phys := l.val, deviceId := s.bind.deviceId, port := ((portOn s l).map (·.val)).getD 31, job := s.bind.job })
      ∧ (∀ x : Fin 26, x ≠ l → u.links[x] = s.links[x]) ∧ u.quires = s.quires ∧ u.bind = s.bind ∧ u.far = s.far)
  ∧ (∀ s : State, s.pwr.powered = true → tick s ≠ 0 → tick s % 100000 = 0 → ∃ u, exec .backgroundRetrain s = .next u
    ∧ ∀ l : Fin 26, let k := s.links[l]
      if (k.state = 0 ∨ k.state = 2 ∧ k.width ≠ 3 ∧ k.required = false) ∧ bandOn s l = true ∧ s.clk.present = true ∧ s.bind.held = false
          ∧ k.disabled = false then
        u.links[l].state = 1 ∧ u.links[l].retrains = k.retrains + 1 else u.links[l] = k)
  ∧ ∀ (s : State) (l p : Fin 26) (phys : Nat) (id : BitVec 32) (peerPort : Nat) (job : Word), bandOn s l = true →
    s.links[l].state = 1 ∨ s.links[l].state = 2 → portOn s l = some p →
    let anew := s.links[l].state = 2 ∧ s.links[l].identified = true
    let base := if anew then runIdentity s l else s
    let noted := updLink base l (fun k =>
      { k with peerPhys := phys, peerId := id, peerPort := peerPort, peerJob := job, identified := true, heardTick := tick s })
    let same := id = s.ports[p].peerId ∧ peerPort = s.ports[p].peerPort ∧ job = s.bind.job
    (anew → base.links[l].txSeq = 0 ∧ base.links[l].rxSeq = 0 ∧ base.links[l].unacked = [] ∧ base.ports[p].credit = 0
      ∧ base.links[l].told = some { phys := l.val, deviceId := s.bind.deviceId, port := p.val, job := s.bind.job })
    ∧ (same ∨ s.bind.topoLoaded = false ∨ s.links[l].required = false ∨ computeRuns s = false →
      exec (.trainFlit l phys id peerPort job) s = .next noted)
    ∧ (¬ same → s.bind.topoLoaded = true → s.links[l].required = true → computeRuns s = true →
      exec (.trainFlit l phys id peerPort job) s = .next (linkFaulted noted l (linkRaise l 5 (tick s))))

/-! ## Fault path, clocks, power -/

/-- FAULT_PATH: of the oldest tick, the raised fault that comes first in precedence, trips before memory errors, other faults of a
quire, elastic buffers and links, within these by quire or link, reaches the latch (R447 R448): counted; the first one sets the
latch and asserts FAULT_N, stops every task of every quire and begins FAULT flits; a later one is only counted (R468 R469). Of a
parity error in a slot, RSTOP.FAULT of the stop that the slot passes records cause 3, of a fenced site that of the nearest
enabled stop (R99 R117 R125).
Readings of the model: log entries 7, 45. -/
def Obligations.FaultReachesLatch : Prop :=
  (∀ (s : State) (pre post : List Raised) (f : Raised),
    let b := catchUp s
    let count := BitVec.ofNat 32 (min (2 ^ 32 - 1) (b.bind.faultCount.toNat + 1))
    let rank := fun c : Nat =>
      if c = 1 then 0 else if c = 2 then 1 else if 6 ≤ c ∧ c ≤ 9 then 2 else if c = 3 then 3 else if c = 4 ∨ c = 5 then 4 else 5
    let num := fun r : Raised => (r.quire.map (·.val)).getD r.link
    let before := fun a c : Raised => a.tick < c.tick ∨ a.tick = c.tick ∧
      (rank a.cls < rank c.cls ∨ rank a.cls = rank c.cls ∧ num a < num c)
    b.pwr.powered = true → b.bind.raised = pre ++ f :: post → (∀ r ∈ pre, before f r) → (∀ r ∈ post, ¬ before r f) →
      (b.bind.latch = true → exec (.faultPath .raised) s = .next { b with bind := { b.bind with
        raised := pre ++ post, faultCount := count, resetFault := b.bind.resetFault || b.bind.resetTick.isSome } })
      ∧ (b.bind.latch = false → b.bind.resetTick = none → ∃ u, exec (.faultPath .raised) s = .next u
        ∧ u.bind.latch = true ∧ u.bind.faultN = true ∧ u.bind.firstFault = some f ∧ u.bind.raised = pre ++ post
        ∧ u.bind.faultCount = count ∧ u.host.faultBit = true
        ∧ (∀ (q : Fin 64) (t : Fin 4), u.quires[q].seq.tasks[t].live = false
          ∧ u.quires[q].seq.tasks[t].pc = b.quires[q].seq.tasks[t].pc)
        ∧ (∀ q : Fin 64, u.quires[q].mem = b.quires[q].mem)
        ∧ (∀ l : Fin 26, if linkIsUp b l = true then
            u.links[l].faultTick = some (tick b) ∧ u.links[l].lastSent.length = 1 ∧ u.links[l].sentTick = tick b
          else u.links[l] = b.links[l])
        ∧ u.clk = b.clk ∧ u.endpapers = b.endpapers))
  ∧ ∀ (s : State) (g : Fin 16) (site : Fin 5) (back : Bool),
    let b := catchUp s
    let fenced := fld b.bind.fenceMap (3 * g.val) 3
    let standsAt := fun (q : Fin 64) (n : Nat) =>
      q.val / 4 = g.val ∧ (if q.val % 4 < fenced then q.val % 4 else q.val % 4 + 1) = n
    let beside := fun n : Nat => n + 1 = site.val ∨ n = site.val + 1
    let found := fun (q : Fin 64) (u : State) => exec (.faultPath (.slotParity g site back)) s = .next u
      ∧ u.quires[q].rstop.fault = (if bit b.quires[q].rstop.fault 6 then b.quires[q].rstop.fault else packFlds [(0, 4, 3), (6, 1, 1)])
      ∧ ∀ t : Fin 4, u.quires[q].seq.tasks[t].live = false
    computeUp b = true → b.bind.latch = true →
      (∀ q : Fin 64, standsAt q site.val → slotPasses b q back 0 = true → ∃ u, found q u)
      ∧ (fenced = site.val → (∀ (q : Fin 64) (n : Nat), standsAt q n → beside n → slotPasses b q back 1 = true) →
          ∃ (q : Fin 64) (n : Nat) (u : State), standsAt q n ∧ beside n ∧ found q u)

/-- FAULT_RECORD: at the tick FAULT_INFO and FAULT_STITCH hold the incident (R468 R479), DB05 is rung at the host, alarm cause 7
noted, and the commands that the fault path has stopped are done with FAULTED (R436 R439). WATCHDOG raises a fault of class 11
and ends the commands in progress with FAULTED; a broken image enters the recovery path (R466 R467).
TRACE_INCIDENT_END: with 64 free records in the ring the marker goes out and the kept records behind it, first the held ones,
then the latest; the incident is over (R476).
Readings of the model: log entries 4, 7, 27. -/
def Obligations.FaultRecorded : Prop :=
  (∀ s : State, firmwareRuns s = true →
     (∀ f : Raised, s.bind.latch = true → bit s.bind.faultInfo 0 = false → s.bind.firstFault = some f →
       ∃ u, exec .faultRecord s = .next u
         ∧ u.bind.faultInfo = packFlds [(0, 1, 1), (1, 4, f.cls), (5, 1, b2n f.quire.isSome), (6, 6, (f.quire.map (·.val)).getD 0),
             (12, 4, f.originClass), (16, 5, f.link), (32, 32, f.originId.toNat)]
         ∧ u.bind.faultStitch = s.clk.stitch ∧ u.host.dbOut = s.host.dbOut ||| (1#32 <<< 5)
         ∧ (∃ a ∈ u.trace.alarmPend, a.cause = 7 ∧ a.source = 0 ∧ a.detail = f.cls)
         ∧ u.bind.cmds = s.bind.cmds.map (fun c =>
             if c.st = .running ∧ (((c.opcode = 0x05 ∨ c.opcode = 0x08) ∧ c.faulted = true) ∨ c.opcode = 0x03 ∨ c.opcode = 0x04) then
               { c with st := .done 0x0E c.stopped (BitVec.ofNat 64 c.maxLc), doneAt := s.bind.doneCount } else c)
         ∧ u.bind.latch = true ∧ u.quires = s.quires ∧ u.far = s.far ∧ u.clk = s.clk ∧ u.links = s.links)
     ∧ ∃ u, exec .watchdog s = .next u
       ∧ u.bind.raised = s.bind.raised ++ [{ cls := 11, quire := none, link := 0, originClass := 0, originId := 0, tick := tick s }]
       ∧ (∀ c ∈ u.bind.cmds, c.st ≠ .running ∧ c.st ≠ .waiting) ∧ u.bind.cmds.length = s.bind.cmds.length
       ∧ u.host.recovery = !flashGood s.flash ∧ u.bind.stage = (if flashGood s.flash then s.bind.stage else 2)
       ∧ u.quires = s.quires ∧ u.far = s.far ∧ u.clk = s.clk ∧ u.flash = s.flash)
  ∧ (∀ (s : State) (f : Fin 16) (inc : Incident), s.trace.incident[f] = some inc → s.pwr.powered = true →
       s.pwr.on.toNat.testBit 13 = true → (fld s.trace.ptr[f] 0 16 + 65536 - fld s.trace.ptr[f] 16 16) % 65536 + 64 ≤ 32768 →
       inc.held.length + inc.latest.length ≤ 32 → Mem.wf s.far = true → (∀ r ∈ inc.held ++ inc.latest, r.length = 32) →
       ∃ u, exec (.traceIncidentEnd f) s = .next u ∧ u.trace.incident[f] = none
         ∧ fld u.trace.ptr[f] 0 16 = (fld s.trace.ptr[f] 0 16 + 1 + inc.held.length + inc.latest.length) % 65536
         ∧ fld u.trace.ptr[f] 16 16 = fld s.trace.ptr[f] 16 16
         ∧ (∀ (i : Nat) (r : List Byte), (inc.held ++ inc.latest)[i]? = some r →
             readBytes u.far (fld s.trace.cfg 16 16 * 2 ^ 20 + f.val * 2 ^ 20 + 32 * ((fld s.trace.ptr[f] 0 16 + 1 + i) % 65536 % 32768)) 32 = r)
         ∧ u.quires = s.quires ∧ u.clk = s.clk ∧ u.bind = s.bind ∧ u.host = s.host ∧ u.con = s.con)

/-- FAULT_PATH completes from every powered state in which nothing is in flight, and this is the state it leaves. A raised fault
beside one that holds the latch is counted; the first of a module with no task running and no link up sets the latch and asserts
FAULT_N (R468 R469). A failure of a site is raised, of a class that the spec leaves open, as its quire's or as no quire's (R29
R30); a parity error of a slot is raised with cause 3 in RSTOP.FAULT of the stop it passes (R125); an opcode that the map does
not list and a fetch past the last instruction fault their task, recorded in SEQ.FAULT (R284 R288).
Readings of the model: log entries 4, 7. -/
def Obligations.FaultPathCompletes : Prop :=
  ∀ s : State, s.still → s.pwr.powered = true →
    let counted : Bindery := { s.bind with
      raised := [], faultCount := BitVec.ofNat 32 (min (2 ^ 32 - 1) (s.bind.faultCount.toNat + 1)),
      resetFault := s.bind.resetFault || s.bind.resetTick.isSome }
    let standsAt := fun (q : Fin 64) (g : Fin 16) (site : Fin 5) =>
      let fenced := fld s.bind.fenceMap (3 * g.val) 3
      q.val / 4 = g.val ∧ (if q.val % 4 < fenced then q.val % 4 else q.val % 4 + 1) = site.val
    let idle := fun q : Fin 64 => ∀ t : Fin 4, s.quires[q].seq.tasks[t].live = false
    let raised := fun (cls : Nat) (q : Option (Fin 64)) => { s.bind with raised := s.bind.raised ++
      [{ cls := cls, quire := q, link := 0, originClass := 0, originId := 0, tick := tick s }] }
    let anyClass := 1 + (Config.freeBits s.free).toNat % 11
    (s.bind.raised = [] → exec (.faultPath .raised) s = .next s)
    ∧ (∀ f : Raised, s.bind.raised = [f] →
        (s.bind.latch = true → exec (.faultPath .raised) s = .next { s with bind := counted })
        ∧ (s.bind.latch = false → (∀ q, idle q) → (∀ l : Fin 26, linkIsUp s l = false) → exec (.faultPath .raised) s =
            .next { s with bind := { counted with latch := true, faultN := true, firstFault := some f }
                           host := { s.host with faultBit := true } }))
    ∧ (∀ (g : Fin 16) (site : Fin 5),
        ((∀ q, ¬ standsAt q g site) →
          exec (.faultPath (.site g site)) s = .next { s with bind := raised anyClass none, free := s.free + 1 })
        ∧ ∀ q, standsAt q g site → idle q →
          exec (.faultPath (.site g site)) s = .next { s with bind := raised anyClass (some q), free := s.free + 1 }
          ∧ ∀ back : Bool, computeUp s = true → slotPasses s q back 0 = true → exec (.faultPath (.slotParity g site back)) s =
            .next (updQ { s with bind := raised 2 (some q) } q (fun k => { k with rstop := { k.rstop with
              fault := if bit k.rstop.fault 6 then k.rstop.fault else packFlds [(0, 4, 3), (6, 1, 1)] } })))
    ∧ (∀ (q : Fin 64) (t : Fin 4), comesToIssue s q t = true →
          let faults := fun (src : FaultSource) (cause : Nat) => ∃ u, exec (.faultPath src) s = .next u
            ∧ u.quires[q].seq.fault = (if bit s.quires[q].seq.fault 6 then s.quires[q].seq.fault else
                packFlds [(0, 4, cause), (4, 2, t.val), (6, 1, 1), (7, 13, (s.quires[q].seq.tasks[t].pc).toNat)])
            ∧ u.quires[q].seq.tasks[t].state = .faulted
            ∧ (∀ k : Fin 4, u.quires[q].seq.tasks[k].live = false ∧ u.quires[q].seq.tasks[k].pc = s.quires[q].seq.tasks[k].pc)
            ∧ u.quires[q].mem = s.quires[q].mem ∧ (∀ b : Fin 64, b ≠ q → u.quires[b] = s.quires[b])
            ∧ u.bind.raised = (raised 7 (some q)).raised ∧ u.bind.faultCount = s.bind.faultCount ∧ u.bind.latch = s.bind.latch
          (∀ w, fetchWord s.quires[q] t = some w → opcodeListed (fld w 0 6) = false → faults (.unlistedOpcode q t) 1)
          ∧ (fetchWord s.quires[q] t = none → faults (.fetchPast q t) 3))

/-- FAULT_RECORD, WATCHDOG and TRACE_INCIDENT_END complete from every state that meets their conditions, and this is the state they
leave: the incident in FAULT_INFO and FAULT_STITCH, DB05 held by its mask bit, alarm cause 7, the commands that the fault path has
stopped done with FAULTED (R436 R439 R468 R479); the watchdog's fault raised, every command in progress done with FAULTED, and
the flash image running again, or the recovery path of a broken one (R466 R467); the marker, whose lc count and task are free
values, and the kept records put into the ring in their order, the incident over (R476).
Readings of the model: log entries 4, 7, 27. -/
def Obligations.RecordsComplete : Prop :=
  (∀ (s : State) (f : Raised), firmwareRuns s = true → s.bind.latch = true → bit s.bind.faultInfo 0 = false →
    s.bind.firstFault = some f → s.host.dbOutMask.toNat.testBit 5 = true → s.host.dbOut.toNat.testBit 5 = false →
    (∀ a ∈ s.trace.alarmPend, a.cause = 7 → a.source ≠ 0) →
    exec .faultRecord s = .next (setW1c 0x30058 0x20 { s with
      bind := { s.bind with
        faultInfo := packFlds [(0, 1, 1), (1, 4, f.cls), (5, 1, b2n f.quire.isSome), (6, 6, (f.quire.map (·.val)).getD 0),
          (12, 4, f.originClass), (16, 5, f.link), (32, 32, f.originId.toNat)]
        faultStitch := s.clk.stitch
        doneCount := s.bind.doneCount + 1
        cmds := s.bind.cmds.map (fun c =>
          if c.st = .running ∧ (((c.opcode = 0x05 ∨ c.opcode = 0x08) ∧ c.faulted = true) ∨ c.opcode = 0x03 ∨ c.opcode = 0x04) then
            { c with st := .done 0x0E c.stopped (BitVec.ofNat 64 c.maxLc), doneAt := s.bind.doneCount } else c) }
      host := { s.host with
        dbOut := s.host.dbOut ||| 0x20, dbOutSince := s.host.dbOutSince.set 5 (tick s), msixPending := s.host.msixPending ||| 0x20 }
      trace := { s.trace with
        alarmPend := s.trace.alarmPend ++ [{ cause := 7, source := 0, count := 1, detail := f.cls }] } }))
  ∧ (∀ s : State, firmwareRuns s = true →
    let ended : Bindery := { s.bind with
      raised := s.bind.raised ++ [{ cls := 11, quire := none, link := 0, originClass := 0, originId := 0, tick := tick s }]
      doneCount := s.bind.doneCount + 1
      cmds := s.bind.cmds.map (fun c => match c.st with
        | .done _ _ _ => c
        | _ => { c with st := .done 0x0E c.stopped (BitVec.ofNat 64 c.maxLc), doneAt := s.bind.doneCount }) }
    exec .watchdog s = .next (
      if flashGood s.flash then
        { s with bind := { ended with runHash := sha256 s.flash.image, runVersion := numAt s.flash.image 4 2 } }
      else { s with bind := { ended with stage := 2, faultN := true }
                    host := { s.host with recovery := true, linkUp := s.host.linkUp || !s.host.perst }
                    trace := { s.trace with recState := 0 } }))
  ∧ ∀ (s : State) (f : Fin 16) (inc : Incident), s.trace.incident[f] = some inc → s.pwr.powered = true →
    s.pwr.on.toNat.testBit 13 = true → (fld s.trace.ptr[f] 0 16 + 65536 - fld s.trace.ptr[f] 16 16) % 65536 + 64 ≤ 32768 →
    ∃ lc task : Nat,
      let marker := bytesLE 8 inc.firstStitch ++ bytesLE 4 lc ++ bytesLE 1 7 ++ bytesLE 1 0xFF ++ bytesLE 1 task
        ++ bytesLE 1 (inc.held.length + inc.latest.length) ++ bytesLE 8 inc.dropped ++ bytesLE 8 inc.lastStitch
      exec (.traceIncidentEnd f) s = .next ((marker :: (inc.held ++ inc.latest)).foldl (fun u r => tracePut u f r) { s with
        free := s.free + 2
        trace := { s.trace with
          incident := s.trace.incident.set f none, ptr := s.trace.ptr.set f (setFld s.trace.ptr[f] 32 1 0) } })

/-- DROOP_STRETCH counts a stretch of its folio, by a half where the droop exceeds T2_MV, else by a quarter where it exceeds
T1_MV, the thresholds in force (R347 R357); where no task 0 of its echo domain runs it does no more. DROOP_CFG takes thresholds of 20 to 120 and at least 10 above, up to 150; other values change nothing (R357).
The clock root: a pending change takes effect at its kettle count (R345); a loss of the reference cancels it, goes into
holdover and is counted (R348); 100 ticks later the internal oscillator is set for kettle count loss + 164 at index 5 or
slower (R349); the return, 16 ticks after the loss at the earliest, relocks a running holdover at once, else the reference takes over 64 ticks ahead (R350).
Readings of the model: log entries 14, 29. -/
def Obligations.ClockRoot : Prop :=
  (∀ (s : State) (f : Fin 16) (droop : Nat) (v : Word),
     let b := catchUp s
     let t1 := fld v 0 8
     let t2 := fld v 8 8
     let half := fld b.clk.droopActive 8 8 < droop
     let quarter := ¬ half ∧ fld b.clk.droopActive 0 8 < droop
     (b.pwr.powered = true → b.pwr.on.toNat.testBit (14 + f.val) = true →
       (∀ q ∈ gatheringQuires b ⟨4 * f.val, by omega⟩, b.quires[q].seq.inRun = false) →
       exec (.droopStretch f droop) s = .next { b with clk := { b.clk with
         qtr := if quarter then b.clk.qtr.set f (b.clk.qtr[f] + 1) else b.clk.qtr
         half := if half then b.clk.half.set f (b.clk.half[f] + 1) else b.clk.half } })
     ∧ (mainView s = true → exec (.droopCfg v) s = .next
       (if 20 ≤ t1 ∧ t1 ≤ 120 ∧ t1 + 10 ≤ t2 ∧ t2 ≤ 150 then
         { s with clk := { s.clk with droopCfg := BitVec.ofNat 64 (t1 + 256 * t2) } } else s)))
  ∧ (∀ s : State, s.pwr.powered = true →
       let c := s.clk
       let now := tick s
       (c.opPending = true → c.kettle.toNat ≤ now → c.pendSource = none → s.bind.resetTick = none →
         ∃ u, exec .operatingPointChange s = .next u
           ∧ u.clk = { c with current := c.target, resetStep := false, opPending := false, kettle := 0 }
           ∧ (∀ d ∈ s.bind.cmds, d.opcode = 0x0B → d.st = .running → ∃ n, { d with st := .done 0 0 0, doneAt := n } ∈ u.bind.cmds)
           ∧ { u with clk := c, bind := s.bind } = s)
       ∧ (c.present = true → c.opPending = false → ∃ u, exec .referenceLoss s = .next u
           ∧ u.clk = { c with lost := true, present := false, inLoss := true, losses := c.losses + 1, lossTick := now
                              source := if c.source = 0 then 1 else c.source
                              restore := if c.source = 0 then some c.current else c.restore }
           ∧ u.w1c = (setW1c 0x10018 1 s).w1c ∧ { u with clk := c, trace := s.trace, w1c := s.w1c } = s)
       ∧ (c.present = true → c.opPending = true → ∃ u, exec .referenceLoss s = .next u
           ∧ u.clk.opPending = false ∧ u.clk.target = c.current ∧ u.clk.kettle = 0 ∧ u.clk.current = c.current ∧ u.clk.lost = true
           ∧ (s.bind.resetTick = none → ∀ d ∈ s.bind.cmds, d.opcode = 0x0B → d.st = .running →
               ∃ n, { d with st := .done 9 0 0, doneAt := n } ∈ u.bind.cmds))
       ∧ (c.source = 1 → c.lossTick + 100 ≤ now → c.pendSource = none → exec .holdoverExpiry s = .next { s with clk := { c with
           target := max c.current 5, opPending := true, kettle := BitVec.ofNat 64 (c.lossTick + 164), pendSource := some 2 } })
       ∧ (c.present = false → c.inLoss = true → c.lossTick + 16 ≤ now → ∃ u, exec .referenceReturn s = .next u
           ∧ u.clk = (let c' := { c with present := true, inLoss := false, lastTicks := BitVec.ofNat 16 (min 0xFFFF (now - c.lossTick)) }
               if c.source = 1 ∧ c.pendSource = none then { c' with source := 0, restore := none }
               else { c' with target := c.current, opPending := true, kettle := BitVec.ofNat 64 (now + 64), pendSource := some 0 })
           ∧ { u with clk := c, trace := s.trace } = s))

/-- POWER_TRIP: the input power of the tick is sampled, once a tick; a 100-tick average above the peak limit, one above the sustained limit for 10,000
ticks, or a 100,000-tick average above it trips (R354). A sensor at or above 105 °C trips, one at or above the warning
threshold asserts the alert (R355 R501). The first trip is recorded in PWR.TRIP, each raises a fault of class 1 (R357 R470).
PD_REQ takes the bits of PD04 to PD07 and PD13; it refuses to switch off a band with a required link, or the trace engines
in debug mode: that bit reads back 1, and PWR.PD_REFUSED reports it (R352 R357). A domain that has completed its 200 ticks is on
(R352).
Readings of the model: log entry 29. -/
def Obligations.PowerAndThermal : Prop :=
  (∀ s : State, s.pwr.powered = true →
     let trips := fun (u : State) (cause sensor : Nat) =>
       u.pwr.trip = (if bit s.pwr.trip 0 then s.pwr.trip else packFlds [(0, 1, 1), (1, 2, cause), (3, 5, sensor)])
       ∧ u.bind.raised = s.bind.raised ++ [{ cls := 1, quire := none, link := 0, originClass := 0, originId := 0, tick := tick s }]
     let calm := fun (u : State) => u.pwr.trip = s.pwr.trip ∧ u.bind.raised = s.bind.raised
     (∀ watts fraction : BitVec 16,
       let samples := ((watts ++ fraction) :: s.pwr.samples).take 100000
       let above := fun (n : Nat) (limit : BitVec 16) => 65536 * n * limit.toNat < ((samples.take n).map (·.toNat)).sum
       let since := if above 100 s.pwr.sustLimit then some (s.pwr.overSince.getD (tick s)) else none
       let long := ∃ n, since = some n ∧ n + 10000 ≤ tick s
       (s.pwr.sampled = true → exec (.powerTrip watts fraction) s = .next s)
       ∧ (s.pwr.sampled = false → ∃ u, exec (.powerTrip watts fraction) s = .next u
         ∧ u.pwr.samples = samples ∧ u.pwr.sampled = true ∧ u.pwr.overSince = since
         ∧ (above 100 s.pwr.peakLimit → trips u 0 0)
         ∧ (¬ above 100 s.pwr.peakLimit → long → trips u 1 0)
         ∧ (¬ above 100 s.pwr.peakLimit → ¬ long → above 100000 s.pwr.sustLimit → trips u 2 0)
         ∧ (¬ above 100 s.pwr.peakLimit → ¬ long → ¬ above 100000 s.pwr.sustLimit → calm u)
         ∧ u.quires = s.quires ∧ u.links = s.links ∧ u.far = s.far ∧ u.clk = s.clk))
     ∧ ∀ (n : Fin 24) (temp : BitVec 16) (i : Instr), i = .thermalTrip n temp ∨ i = .thermalWarning n temp →
       let warn := if s.pwr.warn.toNat < 60 then 60 else if 104 < s.pwr.warn.toNat then 104 else s.pwr.warn.toNat
       ∃ u, exec i s = .next u
         ∧ u.pwr.temp = s.pwr.temp.set n temp
         ∧ u.pwr.tempPeak = (if s.pwr.tempPeak[n].toInt < temp.toInt then s.pwr.tempPeak.set n temp else s.pwr.tempPeak)
         ∧ u.bind.alertN = (s.bind.alertN || decide ((8 * warn : Nat) ≤ temp.toInt))
         ∧ (if 840 ≤ temp.toInt then trips u 3 n.val else calm u)
         ∧ u.quires = s.quires ∧ u.links = s.links ∧ u.far = s.far ∧ u.clk = s.clk)
  ∧ ((∀ (s : State) (v : Word), mainView s = true →
       let soft := [4, 5, 6, 7, 13]
       let keeps := fun pd : Nat => if pd = 13 then bit s.con.debugCtl 0 else (List.finRange 26).any (fun l => bandOf l == pd && s.links[l].required)
       let refused := soft.filter (fun pd => !bit v pd && bit s.pwr.req pd && keeps pd)
       ∃ u, exec (.pdReq v) s = .next u
         ∧ (∀ pd ∈ soft, bit u.pwr.req pd = (bit v pd || decide (pd ∈ refused)))
         ∧ (∀ pd < 64, pd ∉ soft → bit u.pwr.req pd = false)
         ∧ u.pwr.refused = (s.pwr.refused || decide (refused ≠ [])) ∧ (refused = [] → u.pwr.refusedPd = s.pwr.refusedPd)
         ∧ (∀ pd, refused.getLast? = some pd → u.pwr.refusedPd = pd) ∧ u.pwr.on = s.pwr.on
         ∧ u.w1c = (if refused = [] then s else setW1c 0x20010 1 s).w1c ∧ { u with pwr := s.pwr, w1c := s.w1c } = s)
     ∧ ∀ (s : State) (pd : Fin 30) (n : Nat), s.pwr.powered = true → (pd.val, n) ∈ s.pwr.starting → n ≤ tick s →
       exec (.powerDomainOn pd) s = .next { s with pwr := { s.pwr with
         on := s.pwr.on ||| (1#30 <<< pd.val), starting := s.pwr.starting.filter (fun p => p.1 != pd.val) } })

/-! ## Boot, host interface, doorbells -/

/-- COLD_POWER_ON with an image that verifies, an applied colophon that all tables agree with, the reference present and no
failure: STAGE 15 and READY, the fence map, cap, limits and pools of the colophon, FAULT_N released, every quire at its reset
values but SKEW and REPAIR (R22 R32 R324 R459 R460 R462); an image that does not verify enters the recovery path (R467).
POWER_LOSS loses everything but the flash and what the die is made as (R6 R494). RECOVERY_GO with a good image writes the flash and leaves the path, another
sets STATE 3 (R467).
Readings of the model: log entries 27, 31. -/
def Obligations.PowerCycle : Prop :=
  ∀ (s : State) (env : BootEnv),
    let col := s.flash.colophon
    let cap := numAt col 0x0C 1
    (s.pwr.powered = false → env.imageOk = true → flashGood s.flash = true → env.reference = true → env.colophonReadable = true →
      env.colophonSigned = true → env.selftestFail = none → env.mcFail = 0 → limitsAgree col = true → fencingOk col = true →
      repairsOk col = true →
      ∃ u, exec (.coldPowerOn env) s = .next u
        ∧ u.pwr.powered = true ∧ u.bind.stage = 15 ∧ u.host.ready = true ∧ u.host.recovery = false ∧ u.bind.faultN = false
        ∧ u.bind.latch = false ∧ u.bind.colophonCode = 0 ∧ u.bind.held = false ∧ u.bind.keyOk = env.keyOk
        ∧ u.clk.cap = cap ∧ u.pwr.peakLimit = BitVec.ofNat 16 (numAt col 0x1A 2) ∧ u.pwr.sustLimit = BitVec.ofNat 16 (numAt col 0x18 2)
        ∧ u.con.pool = (if cap = 0 then packFlds [(0, 24, 140000), (24, 16, 11666)]
            else if cap = 1 then packFlds [(0, 24, 133333), (24, 16, 11111)] else packFlds [(0, 24, 125000), (24, 16, 10416)])
        ∧ (∀ f : Fin 16, fld u.bind.fenceMap (3 * f.val) 3 = fenceField col f.val)
        ∧ (∀ q : Fin 64, ∃ skew bank spad, u.quires[q] = Quire.reset skew bank spad ∧ (skew = 0x9 ∨ skew = 0x6))
        ∧ u.far = [] ∧ u.flash = s.flash)
    ∧ (s.pwr.powered = false → (env.imageOk && flashGood s.flash) = false → ∃ u, exec (.coldPowerOn env) s = .next u
      ∧ u.host.recovery = true ∧ u.host.ready = false ∧ u.bind.stage = 2 ∧ u.bind.faultN = true ∧ u.bind.held = true ∧ u.flash = s.flash)
    ∧ (∃ u, exec .powerLoss s = .next u ∧ u.pwr.powered = false ∧ u.quires = State.reset.quires ∧ u.far = [] ∧ u.bind = { State.reset.bind with stepping := s.bind.stepping }
      ∧ u.links = State.reset.links ∧ u.ports = State.reset.ports ∧ u.clk = State.reset.clk ∧ u.con = State.reset.con
      ∧ u.flash.image = s.flash.image ∧ u.flash.colophon = s.flash.colophon ∧ u.pending = s.pending)
    ∧ ∀ (v : Word) (verified : Bool), hostReach s = true → s.host.recovery = true → bit v 0 = true →
      let units := fld v 8 13
      let raw := readBytes s.far 0x9_0000_0000 (4096 * units)
      let img := raw.take (numAt raw 8 4)
      (verified = true → 1 ≤ units → units ≤ 3072 → imageShape img = true →
        ∃ u, exec (.recoveryGo v verified) s = .next u ∧ u.flash = { s.flash with image := img, imageOk := true }
          ∧ u.host = { s.host with recovery := false } ∧ u.bind = { s.bind with stage := 2 } ∧ u.trace.recState = 0
          ∧ { u with flash := s.flash, host := s.host, bind := s.bind, trace := s.trace } = s)
      ∧ (verified = false → exec (.recoveryGo v verified) s = .next { s with trace := { s.trace with recLength := units, recState := 3 } })

/-- PERST_N and the PCI Express link: while PERST_N is asserted the function is in reset and open copy-engine requests end with
HOST_ERROR (R441 R499); on release the MSI-X table is at its reset values; a link that is down and D3hot keep the host out
(R444). COMPLETION_TIMEOUT ends the command whose request stays open with HOST_ERROR (R441). Nothing in the register space, the
compute part or far memory changes.
Readings of the model: log entry 11. -/
def Obligations.HostLink : Prop :=
  ∀ s : State,
    let failed := fun (u : State) (pick : Cmd → Bool) => u.bind = { s.bind with
      doneCount := s.bind.doneCount + 1
      cmds := s.bind.cmds.map (fun c => if c.st = .running ∧ c.pkt.flags.toNat.testBit 1 = true ∧ c.host = none ∧ pick c = true then
        { c with st := .done 0x0F 0 0, doneAt := s.bind.doneCount } else c) }
    (∃ u, exec .perstAssert s = .next u ∧ u.host = { s.host with perst := true, linkUp := false } ∧ failed u (fun _ => true)
      ∧ { u with host := s.host, bind := s.bind } = s)
    ∧ (s.host.perst = true → exec .perstRelease s = .next { s with host := { s.host with
        perst := false, linkUp := s.pwr.powered, d3hot := false, aer := false, msixAddr := Vector.replicate 32 0
        msixData := Vector.replicate 32 0, msixMask := Vector.replicate 32 true } })
    ∧ exec .pcieLinkDown s = .next { s with host := { s.host with linkUp := false } }
    ∧ (∀ enter, s.pwr.powered = true → s.host.linkUp = true → s.host.perst = false →
        exec (.d3hot enter) s = .next { s with host := { s.host with d3hot := enter } })
    ∧ (∀ (r : Fin 4) (tag : BitVec 16), s.pwr.powered = true → ∃ u, exec (.completionTimeout r tag) s = .next u
      ∧ failed u (fun c => c.ring == r && c.pkt.tag == tag) ∧ { u with bind := s.bind } = s)

/-- BAR4 maps four segments of 4 GiB to far memory, where BAR4_SEG says: a write goes there, a read returns for each byte the
last one written, of a 256 B beat that an incomplete stream write changes the old or the new one (R193 R426 R450); BAR4_SEG
takes bases of 0 to 11. A request outside the BARs, or of another width or alignment, is answered with an unsupported-request
completion and has no other effect, but that one outside the BARs is logged (R14 R421).
Readings of the model: log entry 26. -/
def Obligations.HostWindows : Prop :=
  ∀ s : State, hostReach s = true →
    (∀ (k : Fin 4) (off : Nat) (bytes : List Byte), s.host.recovery = false → k.val * 2 ^ 32 ≤ off →
      off + bytes.length ≤ (k.val + 1) * 2 ^ 32 → bytes ≠ [] →
      let base := fld s.host.bar4Seg (4 * k.val) 4 * 2 ^ 32 + (off - k.val * 2 ^ 32)
      (∃ u, exec (.bar4Write off bytes) s = .next u ∧ u.far = writeBytes s.far base bytes
        ∧ (∀ q : Fin 64, u.quires[q].unfetched = s.quires[q].unfetched) ∧ Fetches s u base bytes.length
        ∧ { u with far := s.far, quires := s.quires, free := s.free } = s)
      ∧ (∃ (got : List Byte) (n : Nat), exec (.bar4Read off bytes.length) s =
            .next { s with out := { s.out with read := got, unsupported := false }, free := n }
          ∧ got.length = bytes.length
          ∧ ∀ i < bytes.length, got[i]? = some (readByte s.far (base + i)) ∨ OnTheWay s (base + i) got[i]?)
      ∧ ∀ a, readByte (writeBytes s.far base bytes) a =
          if base ≤ a ∧ a < base + bytes.length then (bytes[a - base]?).getD 0 else readByte s.far a)
    ∧ (∀ v : Word, s.host.recovery = false → ∃ u, exec (.bar4Seg v) s = .next u
      ∧ (∀ k : Fin 4, fld u.host.bar4Seg (4 * k.val) 4 =
          if fld v (4 * k.val) 4 ≤ 11 then fld v (4 * k.val) 4 else fld s.host.bar4Seg (4 * k.val) 4)
      ∧ { u with host := { u.host with bar4Seg := s.host.bar4Seg } } = s)
    ∧ ∀ r : HostRequest,
      let size := if r.bar = 0 then 2 ^ 26 else if r.bar = 2 then 2 ^ 16 else if r.bar = 4 then 2 ^ 34 else 0
      let outside := ¬ r.offset + r.width ≤ size
      outside ∨ r.bar ≠ 4 ∧ ((r.width ≠ 4 ∧ r.width ≠ 8) ∨ r.offset % r.width ≠ 0) →
      exec (.unsupportedRequest r) s = .next { s with
        out := { s.out with unsupported := true }, host := { s.host with aer := s.host.aer || decide outside } }

/-- Host doorbells: a held bit stays set until its mask bit is cleared, a ring bell makes its ring active, DB08 to DB31 reach
every quire that MBOX.ROUTE names, reserved bits are discarded (R442 R443 R445 R451).
Readings of the model: log entry 28. -/
def Obligations.HostBells : Prop :=
  ∀ (s : State) (n : Fin 32), mainView s = true → s.pwr.powered = true → firmwareRuns s = true →
    let one : BitVec 32 := 1#32 <<< n.val
    (4 ≤ n.val → n.val ≤ 7 → exec (.dbInSet one) s = .next s)
    ∧ ((n.val < 4 ∨ 8 ≤ n.val) → s.host.dbInMask.toNat.testBit n.val = true →
        exec (.dbInSet one) s = .next { s with host := { s.host with dbIn := s.host.dbIn ||| one } })
    ∧ (s.host.dbIn.toNat.testBit n.val = true → exec (.dbInSet one) s = .next s)
    ∧ (∀ r : Fin 4, n.val = r.val → s.host.dbInMask.toNat.testBit n.val = false → s.host.dbIn.toNat.testBit n.val = false →
        ringFill s r ≤ ringSize s r → exec (.dbInSet one) s = .next { s with host := { s.host with
          dbIn := s.host.dbIn &&& ~~~ one, active := s.host.active.set r (decide (cmdProd s r ≠ cmdCons s r)) } })
    ∧ (8 ≤ n.val → s.host.dbInMask.toNat.testBit n.val = false → s.host.dbIn.toNat.testBit n.val = false →
        (∀ q : Fin 64, s.mbox.route[n].toNat.testBit q.val = true → quireDeaf s q = false) →
        ∃ u, exec (.dbInSet one) s = .next u
          ∧ (∀ q : Fin 64, u.quires[q] =
              if s.mbox.route[n].toNat.testBit q.val = true ∧ s.quires[q].dbToQuire.toNat.testBit n.val = false then
                { s.quires[q] with dbToQuire := s.quires[q].dbToQuire ||| one, dbToSince := s.quires[q].dbToSince.set n (tick s) }
              else s.quires[q])
          ∧ { u with quires := s.quires, host := { u.host with dbIn := s.host.dbIn } } = s ∧ u.host.dbIn = s.host.dbIn &&& ~~~ one)
    ∧ (∀ v : BitVec 32, s.host.dbIn &&& s.host.dbInMask &&& ~~~ v = 0 →
        exec (.dbInMask v) s = .next { s with host := { s.host with dbInMask := v } })
    ∧ (∀ r : Fin 4, n.val = r.val → s.host.dbIn = one → s.host.dbInMask = one → ringFill s r ≤ ringSize s r →
        exec (.dbInMask 0) s = .next { s with host := { s.host with
          dbInMask := 0, dbIn := 0, active := s.host.active.set r (decide (cmdProd s r ≠ cmdCons s r)) } })

/-- Doorbells toward the host and the quires: a quire's bits 0 to 7 are latched in QFLAG, its bits 8 to 31 ring the host and note
the quire in OUT_SRC (R442 R445); the host's clear clears OUT_SRC (R445) of bits set when the tick began, and not set again since (R14); a message whose
vector and mask are both open goes out, with the address and data of the MSI-X table (R421 R446); a cleared mask bit starts a held bit's timer (R443); a bit still set at tick t + 20
flags its sender (R444).
Readings of the model: log entry 28. -/
def Obligations.OutwardBells : Prop :=
  ∀ (s : State) (n : Fin 32) (q : Fin 64), mainView s = true → s.pwr.powered = true →
    let one : BitVec 32 := 1#32 <<< n.val
    let k := s.quires[q]
    let taken := updQ s q (fun k => { k with dbFromQuire := 0 })
    (k.dbFromQuire = one → fld k.qmask 0 32 = 0 → n.val < 8 → exec (.quireDoorbell q) s =
        .next (setW1c (0x40380 + 8 * q.val) (1#64 <<< n.val) (updQ taken q (fun k => { k with qflag := setFld k.qflag n.val 1 1 }))))
    ∧ (k.dbFromQuire = one → fld k.qmask 0 32 = 0 → 8 ≤ n.val → s.host.dbOutMask.toNat.testBit n.val = true →
        s.host.dbOut.toNat.testBit n.val = false → exec (.quireDoorbell q) s = .next (setW1c 0x30058 (1#64 <<< n.val) { taken with
          mbox := { s.mbox with outSrc := s.mbox.outSrc.set n (s.mbox.outSrc[n] ||| (1#64 <<< q.val)) }
          host := { s.host with dbOut := s.host.dbOut ||| one, dbOutSince := s.host.dbOutSince.set n (tick s)
                                msixPending := s.host.msixPending ||| one } }))
    ∧ (∀ v : BitVec 32, (0x30058, BitVec.ofNat 64 v.toNat) ∈ s.w1c → (∀ p ∈ s.w1c, p.1 = 0x30058 → p.2 = BitVec.ofNat 64 v.toNat) →
        exec (.dbOut v) s = .next (setW1c 0x30058 (BitVec.ofNat 64 v.toNat) { s with
          host := { s.host with dbOut := s.host.dbOut &&& ~~~ v }
          mbox := { s.mbox with outSrc := Vector.ofFn (fun i : Fin 32 =>
            if 8 ≤ i.val ∧ v.toNat.testBit i.val = true then 0 else s.mbox.outSrc[i]) } }))
    ∧ (s.host.msixPending.toNat.testBit n.val = true → s.host.dbOut.toNat.testBit n.val = true →
        s.host.dbOutMask.toNat.testBit n.val = false → exec (.msixVectorUnmask n) s = .next { s with
          out := { s.out with msix := s.out.msix ++ [{ vector := n, addr := s.host.msixAddr[n], data := s.host.msixData[n] }] }
          host := { s.host with msixMask := s.host.msixMask.set n false, msixPending := s.host.msixPending &&& ~~~ one } })
    ∧ (s.host.dbOutMask = one → s.host.dbOut = one → s.host.msixPending = 0 → hostDeaf s = false → exec (.dbOutMask 0) s =
        .next { s with host := { s.host with dbOutMask := 0, dbOutSince := s.host.dbOutSince.set n (tick s) } })
    ∧ (∀ v : Word, fld (k.qmask &&& ~~~ v) 32 32 = 0 → k.dbFromQuire &&& ~~~ (BitVec.ofNat 32 (fld v 0 32)) = 0 →
        exec (.qmask q v) s = .next (updQ s q (fun k => { k with qmask := v })))
    ∧ (k.dbFromQuire = one → fld k.qmask 0 32 = 0 → tick s = k.dbFromSince[n] + 20 → k.dbToQuire.toNat.testBit 7 = false →
        exec (.dbTimeout (.fromQuire q n)) s = .next (updQ s q (fun k => { k with
          dbToQuire := k.dbToQuire ||| (1#32 <<< 7), dbToSince := k.dbToSince.set 7 (tick s) })))
    ∧ (8 ≤ n.val → k.dbToQuire.toNat.testBit n.val = true → (fld k.qmask 32 32).testBit n.val = false →
        tick s = k.dbToSince[n] + 20 → ∃ u, exec (.dbTimeout (.toQuire q n)) s = .next u
          ∧ u.host.dbTimeout = s.host.dbTimeout ||| one ∧ u.host.dbOut = s.host.dbOut ||| (1#32 <<< 6) ∧ u.quires = s.quires)

/-- Register writes of the host: a ring's configuration, whose ERR a 1 clears where it was set when the tick began (R14 R428 R450), the heartbeat limit, whose every write is a heartbeat (R444),
a fence, which holds bits 19 to 0 and releases for good every read that no fence holds then (R397 R398), and a write of a whole register by its access code: rw takes the value, reserved
bits stay 0, ro has no effect (R12).
Readings of the model: log entries 24, 28. -/
def Obligations.HostRegisters : Prop :=
  ∀ s : State, mainView s = true →
    (∀ (r : Fin 4) (v : Word),
      let old := s.host.ringCfg[r]
      let w := if bit old 0 then old else v
      let size := 2 ^ fld w 4 4
      let fits := 6 ≤ fld w 4 4 ∧ fld w 4 4 ≤ 12 ∧ fld w 8 24 * 4096 + size * 64 ≤ 48 * 2 ^ 30
        ∧ fld w 32 24 * 4096 + size * 32 ≤ 48 * 2 ^ 30
      ∃ u, exec (.ringCfg r v) s = .next u
        ∧ fld u.host.ringCfg[r] 4 4 = fld w 4 4 ∧ fld u.host.ringCfg[r] 8 24 = fld w 8 24 ∧ fld u.host.ringCfg[r] 32 24 = fld w 32 24
        ∧ bit u.host.ringCfg[r] 0 = (bit v 0 && (bit old 0 || decide fits)) 
        ∧ bit u.host.ringCfg[r] 1 = (bit old 1 && !bit (clears s (0x30008 + 8 * r.val) v) 1)
        ∧ u.host.ringPtr[r] = (if bit v 0 then s.host.ringPtr[r] else 0)
        ∧ (∀ x : Fin 4, x ≠ r → u.host.ringCfg[x] = s.host.ringCfg[x] ∧ u.host.ringPtr[x] = s.host.ringPtr[x])
        ∧ u.w1c = (setW1c (0x30008 + 8 * r.val) (v &&& 2) s).w1c ∧ { u with host := s.host, bind := s.bind, w1c := s.w1c } = s)
    ∧ (∀ v : BitVec 32, exec (.heartbeat v) s = .next { s with host := { s.host with heartbeat := v, beatTick := some (tick s) } })
    ∧ (∀ (w : Fin 4) (v : Word),
      let b := { s with hostin := { s.hostin with fence := s.hostin.fence.set w (v &&& 0xFFFFF) } }
      ∃ u, exec (.fence w v) s = .next u ∧ { u with quires := s.quires } = b
        ∧ ∀ q : Fin 64, { u.quires[q] with stream := s.quires[q].stream } = s.quires[q]
          ∧ { u.quires[q].stream with landings := s.quires[q].stream.landings } = s.quires[q].stream
          ∧ u.quires[q].stream.landings = s.quires[q].stream.landings.map (fun l =>
              if fenceHolds b l.faddr (512 * l.len) then l else { l with released := true }))
    ∧ (∀ v : Word, s.pwr.powered = true →
      let b := catchUp s
      mainView b = true →
      exec (.registerWrite false 0x80000 8 v) s = .next { b with con := { b.con with waitLimit := v &&& 0xFFFF_FFFF } }
      ∧ exec (.registerWrite false 0xA0000 8 v) s = .next { b with con := { b.con with debugCtl := v &&& 0xFF07 } }
      ∧ exec (.registerWrite false 0x10000 8 v) s = .next b ∧ exec (.registerWrite false 0x00018 8 v) s = .next b
      ∧ (∀ q : Fin 64, windowsOpen b = true →
        exec (.registerWrite false (0x1000000 + 0x10000 * q.val) 8 v) s =
          .next (updQ b q (fun k => { k with array := { k.array with config := v &&& 3 } }))
        ∧ ∀ i : Fin 4, exec (.registerWrite false (0x1006000 + 0x10000 * q.val + 8 * i.val) 8 v) s =
          .next (updQ b q (fun k => { k with bwd := { k.bwd with keepNext := k.bwd.keepNext.set i v } }))))

/-- SMBus block reads return the data of the table of R501 and change nothing; before stage 3 and on the recovery path nothing
answers. ALERT_CLEAR releases the alert unless FAULT_N is asserted; while the alert is asserted the module answers the Alert
Response Address.
Readings of the model: log entry 35. -/
def Obligations.Sideband : Prop :=
  ∀ s : State,
    let answers := fun (i : Instr) (bs : List Byte) => exec i s = .next { s with out := { s.out with smbus := bs } }
    (s.pwr.powered = true → 3 ≤ s.bind.stage → s.host.recovery = false →
      answers .ident (bytesLE 8 (if s.bind.colophonCode = 3 then 0 else numAt s.flash.colophon 0x10 8) ++ bytesLE 2 (modelNumber s)
        ++ bytesLE 2 s.bind.runVersion ++ bytesLE 1 s.bind.stepping ++ bytesLE 3 0)
      ∧ answers .status (bytesLE 8 (regRead s 0x30078).toNat) ∧ answers .fault (bytesLE 8 (regRead s 0x00018).toNat)
      ∧ answers .power (bytesLE 8 (regRead s 0x20018).toNat)
      ∧ (∃ i : Fin 24, (∀ j : Fin 24, s.pwr.temp[j].toInt ≤ s.pwr.temp[i].toInt)
        ∧ answers .tempMax (bytesLE 2 (s.pwr.temp[i]).toNat ++ bytesLE 1 i.val ++ bytesLE 1 0))
      ∧ exec .alertClear s = .next (if s.bind.faultN then s else { s with bind := { s.bind with alertN := false } })
      ∧ (s.bind.faultN = true ∨ s.bind.alertN = true → answers .alertResponse [0xB4]))
    ∧ (s.pwr.powered = false ∨ s.bind.stage < 3 ∨ s.host.recovery = true →
      ∀ i ∈ ([.ident, .status, .fault, .power, .tempMax, .alertClear, .alertResponse] : List Instr), exec i s = .next s)

/-! ## Commands of the rings -/

/-- Every command row: where the packet at the bindery's index is not the row's, or its ring's turn in the tick is over, nothing
happens (R429 R448); a packet that fails a step of
R433 is taken and done with that status, and changes nothing else; one with FENCE behind an earlier command of its ring waits
(R429).
Readings of the model: log entry 10. -/
def Obligations.PacketsTaken : Prop :=
  ∀ (s : State) (r : Fin 4) (k : Packet) (host : Option (List Byte)),
    let rows : List (Nat × Instr) :=
      [(0x00, .nopCommand r k), (0x01, .query r k host), (0x02, .loadProgram r k host), (0x03, .loadRegion r k),
       (0x04, .exportRegion r k), (0x05, .startTask r k), (0x06, .abortTask r k), (0x07, .setStep r k), (0x08, .runUpdate r k),
       (0x09, .readLedger r k host), (0x0A, .readTelemetry r k host), (0x0B, .setOperatingPoint r k), (0x0C, .setTopology r k),
       (0x0D, .linkControlRetrain r k), (0x0D, .linkControlDisable r k), (0x0D, .linkControlEnable r k),
       (0x0D, .linkControlClear r k), (0x0E, .resetCompute r k), (0x10, .attest r k host)]
    let hosted := fun op : Nat => if op ∈ [0x01, 0x02, 0x09, 0x0A, 0x10] then host else none
    ∀ (op : Nat) (i : Instr), (op, i) ∈ rows → (op = 0x0D → i =
        match fld k.p[0] 8 2 with
        | 0 => .linkControlRetrain r k | 1 => .linkControlDisable r k | 2 => .linkControlEnable r k | _ => .linkControlClear r k) →
      (op ≠ 0x06 → ¬ Takes s r op k → exec i s = .next s)
      ∧ (∀ st, Takes s r op k → Unfenced s r op k → firstCheck s op r k = some st →
        exec i s = .next (Ended s (noteTurn r (goesFirst op k) (advanceRing s r)) (commandOf s r op k (hosted op)) st 0 0))
      ∧ (∀ d ∈ s.bind.cmds, Takes s r op k → pktFenced k = true → d.ring = r → d.mute = false → d.before (commandOf s r op k none) = true →
        exec i s = .next (withCommand s (noteTurn r (goesFirst op k) (advanceRing s r)) { commandOf s r op k (hosted op) with st := .waiting }))

/-- NOP, QUERY, READ_TELEMETRY and ATTEST: the results go to far memory, or with HOSTADDR, once the host has answered, to host
memory in requests of at most 512 B (R441); the command is COMPLETE and nothing else changes (R434 R440 R464).
Readings of the model: log entries 10, 11, 12. -/
def Obligations.ReportCommands : Prop :=
  ∀ (s : State) (r : Fin 4) (k : Packet) (host : Option (List Byte)),
    let b := workState s r
    let put := fun (reads : List (Nat × Nat)) (a : Word) (bs : List Byte) =>
      if pktHost k then { b with out := { b.out with dma := writeRequests [(a.toNat, bs)], dmaRead := readRequests reads } }
      else { b with far := writeBytes b.far a.toNat bs }
    let goes := fun (a : Word) (n : Nat) =>
      if pktHost k then a.toNat % 64 = 0 ∧ host ≠ none ∧ b.host.perst = false ∧ b.host.linkUp = true
      else a.toNat % 512 = 0 ∧ a.toNat + n ≤ 48 * 2 ^ 30
    let done := fun (op : Nat) (a : State) => Host.Outcome.next (Ended s a (commandOf s r op k host) 0 0 0)
    (∀ (a : Nat) (bs : List Byte), (writeRequests [(a, bs)]).flatMap (·.2) = bs ∧ ∀ w ∈ writeRequests [(a, bs)], w.2.length ≤ 512)
    ∧ (Starts s r 0x00 k → host = none → exec (.nopCommand r k) s = done 0x00 b)
    ∧ (Starts s r 0x01 k → goes k.p[0] 512 → ∃ bs : List Byte, exec (.query r k host) s = done 0x01 (put [] k.p[0] bs)
        ∧ bs.length = 512 ∧ numAt bs 8 2 = modelNumber b ∧ numAt bs 10 2 = b.bind.runVersion % 65536
        ∧ numAt bs 16 8 = (isaCapsWord b).toNat ∧ numAt bs 24 8 = b.bind.fenceMap.toNat ∧ numAt bs 32 8 = (opStatusWord b.clk).toNat
        ∧ numAt bs 40 8 = b.con.pool.toNat ∧ numAt bs 48 8 = (powerInputWord b.pwr).toNat
        ∧ numAt bs 56 8 = tick b
        ∧ (∀ l : Fin 26, numAt bs (64 + 8 * l.val) 8 = (linkStatusWord b l).toNat)
        ∧ numAt bs 272 8 = (hostStatusWord b).toNat ∧ (∀ i, 280 ≤ i → i < 512 → bs[i]? = some 0))
    ∧ (Starts s r 0x0A k → let n := k.p[1].toNat
        1 ≤ n → n ≤ 512 → goes k.p[0] (8 * n) → goes k.p[2] (8 * n) →
        let src := if pktHost k then slice (host.getD []) 0 (8 * n) else readBytes b.far k.p[0].toNat (8 * n)
        (∀ i < n, numAt src (8 * i) 8 < 2 ^ 26 ∧ numAt src (8 * i) 8 % 8 = 0) →
        ∃ bs : List Byte, exec (.readTelemetry r k host) s = done 0x0A (put [(k.p[0].toNat, 8 * n)] k.p[2] bs) ∧ bs.length = 8 * n
          ∧ ∀ i < n, numAt bs (8 * i) 8 = (regRead b (numAt src (8 * i) 8)).toNat)
    ∧ (Starts s r 0x10 k → 1024 ≤ k.p[5].toNat → goes k.p[4] k.p[5].toNat →
        ∃ bs : List Byte, exec (.attest r k host) s = done 0x10 (put [] k.p[4] bs) ∧ bs.length = 1024
          ∧ numAt bs 0 4 = 0x54535441 ∧ numAt bs 4 2 = 1 ∧ numAt bs 0x10 8 = tick b ∧ numAt bs 0x18 8 = (isaCapsWord b).toNat
          ∧ (∀ i : Fin 4, numAt bs (0x20 + 8 * i.val) 8 = k.p[i.val].toNat)
          ∧ slice bs 0x40 32 = slice b.bind.runHash 0 32 ∧ slice bs 0x80 32 = slice b.bind.mainHash 0 32
          ∧ slice bs 0xA0 32 = slice b.bind.fillerHash 0 32 ∧ numAt bs 0xC0 8 = b.bind.fenceMap.toNat
          ∧ (b.bind.keyOk = false → slice bs 0x100 768 = List.replicate 768 0 ∧ numAt bs 6 2 % 2 = 1))

/-- READ_LEDGER captures COUNT slots of each named quire, with CLEAR leaves them at their reset values, and writes quire q's records
at P1, with ALL at P1 + q × COUNT × 16 (R60 R62 R440).
Readings of the model: log entry 10. -/
def Obligations.LedgerCommand : Prop :=
  ∀ (s : State) (r : Fin 4) (k : Packet) (host : Option (List Byte)) (qs : List (Fin 64)),
    let b := workState s r
    let first := fld k.p[0] 16 8
    let count := fld k.p[0] 24 9
    let total := qs.length * count * 16
    let put := fun q : Fin 64 => k.p[1].toNat + if bit k.p[0] 8 then q.val * count * 16 else 0
    Starts s r 0x09 k → pktHost k = false → namedQuires k.p[0] = some qs → 1 ≤ count → first + count ≤ 256 →
    k.p[1].toNat % 512 = 0 → k.p[1].toNat + total ≤ 48 * 2 ^ 30 → Mem.wf b.far = true →
    ∃ a, exec (.readLedger r k host) s = .next (Ended s a (commandOf s r 0x09 k host) 0 0 0)
      ∧ (∀ q ∈ qs, ∀ i < count, ∀ slot : Fin 256, slot.val = first + i →
          readBytes a.far (put q + 16 * i) 16 = (b.quires[q].ledger[slot]).bytes)
      ∧ (∀ x, x < k.p[1].toNat ∨ k.p[1].toNat + total ≤ x → readByte a.far x = readByte b.far x)
      ∧ (∀ q : Fin 64, a.quires[q] = if bit k.p[0] 40 = true ∧ q ∈ qs then { b.quires[q] with
            ledger := Vector.ofFn (fun i : Fin 256 =>
              if first ≤ i.val ∧ i.val < first + count then LedgerSlot.reset else b.quires[q].ledger[i]) }
          else b.quires[q])
      ∧ { a with far := b.far, quires := b.quires } = b

/-- FW_UPDATE writes an image that verifies into the flash and is COMPLETE where it reads back; an image that does not verify leaves
the flash as it was, BAD_IMAGE (R457 R458 R465).
LOAD_PROGRAM: a binary that passes the checks of R438 goes into every program store, quire q's image into that of quire q; a main
binary makes every other entry NOP and loads the header state, a filler changes its code range alone. SET_STEP brings its image
into every shadow store (R243).
Readings of the model: log entries 10, 12. -/
def Obligations.StoreCommands : Prop :=
  (∀ (s : State) (r : Fin 4) (k : Packet) (host : Option (List Byte)) (verified written : Bool),
     let b := workState s r
     let img := readBytes b.far k.p[0].toNat k.p[1].toNat
     let c := { commandOf s r 0x0F k host with verified := verified, written := written }
     Starts s r 0x0F k → pktHost k = false → k.p[0].toNat % 512 = 0 → k.p[0].toNat + k.p[1].toNat ≤ 48 * 2 ^ 30 →
     (∀ d ∈ b.bind.cmds, d.opcode ≠ 0x0F) →
     exec (.fwUpdate r k host verified written) s = .next
       (if verified = true ∧ numAt img 0 4 = 0x574D4946 ∧ numAt img 8 4 = k.p[1].toNat ∧ 4096 ≤ k.p[1].toNat
           ∧ k.p[1].toNat ≤ 12 * 2 ^ 20 then
         Ended s { b with flash := { b.flash with image := img, imageOk := written } } c (if written then 0 else 0x10) 0 0
       else Ended s b c 0x10 0 0))
  ∧ (∀ (s : State) (r : Fin 4) (k : Packet) (host : Option (List Byte)),
       let b := workState s r
       let bin := if pktHost k then slice (host.getD []) 0 k.p[1].toNat else readBytes b.far k.p[0].toNat k.p[1].toNat
       let filler := bit k.p[2] 0
       let base := numAt bin 0x008 2
       let count := numAt bin 0x00A 2
       let per := (numAt bin 0x006 2).testBit 0
       (Starts s r 0x02 k → 4096 ≤ k.p[1].toNat →
         (if pktHost k then k.p[0].toNat % 64 = 0 ∧ host ≠ none ∧ b.host.perst = false ∧ b.host.linkUp = true
           else k.p[0].toNat % 512 = 0 ∧ k.p[0].toNat + k.p[1].toNat ≤ 48 * 2 ^ 30) →
         loadCheck b bin k.p[1].toNat filler = none →
         ∃ a, exec (.loadProgram r k host) s = .next (Ended s a (commandOf s r 0x02 k host) 0 0 0)
           ∧ (∀ (q : Fin 64) (x : Nat), readByte (a.quires[q]).mem.prog x =
               if 8 * base ≤ x ∧ x < 8 * (base + count) then
                 (bin[4096 + (if per then 8 * count * q.val else 0) + (x - 8 * base)]?).getD 0
               else if filler then readByte (b.quires[q]).mem.prog x else 0)
           ∧ (filler = false → a.bind.loaded = 0x0200 ∧ a.bind.mainHash = sha256 bin ∧ a.bind.fillerHash = []
             ∧ (∀ i : Fin 16, a.bind.entries[i] = BitVec.ofNat 64 (numAt bin (0x280 + 4 * i.val) 4))
             ∧ (∀ i : Fin 32, a.con.xbCount[i] = 0) ∧ (∀ i : Fin 4, a.hostin.fence[i] = 0)
             ∧ (∀ c : Fin 4, a.mcs[c].split = BitVec.ofNat 64 (numAt bin (0x40 + 4 * c.val) 4))
             ∧ (∀ p : Fin 26, a.ports[p].sendQuire = numAt bin (0x200 + 2 * p.val) 2 % 64
               ∧ a.ports[p].recvQuire = numAt bin (0x200 + 2 * p.val) 2 / 256 % 64)
             ∧ (∀ q : Fin 64, (a.quires[q]).vec.config = BitVec.ofNat 64 (numAt bin 0x006 2 / 4 % 2)))
           ∧ (filler = true → a.bind = { b.bind with fillerHash := sha256 bin } ∧ a.con = b.con ∧ a.ports = b.ports ∧ a.mcs = b.mcs
             ∧ a.hostin = b.hostin ∧ ∀ q : Fin 64, (a.quires[q]).vec = (b.quires[q]).vec)
           ∧ (∀ q : Fin 64, (a.quires[q]).seq = (b.quires[q]).seq ∧ (a.quires[q]).mem = { (b.quires[q]).mem with prog := (a.quires[q]).mem.prog })
           ∧ a.far = b.far ∧ a.clk = b.clk ∧ a.links = b.links)
       ∧ (Starts s r 0x07 k → k.p[1].toNat % 512 = 0 → k.p[1].toNat + 66560 ≤ 48 * 2 ^ 30 → Mem.wf b.far = true →
         ∃ a, exec (.setStep r k) s = .next (Ended s a (commandOf s r 0x07 k none) 0 0 0)
           ∧ (∀ q : Fin 64, (∀ x < 66560, readByte (a.quires[q]).mem.descShadow x = readByte b.far (k.p[1].toNat + x))
             ∧ a.quires[q] = { b.quires[q] with
                 mem := { (b.quires[q]).mem with descShadow := (a.quires[q]).mem.descShadow }, upd := { (b.quires[q]).upd with loading := true } })
           ∧ { a with quires := b.quires } = b))

/-- LOAD_REGION moves ROWS rows of 512 B from far memory into a target of each named quire, EXPORT_REGION the other way; with ALL
quire q's rows lie STRIDE apart (R439). No other byte changes; here no word moved has an error.
Readings of the model: log entry 10. -/
def Obligations.RegionCommands : Prop :=
  ∀ (s : State) (r : Fin 4) (k : Packet) (qs : List (Fin 64)),
    let b := workState s r
    let target := fld k.p[0] 16 3
    let first := fld k.p[1] 0 17
    let rows := fld k.p[1] 32 17
    let put := fun q : Fin 64 => k.p[2].toNat + if bit k.p[0] 8 then q.val * k.p[3].toNat else 0
    let fits := namedQuires k.p[0] = some qs ∧ target ≠ 7 ∧ 1 ≤ rows ∧ rows ≤ 65536
      ∧ first + rows ≤ ([1024, 512, 512, 32768, 32768, 65536, 1024][target]?).getD 0
      ∧ (bit k.p[0] 8 = true → k.p[3].toNat % 512 = 0 ∧ 512 * rows ≤ k.p[3].toNat)
      ∧ (∀ q ∈ qs, put q % 512 = 0 ∧ put q + 512 * rows ≤ 48 * 2 ^ 30 ∧ ∀ t : Fin 4, (b.quires[q]).seq.tasks[t].live = false)
    fits → b.canonical → (∀ q ∈ qs, (b.quires[q]).upsets = []) →
    (Starts s r 0x03 k → ∃ a, exec (.loadRegion r k) s = .next (Ended s a (commandOf s r 0x03 k none) 0 0 0)
      ∧ (∀ (q : Fin 64) (x : Nat), readByte (rowsTarget a.quires[q] target) x =
          if q ∈ qs ∧ 512 * first ≤ x ∧ x < 512 * (first + rows) then readByte b.far (put q + (x - 512 * first))
          else readByte (rowsTarget b.quires[q] target) x)
      ∧ (∀ (q : Fin 64) (o : Nat), o < 7 → o ≠ target → rowsTarget a.quires[q] o = rowsTarget b.quires[q] o)
      ∧ (∀ q : Fin 64, (a.quires[q]).seq = (b.quires[q]).seq) ∧ a.far = b.far ∧ { a with quires := b.quires } = b)
    ∧ (Starts s r 0x04 k → ∃ a, exec (.exportRegion r k) s = .next (Ended s a (commandOf s r 0x04 k none) 0 0 0)
      ∧ (∀ q ∈ qs, ∀ x < 512 * rows, readByte a.far (put q + x) = readByte (rowsTarget b.quires[q] target) (512 * first + x))
      ∧ (∀ x, (∀ q ∈ qs, x < put q ∨ put q + 512 * rows ≤ x) → readByte a.far x = readByte b.far x)
      ∧ { a with far := b.far } = b)

/-- START_TASK: the task begins on every named quire with the bounds, region, window, seed and argument of the packet, at index 0 of
its code, every register 0, to issue from the next tick on (R269 R435 R436); RUN_UPDATE starts task 0 on all quires at an entry of the binary and makes a valid
shadow store the active one (R244). Stated where nothing is in flight, no bound meets another task's, and no port lacks its
link.
ABORT_TASK stops the named task on each named quire where it runs: its bounds are no longer valid, the bank and scratchpads stay,
and it answers COMPLETE; where it runs on none, NOT_RUNNING (R437).
Readings of the model: log entry 25. -/
def Obligations.TaskCommands : Prop :=
  (∀ (s : State) (r : Fin 4) (k : Packet) (update : Bool) (qs : List (Fin 64)),
     let b := workState s r
     let entry := b.bind.entries[(⟨fld k.p[0] 0 4 % 16, by omega⟩ : Fin 16)]
     let base := if update then fld entry 0 13 else fld k.p[0] 16 13
     let count := if update then fld entry 16 14 else fld k.p[0] 32 14
     let op := if update then 0x08 else 0x05
     let new : Task := { Task.reset with
       code := packFlds [(0, 13, base), (16, 14, count), (32, 1, 1)]
       state := .running, bound := setFld k.p[1] 59 1 1, region := setFld k.p[2] 32 1 1, mwin := setFld k.p[3] 40 1 1, arg := k.p[5]
       startsAt := tick b + 1 }
     ∀ t : Fin 4, (if update then t = 0 ∧ qs = allQuires else t.val = fld k.p[0] 10 2 ∧ namedQuires k.p[0] = some qs) →
       Starts s r op k → b.still → b.bind.loaded ≠ 0 → 1 ≤ count → base + count ≤ 8192 →
       fld k.p[1] 0 10 + fld k.p[1] 10 11 ≤ 1024 → fld k.p[1] 21 9 + fld k.p[1] 30 10 ≤ 512 → fld k.p[1] 40 9 + fld k.p[1] 49 10 ≤ 512 →
       fld k.p[2] 0 14 + fld k.p[2] 16 14 ≤ 8192 → fld k.p[3] 0 20 + fld k.p[3] 20 20 ≤ 786432 →
       (∀ q ∈ qs, (b.quires[q]).seq.tasks[t].live = false ∧ regionOpen b q = false ∧ overlapsOf b.quires[q] t new = []) →
       topologyShort b = false → (bit b.con.debugCtl 0 = true → 5 ≤ b.clk.current) →
       ∃ a, exec (if update then .runUpdate r k else .startTask r k) s =
           .next (withCommand s a { commandOf s r op k none with quires := qs.map (·.val), task := t })
         ∧ (∀ q ∈ qs, (a.quires[q]).seq.tasks[t] = new ∧ (a.quires[q]).mem =
             (if update ∧ (b.quires[q]).upd.shadowValid = true then { (b.quires[q]).mem with descActive := (b.quires[q]).mem.descShadow }
              else (b.quires[q]).mem)
           ∧ (t = 0 → (a.quires[q]).seq.inRun = false ∧ (a.quires[q]).seq.lc = 0 ∧ (a.quires[q]).seq.seed = k.p[4]
             ∧ (a.quires[q]).seq.adv = 0 ∧ (a.quires[q]).bwd.keepActive = (b.quires[q]).bwd.keepNext ∧ (a.quires[q]).rstop.pass = false)
           ∧ (update = true → (a.quires[q]).upd.sumA = 0 ∧ (a.quires[q]).upd.sumB = 0 ∧ (a.quires[q]).upd.shadowValid = false
             ∧ ((b.quires[q]).upd.shadowValid = true → (a.quires[q]).upd.stepActive = (b.quires[q]).upd.stepShadow))
           ∧ (a.quires[q]).ledger = (b.quires[q]).ledger)
         ∧ (∀ q : Fin 64, q ∉ qs → a.quires[q] = b.quires[q])
         ∧ (t = 0 → a.con = { b.con with
               debugActive := b.con.debugCtl
               xbLate := Vector.ofFn (fun i : Fin 32 => if bufferOwnerOf b i ∈ qs then [] else b.con.xbLate[i]) })
         ∧ (t ≠ 0 → a.con = b.con)
         ∧ (∀ p : Fin 26, a.ports[p] = if t = 0 ∧ ∃ q ∈ qs, b.ports[p].recvQuire = q.val then
               { b.ports[p] with landedReady := b.ports[p].landedReady.map (fun _ => 0) } else b.ports[p])
         ∧ a.clk = b.clk ∧ a.bind = b.bind ∧ a.links = b.links)
  ∧ (∀ (s : State) (r : Fin 4) (k : Packet) (qs : List (Fin 64)) (t : Fin 4),
       let b := workState s r (goesFirst 0x06 k)
       Starts s r 0x06 k → namedQuires k.p[0] = some qs → t.val = fld k.p[0] 10 2 →
         ((∀ q ∈ qs, (b.quires[q]).seq.tasks[t].live = false) →
           exec (.abortTask r k) s = .next (Ended s b (commandOf s r 0x06 k none) 0x05 0 0))
         ∧ ((∃ q ∈ qs, (b.quires[q]).seq.tasks[t].live = true) →
           ∃ a, exec (.abortTask r k) s = .next (Ended s a (commandOf s r 0x06 k none) 0 0 0)
             ∧ (∀ q ∈ qs, (b.quires[q]).seq.tasks[t].live = true →
               let tk := (a.quires[q]).seq.tasks[t]
               tk.state = .stopped ∧ tk.pc = (b.quires[q]).seq.tasks[t].pc ∧ bit tk.code 32 = false ∧ bit tk.bound 59 = false
               ∧ bit tk.region 32 = false ∧ bit tk.mwin 40 = false
               ∧ (∀ l ∈ (a.quires[q]).stream.landings, l.task ≠ t) ∧ (t = 0 → (a.quires[q]).seq.inRun = false)
               ∧ (∀ x : Fin 4, x ≠ t → (a.quires[q]).seq.tasks[x] = (b.quires[q]).seq.tasks[x]) ∧ (a.quires[q]).mem = (b.quires[q]).mem)
             ∧ (∀ q : Fin 64, q ∉ qs ∨ (b.quires[q]).seq.tasks[t].live = false → a.quires[q] = b.quires[q])
             ∧ a.clk = b.clk ∧ a.con = b.con ∧ a.links = b.links ∧ a.endpapers = b.endpapers))

/-- SET_OPERATING_POINT: the checks of R344 in their order, each with its status; else the change is pending until its kettle count.
RESET_COMPUTE: every raised fault has reached the latch before (R447 R481), every task is aborted, index 5 set 64 ticks ahead,
RESET reads 1 (R353 R471).
Readings of the model: log entries 10, 27. -/
def Obligations.ClockCommands : Prop :=
  ∀ (s : State) (r : Fin 4) (k : Packet),
    let b := workState s r
    let target := fld k.p[0] 0 3
    let kettle := k.p[1].toNat
    let fails := fun st => exec (.setOperatingPoint r k) s = .next (Ended s b (commandOf s r 0x0B k none) st 0 0)
    (Starts s r 0x0B k →
      if target = 7 ∨ target < b.clk.cap then fails 0x03
      else if target < 5 ∧ bit b.con.debugCtl 0 = true then fails 0x03
      else if kettle < tick b + 64 ∨ tick b + 1000000 < kettle then fails 0x03
      else if b.clk.source ≠ 0 then fails 0x09
      else if b.clk.opPending = true then fails 0x04
      else exec (.setOperatingPoint r k) s = .next (withCommand s
        { b with clk := { b.clk with target := target, opPending := true, kettle := k.p[1] } } (commandOf s r 0x0B k none)))
    ∧ (Starts s r 0x0E k → ∃ a, exec (.resetCompute r k) s = .next (withCommand s a (commandOf s r 0x0E k none))
      ∧ (∀ (q : Fin 64) (t : Fin 4), (a.quires[q]).seq.tasks[t].live = false) ∧ (∀ q : Fin 64, (a.quires[q]).mem = (b.quires[q]).mem)
      ∧ a.clk = { b.clk with target := 5, opPending := true, kettle := BitVec.ofNat 64 (tick b + 64) }
      ∧ a.bind.formerIndex = (if b.clk.opPending then b.clk.target else b.clk.current) ∧ a.bind.resetTick = some (tick b)
      ∧ a.bind.raised = [] ∧ (b.bind.raised ≠ [] → a.bind.latch = true)
      ∧ (b.bind.raised = [] → a.host = { b.host with resetBit := true } ∧ a.links = b.links)
      ∧ a.host.resetBit = true ∧ a.endpapers = b.endpapers ∧ a.con = b.con)

/-- SET_TOPOLOGY with a legal descriptor while no task 0 runs: every message for a link is dropped and counted, the ports are mapped as
the descriptor says, and on every link that is up the identity stage runs, SEQ and credit 0, this end's report sent (R382 R386
R387); the command waits for the links, no link required (R380); its wait ends COMPLETE with the topology in force, or after
100,000 ticks with TOPOLOGY_MISMATCH and none.
Readings of the model: log entries 33, 44. -/
def Obligations.TopologyCommand : Prop :=
  (∀ (s : State) (r : Fin 4) (k : Packet),
    let b := workState s r
    let d := readBytes b.far k.p[0].toNat 512
    Starts s r 0x0C k → k.p[0].toNat % 512 = 0 → k.p[0].toNat + 512 ≤ 48 * 2 ^ 30 → topologyOk d = true →
    (∀ q : Fin 64, (b.quires[q]).seq.tasks[0].live = false) → (∀ c ∈ b.bind.cmds, c.opcode ≠ 0x0C) →
    ∃ a, exec (.setTopology r k) s = .next (withCommand s a (commandOf s r 0x0C k none))
      ∧ (∀ p : Fin 26, let w0 := BitVec.ofNat 64 (numAt d (64 + 16 * p.val) 8)
        let w1 := BitVec.ofNat 64 (numAt d (64 + 16 * p.val + 8) 8)
        a.ports[p].phys.toNat = fld w0 0 5 ∧ a.ports[p].width = fld w0 5 2 ∧ a.ports[p].peerPort = fld w0 8 5
        ∧ a.ports[p].peerId.toNat = fld w0 32 32 ∧ a.ports[p].landBase = fld w1 0 20 ∧ a.ports[p].landSize = fld w1 20 12
        ∧ a.ports[p].rx = [] ∧ a.ports[p].tx = [] ∧ a.ports[p].landed = 0 ∧ a.ports[p].credit = 0
        ∧ a.ports[p].drops = b.ports[p].drops + BitVec.ofNat 32 (heldMessages b p))
      ∧ (∀ l : Fin 26, a.links[l].state = b.links[l].state ∧ a.links[l].required = false
        ∧ a.links[l].port.toNat = ((portOn a l).map (·.val)).getD 31
        ∧ (linkIsUp b l = true → a.links[l].unacked = [] ∧ a.links[l].identified = false ∧ a.links[l].txSeq = 0
          ∧ a.links[l].rxSeq = 0 ∧ a.links[l].told = some
            { phys := l.val, deviceId := a.bind.deviceId, port := a.links[l].port.toNat, job := a.bind.job }))
      ∧ (∀ q : Fin 64, ∀ o ∈ (a.quires[q]).stream.writes, o.far ≠ 2)
      ∧ a.bind.job = BitVec.ofNat 64 (numAt d 8 4) ∧ a.bind.deviceId = BitVec.ofNat 32 (numAt d 4 4) ∧ a.bind.topoCmdTick = tick b
      ∧ a.far = b.far ∧ a.clk = b.clk ∧ a.con = b.con ∧ a.host = b.host)
  ∧ ∀ (s : State) (c : Cmd), s.pwr.powered = true → firmwareRuns s = true → s.bind.cmds = [c] → c.opcode = 0x0C → c.st = .running →
    s.bind.topoCmdTick + 100000 ≤ tick s → ∃ u, exec .topologyWaitExpiry s = .next u
      ∧ u.bind.topoLoaded = topologyMet s
      ∧ u.bind.cmds = [{ c with st := .done (if topologyMet s then 0 else 0x08) 0 0, doneAt := s.bind.doneCount }]
      ∧ (topologyMet s = true → u.ports = s.ports ∧ ∀ l : Fin 26,
          (u.links[l].required = true ↔ ∃ p : Fin 26, portOn s l = some p ∧ s.ports[p].width ≠ 0)
          ∧ { u.links[l] with required := s.links[l].required } = s.links[l])
      ∧ (topologyMet s = false → (∀ p : Fin 26, u.ports[p].phys = 31) ∧ ∀ l : Fin 26, u.links[l].required = false)
      ∧ u.quires = s.quires ∧ u.far = s.far ∧ u.clk = s.clk

/-- LINK_CONTROL: RETRAIN or DISABLE of a required link of a running compute part is BUSY and changes nothing; else RETRAIN trains the
link, DISABLE takes it down, ENABLE ends that and trains it, CLEAR zeroes its ERRORS counters; no link of a held module trains (R22); RESULT0 is LINK.STATUS (R385
R434). A link that does not exist is BAD_PARAMETER.
Readings of the model: log entries 10, 30. -/
def Obligations.LinkControl : Prop :=
  ∀ (s : State) (r : Fin 4) (k : Packet), Starts s r 0x0D k →
    let b := workState s r
    let c := commandOf s r 0x0D k none
    let action := fld k.p[0] 8 2
    let i : Instr := match action with
      | 0 => .linkControlRetrain r k | 1 => .linkControlDisable r k | 2 => .linkControlEnable r k | _ => .linkControlClear r k
    (26 ≤ fld k.p[0] 0 5 → exec i s = .next (Ended s b c 0x03 0 0))
    ∧ ∀ l : Fin 26, fld k.p[0] 0 5 = l.val →
      let x := b.links[l]
      let ends := fun (p : State → Prop) => ∃ a, exec i s = .next (Ended s a c 0 (linkStatusWord a l) 0) ∧ p a
        ∧ (∀ y : Fin 26, y ≠ l → a.links[y] = b.links[y]) ∧ a.quires = b.quires ∧ a.far = b.far ∧ a.clk = b.clk
      (action ≤ 1 → x.required = true → computeRuns b = true → exec i s = .next (Ended s b c 0x04 0 0))
      ∧ (action = 0 → (x.required = false ∨ computeRuns b = false) → bandOn b l = true → b.clk.present = true → b.bind.held = false →
          x.disabled = false → x.state ≠ 1 → ends (fun a => a.links[l].state = 1 ∧ a.links[l].retrains = x.retrains + 1))
      ∧ (action = 1 → (x.required = false ∨ computeRuns b = false) → ends (fun a => a.links[l].state = 3 ∧ a.links[l].disabled = true
          ∧ a.links[l].width = 0))
      ∧ (action = 2 → bandOn b l = true → b.clk.present = true → b.bind.held = false → x.state ≠ 1 →
          ends (fun a => a.links[l].state = 1 ∧ a.links[l].disabled = false ∧ a.links[l].retrains = x.retrains + 1))
      ∧ (action = 3 → ends (fun a => a.links[l] = { x with corrected := 0, replays := 0, uncorr := 0 } ∧ a.ports = b.ports))

/-- COMMAND_COMPLETION posts the status packet of the command of the ring that was done first: 32 bytes at STS_PROD with the phase bit
of the pass, STS_PROD advanced, the ring's bell rung at the host (R428 R429 R431). TASK_COMPLETION ends a start whose task has
ended on every named quire (R436); FENCED_COMMAND_START starts a waiting command that nothing holds back (R429).
Readings of the model: log entry 10. -/
def Obligations.CommandsEnd : Prop :=
  ∀ (s : State) (r : Fin 4) (c : Cmd) (rest : List Cmd), firmwareRuns s = true → s.bind.cmds = c :: rest → c.ring = r →
    (∀ (st : Nat) (r0 r1 : Word), c.st = .done st r0 r1 → c.mute = false → bit s.host.ringCfg[r] 0 = true → c.opcode ≠ 0x07 →
      (∀ d ∈ rest, d.doneAt > c.doneAt ∨ d.ring ≠ r) → opcodeRuns s 0x0C = false →
      let size := 2 ^ fld s.host.ringCfg[r] 4 4
      let prod := fld s.host.ringPtr[r] 32 16
      let at' := fld s.host.ringCfg[r] 32 24 * 4096 + 32 * (prod % size)
      ∃ u, exec (.commandCompletion r) s = .next u ∧ u.bind = { s.bind with cmds := rest }
        ∧ readBytes u.far at' 32 = bytesLE 2 c.pkt.tag.toNat ++ bytesLE 1 c.opcode ++ bytesLE 1 st ++ bytesLE 4 (1 - prod / size % 2)
            ++ bytesLE 8 (tick s) ++ bytesLE 8 r0.toNat ++ bytesLE 8 r1.toNat
        ∧ (∀ a, a < at' ∨ at' + 32 ≤ a → readByte u.far a = readByte s.far a)
        ∧ fld u.host.ringPtr[r] 32 16 = (prod + 1) % 65536 ∧ fld u.host.ringPtr[r] 16 16 = fld s.host.ringPtr[r] 16 16
        ∧ u.host.dbOut = s.host.dbOut ||| (1#32 <<< r.val) ∧ u.quires = s.quires ∧ u.clk = s.clk ∧ u.ports = s.ports)
    ∧ (∀ (r0 r1 : Word), c.st = .done 0 r0 r1 → c.mute = false → bit s.host.ringCfg[r] 0 = true → c.opcode = 0x07 → rest = [] →
      ∃ u, exec (.commandCompletion r) s = .next u ∧ u.bind.cmds = []
        ∧ ∀ q : Fin 64, u.quires[q] = { s.quires[q] with
            upd := { (s.quires[q]).upd with loading := false, shadowValid := true, stepShadow := c.pkt.p[0] } })
    ∧ (c.st = .running → (c.opcode = 0x05 ∨ c.opcode = 0x08) → c.quires = [] → (∀ d ∈ rest, d.pkt.tag ≠ c.pkt.tag ∨ d.ring ≠ r) →
      exec (.taskCompletion r c.pkt.tag) s = .next { s with bind := { s.bind with
        doneCount := s.bind.doneCount + 1
        cmds := { c with
          st := .done (if c.faulted then 0x0E else if c.stopped ≠ 0 then 0x0D else 0x00) c.stopped (BitVec.ofNat 64 c.maxLc)
          doneAt := s.bind.doneCount } :: rest } })
    ∧ (c.st = .waiting → (∀ d ∈ rest, d.ring ≠ r) → c.opcode = 0x00 → firstCheck s 0x00 r c.pkt = none →
      let b := catchUp { s with bind := { s.bind with cmds := rest } }
      exec (.fencedCommandStart r) s = .next { b with bind := { b.bind with
        doneCount := b.bind.doneCount + 1, cmds := { c with st := .done 0 0 0, doneAt := b.bind.doneCount } :: b.bind.cmds } })

end
end

