-- ==== Sys2Proof/Laws/Beats.lean ====
section
/-! SUPPORT. What a write of far memory does beside the reads in flight, and what a read brings (R180 R193 R419). -/

namespace Sys2Proof.Machine

/-- A read in flight takes beats: nothing but its landing and the count of free values changes. -/
theorem fetchBeats_frame (a n : Nat) (s : State) (q : Fin 64) (i : Nat) :
    { fetchBeats a n s q i with quires := s.quires, free := s.free } = s := by
  unfold fetchBeats
  split
  · rfl
  · dsimp only
    split <;> rfl

/-- Over a list of reads. -/
theorem foldl_frame {α : Type} {f : State → α → State} (hf : ∀ s x, { f s x with quires := s.quires, free := s.free } = s)
    (l : List α) : ∀ s : State, { l.foldl f s with quires := s.quires, free := s.free } = s := by
  induction l with
  | nil => exact fun s => rfl
  | cons x l ih =>
    intro s
    have h1 := ih (f s x)
    have h2 := hf s x
    calc { l.foldl f (f s x) with quires := s.quires, free := s.free }
        = { { l.foldl f (f s x) with quires := (f s x).quires, free := (f s x).free } with quires := s.quires, free := s.free } := rfl
      _ = { f s x with quires := s.quires, free := s.free } := by rw [h1]
      _ = s := h2

/-- A write beside reads in flight writes its bytes; it changes nothing else but landings and the count of free values. -/
theorem farWriteShared_frame (s : State) (a : Nat) (bs : List Byte) :
    (farWriteShared s a bs).far = writeBytes s.far a bs
      ∧ { farWriteShared s a bs with far := s.far, quires := s.quires, free := s.free } = s := by
  have key : ∀ u : State, { u with quires := s.quires, free := s.free } = s →
      (farWrite u a bs).far = writeBytes s.far a bs ∧ { farWrite u a bs with far := s.far, quires := s.quires, free := s.free } = s :=
    fun u h => by
      have h1 : u.far = s.far := (congrArg State.far h :)
      exact ⟨congrArg (writeBytes · a bs) h1, (congrArg (fun x : State => { x with far := s.far }) h :)⟩
  exact key _ (foldl_frame (fun s q => foldl_frame (fun s i => fetchBeats_frame a bs.length s q i) _ s) allQuires s)

/-- A read of far memory brings the bytes of its range, where no write that is on its way meets it and nothing of it has been
read before (R176 R426). -/
theorem farRead_settled {s : State} {a n : Nat} (h : beatsOnTheWay s a n = []) :
    farRead s [] a n = (readBytes s.far a n, s) := by
  simp [farRead, h, pickBeats, putBeats]

end Sys2Proof.Machine
end

