-- ==== Sys2Proof/Laws/State.lean ====
section
/-! SUPPORT. What each named update of the state leaves and changes, field by field. -/

namespace Sys2Proof.Machine

/-! ## Updates of one quire -/

theorem updQ_quires_self (s : State) (q : Fin 64) (f : Quire → Quire) : (updQ s q f).quires[q] = f s.quires[q] := by
  simp [updQ]

@[simp] theorem updQ_quires_val (s : State) (q : Fin 64) (f : Quire → Quire) : (updQ s q f).quires[q.val] = f s.quires[q] :=
  updQ_quires_self s q f

theorem updQ_quires_ne (s : State) {q b : Fin 64} (f : Quire → Quire) (h : b ≠ q) : (updQ s q f).quires[b] = s.quires[b] := by
  have hv : q.val ≠ b.val := fun e => h (Fin.ext e.symm)
  simp [updQ, hv]

theorem updQ_quires (s : State) (q b : Fin 64) (f : Quire → Quire) :
    (updQ s q f).quires[b] = if b = q then f s.quires[b] else s.quires[b] := by
  by_cases h : b = q
  · subst h; rw [if_pos rfl, updQ_quires_self]
  · rw [if_neg h, updQ_quires_ne s f h]

theorem updAllQ_quires (s : State) (f : Fin 64 → Quire → Quire) (q : Fin 64) :
    (updAllQ s f).quires[q] = f q s.quires[q] := by
  simp [updAllQ]

@[simp] theorem updAllQ_quires_val (s : State) (f : Fin 64 → Quire → Quire) (q : Fin 64) :
    (updAllQ s f).quires[q.val] = f q s.quires[q] := updAllQ_quires s f q

@[simp] theorem updQ_spine (s : State) (q : Fin 64) (f : Quire → Quire) : (updQ s q f).spine = s.spine := rfl
@[simp] theorem updQ_spineNow (s : State) (q : Fin 64) (f : Quire → Quire) : (updQ s q f).spineNow = s.spineNow := rfl
@[simp] theorem updQ_edgeNow (s : State) (q : Fin 64) (f : Quire → Quire) : (updQ s q f).edgeNow = s.edgeNow := rfl
@[simp] theorem updQ_far (s : State) (q : Fin 64) (f : Quire → Quire) : (updQ s q f).far = s.far := rfl
@[simp] theorem updQ_endpapers (s : State) (q : Fin 64) (f : Quire → Quire) : (updQ s q f).endpapers = s.endpapers := rfl
@[simp] theorem updQ_mcs (s : State) (q : Fin 64) (f : Quire → Quire) : (updQ s q f).mcs = s.mcs := rfl
@[simp] theorem updQ_con (s : State) (q : Fin 64) (f : Quire → Quire) : (updQ s q f).con = s.con := rfl
@[simp] theorem updQ_clk (s : State) (q : Fin 64) (f : Quire → Quire) : (updQ s q f).clk = s.clk := rfl
@[simp] theorem updQ_pwr (s : State) (q : Fin 64) (f : Quire → Quire) : (updQ s q f).pwr = s.pwr := rfl
@[simp] theorem updQ_links (s : State) (q : Fin 64) (f : Quire → Quire) : (updQ s q f).links = s.links := rfl
@[simp] theorem updQ_ports (s : State) (q : Fin 64) (f : Quire → Quire) : (updQ s q f).ports = s.ports := rfl
@[simp] theorem updQ_host (s : State) (q : Fin 64) (f : Quire → Quire) : (updQ s q f).host = s.host := rfl
@[simp] theorem updQ_mbox (s : State) (q : Fin 64) (f : Quire → Quire) : (updQ s q f).mbox = s.mbox := rfl
@[simp] theorem updQ_bind (s : State) (q : Fin 64) (f : Quire → Quire) : (updQ s q f).bind = s.bind := rfl
@[simp] theorem updQ_trace (s : State) (q : Fin 64) (f : Quire → Quire) : (updQ s q f).trace = s.trace := rfl
@[simp] theorem updQ_flash (s : State) (q : Fin 64) (f : Quire → Quire) : (updQ s q f).flash = s.flash := rfl
@[simp] theorem updQ_hostin (s : State) (q : Fin 64) (f : Quire → Quire) : (updQ s q f).hostin = s.hostin := rfl
@[simp] theorem updQ_out (s : State) (q : Fin 64) (f : Quire → Quire) : (updQ s q f).out = s.out := rfl
@[simp] theorem updQ_w1c (s : State) (q : Fin 64) (f : Quire → Quire) : (updQ s q f).w1c = s.w1c := rfl
@[simp] theorem updQ_free (s : State) (q : Fin 64) (f : Quire → Quire) : (updQ s q f).free = s.free := rfl
@[simp] theorem updQ_pending (s : State) (q : Fin 64) (f : Quire → Quire) : (updQ s q f).pending = s.pending := rfl

/-! ## Updates of every quire -/

@[simp] theorem updAllQ_spine (s : State) (f : Fin 64 → Quire → Quire) : (updAllQ s f).spine = s.spine := by simp only [updAllQ]
@[simp] theorem updAllQ_spineNow (s : State) (f : Fin 64 → Quire → Quire) : (updAllQ s f).spineNow = s.spineNow := by simp only [updAllQ]
@[simp] theorem updAllQ_edgeNow (s : State) (f : Fin 64 → Quire → Quire) : (updAllQ s f).edgeNow = s.edgeNow := by simp only [updAllQ]
@[simp] theorem updAllQ_far (s : State) (f : Fin 64 → Quire → Quire) : (updAllQ s f).far = s.far := by simp only [updAllQ]
@[simp] theorem updAllQ_endpapers (s : State) (f : Fin 64 → Quire → Quire) : (updAllQ s f).endpapers = s.endpapers := by simp only [updAllQ]
@[simp] theorem updAllQ_mcs (s : State) (f : Fin 64 → Quire → Quire) : (updAllQ s f).mcs = s.mcs := by simp only [updAllQ]
@[simp] theorem updAllQ_con (s : State) (f : Fin 64 → Quire → Quire) : (updAllQ s f).con = s.con := by simp only [updAllQ]
@[simp] theorem updAllQ_clk (s : State) (f : Fin 64 → Quire → Quire) : (updAllQ s f).clk = s.clk := by simp only [updAllQ]
@[simp] theorem updAllQ_pwr (s : State) (f : Fin 64 → Quire → Quire) : (updAllQ s f).pwr = s.pwr := by simp only [updAllQ]
@[simp] theorem updAllQ_links (s : State) (f : Fin 64 → Quire → Quire) : (updAllQ s f).links = s.links := by simp only [updAllQ]
@[simp] theorem updAllQ_ports (s : State) (f : Fin 64 → Quire → Quire) : (updAllQ s f).ports = s.ports := by simp only [updAllQ]
@[simp] theorem updAllQ_host (s : State) (f : Fin 64 → Quire → Quire) : (updAllQ s f).host = s.host := by simp only [updAllQ]
@[simp] theorem updAllQ_mbox (s : State) (f : Fin 64 → Quire → Quire) : (updAllQ s f).mbox = s.mbox := by simp only [updAllQ]
@[simp] theorem updAllQ_bind (s : State) (f : Fin 64 → Quire → Quire) : (updAllQ s f).bind = s.bind := by simp only [updAllQ]
@[simp] theorem updAllQ_trace (s : State) (f : Fin 64 → Quire → Quire) : (updAllQ s f).trace = s.trace := by simp only [updAllQ]
@[simp] theorem updAllQ_flash (s : State) (f : Fin 64 → Quire → Quire) : (updAllQ s f).flash = s.flash := by simp only [updAllQ]
@[simp] theorem updAllQ_hostin (s : State) (f : Fin 64 → Quire → Quire) : (updAllQ s f).hostin = s.hostin := by simp only [updAllQ]
@[simp] theorem updAllQ_out (s : State) (f : Fin 64 → Quire → Quire) : (updAllQ s f).out = s.out := by simp only [updAllQ]
@[simp] theorem updAllQ_w1c (s : State) (f : Fin 64 → Quire → Quire) : (updAllQ s f).w1c = s.w1c := by simp only [updAllQ]
@[simp] theorem updAllQ_free (s : State) (f : Fin 64 → Quire → Quire) : (updAllQ s f).free = s.free := by simp only [updAllQ]
@[simp] theorem updAllQ_pending (s : State) (f : Fin 64 → Quire → Quire) : (updAllQ s f).pending = s.pending := by simp only [updAllQ]

/-! ## Updates of a task context -/

@[simp] theorem updT_spine (s : State) (q : Fin 64) (t : Fin 4) (f : Task → Task) : (updT s q t f).spine = s.spine := updQ_spine s q _
@[simp] theorem updT_spineNow (s : State) (q : Fin 64) (t : Fin 4) (f : Task → Task) : (updT s q t f).spineNow = s.spineNow := updQ_spineNow s q _
@[simp] theorem updT_edgeNow (s : State) (q : Fin 64) (t : Fin 4) (f : Task → Task) : (updT s q t f).edgeNow = s.edgeNow := updQ_edgeNow s q _
@[simp] theorem updT_far (s : State) (q : Fin 64) (t : Fin 4) (f : Task → Task) : (updT s q t f).far = s.far := updQ_far s q _
@[simp] theorem updT_endpapers (s : State) (q : Fin 64) (t : Fin 4) (f : Task → Task) : (updT s q t f).endpapers = s.endpapers := updQ_endpapers s q _
@[simp] theorem updT_mcs (s : State) (q : Fin 64) (t : Fin 4) (f : Task → Task) : (updT s q t f).mcs = s.mcs := updQ_mcs s q _
@[simp] theorem updT_con (s : State) (q : Fin 64) (t : Fin 4) (f : Task → Task) : (updT s q t f).con = s.con := updQ_con s q _
@[simp] theorem updT_clk (s : State) (q : Fin 64) (t : Fin 4) (f : Task → Task) : (updT s q t f).clk = s.clk := updQ_clk s q _
@[simp] theorem updT_pwr (s : State) (q : Fin 64) (t : Fin 4) (f : Task → Task) : (updT s q t f).pwr = s.pwr := updQ_pwr s q _
@[simp] theorem updT_links (s : State) (q : Fin 64) (t : Fin 4) (f : Task → Task) : (updT s q t f).links = s.links := updQ_links s q _
@[simp] theorem updT_ports (s : State) (q : Fin 64) (t : Fin 4) (f : Task → Task) : (updT s q t f).ports = s.ports := updQ_ports s q _
@[simp] theorem updT_host (s : State) (q : Fin 64) (t : Fin 4) (f : Task → Task) : (updT s q t f).host = s.host := updQ_host s q _
@[simp] theorem updT_mbox (s : State) (q : Fin 64) (t : Fin 4) (f : Task → Task) : (updT s q t f).mbox = s.mbox := updQ_mbox s q _
@[simp] theorem updT_bind (s : State) (q : Fin 64) (t : Fin 4) (f : Task → Task) : (updT s q t f).bind = s.bind := updQ_bind s q _
@[simp] theorem updT_trace (s : State) (q : Fin 64) (t : Fin 4) (f : Task → Task) : (updT s q t f).trace = s.trace := updQ_trace s q _
@[simp] theorem updT_flash (s : State) (q : Fin 64) (t : Fin 4) (f : Task → Task) : (updT s q t f).flash = s.flash := updQ_flash s q _
@[simp] theorem updT_hostin (s : State) (q : Fin 64) (t : Fin 4) (f : Task → Task) : (updT s q t f).hostin = s.hostin := updQ_hostin s q _
@[simp] theorem updT_out (s : State) (q : Fin 64) (t : Fin 4) (f : Task → Task) : (updT s q t f).out = s.out := updQ_out s q _
@[simp] theorem updT_w1c (s : State) (q : Fin 64) (t : Fin 4) (f : Task → Task) : (updT s q t f).w1c = s.w1c := updQ_w1c s q _
@[simp] theorem updT_free (s : State) (q : Fin 64) (t : Fin 4) (f : Task → Task) : (updT s q t f).free = s.free := updQ_free s q _
@[simp] theorem updT_pending (s : State) (q : Fin 64) (t : Fin 4) (f : Task → Task) : (updT s q t f).pending = s.pending := updQ_pending s q _

theorem updT_quires_self (s : State) (q : Fin 64) (t : Fin 4) (f : Task → Task) :
    (updT s q t f).quires[q] = updTask s.quires[q] t f := updQ_quires_self s q _

@[simp] theorem updT_quires_val (s : State) (q : Fin 64) (t : Fin 4) (f : Task → Task) :
    (updT s q t f).quires[q.val] = updTask s.quires[q] t f := updQ_quires_self s q _

theorem updT_quires_ne (s : State) {q b : Fin 64} (t : Fin 4) (f : Task → Task) (h : b ≠ q) :
    (updT s q t f).quires[b] = s.quires[b] := updQ_quires_ne s _ h

theorem updTask_task_self (qr : Quire) (t : Fin 4) (f : Task → Task) :
    (updTask qr t f).seq.tasks[t] = f qr.seq.tasks[t] := by
  simp [updTask]

@[simp] theorem updTask_task_val (qr : Quire) (t : Fin 4) (f : Task → Task) :
    (updTask qr t f).seq.tasks[t.val] = f qr.seq.tasks[t] := updTask_task_self qr t f

theorem updTask_task_ne (qr : Quire) {t k : Fin 4} (f : Task → Task) (h : k ≠ t) :
    (updTask qr t f).seq.tasks[k] = qr.seq.tasks[k] := by
  have hv : t.val ≠ k.val := fun e => h (Fin.ext e.symm)
  simp [updTask, hv]

@[simp] theorem updTask_mem (qr : Quire) (t : Fin 4) (f : Task → Task) : (updTask qr t f).mem = qr.mem := rfl
@[simp] theorem updTask_array (qr : Quire) (t : Fin 4) (f : Task → Task) : (updTask qr t f).array = qr.array := rfl
@[simp] theorem updTask_rstop (qr : Quire) (t : Fin 4) (f : Task → Task) : (updTask qr t f).rstop = qr.rstop := rfl
@[simp] theorem updTask_bank (qr : Quire) (t : Fin 4) (f : Task → Task) : (updTask qr t f).bank = qr.bank := rfl
@[simp] theorem updTask_stream (qr : Quire) (t : Fin 4) (f : Task → Task) : (updTask qr t f).stream = qr.stream := rfl
@[simp] theorem updTask_vec (qr : Quire) (t : Fin 4) (f : Task → Task) : (updTask qr t f).vec = qr.vec := rfl
@[simp] theorem updTask_bwd (qr : Quire) (t : Fin 4) (f : Task → Task) : (updTask qr t f).bwd = qr.bwd := rfl
@[simp] theorem updTask_upd (qr : Quire) (t : Fin 4) (f : Task → Task) : (updTask qr t f).upd = qr.upd := rfl
@[simp] theorem updTask_hazInfo (qr : Quire) (t : Fin 4) (f : Task → Task) : (updTask qr t f).hazInfo = qr.hazInfo := rfl
@[simp] theorem updTask_hazCount (qr : Quire) (t : Fin 4) (f : Task → Task) : (updTask qr t f).hazCount = qr.hazCount := rfl
@[simp] theorem updTask_idleIssue (qr : Quire) (t : Fin 4) (f : Task → Task) : (updTask qr t f).idleIssue = qr.idleIssue := rfl
@[simp] theorem updTask_idleCause (qr : Quire) (t : Fin 4) (f : Task → Task) : (updTask qr t f).idleCause = qr.idleCause := rfl
@[simp] theorem updTask_ledger (qr : Quire) (t : Fin 4) (f : Task → Task) : (updTask qr t f).ledger = qr.ledger := rfl
@[simp] theorem updTask_claims (qr : Quire) (t : Fin 4) (f : Task → Task) : (updTask qr t f).claims = qr.claims := rfl
@[simp] theorem updTask_ports (qr : Quire) (t : Fin 4) (f : Task → Task) : (updTask qr t f).ports = qr.ports := rfl
@[simp] theorem updTask_flight (qr : Quire) (t : Fin 4) (f : Task → Task) : (updTask qr t f).flight = qr.flight := rfl
@[simp] theorem updTask_spineOff (qr : Quire) (t : Fin 4) (f : Task → Task) : (updTask qr t f).spineOff = qr.spineOff := rfl
@[simp] theorem updTask_edgeOff (qr : Quire) (t : Fin 4) (f : Task → Task) : (updTask qr t f).edgeOff = qr.edgeOff := rfl
@[simp] theorem updTask_upsets (qr : Quire) (t : Fin 4) (f : Task → Task) : (updTask qr t f).upsets = qr.upsets := rfl
@[simp] theorem updTask_qmask (qr : Quire) (t : Fin 4) (f : Task → Task) : (updTask qr t f).qmask = qr.qmask := rfl
@[simp] theorem updTask_qflag (qr : Quire) (t : Fin 4) (f : Task → Task) : (updTask qr t f).qflag = qr.qflag := rfl
@[simp] theorem updTask_dbToQuire (qr : Quire) (t : Fin 4) (f : Task → Task) : (updTask qr t f).dbToQuire = qr.dbToQuire := rfl
@[simp] theorem updTask_dbFromQuire (qr : Quire) (t : Fin 4) (f : Task → Task) : (updTask qr t f).dbFromQuire = qr.dbFromQuire := rfl
@[simp] theorem updTask_dbToSince (qr : Quire) (t : Fin 4) (f : Task → Task) : (updTask qr t f).dbToSince = qr.dbToSince := rfl
@[simp] theorem updTask_dbFromSince (qr : Quire) (t : Fin 4) (f : Task → Task) : (updTask qr t f).dbFromSince = qr.dbFromSince := rfl
@[simp] theorem updTask_seq_issued (qr : Quire) (t : Fin 4) (f : Task → Task) : (updTask qr t f).seq.issued = qr.seq.issued := rfl
@[simp] theorem updTask_seq_fault (qr : Quire) (t : Fin 4) (f : Task → Task) : (updTask qr t f).seq.fault = qr.seq.fault := rfl
@[simp] theorem updTask_seq_inRun (qr : Quire) (t : Fin 4) (f : Task → Task) : (updTask qr t f).seq.inRun = qr.seq.inRun := rfl
@[simp] theorem updTask_seq_lc (qr : Quire) (t : Fin 4) (f : Task → Task) : (updTask qr t f).seq.lc = qr.seq.lc := rfl
@[simp] theorem updTask_seq_winEnd (qr : Quire) (t : Fin 4) (f : Task → Task) : (updTask qr t f).seq.winEnd = qr.seq.winEnd := rfl
@[simp] theorem updTask_seq_rot (qr : Quire) (t : Fin 4) (f : Task → Task) : (updTask qr t f).seq.rot = qr.seq.rot := rfl
@[simp] theorem updTask_seq_seed (qr : Quire) (t : Fin 4) (f : Task → Task) : (updTask qr t f).seq.seed = qr.seq.seed := rfl
@[simp] theorem updTask_seq_adv (qr : Quire) (t : Fin 4) (f : Task → Task) : (updTask qr t f).seq.adv = qr.seq.adv := rfl

/-! ## Idle causes -/

@[simp] theorem bookIdle_mem (qr : Quire) (cause n : Nat) : (bookIdle qr cause n).mem = qr.mem := rfl
@[simp] theorem bookIdle_array (qr : Quire) (cause n : Nat) : (bookIdle qr cause n).array = qr.array := rfl
@[simp] theorem bookIdle_rstop (qr : Quire) (cause n : Nat) : (bookIdle qr cause n).rstop = qr.rstop := rfl
@[simp] theorem bookIdle_bank (qr : Quire) (cause n : Nat) : (bookIdle qr cause n).bank = qr.bank := rfl
@[simp] theorem bookIdle_stream (qr : Quire) (cause n : Nat) : (bookIdle qr cause n).stream = qr.stream := rfl
@[simp] theorem bookIdle_vec (qr : Quire) (cause n : Nat) : (bookIdle qr cause n).vec = qr.vec := rfl
@[simp] theorem bookIdle_bwd (qr : Quire) (cause n : Nat) : (bookIdle qr cause n).bwd = qr.bwd := rfl
@[simp] theorem bookIdle_upd (qr : Quire) (cause n : Nat) : (bookIdle qr cause n).upd = qr.upd := rfl
@[simp] theorem bookIdle_seq (qr : Quire) (cause n : Nat) : (bookIdle qr cause n).seq = qr.seq := rfl
@[simp] theorem bookIdle_hazInfo (qr : Quire) (cause n : Nat) : (bookIdle qr cause n).hazInfo = qr.hazInfo := rfl
@[simp] theorem bookIdle_hazCount (qr : Quire) (cause n : Nat) : (bookIdle qr cause n).hazCount = qr.hazCount := rfl
@[simp] theorem bookIdle_idleIssue (qr : Quire) (cause n : Nat) : (bookIdle qr cause n).idleIssue = qr.idleIssue := rfl
@[simp] theorem bookIdle_ledger (qr : Quire) (cause n : Nat) : (bookIdle qr cause n).ledger = qr.ledger := rfl
@[simp] theorem bookIdle_claims (qr : Quire) (cause n : Nat) : (bookIdle qr cause n).claims = qr.claims := rfl
@[simp] theorem bookIdle_ports (qr : Quire) (cause n : Nat) : (bookIdle qr cause n).ports = qr.ports := rfl
@[simp] theorem bookIdle_flight (qr : Quire) (cause n : Nat) : (bookIdle qr cause n).flight = qr.flight := rfl
@[simp] theorem bookIdle_spineOff (qr : Quire) (cause n : Nat) : (bookIdle qr cause n).spineOff = qr.spineOff := rfl
@[simp] theorem bookIdle_edgeOff (qr : Quire) (cause n : Nat) : (bookIdle qr cause n).edgeOff = qr.edgeOff := rfl
@[simp] theorem bookIdle_upsets (qr : Quire) (cause n : Nat) : (bookIdle qr cause n).upsets = qr.upsets := rfl
@[simp] theorem bookIdle_qmask (qr : Quire) (cause n : Nat) : (bookIdle qr cause n).qmask = qr.qmask := rfl
@[simp] theorem bookIdle_qflag (qr : Quire) (cause n : Nat) : (bookIdle qr cause n).qflag = qr.qflag := rfl
@[simp] theorem bookIdle_dbToQuire (qr : Quire) (cause n : Nat) : (bookIdle qr cause n).dbToQuire = qr.dbToQuire := rfl
@[simp] theorem bookIdle_dbFromQuire (qr : Quire) (cause n : Nat) : (bookIdle qr cause n).dbFromQuire = qr.dbFromQuire := rfl
@[simp] theorem bookIdle_dbToSince (qr : Quire) (cause n : Nat) : (bookIdle qr cause n).dbToSince = qr.dbToSince := rfl
@[simp] theorem bookIdle_dbFromSince (qr : Quire) (cause n : Nat) : (bookIdle qr cause n).dbFromSince = qr.dbFromSince := rfl

/-! ## Links and ports -/

@[simp] theorem updLink_quires (s : State) (l : Fin 26) (f : Link → Link) : (updLink s l f).quires = s.quires := rfl
@[simp] theorem updLink_spine (s : State) (l : Fin 26) (f : Link → Link) : (updLink s l f).spine = s.spine := rfl
@[simp] theorem updLink_spineNow (s : State) (l : Fin 26) (f : Link → Link) : (updLink s l f).spineNow = s.spineNow := rfl
@[simp] theorem updLink_edgeNow (s : State) (l : Fin 26) (f : Link → Link) : (updLink s l f).edgeNow = s.edgeNow := rfl
@[simp] theorem updLink_far (s : State) (l : Fin 26) (f : Link → Link) : (updLink s l f).far = s.far := rfl
@[simp] theorem updLink_endpapers (s : State) (l : Fin 26) (f : Link → Link) : (updLink s l f).endpapers = s.endpapers := rfl
@[simp] theorem updLink_mcs (s : State) (l : Fin 26) (f : Link → Link) : (updLink s l f).mcs = s.mcs := rfl
@[simp] theorem updLink_con (s : State) (l : Fin 26) (f : Link → Link) : (updLink s l f).con = s.con := rfl
@[simp] theorem updLink_clk (s : State) (l : Fin 26) (f : Link → Link) : (updLink s l f).clk = s.clk := rfl
@[simp] theorem updLink_pwr (s : State) (l : Fin 26) (f : Link → Link) : (updLink s l f).pwr = s.pwr := rfl
@[simp] theorem updLink_ports (s : State) (l : Fin 26) (f : Link → Link) : (updLink s l f).ports = s.ports := rfl
@[simp] theorem updLink_host (s : State) (l : Fin 26) (f : Link → Link) : (updLink s l f).host = s.host := rfl
@[simp] theorem updLink_mbox (s : State) (l : Fin 26) (f : Link → Link) : (updLink s l f).mbox = s.mbox := rfl
@[simp] theorem updLink_bind (s : State) (l : Fin 26) (f : Link → Link) : (updLink s l f).bind = s.bind := rfl
@[simp] theorem updLink_trace (s : State) (l : Fin 26) (f : Link → Link) : (updLink s l f).trace = s.trace := rfl
@[simp] theorem updLink_flash (s : State) (l : Fin 26) (f : Link → Link) : (updLink s l f).flash = s.flash := rfl
@[simp] theorem updLink_hostin (s : State) (l : Fin 26) (f : Link → Link) : (updLink s l f).hostin = s.hostin := rfl
@[simp] theorem updLink_out (s : State) (l : Fin 26) (f : Link → Link) : (updLink s l f).out = s.out := rfl
@[simp] theorem updLink_w1c (s : State) (l : Fin 26) (f : Link → Link) : (updLink s l f).w1c = s.w1c := rfl
@[simp] theorem updLink_free (s : State) (l : Fin 26) (f : Link → Link) : (updLink s l f).free = s.free := rfl
@[simp] theorem updLink_pending (s : State) (l : Fin 26) (f : Link → Link) : (updLink s l f).pending = s.pending := rfl
@[simp] theorem updPort_quires (s : State) (p : Fin 26) (f : Port → Port) : (updPort s p f).quires = s.quires := rfl
@[simp] theorem updPort_spine (s : State) (p : Fin 26) (f : Port → Port) : (updPort s p f).spine = s.spine := rfl
@[simp] theorem updPort_spineNow (s : State) (p : Fin 26) (f : Port → Port) : (updPort s p f).spineNow = s.spineNow := rfl
@[simp] theorem updPort_edgeNow (s : State) (p : Fin 26) (f : Port → Port) : (updPort s p f).edgeNow = s.edgeNow := rfl
@[simp] theorem updPort_far (s : State) (p : Fin 26) (f : Port → Port) : (updPort s p f).far = s.far := rfl
@[simp] theorem updPort_endpapers (s : State) (p : Fin 26) (f : Port → Port) : (updPort s p f).endpapers = s.endpapers := rfl
@[simp] theorem updPort_mcs (s : State) (p : Fin 26) (f : Port → Port) : (updPort s p f).mcs = s.mcs := rfl
@[simp] theorem updPort_con (s : State) (p : Fin 26) (f : Port → Port) : (updPort s p f).con = s.con := rfl
@[simp] theorem updPort_clk (s : State) (p : Fin 26) (f : Port → Port) : (updPort s p f).clk = s.clk := rfl
@[simp] theorem updPort_pwr (s : State) (p : Fin 26) (f : Port → Port) : (updPort s p f).pwr = s.pwr := rfl
@[simp] theorem updPort_links (s : State) (p : Fin 26) (f : Port → Port) : (updPort s p f).links = s.links := rfl
@[simp] theorem updPort_host (s : State) (p : Fin 26) (f : Port → Port) : (updPort s p f).host = s.host := rfl
@[simp] theorem updPort_mbox (s : State) (p : Fin 26) (f : Port → Port) : (updPort s p f).mbox = s.mbox := rfl
@[simp] theorem updPort_bind (s : State) (p : Fin 26) (f : Port → Port) : (updPort s p f).bind = s.bind := rfl
@[simp] theorem updPort_trace (s : State) (p : Fin 26) (f : Port → Port) : (updPort s p f).trace = s.trace := rfl
@[simp] theorem updPort_flash (s : State) (p : Fin 26) (f : Port → Port) : (updPort s p f).flash = s.flash := rfl
@[simp] theorem updPort_hostin (s : State) (p : Fin 26) (f : Port → Port) : (updPort s p f).hostin = s.hostin := rfl
@[simp] theorem updPort_out (s : State) (p : Fin 26) (f : Port → Port) : (updPort s p f).out = s.out := rfl
@[simp] theorem updPort_w1c (s : State) (p : Fin 26) (f : Port → Port) : (updPort s p f).w1c = s.w1c := rfl
@[simp] theorem updPort_free (s : State) (p : Fin 26) (f : Port → Port) : (updPort s p f).free = s.free := rfl
@[simp] theorem updPort_pending (s : State) (p : Fin 26) (f : Port → Port) : (updPort s p f).pending = s.pending := rfl

theorem updLink_links_self (s : State) (l : Fin 26) (f : Link → Link) : (updLink s l f).links[l] = f s.links[l] := by
  simp [updLink]

@[simp] theorem updLink_links_val (s : State) (l : Fin 26) (f : Link → Link) : (updLink s l f).links[l.val] = f s.links[l] :=
  updLink_links_self s l f

theorem updLink_links_ne (s : State) {l k : Fin 26} (f : Link → Link) (h : k ≠ l) : (updLink s l f).links[k] = s.links[k] := by
  have hv : l.val ≠ k.val := fun e => h (Fin.ext e.symm)
  simp [updLink, hv]

theorem updPort_ports_self (s : State) (p : Fin 26) (f : Port → Port) : (updPort s p f).ports[p] = f s.ports[p] := by
  simp [updPort]

@[simp] theorem updPort_ports_val (s : State) (p : Fin 26) (f : Port → Port) : (updPort s p f).ports[p.val] = f s.ports[p] :=
  updPort_ports_self s p f

theorem updPort_ports_ne (s : State) {p k : Fin 26} (f : Port → Port) (h : k ≠ p) : (updPort s p f).ports[k] = s.ports[k] := by
  have hv : p.val ≠ k.val := fun e => h (Fin.ext e.symm)
  simp [updPort, hv]

/-! ## Far memory -/

@[simp] theorem farWrite_quires (s : State) (a : Nat) (bs : List Byte) : (farWrite s a bs).quires = s.quires := rfl
@[simp] theorem farWrite_spine (s : State) (a : Nat) (bs : List Byte) : (farWrite s a bs).spine = s.spine := rfl
@[simp] theorem farWrite_spineNow (s : State) (a : Nat) (bs : List Byte) : (farWrite s a bs).spineNow = s.spineNow := rfl
@[simp] theorem farWrite_edgeNow (s : State) (a : Nat) (bs : List Byte) : (farWrite s a bs).edgeNow = s.edgeNow := rfl
@[simp] theorem farWrite_endpapers (s : State) (a : Nat) (bs : List Byte) : (farWrite s a bs).endpapers = s.endpapers := rfl
@[simp] theorem farWrite_mcs (s : State) (a : Nat) (bs : List Byte) : (farWrite s a bs).mcs = s.mcs := rfl
@[simp] theorem farWrite_con (s : State) (a : Nat) (bs : List Byte) : (farWrite s a bs).con = s.con := rfl
@[simp] theorem farWrite_clk (s : State) (a : Nat) (bs : List Byte) : (farWrite s a bs).clk = s.clk := rfl
@[simp] theorem farWrite_pwr (s : State) (a : Nat) (bs : List Byte) : (farWrite s a bs).pwr = s.pwr := rfl
@[simp] theorem farWrite_links (s : State) (a : Nat) (bs : List Byte) : (farWrite s a bs).links = s.links := rfl
@[simp] theorem farWrite_ports (s : State) (a : Nat) (bs : List Byte) : (farWrite s a bs).ports = s.ports := rfl
@[simp] theorem farWrite_host (s : State) (a : Nat) (bs : List Byte) : (farWrite s a bs).host = s.host := rfl
@[simp] theorem farWrite_mbox (s : State) (a : Nat) (bs : List Byte) : (farWrite s a bs).mbox = s.mbox := rfl
@[simp] theorem farWrite_bind (s : State) (a : Nat) (bs : List Byte) : (farWrite s a bs).bind = s.bind := rfl
@[simp] theorem farWrite_trace (s : State) (a : Nat) (bs : List Byte) : (farWrite s a bs).trace = s.trace := rfl
@[simp] theorem farWrite_flash (s : State) (a : Nat) (bs : List Byte) : (farWrite s a bs).flash = s.flash := rfl
@[simp] theorem farWrite_hostin (s : State) (a : Nat) (bs : List Byte) : (farWrite s a bs).hostin = s.hostin := rfl
@[simp] theorem farWrite_out (s : State) (a : Nat) (bs : List Byte) : (farWrite s a bs).out = s.out := rfl
@[simp] theorem farWrite_w1c (s : State) (a : Nat) (bs : List Byte) : (farWrite s a bs).w1c = s.w1c := rfl
@[simp] theorem farWrite_free (s : State) (a : Nat) (bs : List Byte) : (farWrite s a bs).free = s.free := rfl
@[simp] theorem farWrite_pending (s : State) (a : Nat) (bs : List Byte) : (farWrite s a bs).pending = s.pending := rfl

end Sys2Proof.Machine
end

