-- ==== Sys2Proof/Laws/Issue.lean ====
section
/-! SUPPORT. What the issue of an instruction comes to, said once: an instruction with an effect of its own retires with it,
and a quiet module stays as it is up to the issue. -/

namespace Sys2Proof.Machine

/-! ## Nothing in flight -/

theorem headAt_quiet {s : State} (h : s.quiet) (r : Reach) (now : Option Int) (q : Fin 64) : headAt r now s q = none := by
  have hq := h q
  simp only [Fin.getElem_fin] at hq
  simp [headAt, hq]

theorem nextQuire_quiet {s : State} (h : s.quiet) (r : Reach) : nextQuire r s = none := by
  simp only [nextQuire]
  generalize allQuires = l
  induction l with
  | nil => rfl
  | cons a l ih => simpa only [List.foldl_cons, headAt_quiet h] using ih

theorem settleN_quiet {s : State} (h : s.quiet) (r : Reach) (n : Nat) : settleN r n s = s := by
  cases n with
  | zero => rfl
  | succ n => simp only [settleN, nextQuire_quiet h]

/-- With nothing in flight nothing comes about. -/
theorem settle_quiet {s : State} (h : s.quiet) (r : Reach) : settle r s = s := settleN_quiet h r _

theorem arrive_quiet {s : State} (h : s.quiet) (q : Fin 64) (t : Fin 4) : arrive s q t = s := settle_quiet h _

/-! ## The task at its turn -/

theorem passWindow_tasks (n : Nat) (sq : SeqUnit) (f b : Nat) {r : SeqUnit × Nat × Nat} (h : passWindow n sq f b = some r) :
    r.1.tasks = sq.tasks := by
  induction n generalizing sq f with
  | zero => simp only [passWindow, Option.some.injEq] at h; subst h; rfl
  | succ n ih =>
    simp only [passWindow] at h
    split at h
    · simp only [Option.some.injEq] at h; subst h; rfl
    · split at h
      · cases h
      · simpa [afterTurn] using ih _ _ h

theorem seekTurn_tasks (t : Fin 4) (n : Nat) (sq : SeqUnit) (f : Nat) {r : SeqUnit × Nat} (h : seekTurn t n sq f = some r) :
    r.1.tasks = sq.tasks := by
  induction n generalizing sq f with
  | zero => cases h
  | succ n ih =>
    simp only [seekTurn] at h
    split at h
    · cases h
    · split at h
      · simp only [Option.some.injEq] at h; subst h; rfl
      · split at h
        · cases h
        · simpa [afterTurn] using ih _ _ h

/-- Passing turns changes no task context. -/
theorem atTurn_tasks {qr k : Quire} {t : Fin 4} (h : atTurn qr t = some k) : k.seq.tasks = qr.seq.tasks := by
  simp only [atTurn] at h
  split at h
  · obtain ⟨r, hr, rfl⟩ := Option.map_eq_some_iff.1 h
    exact passWindow_tasks _ _ _ _ hr
  · split at h
    · obtain ⟨r, hr, rfl⟩ := Option.map_eq_some_iff.1 h
      exact seekTurn_tasks _ _ _ _ hr
    · cases h

/-- A task whose instruction issues is in its run. -/
theorem Issues.live {s : State} {q : Fin 64} {t : Fin 4} {w : Word} {op : Nat} (h : Issues s q t w op) :
    (issueTask s q t).live = true := by
  obtain ⟨-, h, -⟩ := h
  simp only [canIssue, Bool.and_eq_true, Option.isSome_iff_exists] at h
  obtain ⟨⟨⟨⟨⟨⟨⟨-, -⟩, hr⟩, -⟩, -⟩, ⟨k, hk⟩⟩, -⟩, -⟩ := h
  have ht := atTurn_tasks hk
  have : (issueTask s q t).state = ((arrive s q t).quires[q]).seq.tasks[t].state := by
    simp only [issueTask, issueQuire, issueState, atIssue, updQ_quires_self, hk, Option.getD_some, pruneRuns, pruneCommits, pruneClaims,
      updTask, settleLoads, settleRegs]
    simp [ht]
  simp only [Task.live, this]
  simp only [taskReady, Bool.or_eq_true, Bool.and_eq_true] at hr
  obtain h | ⟨-, h⟩ := hr <;> simp_all

/-! ## The issue -/

/-- What retiring comes to. -/
theorem retired_retire (a : State) (q : Fin 64) (t : Fin 4) (npc : BitVec 14) : Retired a (updQ a q (retire t npc)) q t npc := by
  constructor
  · simp only [updQ_quires_self, retire, updTask, endLc]; split <;> simp [bookIdle, afterTurn]
  · intro k hk
    have hk' : t.val ≠ k.val := fun h => hk (Fin.ext h.symm)
    simp only [updQ_quires_self, retire, updTask, endLc]; split <;> simp [bookIdle, afterTurn, hk']
  · simp only [updQ_quires_self, retire, updTask, endLc]; split <;> simp [bookIdle, afterTurn]
  · simp only [updQ_quires_self, retire, updTask, endLc]; split <;> simp [bookIdle]
  · simp only [updQ_quires_self, retire, updTask, endLc]; split <;> simp [bookIdle]
  · simp only [updQ_quires_self, retire, updTask, endLc]; split <;> simp [bookIdle]
  · intro b hb; exact updQ_quires_ne a _ hb
  · rfl

theorem retire_live (t : Fin 4) (npc : BitVec 14) (qr : Quire) : (retire t npc qr).seq.tasks[t].live = true := by
  simp [retire, updTask, Task.live]

/-- What an instruction that issues comes to: the result of its effect applied in its issue lc, and the rest of that lc where
the task is over. -/
theorem Issues.row {s : State} {q : Fin 64} {t : Fin 4} {w : Word} {op : Nat} (h : Issues s q t w op)
    (body : State → Nat → Res) {u : State}
    (hu : applyRes (issueState s q t) q t w (body (issueState s q t) (issueLc s q t)) = u) :
    issueRow op q t w body s =
      if u.quires[q].seq.tasks[t].live then u else settle (.edge (issueEdge (arrive s q t) q t + 1)) u := by
  subst hu
  obtain ⟨h1, h2, h3⟩ := h
  simp only [issueRow, h1, h2, issueNow, h3, Bool.not_true, Bool.false_eq_true, if_false, if_true]
  rfl

/-- An instruction with an effect of its own retires with it. -/
theorem Issues.done {s s' : State} {q : Fin 64} {t : Fin 4} {w : Word} {op : Nat} (h : Issues s q t w op)
    {body : State → Nat → Res} (hb : body (issueState s q t) (issueLc s q t) = .done s')
    (hl : s'.quires[q].seq.tasks[t].live = true) :
    issueRow op q t w body s = updQ s' q (retire t (nextPc s q t)) := by
  have hf : finish s' q t (nextPc s q t) = updQ s' q (retire t (nextPc s q t)) := if_pos hl
  refine (h.row body (u := updQ s' q (retire t (nextPc s q t))) ?_).trans (if_pos ?_)
  · rw [hb]; exact hf
  · rw [updQ_quires_self]; exact retire_live t _ _

/-- A taken branch retires at its target. -/
theorem Issues.jump {s s' : State} {q : Fin 64} {t : Fin 4} {w : Word} {op n : Nat} (h : Issues s q t w op)
    {body : State → Nat → Res} (hb : body (issueState s q t) (issueLc s q t) = .jump s' n)
    (hl : s'.quires[q].seq.tasks[t].live = true) :
    issueRow op q t w body s = updQ s' q (retire t (BitVec.ofNat 14 n)) := by
  have hf : finish s' q t (BitVec.ofNat 14 n) = updQ s' q (retire t (BitVec.ofNat 14 n)) := if_pos hl
  refine (h.row body (u := updQ s' q (retire t (BitVec.ofNat 14 n))) ?_).trans (if_pos ?_)
  · rw [hb]; exact hf
  · rw [updQ_quires_self]; exact retire_live t _ _

end Sys2Proof.Machine
end

