-- ==== Sys2Proof/Laws/Fault.lean ====
section
/-! SUPPORT. What stopping a quire and a fault at issue come to, said once. -/

namespace Sys2Proof.Machine

/-! ## Trace records -/

theorem tracePut_rest (s : State) (f : Fin 16) (r : List Byte) :
    { tracePut s f r with trace := s.trace, far := s.far, free := s.free } = s := rfl

theorem traceIncident_rest (s : State) (f : Fin 16) (r : List Byte) :
    { traceIncident s f r with trace := s.trace, far := s.far, free := s.free } = s := by
  unfold traceIncident
  split
  · rfl
  · dsimp only
    split
    · rfl
    · split <;> rfl

/-- Tracing changes nothing but the trace block, far memory and the count of free values. -/
theorem traceEvent_rest (s : State) (f : Fin 16) (kind quire task lc : Nat) :
    { traceEvent s f kind quire task lc with trace := s.trace, far := s.far, free := s.free } = s := by
  unfold traceEvent
  split
  · split
    · rfl
    · dsimp only
      have key : ∀ (s' x : State), { s' with free := s.free } = s →
          { x with trace := s'.trace, far := s'.far, free := s'.free } = s' →
          { x with trace := s.trace, far := s.far, free := s.free } = s := by
        intro s' x h h'
        have e1 : s'.trace = s.trace := (congrArg State.trace h :)
        have e2 : s'.far = s.far := (congrArg State.far h :)
        rw [e1, e2] at h'
        exact ((congrArg (fun z : State => { z with free := s.free }) h').trans h :)
      refine key (takeFree (takeFree (takeFree s).2).2).2 _ rfl ?_
      split
      · exact traceIncident_rest _ _ _
      · rfl
  · rfl

theorem traceQ_rest (s : State) (q : Fin 64) (t : Fin 4) (kind : Nat) :
    { traceQ s q t kind with trace := s.trace, far := s.far, free := s.free } = s := traceEvent_rest _ _ _ _ _ _

@[simp] theorem traceQ_quires (s : State) (q : Fin 64) (t : Fin 4) (kind : Nat) : (traceQ s q t kind).quires = s.quires :=
  (congrArg State.quires (traceQ_rest s q t kind) :)

@[simp] theorem traceQ_bind (s : State) (q : Fin 64) (t : Fin 4) (kind : Nat) : (traceQ s q t kind).bind = s.bind :=
  (congrArg State.bind (traceQ_rest s q t kind) :)

@[simp] theorem traceQ_clk (s : State) (q : Fin 64) (t : Fin 4) (kind : Nat) : (traceQ s q t kind).clk = s.clk :=
  (congrArg State.clk (traceQ_rest s q t kind) :)

@[simp] theorem traceQ_con (s : State) (q : Fin 64) (t : Fin 4) (kind : Nat) : (traceQ s q t kind).con = s.con :=
  (congrArg State.con (traceQ_rest s q t kind) :)

/-! ## Stopping a task -/

/-- What a stop of task t leaves of a quire: the task stopped, its PC kept, the memories, the ledger and the instruction count
as they were, the other tasks too. -/
structure StopsTask (t : Fin 4) (a b : Quire) : Prop where
  task : b.seq.tasks[t].live = false
  pc : b.seq.tasks[t].pc = a.seq.tasks[t].pc
  tasks : ∀ k : Fin 4, k ≠ t → b.seq.tasks[k] = a.seq.tasks[k]
  run : b.seq.inRun = (a.seq.inRun && !(t == 0))
  issued : b.seq.issued = a.seq.issued
  fault : b.seq.fault = a.seq.fault
  mem : b.mem = a.mem
  ledger : b.ledger = a.ledger
  flight : a.flight = [] → b.flight = []

theorem stopUnits_stops (how : Nat) (t : Fin 4) (a : Quire) : StopsTask t a (stopUnits how t a) := by
  have key : ∀ c : Quire, (c.seq = a.seq → c.mem = a.mem → c.ledger = a.ledger → (a.flight = [] → c.flight = []) →
      StopsTask t a (let qr := updTask c t (stopContext a.seq.lc how); if t = 0 then stopRun qr else qr)) := by
    intro c hs hm hl hf
    have hk : ∀ k : Fin 4, k ≠ t → (c.seq.tasks.set t (stopContext a.seq.lc how c.seq.tasks[t]))[k] = a.seq.tasks[k] := by
      intro k hk
      have : t.val ≠ k.val := fun h => hk (Fin.ext h.symm)
      simp [this, hs]
    constructor
    · simp only [updTask, stopRun]; split <;> simp [stopContext, Task.live]
    · simp only [updTask, stopRun]; split <;> simp [stopContext, hs, settleRegs]
    · intro k h; simp only [updTask, stopRun]; split <;> exact hk k h
    · simp only [updTask, stopRun]; split <;> simp_all
    · simp only [updTask, stopRun]; split <;> simp [hs]
    · simp only [updTask, stopRun]; split <;> simp [hs]
    · simp only [updTask, stopRun]; split <;> simp [hm]
    · simp only [updTask, stopRun]; split <;> simp [hl]
    · intro h; simp only [updTask, stopRun]; split <;> simp [hf h]
  simp only [stopUnits]
  apply key
  · (repeat' split) <;> simp [stopCommits, dropWrites, discardLandings]
  · (repeat' split) <;> simp [stopCommits, dropWrites, discardLandings]
  · (repeat' split) <;> simp [stopCommits, dropWrites, discardLandings]
  · intro h
    (repeat' split) <;> simp [stopCommits, dropWrites, discardLandings, stopFlight, h]

/-- Booking the periods of a halt that a stop ends changes the idle count of that quire, and takes a free value. -/
theorem bookStand_rest (s : State) (q : Fin 64) : { bookStand s q with quires := s.quires, free := s.free } = s := by
  unfold bookStand
  split <;> rfl

theorem bookStand_quires_ne (s : State) {q b : Fin 64} (h : b ≠ q) : (bookStand s q).quires[b] = s.quires[b] := by
  unfold bookStand
  split
  · rfl
  · exact updQ_quires_ne _ _ h

theorem bookStand_quires_self (s : State) (q : Fin 64) :
    ∃ v, (bookStand s q).quires[q] = { s.quires[q] with idleCause := v } := by
  unfold bookStand
  split
  · exact ⟨_, rfl⟩
  · exact ⟨_, updQ_quires_self _ _ _⟩

theorem stopTask_quires (s : State) (q : Fin 64) (t : Fin 4) (how : Nat) :
    (stopTask s q t how).quires = if s.quires[q].seq.tasks[t].live then
      (updQ (if t = 0 then bookStand s q else s) q (stopUnits how t)).quires else s.quires := by
  unfold stopTask
  by_cases h : s.quires[q].seq.tasks[t].live = true
  · rw [if_pos h, if_neg (by rw [h]; decide)]
    refine (traceQ_quires _ _ _ _).trans ?_
    dsimp only
    split <;> rfl
  · rw [if_neg h, if_pos (by simpa using h)]

theorem stopTask_quires_ne (s : State) {q b : Fin 64} (t : Fin 4) (how : Nat) (h : b ≠ q) :
    (stopTask s q t how).quires[b] = s.quires[b] := by
  simp only [stopTask_quires]
  split
  · refine (updQ_quires_ne _ _ h).trans ?_
    split
    · exact bookStand_quires_ne s h
    · rfl
  · rfl

/-- What a stop of a task leaves of its quire. -/
theorem stopTask_stops (s : State) (q : Fin 64) (t : Fin 4) (how : Nat) :
    if s.quires[q].seq.tasks[t].live then StopsTask t s.quires[q] (stopTask s q t how).quires[q]
    else (stopTask s q t how).quires[q] = s.quires[q] := by
  simp only [stopTask_quires]
  split
  · rw [updQ_quires_self]
    split
    · obtain ⟨v, hv⟩ := bookStand_quires_self s q
      rw [hv]
      have h := stopUnits_stops how t { s.quires[q] with idleCause := v }
      exact ⟨h.task, h.pc, h.tasks, h.run, h.issued, h.fault, h.mem, h.ledger, h.flight⟩
    · exact stopUnits_stops how t _
  · rfl

@[simp] theorem stopTask_raised (s : State) (q : Fin 64) (t : Fin 4) (how : Nat) : (stopTask s q t how).bind.raised = s.bind.raised := by
  unfold stopTask
  split
  · rfl
  · dsimp only
    rw [traceQ_bind]
    dsimp only
    have hb : (bookStand s q).bind = s.bind := (congrArg State.bind (bookStand_rest s q) :)
    split <;> simp [releaseOwned, hb]

@[simp] theorem stopTask_clk (s : State) (q : Fin 64) (t : Fin 4) (how : Nat) : (stopTask s q t how).clk = s.clk := by
  unfold stopTask
  split
  · rfl
  · dsimp only
    rw [traceQ_clk]
    dsimp only
    have hb : (bookStand s q).clk = s.clk := (congrArg State.clk (bookStand_rest s q) :)
    split <;> simp [releaseOwned, hb]

/-! ## Stopping a quire -/

/-- What stopping every task of a quire leaves of it. -/
structure StopsQuire (a b : Quire) : Prop where
  live : ∀ k : Fin 4, b.seq.tasks[k].live = false
  pc : ∀ k : Fin 4, b.seq.tasks[k].pc = a.seq.tasks[k].pc
  run : b.seq.inRun = (a.seq.inRun && !a.seq.tasks[0].live)
  issued : b.seq.issued = a.seq.issued
  fault : b.seq.fault = a.seq.fault
  mem : b.mem = a.mem
  ledger : b.ledger = a.ledger
  flight : a.flight = [] → b.flight = []

theorem stopQuire_eq (s : State) (q : Fin 64) (how : Nat) :
    stopQuire s q how = stopTask (stopTask (stopTask (stopTask s q 0 how) q 1 how) q 2 how) q 3 how := by
  have e : List.finRange 4 = [0, 1, 2, 3] := by decide
  simp only [stopQuire, e, List.foldl_cons, List.foldl_nil]

theorem stopQuire_stops (s : State) (q : Fin 64) (how : Nat) : StopsQuire s.quires[q] (stopQuire s q how).quires[q] := by
  have step : ∀ (s : State) (t : Fin 4), ∃ c, (stopTask s q t how).quires[q] = c ∧
      c.seq.tasks[t].live = false ∧ (∀ k : Fin 4, c.seq.tasks[k].pc = s.quires[q].seq.tasks[k].pc)
      ∧ (∀ k : Fin 4, k ≠ t → c.seq.tasks[k] = s.quires[q].seq.tasks[k])
      ∧ c.seq.inRun = (s.quires[q].seq.inRun && !(t == 0 && s.quires[q].seq.tasks[t].live))
      ∧ c.seq.issued = s.quires[q].seq.issued ∧ c.seq.fault = s.quires[q].seq.fault ∧ c.mem = s.quires[q].mem
      ∧ c.ledger = s.quires[q].ledger ∧ (s.quires[q].flight = [] → c.flight = []) := by
    intro s t
    have this := stopTask_stops s q t how
    by_cases h : s.quires[q].seq.tasks[t].live
    · rw [if_pos h] at this
      refine ⟨_, rfl, ?_⟩
      simp only [h]
      refine ⟨this.task, fun k => ?_, this.tasks, by rw [this.run, Bool.and_true], this.issued, this.fault, this.mem, this.ledger, this.flight⟩
      by_cases hk : k = t
      · subst hk; exact this.pc
      · rw [this.tasks k hk]
    · rw [if_neg h] at this
      refine ⟨s.quires[q], this, by simpa using h, fun _ => rfl, fun _ _ => rfl, ?_, rfl, rfl, rfl, rfl, id⟩
      rw [Bool.eq_false_iff.2 h, Bool.and_false, Bool.not_false, Bool.and_true]
  rw [stopQuire_eq]
  obtain ⟨c0, e0, l0, p0, k0, r0, i0, f0, m0, g0, v0⟩ := step s 0
  obtain ⟨c1, e1, l1, p1, k1, r1, i1, f1, m1, g1, v1⟩ := step (stopTask s q 0 how) 1
  obtain ⟨c2, e2, l2, p2, k2, r2, i2, f2, m2, g2, v2⟩ := step (stopTask (stopTask s q 0 how) q 1 how) 2
  obtain ⟨c3, e3, l3, p3, k3, r3, i3, f3, m3, g3, v3⟩ := step (stopTask (stopTask (stopTask s q 0 how) q 1 how) q 2 how) 3
  rw [e0] at p1 k1 r1 i1 f1 m1 g1 v1
  rw [e1] at p2 k2 r2 i2 f2 m2 g2 v2
  rw [e2] at p3 k3 r3 i3 f3 m3 g3 v3
  rw [e3]
  constructor
  · intro k
    fin_cases k
    · show c3.seq.tasks[(0 : Fin 4)].live = false
      rw [k3 0 (by decide), k2 0 (by decide), k1 0 (by decide)]; exact l0
    · show c3.seq.tasks[(1 : Fin 4)].live = false
      rw [k3 1 (by decide), k2 1 (by decide)]; exact l1
    · show c3.seq.tasks[(2 : Fin 4)].live = false
      rw [k3 2 (by decide)]; exact l2
    · exact l3
  · intro k; rw [p3, p2, p1, p0]
  · rw [r3, r2, r1, r0]; simp
  · rw [i3, i2, i1, i0]
  · rw [f3, f2, f1, f0]
  · rw [m3, m2, m1, m0]
  · rw [g3, g2, g1, g0]
  · exact fun h => v3 (v2 (v1 (v0 h)))

theorem stopQuire_quires_ne (s : State) {q b : Fin 64} (how : Nat) (h : b ≠ q) : (stopQuire s q how).quires[b] = s.quires[b] := by
  rw [stopQuire_eq, stopTask_quires_ne _ _ _ h, stopTask_quires_ne _ _ _ h, stopTask_quires_ne _ _ _ h, stopTask_quires_ne _ _ _ h]

theorem stopQuire_raised (s : State) (q : Fin 64) (how : Nat) : (stopQuire s q how).bind.raised = s.bind.raised := by
  rw [stopQuire_eq]; simp

theorem stopQuire_clk (s : State) (q : Fin 64) (how : Nat) : (stopQuire s q how).clk = s.clk := by
  rw [stopQuire_eq]; simp

/-! ## A fault at issue -/

theorem recordFault_same (qr : Quire) (r : FaultReg) (cause : Nat) (t : Fin 4) :
    (recordFault qr r cause t).seq.tasks = qr.seq.tasks ∧ (recordFault qr r cause t).seq.inRun = qr.seq.inRun
      ∧ (recordFault qr r cause t).seq.issued = qr.seq.issued ∧ (recordFault qr r cause t).mem = qr.mem
      ∧ (recordFault qr r cause t).ledger = qr.ledger ∧ (recordFault qr r cause t).flight = qr.flight := by
  cases r <;> simp [recordFault]

/-- What a fault raised by task t leaves. -/
theorem raiseFault_faulted (a : State) (q : Fin 64) (t : Fin 4) (cls : Nat) :
    (raiseFault a q t cls).quires[q].seq.tasks[t].state = .faulted
      ∧ (∀ k : Fin 4, (raiseFault a q t cls).quires[q].seq.tasks[k].live = false)
      ∧ (∀ k : Fin 4, (raiseFault a q t cls).quires[q].seq.tasks[k].pc = a.quires[q].seq.tasks[k].pc)
      ∧ (∀ b : Fin 64, b ≠ q → (raiseFault a q t cls).quires[b] = a.quires[b])
      ∧ (raiseFault a q t cls).bind.raised = a.bind.raised ++
          [{ cls := cls, quire := some q, link := 0, originClass := 0, originId := 0, tick := tick a }]
      ∧ ∃ c, StopsQuire a.quires[q] c ∧ (raiseFault a q t cls).quires[q].seq.inRun = c.seq.inRun
          ∧ (raiseFault a q t cls).quires[q].seq.issued = c.seq.issued ∧ (raiseFault a q t cls).quires[q].mem = c.mem
          ∧ (raiseFault a q t cls).quires[q].ledger = c.ledger ∧ (raiseFault a q t cls).quires[q].seq.fault = c.seq.fault
          ∧ (raiseFault a q t cls).quires[q].flight = c.flight := by
  have hs := stopQuire_stops (traceQ a q t 5) q 3
  rw [show (traceQ a q t 5).quires[q] = a.quires[q] by simp only [traceQ_quires]] at hs
  have hn : ∀ b : Fin 64, b ≠ q → (stopQuire (traceQ a q t 5) q 3).quires[b] = a.quires[b] := by
    intro b hb
    rw [stopQuire_quires_ne _ _ hb]
    simp only [traceQ_quires]
  have hr : (stopQuire (traceQ a q t 5) q 3).bind.raised = a.bind.raised := by rw [stopQuire_raised, traceQ_bind]
  have hc : (stopQuire (traceQ a q t 5) q 3).clk = a.clk := by rw [stopQuire_clk, traceQ_clk]
  unfold raiseFault
  dsimp only
  generalize stopQuire (traceQ a q t 5) q 3 = m at *
  have hq : (updT m q t (fun tk => { tk with state := .faulted })).quires[q]
      = updTask m.quires[q] t (fun tk => { tk with state := .faulted }) := updQ_quires_self m q _
  have hk : ∀ k : Fin 4, k ≠ t → (updTask m.quires[q] t (fun tk => { tk with state := TaskState.faulted })).seq.tasks[k]
      = m.quires[q].seq.tasks[k] := by
    intro k hk
    have : t.val ≠ k.val := fun h => hk (Fin.ext h.symm)
    simp [updTask, this]
  have ht : (updTask m.quires[q] t (fun tk => { tk with state := TaskState.faulted })).seq.tasks[t]
      = { m.quires[q].seq.tasks[t] with state := .faulted } := by simp [updTask]
  rw [hq]
  refine ⟨?_, fun k => ?_, fun k => ?_, fun b hb => ?_, ?_, m.quires[q], hs, rfl, rfl, rfl, rfl, rfl, rfl⟩
  · rw [ht]
  · by_cases h : k = t
    · subst h; rw [ht]; rfl
    · rw [hk k h]; exact hs.live k
  · by_cases h : k = t
    · subst h; rw [ht]; exact hs.pc k
    · rw [hk k h]; exact hs.pc k
  · exact (updQ_quires_ne m _ hb).trans (hn b hb)
  · show m.bind.raised ++ [{ cls := cls, quire := some q, link := 0, originClass := 0, originId := 0, tick := tick m }] = _
    simp only [tick, hr, hc]

/-- What a fault at issue comes to. -/
theorem programFault_faulted (a : State) (q : Fin 64) (t : Fin 4) (r : FaultReg) (cause : Nat) :
    (programFault a q t r cause).quires[q].seq.tasks[t].state = .faulted
      ∧ (∀ k : Fin 4, (programFault a q t r cause).quires[q].seq.tasks[k].live = false)
      ∧ (programFault a q t r cause).quires[q].seq.inRun = (a.quires[q].seq.inRun && !a.quires[q].seq.tasks[0].live)
      ∧ (∀ k : Fin 4, (programFault a q t r cause).quires[q].seq.tasks[k].pc = a.quires[q].seq.tasks[k].pc)
      ∧ (programFault a q t r cause).quires[q].seq.issued = a.quires[q].seq.issued
      ∧ (programFault a q t r cause).quires[q].mem = a.quires[q].mem
      ∧ (programFault a q t r cause).quires[q].ledger = a.quires[q].ledger
      ∧ (∀ b : Fin 64, b ≠ q → (programFault a q t r cause).quires[b] = a.quires[b])
      ∧ (programFault a q t r cause).bind.raised = a.bind.raised ++
          [{ cls := 7, quire := some q, link := 0, originClass := 0, originId := 0, tick := tick a }]
      ∧ (programFault a q t r cause).quires[q].seq.fault = (recordFault a.quires[q] r cause t).seq.fault
      ∧ (a.quires[q].flight = [] → (programFault a q t r cause).quires[q].flight = []) := by
  obtain ⟨h1, h2, h3, h4, h5, h6⟩ := recordFault_same a.quires[q] r cause t
  obtain ⟨g1, g2, g3, g4, g5, c, hc, c1, c2, c3, c4, c5, c6⟩ :=
    raiseFault_faulted (updQ a q (fun qr => recordFault qr r cause t)) q t 7
  rw [updQ_quires_self] at hc
  unfold programFault
  refine ⟨g1, g2, ?_, fun k => ?_, ?_, ?_, ?_, fun b hb => ?_, g5, ?_, fun h => ?_⟩
  · rw [c1, hc.run, h2, h1]
  · rw [g3 k, updQ_quires_self, h1]
  · rw [c2, hc.issued, h3]
  · rw [c3, hc.mem, h4]
  · rw [c4, hc.ledger, h5]
  · rw [g4 b hb, updQ_quires_ne _ _ hb]
  · rw [c5, hc.fault]
  · rw [c6]; exact hc.flight (h6.trans h)

/-- An instruction that breaks a check of its issue faults there. -/
theorem Issues.bad {s : State} {q : Fin 64} {t : Fin 4} {w : Word} {op : Nat} (h : Issues s q t w op)
    {body : State → Nat → Res} {r : FaultReg} {cause : Nat}
    {reads : List Nat} (hb : body (issueState s q t) (issueLc s q t) = .bad r cause reads) (hr : ReadsReady s q t reads)
    (hq : (issueState s q t).quiet) :
    issueRow op q t w body s = programFault (issueState s q t) q t r cause := by
  obtain ⟨-, hl, -, -, -, -, -, ho, -, -, hf⟩ := programFault_faulted (issueState s q t) q t r cause
  refine (h.row body (u := programFault (issueState s q t) q t r cause) ?_).trans ?_
  · rw [hb]
    refine if_neg ?_
    obtain hr | hr := hr <;> simp [hr]
  rw [if_neg (by rw [hl t]; decide)]
  refine settle_quiet (fun b => ?_) _
  by_cases hb : b = q
  · subst hb; exact hf (hq b)
  · rw [ho b hb]; exact hq b

/-- A check of the sequencer that an instruction breaks is its fault. -/
theorem Issues.seqFault {s : State} {q : Fin 64} {t : Fin 4} {w : Word} {op : Nat} (h : Issues s q t w op)
    {body : State → Nat → Res} {cause : Nat} {reads : List Nat}
    (hb : body (issueState s q t) (issueLc s q t) = .bad .seq cause reads) (hr : ReadsReady s q t reads)
    (hq : (issueState s q t).quiet) : SeqFault s q t cause (.next (issueRow op q t w body s)) := by
  rw [h.bad hb hr hq]
  have hp := programFault_faulted (issueState s q t) q t .seq cause
  generalize programFault (issueState s q t) q t .seq cause = u at hp ⊢
  obtain ⟨g1, g2, g3, g4, g5, g6, g7, g8, g9, g10, g11⟩ := hp
  refine ⟨u, rfl, ⟨g1, g2, g3, g4, g5, g6, g7, g8, g9⟩, ?_⟩
  rw [g10]
  simp only [recordFault, firstFault, List.cons_append, List.nil_append]
  rfl

end Sys2Proof.Machine
end

