-- ==== Sys2Proof/Laws/Launch.lean ====
section
/-! SUPPORT. Instructions that put work in flight: what each step of their issue adds, composed into `Launches`. -/

namespace Sys2Proof.Machine

/-! ## Schedules -/

theorem insertEvent_perm (e : Event) (l : List Event) : (insertEvent e l).Perm (e :: l) := by
  induction l with
  | nil => exact List.Perm.refl _
  | cons a l ih =>
    simp only [insertEvent]
    split
    · exact List.Perm.refl _
    · exact (List.Perm.cons a ih).trans (List.Perm.swap e a l)

theorem mem_insertAccess (a p : Access) (l : List Access) : p ∈ insertAccess a l ↔ p = a ∨ p ∈ l := by
  induction l with
  | nil => simp [insertAccess]
  | cons b l ih =>
    simp only [insertAccess]
    split
    · simp
    · simp only [List.mem_cons, ih]; tauto

theorem emit_live {qr : Quire} {e : Event} (h : qr.seq.tasks[e.task].live = true) :
    emit qr e = { qr with flight := insertEvent e qr.flight } := by
  simp only [emit, Task.reaches, h, Bool.true_or, if_true]

theorem placeAccess_ports (qr : Quire) (a p : Access) : p ∈ (placeAccess qr a).ports ↔ p ∈ qr.ports ∨ p = a := by
  simp only [placeAccess]
  split
  · rename_i h
    simp only [List.contains_iff_mem] at h
    constructor
    · exact Or.inl
    · rintro (h' | rfl)
      · exact h'
      · exact h
  · simp only [mem_insertAccess]; tauto

/-- Placing accesses of a task that runs: they are on their ports beside those that were, and nothing else changes. -/
theorem placeAll_live {t : Fin 4} (as : List Access) (hT : ∀ a ∈ as, a.task = t) :
    ∀ {qr : Quire}, qr.seq.tasks[t].live = true →
      ((placeAll as qr).flight = qr.flight ∧ (placeAll as qr).claims = qr.claims ∧ (placeAll as qr).content = qr.content
        ∧ (placeAll as qr).edgeOff = qr.edgeOff ∧ (placeAll as qr).seq = qr.seq
        ∧ ∀ p, p ∈ (placeAll as qr).ports ↔ p ∈ qr.ports ∨ p ∈ as) := by
  induction as with
  | nil => intro qr _; simp [placeAll]
  | cons a as ih =>
    intro qr h
    have ha : a.task = t := hT a (by simp)
    have hr : qr.seq.tasks[a.task].reaches a.first = true := by subst ha; simp only [Task.reaches, h, Bool.true_or]
    have e : placeAll (a :: as) qr = placeAll as (placeAccess qr a) := by
      simp only [placeAll, List.foldl_cons, hr, if_true]
    have hs : (placeAccess qr a).seq = qr.seq ∧ (placeAccess qr a).flight = qr.flight ∧ (placeAccess qr a).claims = qr.claims
        ∧ (placeAccess qr a).content = qr.content ∧ (placeAccess qr a).edgeOff = qr.edgeOff := by
      simp only [placeAccess]; split <;> simp [Quire.content]
    obtain ⟨h1, h2, h3, h4, h5, h6⟩ := ih (fun b hb => hT b (by simp [hb])) (qr := placeAccess qr a) (by rw [hs.1]; exact h)
    rw [e]
    refine ⟨h1.trans hs.2.1, h2.trans hs.2.2.1, h3.trans hs.2.2.2.1, h4.trans hs.2.2.2.2, h5.trans hs.1, fun p => ?_⟩
    rw [h6, placeAccess_ports, List.mem_cons]; tauto

/-! ## Token claims -/

@[simp] theorem claimEvents_nil : claimEvents [] = [] := rfl

theorem claimEvents_append (cs ds : List Claim) : claimEvents (cs ++ ds) = claimEvents cs ++ claimEvents ds := by
  simp [claimEvents]

theorem claimTok_zero {a : State} {q : Fin 64} {c : Claim} (h : c.tok = 0) : claimTok a q c = a := if_pos h

theorem claimTok_pos {a : State} {q : Fin 64} {c : Claim} (h : c.tok ≠ 0) :
    claimTok a q c = later (updQ a q (fun qr => { qr with claims := qr.claims ++ [c] })) q c.task c.first 0 .claim := if_neg h

/-! ## Launches, step by step -/

/-- Nothing has been put in flight yet. -/
theorem Launches.start (b : State) (q : Fin 64) : Launches b b q b.quires[q] [] [] [] :=
  { content := rfl, flight := List.Perm.refl _, ports := by simp, claims := by simp, others := fun _ _ => rfl, rest := rfl }

variable {b a : State} {q : Fin 64} {v : Quire} {es : List Event} {as : List Access} {cs : List Claim}

theorem Launches.seq (h : Launches b a q v es as cs) : a.quires[q].seq = v.seq :=
  (congrArg Quire.seq h.content : a.quires[q].content.seq = v.content.seq)

theorem Launches.edgeOff (h : Launches b a q v es as cs) : a.quires[q].edgeOff = v.edgeOff :=
  (congrArg Quire.edgeOff h.content : a.quires[q].content.edgeOff = v.content.edgeOff)

theorem Launches.live (h : Launches b a q v es as cs) {t : Fin 4} (hv : v.seq.tasks[t].live = true) :
    a.quires[q].seq.tasks[t].live = true := by rw [h.seq]; exact hv

/-- The content of the quire changes. -/
theorem Launches.upd (h : Launches b a q v es as cs) {f : Quire → Quire} {v' : Quire}
    (hc : (f a.quires[q]).content = v'.content) (hf : (f a.quires[q]).flight = a.quires[q].flight)
    (hp : (f a.quires[q]).ports = a.quires[q].ports) (hk : (f a.quires[q]).claims = a.quires[q].claims) :
    Launches b (updQ a q f) q v' es as cs where
  content := by rw [updQ_quires_self]; exact hc
  flight := by rw [updQ_quires_self, hf]; exact h.flight
  ports := by rw [updQ_quires_self, hp]; exact h.ports
  claims := by rw [updQ_quires_self, hk]; exact h.claims
  others := fun k hk => (updQ_quires_ne a f hk).trans (h.others k hk)
  rest := h.rest

/-- Accesses are placed. -/
theorem Launches.place (h : Launches b a q v es as cs) {t : Fin 4} (hv : v.seq.tasks[t].live = true) {l : List Access}
    (hT : ∀ p ∈ l, p.task = t) : Launches b (placePorts a q l) q v es (as ++ l) cs := by
  obtain ⟨h1, h2, h3, h4, h5, h6⟩ := placeAll_live l hT (h.live hv)
  refine { content := ?_, flight := ?_, ports := fun p => ?_, claims := ?_, others := fun k hk => ?_, rest := h.rest }
  · rw [placePorts, updQ_quires_self, h3]; exact h.content
  · rw [placePorts, updQ_quires_self, h1]; exact h.flight
  · rw [placePorts, updQ_quires_self, h6, h.ports, List.mem_append]; tauto
  · rw [placePorts, updQ_quires_self, h2]; exact h.claims
  · exact (updQ_quires_ne a _ hk).trans (h.others k hk)

/-- An effect is put in flight. -/
theorem Launches.later (h : Launches b a q v es as cs) {t : Fin 4} (hv : v.seq.tasks[t].live = true) (l ph : Nat) (op : Micro) :
    Launches b (later a q t l ph op) q v ({ lc := l, ph := ph, task := t, op := op } :: es) as cs := by
  have e : emit a.quires[q] { lc := l, ph := ph, task := t, op := op } =
      { a.quires[q] with flight := insertEvent { lc := l, ph := ph, task := t, op := op } a.quires[q].flight } :=
    emit_live (h.live hv)
  refine { content := ?_, flight := ?_, ports := fun p => ?_, claims := ?_, others := fun k hk => ?_, rest := h.rest }
  · rw [Machine.later, updQ_quires_self, e]; exact h.content
  · rw [Machine.later, updQ_quires_self, e]
    refine (insertEvent_perm _ _).trans ((List.Perm.cons _ h.flight).trans ?_)
    simp only [List.append_assoc, List.cons_append]
    exact List.perm_middle.symm
  · rw [Machine.later, updQ_quires_self, e]; exact h.ports p
  · rw [Machine.later, updQ_quires_self, e]; exact h.claims
  · exact (updQ_quires_ne a _ hk).trans (h.others k hk)

/-- A claim is made, to begin in its first lc. -/
theorem Launches.claim (h : Launches b a q v es as cs) (c : Claim) (hv : v.seq.tasks[c.task].live = true) :
    Launches b (claimTok a q c) q v es as (cs ++ [c]) := by
  by_cases h0 : c.tok = 0
  · rw [claimTok_zero h0]
    refine { h with flight := ?_, claims := ?_ }
    · rw [claimEvents_append]
      simpa [claimEvents, h0] using h.flight
    · simpa [h0] using h.claims
  · rw [claimTok_pos h0]
    have e : emit { a.quires[q] with claims := a.quires[q].claims ++ [c] } { lc := c.first, ph := 0, task := c.task, op := .claim } =
        { a.quires[q] with
          claims := a.quires[q].claims ++ [c]
          flight := insertEvent { lc := c.first, ph := 0, task := c.task, op := .claim } a.quires[q].flight } :=
      emit_live (qr := { a.quires[q] with claims := a.quires[q].claims ++ [c] }) (h.live hv)
    refine { content := ?_, flight := ?_, ports := fun p => ?_, claims := ?_, others := fun k hk => ?_, rest := h.rest }
    · rw [Machine.later, updQ_quires_self, updQ_quires_self, e]; exact h.content
    · rw [Machine.later, updQ_quires_self, updQ_quires_self, e]
      refine (insertEvent_perm _ _).trans ((List.Perm.cons _ h.flight).trans ?_)
      rw [claimEvents_append]
      simp only [claimEvents, List.append_assoc]
      have : List.filter (fun c => c.tok != 0) [c] = [c] := by simp [h0]
      rw [this]
      exact List.perm_middle.symm
    · rw [Machine.later, updQ_quires_self, updQ_quires_self, e]; exact h.ports p
    · rw [Machine.later, updQ_quires_self, updQ_quires_self, e]
      show a.quires[q].claims ++ [c] = _
      rw [h.claims, List.filter_append, List.append_assoc]
      simp [h0]
    · exact ((updQ_quires_ne _ _ hk).trans (updQ_quires_ne _ _ hk)).trans (h.others k hk)

/-- The same launch, its schedules in another order. -/
theorem Launches.congr (h : Launches b a q v es as cs) {v' : Quire} {es' : List Event} {as' : List Access}
    (hv : v.content = v'.content) (he : es.Perm es') (ha : ∀ p, p ∈ as ↔ p ∈ as') : Launches b a q v' es' as' cs :=
  { content := h.content.trans hv, flight := h.flight.trans (List.Perm.append_right _ (List.Perm.append_left _ he))
    ports := fun p => by rw [h.ports, ha]
    claims := h.claims, others := h.others, rest := h.rest }

theorem updQ_updQ (a : State) (q : Fin 64) (f g : Quire → Quire) : updQ (updQ a q f) q g = updQ a q (fun qr => g (f qr)) := by
  simp only [updQ]
  simp

/-- Several effects of a task are put in flight. -/
theorem Launches.emitAll (h : Launches b a q v es as cs) {t : Fin 4} (hv : v.seq.tasks[t].live = true) (l : List Event)
    (ht : ∀ e ∈ l, e.task = t) : Launches b (updQ a q (fun qr => emitAll qr l)) q v (l ++ es) as cs := by
  have key : ∀ (l : List Event) (a : State) (es : List Event), (∀ e ∈ l, e.task = t) → Launches b a q v es as cs →
      ∃ es', es'.Perm (l ++ es) ∧ Launches b (updQ a q (fun qr => Machine.emitAll qr l)) q v es' as cs := by
    intro l
    induction l with
    | nil =>
      intro a es _ h
      refine ⟨es, List.Perm.refl _, ?_⟩
      have e : updQ a q (fun qr => Machine.emitAll qr []) = a := by
        show ({ a with quires := a.quires.set q a.quires[q] } : State) = a
        simp
      rw [e]; exact h
    | cons e l ih =>
      intro a es ht h
      have he : e.task = t := ht e (by simp)
      have h1 := h.later hv e.lc e.ph e.op
      rw [← he] at h1
      obtain ⟨es', hp, h2⟩ := ih _ _ (fun e' h' => ht e' (by simp [h'])) h1
      refine ⟨es', hp.trans List.perm_middle, ?_⟩
      have e1 : updQ (Machine.later a q e.task e.lc e.ph e.op) q (fun qr => Machine.emitAll qr l)
          = updQ a q (fun qr => Machine.emitAll qr (e :: l)) := by
        rw [Machine.later, updQ_updQ]
        rfl
      rw [← e1]; exact h2
  obtain ⟨es', hp, h'⟩ := key l a es ht h
  exact h'.congr rfl hp (fun _ => Iff.rfl)

/-- An instruction whose effect is a launch starts its work. -/
theorem Issues.starts {s a : State} {t : Fin 4} {w : Word} {op : Nat} (h : Issues s q t w op)
    {body : State → Nat → Res} (hb : body (issueState s q t) (issueLc s q t) = .done a)
    (hl : Launches (issueState s q t) a q v es as cs) (hv : v.seq = (issueQuire s q t).seq) :
    StartsWork s q t v es as cs (.next (issueRow op q t w body s)) := by
  refine ⟨a, _, congrArg _ (h.done hb ?_), hl, retired_retire _ _ _ _⟩
  rw [hl.seq, hv]
  exact h.live

/-- Registers that are readable are no hazard. -/
theorem ReadsReady.noteEarly {s : State} {t : Fin 4} {regs : List Nat} (h : ReadsReady s q t regs) (x : Nat) :
    noteEarly (issueState s q t) q t x regs = issueState s q t := by
  simp only [Machine.noteEarly]
  obtain h | h := h
  · split
    · simp [hazard, h]
    · rfl
  · simp [h]

/-- A register that no unit writes in the same lc is written without a hazard. -/
theorem WriteClear.setReg {s : State} {t : Fin 4} {r y : Nat} (h : WriteClear s q t r y) (w : Word) (x : Nat) :
    setReg (issueState s q t) q t x r w y = withReg (issueState s q t) q t r w y := by
  simp only [Machine.setReg]
  obtain h | h := h
  · split
    · have h' : hazOn (updT (issueState s q t) q t (fun tk => writeReg tk r w y false)) = false := h
      simp [hazard, h', withReg]
    · rfl
  · have h' : (issueState s q t).quires[q].seq.tasks[t].pend.any (fun p => p.byUnit && p.reg.val == r && p.lc == y) = false := h
    rw [h']
    simp [withReg]

end Sys2Proof.Machine
end

