-- ==== Sys2Proof/Laws/Memory.lean ====
section
/-! SUPPORT. Memories: the canonical form is kept by every write, and what a byte reads as after one (log entry 6). -/

namespace Sys2Proof.Machine

/-! ## The canonical form -/

/-- The canonical form in terms of the whole list. -/
theorem Mem.wf_iff (m : Mem) : Mem.wf m = true ↔ m.Pairwise (fun c d => c.1 < d.1) ∧ ∀ c ∈ m, c.2 ≠ 0 := by
  induction m with
  | nil => simp [Mem.wf]
  | cons c m ih =>
    cases m with
    | nil => simp [Mem.wf]
    | cons d m =>
      simp only [Mem.wf, Bool.and_eq_true, decide_eq_true_eq, bne_iff_ne, ne_eq, ih, List.pairwise_cons, List.mem_cons]
      constructor
      · rintro ⟨⟨hc, hlt⟩, ⟨hd, hp⟩, hz⟩
        refine ⟨⟨?_, hd, hp⟩, ?_⟩
        · rintro e (rfl | he)
          · exact hlt
          · exact lt_trans hlt (hd e he)
        · rintro e (rfl | he)
          · exact hc
          · exact hz e he
      · rintro ⟨⟨hall, hd, hp⟩, hz⟩
        exact ⟨⟨hz c (Or.inl rfl), hall d (Or.inl rfl)⟩, ⟨hd, hp⟩, fun e he => hz e (Or.inr he)⟩

theorem Mem.wf_nil : Mem.wf [] = true := rfl

/-- The cells of consecutive bytes lie in their range and list no zero. -/
theorem mem_cellsOf {a : Nat} {bs : List Byte} {c : Host.Cell} (h : c ∈ cellsOf a bs) :
    a ≤ c.1 ∧ c.1 < a + bs.length ∧ c.2 ≠ 0 := by
  induction bs generalizing a with
  | nil => simp [cellsOf] at h
  | cons b bs ih =>
    simp only [cellsOf] at h
    split at h
    · obtain ⟨h1, h2, h3⟩ := ih h
      exact ⟨by omega, by simp only [List.length_cons]; omega, h3⟩
    · rename_i hb
      rcases List.mem_cons.1 h with rfl | h
      · exact ⟨le_refl _, by simp, hb⟩
      · obtain ⟨h1, h2, h3⟩ := ih h
        exact ⟨by omega, by simp only [List.length_cons]; omega, h3⟩

theorem cellsOf_sorted (a : Nat) (bs : List Byte) : (cellsOf a bs).Pairwise (fun c d => c.1 < d.1) := by
  induction bs generalizing a with
  | nil => simp [cellsOf]
  | cons b bs ih =>
    simp only [cellsOf]
    split
    · exact ih _
    · refine List.pairwise_cons.2 ⟨fun d hd => ?_, ih _⟩
      have := (mem_cellsOf hd).1
      show a < d.1
      omega

/-- A write keeps the canonical form. -/
theorem writeBytes_wf {m : Mem} (h : Mem.wf m = true) (a : Nat) (bs : List Byte) : Mem.wf (writeBytes m a bs) = true := by
  obtain ⟨hp, hz⟩ := (Mem.wf_iff m).1 h
  refine (Mem.wf_iff _).2 ⟨?_, ?_⟩
  · unfold writeBytes
    refine List.pairwise_append.2 ⟨List.pairwise_append.2 ⟨hp.filter _, cellsOf_sorted a bs, ?_⟩, hp.filter _, ?_⟩
    · intro c hc d hd
      have h1 := (List.mem_filter.1 hc).2
      have h2 := (mem_cellsOf hd).1
      simp only [decide_eq_true_eq] at h1
      omega
    · intro c hc d hd
      have h2 := (List.mem_filter.1 hd).2
      simp only [decide_eq_true_eq] at h2
      rcases List.mem_append.1 hc with hc | hc
      · have h1 := (List.mem_filter.1 hc).2
        simp only [decide_eq_true_eq] at h1
        omega
      · have h1 := (mem_cellsOf hc).2.1
        omega
  · intro c hc
    simp only [writeBytes, List.mem_append, List.mem_filter] at hc
    rcases hc with (hc | hc) | hc
    · exact hz c hc.1
    · exact (mem_cellsOf hc).2.2
    · exact hz c hc.1

theorem writeRow_wf {m : Mem} (h : Mem.wf m = true) (r : Nat) (bs : List Byte) : Mem.wf (writeRow m r bs) = true :=
  writeBytes_wf h _ _

theorem foldl_wf {α : Type} {f : Mem → α → Mem} (hf : ∀ m x, Mem.wf m = true → Mem.wf (f m x) = true) (l : List α) :
    ∀ {m : Mem}, Mem.wf m = true → Mem.wf (l.foldl f m) = true := by
  induction l with
  | nil => exact fun h => h
  | cons x l ih => exact fun h => ih (hf _ _ h)

theorem writeRows_wf {m : Mem} (h : Mem.wf m = true) (r : Nat) (rows : List (List Byte)) : Mem.wf (writeRows m r rows) = true :=
  foldl_wf (fun _ _ h => writeRow_wf h _ _) _ h

/-! ## Reading after a write -/

theorem readByte_append (m n : Mem) (a : Nat) :
    readByte (m ++ n) a = if ∃ c ∈ m, c.1 = a then readByte m a else readByte n a := by
  induction m with
  | nil => simp
  | cons c m ih =>
    by_cases h : c.1 = a
    · simp [readByte, h]
    · simp [readByte, h, ih]

theorem readByte_none {m : Mem} {a : Nat} (h : ∀ c ∈ m, c.1 ≠ a) : readByte m a = 0 := by
  induction m with
  | nil => rfl
  | cons c m ih =>
    have := h c (by simp)
    simp [readByte, this, ih (fun d hd => h d (by simp [hd]))]

theorem readByte_filter (m : Mem) (p : Host.Cell → Bool) (a : Nat) (hp : ∀ c ∈ m, c.1 = a → p c = true) :
    readByte (m.filter p) a = readByte m a := by
  induction m with
  | nil => rfl
  | cons c m ih =>
    have ih := ih (fun d hd => hp d (by simp [hd]))
    by_cases hc : c.1 = a
    · rw [List.filter_cons_of_pos (hp c (by simp) hc)]
      simp [readByte, hc]
    · by_cases hpc : p c = true
      · rw [List.filter_cons_of_pos hpc]
        simp [readByte, hc, ih]
      · rw [List.filter_cons_of_neg hpc]
        simp [readByte, hc, ih]

theorem readByte_cellsOf (a : Nat) (bs : List Byte) (b : Nat) :
    readByte (cellsOf a bs) b = if a ≤ b then bs.getD (b - a) 0 else 0 := by
  induction bs generalizing a with
  | nil => simp [cellsOf, readByte]
  | cons x bs ih =>
    simp only [cellsOf]
    by_cases hx : x = 0
    · rw [if_pos hx, ih]
      rcases Nat.lt_trichotomy b a with h | h | h
      · rw [if_neg (by omega), if_neg (by omega)]
      · subst h; simp [hx]
      · rw [if_pos (by omega), if_pos (by omega), show b - a = (b - (a + 1)) + 1 by omega]; simp
    · rw [if_neg hx]
      rcases Nat.lt_trichotomy b a with h | h | h
      · have : a ≠ b := by omega
        simp [readByte, this, ih, show ¬ a + 1 ≤ b by omega, show ¬ a ≤ b by omega]
      · subst h; simp [readByte]
      · have : a ≠ b := by omega
        simp only [readByte, if_neg this, ih]
        rw [if_pos (by omega), if_pos (by omega), show b - a = (b - (a + 1)) + 1 by omega]; simp

/-- Outside the bytes written every byte reads as before. -/
theorem readByte_writeBytes_ne (m : Mem) (a : Nat) (bs : List Byte) (b : Nat) (h : b < a ∨ a + bs.length ≤ b) :
    readByte (writeBytes m a bs) b = readByte m b := by
  unfold writeBytes
  have hc : ∀ c ∈ cellsOf a bs, c.1 ≠ b := fun c hc => by
    have := mem_cellsOf hc
    omega
  rw [readByte_append, readByte_append, readByte_none hc]
  rcases h with h | h
  · have hlow : readByte (m.filter (fun c => decide (c.1 < a))) b = readByte m b :=
      readByte_filter _ _ _ (fun c _ e => by simp [e, h])
    have hhigh : readByte (m.filter (fun c => decide (a + bs.length ≤ c.1))) b = 0 :=
      readByte_none (fun c hc => by have := (List.mem_filter.1 hc).2; simp at this; omega)
    split
    · split
      · exact hlow
      · rename_i h1 h2
        obtain ⟨c, hc', e⟩ := h1
        rcases List.mem_append.1 hc' with h3 | h3
        · exact absurd ⟨c, h3, e⟩ h2
        · exact absurd e (hc c h3)
    · rename_i h1
      rw [hhigh, ← hlow]
      refine (readByte_none (fun c hc' e => h1 ⟨c, List.mem_append.2 (Or.inl hc'), e⟩)).symm
  · have hlow : ∀ c ∈ m.filter (fun c => decide (c.1 < a)), c.1 ≠ b :=
      fun c hc => by have := (List.mem_filter.1 hc).2; simp at this; omega
    have hhigh : readByte (m.filter (fun c => decide (a + bs.length ≤ c.1))) b = readByte m b :=
      readByte_filter _ _ _ (fun c _ e => by simp [e, h])
    rw [if_neg, hhigh]
    rintro ⟨c, hc', e⟩
    rcases List.mem_append.1 hc' with h3 | h3
    · exact hlow c h3 e
    · exact hc c h3 e

/-- A byte written reads as it was written. -/
theorem readByte_writeBytes_at (m : Mem) (a : Nat) (bs : List Byte) (i : Nat) (h : i < bs.length) :
    readByte (writeBytes m a bs) (a + i) = bs[i] := by
  unfold writeBytes
  have hlow : ∀ c ∈ m.filter (fun c => decide (c.1 < a)), c.1 ≠ a + i :=
    fun c hc => by have := (List.mem_filter.1 hc).2; simp at this; omega
  have hhigh : ∀ c ∈ m.filter (fun c => decide (a + bs.length ≤ c.1)), c.1 ≠ a + i :=
    fun c hc => by have := (List.mem_filter.1 hc).2; simp at this; omega
  have hmid : readByte (cellsOf a bs) (a + i) = bs[i] := by
    rw [readByte_cellsOf, if_pos (by omega), Nat.add_sub_cancel_left, List.getD_eq_getElem _ _ h]
  have hl : readByte (m.filter (fun c => decide (c.1 < a)) ++ cellsOf a bs) (a + i) = bs[i] := by
    rw [readByte_append, if_neg (fun ⟨c, hc, e⟩ => hlow c hc e), hmid]
  rw [readByte_append, hl]
  split
  · rfl
  · rename_i h1
    rw [readByte_none hhigh, ← hl]
    exact (readByte_none (fun c hc e => h1 ⟨c, hc, e⟩)).symm

/-! ## Runs of bytes -/

theorem fillBytes_length (n a : Nat) (m : Mem) : (fillBytes n a m).length = n := by
  induction n generalizing a m with
  | zero => rfl
  | succ n ih =>
    cases m with
    | nil => simp [fillBytes, ih]
    | cons c m => simp only [fillBytes]; split <;> simp [ih]

theorem readBytes_length (m : Mem) (a n : Nat) : (readBytes m a n).length = n := fillBytes_length n a _

theorem fillBytes_eq {m : Mem} (h : m.Pairwise (fun c d => c.1 < d.1)) (n a : Nat) (hm : ∀ c ∈ m, a ≤ c.1) :
    fillBytes n a m = (List.range n).map (fun i => readByte m (a + i)) := by
  induction n generalizing a m with
  | zero => rfl
  | succ n ih =>
    rw [List.range_succ_eq_map, List.map_cons, List.map_map]
    cases m with
    | nil =>
      have := ih (m := []) h 0 (by simp)
      simp only [fillBytes, this, readByte, Function.comp_def]
    | cons c m =>
      have hp := List.pairwise_cons.1 h
      have hca := hm c (by simp)
      simp only [fillBytes, Nat.add_zero, readByte]
      by_cases hc : c.1 = a
      · rw [if_pos hc, if_pos hc, ih hp.2 (a + 1) (fun d hd => by have := hp.1 d hd; omega)]
        congr 1
        refine List.map_congr_left (fun i _ => ?_)
        simp only [Function.comp_def, Nat.succ_eq_add_one]
        rw [if_neg (by omega), show a + 1 + i = a + (i + 1) by omega]
      · rw [if_neg hc, if_neg hc]
        have hz : readByte m a = 0 := readByte_none (fun d hd e => by have := hp.1 d hd; omega)
        rw [hz, ih h (a + 1) (fun d hd => by
          rcases List.mem_cons.1 hd with rfl | hd
          · omega
          · have := hp.1 d hd; omega)]
        congr 1
        refine List.map_congr_left (fun i _ => ?_)
        simp only [Function.comp_def, Nat.succ_eq_add_one, readByte]
        rw [show a + 1 + i = a + (i + 1) by omega]

/-- A run of bytes of a canonical memory is its bytes one by one. -/
theorem readBytes_eq {m : Mem} (h : Mem.wf m = true) (a n : Nat) :
    readBytes m a n = (List.range n).map (fun i => readByte m (a + i)) := by
  obtain ⟨hp, hz⟩ := (Mem.wf_iff m).1 h
  unfold readBytes
  have hd : (m.dropWhile (fun c => decide (c.1 < a))) = m.filter (fun c => decide (a ≤ c.1)) := by
    clear h hz
    induction m with
    | nil => rfl
    | cons c m ih =>
      have hq := List.pairwise_cons.1 hp
      by_cases hc : c.1 < a
      · rw [List.dropWhile_cons_of_pos (by simpa using hc), List.filter_cons_of_neg (by simpa using hc)]
        exact ih hq.2
      · rw [List.dropWhile_cons_of_neg (by simpa using hc), List.filter_cons_of_pos (by simpa using hc),
          List.filter_eq_self.2 (fun d hd => by have := hq.1 d hd; simp; omega)]
  rw [hd, fillBytes_eq (hp.filter _) n a (fun c hc => by simpa using (List.mem_filter.1 hc).2)]
  refine List.map_congr_left (fun i _ => readByte_filter _ _ _ (fun c _ e => ?_))
  simp only [decide_eq_true_eq]
  omega

/-- What has been written is read back. -/
theorem readBytes_writeBytes {m : Mem} (h : Mem.wf m = true) (a : Nat) (bs : List Byte) :
    readBytes (writeBytes m a bs) a bs.length = bs := by
  rw [readBytes_eq (writeBytes_wf h a bs)]
  refine List.ext_getElem (by simp) (fun i h1 h2 => ?_)
  simp only [List.getElem_map, List.getElem_range]
  exact readByte_writeBytes_at m a bs i h2

end Sys2Proof.Machine
end

