-- ==== Sys2Proof/WellFormed.lean ====
section
/-! DEFINITION. When a command is well formed: its operands are of the shape its rule gives. -/

namespace Sys2Proof

/-- The opcode of an instruction row and the word it carries (table "Opcode map", R284); no other row carries a word. -/
def Instr.wordOf : Instr → Option (Nat × Word)
  | .nop _ _ w => some (0x00, w)
  | .alu _ _ w => some (0x01, w)
  | .addi _ _ w => some (0x02, w)
  | .andi _ _ w => some (0x03, w)
  | .ori _ _ w => some (0x04, w)
  | .xori _ _ w => some (0x05, w)
  | .shli _ _ w => some (0x06, w)
  | .shri _ _ w => some (0x07, w)
  | .srai _ _ w => some (0x08, w)
  | .slti _ _ w => some (0x09, w)
  | .li _ _ w => some (0x0A, w)
  | .lih _ _ w => some (0x0B, w)
  | .gets _ _ w => some (0x0C, w)
  | .br _ _ w => some (0x10, w)
  | .j _ _ w => some (0x11, w)
  | .call _ _ w => some (0x12, w)
  | .ret _ _ w => some (0x13, w)
  | .idle _ _ w => some (0x14, w)
  | .yield _ _ w => some (0x15, w)
  | .endTask _ _ w => some (0x16, w)
  | .ringdb _ _ w => some (0x17, w)
  | .getdb _ _ w => some (0x18, w)
  | .tile _ _ w => some (0x20, w)
  | .wpanel _ _ w => some (0x21, w)
  | .vop _ _ w => some (0x22, w)
  | .inject _ _ w => some (0x24, w)
  | .land _ _ w => some (0x25, w)
  | .copy _ _ w => some (0x26, w)
  | .reduce _ _ w => some (0x27, w)
  | .splice _ _ w => some (0x28, w)
  | .stream _ _ w => some (0x2C, w)
  | .sdload _ _ w => some (0x2D, w)
  | .waits _ _ w => some (0x2E, w)
  | .waitw _ _ w => some (0x2F, w)
  | .swap _ _ w => some (0x30, w)
  | .sethp _ _ w => some (0x31, w)
  | .lwait _ _ w => some (0x34, w)
  | .xwait _ _ w => some (0x35, w)
  | .upd _ _ w => some (0x38, w)
  | .uget _ _ w => some (0x39, w)
  | .ustat _ _ w => some (0x3A, w)
  | .tileDrain _ => none
  | .gatheringResume _ _ => none
  | .runAheadStart _ => none
  | .landingComplete _ _ => none
  | .writeComplete _ _ => none
  | .messageAccept _ => none
  | .messageLanded _ => none
  | .dataFlit _ _ => none
  | .ctrlFlit _ _ => none
  | .heartbeatFlit _ _ => none
  | .trainFlit _ _ _ _ _ => none
  | .faultFlit _ _ => none
  | .replayTimeout _ => none
  | .ackTimeout _ => none
  | .heartbeatTimeout _ => none
  | .silence _ => none
  | .promise _ => none
  | .partialMsg _ => none
  | .linkTraining _ => none
  | .linkTrained _ _ => none
  | .backgroundRetrain => none
  | .faultPath _ => none
  | .faultRecord => none
  | .waitTimeout _ _ => none
  | .throttleResume _ _ => none
  | .droopStretch _ _ => none
  | .operatingPointChange => none
  | .referenceLoss => none
  | .holdoverExpiry => none
  | .referenceTimeout => none
  | .referenceReturn => none
  | .powerTrip _ _ => none
  | .thermalTrip _ _ => none
  | .thermalWarning _ _ => none
  | .powerDomainOn _ => none
  | .scrub _ _ _ _ => none
  | .fixQueueWriteback _ _ => none
  | .traceIncidentEnd _ => none
  | .watchdog => none
  | .coldPowerOn _ => none
  | .powerLoss => none
  | .perstAssert => none
  | .perstRelease => none
  | .bar4Write _ _ => none
  | .bar4Read _ _ => none
  | .unsupportedRequest _ => none
  | .completionTimeout _ _ => none
  | .dbInSet _ => none
  | .dbOut _ => none
  | .dbInMask _ => none
  | .dbOutMask _ => none
  | .qmask _ _ => none
  | .quireDoorbell _ => none
  | .dbTimeout _ => none
  | .ringCfg _ _ => none
  | .heartbeat _ => none
  | .bar4Seg _ => none
  | .fence _ _ => none
  | .pdReq _ => none
  | .droopCfg _ => none
  | .recoveryGo _ _ => none
  | .registerWrite _ _ _ _ => none
  | .nopCommand _ _ => none
  | .query _ _ _ => none
  | .loadProgram _ _ _ => none
  | .loadRegion _ _ => none
  | .exportRegion _ _ => none
  | .startTask _ _ => none
  | .abortTask _ _ => none
  | .setStep _ _ => none
  | .runUpdate _ _ => none
  | .readLedger _ _ _ => none
  | .readTelemetry _ _ _ => none
  | .setOperatingPoint _ _ => none
  | .setTopology _ _ => none
  | .topologyWaitExpiry => none
  | .linkControlRetrain _ _ => none
  | .linkControlDisable _ _ => none
  | .linkControlEnable _ _ => none
  | .linkControlClear _ _ => none
  | .resetCompute _ _ => none
  | .fwUpdate _ _ _ _ _ => none
  | .attest _ _ _ => none
  | .fencedCommandStart _ => none
  | .commandCompletion _ => none
  | .taskCompletion _ _ => none
  | .ident => none
  | .status => none
  | .fault => none
  | .power => none
  | .tempMax => none
  | .alertClear => none
  | .alertResponse => none
  | .msixVectorUnmask _ => none
  | .uncorrectableFlit _ => none
  | .faultFlitResend _ => none
  | .pcieLinkDown => none
  | .d3hot _ => none

/-- A flit has 256 bytes (R366). -/
def flitShape (bytes : List Byte) : Bool := bytes.length == 256

/-- A range of BAR4 has at least one byte and lies within its 16 GiB (R422). -/
def bar4Shape (offset n : Nat) : Bool := n != 0 && decide (offset + n ≤ 16 * 2 ^ 30)

/-- A register access is 32 or 64 bits wide, naturally aligned and within its BAR (R14 R422). -/
def regShape (bar2 : Bool) (offset width : Nat) : Bool :=
  (width == 4 || width == 8) && offset % width == 0 && decide (offset < if bar2 then 2 ^ 16 else 2 ^ 26)

/-- The errors of a scrub tick lie in one of the seven memories (log entry 9). -/
def upsetShape (u : Upset) : Bool := decide (u.mem ≤ 6) && u.bits != 0

/-- The physical link and the peer port that a TRAIN flit reports are link and port numbers (R382). -/
def trainShape (phys peerPort : Nat) : Bool := decide (phys < 26) && decide (peerPort < 26)

/-- The operands of a row without an instruction word. -/
def Instr.operandsOk : Instr → Bool
  | .nop _ _ _ => true
  | .alu _ _ _ => true
  | .addi _ _ _ => true
  | .andi _ _ _ => true
  | .ori _ _ _ => true
  | .xori _ _ _ => true
  | .shli _ _ _ => true
  | .shri _ _ _ => true
  | .srai _ _ _ => true
  | .slti _ _ _ => true
  | .li _ _ _ => true
  | .lih _ _ _ => true
  | .gets _ _ _ => true
  | .br _ _ _ => true
  | .j _ _ _ => true
  | .call _ _ _ => true
  | .ret _ _ _ => true
  | .idle _ _ _ => true
  | .yield _ _ _ => true
  | .endTask _ _ _ => true
  | .ringdb _ _ _ => true
  | .getdb _ _ _ => true
  | .tile _ _ _ => true
  | .wpanel _ _ _ => true
  | .vop _ _ _ => true
  | .inject _ _ _ => true
  | .land _ _ _ => true
  | .copy _ _ _ => true
  | .reduce _ _ _ => true
  | .splice _ _ _ => true
  | .stream _ _ _ => true
  | .sdload _ _ _ => true
  | .waits _ _ _ => true
  | .waitw _ _ _ => true
  | .swap _ _ _ => true
  | .sethp _ _ _ => true
  | .lwait _ _ _ => true
  | .xwait _ _ _ => true
  | .upd _ _ _ => true
  | .uget _ _ _ => true
  | .ustat _ _ _ => true
  | .tileDrain _ => true
  | .gatheringResume _ _ => true
  | .runAheadStart _ => true
  | .landingComplete _ _ => true
  | .writeComplete _ _ => true
  | .messageAccept _ => true
  | .messageLanded _ => true
  | .dataFlit _ bytes => flitShape bytes
  | .ctrlFlit _ bytes => flitShape bytes
  | .heartbeatFlit _ bytes => flitShape bytes
  | .trainFlit _ phys _ peerPort _ => trainShape phys peerPort
  | .faultFlit _ bytes => flitShape bytes
  | .replayTimeout _ => true
  | .ackTimeout _ => true
  | .heartbeatTimeout _ => true
  | .silence _ => true
  | .promise _ => true
  | .partialMsg _ => true
  | .linkTraining _ => true
  | .linkTrained _ _ => true
  | .backgroundRetrain => true
  | .faultPath _ => true
  | .faultRecord => true
  | .waitTimeout _ _ => true
  | .throttleResume _ _ => true
  | .droopStretch _ _ => true
  | .operatingPointChange => true
  | .referenceLoss => true
  | .holdoverExpiry => true
  | .referenceTimeout => true
  | .referenceReturn => true
  | .powerTrip _ _ => true
  | .thermalTrip _ _ => true
  | .thermalWarning _ _ => true
  | .powerDomainOn _ => true
  | .scrub _ _ _ ups => ups.all upsetShape
  | .fixQueueWriteback _ _ => true
  | .traceIncidentEnd _ => true
  | .watchdog => true
  | .coldPowerOn _ => true
  | .powerLoss => true
  | .perstAssert => true
  | .perstRelease => true
  | .bar4Write offset bytes => bar4Shape offset bytes.length
  | .bar4Read offset length => bar4Shape offset length
  | .unsupportedRequest _ => true
  | .completionTimeout _ _ => true
  | .dbInSet _ => true
  | .dbOut _ => true
  | .dbInMask _ => true
  | .dbOutMask _ => true
  | .qmask _ _ => true
  | .quireDoorbell _ => true
  | .dbTimeout _ => true
  | .ringCfg _ _ => true
  | .heartbeat _ => true
  | .bar4Seg _ => true
  | .fence _ _ => true
  | .pdReq _ => true
  | .droopCfg _ => true
  | .recoveryGo _ _ => true
  | .registerWrite bar2 offset width _ => regShape bar2 offset width
  | .nopCommand _ _ => true
  | .query _ _ _ => true
  | .loadProgram _ _ _ => true
  | .loadRegion _ _ => true
  | .exportRegion _ _ => true
  | .startTask _ _ => true
  | .abortTask _ _ => true
  | .setStep _ _ => true
  | .runUpdate _ _ => true
  | .readLedger _ _ _ => true
  | .readTelemetry _ _ _ => true
  | .setOperatingPoint _ _ => true
  | .setTopology _ _ => true
  | .topologyWaitExpiry => true
  | .linkControlRetrain _ _ => true
  | .linkControlDisable _ _ => true
  | .linkControlEnable _ _ => true
  | .linkControlClear _ _ => true
  | .resetCompute _ _ => true
  | .fwUpdate _ _ _ _ _ => true
  | .attest _ _ _ => true
  | .fencedCommandStart _ => true
  | .commandCompletion _ => true
  | .taskCompletion _ _ => true
  | .ident => true
  | .status => true
  | .fault => true
  | .power => true
  | .tempMax => true
  | .alertClear => true
  | .alertResponse => true
  | .msixVectorUnmask _ => true
  | .uncorrectableFlit _ => true
  | .faultFlitResend _ => true
  | .pcieLinkDown => true
  | .d3hot _ => true

/-- A command is well formed: the word of an instruction row carries the row's opcode, and every other operand has its
shape. -/
def Instr.wellFormed (i : Instr) : Bool :=
  (match i.wordOf with
   | some (op, w) => Machine.fld w 0 6 == op
   | none => true) && i.operandsOk

end Sys2Proof
end

