-- ==== Sys2Proof/Laws/PerInstr.lean ====
section
/-! SUPPORT. Statements over all commands, one lemma per constructor. -/

namespace Sys2Proof.Laws.OpcodeField

/-- In a well-formed instruction row the low six bits of the word are the row's opcode, which is below 59 (R284). -/
def Statement (i : Instr) : Prop :=
  i.wellFormed = true → ∀ p, i.wordOf = some p → Machine.fld p.2 0 6 = p.1 ∧ p.1 < 59

/-- The common proof of an instruction row. -/
theorem of_row {i : Instr} {op : Nat} {w : Word} (hw : i.wordOf = some (op, w)) (hop : op < 59) : Statement i := by
  intro h p hp
  rw [hw] at hp
  cases hp
  simp only [Instr.wellFormed, hw, Bool.and_eq_true, beq_iff_eq] at h
  exact ⟨h.1, hop⟩

theorem nop (q : QuireId) (t : TaskId) (w : Word) : Statement (.nop q t w) := of_row rfl (by decide)
theorem alu (q : QuireId) (t : TaskId) (w : Word) : Statement (.alu q t w) := of_row rfl (by decide)
theorem addi (q : QuireId) (t : TaskId) (w : Word) : Statement (.addi q t w) := of_row rfl (by decide)
theorem andi (q : QuireId) (t : TaskId) (w : Word) : Statement (.andi q t w) := of_row rfl (by decide)
theorem ori (q : QuireId) (t : TaskId) (w : Word) : Statement (.ori q t w) := of_row rfl (by decide)
theorem xori (q : QuireId) (t : TaskId) (w : Word) : Statement (.xori q t w) := of_row rfl (by decide)
theorem shli (q : QuireId) (t : TaskId) (w : Word) : Statement (.shli q t w) := of_row rfl (by decide)
theorem shri (q : QuireId) (t : TaskId) (w : Word) : Statement (.shri q t w) := of_row rfl (by decide)
theorem srai (q : QuireId) (t : TaskId) (w : Word) : Statement (.srai q t w) := of_row rfl (by decide)
theorem slti (q : QuireId) (t : TaskId) (w : Word) : Statement (.slti q t w) := of_row rfl (by decide)
theorem li (q : QuireId) (t : TaskId) (w : Word) : Statement (.li q t w) := of_row rfl (by decide)
theorem lih (q : QuireId) (t : TaskId) (w : Word) : Statement (.lih q t w) := of_row rfl (by decide)
theorem gets (q : QuireId) (t : TaskId) (w : Word) : Statement (.gets q t w) := of_row rfl (by decide)
theorem br (q : QuireId) (t : TaskId) (w : Word) : Statement (.br q t w) := of_row rfl (by decide)
theorem j (q : QuireId) (t : TaskId) (w : Word) : Statement (.j q t w) := of_row rfl (by decide)
theorem call (q : QuireId) (t : TaskId) (w : Word) : Statement (.call q t w) := of_row rfl (by decide)
theorem ret (q : QuireId) (t : TaskId) (w : Word) : Statement (.ret q t w) := of_row rfl (by decide)
theorem idle (q : QuireId) (t : TaskId) (w : Word) : Statement (.idle q t w) := of_row rfl (by decide)
theorem yield (q : QuireId) (t : TaskId) (w : Word) : Statement (.yield q t w) := of_row rfl (by decide)
theorem endTask (q : QuireId) (t : TaskId) (w : Word) : Statement (.endTask q t w) := of_row rfl (by decide)
theorem ringdb (q : QuireId) (t : TaskId) (w : Word) : Statement (.ringdb q t w) := of_row rfl (by decide)
theorem getdb (q : QuireId) (t : TaskId) (w : Word) : Statement (.getdb q t w) := of_row rfl (by decide)
theorem tile (q : QuireId) (t : TaskId) (w : Word) : Statement (.tile q t w) := of_row rfl (by decide)
theorem wpanel (q : QuireId) (t : TaskId) (w : Word) : Statement (.wpanel q t w) := of_row rfl (by decide)
theorem vop (q : QuireId) (t : TaskId) (w : Word) : Statement (.vop q t w) := of_row rfl (by decide)
theorem inject (q : QuireId) (t : TaskId) (w : Word) : Statement (.inject q t w) := of_row rfl (by decide)
theorem land (q : QuireId) (t : TaskId) (w : Word) : Statement (.land q t w) := of_row rfl (by decide)
theorem copy (q : QuireId) (t : TaskId) (w : Word) : Statement (.copy q t w) := of_row rfl (by decide)
theorem reduce (q : QuireId) (t : TaskId) (w : Word) : Statement (.reduce q t w) := of_row rfl (by decide)
theorem splice (q : QuireId) (t : TaskId) (w : Word) : Statement (.splice q t w) := of_row rfl (by decide)
theorem stream (q : QuireId) (t : TaskId) (w : Word) : Statement (.stream q t w) := of_row rfl (by decide)
theorem sdload (q : QuireId) (t : TaskId) (w : Word) : Statement (.sdload q t w) := of_row rfl (by decide)
theorem waits (q : QuireId) (t : TaskId) (w : Word) : Statement (.waits q t w) := of_row rfl (by decide)
theorem waitw (q : QuireId) (t : TaskId) (w : Word) : Statement (.waitw q t w) := of_row rfl (by decide)
theorem swap (q : QuireId) (t : TaskId) (w : Word) : Statement (.swap q t w) := of_row rfl (by decide)
theorem sethp (q : QuireId) (t : TaskId) (w : Word) : Statement (.sethp q t w) := of_row rfl (by decide)
theorem lwait (q : QuireId) (t : TaskId) (w : Word) : Statement (.lwait q t w) := of_row rfl (by decide)
theorem xwait (q : QuireId) (t : TaskId) (w : Word) : Statement (.xwait q t w) := of_row rfl (by decide)
theorem upd (q : QuireId) (t : TaskId) (w : Word) : Statement (.upd q t w) := of_row rfl (by decide)
theorem uget (q : QuireId) (t : TaskId) (w : Word) : Statement (.uget q t w) := of_row rfl (by decide)
theorem ustat (q : QuireId) (t : TaskId) (w : Word) : Statement (.ustat q t w) := of_row rfl (by decide)
theorem tileDrain (q : QuireId) : Statement (.tileDrain q) := fun _ _ h => nomatch h
theorem gatheringResume (q : QuireId) (periods : Nat) : Statement (.gatheringResume q periods) := fun _ _ h => nomatch h
theorem runAheadStart (q : QuireId) : Statement (.runAheadStart q) := fun _ _ h => nomatch h
theorem landingComplete (q : QuireId) (ix : Nat) : Statement (.landingComplete q ix) := fun _ _ h => nomatch h
theorem writeComplete (q : QuireId) (ix : Nat) : Statement (.writeComplete q ix) := fun _ _ h => nomatch h
theorem messageAccept (port : LinkId) : Statement (.messageAccept port) := fun _ _ h => nomatch h
theorem messageLanded (port : LinkId) : Statement (.messageLanded port) := fun _ _ h => nomatch h
theorem dataFlit (link : LinkId) (bytes : List Byte) : Statement (.dataFlit link bytes) := fun _ _ h => nomatch h
theorem ctrlFlit (link : LinkId) (bytes : List Byte) : Statement (.ctrlFlit link bytes) := fun _ _ h => nomatch h
theorem heartbeatFlit (link : LinkId) (bytes : List Byte) : Statement (.heartbeatFlit link bytes) := fun _ _ h => nomatch h
theorem trainFlit (link : LinkId) (phys : Nat) (deviceId : BitVec 32) (peerPort : Nat) (job : Word) : Statement (.trainFlit link phys deviceId peerPort job) := fun _ _ h => nomatch h
theorem faultFlit (link : LinkId) (bytes : List Byte) : Statement (.faultFlit link bytes) := fun _ _ h => nomatch h
theorem replayTimeout (link : LinkId) : Statement (.replayTimeout link) := fun _ _ h => nomatch h
theorem ackTimeout (link : LinkId) : Statement (.ackTimeout link) := fun _ _ h => nomatch h
theorem heartbeatTimeout (link : LinkId) : Statement (.heartbeatTimeout link) := fun _ _ h => nomatch h
theorem silence (link : LinkId) : Statement (.silence link) := fun _ _ h => nomatch h
theorem promise (port : LinkId) : Statement (.promise port) := fun _ _ h => nomatch h
theorem partialMsg (port : LinkId) : Statement (.partialMsg port) := fun _ _ h => nomatch h
theorem linkTraining (link : LinkId) : Statement (.linkTraining link) := fun _ _ h => nomatch h
theorem linkTrained (link : LinkId) (lanes : BitVec 8) : Statement (.linkTrained link lanes) := fun _ _ h => nomatch h
theorem backgroundRetrain : Statement (.backgroundRetrain) := fun _ _ h => nomatch h
theorem faultPath (src : FaultSource) : Statement (.faultPath src) := fun _ _ h => nomatch h
theorem faultRecord : Statement (.faultRecord) := fun _ _ h => nomatch h
theorem waitTimeout (q : QuireId) (t : TaskId) : Statement (.waitTimeout q t) := fun _ _ h => nomatch h
theorem throttleResume (q : QuireId) (periods : Nat) : Statement (.throttleResume q periods) := fun _ _ h => nomatch h
theorem droopStretch (folio : FolioId) (droop : Nat) : Statement (.droopStretch folio droop) := fun _ _ h => nomatch h
theorem operatingPointChange : Statement (.operatingPointChange) := fun _ _ h => nomatch h
theorem referenceLoss : Statement (.referenceLoss) := fun _ _ h => nomatch h
theorem holdoverExpiry : Statement (.holdoverExpiry) := fun _ _ h => nomatch h
theorem referenceTimeout : Statement (.referenceTimeout) := fun _ _ h => nomatch h
theorem referenceReturn : Statement (.referenceReturn) := fun _ _ h => nomatch h
theorem powerTrip (watts fraction : BitVec 16) : Statement (.powerTrip watts fraction) := fun _ _ h => nomatch h
theorem thermalTrip (sensor : Fin 24) (temp : BitVec 16) : Statement (.thermalTrip sensor temp) := fun _ _ h => nomatch h
theorem thermalWarning (sensor : Fin 24) (temp : BitVec 16) : Statement (.thermalWarning sensor temp) := fun _ _ h => nomatch h
theorem powerDomainOn (pd : Fin 30) : Statement (.powerDomainOn pd) := fun _ _ h => nomatch h
theorem scrub (q : QuireId) (wIdle mIdle : Nat) (upsets : List Upset) : Statement (.scrub q wIdle mIdle upsets) := fun _ _ h => nomatch h
theorem fixQueueWriteback (q : QuireId) (bank : Fin 4) : Statement (.fixQueueWriteback q bank) := fun _ _ h => nomatch h
theorem traceIncidentEnd (folio : FolioId) : Statement (.traceIncidentEnd folio) := fun _ _ h => nomatch h
theorem watchdog : Statement (.watchdog) := fun _ _ h => nomatch h
theorem coldPowerOn (env : BootEnv) : Statement (.coldPowerOn env) := fun _ _ h => nomatch h
theorem powerLoss : Statement (.powerLoss) := fun _ _ h => nomatch h
theorem perstAssert : Statement (.perstAssert) := fun _ _ h => nomatch h
theorem perstRelease : Statement (.perstRelease) := fun _ _ h => nomatch h
theorem bar4Write (offset : Nat) (bytes : List Byte) : Statement (.bar4Write offset bytes) := fun _ _ h => nomatch h
theorem bar4Read (offset : Nat) (length : Nat) : Statement (.bar4Read offset length) := fun _ _ h => nomatch h
theorem unsupportedRequest (req : HostRequest) : Statement (.unsupportedRequest req) := fun _ _ h => nomatch h
theorem completionTimeout (ring : Fin 4) (tag : BitVec 16) : Statement (.completionTimeout ring tag) := fun _ _ h => nomatch h
theorem dbInSet (value : BitVec 32) : Statement (.dbInSet value) := fun _ _ h => nomatch h
theorem dbOut (value : BitVec 32) : Statement (.dbOut value) := fun _ _ h => nomatch h
theorem dbInMask (value : BitVec 32) : Statement (.dbInMask value) := fun _ _ h => nomatch h
theorem dbOutMask (value : BitVec 32) : Statement (.dbOutMask value) := fun _ _ h => nomatch h
theorem qmask (q : QuireId) (value : Word) : Statement (.qmask q value) := fun _ _ h => nomatch h
theorem quireDoorbell (q : QuireId) : Statement (.quireDoorbell q) := fun _ _ h => nomatch h
theorem dbTimeout (db : DoorbellAt) : Statement (.dbTimeout db) := fun _ _ h => nomatch h
theorem ringCfg (ring : Fin 4) (value : Word) : Statement (.ringCfg ring value) := fun _ _ h => nomatch h
theorem heartbeat (value : BitVec 32) : Statement (.heartbeat value) := fun _ _ h => nomatch h
theorem bar4Seg (value : Word) : Statement (.bar4Seg value) := fun _ _ h => nomatch h
theorem fence (window : Fin 4) (value : Word) : Statement (.fence window value) := fun _ _ h => nomatch h
theorem pdReq (value : Word) : Statement (.pdReq value) := fun _ _ h => nomatch h
theorem droopCfg (value : Word) : Statement (.droopCfg value) := fun _ _ h => nomatch h
theorem recoveryGo (value : Word) (verified : Bool) : Statement (.recoveryGo value verified) := fun _ _ h => nomatch h
theorem registerWrite (bar2 : Bool) (offset : Nat) (width : Nat) (value : Word) : Statement (.registerWrite bar2 offset width value) := fun _ _ h => nomatch h
theorem nopCommand (ring : Fin 4) (pkt : Packet) : Statement (.nopCommand ring pkt) := fun _ _ h => nomatch h
theorem query (ring : Fin 4) (pkt : Packet) (host : Option (List Byte)) : Statement (.query ring pkt host) := fun _ _ h => nomatch h
theorem loadProgram (ring : Fin 4) (pkt : Packet) (host : Option (List Byte)) : Statement (.loadProgram ring pkt host) := fun _ _ h => nomatch h
theorem loadRegion (ring : Fin 4) (pkt : Packet) : Statement (.loadRegion ring pkt) := fun _ _ h => nomatch h
theorem exportRegion (ring : Fin 4) (pkt : Packet) : Statement (.exportRegion ring pkt) := fun _ _ h => nomatch h
theorem startTask (ring : Fin 4) (pkt : Packet) : Statement (.startTask ring pkt) := fun _ _ h => nomatch h
theorem abortTask (ring : Fin 4) (pkt : Packet) : Statement (.abortTask ring pkt) := fun _ _ h => nomatch h
theorem setStep (ring : Fin 4) (pkt : Packet) : Statement (.setStep ring pkt) := fun _ _ h => nomatch h
theorem runUpdate (ring : Fin 4) (pkt : Packet) : Statement (.runUpdate ring pkt) := fun _ _ h => nomatch h
theorem readLedger (ring : Fin 4) (pkt : Packet) (host : Option (List Byte)) : Statement (.readLedger ring pkt host) := fun _ _ h => nomatch h
theorem readTelemetry (ring : Fin 4) (pkt : Packet) (host : Option (List Byte)) : Statement (.readTelemetry ring pkt host) := fun _ _ h => nomatch h
theorem setOperatingPoint (ring : Fin 4) (pkt : Packet) : Statement (.setOperatingPoint ring pkt) := fun _ _ h => nomatch h
theorem setTopology (ring : Fin 4) (pkt : Packet) : Statement (.setTopology ring pkt) := fun _ _ h => nomatch h
theorem topologyWaitExpiry : Statement (.topologyWaitExpiry) := fun _ _ h => nomatch h
theorem linkControlRetrain (ring : Fin 4) (pkt : Packet) : Statement (.linkControlRetrain ring pkt) := fun _ _ h => nomatch h
theorem linkControlDisable (ring : Fin 4) (pkt : Packet) : Statement (.linkControlDisable ring pkt) := fun _ _ h => nomatch h
theorem linkControlEnable (ring : Fin 4) (pkt : Packet) : Statement (.linkControlEnable ring pkt) := fun _ _ h => nomatch h
theorem linkControlClear (ring : Fin 4) (pkt : Packet) : Statement (.linkControlClear ring pkt) := fun _ _ h => nomatch h
theorem resetCompute (ring : Fin 4) (pkt : Packet) : Statement (.resetCompute ring pkt) := fun _ _ h => nomatch h
theorem fwUpdate (ring : Fin 4) (pkt : Packet) (host : Option (List Byte)) (verified written : Bool) : Statement (.fwUpdate ring pkt host verified written) := fun _ _ h => nomatch h
theorem attest (ring : Fin 4) (pkt : Packet) (host : Option (List Byte)) : Statement (.attest ring pkt host) := fun _ _ h => nomatch h
theorem fencedCommandStart (ring : Fin 4) : Statement (.fencedCommandStart ring) := fun _ _ h => nomatch h
theorem commandCompletion (ring : Fin 4) : Statement (.commandCompletion ring) := fun _ _ h => nomatch h
theorem taskCompletion (ring : Fin 4) (tag : BitVec 16) : Statement (.taskCompletion ring tag) := fun _ _ h => nomatch h
theorem ident : Statement (.ident) := fun _ _ h => nomatch h
theorem status : Statement (.status) := fun _ _ h => nomatch h
theorem fault : Statement (.fault) := fun _ _ h => nomatch h
theorem power : Statement (.power) := fun _ _ h => nomatch h
theorem tempMax : Statement (.tempMax) := fun _ _ h => nomatch h
theorem alertClear : Statement (.alertClear) := fun _ _ h => nomatch h
theorem alertResponse : Statement (.alertResponse) := fun _ _ h => nomatch h
theorem msixVectorUnmask (vector : Fin 32) : Statement (.msixVectorUnmask vector) := fun _ _ h => nomatch h
theorem uncorrectableFlit (link : LinkId) : Statement (.uncorrectableFlit link) := fun _ _ h => nomatch h
theorem faultFlitResend (link : LinkId) : Statement (.faultFlitResend link) := fun _ _ h => nomatch h
theorem pcieLinkDown : Statement (.pcieLinkDown) := fun _ _ h => nomatch h
theorem d3hot (enter : Bool) : Statement (.d3hot enter) := fun _ _ h => nomatch h

end Sys2Proof.Laws.OpcodeField
end

