-- ==== Sys2Proof/Laws/Sound.lean ====
section
/-! SUPPORT. Canonical memories, legal operating points and reserved bits, in the form in which every operation keeps
them: `Ok K s` claims of a state the parts that K names, and simp finds that an operation keeps it. -/

namespace Sys2Proof.Machine

/-- Which of the three properties is claimed. -/
structure Parts where
  mem : Bool
  point : Bool
  rsv : Bool

/-- A memory is in canonical form, where that is claimed. -/
def MOk (K : Parts) (m : Mem) : Prop := K.mem = true → Mem.wf m = true

/-- The endpapers are. -/
def EndsOk (K : Parts) (e : Vector Mem 26) : Prop := K.mem = true → ∀ l : Fin 26, Mem.wf e[l] = true

/-- The memories of a quire are. -/
def QMemOk (K : Parts) (m : QuireMem) : Prop := K.mem = true → m.canonical

/-- The descriptor table of a task context is. -/
def TOk (K : Parts) (tk : Task) : Prop := MOk K tk.sdt

/-- Those of four task contexts are. -/
def TsOk (K : Parts) (ts : Vector Task 4) : Prop := ∀ t : Fin 4, TOk K ts[t]

/-- Bits outside a mask are 0, where that is claimed. -/
def ROk (K : Parts) (m w : Word) : Prop := K.rsv = true → w &&& ~~~m = 0

/-- The claimed properties of a quire. -/
structure QOk (K : Parts) (qr : Quire) : Prop where
  mem : QMemOk K qr.mem
  tasks : TsOk K qr.seq.tasks
  config : ROk K 3 qr.array.config
  scrub : ROk K 0xFF01 qr.bank.scrubCtl

/-- Those of all quires. -/
def QsOk (K : Parts) (qs : Vector Quire 64) : Prop := ∀ q : Fin 64, QOk K qs[q]

/-- An index names an operating point, where that is claimed. -/
def IxOk (K : Parts) (n : Nat) : Prop := K.point = true → n ≤ 6

/-- So does one that may be absent. -/
def IxsOk (K : Parts) (n : Option Nat) : Prop := K.point = true → ∀ r, n = some r → r ≤ 6

/-- The claimed properties of the clock root. -/
structure ClkOk (K : Parts) (c : Clk) : Prop where
  current : IxOk K c.current
  target : IxOk K c.target
  restore : IxsOk K c.restore
  droop : ROk K 0xFFFF c.droopCfg

/-- The claimed properties of the die-wide contract registers. -/
structure ConOk (K : Parts) (c : Contract) : Prop where
  debug : ROk K 0xFF07 c.debugCtl
  wait : ROk K 0xFFFF_FFFF c.waitLimit

/-- The claimed properties of the state. -/
structure Ok (K : Parts) (s : State) : Prop where
  far : MOk K s.far
  ends : EndsOk K s.endpapers
  quires : QsOk K s.quires
  clk : ClkOk K s.clk
  former : IxOk K s.bind.formerIndex
  con : ConOk K s.con
  alarm : ROk K 0xFFFF_FFF1 s.trace.alarmCfg

variable {K : Parts}

/-! ## The three properties by themselves -/

theorem QOk.canonical {qr : Quire} (h : QOk K qr) (hk : K.mem = true) : qr.canonical := ⟨h.mem hk, fun t => h.tasks t hk⟩

theorem QOk.reservedZero {qr : Quire} (h : QOk K qr) (hk : K.rsv = true) : qr.reservedZero := ⟨h.config hk, h.scrub hk⟩

theorem Ok.canonical {s : State} (h : Ok K s) (hk : K.mem = true) : s.canonical :=
  ⟨h.far hk, h.ends hk, fun q => (h.quires q).canonical hk⟩

theorem Ok.pointLegal {s : State} (h : Ok K s) (hk : K.point = true) : s.pointLegal :=
  ⟨h.clk.current hk, h.clk.target hk, h.clk.restore hk, h.former hk⟩

theorem Ok.reservedZero {s : State} (h : Ok K s) (hk : K.rsv = true) : s.reservedZero :=
  ⟨h.con.debug hk, h.con.wait hk, h.alarm hk, h.clk.droop hk, fun q => (h.quires q).reservedZero hk⟩

/-- Canonical memories alone. -/
theorem Ok.of_canonical {s : State} (h : s.canonical) : Ok ⟨true, false, false⟩ s :=
  { far := fun _ => h.1, ends := fun _ => h.2.1,
    quires := fun q => { mem := fun _ => (h.2.2 q).1, tasks := fun t _ => (h.2.2 q).2 t, config := nofun, scrub := nofun },
    clk := { current := nofun, target := nofun, restore := nofun, droop := nofun },
    former := nofun, con := { debug := nofun, wait := nofun }, alarm := nofun }

/-- Legal operating points alone. -/
theorem Ok.of_pointLegal {s : State} (h : s.pointLegal) : Ok ⟨false, true, false⟩ s :=
  { far := nofun, ends := nofun,
    quires := fun _ => { mem := nofun, tasks := fun _ => nofun, config := nofun, scrub := nofun },
    clk := { current := fun _ => h.1, target := fun _ => h.2.1, restore := fun _ => h.2.2.1, droop := nofun },
    former := fun _ => h.2.2.2, con := { debug := nofun, wait := nofun }, alarm := nofun }

/-- Reserved bits alone. -/
theorem Ok.of_reservedZero {s : State} (h : s.reservedZero) : Ok ⟨false, false, true⟩ s :=
  { far := nofun, ends := nofun,
    quires := fun q => { mem := nofun, tasks := fun _ => nofun, config := fun _ => (h.2.2.2.2 q).1, scrub := fun _ => (h.2.2.2.2 q).2 },
    clk := { current := nofun, target := nofun, restore := nofun, droop := fun _ => h.2.2.2.1 },
    former := nofun, con := { debug := fun _ => h.1, wait := fun _ => h.2.1 }, alarm := fun _ => h.2.2.1 }

/-! ## Records field by field -/

theorem ok_mk {Q : Vector Quire 64} {sp : Spine} {n e : Int} {F : Mem} {E : Vector Mem 26} {m : Vector Mc 4} {c : Contract}
    {cl : Clk} {p : Pwr} {l : Vector Link 26} {po : Vector Port 26} {ho : HostIf} {mb : Mbox} {b : Bindery} {t : Trace}
    {fl : Flash} {hi : HostIn} {o : Out} {w : List (Nat × Word)} {fr : Nat} {pe : List Instr} :
    Ok K (State.mk Q sp n e F E m c cl p l po ho mb b t fl hi o w fr pe) ↔
      MOk K F ∧ EndsOk K E ∧ QsOk K Q ∧ ClkOk K cl ∧ IxOk K b.formerIndex ∧ ConOk K c ∧ ROk K 0xFFFF_FFF1 t.alarmCfg :=
  ⟨fun h => ⟨h.far, h.ends, h.quires, h.clk, h.former, h.con, h.alarm⟩, fun ⟨h1, h2, h3, h4, h5, h6, h7⟩ => ⟨h1, h2, h3, h4, h5, h6, h7⟩⟩

theorem qok_mk {m : QuireMem} {a : ArrayUnit} {r : RingStop} {b : BankUnit} {st : StreamUnit} {v : VecUnit} {bw : BwdUnit}
    {u : UpdUnit} {sq : SeqUnit} {hi hc ii : Word} {ic : Vector Word 8} {lg : Vector LedgerSlot 256} {cl : List Claim}
    {po : List Access} {fl : List Event} {so eo : Int} {up : List Upset} {qm qf : Word} {dt df : BitVec 32}
    {ts fs : Vector Nat 32} :
    QOk K (Quire.mk m a r b st v bw u sq hi hc ii ic lg cl po fl so eo up qm qf dt df ts fs) ↔
      QMemOk K m ∧ TsOk K sq.tasks ∧ ROk K 3 a.config ∧ ROk K 0xFF01 b.scrubCtl :=
  ⟨fun h => ⟨h.mem, h.tasks, h.config, h.scrub⟩, fun ⟨h1, h2, h3, h4⟩ => ⟨h1, h2, h3, h4⟩⟩

theorem tok_mk {co : Word} {pc : BitVec 14} {st : TaskState} {sr : Vector Word 32} {pe : List PendReg} {bo re mw : Word}
    {hp : Vector HalfPair 8} {sd : Mem} {sp : List PendLoad} {ar : Word} {hw : Option Word} {hk : WaitKind} {hc hs sa iu : Nat}
    {jo : Bool} {eb rl : Nat} :
    TOk K (Task.mk co pc st sr pe bo re mw hp sd sp ar hw hk hc hs sa iu jo eb rl) ↔ MOk K sd := Iff.rfl

theorem qmemok_mk {w m s g a p st h0 h1 pr da ds : Mem} :
    QMemOk K (QuireMem.mk w m s g a p st h0 h1 pr da ds) ↔
      MOk K w ∧ MOk K m ∧ MOk K s ∧ MOk K g ∧ MOk K a ∧ MOk K p ∧ MOk K st ∧ MOk K h0 ∧ MOk K h1 ∧ MOk K pr ∧ MOk K da
        ∧ MOk K ds := by
  constructor
  · intro h
    refine ⟨?_, ?_, ?_, ?_, ?_, ?_, ?_, ?_, ?_, ?_, ?_, ?_⟩ <;> intro hk <;> have := h hk <;>
      simp only [QuireMem.canonical] at this <;> tauto
  · rintro ⟨h1, h2, h3, h4, h5, h6, h7, h8, h9, h10, h11, h12⟩ hk
    exact ⟨h1 hk, h2 hk, h3 hk, h4 hk, h5 hk, h6 hk, h7 hk, h8 hk, h9 hk, h10 hk, h11 hk, h12 hk⟩

theorem clkok_mk {st : Word} {cu ta : Nat} {op : Bool} {so ca : Nat} {rs : Bool} {ke : Word} {lo pr : Bool} {ls lt : BitVec 16}
    {il : Bool} {lk : Nat} {ps re : Option Nat} {qt ha : Vector (BitVec 32) 16} {dc dx : Word} :
    ClkOk K (Clk.mk st cu ta op so ca rs ke lo pr ls lt il lk ps re qt ha dc dx) ↔
      IxOk K cu ∧ IxOk K ta ∧ IxsOk K re ∧ ROk K 0xFFFF dc :=
  ⟨fun h => ⟨h.current, h.target, h.restore, h.droop⟩, fun ⟨h1, h2, h3, h4⟩ => ⟨h1, h2, h3, h4⟩⟩

theorem conok_mk {po : Word} {dp : Nat} {fp : Vector Nat 16} {tf dc da wl wf : Word} {xc : Vector Word 32}
    {xn : Vector (BitVec 32) 32} {xl : Vector (List Nat) 32} {th : List (Nat × Nat)} :
    ConOk K (Contract.mk po dp fp tf dc da wl wf xc xn xl th) ↔ ROk K 0xFF07 dc ∧ ROk K 0xFFFF_FFFF wl :=
  ⟨fun h => ⟨h.debug, h.wait⟩, fun ⟨h1, h2⟩ => ⟨h1, h2⟩⟩

/-! ## The parts of a state, a quire, a clock that have them -/

theorem rok_and {m v : Word} : ROk K m (v &&& m) := fun _ => by
  rw [BitVec.and_assoc, BitVec.and_not_self]
  exact BitVec.and_zero

theorem QOk.task {qr : Quire} (h : QOk K qr) (t : Fin 4) : TOk K qr.seq.tasks[t] := h.tasks t

theorem TOk.table {tk : Task} (h : TOk K tk) : MOk K tk.sdt := h

theorem QOk.weight {qr : Quire} (h : QOk K qr) : MOk K qr.mem.weight := (qmemok_mk.1 h.mem).1
theorem QOk.moment {qr : Quire} (h : QOk K qr) : MOk K qr.mem.moment := (qmemok_mk.1 h.mem).2.1
theorem QOk.scale {qr : Quire} (h : QOk K qr) : MOk K qr.mem.scale := (qmemok_mk.1 h.mem).2.2.1
theorem QOk.grad {qr : Quire} (h : QOk K qr) : MOk K qr.mem.grad := (qmemok_mk.1 h.mem).2.2.2.1
theorem QOk.act {qr : Quire} (h : QOk K qr) : MOk K qr.mem.act := (qmemok_mk.1 h.mem).2.2.2.2.1
theorem QOk.ps {qr : Quire} (h : QOk K qr) : MOk K qr.mem.ps := (qmemok_mk.1 h.mem).2.2.2.2.2.1
theorem QOk.stg {qr : Quire} (h : QOk K qr) : MOk K qr.mem.stg := (qmemok_mk.1 h.mem).2.2.2.2.2.2.1
theorem QOk.half0 {qr : Quire} (h : QOk K qr) : MOk K qr.mem.half0 := (qmemok_mk.1 h.mem).2.2.2.2.2.2.2.1
theorem QOk.half1 {qr : Quire} (h : QOk K qr) : MOk K qr.mem.half1 := (qmemok_mk.1 h.mem).2.2.2.2.2.2.2.2.1
theorem QOk.prog {qr : Quire} (h : QOk K qr) : MOk K qr.mem.prog := (qmemok_mk.1 h.mem).2.2.2.2.2.2.2.2.2.1
theorem QOk.descActive {qr : Quire} (h : QOk K qr) : MOk K qr.mem.descActive := (qmemok_mk.1 h.mem).2.2.2.2.2.2.2.2.2.2.1
theorem QOk.descShadow {qr : Quire} (h : QOk K qr) : MOk K qr.mem.descShadow := (qmemok_mk.1 h.mem).2.2.2.2.2.2.2.2.2.2.2

theorem Ok.quire {s : State} (h : Ok K s) (q : Fin 64) : QOk K s.quires[q] := h.quires q

/-! ## Memories -/

theorem nil_mok : MOk K [] := fun _ => rfl

theorem writeBytes_mok {m : Mem} (h : MOk K m) (a : Nat) (bs : List Byte) : MOk K (writeBytes m a bs) :=
  fun hk => writeBytes_wf (h hk) a bs

theorem writeRow_mok {m : Mem} (h : MOk K m) (r : Nat) (bs : List Byte) : MOk K (writeRow m r bs) := writeBytes_mok h _ _

theorem writeRows_mok {m : Mem} (h : MOk K m) (r : Nat) (rows : List (List Byte)) : MOk K (writeRows m r rows) :=
  fun hk => writeRows_wf (h hk) r rows

theorem iteM_ok {c : Prop} [Decidable c] {a b : Mem} (ha : MOk K a) (hb : MOk K b) : MOk K (if c then a else b) := by
  split
  · exact ha
  · exact hb

theorem foldlM_ok {α : Type} {f : Mem → α → Mem} (hf : ∀ m x, MOk K m → MOk K (f m x)) (l : List α) :
    ∀ {m : Mem}, MOk K m → MOk K (l.foldl f m) := by
  induction l with
  | nil => exact fun h => h
  | cons x l ih => exact fun h => ih (hf _ x h)

theorem ends_set {e : Vector Mem 26} (h : EndsOk K e) (l : Fin 26) {m : Mem} (hm : MOk K m) : EndsOk K (e.set l m) := by
  intro hk j
  by_cases hj : j = l
  · subst hj
    simpa using hm hk
  · have hv : l.val ≠ j.val := fun e => hj (Fin.ext e.symm)
    simpa [hv] using h hk j

theorem ends_get {e : Vector Mem 26} (h : EndsOk K e) (l : Fin 26) : MOk K e[l] := fun hk => h hk l

/-! ## Quires -/

theorem tasks_set {ts : Vector Task 4} (h : TsOk K ts) (t : Fin 4) {tk : Task} (ht : TOk K tk) : TsOk K (ts.set t tk) := by
  intro j
  by_cases hj : j = t
  · subst hj
    simpa using ht
  · have hv : t.val ≠ j.val := fun e => hj (Fin.ext e.symm)
    simpa [hv] using h j

theorem tasks_map {ts : Vector Task 4} (h : TsOk K ts) {f : Task → Task} (hf : ∀ tk, TOk K tk → TOk K (f tk)) :
    TsOk K (ts.map f) := by
  intro j
  simpa using hf _ (h j)

theorem updTask_ok {qr : Quire} (h : QOk K qr) (t : Fin 4) {f : Task → Task} (hf : ∀ tk, TOk K tk → TOk K (f tk)) :
    QOk K (updTask qr t f) :=
  { mem := h.mem, tasks := tasks_set h.tasks t (hf _ (h.tasks t)), config := h.config, scrub := h.scrub }

theorem bookIdle_ok {qr : Quire} (h : QOk K qr) (cause n : Nat) : QOk K (bookIdle qr cause n) :=
  { mem := h.mem, tasks := h.tasks, config := h.config, scrub := h.scrub }

theorem quires_set {qs : Vector Quire 64} (h : QsOk K qs) (q : Fin 64) {qr : Quire} (hq : QOk K qr) : QsOk K (qs.set q qr) := by
  intro j
  by_cases hj : j = q
  · subst hj
    simpa using hq
  · have hv : q.val ≠ j.val := fun e => hj (Fin.ext e.symm)
    simpa [hv] using h j

theorem quires_map {qs : Vector Quire 64} (h : QsOk K qs) {f : Quire → Quire} (hf : ∀ qr, QOk K qr → QOk K (f qr)) :
    QsOk K (qs.map f) := by
  intro j
  simpa using hf _ (h j)

/-! ## States -/

theorem updQ_ok {s : State} (h : Ok K s) (q : Fin 64) {f : Quire → Quire} (hf : ∀ qr, QOk K qr → QOk K (f qr)) :
    Ok K (updQ s q f) := { h with quires := quires_set h.quires q (hf _ (h.quires q)) }

theorem updAllQ_ok {s : State} (h : Ok K s) {f : Fin 64 → Quire → Quire} (hf : ∀ q qr, QOk K qr → QOk K (f q qr)) :
    Ok K (updAllQ s f) := by
  refine ⟨?_, ?_, fun b => ?_, ?_, ?_, ?_, ?_⟩
  · simpa using h.far
  · simpa using h.ends
  · rw [updAllQ_quires]
    exact hf b _ (h.quires b)
  · simpa using h.clk
  · simpa using h.former
  · simpa using h.con
  · simpa using h.alarm

theorem updT_ok {s : State} (h : Ok K s) (q : Fin 64) (t : Fin 4) {f : Task → Task} (hf : ∀ tk, TOk K tk → TOk K (f tk)) :
    Ok K (updT s q t f) := updQ_ok h q (fun _ hq => updTask_ok hq t hf)

theorem updLink_ok {s : State} (h : Ok K s) (l : Fin 26) (f : Link → Link) : Ok K (updLink s l f) := { h with }

theorem updPort_ok {s : State} (h : Ok K s) (p : Fin 26) (f : Port → Port) : Ok K (updPort s p f) := { h with }

theorem farWrite_ok {s : State} (h : Ok K s) (a : Nat) (bs : List Byte) : Ok K (farWrite s a bs) :=
  { h with far := writeBytes_mok h.far a bs }

theorem foldl_ok {α : Type} {f : State → α → State} (hf : ∀ s x, Ok K s → Ok K (f s x)) (l : List α) :
    ∀ {s : State}, Ok K s → Ok K (l.foldl f s) := by
  induction l with
  | nil => exact fun h => h
  | cons x l ih => exact fun h => ih (hf _ x h)

theorem foldlQ_ok {α : Type} {f : Quire → α → Quire} (hf : ∀ qr x, QOk K qr → QOk K (f qr x)) (l : List α) :
    ∀ {qr : Quire}, QOk K qr → QOk K (l.foldl f qr) := by
  induction l with
  | nil => exact fun h => h
  | cons x l ih => exact fun h => ih (hf _ x h)

theorem foldlP_ok {α β : Type} {f : State × β → α → State × β} (hf : ∀ r x, Ok K r.1 → Ok K (f r x).1) (l : List α) :
    ∀ {r : State × β}, Ok K r.1 → Ok K (l.foldl f r).1 := by
  induction l with
  | nil => exact fun h => h
  | cons x l ih => exact fun h => ih (hf _ x h)

theorem ite_ok {c : Prop} [Decidable c] {a b : State} : Ok K (if c then a else b) ↔ if c then Ok K a else Ok K b := by
  split <;> rfl

theorem iteQ_ok {c : Prop} [Decidable c] {a b : Quire} : QOk K (if c then a else b) ↔ if c then QOk K a else QOk K b := by
  split <;> rfl

end Sys2Proof.Machine
end

