-- ==== Sys2Proof/Laws/SoundOps.lean ====
section
/-! SUPPORT. Memories, traces, alarms, doorbells, faults, claims and port accesses keep the claimed properties. -/

namespace Sys2Proof.Machine

variable {K : Parts}

theorem takeFree_ok {s : State} (h : Ok K s) : Ok K (takeFree s).2 := by
  simp (maxDischargeDepth := 50) +contextual only [takeFree, ok_mk, Ok.far, Ok.ends, Ok.quires, Ok.clk, Ok.former, Ok.con, Ok.alarm, and_self, h]

theorem spadMem_ok {qr : Quire} (hqr : QOk K qr) (spad : Nat) : MOk K (spadMem qr spad) := by
  unfold spadMem
  split <;> simp (maxDischargeDepth := 50) +contextual only [QOk.act, QOk.ps, QOk.stg, hqr]

theorem setSpadMem_ok {qr : Quire} (hqr : QOk K qr) (spad : Nat) {m : Mem} (hm : MOk K m) : QOk K (setSpadMem qr spad m) := by
  unfold setSpadMem
  split <;> simp (maxDischargeDepth := 50) +contextual only [qok_mk, qmemok_mk, QOk.weight, QOk.moment, QOk.scale, QOk.grad, QOk.act, QOk.ps, QOk.stg, QOk.half0, QOk.half1, QOk.prog, QOk.descActive, QOk.descShadow, QOk.tasks, QOk.config, QOk.scrub, and_self, hqr, hm]

theorem putRows_ok {qr : Quire} (hqr : QOk K qr) (spad : Nat) (row : Nat) (rows : List (List Byte)) : QOk K (putRows qr spad row rows) := by
  simp (maxDischargeDepth := 50) +contextual only [putRows, setSpadMem_ok, spadMem_ok, qok_mk, QOk.mem, QOk.tasks, QOk.config, QOk.scrub, writeRows_mok, and_self, hqr]

theorem halfMem_ok {qr : Quire} (hqr : QOk K qr) (h : Nat) : MOk K (halfMem qr h) := by
  simp (maxDischargeDepth := 50) +contextual only [halfMem, iteM_ok, QOk.half0, QOk.half1, hqr]

theorem setHalf_ok {qr : Quire} (hqr : QOk K qr) (h : Nat) {m : Mem} (hm : MOk K m) (st : Nat) : QOk K (setHalf qr h m st) := by
  simp (maxDischargeDepth := 50) +contextual only [setHalf, iteQ_ok, qok_mk, qmemok_mk, QOk.weight, QOk.moment, QOk.scale, QOk.grad, QOk.act, QOk.ps, QOk.stg, QOk.half0, QOk.half1, QOk.prog, QOk.descActive, QOk.descShadow, QOk.tasks, QOk.config, QOk.scrub, and_self, ite_self, hqr, hm]

theorem settleRegs_ok (x : Nat) {tk : Task} (htk : TOk K tk) : TOk K (settleRegs x tk) := by
  simp (maxDischargeDepth := 50) +contextual only [settleRegs, tok_mk, TOk.table, htk]

theorem writeReg_ok {tk : Task} (htk : TOk K tk) (r : Nat) (v : Word) (y : Nat) (byUnit : Bool) : TOk K (writeReg tk r v y byUnit) := by
  unfold writeReg
  split <;> simp (maxDischargeDepth := 50) +contextual only [tok_mk, TOk.table, htk]

theorem emit_ok {qr : Quire} (hqr : QOk K qr) (e : Event) : QOk K (emit qr e) := by
  simp (maxDischargeDepth := 50) +contextual only [emit, iteQ_ok, qok_mk, QOk.mem, QOk.tasks, QOk.config, QOk.scrub, and_self, ite_self, hqr]

theorem emitAll_ok {qr : Quire} (hqr : QOk K qr) (es : List Event) : QOk K (emitAll qr es) := by
  simp (maxDischargeDepth := 50) +contextual only [emitAll, emit_ok, foldlQ_ok, implies_true, hqr]

theorem later_ok {s : State} (h : Ok K s) (q : Fin 64) (t : Fin 4) (lc : Nat) (ph : Nat) (op : Micro) : Ok K (later s q t lc ph op) := by
  simp (maxDischargeDepth := 50) +contextual only [later, emit_ok, updQ_ok, implies_true, h]

theorem recordLedger_ok {qr : Quire} (hqr : QOk K qr) (n : Nat) (e : Events) : QOk K (recordLedger qr n e) := by
  simp (maxDischargeDepth := 50) +contextual only [recordLedger, qok_mk, QOk.mem, QOk.tasks, QOk.config, QOk.scrub, and_self, hqr]

theorem tracePut_ok {s : State} (h : Ok K s) (f : Fin 16) (rec : List Byte) : Ok K (tracePut s f rec) := by
  simp (maxDischargeDepth := 50) +contextual only [tracePut, ok_mk, Ok.far, Ok.ends, Ok.quires, Ok.clk, Ok.former, Ok.con, Ok.alarm, writeBytes_mok, and_self, h]

theorem alarm_ok {s : State} (h : Ok K s) (cause : Nat) (source : Nat) (detail : Nat) : Ok K (alarm s cause source detail) := by
  simp (maxDischargeDepth := 50) +contextual only [alarm, ok_mk, Ok.far, Ok.ends, Ok.quires, Ok.clk, Ok.former, Ok.con, Ok.alarm, and_self, h]

theorem traceIncident_ok {s : State} (h : Ok K s) (f : Fin 16) (rec : List Byte) : Ok K (traceIncident s f rec) := by
  unfold traceIncident
  split <;> simp (maxDischargeDepth := 50) +contextual only [alarm_ok, ite_ok, ok_mk, Ok.far, Ok.ends, Ok.quires, Ok.clk, Ok.former, Ok.con, Ok.alarm, and_self, ite_self, h]

theorem traceEvent_ok {s : State} (h : Ok K s) (f : Fin 16) (kind : Nat) (quire : Nat) (task : Nat) (lc : Nat) : Ok K (traceEvent s f kind quire task lc) := by
  simp (maxDischargeDepth := 50) +contextual only [traceEvent, takeFree_ok, traceIncident_ok, tracePut_ok, ite_ok, ok_mk, Ok.far, Ok.ends, Ok.quires, Ok.clk, Ok.former, Ok.con, Ok.alarm, and_self, ite_self, h]

theorem traceQ_ok {s : State} (h : Ok K s) (q : Fin 64) (t : Fin 4) (kind : Nat) : Ok K (traceQ s q t kind) := by
  simp (maxDischargeDepth := 50) +contextual only [traceQ, traceEvent_ok, h]

theorem sendMsix_ok {s : State} (h : Ok K s) (n : Fin 32) : Ok K (sendMsix s n) := by
  simp (maxDischargeDepth := 50) +contextual only [sendMsix, ite_ok, ok_mk, Ok.far, Ok.ends, Ok.quires, Ok.clk, Ok.former, Ok.con, Ok.alarm, and_self, ite_self, h]

theorem setW1c_ok (a : Nat) (bits : Word) {s : State} (h : Ok K s) : Ok K (setW1c a bits s) := by
  simp (maxDischargeDepth := 50) +contextual only [setW1c, ok_mk, Ok.far, Ok.ends, Ok.quires, Ok.clk, Ok.former, Ok.con, Ok.alarm, and_self, h]

theorem ringHostRaw_ok {s : State} (h : Ok K s) (n : Fin 32) : Ok K (ringHostRaw s n) := by
  simp (maxDischargeDepth := 50) +contextual only [ringHostRaw, setW1c_ok, sendMsix_ok, ite_ok, ok_mk, Ok.far, Ok.ends, Ok.quires, Ok.clk, Ok.former, Ok.con, Ok.alarm, and_self, ite_self, h]

theorem ringQuireRaw_ok {s : State} (h : Ok K s) (q : Fin 64) (n : Fin 32) : Ok K (ringQuireRaw s q n) := by
  simp (maxDischargeDepth := 50) +contextual only [ringQuireRaw, iteQ_ok, qok_mk, QOk.mem, QOk.tasks, QOk.config, QOk.scrub, updQ_ok, and_self, ite_self, implies_true, h]

theorem timeoutAlarm_ok {s : State} (h : Ok K s) (source : Nat) : Ok K (timeoutAlarm s source) := by
  simp (maxDischargeDepth := 50) +contextual only [timeoutAlarm, alarm_ok, takeFree_ok, h]

theorem setTimeout_ok {s : State} (h : Ok K s) (n : Fin 32) : Ok K (setTimeout s n) := by
  simp (maxDischargeDepth := 50) +contextual only [setTimeout, setW1c_ok, ok_mk, Ok.far, Ok.ends, Ok.quires, Ok.clk, Ok.former, Ok.con, Ok.alarm, and_self, h]

theorem flagHost_ok {s : State} (h : Ok K s) (n : Fin 32) : Ok K (flagHost s n) := by
  simp (maxDischargeDepth := 50) +contextual only [flagHost, setTimeout_ok, ringHostRaw_ok, timeoutAlarm_ok, h]

theorem flagQuires_ok {s : State} (h : Ok K s) (mask : Word) : Ok K (flagQuires s mask) := by
  simp (maxDischargeDepth := 50) +contextual only [flagQuires, ringQuireRaw_ok, timeoutAlarm_ok, ite_ok, foldl_ok, ite_self, implies_true, h]

theorem checkHost_ok {s : State} (h : Ok K s) (n : Fin 32) : Ok K (checkHost s n) := by
  simp (maxDischargeDepth := 50) +contextual only [checkHost, flagQuires_ok, ite_ok, ite_self, h]

theorem checkQuire_ok {s : State} (h : Ok K s) (q : Fin 64) (n : Fin 32) : Ok K (checkQuire s q n) := by
  simp (maxDischargeDepth := 50) +contextual only [checkQuire, flagHost_ok, ite_ok, ite_self, h]

theorem ringHost_ok {s : State} (h : Ok K s) (n : Fin 32) : Ok K (ringHost s n) := by
  simp (maxDischargeDepth := 50) +contextual only [ringHost, checkHost_ok, ringHostRaw_ok, ite_ok, ite_self, h]

theorem ringQuire_ok {s : State} (h : Ok K s) (q : Fin 64) (n : Fin 32) : Ok K (ringQuire s q n) := by
  simp (maxDischargeDepth := 50) +contextual only [ringQuire, checkQuire_ok, ringQuireRaw_ok, ite_ok, ite_self, h]

theorem alarmPut_ok {s : State} (h : Ok K s) (a : Alarm) : Ok K (alarmPut s a) := by
  simp (maxDischargeDepth := 50) +contextual only [alarmPut, ite_ok, iteM_ok, ok_mk, Ok.far, Ok.ends, Ok.quires, Ok.clk, Ok.former, Ok.con, Ok.alarm, writeBytes_mok, and_self, ite_self, h]

theorem flushAlarms_ok {s : State} (h : Ok K s) : Ok K (flushAlarms s) := by
  simp (maxDischargeDepth := 50) +contextual only [flushAlarms, alarmPut_ok, ringHost_ok, ite_ok, ok_mk, Ok.far, Ok.ends, Ok.quires, Ok.clk, Ok.former, Ok.con, Ok.alarm, foldl_ok, and_self, ite_self, implies_true, h]

theorem bankMem_ok {qr : Quire} (hqr : QOk K qr) (bank : Nat) : MOk K (bankMem qr bank) := by
  unfold bankMem
  split <;> simp (maxDischargeDepth := 50) +contextual only [QOk.weight, QOk.moment, QOk.scale, QOk.grad, hqr]

theorem setBankMem_ok {qr : Quire} (hqr : QOk K qr) (bank : Nat) {m : Mem} (hm : MOk K m) : QOk K (setBankMem qr bank m) := by
  unfold setBankMem
  split <;> simp (maxDischargeDepth := 50) +contextual only [qok_mk, qmemok_mk, QOk.weight, QOk.moment, QOk.scale, QOk.grad, QOk.act, QOk.ps, QOk.stg, QOk.half0, QOk.half1, QOk.prog, QOk.descActive, QOk.descShadow, QOk.tasks, QOk.config, QOk.scrub, and_self, hqr, hm]

theorem writeBank_ok {qr : Quire} (hqr : QOk K qr) (bank : Nat) (a : Nat) (bs : List Byte) : QOk K (writeBank qr bank a bs) := by
  simp (maxDischargeDepth := 50) +contextual only [writeBank, bankMem_ok, setBankMem_ok, qok_mk, QOk.mem, QOk.tasks, QOk.config, QOk.scrub, writeBytes_mok, and_self, hqr]

theorem noteCorrected_ok {s : State} (h : Ok K s) (q : Fin 64) (n : ReadNote) (scrub : Bool) (queue : Bool) : Ok K (noteCorrected s q n scrub queue) := by
  simp (maxDischargeDepth := 50) +contextual only [noteCorrected, alarm_ok, ite_ok, qok_mk, Ok.quire, QOk.mem, QOk.tasks, QOk.config, QOk.scrub, updQ_ok, and_self, ite_self, implies_true, apply_ite BankUnit.scrubCtl, h]

theorem noteUncorrectable_ok {qr : Quire} (hqr : QOk K qr) (n : ReadNote) (src : Nat) : QOk K (noteUncorrectable qr n src) := by
  simp (maxDischargeDepth := 50) +contextual only [noteUncorrectable, iteQ_ok, qok_mk, QOk.mem, QOk.tasks, QOk.config, QOk.scrub, and_self, ite_self, hqr]

theorem noteParity_ok {qr : Quire} (hqr : QOk K qr) (n : ReadNote) (src : Nat) : QOk K (noteParity qr n src) := by
  simp (maxDischargeDepth := 50) +contextual only [noteParity, iteQ_ok, qok_mk, QOk.mem, QOk.tasks, QOk.config, QOk.scrub, and_self, ite_self, hqr]

theorem noteReads_ok {s : State} (h : Ok K s) (q : Fin 64) (bankSrc : Nat) (spadSrc : Nat) (notes : List ReadNote) : Ok K (noteReads s q bankSrc spadSrc notes) := by
  simp (maxDischargeDepth := 50) +contextual only [noteReads, noteCorrected_ok, noteParity_ok, noteUncorrectable_ok, ite_ok, iteQ_ok, updQ_ok, foldl_ok, ite_self, implies_true, h]

theorem fixWriteBack_ok {qr : Quire} (hqr : QOk K qr) (bank : Nat) : QOk K (fixWriteBack qr bank) := by
  unfold fixWriteBack
  split <;> simp (maxDischargeDepth := 50) +contextual only [writeBank_ok, hqr]

theorem releaseOwned_ok {s : State} (h : Ok K s) (q : Fin 64) : Ok K (releaseOwned s q) := by
  simp (maxDischargeDepth := 50) +contextual only [releaseOwned, ok_mk, Ok.far, Ok.ends, Ok.quires, Ok.clk, Ok.former, Ok.con, Ok.alarm, and_self, h]

theorem discardLandings_ok {qr : Quire} (hqr : QOk K qr) (pick : Landing → Bool) : QOk K (discardLandings qr pick) := by
  simp (maxDischargeDepth := 50) +contextual only [discardLandings, qok_mk, QOk.mem, QOk.tasks, QOk.config, QOk.scrub, and_self, hqr]

theorem stopCommits_ok (boundary : Nat) (t : Fin 4) {qr : Quire} (hqr : QOk K qr) : QOk K (stopCommits boundary t qr) := by
  simp (maxDischargeDepth := 50) +contextual only [stopCommits, qok_mk, QOk.mem, QOk.tasks, QOk.config, QOk.scrub, and_self, hqr]

theorem dropWrites_ok {qr : Quire} (hqr : QOk K qr) (t : Fin 4) : QOk K (dropWrites qr t) := by
  simp (maxDischargeDepth := 50) +contextual only [dropWrites, qok_mk, QOk.mem, QOk.tasks, QOk.config, QOk.scrub, and_self, hqr]

theorem stopContext_ok (lc : Nat) (how : Nat) {tk : Task} (htk : TOk K tk) : TOk K (stopContext lc how tk) := by
  simp (maxDischargeDepth := 50) +contextual only [stopContext, settleRegs_ok, tok_mk, TOk.table, htk]

theorem stopRun_ok {qr : Quire} (hqr : QOk K qr) : QOk K (stopRun qr) := by
  simp (maxDischargeDepth := 50) +contextual only [stopRun, qok_mk, QOk.mem, QOk.tasks, QOk.config, QOk.scrub, and_self, hqr]

theorem stopUnits_ok (how : Nat) (t : Fin 4) {qr : Quire} (hqr : QOk K qr) : QOk K (stopUnits how t qr) := by
  unfold stopUnits
  extract_lets lc q1 q2 q3 q4 v4 q5 v5 q6 u6 q7 q8
  have h1 : QOk K q1 := discardLandings_ok hqr _
  have h2 : QOk K q2 := by simp only [q2, iteQ_ok, dropWrites_ok, ite_self, h1]
  have h3 : QOk K q3 := { mem := h2.mem, tasks := h2.tasks, config := h2.config, scrub := h2.scrub }
  have h4 : QOk K q4 := stopCommits_ok _ t h3
  have h5 : QOk K q5 := by
    simp only [q5, iteQ_ok, qok_mk, QOk.mem, QOk.tasks, QOk.config, QOk.scrub, and_self, ite_self, h4]
  have h6 : QOk K q6 := { mem := h5.mem, tasks := h5.tasks, config := h5.config, scrub := h5.scrub }
  have h7 : QOk K q7 := by
    simp only [q7, iteQ_ok, qok_mk, QOk.mem, QOk.tasks, QOk.config, QOk.scrub, and_self, ite_self, h6]
  have h8 : QOk K q8 := updTask_ok h7 t fun _ htk => stopContext_ok _ _ htk
  simp only [iteQ_ok, stopRun_ok, ite_self, h8]

theorem bookStand_ok {s : State} (h : Ok K s) (q : Fin 64) : Ok K (bookStand s q) := by
  simp (maxDischargeDepth := 50) +contextual only [bookStand, updQ_ok, takeFree_ok, bookIdle_ok, ite_ok, updQ_ok, ite_self, implies_true, h]

theorem stopTask_ok {s : State} (h : Ok K s) (q : Fin 64) (t : Fin 4) (how : Nat) : Ok K (stopTask s q t how) := by
  unfold stopTask
  split
  · exact h
  · extract_lets lc s1 s2 s3 bd s4
    have h1 : Ok K s1 := by simp only [s1, ite_ok, bookStand_ok, ite_self, h]
    have h2 : Ok K s2 := updQ_ok h1 q fun _ hq => stopUnits_ok how t hq
    have h3 : Ok K s3 := by simp only [s3, ite_ok, releaseOwned_ok, ite_self, h2]
    have h4 : Ok K s4 := { h3 with }
    exact traceQ_ok h4 q t _

theorem stopQuire_ok {s : State} (h : Ok K s) (q : Fin 64) (how : Nat) : Ok K (stopQuire s q how) := by
  simp (maxDischargeDepth := 50) +contextual only [stopQuire, stopTask_ok, foldl_ok, implies_true, h]

theorem raiseFault_ok {s : State} (h : Ok K s) (q : Fin 64) (t : Fin 4) (cls : Nat) : Ok K (raiseFault s q t cls) := by
  simp (maxDischargeDepth := 50) +contextual only [raiseFault, stopQuire_ok, traceQ_ok, ok_mk, tok_mk, Ok.far, Ok.ends, Ok.quires, Ok.clk, Ok.former, Ok.con, Ok.alarm, TOk.table, updT_ok, and_self, implies_true, h]

theorem raiseDie_ok {s : State} (h : Ok K s) (cls : Nat) (link : Nat) (originClass : Nat) (originId : BitVec 32) : Ok K (raiseDie s cls link originClass originId) := by
  simp (maxDischargeDepth := 50) +contextual only [raiseDie, ok_mk, Ok.far, Ok.ends, Ok.quires, Ok.clk, Ok.former, Ok.con, Ok.alarm, and_self, h]

theorem recordFault_ok {qr : Quire} (hqr : QOk K qr) (r : FaultReg) (cause : Nat) (t : Fin 4) : QOk K (recordFault qr r cause t) := by
  unfold recordFault
  split <;> simp (maxDischargeDepth := 50) +contextual only [qok_mk, QOk.mem, QOk.tasks, QOk.config, QOk.scrub, and_self, hqr]

theorem programFault_ok {s : State} (h : Ok K s) (q : Fin 64) (t : Fin 4) (r : FaultReg) (cause : Nat) : Ok K (programFault s q t r cause) := by
  simp (maxDischargeDepth := 50) +contextual only [programFault, raiseFault_ok, recordFault_ok, updQ_ok, implies_true, h]

theorem memoryFault_ok {s : State} (h : Ok K s) (q : Fin 64) (t : Fin 4) (r : Option (FaultReg × Nat)) : Ok K (memoryFault s q t r) := by
  unfold memoryFault
  split <;> simp (maxDischargeDepth := 50) +contextual only [raiseFault_ok, recordFault_ok, updQ_ok, implies_true, h]

theorem passWindow_keeps (n : Nat) : ∀ {sq : SeqUnit} {f b : Nat} {r : SeqUnit × Nat × Nat},
    passWindow n sq f b = some r → r.1.tasks = sq.tasks := by
  induction n with
  | zero => intro sq f b r h; simp only [passWindow, Option.some.injEq] at h; rw [← h]
  | succ n ih =>
    intro sq f b r h
    unfold passWindow at h
    split at h
    · simp only [Option.some.injEq] at h; rw [← h]
    · split at h
      · cases h
      · exact (ih h).trans rfl

theorem passTo_ok (l : Nat) {qr : Quire} (hqr : QOk K qr) : QOk K (passTo l qr) := by
  have key : ∀ sq : SeqUnit, sq.tasks = qr.seq.tasks → QOk K { qr with seq := sq } := fun sq e =>
    { mem := hqr.mem, tasks := by simpa only [e] using hqr.tasks, config := hqr.config, scrub := hqr.scrub }
  unfold passTo
  split
  · exact hqr
  · rename_i r hp
    exact bookIdle_ok (bookIdle_ok (key _ (passWindow_keeps _ hp)) _ _) _ _

theorem rewind_ok {s : State} (h : Ok K s) (q : Fin 64) (l : Nat) : Ok K (rewind s q l) := by
  simp (maxDischargeDepth := 50) +contextual only [rewind, passTo_ok, iteQ_ok, qok_mk, QOk.mem, QOk.tasks, QOk.config, QOk.scrub, updQ_ok, and_self, ite_self, implies_true, h]

theorem accessFault_ok {s : State} (h : Ok K s) (q : Fin 64) (t : Fin 4) (l : Nat) (r : Option (FaultReg × Nat)) : Ok K (accessFault s q t l r) := by
  simp (maxDischargeDepth := 50) +contextual only [accessFault, memoryFault_ok, rewind_ok, h]

theorem noteHazard_ok {s : State} (h : Ok K s) (q : Fin 64) (t : Fin 4) (kind : Nat) (unit : Nat) (lc : Nat) : Ok K (noteHazard s q t kind unit lc) := by
  simp (maxDischargeDepth := 50) +contextual only [noteHazard, updQ_ok, traceQ_ok, qok_mk, QOk.mem, QOk.tasks, QOk.config, QOk.scrub, updQ_ok, and_self, implies_true, h]

theorem hazard_ok {s : State} (h : Ok K s) (q : Fin 64) (t : Fin 4) (kind : Nat) (unit : Nat) (lc : Nat) : Ok K (hazard s q t kind unit lc) := by
  simp (maxDischargeDepth := 50) +contextual only [hazard, noteHazard_ok, raiseFault_ok, ite_ok, ite_self, h]

theorem hazardAt_ok {s : State} (h : Ok K s) (q : Fin 64) (t : Fin 4) (kind : Nat) (unit : Nat) (l : Nat) : Ok K (hazardAt s q t kind unit l) := by
  simp (maxDischargeDepth := 50) +contextual only [hazardAt, hazard_ok, rewind_ok, ite_ok, ite_self, h]

theorem notePeaks_ok {s : State} (h : Ok K s) (q : Fin 64) (sums : Nat × Nat) : Ok K (notePeaks s q sums) := by
  simp (maxDischargeDepth := 50) +contextual only [notePeaks, ok_mk, conok_mk, Ok.far, Ok.ends, Ok.quires, Ok.clk, Ok.former, Ok.con, Ok.alarm, ConOk.debug, ConOk.wait, and_self, h]

theorem recordOverdraw_ok {s : State} (h : Ok K s) (p : Fin 64 × Claim) (seen : List (Fin 64 × Claim)) (throttled : Bool) : Ok K (recordOverdraw s p seen throttled) := by
  simp (maxDischargeDepth := 50) +contextual only [recordOverdraw, ite_ok, ok_mk, conok_mk, Ok.far, Ok.ends, Ok.quires, Ok.clk, Ok.former, Ok.con, Ok.alarm, ConOk.debug, ConOk.wait, and_self, ite_self, h]

theorem throttle_ok {s : State} (h : Ok K s) (q : Fin 64) : Ok K (throttle s q) := by
  simp (maxDischargeDepth := 50) +contextual only [throttle, ok_mk, qok_mk, conok_mk, Ok.far, Ok.ends, Ok.quires, Ok.clk, Ok.former, Ok.con, Ok.alarm, ConOk.debug, ConOk.wait, QOk.mem, QOk.tasks, QOk.config, QOk.scrub, updQ_ok, foldl_ok, and_self, implies_true, h]

theorem throttleEach_ok {s : State} (h : Ok K s) (seen : List (Fin 64 × Claim)) (fresh : List (Fin 64 × Claim)) :
    Ok K (throttleEach s seen fresh) := by
  unfold throttleEach
  refine foldlP_ok (fun r p hr => ?_) _ h
  split
  · exact hr
  · exact throttle_ok hr _

theorem judgeEdge_ok {s : State} (h : Ok K s) (e : Int) : Ok K (judgeEdge s e) := by
  unfold judgeEdge
  dsimp only
  split <;> simp (maxDischargeDepth := 50) +contextual only [rewind_ok, raiseFault_ok, recordOverdraw_ok, throttleEach_ok, ite_ok, qok_mk, QOk.mem, QOk.tasks, QOk.config, QOk.scrub, updAllQ_ok, foldl_ok, and_self, ite_self, implies_true, h]

theorem claimTok_ok {s : State} (h : Ok K s) (q : Fin 64) (c : Claim) : Ok K (claimTok s q c) := by
  simp (maxDischargeDepth := 50) +contextual only [claimTok, later_ok, ite_ok, qok_mk, QOk.mem, QOk.tasks, QOk.config, QOk.scrub, updQ_ok, and_self, ite_self, implies_true, h]

theorem claimAt_ok {s : State} (h : Ok K s) (q : Fin 64) (l : Nat) : Ok K (claimAt s q l) := by
  simp (maxDischargeDepth := 50) +contextual only [claimAt, notePeaks_ok, judgeEdge_ok, h]

theorem pruneClaims_ok {qr : Quire} (hqr : QOk K qr) : QOk K (pruneClaims qr) := by
  simp (maxDischargeDepth := 50) +contextual only [pruneClaims, qok_mk, QOk.mem, QOk.tasks, QOk.config, QOk.scrub, and_self, hqr]

theorem placeAccess_ok {qr : Quire} (hqr : QOk K qr) (a : Access) : QOk K (placeAccess qr a) := by
  simp (maxDischargeDepth := 50) +contextual only [placeAccess, iteQ_ok, qok_mk, QOk.mem, QOk.tasks, QOk.config, QOk.scrub, and_self, ite_self, hqr]

theorem placeAll_ok (as : List Access) {qr : Quire} (hqr : QOk K qr) : QOk K (placeAll as qr) := by
  simp (maxDischargeDepth := 50) +contextual only [placeAll, placeAccess_ok, iteQ_ok, foldlQ_ok, ite_self, implies_true, hqr]

theorem placePorts_ok {s : State} (h : Ok K s) (q : Fin 64) (as : List Access) : Ok K (placePorts s q as) := by
  simp (maxDischargeDepth := 50) +contextual only [placePorts, placeAll_ok, updQ_ok, implies_true, h]

theorem withdraw_ok (pick : Access → Bool) {qr : Quire} (hqr : QOk K qr) : QOk K (withdraw pick qr) := by
  simp (maxDischargeDepth := 50) +contextual only [withdraw, qok_mk, QOk.mem, QOk.tasks, QOk.config, QOk.scrub, and_self, hqr]

theorem prunePorts_ok (l : Nat) {qr : Quire} (hqr : QOk K qr) : QOk K (prunePorts l qr) := by
  simp (maxDischargeDepth := 50) +contextual only [prunePorts, qok_mk, QOk.mem, QOk.tasks, QOk.config, QOk.scrub, and_self, hqr]

theorem loseAccess_ok {s : State} (h : Ok K s) (q : Fin 64) (l : Nat) (a : Access) : Ok K (loseAccess s q l a) := by
  simp (maxDischargeDepth := 50) +contextual only [loseAccess, hazardAt_ok, iteQ_ok, qok_mk, QOk.mem, QOk.tasks, QOk.config, QOk.scrub, updQ_ok, and_self, ite_self, implies_true, h]

theorem noteInside_ok {s : State} (h : Ok K s) (q : Fin 64) (t : Fin 4) (l : Nat) (unit : Nat) (mem : Nat) (a : Nat) (n : Nat) : Ok K (noteInside s q t l unit mem a n) := by
  simp (maxDischargeDepth := 50) +contextual only [noteInside, hazardAt_ok, ite_ok, ite_self, h]

theorem portRead_ok {s : State} (h : Ok K s) (q : Fin 64) (l : Nat) (a : Access) (mem : Nat) (at' : Nat) (n : Nat) : Ok K (portRead s q l a mem at' n).s := by
  unfold portRead
  split <;> simp (maxDischargeDepth := 50) +contextual only [loseAccess_ok, noteInside_ok, h]

theorem rowReadAt_ok {s : State} (h : Ok K s) (q : Fin 64) (l : Nat) (a : Access) (spad : Nat) : Ok K (rowReadAt s q l a spad).s := by
  simp (maxDischargeDepth := 50) +contextual only [rowReadAt, portRead_ok, h]

theorem rowWriteAt_ok {s : State} (h : Ok K s) (q : Fin 64) (l : Nat) (a : Access) (bytes : List Byte) : Ok K (rowWriteAt s q l a bytes) := by
  simp (maxDischargeDepth := 50) +contextual only [rowWriteAt, loseAccess_ok, putRows_ok, ite_ok, updQ_ok, ite_self, implies_true, h]

theorem laterRow_ok {s : State} (h : Ok K s) (q : Fin 64) (t : Fin 4) (l : Nat) (a : Access) (bytes : List Byte) : Ok K (laterRow s q t l a bytes) := by
  simp (maxDischargeDepth := 50) +contextual only [laterRow, later_ok, placePorts_ok, h]

end Sys2Proof.Machine
end

