-- ==== Sys2Proof/Laws/SoundFlow.lean ====
section
/-! SUPPORT. Every effect in flight keeps the claimed properties. -/

namespace Sys2Proof.Machine

variable {K : Parts}

theorem leaveAt_ok {s : State} (h : Ok K s) (b : Fin 64) (lb : Bool) (d : Int) : Ok K (leaveAt s b lb d) := by
  simp (maxDischargeDepth := 50) +contextual only [leaveAt, ok_mk, Ok.far, Ok.ends, Ok.quires, Ok.clk, Ok.former, Ok.con, Ok.alarm, and_self, h]

theorem placeSlot_ok {s : State} (h : Ok K s) (sl : Slot) : Ok K (placeSlot s sl) := by
  simp (maxDischargeDepth := 50) +contextual only [placeSlot, ok_mk, Ok.far, Ok.ends, Ok.quires, Ok.clk, Ok.former, Ok.con, Ok.alarm, and_self, h]

theorem placeInject_ok {s : State} (h : Ok K s) (q : Fin 64) (t : Fin 4) (w : Word) (l : Nat) (pay : List Byte) (sc : List Byte) : Ok K (placeInject s q t w l pay sc) := by
  simp (maxDischargeDepth := 50) +contextual only [placeInject, hazardAt_ok, placeSlot_ok, ite_ok, ok_mk, qok_mk, Ok.far, Ok.ends, Ok.quires, Ok.clk, Ok.former, Ok.con, Ok.alarm, QOk.mem, QOk.tasks, QOk.config, QOk.scrub, updQ_ok, and_self, ite_self, implies_true, h]

theorem setHalfState_ok {qr : Quire} (hqr : QOk K qr) (h : Nat) (st : Nat) : QOk K (setHalfState qr h st) := by
  simp (maxDischargeDepth := 50) +contextual only [setHalfState, iteQ_ok, qok_mk, QOk.mem, QOk.tasks, QOk.config, QOk.scrub, and_self, ite_self, hqr]

theorem laterInject_ok {s : State} (h : Ok K s) (q : Fin 64) (t : Fin 4) (l : Nat) (o : InjectOp) (i : Nat) (low : List Byte) : Ok K (laterInject s q t l o i low) := by
  simp (maxDischargeDepth := 50) +contextual only [laterInject, later_ok, placePorts_ok, h]

theorem injScales_ok {s : State} (h : Ok K s) (q : Fin 64) (t : Fin 4) (l : Nat) (o : InjectOp) (spad : Nat) (i : Nat) : Ok K (injScales s q t l o spad i).s := by
  unfold injScales
  split <;> simp (maxDischargeDepth := 50) +contextual only [portRead_ok, h]

theorem injectDone_ok {s : State} (h : Ok K s) (q : Fin 64) (t : Fin 4) (o : InjectOp) (i : Nat) (l : Nat) (pay : List Byte) (sc : List Byte) (notes : List ReadNote) : Ok K (injectDone s q t o i l pay sc notes) := by
  simp (maxDischargeDepth := 50) +contextual only [injectDone, accessFault_ok, laterInject_ok, later_ok, noteReads_ok, placeInject_ok, ite_ok, ite_self, h]

theorem injectAt_ok {s : State} (h : Ok K s) (q : Fin 64) (t : Fin 4) (l : Nat) (o : InjectOp) (i : Nat) (low : List Byte) : Ok K (injectAt s q t l o i low) := by
  simp (maxDischargeDepth := 50) +contextual only [injectAt, accessFault_ok, injScales_ok, injectDone_ok, laterInject_ok, noteReads_ok, rowReadAt_ok, setHalfState_ok, ite_ok, updQ_ok, ite_self, implies_true, h]

theorem takeOver_ok (back : Bool) (f : Nat) {qr : Quire} (hqr : QOk K qr) : QOk K (takeOver back f qr) := by
  simp (maxDischargeDepth := 50) +contextual only [takeOver, withdraw_ok, qok_mk, QOk.mem, QOk.tasks, QOk.config, QOk.scrub, and_self, hqr]

theorem landAt_ok {s : State} (h : Ok K s) (q : Fin 64) (t : Fin 4) (l : Nat) (back : Bool) (half : Nat) (i : Nat) (n : Nat) : Ok K (landAt s q t l back half i n) := by
  simp (maxDischargeDepth := 50) +contextual only [landAt, later_ok, leaveAt_ok, ite_ok, qok_mk, QOk.mem, QOk.tasks, QOk.config, QOk.scrub, updQ_ok, and_self, ite_self, implies_true, h]

theorem reduceAt_ok {s : State} (h : Ok K s) (q : Fin 64) (t : Fin 4) (l : Nat) (back : Bool) (half : Nat) (i : Nat) : Ok K (reduceAt s q t l back half i) := by
  unfold reduceAt
  dsimp only
  (repeat' split) <;> simp (maxDischargeDepth := 50) +contextual only [later_ok, leaveAt_ok, placeSlot_ok, qok_mk, QOk.mem, QOk.tasks, QOk.config, QOk.scrub, updQ_ok, and_self, implies_true, h]

theorem copyAt_ok {s : State} (h : Ok K s) (q : Fin 64) (t : Fin 4) (l : Nat) (o : CopyOp) (i : Nat) (k : Nat) (bytes : List Byte) : Ok K (copyAt s q t l o i k bytes) := by
  unfold copyAt
  split <;> simp (maxDischargeDepth := 50) +contextual only [later_ok, ite_ok, ite_self, h]

theorem weightRead_ok {s : State} (h : Ok K s) (q : Fin 64) (l : Nat) (a : Access) (b : Nat) (g : Nat) (transposed : Bool) : Ok K (weightRead s q l a b g transposed).s := by
  unfold weightRead
  split <;> simp (maxDischargeDepth := 50) +contextual only [loseAccess_ok, noteInside_ok, ite_ok, ite_self, h]

theorem setAcc_ok {qr : Quire} (hqr : QOk K qr) (ix : Nat) (a : List F32) : QOk K (setAcc qr ix a) := by
  simp (maxDischargeDepth := 50) +contextual only [setAcc, iteQ_ok, qok_mk, QOk.mem, QOk.tasks, QOk.config, QOk.scrub, and_self, ite_self, hqr]

theorem laterChunk_ok {s : State} (h : Ok K s) (q : Fin 64) (l : Nat) (o : TileOp) (c : Nat) (k : Nat) (b : ChunkBuf) : Ok K (laterChunk s q l o c k b) := by
  simp (maxDischargeDepth := 50) +contextual only [laterChunk, later_ok, placePorts_ok, ite_ok, ite_self, h]

theorem colBankRead_ok (q : Fin 64) (l : Nat) (o : TileOp) (c : Nat) (k : Nat) {g : ChunkGot} (hg : Ok K g.s) : Ok K (colBankRead q l o c k g).s := by
  unfold colBankRead
  split <;> simp (maxDischargeDepth := 50) +contextual only [weightRead_ok, hg]

theorem chunkRead_ok (q : Fin 64) (l : Nat) (on : Bool) (a : Access) (mem : Nat) (at' : Nat) (n : Nat) (put : ChunkBuf → List Byte → ChunkBuf) {g : ChunkGot} (hg : Ok K g.s) : Ok K (chunkRead q l on a mem at' n put g).s := by
  unfold chunkRead
  split <;> simp (maxDischargeDepth := 50) +contextual only [portRead_ok, hg]

theorem chunkSpadRead_ok (q : Fin 64) (l : Nat) (o : TileOp) (c : Nat) (k : Nat) {g : ChunkGot} (hg : Ok K g.s) : Ok K (chunkSpadRead q l o c k g).s := by
  simp (maxDischargeDepth := 50) +contextual only [chunkSpadRead, chunkRead_ok, hg]

theorem chunkSlot_ok {s : State} (h : Ok K s) (q : Fin 64) (l : Nat) (o : TileOp) (b : ChunkBuf) : Ok K (chunkSlot s q l o b).1 := by
  unfold chunkSlot
  dsimp only
  split <;> simp (maxDischargeDepth := 50) +contextual only [leaveAt_ok, ite_ok, qok_mk, QOk.mem, QOk.tasks, QOk.config, QOk.scrub, updQ_ok, and_self, ite_self, implies_true, h]

theorem chunkAddAt_ok {s : State} (h : Ok K s) (q : Fin 64) (o : TileOp) (c : Nat) (b : ChunkBuf) : Ok K (chunkAddAt s q o c b) := by
  simp (maxDischargeDepth := 50) +contextual only [chunkAddAt, setAcc_ok, qok_mk, QOk.mem, QOk.tasks, QOk.config, QOk.scrub, updQ_ok, and_self, implies_true, h]

theorem countChunk_ok {s : State} (h : Ok K s) (q : Fin 64) : Ok K (countChunk s q) := by
  simp (maxDischargeDepth := 50) +contextual only [countChunk, qok_mk, QOk.mem, QOk.tasks, QOk.config, QOk.scrub, updQ_ok, and_self, implies_true, h]

theorem noteConv_ok {s : State} (h : Ok K s) (q : Fin 64) (o : TileOp) (c : Nat) (k : Nat) (b : ChunkBuf) : Ok K (noteConv s q o c k b) := by
  simp (maxDischargeDepth := 50) +contextual only [noteConv, recordLedger_ok, ite_ok, updQ_ok, ite_self, implies_true, h]

theorem chunkReads_ok {s : State} (h : Ok K s) (q : Fin 64) (l : Nat) (o : TileOp) (c : Nat) (k : Nat) (b : ChunkBuf) : Ok K (chunkReads s q l o c k b) := by
  unfold chunkReads
  dsimp only
  split <;> simp (maxDischargeDepth := 50) +contextual only [accessFault_ok, chunkSlot_ok, chunkSpadRead_ok, colBankRead_ok, countChunk_ok, laterChunk_ok, later_ok, noteConv_ok, noteReads_ok, ite_ok, ite_self, h]

theorem chunkAt_ok {s : State} (h : Ok K s) (q : Fin 64) (l : Nat) (o : TileOp) (c : Nat) (k : Nat) (b : ChunkBuf) : Ok K (chunkAt s q l o c k b) := by
  simp (maxDischargeDepth := 50) +contextual only [chunkAt, chunkAddAt_ok, chunkReads_ok, ite_ok, ite_self, h]

theorem laterPreload_ok {s : State} (h : Ok K s) (q : Fin 64) (l : Nat) (o : TileOp) (r : Nat) : Ok K (laterPreload s q l o r) := by
  simp (maxDischargeDepth := 50) +contextual only [laterPreload, later_ok, placePorts_ok, h]

theorem preloadAt_ok {s : State} (h : Ok K s) (q : Fin 64) (l : Nat) (o : TileOp) (r : Nat) : Ok K (preloadAt s q l o r) := by
  simp (maxDischargeDepth := 50) +contextual only [preloadAt, accessFault_ok, laterPreload_ok, later_ok, noteReads_ok, rowReadAt_ok, ite_ok, foldl_ok, ite_self, implies_true, h]

theorem setAccRow_ok {qr : Quire} (hqr : QOk K qr) (ix : Nat) (i : Nat) (vals : List F32) : QOk K (setAccRow qr ix i vals) := by
  simp (maxDischargeDepth := 50) +contextual only [setAccRow, setAcc_ok, hqr]

theorem updDrain_ok {qr : Quire} (hqr : QOk K qr) (x : Nat) (f : Drain → Drain) : QOk K (updDrain qr x f) := by
  simp (maxDischargeDepth := 50) +contextual only [updDrain, qok_mk, QOk.mem, QOk.tasks, QOk.config, QOk.scrub, and_self, hqr]

theorem collectScales_ok {s : State} (h : Ok K s) (q : Fin 64) (l : Nat) (dr : Drain) (scales : List Nat) : Ok K (collectScales s q l dr scales) := by
  simp (maxDischargeDepth := 50) +contextual only [collectScales, later_ok, ite_ok, qok_mk, QOk.mem, QOk.tasks, QOk.config, QOk.scrub, updQ_ok, and_self, ite_self, implies_true, h]

theorem collectorRowAt_ok {s : State} (h : Ok K s) (q : Fin 64) (l : Nat) (a : Access) : Ok K (collectorRowAt s q l a) := by
  simp (maxDischargeDepth := 50) +contextual only [collectorRowAt, rowWriteAt_ok, qok_mk, QOk.mem, QOk.tasks, QOk.config, QOk.scrub, updQ_ok, and_self, implies_true, h]

theorem drainNarrow_ok {s : State} (h : Ok K s) (q : Fin 64) (l : Nat) (dr : Drain) (i : Nat) (row : List (F32 × Bool)) : Ok K (drainNarrow s q l dr i row) := by
  simp (maxDischargeDepth := 50) +contextual only [drainNarrow, collectScales_ok, later_ok, recordLedger_ok, updDrain_ok, ite_ok, updQ_ok, foldl_ok, ite_self, implies_true, h]

theorem laterNorm_ok {s : State} (h : Ok K s) (q : Fin 64) (l : Nat) (dr : Drain) (i : Nat) (row : List (F32 × Bool)) (lost : List Bool) : Ok K (laterNorm s q l dr i row lost) := by
  simp (maxDischargeDepth := 50) +contextual only [laterNorm, later_ok, ite_ok, ite_self, h]

theorem drainAddAt_ok {s : State} (h : Ok K s) (q : Fin 64) (l : Nat) (x : Nat) (i : Nat) (row : List (F32 × Bool)) : Ok K (drainAddAt s q l x i row) := by
  unfold drainAddAt
  split <;> simp (maxDischargeDepth := 50) +contextual only [accessFault_ok, laterNorm_ok, loseAccess_ok, noteReads_ok, ite_ok, qok_mk, qmemok_mk, QOk.mem, QOk.weight, QOk.moment, QOk.scale, QOk.grad, QOk.act, QOk.ps, QOk.stg, QOk.half0, QOk.half1, QOk.prog, QOk.descActive, QOk.descShadow, QOk.tasks, QOk.config, QOk.scrub, updQ_ok, writeBytes_mok, and_self, ite_self, implies_true, h]

theorem normAt_ok {s : State} (h : Ok K s) (q : Fin 64) (slot : Nat) (vals : List (Option F32)) : Ok K (normAt s q slot vals) := by
  simp (maxDischargeDepth := 50) +contextual only [normAt, qok_mk, QOk.mem, QOk.tasks, QOk.config, QOk.scrub, updQ_ok, and_self, implies_true, h]

theorem gradNormAt_ok {s : State} (h : Ok K s) (q : Fin 64) (slot : Nat) (a : Nat) (on : List Bool) (lost : List Bool) : Ok K (gradNormAt s q slot a on lost) := by
  simp (maxDischargeDepth := 50) +contextual only [gradNormAt, normAt_ok, h]

theorem drainReadAt_ok {s : State} (h : Ok K s) (q : Fin 64) (l : Nat) (dr : Drain) (a : Access) {use : List Byte → Bool → State → State} (huse : ∀ b l s, Ok K s → Ok K (use b l s)) : Ok K (drainReadAt s q l dr a use) := by
  simp (maxDischargeDepth := 50) +contextual only [drainReadAt, accessFault_ok, noteReads_ok, rowReadAt_ok, ite_ok, ite_self, h, huse]

theorem takeStore_ok {qr : Quire} (hqr : QOk K qr) (x : Nat) : QOk K (takeStore qr x) := by
  simp (maxDischargeDepth := 50) +contextual only [takeStore, updDrain_ok, qok_mk, QOk.mem, QOk.tasks, QOk.config, QOk.scrub, and_self, hqr]

theorem updStore_ok {qr : Quire} (hqr : QOk K qr) (store : Bool) (f : List F32 → List F32) : QOk K (updStore qr store f) := by
  simp (maxDischargeDepth := 50) +contextual only [updStore, iteQ_ok, qok_mk, QOk.mem, QOk.tasks, QOk.config, QOk.scrub, and_self, ite_self, hqr]

theorem loadStore_ok {qr : Quire} (hqr : QOk K qr) (dr : Drain) (r : Nat) (lost : Bool) (vals : List F32) : QOk K (loadStore qr dr r lost vals) := by
  simp (maxDischargeDepth := 50) +contextual only [loadStore, updDrain_ok, updStore_ok, iteQ_ok, ite_self, hqr]

theorem drainTableAt_ok {s : State} (h : Ok K s) (q : Fin 64) (l : Nat) (x : Nat) (r : Nat) : Ok K (drainTableAt s q l x r) := by
  unfold drainTableAt
  dsimp only
  split <;> simp (maxDischargeDepth := 50) +contextual only [drainReadAt_ok, later_ok, loadStore_ok, placePorts_ok, takeStore_ok, ite_ok, updQ_ok, ite_self, implies_true, h]

theorem drainBiasAt_ok {s : State} (h : Ok K s) (q : Fin 64) (l : Nat) (x : Nat) : Ok K (drainBiasAt s q l x) := by
  unfold drainBiasAt
  split <;> simp (maxDischargeDepth := 50) +contextual only [drainReadAt_ok, updDrain_ok, updQ_ok, implies_true, h]

theorem drainStashAt_ok {s : State} (h : Ok K s) (q : Fin 64) (l : Nat) (x : Nat) (r : Nat) : Ok K (drainStashAt s q l x r) := by
  unfold drainStashAt
  split <;> simp (maxDischargeDepth := 50) +contextual only [drainReadAt_ok, later_ok, placePorts_ok, updDrain_ok, ite_ok, updQ_ok, ite_self, implies_true, h]

theorem drainRowAt_ok {s : State} (h : Ok K s) (q : Fin 64) (l : Nat) (x : Nat) (i : Nat) : Ok K (drainRowAt s q l x i) := by
  unfold drainRowAt
  split <;> simp (maxDischargeDepth := 50) +contextual only [later_ok, placePorts_ok, ite_ok, ite_self, h]

theorem drainOutAt_ok {s : State} (h : Ok K s) (q : Fin 64) (l : Nat) (x : Nat) (i : Nat) (row : List F32) : Ok K (drainOutAt s q l x i row) := by
  unfold drainOutAt
  split <;> simp (maxDischargeDepth := 50) +contextual only [drainNarrow_ok, later_ok, ite_ok, ite_self, h]

theorem drainEndAt_ok {s : State} (h : Ok K s) (q : Fin 64) (l : Nat) (x : Nat) : Ok K (drainEndAt s q l x) := by
  simp (maxDischargeDepth := 50) +contextual only [drainEndAt, qok_mk, QOk.mem, QOk.tasks, QOk.config, QOk.scrub, updQ_ok, and_self, implies_true, h]

theorem startDrain_ok {qr : Quire} (hqr : QOk K qr) : QOk K (startDrain qr) := by
  unfold startDrain
  split <;> simp (maxDischargeDepth := 50) +contextual only [emit_ok, placeAll_ok, iteQ_ok, qok_mk, QOk.mem, QOk.tasks, QOk.config, QOk.scrub, and_self, ite_self, hqr]

theorem panelCommit_ok {s : State} (h : Ok K s) (q : Fin 64) (l : Nat) (o : PanelOp) (c : Nat) (bytes : List Byte) : Ok K (panelCommit s q l o c bytes) := by
  simp (maxDischargeDepth := 50) +contextual only [panelCommit, laterRow_ok, h]

theorem panelScales_ok {s : State} (h : Ok K s) (q : Fin 64) (l : Nat) (o : PanelOp) (c : Nat) : Ok K (panelScales s q l o c).1 := by
  unfold panelScales
  split <;> simp (maxDischargeDepth := 50) +contextual only [laterRow_ok, h]

theorem panelBlock_ok {s : State} (h : Ok K s) (q : Fin 64) (l : Nat) (o : PanelOp) (m : Nat) : Ok K (panelBlock s q l o m).1 := by
  unfold panelBlock
  dsimp only
  (repeat' split) <;> simp (maxDischargeDepth := 50) +contextual only [panelCommit_ok, panelScales_ok, h]

theorem laterPanel_ok {s : State} (h : Ok K s) (q : Fin 64) (l : Nat) (o : PanelOp) (k : Nat) : Ok K (laterPanel s q l o k) := by
  simp (maxDischargeDepth := 50) +contextual only [laterPanel, later_ok, placePorts_ok, ite_ok, ite_self, h]

theorem panelAt_ok {s : State} (h : Ok K s) (q : Fin 64) (l : Nat) (o : PanelOp) (k : Nat) : Ok K (panelAt s q l o k) := by
  unfold panelAt
  split <;> simp (maxDischargeDepth := 50) +contextual only [accessFault_ok, laterPanel_ok, noteReads_ok, panelBlock_ok, recordLedger_ok, weightRead_ok, ite_ok, updQ_ok, ite_self, implies_true, h]

theorem sharedRead_ok (done : List Access) {s : State} (h : Ok K s) (q : Fin 64) (l : Nat) (a : Access) (mem : Nat) (at' : Nat) (n : Nat) : Ok K (sharedRead done s q l a mem at' n).s := by
  unfold sharedRead
  dsimp only
  split
  · exact h
  · exact portRead_ok h _ _ _ _ _ _

theorem fetchOperand_ok (q : Fin 64) (t : Nat) (i : Nat) (v : VecSrc) (l : Nat) (k : Nat) {r : VecGot} (hr : Ok K r.s) : Ok K (fetchOperand q t i v l k r).s := by
  unfold fetchOperand
  dsimp only
  (repeat' split) <;> simp (maxDischargeDepth := 50) +contextual only [sharedRead_ok, hr]

theorem settleHeld_ok (q : Fin 64) (t : Nat) {r : HeldEnd} (hr : Ok K r.s) (h : HeldRow) : Ok K (settleHeld q t r h).s := by
  unfold settleHeld
  dsimp only
  (repeat' split) <;> simp (maxDischargeDepth := 50) +contextual only [loseAccess_ok, hr]

theorem foldlH_ok (q : Fin 64) (t : Nat) (l : List HeldRow) : ∀ {r : HeldEnd}, Ok K r.s → Ok K (l.foldl (settleHeld q t) r).s := by
  induction l with
  | nil => exact fun h => h
  | cons x l ih => exact fun h => ih (settleHeld_ok q t h x)

theorem collectVecScales_ok {s : State} (h : Ok K s) (q : Fin 64) (o : VecOp) (m : Nat) (lc : Nat) (next : Option Nat) (scs : List Nat) : Ok K (collectVecScales s q o m lc next scs).1 := by
  unfold collectVecScales
  dsimp only
  (repeat' split) <;> simp (maxDischargeDepth := 50) +contextual only [laterRow_ok, h]

theorem destBeat_ok {s : State} (h : Ok K s) (q : Fin 64) (t : Nat) (l : Nat) (k : Nat) (vs : List F32) (o : VecOp) : Ok K (destBeat s q t l k vs o).1 := by
  unfold destBeat
  dsimp only
  (repeat' split) <;> simp (maxDischargeDepth := 50) +contextual only [collectVecScales_ok, later_ok, h]

theorem putResults_ok {s : State} (h : Ok K s) (q : Fin 64) (p : VecPlan) (lc : Nat) (row : Nat) (vals : List F32) : Ok K (putResults s q p lc row vals) := by
  simp (maxDischargeDepth := 50) +contextual only [putResults, laterRow_ok, h]

theorem putTensor_ok {s : State} (h : Ok K s) (q : Fin 64) (p : VecPlan) (lc : Nat) (v : F32) : Ok K (putTensor s q p lc v) := by
  unfold putTensor
  split
  · refine updT_ok h q _ fun tk htk => ?_
    split
    · exact writeReg_ok htk _ _ _ _
    · exact htk
  · exact putResults_ok h _ _ _ _ _

theorem reduceBeat_ok {s : State} (h : Ok K s) (q : Fin 64) (t : Nat) (l : Nat) (k : Nat) (vs : List F32) (o : VecOp) : Ok K (reduceBeat s q t l k vs o).1 := by
  unfold reduceBeat
  dsimp only
  (repeat' split) <;> simp (maxDischargeDepth := 50) +contextual only [putResults_ok, putTensor_ok, h]

theorem cutOff_ok {s : State} (h : Ok K s) (q : Fin 64) (o : VecOp) (issue : Nat) : Ok K (cutOff s q o issue) := by
  simp (maxDischargeDepth := 50) +contextual only [cutOff, laterRow_ok, putResults_ok, putTensor_ok, ite_ok, ite_self, h]

theorem endReads_ok {s : State} (h : Ok K s) (q : Fin 64) (t : Nat) (o : VecOp) : Ok K (endReads s q t o).1 := by
  exact foldlH_ok q t o.held h

theorem laterBeat_ok {s : State} (h : Ok K s) (q : Fin 64) (t : Nat) (o : VecOp) : Ok K (laterBeat s q t o) := by
  simp (maxDischargeDepth := 50) +contextual only [laterBeat, later_ok, placePorts_ok, h]

theorem beatDone_ok {s : State} (h : Ok K s) (q : Fin 64) (t : Nat) (o : VecOp) : Ok K (beatDone s q t o).1 := by
  simp (maxDischargeDepth := 50) +contextual only [beatDone, destBeat_ok, reduceBeat_ok, h]

theorem nextBeat_ok {s : State} (h : Ok K s) (q : Fin 64) (t : Nat) (o : VecOp) : Ok K (nextBeat s q t o) := by
  unfold nextBeat
  dsimp only
  (repeat' split) <;> simp (maxDischargeDepth := 50) +contextual only [cutOff_ok, laterBeat_ok, h]

theorem enterBeat_ok {s : State} (h : Ok K s) (q : Fin 64) (t : Nat) (o : VecOp) : Ok K (enterBeat s q t o) := by
  simp (maxDischargeDepth := 50) +contextual only [enterBeat, accessFault_ok, beatDone_ok, fetchOperand_ok, later_ok, nextBeat_ok, noteReads_ok, placePorts_ok, ite_ok, qok_mk, QOk.mem, QOk.tasks, QOk.config, QOk.scrub, updQ_ok, and_self, ite_self, implies_true, h]

theorem vecBeatAt_ok {s : State} (h : Ok K s) (q : Fin 64) (t : Nat) (o : VecOp) : Ok K (vecBeatAt s q t o) := by
  unfold vecBeatAt
  split
  · exact enterBeat_ok h _ _ _
  · have h2 := fun t0 => beatDone_ok (endReads_ok h q t o) q t0 (endReads s q t o).2
    dsimp only
    split
    · exact enterBeat_ok (h2 _) _ _ _
    · exact nextBeat_ok (h2 _) _ _ _

theorem vecTableAt_ok {s : State} (h : Ok K s) (q : Fin 64) (t : Nat) (o : VecOp) (r : Nat) : Ok K (vecTableAt s q t o r) := by
  have h1 := endReads_ok h q t o
  unfold vecTableAt
  dsimp only
  split
  · split
    · exact cutOff_ok h1 _ _ _
    · exact enterBeat_ok h1 _ _ _
  · have h2 := noteReads_ok (rowReadAt_ok h1 q t (vecTableAccess o.plan r t) 1) q 0 2 (rowReadAt (endReads s q t o).1 q t (vecTableAccess o.plan r t) 1).notes
    split
    · exact accessFault_ok h2 _ _ _ _
    · exact later_ok (placePorts_ok h2 _ _) _ _ _ _ _

theorem cutRunning_ok {s : State} (h : Ok K s) (q : Fin 64) (t0 : Nat) (x : Nat) : Ok K (cutRunning s q t0 x) := by
  unfold cutRunning
  refine foldl_ok (fun s p hs => ?_) _ (updQ_ok h q fun qr hq => withdraw_ok _ (qok_mk.2 ⟨hq.mem, hq.tasks, hq.config, hq.scrub⟩))
  split
  · exact cutOff_ok hs _ _ _
  · exact hs

theorem laterCommit_ok {s : State} (h : Ok K s) (q : Fin 64) (t : Fin 4) (l : Nat) (x : Nat) (target : Nat) (row : Nat) (k : Nat) (pace : Nat) (rows : List (List Byte)) : Ok K (laterCommit s q t l x target row k pace rows) := by
  simp (maxDischargeDepth := 50) +contextual only [laterCommit, later_ok, placePorts_ok, h]

theorem commitRowAt_ok {s : State} (h : Ok K s) (q : Fin 64) (t : Fin 4) (l : Nat) (x : Nat) (target : Nat) (row : Nat) (k : Nat) (pace : Nat) (rows : List (List Byte)) : Ok K (commitRowAt s q t l x target row k pace rows) := by
  unfold commitRowAt
  split <;> simp (maxDischargeDepth := 50) +contextual only [laterCommit_ok, loseAccess_ok, rowWriteAt_ok, writeBank_ok, ite_ok, updQ_ok, ite_self, implies_true, h]

theorem sdloadAt_ok {s : State} (h : Ok K s) (q : Fin 64) (t : Fin 4) (l : Nat) (second : Bool) (row : Nat) : Ok K (sdloadAt s q t l second row) := by
  simp (maxDischargeDepth := 50) +contextual only [sdloadAt, accessFault_ok, noteReads_ok, rowReadAt_ok, ite_ok, tok_mk, TOk.table, updT_ok, ite_self, implies_true, h]

theorem storeSent_ok (x : Nat) (t : Fin 4) (bytes : List Byte) {qr : Quire} (hqr : QOk K qr) : QOk K (storeSent x t bytes qr) := by
  simp (maxDischargeDepth := 50) +contextual only [storeSent, qok_mk, QOk.mem, QOk.tasks, QOk.config, QOk.scrub, and_self, hqr]

theorem cutSend_ok (x : Nat) (t : Fin 4) (j : Nat) {qr : Quire} (hqr : QOk K qr) : QOk K (cutSend x t j qr) := by
  simp (maxDischargeDepth := 50) +contextual only [cutSend, qok_mk, QOk.mem, QOk.tasks, QOk.config, QOk.scrub, and_self, hqr]

theorem placeSends_ok (as : List Access) {qr : Quire} (hqr : QOk K qr) : QOk K (placeSends as qr) := by
  unfold placeSends
  exact foldlQ_ok (fun qr a hq => by simp only [iteQ_ok, placeAccess_ok, ite_self, hq]) _ hqr

theorem laterSend_ok {s : State} (h : Ok K s) (q : Fin 64) (t : Fin 4) (l : Nat) (x : Nat) (target : Nat) (row : Nat) (j : Nat) (k : Nat) (pace : Nat) (len : Nat) : Ok K (laterSend s q t l x target row j k pace len) := by
  simp (maxDischargeDepth := 50) +contextual only [laterSend, updQ_ok, placeSends_ok, later_ok, implies_true, h]

theorem sendAt_ok {s : State} (h : Ok K s) (q : Fin 64) (t : Fin 4) (l : Nat) (x : Nat) (target : Nat) (row : Nat) (j : Nat) (k : Nat) (pace : Nat) (len : Nat) : Ok K (sendAt s q t l x target row j k pace len) := by
  unfold sendAt
  split <;> simp (maxDischargeDepth := 50) +contextual only [accessFault_ok, cutSend_ok, laterSend_ok, later_ok, noteReads_ok, portRead_ok, rowReadAt_ok, storeSent_ok, ite_ok, updQ_ok, ite_self, implies_true, h]

theorem sentAt_ok {s : State} (h : Ok K s) (q : Fin 64) (t : Fin 4) (l : Nat) (x : Nat) (a : Access) (bytes : List Byte) : Ok K (sentAt s q t l x a bytes) := by
  simp (maxDischargeDepth := 50) +contextual only [sentAt, loseAccess_ok, storeSent_ok, ite_ok, updQ_ok, ite_self, implies_true, h]

theorem updGet_ok (q : Fin 64) (l : Nat) (on : Bool) (a : Access) (bank : Nat) (at' : Nat) (n : Nat) (put : BlockIn → List Byte → BlockIn) {g : UpdGot} (hg : Ok K g.s) : Ok K (updGet q l on a bank at' n put g).s := by
  unfold updGet
  split <;> simp (maxDischargeDepth := 50) +contextual only [portRead_ok, hg]

theorem updScales_ok (q : Fin 64) (on : Bool) (a : Access) (at' : Nat) {g : UpdGot} (hg : Ok K g.s) : Ok K (updScales q on a at' g).s := by
  unfold updScales
  split <;> simp (maxDischargeDepth := 50) +contextual only [hg]

theorem updReads_ok {s : State} (h : Ok K s) (q : Fin 64) (l : Nat) (p : UpdPlan) (j : Nat) (i : Nat) (b : BlockIn) : Ok K (updReads s q l p j i b).s := by
  simp (maxDischargeDepth := 50) +contextual only [updReads, updGet_ok, updScales_ok, h]

theorem laterRead_ok {s : State} (h : Ok K s) (q : Fin 64) (l : Nat) (p : UpdPlan) (j : Nat) (i : Nat) (b : BlockIn) : Ok K (laterRead s q l p j i b) := by
  simp (maxDischargeDepth := 50) +contextual only [laterRead, later_ok, placePorts_ok, h]

theorem noteAccumulate_ok {s : State} (h : Ok K s) (q : Fin 64) (l : Nat) (p : UpdPlan) (j : Nat) (i : Nat) : Ok K (noteAccumulate s q l p j i) := by
  simp (maxDischargeDepth := 50) +contextual only [noteAccumulate, hazardAt_ok, ite_ok, ite_self, h]

theorem updReadAt_ok {s : State} (h : Ok K s) (q : Fin 64) (l : Nat) (p : UpdPlan) (j : Nat) (i : Nat) (b : BlockIn) : Ok K (updReadAt s q l p j i b) := by
  simp (maxDischargeDepth := 50) +contextual only [updReadAt, accessFault_ok, laterRead_ok, later_ok, noteAccumulate_ok, noteReads_ok, updReads_ok, ite_ok, qok_mk, QOk.mem, QOk.tasks, QOk.config, QOk.scrub, updQ_ok, and_self, ite_self, implies_true, h]

theorem laterWrite_ok {s : State} (h : Ok K s) (q : Fin 64) (l : Nat) (p : UpdPlan) (j : Nat) (i : Nat) (o : BlockOut) : Ok K (laterWrite s q l p j i o) := by
  simp (maxDischargeDepth := 50) +contextual only [laterWrite, later_ok, placePorts_ok, h]

theorem updRowAt_ok {s : State} (h : Ok K s) (q : Fin 64) (l : Nat) (p : UpdPlan) (j : Nat) (i : Nat) (b : BlockIn) (o : BlockOut) : Ok K (updRowAt s q l p j i b o) := by
  simp (maxDischargeDepth := 50) +contextual only [updRowAt, laterWrite_ok, later_ok, recordLedger_ok, ite_ok, updQ_ok, ite_self, implies_true, h]

theorem updSumAt_ok {s : State} (h : Ok K s) (q : Fin 64) (p : UpdPlan) (a : List F32) (b : List F32) : Ok K (updSumAt s q p a b) := by
  simp (maxDischargeDepth := 50) +contextual only [updSumAt, iteQ_ok, qok_mk, QOk.mem, QOk.tasks, QOk.config, QOk.scrub, updQ_ok, and_self, ite_self, implies_true, h]

theorem updPut_ok (p : UpdPlan) (bank : Nat) (a : Nat) (width : Nat) (bs : List Byte) {qr : Quire} (hqr : QOk K qr) : QOk K (updPut p bank a width bs qr) := by
  simp (maxDischargeDepth := 50) +contextual only [updPut, writeBank_ok, iteQ_ok, qok_mk, QOk.mem, QOk.tasks, QOk.config, QOk.scrub, and_self, ite_self, hqr]

theorem updSet_ok (q : Fin 64) (l : Nat) (on : Bool) (a : Access) {f : Quire → Quire} (hf : ∀ qr, QOk K qr → QOk K (f qr)) {s : State} (h : Ok K s) : Ok K (updSet q l on a f s) := by
  simp (maxDischargeDepth := 50) +contextual only [updSet, loseAccess_ok, ite_ok, updQ_ok, ite_self, implies_true, hf, h]

theorem updWriteAt_ok {s : State} (h : Ok K s) (q : Fin 64) (l : Nat) (p : UpdPlan) (j : Nat) (i : Nat) (o : BlockOut) : Ok K (updWriteAt s q l p j i o) := by
  simp (maxDischargeDepth := 50) +contextual only [updWriteAt, laterWrite_ok, updPut_ok, updSet_ok, writeBank_ok, ite_ok, iteQ_ok, ite_self, implies_true, h]

theorem microAt_ok {s : State} (h : Ok K s) (q : Fin 64) (t : Fin 4) (l : Nat) (op : Micro) : Ok K (microAt s q t l op) := by
  unfold microAt
  split <;> simp (maxDischargeDepth := 50) +contextual only [chunkAt_ok, claimAt_ok, collectorRowAt_ok, commitRowAt_ok, copyAt_ok, drainAddAt_ok, drainBiasAt_ok, drainEndAt_ok, drainOutAt_ok, drainRowAt_ok, drainStashAt_ok, drainTableAt_ok, gradNormAt_ok, halfMem_ok, injectAt_ok, landAt_ok, normAt_ok, panelAt_ok, preloadAt_ok, recordLedger_ok, reduceAt_ok, rowWriteAt_ok, sdloadAt_ok, sendAt_ok, sentAt_ok, setAccRow_ok, setHalfState_ok, setHalf_ok, updReadAt_ok, updRowAt_ok, updSumAt_ok, updWriteAt_ok, vecBeatAt_ok, vecTableAt_ok, updQ_ok, writeBytes_mok, implies_true, h]

theorem runHead_ok {s : State} (h : Ok K s) (q : Fin 64) : Ok K (runHead s q) := by
  unfold runHead
  split <;> simp (maxDischargeDepth := 50) +contextual only [microAt_ok, prunePorts_ok, qok_mk, QOk.mem, QOk.tasks, QOk.config, QOk.scrub, updQ_ok, and_self, implies_true, h]

theorem settleN_ok (r : Reach) (n : Nat) : ∀ {s : State}, Ok K s → Ok K (settleN r n s) := by
  induction n with
  | zero => exact fun h => h
  | succ n ih =>
    intro s h
    unfold settleN
    split
    · exact h
    · exact ih (runHead_ok h _)

theorem settle_ok (r : Reach) {s : State} (h : Ok K s) : Ok K (settle r s) := settleN_ok r _ h

theorem startDue_ok (l : Nat) {qr : Quire} (hqr : QOk K qr) : QOk K (startDue l qr) := by
  unfold startDue
  dsimp only
  (repeat' split) <;> simp (maxDischargeDepth := 50) +contextual only [startDrain_ok, hqr]

theorem catchUp_ok {s : State} (h : Ok K s) : Ok K (catchUp s) := by
  simp (maxDischargeDepth := 50) +contextual only [catchUp, settle_ok, startDue_ok, iteQ_ok, updAllQ_ok, ite_self, implies_true, h]

theorem finishRun_ok {s : State} (h : Ok K s) (q : Fin 64) : Ok K (finishRun s q) := by
  simp (maxDischargeDepth := 50) +contextual only [finishRun, settle_ok, startDue_ok, updQ_ok, implies_true, h]

end Sys2Proof.Machine
end

