-- ==== Sys2Proof/Laws/SoundRows.lean ====
section
/-! SUPPORT. Every instruction keeps the claimed properties. -/

namespace Sys2Proof.Machine

variable {K : Parts}

/-- The claimed properties of what an instruction's own effect comes to. -/
def ResOk (K : Parts) : Res → Prop
  | .done s | .jump s _ | .idle s _ | .window s _ | .ended s | .raw s | .memory s _ => Ok K s
  | .wait _ _ | .bad _ _ _ => True

@[simp] theorem resOk_done {s : State} : ResOk K (.done s) ↔ Ok K s := Iff.rfl
@[simp] theorem resOk_jump {s : State} {n : Nat} : ResOk K (.jump s n) ↔ Ok K s := Iff.rfl
@[simp] theorem resOk_idle {s : State} {n : Nat} : ResOk K (.idle s n) ↔ Ok K s := Iff.rfl
@[simp] theorem resOk_window {s : State} {n : Nat} : ResOk K (.window s n) ↔ Ok K s := Iff.rfl
@[simp] theorem resOk_ended {s : State} : ResOk K (.ended s) ↔ Ok K s := Iff.rfl
@[simp] theorem resOk_raw {s : State} : ResOk K (.raw s) ↔ Ok K s := Iff.rfl
@[simp] theorem resOk_memory {s : State} {r : Option (FaultReg × Nat)} : ResOk K (.memory s r) ↔ Ok K s := Iff.rfl
@[simp] theorem resOk_wait {k : WaitKind} {c : Nat} : ResOk K (.wait k c) := trivial
@[simp] theorem resOk_bad {r : FaultReg} {c : Nat} {l : List Nat} : ResOk K (.bad r c l) := trivial
@[simp] theorem resOk_reading {r : Res} {l : List Nat} : ResOk K (r.reading l) ↔ ResOk K r := by cases r <;> rfl

theorem iteR_ok {c : Prop} [Decidable c] {a b : Res} : ResOk K (if c then a else b) ↔ if c then ResOk K a else ResOk K b := by
  split <;> rfl

/-- The claimed properties of the next state, where a step answers one. -/
def OutOk (K : Parts) (o : Host.Outcome State Fault Refusal) : Prop := ∀ t, o = .next t → Ok K t

@[simp] theorem outOk_next {s : State} : OutOk K (.next s) ↔ Ok K s := by
  simp only [OutOk, Host.Outcome.next.injEq, forall_eq']

theorem iteO_ok {c : Prop} [Decidable c] {a b : Host.Outcome State Fault Refusal} :
    OutOk K (if c then a else b) ↔ if c then OutOk K a else OutOk K b := by
  split <;> rfl

theorem arrive_ok {s : State} (h : Ok K s) (q : Fin 64) (t : Fin 4) : Ok K (arrive s q t) := by
  simp (maxDischargeDepth := 50) +contextual only [arrive, settle_ok, h]

theorem settleLoads_ok (x : Nat) {tk : Task} (htk : TOk K tk) : TOk K (settleLoads x tk) := by
  simp (maxDischargeDepth := 50) +contextual only [settleLoads, tok_mk, TOk.table, foldlM_ok, writeBytes_mok, implies_true, htk]

theorem pruneCommits_ok {qr : Quire} (hqr : QOk K qr) : QOk K (pruneCommits qr) := by
  simp (maxDischargeDepth := 50) +contextual only [pruneCommits, qok_mk, QOk.mem, QOk.tasks, QOk.config, QOk.scrub, and_self, hqr]

theorem seekTurn_keeps (t : Fin 4) (n : Nat) : ∀ {sq : SeqUnit} {f : Nat} {r : SeqUnit × Nat},
    seekTurn t n sq f = some r → r.1.tasks = sq.tasks := by
  induction n with
  | zero => intro sq f r h; cases h
  | succ n ih =>
    intro sq f r h
    unfold seekTurn at h
    split at h
    · cases h
    · split at h
      · simp only [Option.some.injEq] at h; rw [← h]
      · split at h
        · cases h
        · exact (ih h).trans rfl

theorem atTurn_ok {qr : Quire} (h : QOk K qr) (t : Fin 4) : QOk K ((atTurn qr t).getD qr) := by
  have key : ∀ sq : SeqUnit, sq.tasks = qr.seq.tasks → QOk K { qr with seq := sq } := fun sq e =>
    { mem := h.mem, tasks := by simpa only [e] using h.tasks, config := h.config, scrub := h.scrub }
  unfold atTurn
  dsimp only
  split
  · cases hp : passWindow (qr.seq.winEnd - qr.seq.lc) qr.seq 0 0 with
    | none => exact h
    | some r => exact bookIdle_ok (bookIdle_ok (key _ (passWindow_keeps _ hp)) _ _) _ _
  · split
    · cases hp : seekTurn t (qr.seq.winEnd - qr.seq.lc) qr.seq 0 with
      | none => exact h
      | some r => exact bookIdle_ok (key _ (seekTurn_keeps _ _ hp)) _ _
    · exact h

theorem pruneRuns_ok {qr : Quire} (hqr : QOk K qr) : QOk K (pruneRuns qr) := by
  simp (maxDischargeDepth := 50) +contextual only [pruneRuns, qok_mk, QOk.mem, QOk.tasks, QOk.config, QOk.scrub, and_self, hqr]

theorem atIssue_ok {s : State} (h : Ok K s) (q : Fin 64) (t : Fin 4) : Ok K (atIssue s q t) := by
  refine updQ_ok h q fun qr hq => ?_
  exact pruneRuns_ok (pruneCommits_ok (pruneClaims_ok (updTask_ok (atTurn_ok hq t) t fun _ htk =>
    settleLoads_ok _ (settleRegs_ok _ htk))))

theorem endLc_ok (t : Fin 4) {qr : Quire} (hqr : QOk K qr) : QOk K (endLc t qr) := by
  unfold endLc
  split
  · exact ⟨hqr.mem, hqr.tasks, hqr.config, hqr.scrub⟩
  · refine bookIdle_ok ?_ _ _
    exact ⟨hqr.mem, hqr.tasks, hqr.config, hqr.scrub⟩

theorem retire_ok (t : Fin 4) (npc : BitVec 14) {qr : Quire} (hqr : QOk K qr) : QOk K (retire t npc qr) := by
  simp (maxDischargeDepth := 50) +contextual only [retire, endLc_ok, qok_mk, tok_mk, QOk.mem, TOk.table, QOk.tasks, QOk.config, QOk.scrub, updTask_ok, and_self, implies_true, hqr]

theorem dropPending_ok (t : Fin 4) {qr : Quire} (hqr : QOk K qr) : QOk K (dropPending t qr) := by
  simp (maxDischargeDepth := 50) +contextual only [dropPending, discardLandings_ok, dropWrites_ok, qok_mk, QOk.mem, QOk.tasks, QOk.config, QOk.scrub, and_self, hqr]

theorem finish_ok {s : State} (h : Ok K s) (q : Fin 64) (t : Fin 4) (npc : BitVec 14) : Ok K (finish s q t npc) := by
  simp (maxDischargeDepth := 50) +contextual only [finish, dropPending_ok, retire_ok, ite_ok, updQ_ok, ite_self, implies_true, h]

theorem holdTask_ok {s : State} (h : Ok K s) (q : Fin 64) (t : Fin 4) (w : Word) (k : WaitKind) (cause : Nat) : Ok K (holdTask s q t w k cause) := by
  simp (maxDischargeDepth := 50) +contextual only [holdTask, endLc_ok, traceQ_ok, ite_ok, qok_mk, tok_mk, QOk.mem, TOk.table, QOk.tasks, QOk.config, QOk.scrub, updQ_ok, updT_ok, foldl_ok, and_self, ite_self, implies_true, h]

theorem applyRes_ok {s : State} (h : Ok K s) (q : Fin 64) (t : Fin 4) (w : Word) {r : Res} (hr : ResOk K r) :
    Ok K (applyRes s q t w r) := by
  cases r with
  | done s' => exact finish_ok hr _ _ _
  | jump s' n => exact finish_ok hr _ _ _
  | idle s' n =>
    unfold applyRes
    dsimp only
    split
    · exact updQ_ok (finish_ok hr _ _ _) _ fun _ hq => by
        refine bookIdle_ok ?_ _ _
        exact ⟨hq.mem, hq.tasks, hq.config, hq.scrub⟩
    · exact updT_ok (finish_ok hr _ _ _) _ _ fun _ htk => htk
  | window s' n =>
    unfold applyRes
    dsimp only
    refine updQ_ok (finish_ok hr _ _ _) _ fun qr hq => ?_
    refine ⟨hq.mem, ?_, hq.config, hq.scrub⟩
    refine tasks_map (ts := qr.seq.tasks) hq.tasks fun tk htk => ?_
    split
    · exact htk
    · exact htk
  | ended s' => exact stopTask_ok (finish_ok hr _ _ _) _ _ _
  | wait k c => exact holdTask_ok h _ _ _ _ _
  | raw s' => exact hr
  | memory s' r => exact memoryFault_ok hr _ _ _
  | bad r c l =>
    unfold applyRes
    dsimp only
    split
    · exact noteHazard_ok (programFault_ok h _ _ _ _) _ _ _ _ _
    · exact programFault_ok h _ _ _ _

theorem issueNow_ok (op : Nat) (q : Fin 64) (t : Fin 4) (w : Word) {body : State → Nat → Res} (hbody : ∀ s x, Ok K s → ResOk K (body s x)) {s : State} (h : Ok K s) : Ok K (issueNow op q t w body s) := by
  unfold issueNow
  extract_lets e s1 s2
  have h1 : Ok K s1 := atIssue_ok h q t
  have h2 : Ok K s2 := by
    simp only [s2, ite_ok, programFault_ok, applyRes_ok, hbody, ite_self, h1]
  simp only [ite_ok, settle_ok, ite_self, h2]

theorem issueFault_ok {s : State} (h : Ok K s) (q : Fin 64) (t : Fin 4) (reg : FaultReg) (cause : Nat) : Ok K (issueFault s q t reg cause) := by
  simp (maxDischargeDepth := 50) +contextual only [issueFault, atIssue_ok, programFault_ok, settle_ok, h]

theorem joinHalt_ok (q : Fin 64) (t : Fin 4) (w : Word) (body : State → Nat → Res) {s : State} (h : Ok K s) : Ok K (joinHalt q t w body s) := by
  unfold joinHalt
  dsimp only
  split
  · exact holdTask_ok (atIssue_ok h q t) _ _ _ _ _
  · exact h

theorem issueRow_ok (op : Nat) (q : Fin 64) (t : Fin 4) (w : Word) {body : State → Nat → Res} (hbody : ∀ s x, Ok K s → ResOk K (body s x)) {s : State} (h : Ok K s) : Ok K (issueRow op q t w body s) := by
  simp (maxDischargeDepth := 50) +contextual only [issueRow, joinHalt_ok, arrive_ok, issueNow_ok, ite_ok, ite_self, implies_true, hbody, h]

theorem noteEarly_ok {s : State} (h : Ok K s) (q : Fin 64) (t : Fin 4) (x : Nat) (regs : List Nat) : Ok K (noteEarly s q t x regs) := by
  simp (maxDischargeDepth := 50) +contextual only [noteEarly, hazard_ok, ite_ok, ite_self, h]

theorem setReg_ok {s : State} (h : Ok K s) (q : Fin 64) (t : Fin 4) (x : Nat) (r : Nat) (v : Word) (y : Nat) : Ok K (setReg s q t x r v y) := by
  simp (maxDischargeDepth := 50) +contextual only [setReg, hazard_ok, writeReg_ok, ite_ok, updT_ok, ite_self, implies_true, h]

theorem unaryBody_ok (q : Fin 64) (t : Fin 4) (w : Word) (f : Word → Word) {s : State} (h : Ok K s) (x : Nat) : ResOk K (unaryBody q t w f s x) := by
  simp (maxDischargeDepth := 50) +contextual only [unaryBody, noteEarly_ok, setReg_ok, resOk_done, h]

theorem loadBody_ok (q : Fin 64) (t : Fin 4) (w : Word) (v : Word) {s : State} (h : Ok K s) (x : Nat) : ResOk K (loadBody q t w v s x) := by
  simp (maxDischargeDepth := 50) +contextual only [loadBody, setReg_ok, resOk_done, h]

theorem aluBody_ok (q : Fin 64) (t : Fin 4) (w : Word) {s : State} (h : Ok K s) (x : Nat) : ResOk K (aluBody q t w s x) := by
  unfold aluBody
  split <;> simp (maxDischargeDepth := 50) +contextual only [noteEarly_ok, setReg_ok, resOk_done, resOk_bad, h]

theorem shiftBody_ok (q : Fin 64) (t : Fin 4) (w : Word) (f : Word → Nat → Word) {s : State} (h : Ok K s) (x : Nat) : ResOk K (shiftBody q t w f s x) := by
  simp (maxDischargeDepth := 50) +contextual only [shiftBody, unaryBody_ok, ite_self, iteR_ok, resOk_bad, h]

theorem getsBody_ok (q : Fin 64) (t : Fin 4) (w : Word) {s : State} (h : Ok K s) (x : Nat) : ResOk K (getsBody q t w s x) := by
  unfold getsBody
  split <;> simp (maxDischargeDepth := 50) +contextual only [loadBody_ok, resOk_bad, h]

theorem execNop_ok (q : Fin 64) (t : Fin 4) (w : Word) {s : State} (h : Ok K s) : OutOk K (execNop q t w s) := by
  simp (maxDischargeDepth := 50) +contextual only [execNop, issueRow_ok, implies_true, outOk_next, resOk_done, h]

theorem execAlu_ok (q : Fin 64) (t : Fin 4) (w : Word) {s : State} (h : Ok K s) : OutOk K (execAlu q t w s) := by
  simp (maxDischargeDepth := 50) +contextual only [execAlu, aluBody_ok, issueRow_ok, implies_true, outOk_next, h]

theorem execAddi_ok (q : Fin 64) (t : Fin 4) (w : Word) {s : State} (h : Ok K s) : OutOk K (execAddi q t w s) := by
  simp (maxDischargeDepth := 50) +contextual only [execAddi, issueRow_ok, unaryBody_ok, implies_true, outOk_next, h]

theorem execAndi_ok (q : Fin 64) (t : Fin 4) (w : Word) {s : State} (h : Ok K s) : OutOk K (execAndi q t w s) := by
  simp (maxDischargeDepth := 50) +contextual only [execAndi, issueRow_ok, unaryBody_ok, implies_true, outOk_next, h]

theorem execOri_ok (q : Fin 64) (t : Fin 4) (w : Word) {s : State} (h : Ok K s) : OutOk K (execOri q t w s) := by
  simp (maxDischargeDepth := 50) +contextual only [execOri, issueRow_ok, unaryBody_ok, implies_true, outOk_next, h]

theorem execXori_ok (q : Fin 64) (t : Fin 4) (w : Word) {s : State} (h : Ok K s) : OutOk K (execXori q t w s) := by
  simp (maxDischargeDepth := 50) +contextual only [execXori, issueRow_ok, unaryBody_ok, implies_true, outOk_next, h]

theorem execShli_ok (q : Fin 64) (t : Fin 4) (w : Word) {s : State} (h : Ok K s) : OutOk K (execShli q t w s) := by
  simp (maxDischargeDepth := 50) +contextual only [execShli, issueRow_ok, shiftBody_ok, implies_true, outOk_next, h]

theorem execShri_ok (q : Fin 64) (t : Fin 4) (w : Word) {s : State} (h : Ok K s) : OutOk K (execShri q t w s) := by
  simp (maxDischargeDepth := 50) +contextual only [execShri, issueRow_ok, shiftBody_ok, implies_true, outOk_next, h]

theorem execSrai_ok (q : Fin 64) (t : Fin 4) (w : Word) {s : State} (h : Ok K s) : OutOk K (execSrai q t w s) := by
  simp (maxDischargeDepth := 50) +contextual only [execSrai, issueRow_ok, shiftBody_ok, implies_true, outOk_next, h]

theorem execSlti_ok (q : Fin 64) (t : Fin 4) (w : Word) {s : State} (h : Ok K s) : OutOk K (execSlti q t w s) := by
  simp (maxDischargeDepth := 50) +contextual only [execSlti, issueRow_ok, unaryBody_ok, implies_true, outOk_next, h]

theorem execLi_ok (q : Fin 64) (t : Fin 4) (w : Word) {s : State} (h : Ok K s) : OutOk K (execLi q t w s) := by
  simp (maxDischargeDepth := 50) +contextual only [execLi, issueRow_ok, loadBody_ok, implies_true, outOk_next, h]

theorem execLih_ok (q : Fin 64) (t : Fin 4) (w : Word) {s : State} (h : Ok K s) : OutOk K (execLih q t w s) := by
  simp (maxDischargeDepth := 50) +contextual only [execLih, issueRow_ok, loadBody_ok, noteEarly_ok, implies_true, outOk_next, h]

theorem execGets_ok (q : Fin 64) (t : Fin 4) (w : Word) {s : State} (h : Ok K s) : OutOk K (execGets q t w s) := by
  simp (maxDischargeDepth := 50) +contextual only [execGets, getsBody_ok, issueRow_ok, implies_true, outOk_next, h]

theorem branchDiscard_ok {s : State} (h : Ok K s) (q : Fin 64) (t : Fin 4) : Ok K (branchDiscard s q t) := by
  simp (maxDischargeDepth := 50) +contextual only [branchDiscard, discardLandings_ok, updQ_ok, implies_true, h]

theorem takeBranch_ok {s : State} (h : Ok K s) (q : Fin 64) (t : Fin 4) (target : Int) : ResOk K (takeBranch s q t target) := by
  simp (maxDischargeDepth := 50) +contextual only [takeBranch, branchDiscard_ok, ite_self, iteR_ok, resOk_jump, resOk_bad, h]

theorem execBr_ok (q : Fin 64) (t : Fin 4) (w : Word) {s : State} (h : Ok K s) : OutOk K (execBr q t w s) := by
  refine outOk_next.2 (issueRow_ok _ _ _ _ (fun s x hs => ?_) h)
  split
  · trivial
  · dsimp only
    split
    · exact resOk_reading.2 (takeBranch_ok (noteEarly_ok hs _ _ _ _) _ _ _)
    · exact noteEarly_ok hs _ _ _ _

theorem execJ_ok (q : Fin 64) (t : Fin 4) (w : Word) {s : State} (h : Ok K s) : OutOk K (execJ q t w s) := by
  simp (maxDischargeDepth := 50) +contextual only [execJ, issueRow_ok, takeBranch_ok, implies_true, outOk_next, h]

theorem execCall_ok (q : Fin 64) (t : Fin 4) (w : Word) {s : State} (h : Ok K s) : OutOk K (execCall q t w s) := by
  simp (maxDischargeDepth := 50) +contextual only [execCall, issueRow_ok, setReg_ok, takeBranch_ok, implies_true, outOk_next, h]

theorem execRet_ok (q : Fin 64) (t : Fin 4) (w : Word) {s : State} (h : Ok K s) : OutOk K (execRet q t w s) := by
  simp (maxDischargeDepth := 50) +contextual only [execRet, resOk_reading, issueRow_ok, noteEarly_ok, takeBranch_ok, implies_true, outOk_next, h]

theorem execIdle_ok (q : Fin 64) (t : Fin 4) (w : Word) {s : State} (h : Ok K s) : OutOk K (execIdle q t w s) := by
  simp (maxDischargeDepth := 50) +contextual only [execIdle, issueRow_ok, ite_self, implies_true, iteR_ok, outOk_next, resOk_idle, resOk_bad, h]

theorem execYield_ok (q : Fin 64) (t : Fin 4) (w : Word) {s : State} (h : Ok K s) : OutOk K (execYield q t w s) := by
  simp (maxDischargeDepth := 50) +contextual only [execYield, issueRow_ok, ite_self, implies_true, iteR_ok, outOk_next, resOk_window, resOk_bad, h]

theorem execEndTask_ok (q : Fin 64) (t : Fin 4) (w : Word) {s : State} (h : Ok K s) : OutOk K (execEndTask q t w s) := by
  simp (maxDischargeDepth := 50) +contextual only [execEndTask, issueRow_ok, implies_true, outOk_next, resOk_ended, h]

theorem ringFromQuire_ok {s : State} (h : Ok K s) (q : Fin 64) (mask : BitVec 32) : Ok K (ringFromQuire s q mask) := by
  simp (maxDischargeDepth := 50) +contextual only [ringFromQuire, qok_mk, QOk.mem, QOk.tasks, QOk.config, QOk.scrub, updQ_ok, and_self, implies_true, h]

theorem execRingdb_ok (q : Fin 64) (t : Fin 4) (w : Word) {s : State} (h : Ok K s) : OutOk K (execRingdb q t w s) := by
  simp (maxDischargeDepth := 50) +contextual only [execRingdb, issueRow_ok, ringFromQuire_ok, traceQ_ok, implies_true, outOk_next, resOk_done, h]

theorem execGetdb_ok (q : Fin 64) (t : Fin 4) (w : Word) {s : State} (h : Ok K s) : OutOk K (execGetdb q t w s) := by
  simp (maxDischargeDepth := 50) +contextual only [execGetdb, issueRow_ok, loadBody_ok, qok_mk, QOk.mem, QOk.tasks, QOk.config, QOk.scrub, updQ_ok, and_self, implies_true, outOk_next, h]

theorem injectBody_ok (q : Fin 64) (t : Fin 4) (w : Word) {s : State} (h : Ok K s) (x : Nat) : ResOk K (injectBody q t w s x) := by
  unfold injectBody
  dsimp only
  (repeat' split) <;> simp (maxDischargeDepth := 50) +contextual only [claimTok_ok, hazard_ok, laterInject_ok, takeOver_ok, qok_mk, QOk.mem, QOk.tasks, QOk.config, QOk.scrub, updQ_ok, and_self, implies_true, resOk_done, resOk_bad, h]

theorem execInject_ok (q : Fin 64) (t : Fin 4) (w : Word) {s : State} (h : Ok K s) : OutOk K (execInject q t w s) := by
  simp (maxDischargeDepth := 50) +contextual only [execInject, injectBody_ok, issueRow_ok, implies_true, outOk_next, h]

theorem landBody_ok (q : Fin 64) (t : Fin 4) (w : Word) {s : State} (h : Ok K s) (x : Nat) : ResOk K (landBody q t w s x) := by
  simp (maxDischargeDepth := 50) +contextual only [landBody, later_ok, ite_self, iteR_ok, resOk_done, resOk_bad, h]

theorem execLand_ok (q : Fin 64) (t : Fin 4) (w : Word) {s : State} (h : Ok K s) : OutOk K (execLand q t w s) := by
  simp (maxDischargeDepth := 50) +contextual only [execLand, issueRow_ok, landBody_ok, implies_true, outOk_next, h]

theorem copyBody_ok (q : Fin 64) (t : Fin 4) (w : Word) {s : State} (h : Ok K s) (x : Nat) : ResOk K (copyBody q t w s x) := by
  unfold copyBody
  dsimp only
  (repeat' split) <;> simp (maxDischargeDepth := 50) +contextual only [claimTok_ok, later_ok, placePorts_ok, resOk_done, resOk_bad, h]

theorem execCopy_ok (q : Fin 64) (t : Fin 4) (w : Word) {s : State} (h : Ok K s) : OutOk K (execCopy q t w s) := by
  simp (maxDischargeDepth := 50) +contextual only [execCopy, copyBody_ok, issueRow_ok, implies_true, outOk_next, h]

theorem reduceBody_ok (q : Fin 64) (t : Fin 4) (w : Word) {s : State} (h : Ok K s) (x : Nat) : ResOk K (reduceBody q t w s x) := by
  simp (maxDischargeDepth := 50) +contextual only [reduceBody, claimTok_ok, later_ok, ite_self, iteR_ok, resOk_done, resOk_bad, h]

theorem execReduce_ok (q : Fin 64) (t : Fin 4) (w : Word) {s : State} (h : Ok K s) : OutOk K (execReduce q t w s) := by
  simp (maxDischargeDepth := 50) +contextual only [execReduce, issueRow_ok, reduceBody_ok, implies_true, outOk_next, h]

theorem spliceAll_ok {s : State} (h : Ok K s) (m : BitVec 16) : Ok K (spliceAll s m) := by
  simp (maxDischargeDepth := 50) +contextual only [spliceAll, traceQ_ok, ok_mk, qok_mk, tok_mk, Ok.far, Ok.ends, Ok.quires, Ok.clk, Ok.former, Ok.con, Ok.alarm, QOk.mem, TOk.table, QOk.tasks, QOk.config, QOk.scrub, updAllQ_ok, updTask_ok, bookIdle_ok, foldl_ok, and_self, implies_true, h]

theorem spliceMismatch_ok {s : State} (h : Ok K s) (m0 : BitVec 16) : Ok K (spliceMismatch s m0) := by
  simp (maxDischargeDepth := 50) +contextual only [spliceMismatch, programFault_ok, foldl_ok, implies_true, h]

theorem spliceBody_ok (q : Fin 64) (t : Fin 4) (w : Word) {s : State} (h : Ok K s) (_x : Nat) : ResOk K (spliceBody q t w s _x) := by
  simp (maxDischargeDepth := 50) +contextual only [spliceBody, spliceAll_ok, spliceMismatch_ok, qok_mk, tok_mk, QOk.mem, TOk.table, QOk.tasks, QOk.config, QOk.scrub, updQ_ok, updTask_ok, and_self, ite_self, implies_true, iteR_ok, resOk_raw, resOk_bad, h]

theorem execSplice_ok (q : Fin 64) (t : Fin 4) (w : Word) {s : State} (h : Ok K s) : OutOk K (execSplice q t w s) := by
  simp (maxDischargeDepth := 50) +contextual only [execSplice, issueRow_ok, spliceBody_ok, implies_true, outOk_next, h]

theorem moveDrain_ok (x' : Nat) (start : Nat) (dr : Drain) {qr : Quire} (hqr : QOk K qr) : QOk K (moveDrain x' start dr qr) := by
  simp (maxDischargeDepth := 50) +contextual only [moveDrain, placeAll_ok, updDrain_ok, withdraw_ok, qok_mk, QOk.mem, QOk.tasks, QOk.config, QOk.scrub, and_self, hqr]

theorem cutTile_ok (x : Nat) (p : Nat) (c0 : Nat) {qr : Quire} (hqr : QOk K qr) : QOk K (cutTile x p c0 qr) := by
  unfold cutTile
  dsimp only
  (repeat' split) <;> simp (maxDischargeDepth := 50) +contextual only [moveDrain_ok, withdraw_ok, qok_mk, QOk.mem, QOk.tasks, QOk.config, QOk.scrub, and_self, hqr]

theorem tileRun_ok (q : Fin 64) (t : Fin 4) (w : Word) (o : TileOp) (start : Nat) {s : State} (h : Ok K s) (x : Nat) : ResOk K (tileRun q t w o start s x) := by
  simp (maxDischargeDepth := 50) +contextual only [tileRun, claimTok_ok, cutTile_ok, emitAll_ok, hazard_ok, placeAll_ok, ite_ok, qok_mk, QOk.mem, QOk.tasks, QOk.config, QOk.scrub, updQ_ok, and_self, ite_self, implies_true, resOk_done, h]

theorem iteR_bad {c : Prop} [Decidable c] {r : FaultReg} {n : Nat} {l : List Nat} {b : Res} (h : ResOk K b) :
    ResOk K (if c then .bad r n l else b) := by
  split
  · trivial
  · exact h

theorem iteR_intro {c : Prop} [Decidable c] {a b : Res} (ha : ResOk K a) (hb : ResOk K b) : ResOk K (if c then a else b) := by
  split
  · exact ha
  · exact hb

theorem afterLc_ok {s : State} (h : Ok K s) (q : Fin 64) (x : Nat) : QOk K (afterLc s q x) := by
  exact Ok.quire (settle_ok _ h) q

theorem noteDesc_ok {s : State} (h : Ok K s) (q : Fin 64) (t : Fin 4) (x : Nat) (tk : Task) (ix : Nat) (size : Nat) (first : Nat) : Ok K (noteDesc s q t x tk ix size first) := by
  simp (maxDischargeDepth := 50) +contextual only [noteDesc, hazard_ok, ite_ok, ite_self, h]

theorem tileNoDesc_ok (t : Fin 4) (w : Word) (qr : Quire) (x : Nat) (td od : Option (List Byte)) : ResOk K (tileNoDesc t w qr x td od) := by
  unfold tileNoDesc
  dsimp only
  split <;> trivial

theorem tileBody_ok (q : Fin 64) (t : Fin 4) (w : Word) {s : State} (h : Ok K s) (x : Nat) : ResOk K (tileBody q t w s x) := by
  have h1 := noteEarly_ok h q t x [fld w 6 5]
  unfold tileBody
  extract_lets qr tk xr s1 next
  have h1 : Ok K s1 := h1
  clear_value s1
  split
  · refine iteR_intro (noteReads_ok h1 _ _ _ _) ?_
    extract_lets bs
    generalize tileOffsets _ _ _ _ = tof
    obtain ⟨d, rt, ct⟩ := tof
    dsimp -zeta only
    generalize planTimes x _ = pl
    obtain ⟨p, c0, n, last⟩ := pl
    dsimp -zeta only
    extract_lets dr
    refine iteR_bad ?_
    split
    · trivial
    · rename_i rb cb _ _
      clear_value rb cb
      dsimp only
      split
      · repeat (refine iteR_bad ?_)
        exact tileRun_ok _ _ _ _ _ (noteDesc_ok (noteDesc_ok h1 _ _ _ _ _ _ _) _ _ _ _ _ _ _) _
      · trivial
  · dsimp only
    exact iteR_intro (noteReads_ok h1 _ _ _ _) (tileNoDesc_ok _ _ _ _ _ _)

theorem execTile_ok (q : Fin 64) (t : Fin 4) (w : Word) {s : State} (h : Ok K s) : OutOk K (execTile q t w s) := by
  simp (maxDischargeDepth := 50) +contextual only [execTile, resOk_reading, issueRow_ok, tileBody_ok, implies_true, outOk_next, h]

theorem tileDrain_ok (q : Fin 64) {s : State} (h : Ok K s) : Ok K (tileDrain q s) := by
  simp (maxDischargeDepth := 50) +contextual only [tileDrain, startDrain_ok, ite_ok, updQ_ok, ite_self, implies_true, h]

theorem execTileDrain_ok (q : Fin 64) {s : State} (h : Ok K s) : OutOk K (execTileDrain q s) := by
  simp (maxDischargeDepth := 50) +contextual only [execTileDrain, tileDrain_ok, outOk_next, h]

theorem panelRun_ok (q : Fin 64) (t : Fin 4) (w : Word) (d : PanelDesc) {s : State} (h : Ok K s) (x : Nat) : ResOk K (panelRun q t w d s x) := by
  simp (maxDischargeDepth := 50) +contextual only [panelRun, claimTok_ok, laterPanel_ok, resOk_done, h]

theorem wpanelBody_ok (q : Fin 64) (t : Fin 4) (w : Word) {s : State} (h : Ok K s) (x : Nat) : ResOk K (wpanelBody q t w s x) := by
  have h1 := noteEarly_ok h q t x [fld w 6 5]
  unfold wpanelBody
  extract_lets qr tk xr s1 ix
  have h1 : Ok K s1 := h1
  split
  · trivial
  · refine iteR_intro (noteReads_ok h1 _ _ _ _) ?_
    repeat (refine iteR_bad ?_)
    exact panelRun_ok _ _ _ _ (noteDesc_ok h1 _ _ _ _ _ _ _) _

theorem execWpanel_ok (q : Fin 64) (t : Fin 4) (w : Word) {s : State} (h : Ok K s) : OutOk K (execWpanel q t w s) := by
  simp (maxDischargeDepth := 50) +contextual only [execWpanel, resOk_reading, issueRow_ok, wpanelBody_ok, implies_true, outOk_next, h]

theorem vecRun_ok (q : Fin 64) (t : Fin 4) (w : Word) (p : VecPlan) {s : State} (h : Ok K s) (x : Nat) : ResOk K (vecRun q t w p s x) := by
  unfold vecRun
  dsimp only
  split <;> simp (maxDischargeDepth := 50) +contextual only [claimTok_ok, cutRunning_ok, hazard_ok, laterBeat_ok, later_ok, placePorts_ok, ite_ok, qok_mk, QOk.mem, QOk.tasks, QOk.config, QOk.scrub, updQ_ok, and_self, ite_self, implies_true, resOk_done, h]

theorem vopBody_ok (q : Fin 64) (t : Fin 4) (w : Word) {s : State} (h : Ok K s) (x : Nat) : ResOk K (vopBody q t w s x) := by
  unfold vopBody
  dsimp only
  (repeat' split) <;> simp (maxDischargeDepth := 50) +contextual only [noteEarly_ok, noteDesc_ok, noteReads_ok, vecRun_ok, resOk_memory, resOk_bad, h]

theorem execVop_ok (q : Fin 64) (t : Fin 4) (w : Word) {s : State} (h : Ok K s) : OutOk K (execVop q t w s) := by
  simp (maxDischargeDepth := 50) +contextual only [execVop, issueRow_ok, vopBody_ok, implies_true, outOk_next, h]

theorem setLandings_ok {qr : Quire} (hqr : QOk K qr) (ls : List Landing) : QOk K (setLandings qr ls) := by
  simp (maxDischargeDepth := 50) +contextual only [setLandings, qok_mk, QOk.mem, QOk.tasks, QOk.config, QOk.scrub, and_self, hqr]

theorem refetch_ok {qr : Quire} (hqr : QOk K qr) (old : Landing) : QOk K (refetch qr old) := by
  simp (maxDischargeDepth := 50) +contextual only [refetch, qok_mk, QOk.mem, QOk.tasks, QOk.config, QOk.scrub, and_self, hqr]

theorem streamClaim_ok {s : State} (h : Ok K s) (q : Fin 64) (t : Fin 4) (w : Word) (d : StreamDesc) (x : Nat) : Ok K (streamClaim s q t w d x) := by
  simp (maxDischargeDepth := 50) +contextual only [streamClaim, claimTok_ok, h]

theorem streamRead_ok (q : Fin 64) (t : Fin 4) (w : Word) (bs : List Byte) (entry : Nat) (d : StreamDesc) (row : Nat) {s : State} (h : Ok K s) (x : Nat) : ResOk K (streamRead q t w bs entry d row s x) := by
  unfold streamRead
  dsimp only
  (repeat' split) <;> simp (maxDischargeDepth := 50) +contextual only [refetch_ok, setLandings_ok, streamClaim_ok, Ok.quire, updQ_ok, implies_true, resOk_done, resOk_wait, h]

theorem streamWrite_ok (q : Fin 64) (t : Fin 4) (w : Word) (d : StreamDesc) (row : Nat) {s : State} (h : Ok K s) (x : Nat) : ResOk K (streamWrite q t w d row s x) := by
  simp (maxDischargeDepth := 50) +contextual only [streamWrite, laterSend_ok, streamClaim_ok, qok_mk, QOk.mem, QOk.tasks, QOk.config, QOk.scrub, updQ_ok, and_self, ite_self, implies_true, iteR_ok, resOk_done, resOk_wait, h]

theorem dropStarted_ok (pc : Nat) {qr : Quire} (hqr : QOk K qr) : QOk K (dropStarted pc qr) := by
  simp (maxDischargeDepth := 50) +contextual only [dropStarted, discardLandings_ok, hqr]

theorem streamBody_ok (q : Fin 64) (t : Fin 4) (w : Word) {s : State} (h : Ok K s) (x : Nat) : ResOk K (streamBody q t w s x) := by
  have h1 := noteEarly_ok h q t x [fld w 6 5]
  unfold streamBody
  dsimp only
  split
  · trivial
  · split
    · trivial
    · refine iteR_bad (iteR_bad (iteR_bad ?_))
      refine iteR_intro (iteR_bad (streamWrite_ok _ _ _ _ _ ?_ _)) (iteR_bad (streamRead_ok _ _ _ _ _ _ _ h1 _))
      simp +contextual only [ite_ok, updQ_ok, dropStarted_ok, implies_true, ite_self, h1]

theorem execStream_ok (q : Fin 64) (t : Fin 4) (w : Word) {s : State} (h : Ok K s) : OutOk K (execStream q t w s) := by
  simp (maxDischargeDepth := 50) +contextual only [execStream, resOk_reading, issueRow_ok, streamBody_ok, implies_true, outOk_next, h]

theorem sdloadBody_ok (q : Fin 64) (t : Fin 4) (w : Word) {s : State} (h : Ok K s) (x : Nat) : ResOk K (sdloadBody q t w s x) := by
  unfold sdloadBody
  dsimp only
  split <;> simp (maxDischargeDepth := 50) +contextual only [later_ok, placePorts_ok, ite_self, iteR_ok, resOk_done, resOk_bad, h]

theorem execSdload_ok (q : Fin 64) (t : Fin 4) (w : Word) {s : State} (h : Ok K s) : OutOk K (execSdload q t w s) := by
  simp (maxDischargeDepth := 50) +contextual only [execSdload, issueRow_ok, sdloadBody_ok, implies_true, outOk_next, h]

theorem execSwap_ok (q : Fin 64) (t : Fin 4) (w : Word) {s : State} (h : Ok K s) : OutOk K (execSwap q t w s) := by
  simp (maxDischargeDepth := 50) +contextual only [execSwap, issueRow_ok, tok_mk, TOk.table, updT_ok, implies_true, outOk_next, resOk_done, h]

theorem sethpBody_ok (q : Fin 64) (t : Fin 4) (w : Word) {s : State} (h : Ok K s) (_x : Nat) : ResOk K (sethpBody q t w s _x) := by
  simp (maxDischargeDepth := 50) +contextual only [sethpBody, tok_mk, TOk.table, updT_ok, ite_self, implies_true, iteR_ok, resOk_done, resOk_bad, h]

theorem execSethp_ok (q : Fin 64) (t : Fin 4) (w : Word) {s : State} (h : Ok K s) : OutOk K (execSethp q t w s) := by
  simp (maxDischargeDepth := 50) +contextual only [execSethp, issueRow_ok, sethpBody_ok, implies_true, outOk_next, h]

theorem runAhead_ok (q : Fin 64) {s : State} (h : Ok K s) : Ok K (runAhead q s) := by
  unfold runAhead
  dsimp only
  (repeat' split) <;> simp (maxDischargeDepth := 50) +contextual only [setLandings_ok, updQ_ok, implies_true, h]

theorem execRunAheadStart_ok (q : Fin 64) {s : State} (h : Ok K s) : OutOk K (execRunAheadStart q s) := by
  simp (maxDischargeDepth := 50) +contextual only [execRunAheadStart, catchUp_ok, runAhead_ok, outOk_next, h]

theorem farRead_ok (fetched : List (Nat × List Byte)) (a n : Nat) {s : State} (h : Ok K s) : Ok K (farRead s fetched a n).2 :=
  { h with }

theorem fetchBeats_ok (a n : Nat) {s : State} (h : Ok K s) (q : Fin 64) (i : Nat) : Ok K (fetchBeats a n s q i) := by
  unfold fetchBeats
  split
  · exact h
  · dsimp only
    split
    · exact h
    · exact { updQ_ok h q (fun qr hqr => setLandings_ok hqr _) with }

theorem farWriteShared_ok {s : State} (h : Ok K s) (a : Nat) (bs : List Byte) : Ok K (farWriteShared s a bs) :=
  farWrite_ok (foldl_ok (fun s q hs => foldl_ok (fun s i hs => fetchBeats_ok a bs.length hs q i) _ hs) _ h) a bs

theorem landingBytes_ok (l : Landing) {s : State} (h : Ok K s) : Ok K (landingBytes s l).2 := by
  unfold landingBytes
  split
  · exact farRead_ok _ _ _ h
  · exact h

theorem landingComplete_ok (q : Fin 64) (ix : Nat) {s : State} (h : Ok K s) : Ok K (landingComplete q ix s) := by
  unfold landingComplete
  dsimp only
  split <;> simp (maxDischargeDepth := 50) +contextual only [setLandings_ok, landingBytes_ok, ite_ok, updQ_ok, ite_self, implies_true, h]

theorem execLandingComplete_ok (q : Fin 64) (ix : Nat) {s : State} (h : Ok K s) : OutOk K (execLandingComplete q ix s) := by
  simp (maxDischargeDepth := 50) +contextual only [execLandingComplete, catchUp_ok, landingComplete_ok, outOk_next, h]

theorem countBuffer_ok {s : State} (h : Ok K s) (o : OutWrite) : Ok K (countBuffer s o) := by
  unfold countBuffer
  (repeat' split) <;> simp (maxDischargeDepth := 50) +contextual only [ok_mk, conok_mk, Ok.far, Ok.ends, Ok.quires, Ok.clk, Ok.former, Ok.con, Ok.alarm, ConOk.debug, ConOk.wait, and_self, h]

theorem dropWrite_ok {s : State} (h : Ok K s) (q : Fin 64) (ix : Nat) (o : OutWrite) : Ok K (dropWrite s q ix o) := by
  simp (maxDischargeDepth := 50) +contextual only [dropWrite, qok_mk, QOk.mem, QOk.tasks, QOk.config, QOk.scrub, updQ_ok, and_self, implies_true, h]

theorem writeComplete_ok (q : Fin 64) (ix : Nat) {s : State} (h : Ok K s) : Ok K (writeComplete q ix s) := by
  unfold writeComplete
  split <;> simp (maxDischargeDepth := 50) +contextual only [countBuffer_ok, dropWrite_ok, ite_ok, farWriteShared_ok, ite_self, h]

theorem execWriteComplete_ok (q : Fin 64) (ix : Nat) {s : State} (h : Ok K s) : OutOk K (execWriteComplete q ix s) := by
  simp (maxDischargeDepth := 50) +contextual only [execWriteComplete, catchUp_ok, writeComplete_ok, outOk_next, h]

theorem takeLanding_ok (ix : Nat) (l : Landing) (c : Nat) {qr : Quire} (hqr : QOk K qr) : QOk K (takeLanding ix l c qr) := by
  simp (maxDischargeDepth := 50) +contextual only [takeLanding, qok_mk, QOk.mem, QOk.tasks, QOk.config, QOk.scrub, and_self, hqr]

theorem commitLanding_ok {s : State} (h : Ok K s) (q : Fin 64) (ix : Nat) (l : Landing) (x : Nat) : Ok K (commitLanding s q ix l x) := by
  simp (maxDischargeDepth := 50) +contextual only [commitLanding, laterCommit_ok, takeLanding_ok, updQ_ok, implies_true, h]

theorem waitsBody_ok (q : Fin 64) (t : Fin 4) (_w : Word) {s : State} (h : Ok K s) (x : Nat) : ResOk K (waitsBody q t _w s x) := by
  unfold waitsBody
  dsimp only
  (repeat' split) <;> simp (maxDischargeDepth := 50) +contextual only [commitLanding_ok, resOk_done, resOk_wait, h]

theorem execWaits_ok (q : Fin 64) (t : Fin 4) (w : Word) {s : State} (h : Ok K s) : OutOk K (execWaits q t w s) := by
  simp (maxDischargeDepth := 50) +contextual only [execWaits, issueRow_ok, waitsBody_ok, implies_true, outOk_next, h]

theorem waitwBody_ok (q : Fin 64) (t : Fin 4) (_w : Word) {s : State} (h : Ok K s) (x : Nat) : ResOk K (waitwBody q t _w s x) := by
  simp (maxDischargeDepth := 50) +contextual only [waitwBody, ite_self, iteR_ok, resOk_done, resOk_wait, h]

theorem execWaitw_ok (q : Fin 64) (t : Fin 4) (w : Word) {s : State} (h : Ok K s) : OutOk K (execWaitw q t w s) := by
  simp (maxDischargeDepth := 50) +contextual only [execWaitw, issueRow_ok, waitwBody_ok, implies_true, outOk_next, h]

theorem lwaitBody_ok (q : Fin 64) (t : Fin 4) (w : Word) {s : State} (h : Ok K s) (x : Nat) : ResOk K (lwaitBody q t w s x) := by
  unfold lwaitBody
  (repeat' split) <;> simp (maxDischargeDepth := 50) +contextual only [updPort_ok, ite_self, iteR_ok, resOk_done, resOk_wait, resOk_bad, h]

theorem execLwait_ok (q : Fin 64) (t : Fin 4) (w : Word) {s : State} (h : Ok K s) : OutOk K (execLwait q t w s) := by
  simp (maxDischargeDepth := 50) +contextual only [execLwait, issueRow_ok, lwaitBody_ok, implies_true, outOk_next, h]

theorem xwaitBody_ok (q : Fin 64) (t : Fin 4) (w : Word) {s : State} (h : Ok K s) (x : Nat) : ResOk K (xwaitBody q t w s x) := by
  simp (maxDischargeDepth := 50) +contextual only [xwaitBody, ok_mk, conok_mk, Ok.far, Ok.ends, Ok.quires, Ok.clk, Ok.former, Ok.con, Ok.alarm, ConOk.debug, ConOk.wait, and_self, ite_self, iteR_ok, resOk_done, resOk_wait, resOk_bad, h]

theorem execXwait_ok (q : Fin 64) (t : Fin 4) (w : Word) {s : State} (h : Ok K s) : OutOk K (execXwait q t w s) := by
  simp (maxDischargeDepth := 50) +contextual only [execXwait, issueRow_ok, xwaitBody_ok, implies_true, outOk_next, h]

theorem leaveHalt_ok (periods : Nat) {qr : Quire} (hqr : QOk K qr) : QOk K (leaveHalt periods qr) := by
  simp (maxDischargeDepth := 50) +contextual only [leaveHalt, qok_mk, QOk.mem, QOk.tasks, QOk.config, QOk.scrub, and_self, hqr]

theorem heldBody_ok (q : Fin 64) (t : Fin 4) (w : Word) {s : State} (h : Ok K s) (x : Nat) : ResOk K (heldBody q t w s x) := by
  have key : ∀ {b : State → Nat → Res}, b = heldBody q t w → ResOk K (b s x) := by
    intro b e
    unfold heldBody at e
    split at e <;> subst e
    · exact streamBody_ok _ _ _ h _
    · exact waitsBody_ok _ _ _ h _
    · exact waitwBody_ok _ _ _ h _
    · exact lwaitBody_ok _ _ _ h _
    · exact xwaitBody_ok _ _ _ h _
    · exact h
  exact key rfl

theorem issueHeld_ok {s : State} (h : Ok K s) (q : Fin 64) : Ok K (issueHeld s q) := by
  unfold issueHeld
  split
  · exact h
  · have h1 := updQ_ok h q fun qr hq => updTask_ok hq 0 fun _ htk => settleLoads_ok qr.seq.lc (settleRegs_ok qr.seq.lc htk)
    exact applyRes_ok h1 _ _ _ (heldBody_ok _ _ _ h1 _)

theorem bookRun_ok {qr : Quire} (hqr : QOk K qr) (cause : Nat) (n : Nat) : QOk K (bookRun qr cause n) := by
  simp (maxDischargeDepth := 50) +contextual only [bookRun, bookIdle_ok, iteQ_ok, ite_self, hqr]

theorem bookHalt_ok (periods : Nat) {s : State} (h : Ok K s) (q : Fin 64) : Ok K (bookHalt periods s q) := by
  unfold bookHalt
  extract_lets qr cause
  split <;> simp (maxDischargeDepth := 50) +contextual only [updQ_ok, takeFree_ok, bookRun_ok, implies_true, h]

theorem gatheringResume_ok (q : Fin 64) (periods : Nat) {s : State} (h : Ok K s) : Ok K (gatheringResume q periods s) := by
  simp (maxDischargeDepth := 50) +contextual only [gatheringResume, bookHalt_ok, issueHeld_ok, leaveHalt_ok, ite_ok, updQ_ok, foldl_ok, ite_self, implies_true, h]

theorem execGatheringResume_ok (q : Fin 64) (periods : Nat) {s : State} (h : Ok K s) : OutOk K (execGatheringResume q periods s) := by
  simp (maxDischargeDepth := 50) +contextual only [execGatheringResume, catchUp_ok, gatheringResume_ok, outOk_next, h]

theorem waitTimeout_ok (q : Fin 64) (t : Fin 4) {s : State} (h : Ok K s) : Ok K (waitTimeout q t s) := by
  simp (maxDischargeDepth := 50) +contextual only [waitTimeout, raiseFault_ok, ite_ok, ok_mk, conok_mk, Ok.far, Ok.ends, Ok.quires, Ok.clk, Ok.former, Ok.con, Ok.alarm, ConOk.debug, ConOk.wait, and_self, ite_self, h]

theorem execWaitTimeout_ok (q : Fin 64) (t : Fin 4) {s : State} (h : Ok K s) : OutOk K (execWaitTimeout q t s) := by
  simp (maxDischargeDepth := 50) +contextual only [execWaitTimeout, catchUp_ok, waitTimeout_ok, outOk_next, h]

theorem throttleResume_ok (q : Fin 64) (periods : Nat) {s : State} (h : Ok K s) : Ok K (throttleResume q periods s) := by
  unfold throttleResume
  split <;> simp (maxDischargeDepth := 50) +contextual only [ok_mk, bookRun_ok, qok_mk, conok_mk, Ok.far, Ok.ends, Ok.quires, Ok.clk, Ok.former, Ok.con, Ok.alarm, ConOk.debug, ConOk.wait, QOk.mem, QOk.tasks, QOk.config, QOk.scrub, updQ_ok, foldl_ok, and_self, implies_true, h]

theorem execThrottleResume_ok (q : Fin 64) (periods : Nat) {s : State} (h : Ok K s) : OutOk K (execThrottleResume q periods s) := by
  simp (maxDischargeDepth := 50) +contextual only [execThrottleResume, catchUp_ok, throttleResume_ok, outOk_next, h]

theorem scrubTick_ok (q : Fin 64) (wIdle : Nat) (mIdle : Nat) {s : State} (h : Ok K s) : Ok K (scrubTick q wIdle mIdle s) := by
  simp (maxDischargeDepth := 50) +contextual only [scrubTick, noteReads_ok, stopQuire_ok, ite_ok, ok_mk, qok_mk, Ok.far, Ok.ends, Ok.quires, Ok.clk, Ok.former, Ok.con, Ok.alarm, QOk.mem, QOk.tasks, QOk.config, QOk.scrub, updQ_ok, and_self, ite_self, implies_true, h]

theorem scrub_ok (q : Fin 64) (wIdle : Nat) (mIdle : Nat) (ups : List Upset) {s : State} (h : Ok K s) : Ok K (scrub q wIdle mIdle ups s) := by
  simp (maxDischargeDepth := 50) +contextual only [scrub, scrubTick_ok, ite_ok, qok_mk, QOk.mem, QOk.tasks, QOk.config, QOk.scrub, updQ_ok, and_self, ite_self, implies_true, h]

theorem execScrub_ok (q : Fin 64) (wIdle : Nat) (mIdle : Nat) (ups : List Upset) {s : State} (h : Ok K s) : OutOk K (execScrub q wIdle mIdle ups s) := by
  simp (maxDischargeDepth := 50) +contextual only [execScrub, catchUp_ok, scrub_ok, outOk_next, h]

theorem fixQueueWriteback_ok (q : Fin 64) (bank : Fin 4) {s : State} (h : Ok K s) : Ok K (fixQueueWriteback q bank s) := by
  simp (maxDischargeDepth := 50) +contextual only [fixQueueWriteback, fixWriteBack_ok, ite_ok, qok_mk, QOk.mem, QOk.tasks, QOk.config, QOk.scrub, updQ_ok, and_self, ite_self, implies_true, h]

theorem execFixQueueWriteback_ok (q : Fin 64) (bank : Fin 4) {s : State} (h : Ok K s) : OutOk K (execFixQueueWriteback q bank s) := by
  simp (maxDischargeDepth := 50) +contextual only [execFixQueueWriteback, catchUp_ok, fixQueueWriteback_ok, outOk_next, h]

theorem updRun_ok (q : Fin 64) (t : Fin 4) (w : Word) (p : UpdPlan) (entry : Nat) {s : State} (h : Ok K s) (x : Nat) : ResOk K (updRun q t w p entry s x) := by
  simp (maxDischargeDepth := 50) +contextual only [updRun, claimTok_ok, hazard_ok, laterRead_ok, ite_ok, qok_mk, QOk.mem, QOk.tasks, QOk.config, QOk.scrub, updQ_ok, and_self, ite_self, implies_true, resOk_done, h]

theorem updBody_ok (q : Fin 64) (t : Fin 4) (w : Word) {s : State} (h : Ok K s) (x : Nat) : ResOk K (updBody q t w s x) := by
  have h1 := fun l => noteEarly_ok h q t x l
  unfold updBody
  dsimp only
  repeat (refine iteR_bad ?_)
  exact updRun_ok _ _ _ _ _ (h1 _) _

theorem execUpd_ok (q : Fin 64) (t : Fin 4) (w : Word) {s : State} (h : Ok K s) : OutOk K (execUpd q t w s) := by
  simp (maxDischargeDepth := 50) +contextual only [execUpd, issueRow_ok, updBody_ok, implies_true, outOk_next, h]

theorem unitReg_ok {s : State} (h : Ok K s) (q : Fin 64) (t : Fin 4) (x : Nat) (r : Nat) (v : Word) : Ok K (unitReg s q t x r v) := by
  simp (maxDischargeDepth := 50) +contextual only [unitReg, hazard_ok, writeReg_ok, ite_ok, updT_ok, ite_self, implies_true, h]

theorem ugetBody_ok (q : Fin 64) (t : Fin 4) (w : Word) {s : State} (h : Ok K s) (x : Nat) : ResOk K (ugetBody q t w s x) := by
  simp (maxDischargeDepth := 50) +contextual only [ugetBody, unitReg_ok, ite_self, iteR_ok, resOk_done, resOk_bad, h]

theorem execUget_ok (q : Fin 64) (t : Fin 4) (w : Word) {s : State} (h : Ok K s) : OutOk K (execUget q t w s) := by
  simp (maxDischargeDepth := 50) +contextual only [execUget, issueRow_ok, ugetBody_ok, implies_true, outOk_next, h]

theorem ustatBody_ok (q : Fin 64) (t : Fin 4) (w : Word) {s : State} (h : Ok K s) (x : Nat) : ResOk K (ustatBody q t w s x) := by
  simp (maxDischargeDepth := 50) +contextual only [ustatBody, hazard_ok, unitReg_ok, ite_ok, qok_mk, QOk.mem, QOk.tasks, QOk.config, QOk.scrub, updQ_ok, and_self, ite_self, implies_true, iteR_ok, resOk_done, resOk_bad, h]

theorem execUstat_ok (q : Fin 64) (t : Fin 4) (w : Word) {s : State} (h : Ok K s) : OutOk K (execUstat q t w s) := by
  simp (maxDischargeDepth := 50) +contextual only [execUstat, issueRow_ok, ustatBody_ok, implies_true, outOk_next, h]

end Sys2Proof.Machine
end

