-- ==== Sys2Proof/Laws/SoundDie.lean ====
section
/-! SUPPORT. Clocks, links, power and the host port keep the claimed properties. -/

namespace Sys2Proof.Machine

variable {K : Parts}

theorem answerCmds_ok {s : State} (h : Ok K s) (pick : Cmd → Bool) (status : Nat) (r0 : Word) (r1 : Word) : Ok K (answerCmds s pick status r0 r1) := by
  simp (maxDischargeDepth := 50) +contextual only [answerCmds, ok_mk, Ok.far, Ok.ends, Ok.quires, Ok.clk, Ok.former, Ok.con, Ok.alarm, and_self, h]

theorem stallQuire_ok (n : Nat) {qr : Quire} (hqr : QOk K qr) : QOk K (stallQuire n qr) := by
  simp (maxDischargeDepth := 50) +contextual only [stallQuire, iteQ_ok, qok_mk, QOk.mem, QOk.tasks, QOk.config, QOk.scrub, bookIdle_ok, and_self, ite_self, hqr]

theorem stretchStall_ok {s : State} (h : Ok K s) (f : Fin 16) (b : Fin 16) (n : Nat) : Ok K (stretchStall s f b n) := by
  simp (maxDischargeDepth := 50) +contextual only [stretchStall, stallQuire_ok, traceEvent_ok, ite_ok, ok_mk, Ok.far, Ok.ends, Ok.quires, Ok.clk, Ok.former, Ok.con, Ok.alarm, updQ_ok, foldl_ok, and_self, ite_self, implies_true, h]

theorem noteDrift_ok {s : State} (h : Ok K s) (b : Fin 16) : Ok K (noteDrift s b) := by
  simp (maxDischargeDepth := 50) +contextual only [noteDrift, takeFree_ok, ok_mk, Ok.far, Ok.ends, Ok.quires, Ok.clk, Ok.former, Ok.con, Ok.alarm, and_self, h]

theorem overflowAt_ok {s : State} (h : Ok K s) (b : Fin 16) : Ok K (overflowAt s b) := by
  simp (maxDischargeDepth := 50) +contextual only [overflowAt, setW1c_ok, ok_mk, Ok.far, Ok.ends, Ok.quires, Ok.clk, Ok.former, Ok.con, Ok.alarm, and_self, h]

theorem stretchBuffers_ok {s : State} (h : Ok K s) (f : Fin 16) (n : Nat) : Ok K (stretchBuffers s f n) := by
  simp (maxDischargeDepth := 50) +contextual only [stretchBuffers, noteDrift_ok, overflowAt_ok, raiseDie_ok, stretchStall_ok, takeFree_ok, ite_ok, ok_mk, Ok.far, Ok.ends, Ok.quires, Ok.clk, Ok.former, Ok.con, Ok.alarm, and_self, ite_self, h]

theorem stretchPeriod_ok (f : Fin 16) (half : Bool) {s : State} (h : Ok K s) : Ok K (stretchPeriod f half s) := by
  unfold stretchPeriod
  extract_lets c1 s1
  have h1 : Ok K s1 := by
    simp only [s1, c1, ite_ok, ok_mk, clkok_mk, Ok.far, Ok.ends, Ok.quires, Ok.clk, ClkOk.current, ClkOk.target,
      ClkOk.restore, ClkOk.droop, Ok.former, Ok.con, Ok.alarm, and_self, ite_self, h]
  simp only [ite_ok, stretchBuffers_ok, ite_self, h1]

theorem droopStretch_ok (f : Fin 16) (droop : Nat) {s : State} (h : Ok K s) : Ok K (droopStretch f droop s) := by
  simp (maxDischargeDepth := 50) +contextual only [droopStretch, stretchPeriod_ok, ite_ok, ite_self, h]

theorem execDroopStretch_ok (folio : FolioId) (droop : Nat) {s : State} (h : Ok K s) : OutOk K (execDroopStretch folio droop s) := by
  simp (maxDischargeDepth := 50) +contextual only [execDroopStretch, catchUp_ok, droopStretch_ok, outOk_next, h]

theorem iteC_ok {c : Prop} [Decidable c] {a b : Clk} : ClkOk K (if c then a else b) ↔ if c then ClkOk K a else ClkOk K b := by
  split <;> rfl

theorem ixs_some {n : Nat} (h : IxOk K n) : IxsOk K (some n) := fun hk r hr => by
  cases hr
  exact h hk

theorem withClk_ok {s : State} {c : Clk} (h : Ok K s) (hc : ClkOk K c) : Ok K { s with clk := c } := { h with clk := hc }

theorem Clk.schedule_ok {c : Clk} (hc : ClkOk K c) {target : Nat} (ht : IxOk K target) (kettle : Nat) : ClkOk K (c.schedule target kettle) :=
  ⟨hc.current, ht, hc.restore, hc.droop⟩

theorem Clk.settle_ok {c : Clk} (hc : ClkOk K c) : ClkOk K (Clk.settle c) := by
  simp (maxDischargeDepth := 50) +contextual only [Clk.settle, clkok_mk, ClkOk.current, ClkOk.restore, ClkOk.droop, and_self, hc]

theorem answerChange_ok {s : State} (h : Ok K s) (status : Nat) : Ok K (answerChange s status) := by
  simp (maxDischargeDepth := 50) +contextual only [answerChange, answerCmds_ok, ite_ok, ite_self, h]

theorem Clk.change_ok {c : Clk} (hc : ClkOk K c) (inReset : Bool) (now : Nat) : ClkOk K (c.change inReset now) := by
  have h1 := Clk.settle_ok (c := { c with current := c.target, source := c.pendSource.getD c.source, resetStep := inReset })
    ⟨hc.target, hc.target, hc.restore, hc.droop⟩
  unfold Clk.change
  dsimp only
  split
  · rename_i r _ hr
    split
    · exact h1
    · exact ⟨h1.current, fun hk => hc.restore hk _ hr, nofun, h1.droop⟩
  · exact h1

theorem operatingPointChange_ok {s : State} (h : Ok K s) : Ok K (operatingPointChange s) := by
  unfold operatingPointChange
  split
  · exact h
  · refine answerChange_ok ?_ _
    exact withClk_ok h (Clk.change_ok h.clk _ _)

theorem execOperatingPointChange_ok {s : State} (h : Ok K s) : OutOk K (execOperatingPointChange s) := by
  simp (maxDischargeDepth := 50) +contextual only [execOperatingPointChange, operatingPointChange_ok, outOk_next, h]

theorem referenceLoss_ok {s : State} (h : Ok K s) : Ok K (referenceLoss s) := by
  have h0 := setW1c_ok 0x10018 1 h
  have key : ∀ c : Clk, ClkOk K c → Ok K (
      let s1 := { setW1c 0x10018 1 s with clk := if c.opPending then c.settle else c }
      let s2 := if c.opPending then answerChange s1 0x09 else s1
      alarm s2 1 0 ((refWord s2.clk).toNat % 2 ^ 32)) := fun c hc => by
    cases hp : c.opPending
    · simp only [Bool.false_eq_true, if_false]
      exact alarm_ok (withClk_ok h0 hc) _ _ _
    · simp only [if_true]
      exact alarm_ok (answerChange_ok (withClk_ok h0 (Clk.settle_ok hc)) _) _ _ _
  unfold referenceLoss
  split
  · exact h
  · refine key _ ?_
    split
    · exact ⟨h.clk.current, h.clk.target, ixs_some h.clk.current, h.clk.droop⟩
    · exact ⟨h.clk.current, h.clk.target, h.clk.restore, h.clk.droop⟩

theorem execReferenceLoss_ok {s : State} (h : Ok K s) : OutOk K (execReferenceLoss s) := by
  simp (maxDischargeDepth := 50) +contextual only [execReferenceLoss, referenceLoss_ok, outOk_next, h]

theorem holdoverExpiry_ok {s : State} (h : Ok K s) : Ok K (holdoverExpiry s) := by
  unfold holdoverExpiry
  dsimp only
  split
  · exact h
  · have ht : IxOk K (max s.clk.current 5) := fun hk => by have := h.clk.current hk; omega
    have h1 := Clk.schedule_ok h.clk ht (s.clk.lossTick + 164)
    exact { h with clk := ⟨h1.current, h1.target, h1.restore, h1.droop⟩ }

theorem execHoldoverExpiry_ok {s : State} (h : Ok K s) : OutOk K (execHoldoverExpiry s) := by
  simp (maxDischargeDepth := 50) +contextual only [execHoldoverExpiry, holdoverExpiry_ok, outOk_next, h]

theorem Clk.returned_ok {c : Clk} (hc : ClkOk K c) (now : Nat) : ClkOk K (c.returned now) := by
  unfold Clk.returned
  dsimp only
  split
  · exact ⟨hc.current, hc.target, nofun, hc.droop⟩
  · exact ⟨hc.current, hc.current, hc.restore, hc.droop⟩

theorem referenceReturn_ok {s : State} (h : Ok K s) : Ok K (referenceReturn s) := by
  unfold referenceReturn
  split
  · exact h
  · exact alarm_ok (by exact { h with clk := Clk.returned_ok h.clk _ }) _ _ _

theorem execReferenceReturn_ok {s : State} (h : Ok K s) : OutOk K (execReferenceReturn s) := by
  simp (maxDischargeDepth := 50) +contextual only [execReferenceReturn, referenceReturn_ok, outOk_next, h]

theorem rok_bytes (a b : Nat) : ROk K 0xFFFF (setFld (setFld 0 0 8 a) 8 8 b) := fun _ => by
  have h : ∀ n, n < 65536 → BitVec.ofNat 64 n &&& ~~~(0xFFFF : Word) = 0 := fun n hn => by
    have hm : (0xFFFF : Word) = BitVec.ofNat 64 (2 ^ 16 - 1) := rfl
    apply BitVec.eq_of_getLsbD_eq
    intro i hi
    rw [hm]
    simp only [BitVec.getLsbD_and, BitVec.getLsbD_ofNat, BitVec.getLsbD_not, Nat.testBit_two_pow_sub_one, hi, decide_true,
      Bool.true_and]
    rw [show BitVec.getLsbD (0 : Word) i = false from BitVec.getLsbD_zero, Bool.and_eq_false_iff]
    by_cases h16 : i < 16
    · simp [h16]
    · exact .inl (Nat.testBit_lt_two_pow (lt_of_lt_of_le hn (Nat.pow_le_pow_right (by omega : 2 > 0) (by omega : 16 ≤ i))))
  have ha := h (a % 256) (by omega)
  have hb := h ((b % 256) <<< 8) (by rw [Nat.shiftLeft_eq]; omega)
  have e : setFld (setFld 0 0 8 a) 8 8 b = (BitVec.ofNat 64 (a % 256) &&& ~~~ maskOf 8 8) ||| BitVec.ofNat 64 ((b % 256) <<< 8) := by
    simp [setFld]
  rw [e, BitVec.and_or_distrib_right, hb, BitVec.and_assoc, BitVec.and_comm (~~~ maskOf 8 8), ← BitVec.and_assoc, ha]
  simp

theorem writeDroopCfg_ok (v : Word) {s : State} (h : Ok K s) : Ok K (writeDroopCfg v s) := by
  unfold writeDroopCfg
  dsimp only
  split
  · exact { h with clk := ⟨h.clk.current, h.clk.target, h.clk.restore, rok_bytes _ _⟩ }
  · exact h

theorem execDroopCfg_ok (value : Word) {s : State} (h : Ok K s) : OutOk K (execDroopCfg value s) := by
  simp (maxDischargeDepth := 50) +contextual only [execDroopCfg, writeDroopCfg_ok, ite_ok, ite_self, outOk_next, h]

theorem linkAlarm_ok {s : State} (h : Ok K s) (l : Fin 26) : Ok K (linkAlarm s l) := by
  simp (maxDischargeDepth := 50) +contextual only [linkAlarm, alarm_ok, h]

theorem raiseLink_ok {s : State} (h : Ok K s) (l : Fin 26) (r : Raised) : Ok K (raiseLink s l r) := by
  unfold raiseLink
  split <;> simp (maxDischargeDepth := 50) +contextual only [updLink_ok, ite_ok, ok_mk, Ok.far, Ok.ends, Ok.quires, Ok.clk, Ok.former, Ok.con, Ok.alarm, and_self, ite_self, h]

theorem linkFault_ok {s : State} (h : Ok K s) (l : Fin 26) (cause : Nat) : Ok K (linkFault s l cause) := by
  simp (maxDischargeDepth := 50) +contextual only [linkFault, raiseLink_ok, ite_ok, ite_self, h]

theorem leaveUp_ok {s : State} (h : Ok K s) (l : Fin 26) (state : Nat) : Ok K (leaveUp s l state) := by
  unfold leaveUp
  dsimp only
  (repeat' split) <;> simp (maxDischargeDepth := 50) +contextual only [linkAlarm_ok, updLink_ok, updPort_ok, h]

theorem sendFlits_ok {s : State} (h : Ok K s) (l : Fin 26) (nak : Bool) (bodies : List (List Byte)) : Ok K (sendFlits s l nak bodies) := by
  simp (maxDischargeDepth := 50) +contextual only [sendFlits, updLink_ok, h]

theorem takeGrant_ok {s : State} (h : Ok K s) (l : Fin 26) : Ok K (takeGrant s l).2 := by
  unfold takeGrant
  split <;> simp (maxDischargeDepth := 50) +contextual only [updPort_ok, h]

theorem sendBare_ok {s : State} (h : Ok K s) (l : Fin 26) (type : Nat) (nak : Bool) : Ok K (sendBare s l type nak) := by
  simp (maxDischargeDepth := 50) +contextual only [sendBare, sendFlits_ok, takeGrant_ok, ite_ok, ite_self, h]

theorem replay_ok {s : State} (h : Ok K s) (l : Fin 26) : Ok K (replay s l) := by
  simp (maxDischargeDepth := 50) +contextual only [replay, sendFlits_ok, ite_ok, updLink_ok, ite_self, h]

theorem acceptMessage_ok {s : State} (h : Ok K s) (l : Fin 26) (p : Fin 26) (bytes : List Byte) : Ok K (acceptMessage s l p bytes) := by
  simp (maxDischargeDepth := 50) +contextual only [acceptMessage, sendFlits_ok, takeGrant_ok, updLink_ok, updPort_ok, h]

theorem messageAccept_ok (p : Fin 26) {s : State} (h : Ok K s) : Ok K (messageAccept p s) := by
  unfold messageAccept
  dsimp only
  (repeat' split) <;> simp (maxDischargeDepth := 50) +contextual only [acceptMessage_ok, dropWrite_ok, h]

theorem execMessageAccept_ok (port : LinkId) {s : State} (h : Ok K s) : OutOk K (execMessageAccept port s) := by
  simp (maxDischargeDepth := 50) +contextual only [execMessageAccept, catchUp_ok, messageAccept_ok, outOk_next, h]

theorem takeAck_ok {s : State} (hs : Ok K s) (l : Fin 26) (h : Word) : Ok K (takeAck s l h) := by
  unfold takeAck
  dsimp only
  (repeat' split) <;> simp (maxDischargeDepth := 50) +contextual only [replay_ok, updLink_ok, updPort_ok, hs]

theorem takeCredit_ok {s : State} (hs : Ok K s) (l : Fin 26) (h : Word) : Ok K (takeCredit s l h) := by
  unfold takeCredit
  split <;> simp (maxDischargeDepth := 50) +contextual only [updPort_ok, hs]

theorem discardGap_ok {s : State} (h : Ok K s) (l : Fin 26) : Ok K (discardGap s l) := by
  simp (maxDischargeDepth := 50) +contextual only [discardGap, sendBare_ok, ite_ok, updLink_ok, ite_self, h]

theorem ringWrite_ok {s : State} (h : Ok K s) (l : Fin 26) (p : Fin 26) (off : Nat) (bytes : List Byte) : Ok K (ringWrite s l p off bytes) := by
  unfold ringWrite
  refine foldlP_ok (fun r x hr => ?_) _ h
  dsimp only
  split
  · exact { hr with ends := ends_set hr.ends l (writeBytes_mok (ends_get hr.ends l) _ _) }
  · dsimp only
    exact updPort_ok hr _ _

theorem takePayload_ok {s : State} (hs : Ok K s) (l : Fin 26) (h : Word) (body : List Byte) : Ok K (takePayload s l h body) := by
  unfold takePayload
  dsimp only
  (repeat' split) <;> simp (maxDischargeDepth := 50) +contextual only [ringWrite_ok, linkFault_ok, updPort_ok, hs]

theorem dropData_ok {s : State} (hs : Ok K s) (l : Fin 26) (h : Word) : Ok K (dropData s l h) := by
  unfold dropData
  split <;> simp (maxDischargeDepth := 50) +contextual only [ite_ok, updPort_ok, ite_self, hs]

theorem takeData_ok {s : State} (hs : Ok K s) (l : Fin 26) (h : Word) (body : List Byte) : Ok K (takeData s l h body) := by
  simp (maxDischargeDepth := 50) +contextual only [takeData, discardGap_ok, dropData_ok, takeCredit_ok, takePayload_ok, ite_ok, updLink_ok, ite_self, hs]

theorem uncorrectable_ok {s : State} (h : Ok K s) (l : Fin 26) : Ok K (uncorrectable s l) := by
  simp (maxDischargeDepth := 50) +contextual only [uncorrectable, discardGap_ok, updLink_ok, h]

theorem recvFlit_ok {s : State} (h : Ok K s) (l : Fin 26) (bytes : List Byte) (type : Nat) {take : State → Word → List Byte → State} (htake : ∀ s w b, Ok K s → Ok K (take s w b)) : Ok K (recvFlit s l bytes type take) := by
  unfold recvFlit
  (repeat' split) <;> simp (maxDischargeDepth := 50) +contextual only [takeAck_ok, uncorrectable_ok, updLink_ok, h, htake]

theorem execDataFlit_ok (link : LinkId) (bytes : List Byte) {s : State} (h : Ok K s) : OutOk K (execDataFlit link bytes s) := by
  simp (maxDischargeDepth := 50) +contextual only [execDataFlit, recvFlit_ok, takeData_ok, implies_true, outOk_next, h]

theorem execCtrlFlit_ok (link : LinkId) (bytes : List Byte) {s : State} (h : Ok K s) : OutOk K (execCtrlFlit link bytes s) := by
  simp (maxDischargeDepth := 50) +contextual only [execCtrlFlit, recvFlit_ok, takeCredit_ok, implies_true, outOk_next, h]

theorem execHeartbeatFlit_ok (link : LinkId) (bytes : List Byte) {s : State} (h : Ok K s) : OutOk K (execHeartbeatFlit link bytes s) := by
  simp (maxDischargeDepth := 50) +contextual only [execHeartbeatFlit, recvFlit_ok, takeCredit_ok, implies_true, outOk_next, h]

theorem execUncorrectableFlit_ok (link : LinkId) {s : State} (h : Ok K s) : OutOk K (execUncorrectableFlit link s) := by
  simp (maxDischargeDepth := 50) +contextual only [execUncorrectableFlit, uncorrectable_ok, ite_ok, ite_self, outOk_next, h]

theorem messageLanded_ok (p : Fin 26) {s : State} (h : Ok K s) : Ok K (messageLanded p s) := by
  unfold messageLanded
  split <;> simp (maxDischargeDepth := 50) +contextual only [ite_ok, ok_mk, Ok.far, Ok.ends, Ok.quires, Ok.clk, Ok.former, Ok.con, Ok.alarm, updPort_ok, foldlM_ok, writeBytes_mok, and_self, ite_self, implies_true, h]

theorem execMessageLanded_ok (port : LinkId) {s : State} (h : Ok K s) : OutOk K (execMessageLanded port s) := by
  simp (maxDischargeDepth := 50) +contextual only [execMessageLanded, messageLanded_ok, outOk_next, h]

theorem execReplayTimeout_ok (link : LinkId) {s : State} (h : Ok K s) : OutOk K (execReplayTimeout link s) := by
  simp (maxDischargeDepth := 50) +contextual only [execReplayTimeout, replay_ok, ite_ok, ite_self, outOk_next, h]

theorem execAckTimeout_ok (link : LinkId) {s : State} (h : Ok K s) : OutOk K (execAckTimeout link s) := by
  simp (maxDischargeDepth := 50) +contextual only [execAckTimeout, sendBare_ok, ite_ok, ite_self, outOk_next, h]

theorem execHeartbeatTimeout_ok (link : LinkId) {s : State} (h : Ok K s) : OutOk K (execHeartbeatTimeout link s) := by
  simp (maxDischargeDepth := 50) +contextual only [execHeartbeatTimeout, sendBare_ok, ite_ok, ite_self, outOk_next, h]

theorem silenced_ok (l : Fin 26) {s : State} (h : Ok K s) : Ok K (silenced l s) := by
  simp (maxDischargeDepth := 50) +contextual only [silenced, leaveUp_ok, linkFault_ok, ite_ok, ite_self, h]

theorem execSilence_ok (link : LinkId) {s : State} (h : Ok K s) : OutOk K (execSilence link s) := by
  simp (maxDischargeDepth := 50) +contextual only [execSilence, silenced_ok, outOk_next, h]

theorem promiseMissed_ok (p : Fin 26) {s : State} (h : Ok K s) : Ok K (promiseMissed p s) := by
  unfold promiseMissed
  dsimp only
  split <;> simp (maxDischargeDepth := 50) +contextual only [linkFault_ok, ite_ok, ite_self, h]

theorem execPromise_ok (port : LinkId) {s : State} (h : Ok K s) : OutOk K (execPromise port s) := by
  simp (maxDischargeDepth := 50) +contextual only [execPromise, promiseMissed_ok, outOk_next, h]

theorem partialMissed_ok (p : Fin 26) {s : State} (h : Ok K s) : Ok K (partialMissed p s) := by
  unfold partialMissed
  dsimp only
  split <;> simp (maxDischargeDepth := 50) +contextual only [linkFault_ok, ite_ok, ite_self, h]

theorem execPartialMsg_ok (port : LinkId) {s : State} (h : Ok K s) : OutOk K (execPartialMsg port s) := by
  simp (maxDischargeDepth := 50) +contextual only [execPartialMsg, partialMissed_ok, outOk_next, h]

theorem referenceTimeout_ok {s : State} (h : Ok K s) : Ok K (referenceTimeout s) := by
  simp (maxDischargeDepth := 50) +contextual only [referenceTimeout, linkFault_ok, ite_ok, foldl_ok, ite_self, implies_true, h]

theorem execReferenceTimeout_ok {s : State} (h : Ok K s) : OutOk K (execReferenceTimeout s) := by
  simp (maxDischargeDepth := 50) +contextual only [execReferenceTimeout, referenceTimeout_ok, outOk_next, h]

theorem sendFault_ok {s : State} (h : Ok K s) (l : Fin 26) : Ok K (sendFault s l) := by
  unfold sendFault
  split <;> simp (maxDischargeDepth := 50) +contextual only [sendFlits_ok, h]

theorem startFaultFlits_ok {s : State} (h : Ok K s) : Ok K (startFaultFlits s) := by
  simp (maxDischargeDepth := 50) +contextual only [startFaultFlits, sendFault_ok, ite_ok, updLink_ok, foldl_ok, ite_self, implies_true, h]

theorem faultResend_ok (l : Fin 26) {s : State} (h : Ok K s) : Ok K (faultResend l s) := by
  simp (maxDischargeDepth := 50) +contextual only [faultResend, sendFault_ok, ite_ok, ite_self, h]

theorem execFaultFlitResend_ok (link : LinkId) {s : State} (h : Ok K s) : OutOk K (execFaultFlitResend link s) := by
  simp (maxDischargeDepth := 50) +contextual only [execFaultFlitResend, faultResend_ok, outOk_next, h]

theorem takeFault_ok {s : State} (h : Ok K s) (l : Fin 26) (body : List Byte) : Ok K (takeFault s l body) := by
  simp (maxDischargeDepth := 50) +contextual only [takeFault, raiseLink_ok, ite_ok, updLink_ok, ite_self, h]

theorem execFaultFlit_ok (link : LinkId) (bytes : List Byte) {s : State} (h : Ok K s) : OutOk K (execFaultFlit link bytes s) := by
  simp (maxDischargeDepth := 50) +contextual only [execFaultFlit, recvFlit_ok, takeFault_ok, implies_true, outOk_next, h]

theorem beginTraining_ok {s : State} (h : Ok K s) (l : Fin 26) : Ok K (beginTraining s l) := by
  simp (maxDischargeDepth := 50) +contextual only [beginTraining, leaveUp_ok, ite_ok, updLink_ok, ite_self, h]

theorem execLinkTraining_ok (link : LinkId) {s : State} (h : Ok K s) : OutOk K (execLinkTraining link s) := by
  simp (maxDischargeDepth := 50) +contextual only [execLinkTraining, beginTraining_ok, outOk_next, h]

theorem sendGrant_ok {s : State} (h : Ok K s) (l : Fin 26) : Ok K (sendGrant s l) := by
  unfold sendGrant
  split <;> simp (maxDischargeDepth := 50) +contextual only [sendBare_ok, ite_ok, ite_self, h]

theorem endTraining_ok {s : State} (h : Ok K s) (l : Fin 26) (lanes : BitVec 8) : Ok K (endTraining s l lanes) := by
  unfold endTraining
  dsimp only
  (repeat' split) <;> simp (maxDischargeDepth := 50) +contextual only [linkAlarm_ok, sendGrant_ok, updLink_ok, updPort_ok, h]

theorem execLinkTrained_ok (link : LinkId) (lanes : BitVec 8) {s : State} (h : Ok K s) : OutOk K (execLinkTrained link lanes s) := by
  simp (maxDischargeDepth := 50) +contextual only [execLinkTrained, endTraining_ok, ite_ok, ite_self, outOk_next, h]

theorem backgroundRetrain_ok {s : State} (h : Ok K s) : Ok K (backgroundRetrain s) := by
  simp (maxDischargeDepth := 50) +contextual only [backgroundRetrain, beginTraining_ok, ite_ok, foldl_ok, ite_self, implies_true, h]

theorem execBackgroundRetrain_ok {s : State} (h : Ok K s) : OutOk K (execBackgroundRetrain s) := by
  simp (maxDischargeDepth := 50) +contextual only [execBackgroundRetrain, backgroundRetrain_ok, outOk_next, h]

theorem runIdentity_ok {s : State} (h : Ok K s) (l : Fin 26) : Ok K (runIdentity s l) := by
  unfold runIdentity
  extract_lets s1 s2
  have h1 : Ok K s1 := updLink_ok h l _
  have h2 : Ok K s2 := by
    simp only [s2]
    split
    · exact h1
    · exact updPort_ok h1 _ _
  exact sendGrant_ok h2 l

theorem trainFlit_ok (l : Fin 26) (phys : Nat) (id : BitVec 32) (pp : Nat) (job : Word) {s : State} (h : Ok K s) : Ok K (trainFlit l phys id pp job s) := by
  unfold trainFlit
  dsimp only
  (repeat' split) <;> simp (maxDischargeDepth := 50) +contextual only [linkFault_ok, runIdentity_ok, updLink_ok, h]

theorem execTrainFlit_ok (link : LinkId) (phys : Nat) (deviceId : BitVec 32) (peerPort : Nat) (job : Word) {s : State} (h : Ok K s) : OutOk K (execTrainFlit link phys deviceId peerPort job s) := by
  simp (maxDischargeDepth := 50) +contextual only [execTrainFlit, trainFlit_ok, outOk_next, h]

theorem recordTrip_ok {s : State} (h : Ok K s) (cause : Nat) (sensor : Nat) : Ok K (recordTrip s cause sensor) := by
  simp (maxDischargeDepth := 50) +contextual only [recordTrip, ite_ok, ok_mk, Ok.far, Ok.ends, Ok.quires, Ok.clk, Ok.former, Ok.con, Ok.alarm, and_self, ite_self, h]

theorem trip_ok {s : State} (h : Ok K s) (cause : Nat) (sensor : Nat) : Ok K (trip s cause sensor) := by
  simp (maxDischargeDepth := 50) +contextual only [trip, raiseDie_ok, recordTrip_ok, h]

theorem powerTrip_ok (watts fraction : BitVec 16) {s : State} (h : Ok K s) : Ok K (powerTrip watts fraction s) := by
  unfold powerTrip
  dsimp only
  (repeat' split) <;> simp (maxDischargeDepth := 50) +contextual only [trip_ok, ok_mk, Ok.far, Ok.ends, Ok.quires, Ok.clk, Ok.former, Ok.con, Ok.alarm, and_self, h]

theorem execPowerTrip_ok (watts fraction : BitVec 16) {s : State} (h : Ok K s) : OutOk K (execPowerTrip watts fraction s) := by
  simp (maxDischargeDepth := 50) +contextual only [execPowerTrip, powerTrip_ok, outOk_next, h]

theorem senseTemp_ok (sensor : Fin 24) (temp : BitVec 16) {s : State} (h : Ok K s) : Ok K (senseTemp sensor temp s) := by
  simp (maxDischargeDepth := 50) +contextual only [senseTemp, alarm_ok, ite_ok, ok_mk, Ok.far, Ok.ends, Ok.quires, Ok.clk, Ok.former, Ok.con, Ok.alarm, and_self, ite_self, h]

theorem thermalTrip_ok (sensor : Fin 24) (temp : BitVec 16) {s : State} (h : Ok K s) : Ok K (thermalTrip sensor temp s) := by
  simp (maxDischargeDepth := 50) +contextual only [thermalTrip, senseTemp_ok, trip_ok, ite_ok, ite_self, h]

theorem execThermalTrip_ok (sensor : Fin 24) (temp : BitVec 16) {s : State} (h : Ok K s) : OutOk K (execThermalTrip sensor temp s) := by
  simp (maxDischargeDepth := 50) +contextual only [execThermalTrip, thermalTrip_ok, outOk_next, h]

theorem execThermalWarning_ok (sensor : Fin 24) (temp : BitVec 16) {s : State} (h : Ok K s) : OutOk K (execThermalWarning sensor temp s) := by
  simp (maxDischargeDepth := 50) +contextual only [execThermalWarning, thermalTrip_ok, outOk_next, h]

theorem writePdReq_ok (v : Word) {s : State} (h : Ok K s) : Ok K (writePdReq v s) := by
  unfold writePdReq
  extract_lets refused req s1
  have h1 : Ok K s1 := by simp only [s1, ite_ok, setW1c_ok, ite_self, h]
  exact { h1 with }

theorem execPdReq_ok (value : Word) {s : State} (h : Ok K s) : OutOk K (execPdReq value s) := by
  simp (maxDischargeDepth := 50) +contextual only [execPdReq, writePdReq_ok, ite_ok, ite_self, outOk_next, h]

theorem unmapLink_ok {s : State} (h : Ok K s) (l : Fin 26) : Ok K (unmapLink s l) := by
  unfold unmapLink
  split
  · exact h
  · refine updLink_ok ?_ _ _
    split
    · exact h
    · exact updPort_ok h _ _

theorem bandOff_ok {s : State} (h : Ok K s) (pd : Nat) : Ok K (bandOff s pd) := by
  refine foldl_ok (fun s l hs => ?_) _ h
  have h1 := unmapLink_ok (leaveUp_ok hs l 0) l
  exact { h1 with ends := ends_set h1.ends l nil_mok }

theorem takeDomain_ok {s : State} (h : Ok K s) (pd : Nat) : Ok K (takeDomain s pd) := by
  simp (maxDischargeDepth := 50) +contextual only [takeDomain, bandOff_ok, ite_ok, ok_mk, Ok.far, Ok.ends, Ok.quires, Ok.clk, Ok.former, Ok.con, Ok.alarm, and_self, ite_self, h]

theorem takeDomains_ok {s : State} (h : Ok K s) : Ok K (takeDomains s) := by
  simp (maxDischargeDepth := 50) +contextual only [takeDomains, takeDomain_ok, foldl_ok, implies_true, h]

theorem powerDomainOn_ok (pd : Fin 30) {s : State} (h : Ok K s) : Ok K (powerDomainOn pd s) := by
  simp (maxDischargeDepth := 50) +contextual only [powerDomainOn, ite_ok, ok_mk, Ok.far, Ok.ends, Ok.quires, Ok.clk, Ok.former, Ok.con, Ok.alarm, and_self, ite_self, h]

theorem execPowerDomainOn_ok (pd : Fin 30) {s : State} (h : Ok K s) : OutOk K (execPowerDomainOn pd s) := by
  simp (maxDischargeDepth := 50) +contextual only [execPowerDomainOn, powerDomainOn_ok, outOk_next, h]

theorem perstAssert_ok {s : State} (h : Ok K s) : Ok K (perstAssert s) := by
  simp (maxDischargeDepth := 50) +contextual only [perstAssert, answerCmds_ok, ok_mk, Ok.far, Ok.ends, Ok.quires, Ok.clk, Ok.former, Ok.con, Ok.alarm, and_self, h]

theorem execPerstAssert_ok {s : State} (h : Ok K s) : OutOk K (execPerstAssert s) := by
  simp (maxDischargeDepth := 50) +contextual only [execPerstAssert, perstAssert_ok, outOk_next, h]

theorem perstRelease_ok {s : State} (h : Ok K s) : Ok K (perstRelease s) := by
  simp (maxDischargeDepth := 50) +contextual only [perstRelease, ite_ok, ok_mk, Ok.far, Ok.ends, Ok.quires, Ok.clk, Ok.former, Ok.con, Ok.alarm, and_self, ite_self, h]

theorem execPerstRelease_ok {s : State} (h : Ok K s) : OutOk K (execPerstRelease s) := by
  simp (maxDischargeDepth := 50) +contextual only [execPerstRelease, perstRelease_ok, outOk_next, h]

theorem execPcieLinkDown_ok {s : State} (h : Ok K s) : OutOk K (execPcieLinkDown s) := by
  simp (maxDischargeDepth := 50) +contextual only [execPcieLinkDown, ok_mk, Ok.far, Ok.ends, Ok.quires, Ok.clk, Ok.former, Ok.con, Ok.alarm, and_self, outOk_next, h]

theorem execD3hot_ok (enter : Bool) {s : State} (h : Ok K s) : OutOk K (execD3hot enter s) := by
  simp (maxDischargeDepth := 50) +contextual only [execD3hot, ite_ok, ok_mk, Ok.far, Ok.ends, Ok.quires, Ok.clk, Ok.former, Ok.con, Ok.alarm, and_self, ite_self, outOk_next, h]

theorem unsupportedRequest_ok (r : HostRequest) {s : State} (h : Ok K s) : Ok K (unsupportedRequest r s) := by
  simp (maxDischargeDepth := 50) +contextual only [unsupportedRequest, ite_ok, ok_mk, Ok.far, Ok.ends, Ok.quires, Ok.clk, Ok.former, Ok.con, Ok.alarm, and_self, ite_self, h]

theorem execUnsupportedRequest_ok (req : HostRequest) {s : State} (h : Ok K s) : OutOk K (execUnsupportedRequest req s) := by
  simp (maxDischargeDepth := 50) +contextual only [execUnsupportedRequest, unsupportedRequest_ok, outOk_next, h]

theorem bar4Write_ok (off : Nat) (bytes : List Byte) {s : State} (h : Ok K s) : Ok K (bar4Write off bytes s) := by
  unfold bar4Write
  split
  · exact h
  · refine foldl_ok (fun s k hs => ?_) _ h
    dsimp only
    split
    · split
      · exact hs
      · exact farWriteShared_ok hs _ _
    · exact hs

theorem execBar4Write_ok (offset : Nat) (bytes : List Byte) {s : State} (h : Ok K s) : OutOk K (execBar4Write offset bytes s) := by
  simp (maxDischargeDepth := 50) +contextual only [execBar4Write, bar4Write_ok, outOk_next, h]

theorem bar4Bytes_ok (off n : Nat) {s : State} (h : Ok K s) : Ok K (bar4Bytes off n s).2 := by
  have step : ∀ (l : List Nat) (r : List Byte × State), Ok K r.2 → Ok K (l.foldl (fun r k =>
      let p := segPart off n k
      match segBase s k with
      | some b =>
        let got := farRead r.2 [] (b + p.2.1) p.2.2
        (r.1 ++ got.1, got.2)
      | none => (r.1 ++ List.replicate p.2.2 0, r.2)) r).2 := by
    intro l
    induction l with
    | nil => exact fun r hr => hr
    | cons k l ih =>
      intro r hr
      refine ih _ ?_
      dsimp only
      split
      · exact farRead_ok [] _ _ hr
      · exact hr
  exact step _ _ h

theorem bar4Read_ok (off : Nat) (n : Nat) {s : State} (h : Ok K s) : Ok K (bar4Read off n s) := by
  unfold bar4Read
  split
  · exact h
  · exact { bar4Bytes_ok off n h with }

theorem execBar4Read_ok (offset : Nat) (length : Nat) {s : State} (h : Ok K s) : OutOk K (execBar4Read offset length s) := by
  simp (maxDischargeDepth := 50) +contextual only [execBar4Read, bar4Read_ok, outOk_next, h]

theorem execBar4Seg_ok (value : Word) {s : State} (h : Ok K s) : OutOk K (execBar4Seg value s) := by
  simp (maxDischargeDepth := 50) +contextual only [execBar4Seg, ite_ok, ok_mk, Ok.far, Ok.ends, Ok.quires, Ok.clk, Ok.former, Ok.con, Ok.alarm, and_self, ite_self, outOk_next, h]

theorem ringCheck_ok {s : State} (h : Ok K s) (r : Fin 4) : Ok K (ringCheck s r) := by
  simp (maxDischargeDepth := 50) +contextual only [ringCheck, setW1c_ok, ringHost_ok, ite_ok, ok_mk, Ok.far, Ok.ends, Ok.quires, Ok.clk, Ok.former, Ok.con, Ok.alarm, and_self, ite_self, h]

theorem ringBell_ok {s : State} (h : Ok K s) (r : Fin 4) : Ok K (ringBell s r) := by
  simp (maxDischargeDepth := 50) +contextual only [ringBell, ringCheck_ok, ok_mk, Ok.far, Ok.ends, Ok.quires, Ok.clk, Ok.former, Ok.con, Ok.alarm, and_self, h]

theorem writeRingCfg_ok (r : Fin 4) (v : Word) {s : State} (h : Ok K s) : Ok K (writeRingCfg r v s) := by
  simp (maxDischargeDepth := 50) +contextual only [writeRingCfg, ite_ok, ok_mk, Ok.far, Ok.ends, Ok.quires, Ok.clk, Ok.former, Ok.con, Ok.alarm, and_self, ite_self, h]

theorem hostRingCfg_ok (r : Fin 4) (v : Word) {s : State} (h : Ok K s) : Ok K (hostRingCfg r v s) := by
  simp (maxDischargeDepth := 50) +contextual only [hostRingCfg, setW1c_ok, writeRingCfg_ok, h]

theorem execRingCfg_ok (ring : Fin 4) (value : Word) {s : State} (h : Ok K s) : OutOk K (execRingCfg ring value s) := by
  simp (maxDischargeDepth := 50) +contextual only [execRingCfg, hostRingCfg_ok, ite_ok, ite_self, outOk_next, h]

theorem flagRecovery_ok {s : State} (h : Ok K s) (n : Fin 32) : Ok K (flagRecovery s n) := by
  simp (maxDischargeDepth := 50) +contextual only [flagRecovery, ringHostRaw_ok, setTimeout_ok, h]

theorem sampleIn_ok {s : State} (h : Ok K s) (n : Fin 32) : Ok K (sampleIn s n) := by
  unfold sampleIn
  (repeat' split) <;> simp (maxDischargeDepth := 50) +contextual only [ringBell_ok, flagRecovery_ok, ringQuire_ok, ite_ok, ok_mk, Ok.far, Ok.ends, Ok.quires, Ok.clk, Ok.former, Ok.con, Ok.alarm, foldl_ok, and_self, ite_self, implies_true, h]

theorem arriveIn_ok {s : State} (h : Ok K s) (n : Fin 32) : Ok K (arriveIn s n) := by
  simp (maxDischargeDepth := 50) +contextual only [arriveIn, sampleIn_ok, ite_ok, ok_mk, Ok.far, Ok.ends, Ok.quires, Ok.clk, Ok.former, Ok.con, Ok.alarm, and_self, ite_self, h]

theorem ringIn_ok {s : State} (h : Ok K s) (n : Fin 32) : Ok K (ringIn s n) := by
  simp (maxDischargeDepth := 50) +contextual only [ringIn, arriveIn_ok, ite_ok, ite_self, h]

theorem ringMask_ok (v : BitVec 32) {s : State} (h : Ok K s) : Ok K (ringMask v s) := by
  simp (maxDischargeDepth := 50) +contextual only [ringMask, ringIn_ok, ite_ok, foldl_ok, ite_self, implies_true, h]

theorem execDbInSet_ok (value : BitVec 32) {s : State} (h : Ok K s) : OutOk K (execDbInSet value s) := by
  simp (maxDischargeDepth := 50) +contextual only [execDbInSet, ringMask_ok, ite_ok, ite_self, outOk_next, h]

theorem writeInMask_ok (v : BitVec 32) {s : State} (h : Ok K s) : Ok K (writeInMask v s) := by
  simp (maxDischargeDepth := 50) +contextual only [writeInMask, arriveIn_ok, ite_ok, ok_mk, Ok.far, Ok.ends, Ok.quires, Ok.clk, Ok.former, Ok.con, Ok.alarm, foldl_ok, and_self, ite_self, implies_true, h]

theorem sampleHeld_ok {s : State} (h : Ok K s) : Ok K (sampleHeld s) := by
  simp (maxDischargeDepth := 50) +contextual only [sampleHeld, sampleIn_ok, ite_ok, foldl_ok, ite_self, implies_true, h]

theorem execDbInMask_ok (value : BitVec 32) {s : State} (h : Ok K s) : OutOk K (execDbInMask value s) := by
  simp (maxDischargeDepth := 50) +contextual only [execDbInMask, writeInMask_ok, ite_ok, ite_self, outOk_next, h]

theorem clearOut_ok (v : BitVec 32) {s : State} (h : Ok K s) : Ok K (clearOut v s) := by
  simp (maxDischargeDepth := 50) +contextual only [clearOut, ok_mk, Ok.far, Ok.ends, Ok.quires, Ok.clk, Ok.former, Ok.con, Ok.alarm, and_self, h]

theorem releaseMsix_ok {s : State} (h : Ok K s) (n : Fin 32) : Ok K (releaseMsix s n) := by
  simp (maxDischargeDepth := 50) +contextual only [releaseMsix, sendMsix_ok, ite_ok, ok_mk, Ok.far, Ok.ends, Ok.quires, Ok.clk, Ok.former, Ok.con, Ok.alarm, and_self, ite_self, h]

theorem deliverOut_ok {s : State} (h : Ok K s) (n : Fin 32) : Ok K (deliverOut s n) := by
  simp (maxDischargeDepth := 50) +contextual only [deliverOut, checkHost_ok, releaseMsix_ok, ite_ok, ok_mk, Ok.far, Ok.ends, Ok.quires, Ok.clk, Ok.former, Ok.con, Ok.alarm, and_self, ite_self, h]

theorem writeOutMask_ok (v : BitVec 32) {s : State} (h : Ok K s) : Ok K (writeOutMask v s) := by
  simp (maxDischargeDepth := 50) +contextual only [writeOutMask, deliverOut_ok, ite_ok, ok_mk, Ok.far, Ok.ends, Ok.quires, Ok.clk, Ok.former, Ok.con, Ok.alarm, foldl_ok, and_self, ite_self, implies_true, h]

theorem execDbOutMask_ok (value : BitVec 32) {s : State} (h : Ok K s) : OutOk K (execDbOutMask value s) := by
  simp (maxDischargeDepth := 50) +contextual only [execDbOutMask, writeOutMask_ok, ite_ok, ite_self, outOk_next, h]

theorem unmaskVector_ok (n : Fin 32) {s : State} (h : Ok K s) : Ok K (unmaskVector n s) := by
  simp (maxDischargeDepth := 50) +contextual only [unmaskVector, releaseMsix_ok, ok_mk, Ok.far, Ok.ends, Ok.quires, Ok.clk, Ok.former, Ok.con, Ok.alarm, and_self, h]

theorem execMsixVectorUnmask_ok (vector : Fin 32) {s : State} (h : Ok K s) : OutOk K (execMsixVectorUnmask vector s) := by
  simp (maxDischargeDepth := 50) +contextual only [execMsixVectorUnmask, unmaskVector_ok, ite_ok, ite_self, outOk_next, h]

theorem takeQuireBit_ok (q : Fin 64) {s : State} (h : Ok K s) (n : Fin 32) : Ok K (takeQuireBit q s n) := by
  simp (maxDischargeDepth := 50) +contextual only [takeQuireBit, setW1c_ok, ringHost_ok, ite_ok, ok_mk, qok_mk, Ok.far, Ok.ends, Ok.quires, Ok.clk, Ok.former, Ok.con, Ok.alarm, QOk.mem, QOk.tasks, QOk.config, QOk.scrub, updQ_ok, and_self, ite_self, implies_true, h]

theorem takeQuireBits_ok (q : Fin 64) {s : State} (h : Ok K s) : Ok K (takeQuireBits q s) := by
  simp (maxDischargeDepth := 50) +contextual only [takeQuireBits, takeQuireBit_ok, ite_ok, foldl_ok, ite_self, implies_true, h]

theorem execQuireDoorbell_ok (q : QuireId) {s : State} (h : Ok K s) : OutOk K (execQuireDoorbell q s) := by
  simp (maxDischargeDepth := 50) +contextual only [execQuireDoorbell, takeQuireBits_ok, ite_ok, ite_self, outOk_next, h]

theorem deliverToQuire_ok (q : Fin 64) {s : State} (h : Ok K s) (n : Fin 32) : Ok K (deliverToQuire q s n) := by
  simp (maxDischargeDepth := 50) +contextual only [deliverToQuire, checkQuire_ok, ite_ok, qok_mk, QOk.mem, QOk.tasks, QOk.config, QOk.scrub, updQ_ok, and_self, ite_self, implies_true, h]

theorem writeQmask_ok (q : Fin 64) (v : Word) {s : State} (h : Ok K s) : Ok K (writeQmask q v s) := by
  simp (maxDischargeDepth := 50) +contextual only [writeQmask, deliverToQuire_ok, takeQuireBits_ok, ite_ok, qok_mk, QOk.mem, QOk.tasks, QOk.config, QOk.scrub, updQ_ok, foldl_ok, and_self, ite_self, implies_true, h]

theorem execQmask_ok (q : QuireId) (value : Word) {s : State} (h : Ok K s) : OutOk K (execQmask q value s) := by
  simp (maxDischargeDepth := 50) +contextual only [execQmask, writeQmask_ok, ite_ok, ite_self, outOk_next, h]

theorem dbTimeout_ok (db : DoorbellAt) {s : State} (h : Ok K s) : Ok K (dbTimeout db s) := by
  unfold dbTimeout
  (repeat' split) <;> simp (maxDischargeDepth := 50) +contextual only [flagHost_ok, flagRecovery_ok, flagQuires_ok, ringQuireRaw_ok, ite_ok, ite_self, h]

theorem execDbTimeout_ok (db : DoorbellAt) {s : State} (h : Ok K s) : OutOk K (execDbTimeout db s) := by
  simp (maxDischargeDepth := 50) +contextual only [execDbTimeout, dbTimeout_ok, outOk_next, h]

theorem writeHeartbeat_ok (v : BitVec 32) {s : State} (h : Ok K s) : Ok K (writeHeartbeat v s) := by
  simp (maxDischargeDepth := 50) +contextual only [writeHeartbeat, ok_mk, Ok.far, Ok.ends, Ok.quires, Ok.clk, Ok.former, Ok.con, Ok.alarm, and_self, h]

theorem execHeartbeat_ok (value : BitVec 32) {s : State} (h : Ok K s) : OutOk K (execHeartbeat value s) := by
  simp (maxDischargeDepth := 50) +contextual only [execHeartbeat, writeHeartbeat_ok, ite_ok, ite_self, outOk_next, h]

theorem releaseReads_ok (s : State) {qr : Quire} (hqr : QOk K qr) : QOk K (releaseReads s qr) := by
  simp only [releaseReads, setLandings_ok, hqr]

theorem writeFence_ok (w : Fin 4) (v : Word) {s : State} (h : Ok K s) : Ok K (writeFence w v s) := by
  simp (maxDischargeDepth := 50) +contextual only [writeFence, releaseReads_ok, updAllQ_ok, implies_true, ok_mk, Ok.far, Ok.ends, Ok.quires, Ok.clk, Ok.former, Ok.con, Ok.alarm, and_self, h]

theorem execFence_ok (window : Fin 4) (value : Word) {s : State} (h : Ok K s) : OutOk K (execFence window value s) := by
  simp (maxDischargeDepth := 50) +contextual only [execFence, writeFence_ok, ite_ok, ite_self, outOk_next, h]

theorem writeQuireReg_ok {qr : Quire} (hqr : QOk K qr) (blk : Nat) (i : Nat) (v : Word) (c : Word) : QOk K (writeQuireReg qr blk i v c) := by
  unfold writeQuireReg
  (repeat' split) <;> simp (maxDischargeDepth := 50) +contextual only [qok_mk, QOk.mem, QOk.tasks, QOk.config, QOk.scrub, rok_and, and_self, hqr]

theorem writePwrReg_ok {s : State} (h : Ok K s) (i : Nat) (v : Word) (c : Word) : Ok K (writePwrReg s i v c) := by
  unfold writePwrReg
  (repeat' split) <;> simp (maxDischargeDepth := 50) +contextual only [writePdReq_ok, ok_mk, Ok.far, Ok.ends, Ok.quires, Ok.clk, Ok.former, Ok.con, Ok.alarm, and_self, h]

theorem writeRingPtr_ok (r : Fin 4) (v : Word) {s : State} (h : Ok K s) : Ok K (writeRingPtr r v s) := by
  simp (maxDischargeDepth := 50) +contextual only [writeRingPtr, ok_mk, Ok.far, Ok.ends, Ok.quires, Ok.clk, Ok.former, Ok.con, Ok.alarm, and_self, h]

theorem writeHostReg_ok {s : State} (h : Ok K s) (i : Nat) (v : Word) (one : Word) (c : Word) : Ok K (writeHostReg s i v one c) := by
  unfold writeHostReg
  (repeat' split) <;> simp (maxDischargeDepth := 50) +contextual only [clearOut_ok, ringMask_ok, writeHeartbeat_ok, writeInMask_ok, writeOutMask_ok, writeRingCfg_ok, writeRingPtr_ok, ok_mk, Ok.far, Ok.ends, Ok.quires, Ok.clk, Ok.former, Ok.con, Ok.alarm, and_self, h]

theorem writeMboxReg_ok {s : State} (h : Ok K s) (i : Nat) (v : Word) (c : Word) : Ok K (writeMboxReg s i v c) := by
  unfold writeMboxReg
  (repeat' split) <;> simp (maxDischargeDepth := 50) +contextual only [writeQmask_ok, ok_mk, qok_mk, Ok.far, Ok.ends, Ok.quires, Ok.clk, Ok.former, Ok.con, Ok.alarm, QOk.mem, QOk.tasks, QOk.config, QOk.scrub, updQ_ok, and_self, implies_true, h]

theorem writeTokenReg_ok {s : State} (h : Ok K s) (i : Nat) (v : Word) (c : Word) : Ok K (writeTokenReg s i v c) := by
  unfold writeTokenReg
  (repeat' split) <;> simp (maxDischargeDepth := 50) +contextual only [ok_mk, conok_mk, Ok.far, Ok.ends, Ok.quires, Ok.clk, Ok.former, Ok.con, Ok.alarm, ConOk.debug, ConOk.wait, and_self, h]

theorem writeRecLength_ok (v : Word) {s : State} (h : Ok K s) : Ok K (writeRecLength v s) := by
  simp (maxDischargeDepth := 50) +contextual only [writeRecLength, ok_mk, Ok.far, Ok.ends, Ok.quires, Ok.clk, Ok.former, Ok.con, Ok.alarm, and_self, h]

theorem writeDieReg_ok {s : State} (h : Ok K s) (blk : Nat) (i : Nat) (v : Word) (one : Word) (c : Word) : Ok K (writeDieReg s blk i v one c) := by
  unfold writeDieReg
  (repeat' split) <;> simp (maxDischargeDepth := 50) +contextual only [writeDroopCfg_ok, writeFence_ok, writeHostReg_ok, writeMboxReg_ok, writePwrReg_ok, writeTokenReg_ok, ok_mk, clkok_mk, conok_mk, Ok.far, Ok.ends, Ok.quires, Ok.clk, Ok.former, Ok.con, Ok.alarm, ClkOk.current, ClkOk.target, ClkOk.restore, ClkOk.droop, ConOk.debug, ConOk.wait, rok_and, and_self, h]

theorem clearLinkFault_ok {s : State} (h : Ok K s) (l : Fin 26) (c : Word) : Ok K (clearLinkFault s l c) := by
  simp (maxDischargeDepth := 50) +contextual only [clearLinkFault, updLink_ok, h]

theorem writeMsix_ok {s : State} (h : Ok K s) (a : Nat) (v : Word) : Ok K (writeMsix s a v) := by
  unfold writeMsix
  split <;> simp (maxDischargeDepth := 50) +contextual only [unmaskVector_ok, ite_ok, ok_mk, Ok.far, Ok.ends, Ok.quires, Ok.clk, Ok.former, Ok.con, Ok.alarm, and_self, ite_self, h]

theorem regWriteAt_ok {s : State} (h : Ok K s) (a : Nat) (v : Word) (m : Word) : Ok K (regWriteAt s a v m) := by
  simp (maxDischargeDepth := 50) +contextual only [regWriteAt, updQ_ok, writeQuireReg_ok, writeDieReg_ok, clearLinkFault_ok, writeMsix_ok, ite_ok, updQ_ok, ite_self, implies_true, h]

theorem regWriteMain_ok {s : State} (h : Ok K s) (a : Nat) (v : Word) (m : Word) : Ok K (regWriteMain s a v m) := by
  simp (maxDischargeDepth := 50) +contextual only [regWriteMain, setW1c_ok, regWriteAt_ok, h]

theorem regWriteRecovery_ok {s : State} (h : Ok K s) (a : Nat) (v : Word) (m : Word) : Ok K (regWriteRecovery s a v m) := by
  simp (maxDischargeDepth := 50) +contextual only [regWriteRecovery, writeRecLength_ok, ite_ok, ite_self, h]

theorem registerWrite_ok (bar2 : Bool) (offset : Nat) (width : Nat) (value : Word) {s : State} (h : Ok K s) : Ok K (registerWrite bar2 offset width value s) := by
  unfold registerWrite
  dsimp only
  (repeat' split) <;> simp (maxDischargeDepth := 50) +contextual only [regWriteMain_ok, regWriteRecovery_ok, h]

theorem execRegisterWrite_ok (bar2 : Bool) (offset : Nat) (width : Nat) (value : Word) {s : State} (h : Ok K s) : OutOk K (execRegisterWrite bar2 offset width value s) := by
  simp (maxDischargeDepth := 50) +contextual only [execRegisterWrite, catchUp_ok, registerWrite_ok, outOk_next, h]

theorem writeOut_ok (v : BitVec 32) {s : State} (h : Ok K s) : Ok K (writeOut v s) := by
  simp (maxDischargeDepth := 50) +contextual only [writeOut, setW1c_ok, clearOut_ok, h]

theorem execDbOut_ok (value : BitVec 32) {s : State} (h : Ok K s) : OutOk K (execDbOut value s) := by
  simp (maxDischargeDepth := 50) +contextual only [execDbOut, writeOut_ok, ite_ok, ite_self, outOk_next, h]

end Sys2Proof.Machine
end

