-- ==== Sys2Proof/Laws/SoundCommands.lean ====
section
/-! SUPPORT. Commands, the fault path, the boot and the tick keep the claimed properties. -/

namespace Sys2Proof.Machine

variable {K : Parts}

/-- The claimed properties of what a command's start comes to. -/
def ReplyOk (K : Parts) : Reply → Prop
  | .done s _ _ _ | .going s _ => Ok K s

@[simp] theorem replyOk_done {s : State} {n : Nat} {a b : Word} : ReplyOk K (.done s n a b) ↔ Ok K s := Iff.rfl
@[simp] theorem replyOk_going {s : State} {c : Cmd} : ReplyOk K (.going s c) ↔ Ok K s := Iff.rfl

@[simp] theorem replyOk_fail {s : State} {n : Nat} : ReplyOk K (.fail s n) ↔ Ok K s := Iff.rfl

theorem taskReset_ok : TOk K Task.reset := nil_mok

theorem quireReset_ok (a b c : Word) : QOk K (Quire.reset a b c) where
  mem := qmemok_mk.2 ⟨nil_mok, nil_mok, nil_mok, nil_mok, nil_mok, nil_mok, nil_mok, nil_mok, nil_mok, nil_mok, nil_mok, nil_mok⟩
  tasks := fun t => by
    show TOk K (Vector.replicate 4 Task.reset)[t]
    simpa using taskReset_ok
  config := fun _ => (by decide : (3 : Word) &&& ~~~3 = 0)
  scrub := fun _ => (by decide : (0x4001 : Word) &&& ~~~0xFF01 = 0)

theorem withQmask_ok {qr : Quire} (h : QOk K qr) (m : Word) : QOk K { qr with qmask := m } :=
  ⟨h.mem, h.tasks, h.config, h.scrub⟩

theorem contractReset_ok (pool : Word) : ConOk K (Contract.reset pool) :=
  ⟨fun _ => (by decide : (0x402 : Word) &&& ~~~0xFF07 = 0), fun _ => (by decide : (10000 : Word) &&& ~~~0xFFFF_FFFF = 0)⟩

theorem iteY_ok {c : Prop} [Decidable c] {a b : Reply} : ReplyOk K (if c then a else b) ↔ if c then ReplyOk K a else ReplyOk K b := by
  split <;> rfl

theorem advanceRing_ok {s : State} (h : Ok K s) (r : Fin 4) : Ok K (advanceRing s r) := by
  simp (maxDischargeDepth := 50) +contextual only [advanceRing, ok_mk, Ok.far, Ok.ends, Ok.quires, Ok.clk, Ok.former, Ok.con, Ok.alarm, and_self, h]

theorem Reply.fail_ok {s : State} (h : Ok K s) (status : Nat) : ReplyOk K (Reply.fail s status) := by
  simp (maxDischargeDepth := 50) +contextual only [Reply.fail, replyOk_done, h]

theorem placeReply_ok (n : Nat) (c : Cmd) {r : Reply} (hr : ReplyOk K r) : Ok K (placeReply n c r) := by
  cases r with
  | done s st r0 r1 => exact { (hr : Ok K s) with }
  | going s c' => exact { (hr : Ok K s) with }

theorem startCmd_ok {work : State → Cmd → Reply} (hwork : ∀ s c, Ok K s → ReplyOk K (work s c)) {s : State} (h : Ok K s) (c : Cmd) : ReplyOk K (startCmd work s c) := by
  unfold startCmd
  split
  · exact h
  · exact hwork _ _ (catchUp_ok h)

theorem noteTurn_ok (r : Fin 4) (first : Bool) {s : State} (h : Ok K s) : Ok K (noteTurn r first s) := by
  simp (maxDischargeDepth := 50) +contextual only [noteTurn, ite_ok, ok_mk, Ok.far, Ok.ends, Ok.quires, Ok.clk, Ok.former, Ok.con, Ok.alarm, and_self, ite_self, h]

theorem commandRow_ok {work : State → Cmd → Reply} (hwork : ∀ s c, Ok K s → ReplyOk K (work s c)) (op : Nat) (r : Fin 4) (k : Packet) (host : Option (List Byte)) (verified : Bool) (written : Bool) {s : State} (h : Ok K s) : Ok K (commandRow work op r k host verified written s) := by
  simp (maxDischargeDepth := 50) +contextual only [commandRow, noteTurn_ok, advanceRing_ok, placeReply_ok, startCmd_ok, ite_ok, ite_self, implies_true, replyOk_going, hwork, h]

theorem abortRow_ok {work : State → Cmd → Reply} (hwork : ∀ s c, Ok K s → ReplyOk K (work s c)) (r : Fin 4) (k : Packet) {s : State} (h : Ok K s) : Ok K (abortRow work r k s) := by
  unfold abortRow
  (repeat' split) <;> simp (maxDischargeDepth := 50) +contextual only [commandRow_ok, placeReply_ok, startCmd_ok, ok_mk, Ok.far, Ok.ends, Ok.quires, Ok.clk, Ok.former, Ok.con, Ok.alarm, and_self, implies_true, hwork, h]

theorem withHost_ok {s : State} (h : Ok K s) (c : Cmd) (reads : List (Nat × Nat)) {work : State → Reply} (hwork : ∀ s, Ok K s → ReplyOk K (work s)) : ReplyOk K (withHost s c reads work) := by
  unfold withHost
  split
  · exact hwork s h
  · split
    · exact h
    · dsimp only
      split
      · exact replyOk_going.2 { takeFree_ok (s := { s with out := { s.out with dmaRead := readRequests reads } }) { h with } with }
      · exact hwork _ { h with }

theorem writeResults_ok {s : State} (h : Ok K s) (c : Cmd) (l : List (Nat × List Byte)) : Ok K (writeResults s c l) := by
  simp (maxDischargeDepth := 50) +contextual only [writeResults, ite_ok, ok_mk, Ok.far, Ok.ends, Ok.quires, Ok.clk, Ok.former, Ok.con, Ok.alarm, farWrite_ok, foldl_ok, and_self, ite_self, implies_true, h]

theorem postStatus_ok {s : State} (h : Ok K s) (c : Cmd) (status : Nat) (r0 : Word) (r1 : Word) : Ok K (postStatus s c status r0 r1) := by
  simp (maxDischargeDepth := 50) +contextual only [postStatus, ringHost_ok, ok_mk, Ok.far, Ok.ends, Ok.quires, Ok.clk, Ok.former, Ok.con, Ok.alarm, farWrite_ok, and_self, h]

theorem startContext_ok (c : Cmd) (base count now : Nat) : TOk K (startContext c base count now) := taskReset_ok

theorem noteOverlap_ok (t : Fin 4) (unit : Nat) {qr : Quire} (hqr : QOk K qr) : QOk K (noteOverlap t unit qr) := by
  simp (maxDischargeDepth := 50) +contextual only [noteOverlap, qok_mk, QOk.mem, QOk.tasks, QOk.config, QOk.scrub, and_self, hqr]

theorem recordOverlap_ok (q : Fin 64) (t : Fin 4) {s : State} (h : Ok K s) (u : Option Nat) : Ok K (recordOverlap q t s u) := by
  unfold recordOverlap
  split <;> simp (maxDischargeDepth := 50) +contextual only [noteOverlap_ok, takeFree_ok, traceQ_ok, updQ_ok, implies_true, h]

theorem noteOverlaps_ok {s : State} (h : Ok K s) (t : Fin 4) (qs : List (Fin 64)) {new : Task} (hnew : TOk K new) : Ok K (noteOverlaps s t qs new) := by
  simp (maxDischargeDepth := 50) +contextual only [noteOverlaps, recordOverlap_ok, foldl_ok, implies_true, h]

theorem settleTask_ok {tk : Task} (htk : TOk K tk) : TOk K (settleTask tk) := by
  simp (maxDischargeDepth := 50) +contextual only [settleTask, settleLoads_ok, settleRegs_ok, tok_mk, TOk.table, htk]

theorem beginRun_ok (seed : Word) (spine : Int) (edge : Int) {qr : Quire} (hqr : QOk K qr) : QOk K (beginRun seed spine edge qr) := by
  simp (maxDischargeDepth := 50) +contextual only [beginRun, settleTask_ok, qok_mk, QOk.mem, QOk.tasks, QOk.config, QOk.scrub, tasks_map, and_self, implies_true, hqr]

theorem activateStore_ok {qr : Quire} (hqr : QOk K qr) : QOk K (activateStore qr) := by
  simp (maxDischargeDepth := 50) +contextual only [activateStore, iteQ_ok, qok_mk, qmemok_mk, QOk.mem, QOk.weight, QOk.moment, QOk.scale, QOk.grad, QOk.act, QOk.ps, QOk.stg, QOk.half0, QOk.half1, QOk.prog, QOk.descShadow, QOk.tasks, QOk.config, QOk.scrub, and_self, ite_self, hqr]

theorem forgetLate_ok (q : Fin 64) {s : State} (h : Ok K s) : Ok K (forgetLate q s) := by
  simp (maxDischargeDepth := 50) +contextual only [forgetLate, ok_mk, conok_mk, Ok.far, Ok.ends, Ok.quires, Ok.clk, Ok.former, Ok.con, Ok.alarm, ConOk.debug, ConOk.wait, and_self, h]

theorem startTasks_ok {s : State} (h : Ok K s) (t : Fin 4) (qs : List (Fin 64)) (seed : Word) {new : Task} (hnew : TOk K new) (update : Bool) : Ok K (startTasks s t qs seed new update) := by
  unfold startTasks
  split <;> simp (maxDischargeDepth := 50) +contextual only [activateStore_ok, forgetLate_ok, beginRun_ok, finishRun_ok, traceQ_ok, iteQ_ok, ok_mk, conok_mk, Ok.far, Ok.ends, Ok.quires, Ok.clk, Ok.former, Ok.con, Ok.alarm, ConOk.debug, ConOk.wait, updQ_ok, updTask_ok, foldl_ok, and_self, ite_self, implies_true, h, hnew]

theorem launch_ok {s : State} (h : Ok K s) (c : Cmd) (t : Fin 4) (qs : List (Fin 64)) (base : Nat) (count : Nat) : ReplyOk K (launch s c t qs base count) := by
  unfold launch
  dsimp only
  iterate 5 (split; · exact h)
  split
  · exact replyOk_fail.2 (noteOverlaps_ok h _ _ (startContext_ok _ _ _ _))
  · refine replyOk_going.2 (startTasks_ok ?_ _ _ _ (startContext_ok _ _ _ _) _)
    split
    · exact noteOverlaps_ok h _ _ (startContext_ok _ _ _ _)
    · exact h

theorem startTaskWork_ok {s : State} (h : Ok K s) (c : Cmd) : ReplyOk K (startTaskWork s c) := by
  unfold startTaskWork
  dsimp only
  split <;> simp (maxDischargeDepth := 50) +contextual only [launch_ok, Reply.fail_ok, h]

theorem execStartTask_ok (ring : Fin 4) (pkt : Packet) {s : State} (h : Ok K s) : OutOk K (execStartTask ring pkt s) := by
  simp (maxDischargeDepth := 50) +contextual only [execStartTask, commandRow_ok, startTaskWork_ok, implies_true, outOk_next, h]

theorem runUpdateWork_ok {s : State} (h : Ok K s) (c : Cmd) : ReplyOk K (runUpdateWork s c) := by
  simp (maxDischargeDepth := 50) +contextual only [runUpdateWork, launch_ok, h]

theorem execRunUpdate_ok (ring : Fin 4) (pkt : Packet) {s : State} (h : Ok K s) : OutOk K (execRunUpdate ring pkt s) := by
  simp (maxDischargeDepth := 50) +contextual only [execRunUpdate, commandRow_ok, runUpdateWork_ok, implies_true, outOk_next, h]

theorem abortWork_ok {s : State} (h : Ok K s) (c : Cmd) : ReplyOk K (abortWork s c) := by
  unfold abortWork
  dsimp only
  split <;> simp (maxDischargeDepth := 50) +contextual only [stopTask_ok, Reply.fail_ok, foldl_ok, ite_self, implies_true, iteY_ok, replyOk_done, h]

theorem execAbortTask_ok (ring : Fin 4) (pkt : Packet) {s : State} (h : Ok K s) : OutOk K (execAbortTask ring pkt s) := by
  simp (maxDischargeDepth := 50) +contextual only [execAbortTask, abortRow_ok, abortWork_ok, implies_true, outOk_next, h]

theorem taskCompletion_ok (r : Fin 4) (tag : BitVec 16) {s : State} (h : Ok K s) : Ok K (taskCompletion r tag s) := by
  simp (maxDischargeDepth := 50) +contextual only [taskCompletion, ite_ok, ok_mk, Ok.far, Ok.ends, Ok.quires, Ok.clk, Ok.former, Ok.con, Ok.alarm, and_self, ite_self, h]

theorem execTaskCompletion_ok (ring : Fin 4) (tag : BitVec 16) {s : State} (h : Ok K s) : OutOk K (execTaskCompletion ring tag s) := by
  simp (maxDischargeDepth := 50) +contextual only [execTaskCompletion, taskCompletion_ok, outOk_next, h]

theorem fillStore_ok (bin : List Byte) (q : Fin 64) {qr : Quire} (hqr : QOk K qr) : QOk K (fillStore bin q qr) := by
  simp (maxDischargeDepth := 50) +contextual only [fillStore, iteM_ok, qok_mk, qmemok_mk, QOk.weight, QOk.moment, QOk.scale, QOk.grad, QOk.act, QOk.ps, QOk.stg, QOk.half0, QOk.half1, QOk.prog, QOk.descActive, QOk.descShadow, QOk.tasks, QOk.config, QOk.scrub, writeBytes_mok, nil_mok, and_self, hqr]

theorem loadHeader_ok (bin : List Byte) {s : State} (h : Ok K s) : Ok K (loadHeader bin s) := by
  simp (maxDischargeDepth := 50) +contextual only [loadHeader, ok_mk, qok_mk, conok_mk, Ok.far, Ok.ends, Ok.quires, Ok.clk, Ok.former, Ok.con, Ok.alarm, ConOk.debug, ConOk.wait, QOk.mem, QOk.tasks, QOk.config, QOk.scrub, updAllQ_ok, and_self, implies_true, h]

theorem loadBinary_ok (bin : List Byte) {s : State} (h : Ok K s) : Ok K (loadBinary bin s) := by
  simp (maxDischargeDepth := 50) +contextual only [loadBinary, fillStore_ok, loadHeader_ok, ite_ok, ok_mk, Ok.far, Ok.ends, Ok.quires, Ok.clk, Ok.former, Ok.con, Ok.alarm, updAllQ_ok, and_self, ite_self, implies_true, h]

theorem loadProgramWork_ok {s : State} (h : Ok K s) (c : Cmd) : ReplyOk K (loadProgramWork s c) := by
  unfold loadProgramWork
  dsimp only
  split
  · exact h
  · refine withHost_ok h _ _ fun s hs => ?_
    split
    · exact hs
    · exact loadBinary_ok _ hs

theorem execLoadProgram_ok (ring : Fin 4) (pkt : Packet) (host : Option (List Byte)) {s : State} (h : Ok K s) : OutOk K (execLoadProgram ring pkt host s) := by
  simp (maxDischargeDepth := 50) +contextual only [execLoadProgram, commandRow_ok, loadProgramWork_ok, implies_true, outOk_next, h]

theorem loadShadow_ok (image : List Byte) {qr : Quire} (hqr : QOk K qr) : QOk K (loadShadow image qr) := by
  simp (maxDischargeDepth := 50) +contextual only [loadShadow, qok_mk, qmemok_mk, QOk.weight, QOk.moment, QOk.scale, QOk.grad, QOk.act, QOk.ps, QOk.stg, QOk.half0, QOk.half1, QOk.prog, QOk.descActive, QOk.tasks, QOk.config, QOk.scrub, writeBytes_mok, nil_mok, and_self, hqr]

theorem setStepWork_ok {s : State} (h : Ok K s) (c : Cmd) : ReplyOk K (setStepWork s c) := by
  simp (maxDischargeDepth := 50) +contextual only [setStepWork, Reply.fail_ok, loadShadow_ok, updAllQ_ok, ite_self, implies_true, iteY_ok, replyOk_done, h]

theorem execSetStep_ok (ring : Fin 4) (pkt : Packet) {s : State} (h : Ok K s) : OutOk K (execSetStep ring pkt s) := by
  simp (maxDischargeDepth := 50) +contextual only [execSetStep, commandRow_ok, setStepWork_ok, implies_true, outOk_next, h]

theorem stepReady_ok {s : State} (h : Ok K s) (step : Word) : Ok K (stepReady s step) := by
  simp (maxDischargeDepth := 50) +contextual only [stepReady, qok_mk, QOk.mem, QOk.tasks, QOk.config, QOk.scrub, updAllQ_ok, and_self, implies_true, h]

theorem loadRows_ok (c : Cmd) {far : Mem} (hfar : MOk K far) (q : Fin 64) {qr : Quire} (hqr : QOk K qr) : QOk K (loadRows c far q qr) := by
  simp (maxDischargeDepth := 50) +contextual only [loadRows, putRows_ok, writeBank_ok, iteQ_ok, ite_self, hqr]

theorem loadRegionWork_ok {s : State} (h : Ok K s) (c : Cmd) : ReplyOk K (loadRegionWork s c) := by
  unfold loadRegionWork
  split <;> simp (maxDischargeDepth := 50) +contextual only [loadRows_ok, Reply.fail_ok, Ok.far, updQ_ok, foldl_ok, implies_true, replyOk_done, h]

theorem execLoadRegion_ok (ring : Fin 4) (pkt : Packet) {s : State} (h : Ok K s) : OutOk K (execLoadRegion ring pkt s) := by
  simp (maxDischargeDepth := 50) +contextual only [execLoadRegion, commandRow_ok, loadRegionWork_ok, implies_true, outOk_next, h]

theorem exportRows_ok (c : Cmd) {a : State × Bool} (ha : Ok K a.1) (q : Fin 64) : Ok K (exportRows c a q).1 := by
  unfold exportRows
  dsimp only
  (repeat' split) <;> simp (maxDischargeDepth := 50) +contextual only [noteReads_ok, ok_mk, Ok.far, Ok.ends, Ok.quires, Ok.clk, Ok.former, Ok.con, Ok.alarm, farWrite_ok, and_self, ha]

theorem exportRegionWork_ok {s : State} (h : Ok K s) (c : Cmd) : ReplyOk K (exportRegionWork s c) := by
  unfold exportRegionWork
  split
  · exact h
  · have h1 : Ok K (((namedQuires (prm c 0)).getD []).foldl (exportRows c) (s, true)).1 :=
      foldlP_ok (fun r x hr => exportRows_ok c hr x) _ h
    dsimp only
    split
    · exact h1
    · exact h1

theorem execExportRegion_ok (ring : Fin 4) (pkt : Packet) {s : State} (h : Ok K s) : OutOk K (execExportRegion ring pkt s) := by
  simp (maxDischargeDepth := 50) +contextual only [execExportRegion, commandRow_ok, exportRegionWork_ok, implies_true, outOk_next, h]

theorem nopWork_ok {s : State} (h : Ok K s) (_c : Cmd) : ReplyOk K (nopWork s _c) := by
  simp (maxDischargeDepth := 50) +contextual only [nopWork, replyOk_done, h]

theorem execNopCommand_ok (ring : Fin 4) (pkt : Packet) {s : State} (h : Ok K s) : OutOk K (execNopCommand ring pkt s) := by
  simp (maxDischargeDepth := 50) +contextual only [execNopCommand, commandRow_ok, nopWork_ok, implies_true, outOk_next, h]

theorem queryWork_ok {s : State} (h : Ok K s) (c : Cmd) : ReplyOk K (queryWork s c) := by
  unfold queryWork
  split
  · exact h
  · exact withHost_ok h _ _ fun s hs => writeResults_ok hs _ _

theorem execQuery_ok (ring : Fin 4) (pkt : Packet) (host : Option (List Byte)) {s : State} (h : Ok K s) : OutOk K (execQuery ring pkt host s) := by
  simp (maxDischargeDepth := 50) +contextual only [execQuery, commandRow_ok, queryWork_ok, implies_true, outOk_next, h]

theorem clearSlots_ok (first : Nat) (count : Nat) {qr : Quire} (hqr : QOk K qr) : QOk K (clearSlots first count qr) := by
  simp (maxDischargeDepth := 50) +contextual only [clearSlots, qok_mk, QOk.mem, QOk.tasks, QOk.config, QOk.scrub, and_self, hqr]

theorem readLedgerWork_ok {s : State} (h : Ok K s) (c : Cmd) : ReplyOk K (readLedgerWork s c) := by
  unfold readLedgerWork
  dsimp only
  split <;> simp (maxDischargeDepth := 50) +contextual only [clearSlots_ok, Reply.fail_ok, withHost_ok, writeResults_ok, ite_ok, updQ_ok, foldl_ok, ite_self, implies_true, iteY_ok, replyOk_done, h]

theorem execReadLedger_ok (ring : Fin 4) (pkt : Packet) (host : Option (List Byte)) {s : State} (h : Ok K s) : OutOk K (execReadLedger ring pkt host s) := by
  simp (maxDischargeDepth := 50) +contextual only [execReadLedger, commandRow_ok, readLedgerWork_ok, implies_true, outOk_next, h]

theorem readTelemetryWork_ok {s : State} (h : Ok K s) (c : Cmd) : ReplyOk K (readTelemetryWork s c) := by
  unfold readTelemetryWork
  dsimp only
  split
  · exact h
  · refine withHost_ok h _ _ fun s hs => ?_
    split
    · exact hs
    · exact writeResults_ok hs _ _

theorem execReadTelemetry_ok (ring : Fin 4) (pkt : Packet) (host : Option (List Byte)) {s : State} (h : Ok K s) : OutOk K (execReadTelemetry ring pkt host s) := by
  simp (maxDischargeDepth := 50) +contextual only [execReadTelemetry, commandRow_ok, readTelemetryWork_ok, implies_true, outOk_next, h]

theorem attestWork_ok {s : State} (h : Ok K s) (c : Cmd) : ReplyOk K (attestWork s c) := by
  unfold attestWork
  dsimp only
  split
  · exact h
  · exact withHost_ok h _ _ fun s hs => writeResults_ok hs _ _

theorem execAttest_ok (ring : Fin 4) (pkt : Packet) (host : Option (List Byte)) {s : State} (h : Ok K s) : OutOk K (execAttest ring pkt host s) := by
  simp (maxDischargeDepth := 50) +contextual only [execAttest, attestWork_ok, commandRow_ok, implies_true, outOk_next, h]

theorem flashImage_ok (img : List Byte) (written : Bool) {s : State} (h : Ok K s) : Ok K (flashImage img written s) := by
  simp (maxDischargeDepth := 50) +contextual only [flashImage, ok_mk, Ok.far, Ok.ends, Ok.quires, Ok.clk, Ok.former, Ok.con, Ok.alarm, and_self, h]

theorem fwUpdateWork_ok {s : State} (h : Ok K s) (c : Cmd) : ReplyOk K (fwUpdateWork s c) := by
  unfold fwUpdateWork
  dsimp only
  split
  · exact h
  · split
    · exact h
    · refine withHost_ok h _ _ fun s hs => ?_
      split
      · exact hs
      · exact flashImage_ok _ _ hs

theorem execFwUpdate_ok (ring : Fin 4) (pkt : Packet) (host : Option (List Byte)) (verified : Bool) (written : Bool) {s : State} (h : Ok K s) : OutOk K (execFwUpdate ring pkt host verified written s) := by
  simp (maxDischargeDepth := 50) +contextual only [execFwUpdate, commandRow_ok, fwUpdateWork_ok, implies_true, outOk_next, h]

theorem operatingWork_ok {s : State} (h : Ok K s) (c : Cmd) : ReplyOk K (operatingWork s c) := by
  unfold operatingWork
  dsimp only
  split
  · exact h
  · rename_i hc
    refine replyOk_going.2 (withClk_ok h (Clk.schedule_ok h.clk (fun _ => ?_) _))
    have ht : fld (prm c 0) 0 3 ≠ 7 := fun e => by simp [operatingCheck, e] at hc
    have : fld (prm c 0) 0 3 < 2 ^ 3 := Nat.mod_lt _ (by omega)
    omega

theorem execSetOperatingPoint_ok (ring : Fin 4) (pkt : Packet) {s : State} (h : Ok K s) : OutOk K (execSetOperatingPoint ring pkt s) := by
  simp (maxDischargeDepth := 50) +contextual only [execSetOperatingPoint, commandRow_ok, operatingWork_ok, implies_true, outOk_next, h]

theorem dropMessages_ok {s : State} (h : Ok K s) : Ok K (dropMessages s) := by
  simp (maxDischargeDepth := 50) +contextual only [dropMessages, ok_mk, qok_mk, Ok.far, Ok.ends, Ok.quires, Ok.clk, Ok.former, Ok.con, Ok.alarm, QOk.mem, QOk.tasks, QOk.config, QOk.scrub, updAllQ_ok, and_self, implies_true, h]

theorem loadTopology_ok (d : List Byte) {s : State} (h : Ok K s) : Ok K (loadTopology d s) := by
  have h1 := dropMessages_ok h
  unfold loadTopology
  generalize dropMessages s = s1 at h1
  refine foldl_ok (fun _ l hs => runIdentity_ok hs l) _ ?_
  exact ok_mk.2 ⟨h1.far, h1.ends, h1.quires, h1.clk, h1.former, h1.con, h1.alarm⟩

theorem topologyWork_ok {s : State} (h : Ok K s) (c : Cmd) : ReplyOk K (topologyWork s c) := by
  simp (maxDischargeDepth := 50) +contextual only [topologyWork, Reply.fail_ok, loadTopology_ok, ite_self, iteY_ok, replyOk_going, h]

theorem execSetTopology_ok (ring : Fin 4) (pkt : Packet) {s : State} (h : Ok K s) : OutOk K (execSetTopology ring pkt s) := by
  simp (maxDischargeDepth := 50) +contextual only [execSetTopology, commandRow_ok, topologyWork_ok, implies_true, outOk_next, h]

theorem enforceTopology_ok {s : State} (h : Ok K s) : Ok K (enforceTopology s) := by
  simp (maxDischargeDepth := 50) +contextual only [enforceTopology, ok_mk, Ok.far, Ok.ends, Ok.quires, Ok.clk, Ok.former, Ok.con, Ok.alarm, and_self, h]

theorem settleTopology_ok {s : State} (h : Ok K s) : Ok K (settleTopology s) := by
  simp (maxDischargeDepth := 50) +contextual only [settleTopology, enforceTopology_ok, answerCmds_ok, ite_ok, ite_self, h]

theorem unloadTopology_ok {s : State} (h : Ok K s) : Ok K (unloadTopology s) := by
  simp (maxDischargeDepth := 50) +contextual only [unloadTopology, ok_mk, Ok.far, Ok.ends, Ok.quires, Ok.clk, Ok.former, Ok.con, Ok.alarm, and_self, h]

theorem topologyExpiry_ok {s : State} (h : Ok K s) : Ok K (topologyExpiry s) := by
  simp (maxDischargeDepth := 50) +contextual only [topologyExpiry, answerCmds_ok, settleTopology_ok, unloadTopology_ok, ite_ok, ite_self, h]

theorem execTopologyWaitExpiry_ok {s : State} (h : Ok K s) : OutOk K (execTopologyWaitExpiry s) := by
  simp (maxDischargeDepth := 50) +contextual only [execTopologyWaitExpiry, topologyExpiry_ok, outOk_next, h]

theorem linkAction_ok (busy : Bool) {act : State → Fin 26 → State} (hact : ∀ s l, Ok K s → Ok K (act s l)) {s : State} (h : Ok K s) (c : Cmd) : ReplyOk K (linkAction busy act s c) := by
  unfold linkAction
  split <;> simp (maxDischargeDepth := 50) +contextual only [ite_self, Reply.fail_ok, iteY_ok, replyOk_done, hact, h]

theorem disableLink_ok {s : State} (h : Ok K s) (l : Fin 26) : Ok K (disableLink s l) := by
  simp (maxDischargeDepth := 50) +contextual only [disableLink, leaveUp_ok, updLink_ok, h]

theorem enableLink_ok {s : State} (h : Ok K s) (l : Fin 26) : Ok K (enableLink s l) := by
  simp (maxDischargeDepth := 50) +contextual only [enableLink, beginTraining_ok, updLink_ok, h]

theorem clearErrors_ok {s : State} (h : Ok K s) (l : Fin 26) : Ok K (clearErrors s l) := by
  simp (maxDischargeDepth := 50) +contextual only [clearErrors, updLink_ok, h]

theorem linkControlWork_ok {s : State} (h : Ok K s) (c : Cmd) : ReplyOk K (linkControlWork s c) := by
  unfold linkControlWork
  split <;> simp (maxDischargeDepth := 50) +contextual only [beginTraining_ok, clearErrors_ok, disableLink_ok, enableLink_ok, linkAction_ok, implies_true, h]

theorem linkControlRow_ok (action : Nat) (r : Fin 4) (k : Packet) {s : State} (h : Ok K s) : Ok K (linkControlRow action r k s) := by
  simp (maxDischargeDepth := 50) +contextual only [linkControlRow, commandRow_ok, linkControlWork_ok, ite_ok, ite_self, implies_true, h]

theorem execLinkControlRetrain_ok (ring : Fin 4) (pkt : Packet) {s : State} (h : Ok K s) : OutOk K (execLinkControlRetrain ring pkt s) := by
  simp (maxDischargeDepth := 50) +contextual only [execLinkControlRetrain, linkControlRow_ok, outOk_next, h]

theorem execLinkControlDisable_ok (ring : Fin 4) (pkt : Packet) {s : State} (h : Ok K s) : OutOk K (execLinkControlDisable ring pkt s) := by
  simp (maxDischargeDepth := 50) +contextual only [execLinkControlDisable, linkControlRow_ok, outOk_next, h]

theorem execLinkControlEnable_ok (ring : Fin 4) (pkt : Packet) {s : State} (h : Ok K s) : OutOk K (execLinkControlEnable ring pkt s) := by
  simp (maxDischargeDepth := 50) +contextual only [execLinkControlEnable, linkControlRow_ok, outOk_next, h]

theorem execLinkControlClear_ok (ring : Fin 4) (pkt : Packet) {s : State} (h : Ok K s) : OutOk K (execLinkControlClear ring pkt s) := by
  simp (maxDischargeDepth := 50) +contextual only [execLinkControlClear, linkControlRow_ok, outOk_next, h]

theorem latchFault_ok (f : Raised) {s : State} (h : Ok K s) : Ok K (latchFault f s) := by
  simp (maxDischargeDepth := 50) +contextual only [latchFault, startFaultFlits_ok, stopQuire_ok, ite_ok, ok_mk, Ok.far, Ok.ends, Ok.quires, Ok.clk, Ok.former, Ok.con, Ok.alarm, foldl_ok, and_self, ite_self, implies_true, h]

theorem takeFaultNow_ok (f : Raised) {s : State} (h : Ok K s) : Ok K (takeFaultNow f s) := by
  simp (maxDischargeDepth := 50) +contextual only [takeFaultNow, latchFault_ok, ite_ok, ok_mk, Ok.far, Ok.ends, Ok.quires, Ok.clk, Ok.former, Ok.con, Ok.alarm, and_self, ite_self, h]

theorem takeOldest_ok {s : State} (h : Ok K s) : Ok K (takeOldest s) := by
  unfold takeOldest
  dsimp only
  split <;> simp (maxDischargeDepth := 50) +contextual only [takeFaultNow_ok, ok_mk, Ok.far, Ok.ends, Ok.quires, Ok.clk, Ok.former, Ok.con, Ok.alarm, and_self, h]

theorem unlistedFault_ok (q : Fin 64) (t : Fin 4) {s : State} (h : Ok K s) : Ok K (unlistedFault q t s) := by
  unfold unlistedFault
  split <;> simp (maxDischargeDepth := 50) +contextual only [arrive_ok, issueFault_ok, ite_ok, ite_self, h]

theorem fetchFault_ok (q : Fin 64) (t : Fin 4) {s : State} (h : Ok K s) : Ok K (fetchFault q t s) := by
  simp (maxDischargeDepth := 50) +contextual only [fetchFault, arrive_ok, issueFault_ok, ite_ok, ite_self, h]

theorem raiseQuire_ok {s : State} (h : Ok K s) (q : Fin 64) (cls : Nat) : Ok K (raiseQuire s q cls) := by
  simp (maxDischargeDepth := 50) +contextual only [raiseQuire, stopQuire_ok, ok_mk, Ok.far, Ok.ends, Ok.quires, Ok.clk, Ok.former, Ok.con, Ok.alarm, and_self, h]

theorem recordingStop_ok {s : State} (h : Ok K s) (f : Fin 16) (site : Fin 5) : Ok K (recordingStop s f site).2 := by
  unfold recordingStop
  split <;> simp (maxDischargeDepth := 50) +contextual only [takeFree_ok, h]

theorem slotParity_ok (f : Fin 16) (site : Fin 5) (back : Bool) {s : State} (h : Ok K s) : Ok K (slotParity f site back s) := by
  have h1 := recordingStop_ok h f site
  unfold slotParity
  split
  · exact h
  · dsimp only
    split
    · rename_i e
      rw [e] at h1
      exact h1
    · rename_i e
      rw [e] at h1
      simp (maxDischargeDepth := 50) +contextual only [raiseQuire_ok, recordFault_ok, ite_ok, updQ_ok, ite_self, implies_true, h1]

theorem siteFault_ok (f : Fin 16) (site : Fin 5) {s : State} (h : Ok K s) : Ok K (siteFault f site s) := by
  unfold siteFault
  dsimp only
  split <;> simp (maxDischargeDepth := 50) +contextual only [raiseDie_ok, raiseQuire_ok, takeFree_ok, h]

theorem faultPath_ok (src : FaultSource) {s : State} (h : Ok K s) : Ok K (faultPath src s) := by
  unfold faultPath
  (repeat' split) <;> simp (maxDischargeDepth := 50) +contextual only [fetchFault_ok, siteFault_ok, slotParity_ok, takeOldest_ok, unlistedFault_ok, h]

theorem execFaultPath_ok (src : FaultSource) {s : State} (h : Ok K s) : OutOk K (execFaultPath src s) := by
  simp (maxDischargeDepth := 50) +contextual only [execFaultPath, catchUp_ok, faultPath_ok, outOk_next, h]

theorem answerStopped_ok {s : State} (h : Ok K s) : Ok K (answerStopped s) := by
  simp (maxDischargeDepth := 50) +contextual only [answerStopped, ok_mk, Ok.far, Ok.ends, Ok.quires, Ok.clk, Ok.former, Ok.con, Ok.alarm, and_self, h]

theorem faultRecord_ok {s : State} (h : Ok K s) : Ok K (faultRecord s) := by
  unfold faultRecord
  split <;> simp (maxDischargeDepth := 50) +contextual only [alarm_ok, answerStopped_ok, ringHost_ok, ite_ok, ok_mk, Ok.far, Ok.ends, Ok.quires, Ok.clk, Ok.former, Ok.con, Ok.alarm, and_self, ite_self, h]

theorem execFaultRecord_ok {s : State} (h : Ok K s) : OutOk K (execFaultRecord s) := by
  simp (maxDischargeDepth := 50) +contextual only [execFaultRecord, faultRecord_ok, outOk_next, h]

theorem abortCommands_ok {s : State} (h : Ok K s) : Ok K (abortCommands s) := by
  simp (maxDischargeDepth := 50) +contextual only [abortCommands, ok_mk, Ok.far, Ok.ends, Ok.quires, Ok.clk, Ok.former, Ok.con, Ok.alarm, and_self, h]

theorem takeAll_ok {s : State} (h : Ok K s) : Ok K (takeAll s) := by
  exact foldl_ok (fun _ _ hs => takeOldest_ok hs) _ h

theorem startReset_ok {s : State} (h : Ok K s) : Ok K (startReset s) := by
  replace h := takeAll_ok h
  unfold startReset
  dsimp only
  generalize takeAll s = s at h
  have h1 : Ok K (abortCommands (allQuires.foldl (fun s q => stopQuire s q 2) s)) :=
    abortCommands_ok (foldl_ok (fun _ _ hs => stopQuire_ok hs _ _) _ h)
  have hf : IxOk K (if s.clk.opPending then s.clk.target else s.clk.current) := by
    split
    · exact h.clk.target
    · exact h.clk.current
  generalize (if s.clk.opPending then s.clk.target else s.clk.current) = f at hf
  generalize abortCommands _ = d at h1
  have h2 := withClk_ok h1 (Clk.schedule_ok h1.clk (target := 5) (fun _ => by omega) (tick d + 64))
  exact { h2 with former := hf }

theorem resetWork_ok {s : State} (h : Ok K s) (c : Cmd) : ReplyOk K (resetWork s c) := by
  simp (maxDischargeDepth := 50) +contextual only [resetWork, startReset_ok, replyOk_going, h]

theorem execResetCompute_ok (ring : Fin 4) (pkt : Packet) {s : State} (h : Ok K s) : OutOk K (execResetCompute ring pkt s) := by
  simp (maxDischargeDepth := 50) +contextual only [execResetCompute, commandRow_ok, resetWork_ok, implies_true, outOk_next, h]

theorem quiesceWrites_ok {s : State} (h : Ok K s) : Ok K (quiesceWrites s) := by
  simp (maxDischargeDepth := 50) +contextual only [quiesceWrites, ite_ok, qok_mk, QOk.mem, QOk.tasks, QOk.config, QOk.scrub, updQ_ok, farWrite_ok, foldl_ok, and_self, ite_self, implies_true, h]

theorem clearQuire_ok (qr : Quire) : QOk K (clearQuire qr) :=
  withQmask_ok (quireReset_ok _ _ _) _

theorem clearBlocks_ok {s : State} (h : Ok K s) : Ok K (clearBlocks s) :=
  { h with quires := quires_map h.quires fun qr _ => clearQuire_ok qr,
           clk := ⟨h.clk.current, h.clk.target, h.clk.restore, h.clk.droop⟩, con := contractReset_ok _ }

theorem releaseFault_ok {s : State} (h : Ok K s) : Ok K (releaseFault s) := by
  simp (maxDischargeDepth := 50) +contextual only [releaseFault, ok_mk, Ok.far, Ok.ends, Ok.quires, Ok.clk, Ok.former, Ok.con, Ok.alarm, and_self, h]

theorem restoreIndex_ok {former : Nat} (hf : IxOk K former) (now : Nat) {c : Clk} (hc : ClkOk K c) : ClkOk K (restoreIndex former now c) := by
  have hm : IxOk K (min (c.restore.getD former) former) := fun hk => (Nat.min_le_right _ _).trans (hf hk)
  unfold restoreIndex
  dsimp only
  split
  · exact ⟨hc.current, hc.target, ixs_some hm, hc.droop⟩
  · split
    · exact ⟨hc.current, hm, nofun, hc.droop⟩
    · refine ⟨hc.current, ?_, ixs_some hm, hc.droop⟩
      show IxOk K (if c.source = 1 then _ else _)
      split
      · exact hm
      · exact fun hk => by have := hm hk; omega

theorem clearStep_ok {s : State} (h : Ok K s) : Ok K (clearStep s) := by
  have h1 := clearBlocks_ok h
  unfold clearStep
  generalize clearBlocks s = c at h1
  dsimp only
  have h2 : Ok K (if c.bind.resetFault || c.bind.selftestFail then c else releaseFault c) := by
    simp only [releaseFault_ok, ite_ok, ite_self, h1]
  generalize (if c.bind.resetFault || c.bind.selftestFail then _ else _) = d at h2
  exact { h2 with clk := restoreIndex_ok h2.former _ h2.clk }

theorem resetPhase_ok {s : State} (h : Ok K s) : Ok K (resetPhase s) := by
  unfold resetPhase
  split <;> simp (maxDischargeDepth := 50) +contextual only [clearStep_ok, quiesceWrites_ok, ite_ok, ok_mk, Ok.far, Ok.ends, Ok.quires, Ok.clk, Ok.former, Ok.con, Ok.alarm, and_self, ite_self, h]

theorem bootQuire_ok (col : List Byte) (map : Word) (q : Fin 64) (qr : Quire) : QOk K (bootQuire col map q qr) :=
  withQmask_ok (quireReset_ok _ _ _) _

theorem ofFn_ok {f : Fin 64 → Quire} (h : ∀ q, QOk K (f q)) : QsOk K (Vector.ofFn f) := fun q => by
  simpa using h q

theorem Clk.capped_ok (cap : Nat) {c : Clk} (hc : ClkOk K c) : ClkOk K (Clk.capped cap c) := by
  have h1 := Clk.settle_ok hc
  unfold Clk.capped
  split
  · exact ⟨fun _ => Nat.le_succ 5, fun _ => Nat.le_succ 5, h1.restore, h1.droop⟩
  · exact ⟨hc.current, hc.target, hc.restore, hc.droop⟩

theorem bootBindery_ok (env : BootEnv) {s : State} (h : Ok K s) : Ok K (bootBindery env s) := by
  have h1 := clearBlocks_ok h
  unfold bootBindery
  extract_lets col outcome map cap l pool d
  have h1 : Ok K d := h1
  clear_value d pool map col l cap
  exact ok_mk.2 ⟨h1.far, h1.ends, ofFn_ok fun q => bootQuire_ok _ _ _ _,
    Clk.capped_ok _ h1.clk, h1.former, contractReset_ok _, h1.alarm⟩

theorem bootClock_ok (env : BootEnv) {c : Clk} (hc : ClkOk K c) : ClkOk K (bootClock env c) := by
  unfold bootClock
  split
  · exact ⟨hc.current, hc.target, hc.restore, hc.droop⟩
  · exact ⟨hc.current, hc.target, ixs_some hc.current, hc.droop⟩

theorem bootSelftest_ok (env : BootEnv) {s : State} (h : Ok K s) : Ok K (bootSelftest env s) := by
  simp (maxDischargeDepth := 50) +contextual only [bootSelftest, ok_mk, Ok.far, Ok.ends, Ok.quires, Ok.clk, Ok.former, Ok.con, Ok.alarm, and_self, h]

theorem bootLinks_ok (env : BootEnv) {s : State} (h : Ok K s) : Ok K (bootLinks env s) := by
  simp (maxDischargeDepth := 50) +contextual only [bootLinks, endTraining_ok, ite_ok, updLink_ok, foldl_ok, ite_self, implies_true, h]

theorem bootReady_ok (env : BootEnv) {s : State} (h : Ok K s) : Ok K (bootReady env s) := by
  simp (maxDischargeDepth := 50) +contextual only [bootReady, raiseDie_ok, sampleHeld_ok, ite_ok, ok_mk, Ok.far, Ok.ends, Ok.quires, Ok.clk, Ok.former, Ok.con, Ok.alarm, and_self, ite_self, h]

theorem enterRecovery_ok {s : State} (h : Ok K s) : Ok K (enterRecovery s) := by
  simp (maxDischargeDepth := 50) +contextual only [enterRecovery, ok_mk, Ok.far, Ok.ends, Ok.quires, Ok.clk, Ok.former, Ok.con, Ok.alarm, and_self, h]

theorem bootFrom_ok (env : BootEnv) {s : State} (h : Ok K s) : Ok K (bootFrom env s) := by
  simp (maxDischargeDepth := 50) +contextual only [bootFrom, bootBindery_ok, bootLinks_ok, bootReady_ok, bootSelftest_ok, enterRecovery_ok, ite_ok, ok_mk, clkok_mk, Ok.far, Ok.ends, Ok.quires, Ok.clk, Ok.former, Ok.con, Ok.alarm, ClkOk.current, ClkOk.target, ClkOk.restore, ClkOk.droop, and_self, ite_self, h]

theorem stateReset_ok : Ok K State.reset where
  far := nil_mok
  ends := fun hk l => by
    show Mem.wf (Vector.replicate 26 ([] : Mem))[l] = true
    simpa using nil_mok (K := K) hk
  quires := fun q => by
    show QOk K (Vector.replicate 64 Quire.atReset)[q]
    have h : QOk K Quire.atReset := quireReset_ok _ _ _
    simpa using h
  clk := ⟨fun _ => by decide, fun _ => by decide, nofun, fun _ => by decide⟩
  former := fun _ => by decide
  con := contractReset_ok _
  alarm := fun _ => by decide

theorem powerUp_ok (s : State) : Ok K (powerUp s) := by
  have h := stateReset_ok (K := K)
  unfold powerUp
  generalize State.reset = r at h
  exact { h with }


theorem coldPowerOn_ok (env : BootEnv) {s : State} (h : Ok K s) : Ok K (coldPowerOn env s) := by
  simp (maxDischargeDepth := 50) +contextual only [coldPowerOn, bootClock_ok, bootFrom_ok, powerUp_ok, ite_ok, ok_mk, Ok.far, Ok.ends, Ok.quires, Ok.clk, Ok.former, Ok.con, Ok.alarm, and_self, ite_self, h]

theorem execColdPowerOn_ok (env : BootEnv) {s : State} (h : Ok K s) : OutOk K (execColdPowerOn env s) := by
  simp (maxDischargeDepth := 50) +contextual only [execColdPowerOn, coldPowerOn_ok, outOk_next, h]

theorem powerLoss_ok {s : State} (h : Ok K s) : Ok K (powerLoss s) := by
  simp (maxDischargeDepth := 50) +contextual only [powerLoss, powerUp_ok, ok_mk, Ok.far, Ok.ends, Ok.quires, Ok.clk, Ok.former, Ok.con, Ok.alarm, and_self]

theorem execPowerLoss_ok {s : State} (h : Ok K s) : OutOk K (execPowerLoss s) := by
  simp (maxDischargeDepth := 50) +contextual only [execPowerLoss, powerLoss_ok, outOk_next, h]

theorem faultCommands_ok {s : State} (h : Ok K s) : Ok K (faultCommands s) := by
  simp (maxDischargeDepth := 50) +contextual only [faultCommands, ok_mk, Ok.far, Ok.ends, Ok.quires, Ok.clk, Ok.former, Ok.con, Ok.alarm, and_self, h]

theorem watchdog_ok {s : State} (h : Ok K s) : Ok K (watchdog s) := by
  simp (maxDischargeDepth := 50) +contextual only [watchdog, enterRecovery_ok, faultCommands_ok, raiseDie_ok, ite_ok, ok_mk, Ok.far, Ok.ends, Ok.quires, Ok.clk, Ok.former, Ok.con, Ok.alarm, and_self, ite_self, h]

theorem execWatchdog_ok {s : State} (h : Ok K s) : OutOk K (execWatchdog s) := by
  simp (maxDischargeDepth := 50) +contextual only [execWatchdog, watchdog_ok, outOk_next, h]

theorem recoveryRun_ok (verified : Bool) {s : State} (h : Ok K s) : Ok K (recoveryRun verified s) := by
  simp (maxDischargeDepth := 50) +contextual only [recoveryRun, ite_ok, ok_mk, Ok.far, Ok.ends, Ok.quires, Ok.clk, Ok.former, Ok.con, Ok.alarm, and_self, ite_self, h]

theorem recoveryGo_ok (value : Word) (verified : Bool) {s : State} (h : Ok K s) : Ok K (recoveryGo value verified s) := by
  simp (maxDischargeDepth := 50) +contextual only [recoveryGo, recoveryRun_ok, writeRecLength_ok, ite_ok, ite_self, h]

theorem execRecoveryGo_ok (value : Word) (verified : Bool) {s : State} (h : Ok K s) : OutOk K (execRecoveryGo value verified s) := by
  simp (maxDischargeDepth := 50) +contextual only [execRecoveryGo, recoveryGo_ok, outOk_next, h]

theorem incidentEnd_ok (f : Fin 16) {s : State} (h : Ok K s) : Ok K (incidentEnd f s) := by
  unfold incidentEnd
  split <;> simp (maxDischargeDepth := 50) +contextual only [takeFree_ok, tracePut_ok, ite_ok, ok_mk, Ok.far, Ok.ends, Ok.quires, Ok.clk, Ok.former, Ok.con, Ok.alarm, foldl_ok, and_self, ite_self, implies_true, h]

theorem execTraceIncidentEnd_ok (folio : FolioId) {s : State} (h : Ok K s) : OutOk K (execTraceIncidentEnd folio s) := by
  simp (maxDischargeDepth := 50) +contextual only [execTraceIncidentEnd, incidentEnd_ok, outOk_next, h]

theorem workOf_ok {s : State} (h : Ok K s) (c : Cmd) : ReplyOk K (workOf s c) := by
  unfold workOf
  split
  · exact nopWork_ok h c
  · exact queryWork_ok h c
  · exact loadProgramWork_ok h c
  · exact loadRegionWork_ok h c
  · exact exportRegionWork_ok h c
  · exact startTaskWork_ok h c
  · exact abortWork_ok h c
  · exact setStepWork_ok h c
  · exact runUpdateWork_ok h c
  · exact readLedgerWork_ok h c
  · exact readTelemetryWork_ok h c
  · exact operatingWork_ok h c
  · exact topologyWork_ok h c
  · exact linkControlWork_ok h c
  · exact resetWork_ok h c
  · exact fwUpdateWork_ok h c
  · exact attestWork_ok h c
  · exact h

theorem fencedStart_ok (r : Fin 4) {s : State} (h : Ok K s) : Ok K (fencedStart r s) := by
  unfold fencedStart
  (repeat' split) <;> simp (maxDischargeDepth := 50) +contextual only [placeReply_ok, startCmd_ok, workOf_ok, ok_mk, Ok.far, Ok.ends, Ok.quires, Ok.clk, Ok.former, Ok.con, Ok.alarm, and_self, implies_true, h]

theorem execFencedCommandStart_ok (ring : Fin 4) {s : State} (h : Ok K s) : OutOk K (execFencedCommandStart ring s) := by
  simp (maxDischargeDepth := 50) +contextual only [execFencedCommandStart, fencedStart_ok, outOk_next, h]

theorem completeEffect_ok {s : State} (h : Ok K s) (c : Cmd) (status : Nat) : Ok K (completeEffect s c status) := by
  simp (maxDischargeDepth := 50) +contextual only [completeEffect, stepReady_ok, ite_ok, ite_self, h]

theorem completeAt_ok (n : Nat) (c : Cmd) (status : Nat) (r0 : Word) (r1 : Word) {s : State} (h : Ok K s) : Ok K (completeAt n c status r0 r1 s) := by
  simp (maxDischargeDepth := 50) +contextual only [completeAt, completeEffect_ok, postStatus_ok, ite_ok, ok_mk, Ok.far, Ok.ends, Ok.quires, Ok.clk, Ok.former, Ok.con, Ok.alarm, and_self, ite_self, h]

theorem commandCompletion_ok (r : Fin 4) {s : State} (h : Ok K s) : Ok K (commandCompletion r s) := by
  unfold commandCompletion
  dsimp only
  (repeat' split) <;> simp (maxDischargeDepth := 50) +contextual only [completeAt_ok, settleTopology_ok, h]

theorem execCommandCompletion_ok (ring : Fin 4) {s : State} (h : Ok K s) : OutOk K (execCommandCompletion ring s) := by
  simp (maxDischargeDepth := 50) +contextual only [execCommandCompletion, commandCompletion_ok, outOk_next, h]

theorem completionTimeout_ok (r : Fin 4) (tag : BitVec 16) {s : State} (h : Ok K s) : Ok K (completionTimeout r tag s) := by
  simp (maxDischargeDepth := 50) +contextual only [completionTimeout, answerCmds_ok, ite_ok, ite_self, h]

theorem execCompletionTimeout_ok (ring : Fin 4) (tag : BitVec 16) {s : State} (h : Ok K s) : OutOk K (execCompletionTimeout ring tag s) := by
  simp (maxDischargeDepth := 50) +contextual only [execCompletionTimeout, completionTimeout_ok, outOk_next, h]

theorem smbusRead_ok {s : State} (h : Ok K s) (bs : List Byte) : Ok K (smbusRead s bs) := by
  simp (maxDischargeDepth := 50) +contextual only [smbusRead, ite_ok, ok_mk, Ok.far, Ok.ends, Ok.quires, Ok.clk, Ok.former, Ok.con, Ok.alarm, and_self, ite_self, h]

theorem execIdent_ok {s : State} (h : Ok K s) : OutOk K (execIdent s) := by
  simp (maxDischargeDepth := 50) +contextual only [execIdent, smbusRead_ok, outOk_next, h]

theorem execStatus_ok {s : State} (h : Ok K s) : OutOk K (execStatus s) := by
  simp (maxDischargeDepth := 50) +contextual only [execStatus, smbusRead_ok, outOk_next, h]

theorem execFault_ok {s : State} (h : Ok K s) : OutOk K (execFault s) := by
  simp (maxDischargeDepth := 50) +contextual only [execFault, smbusRead_ok, outOk_next, h]

theorem execPower_ok {s : State} (h : Ok K s) : OutOk K (execPower s) := by
  simp (maxDischargeDepth := 50) +contextual only [execPower, smbusRead_ok, outOk_next, h]

theorem execTempMax_ok {s : State} (h : Ok K s) : OutOk K (execTempMax s) := by
  simp (maxDischargeDepth := 50) +contextual only [execTempMax, smbusRead_ok, outOk_next, h]

theorem alertClear_ok {s : State} (h : Ok K s) : Ok K (alertClear s) := by
  simp (maxDischargeDepth := 50) +contextual only [alertClear, ite_ok, ok_mk, Ok.far, Ok.ends, Ok.quires, Ok.clk, Ok.former, Ok.con, Ok.alarm, and_self, ite_self, h]

theorem execAlertClear_ok {s : State} (h : Ok K s) : OutOk K (execAlertClear s) := by
  simp (maxDischargeDepth := 50) +contextual only [execAlertClear, alertClear_ok, outOk_next, h]

theorem execAlertResponse_ok {s : State} (h : Ok K s) : OutOk K (execAlertResponse s) := by
  simp (maxDischargeDepth := 50) +contextual only [execAlertResponse, smbusRead_ok, ite_ok, ite_self, outOk_next, h]

theorem tickQuire_ok {qr : Quire} (hqr : QOk K qr) : QOk K (tickQuire qr) := by
  simp (maxDischargeDepth := 50) +contextual only [tickQuire, qok_mk, QOk.mem, QOk.tasks, QOk.config, QOk.scrub, and_self, hqr]

theorem takeUnlisted_ok (r : Fin 4) (n : Nat) : ∀ {s : State}, Ok K s → Ok K (takeUnlisted r n s) := by
  induction n with
  | zero => exact fun h => h
  | succ n ih =>
    intro s h
    unfold takeUnlisted
    dsimp only
    split
    · refine ih ?_
      have h1 := advanceRing_ok h r
      split
      · exact placeReply_ok _ _ (replyOk_going.2 h1)
      · exact placeReply_ok _ _ (startCmd_ok (fun _ c hs => workOf_ok hs c) h1 _)
    · exact h

theorem tickFirmware_ok {s : State} (h : Ok K s) : Ok K (tickFirmware s) := by
  unfold tickFirmware
  split
  · exact h
  · exact foldl_ok (fun _ r hs => takeUnlisted_ok r 8 hs) _ (foldl_ok (fun _ r hs => ringCheck_ok hs r) _ (flushAlarms_ok h))

theorem countTick_ok {s : State} (h : Ok K s) : Ok K (countTick s) := by
  simp (maxDischargeDepth := 50) +contextual only [countTick, ok_mk, clkok_mk, Ok.far, Ok.ends, Ok.quires, Ok.clk, Ok.former, Ok.con, Ok.alarm, ClkOk.current, ClkOk.target, ClkOk.restore, ClkOk.droop, and_self, h]

theorem startRuns_ok {s : State} (h : Ok K s) : Ok K (startRuns s) := by
  simp (maxDischargeDepth := 50) +contextual only [startRuns, updAllQ_ok, ite_ok, iteQ_ok, ok_mk, qok_mk, Ok.far, Ok.ends, Ok.quires, Ok.clk, Ok.former, Ok.con, Ok.alarm, QOk.mem, QOk.tasks, QOk.config, QOk.scrub, updAllQ_ok, and_self, ite_self, implies_true, h]

theorem newTick_ok {s : State} (h : Ok K s) : Ok K (newTick s) := by
  simp (maxDischargeDepth := 50) +contextual only [newTick, ok_mk, clkok_mk, Ok.far, Ok.ends, Ok.quires, Ok.clk, Ok.former, Ok.con, Ok.alarm, ClkOk.current, ClkOk.target, ClkOk.restore, ClkOk.droop, and_self, h]

theorem stitchTick_ok {s : State} (h : Ok K s) : Ok K (stitchTick s) := by
  simp (maxDischargeDepth := 50) +contextual only [stitchTick, startRuns_ok, newTick_ok, catchUp_ok, countTick_ok, resetPhase_ok, takeDomains_ok, tickFirmware_ok, tickQuire_ok, ite_ok, ok_mk, Ok.far, Ok.ends, Ok.quires, Ok.clk, Ok.former, Ok.con, Ok.alarm, updAllQ_ok, and_self, ite_self, implies_true, h]

end Sys2Proof.Machine
end

