-- ==== Sys2Proof/Tests/Slice0.lean ====
section
/-! SUPPORT. Tests: ill-formed commands that the checks refuse, results of single steps, and for every statement with
hypotheses concrete states and operands that meet them. Expected values are worked out from the rules cited. -/

namespace Sys2Proof.Tests
open Sys2Proof.Machine
set_option Elab.async false

/-! ## Well-formedness and decoding -/

/-- Of the opcode (R284): a NOP word in the row of ALU. -/
theorem test_wellFormed_opcode : (Instr.alu 0 0 0).wellFormed = false ∧ (Instr.nop 0 0 0).wellFormed = true := by decide

/-- A flit has 256 bytes (R366). -/
theorem test_wellFormed_flit : (Instr.dataFlit 0 [1]).wellFormed = false ∧ (Instr.ctrlFlit 0 []).wellFormed = false
    ∧ (Instr.heartbeatFlit 0 []).wellFormed = false ∧ (Instr.faultFlit 0 []).wellFormed = false := by decide +kernel

/-- A TRAIN flit reports a link and a port of 26 (R382). -/
theorem test_wellFormed_train : (Instr.trainFlit 0 26 0 0 0).wellFormed = false
    ∧ (Instr.trainFlit 0 0 0 26 0).wellFormed = false := by decide

/-- An upset lies in one of seven memories and flips a bit. -/
theorem test_wellFormed_scrub : (Instr.scrub 0 0 0 [{ mem := 7, word := 0, bits := 1 }]).wellFormed = false
    ∧ (Instr.scrub 0 0 0 [{ mem := 0, word := 0, bits := 0 }]).wellFormed = false := by decide

/-- A BAR4 access lies within BAR4 (R421). -/
theorem test_wellFormed_bar4 : (Instr.bar4Write (2 ^ 34) [0]).wellFormed = false
    ∧ (Instr.bar4Read (2 ^ 34 - 1) 2).wellFormed = false := by decide +kernel

/-- A register access has 4 or 8 bytes, aligned, within its BAR (R14). -/
theorem test_wellFormed_register : (Instr.registerWrite false 0 2 0).wellFormed = false
    ∧ (Instr.registerWrite false 4 8 0).wellFormed = false ∧ (Instr.registerWrite true 0x10000 8 0).wellFormed = false := by
  decide +kernel

/-- The table gives no bits, so no word spells a command. -/
theorem test_decode_none : decodeTableWord 64 0x1234 = none ∧ State.reset.withFetchWord 64 0x1234 = State.reset := ⟨rfl, rfl⟩

/-! ## States -/

/-- A module that runs: PERST_N released, the boot done, a binary loaded, the hazard checker off, tick 500. -/
def up : State :=
  { State.reset with
    host := { State.reset.host with perst := false, linkUp := true, ready := true, dbInMask := 0 }
    clk := { State.reset.clk with present := true, stitch := 500 }
    con := { State.reset.con with debugActive := 0 }
    bind := { State.reset.bind with stage := 15, faultN := false, loaded := 0x200 } }

/-- The word of opcode op with fields (place, width, value). -/
def ins (op : Nat) (fs : List (Nat × Nat × Nat)) : Word := packFlds ((0, 6, op) :: fs)

/-- `up` with the words `ws` in the program store of quire 0 and task t of it running there in lc 100, its bounds the whole
scratchpads and banks; a filler's turn comes in a window of task 0. -/
def running (t : Fin 4) (ws : List Word) (f : Quire → Quire) : State :=
  updQ up 0 (fun k => f { k with
    mem := { k.mem with prog := writeBytes [] 0 (ws.flatMap (fun w => bytesLE 8 w.toNat)) }
    seq := { k.seq with
      inRun := true, lc := 100, winEnd := if t = 0 then 100 else 200
      tasks := k.seq.tasks.set t { Task.reset with
        code := packFlds [(16, 14, ws.length), (32, 1, 1)], state := .running, joined := true
        bound := packFlds [(10, 11, 1024), (30, 10, 512), (49, 10, 512), (59, 1, 1)]
        region := packFlds [(16, 14, 8192), (32, 1, 1)]
        mwin := packFlds [(20, 20, 786432), (40, 1, 1)] } } })

/-- Task t of quire 0 at the one word w, with registers rs from s0 on. -/
def at1 (t : Fin 4) (w : Word) (rs : List Word) : State :=
  running t [w, 0, 0, 0] (fun k => updTask k t (fun tk => { tk with sregs := Vector.ofFn (fun i => (rs[i.val]?).getD 0) }))

/-- The outcome of a command, as a state. -/
def after (o : Host.Outcome State Fault Refusal) : State := match o with | .next u => u | _ => State.reset

/-- A register of task t of quire 0. -/
def reg (s : State) (t : Fin 4) (r : Fin 32) (x : Nat) : Word := (settleRegs x s.quires[(0 : Fin 64)].seq.tasks[t]).sregs[r]

/-- Little-endian words. -/
def wds (l : List Nat) : List Byte := l.flatMap (bytesLE 8)

/-! ## Single steps -/

/-- ADDI adds a sign-extended immediate: 5 + (−1) = 4 (R286), readable in the next lc and not before (R271). -/
theorem test_addi : let w := ins 2 [(6, 5, 3), (11, 5, 2), (16, 32, 0xFFFFFFFF)]
    let u := after (exec (.addi 0 0 w) (at1 0 w [0, 0, 5, 9]))
    reg u 0 3 101 = 4 ∧ reg u 0 3 100 = 9 := by decide +kernel

/-- ALU subtraction wraps modulo 2^64 (R286). -/
theorem test_alu_sub : let w := ins 1 [(6, 5, 3), (11, 5, 2), (16, 5, 1), (21, 7, 1)]
    reg (after (exec (.alu 0 0 w) (at1 0 w [0, 1, 0, 9]))) 0 3 101 = ~~~0 := by decide +kernel

/-- A product is readable from lc x + 3 on, its low 64 bits (R286 R306). -/
theorem test_alu_mul : let w := ins 1 [(6, 5, 3), (11, 5, 2), (16, 5, 1), (21, 7, 8)]
    let u := after (exec (.alu 0 0 w) (at1 0 w [0, 3, 0x8000_0000_0000_0001, 9]))
    reg u 0 3 103 = 0x8000_0000_0000_0003 ∧ reg u 0 3 102 = 9 := by decide +kernel

/-- SRAI by 63 of a negative value gives ones (R286). -/
theorem test_srai : let w := ins 8 [(6, 5, 3), (11, 5, 2), (16, 32, 63)]
    reg (after (exec (.srai 0 0 w) (at1 0 w [0, 0, 0x8000_0000_0000_0000]))) 0 3 101 = ~~~0 := by decide +kernel

/-- s0 discards a write (R270). -/
theorem test_li_s0 : let w := ins 0xA [(16, 32, 5)]
    reg (after (exec (.li 0 0 w) (at1 0 w []))) 0 0 200 = 0 := by decide +kernel

/-- LIH keeps the low half (R286). -/
theorem test_lih : let w := ins 0xB [(6, 5, 3), (16, 32, 0xAABBCCDD)]
    reg (after (exec (.lih 0 0 w) (at1 0 w [0, 0, 0, 0x1122334455667788]))) 0 3 101 = 0xAABBCCDD55667788 := by decide +kernel

/-- GETS of source 3 brings ISA_CAPS.LOADED (R287). -/
theorem test_gets : let w := ins 0xC [(6, 5, 3), (16, 8, 3)]
    reg (after (exec (.gets 0 0 w) (at1 0 w []))) 0 3 101 = 0x200 := by decide +kernel

/-- BR on signed less-than, taken: −1 < 1 (R288). -/
theorem test_br : let w := ins 0x10 [(6, 5, 2), (11, 5, 1), (16, 5, 2), (21, 27, 3)]
    ((after (exec (.br 0 0 w) (at1 0 w [0, ~~~0, 1]))).quires[(0 : Fin 64)]).seq.tasks[(0 : Fin 4)].pc = 3 := by decide +kernel

/-- J beyond the code count is a base/bound fault: SEQ.FAULT cause 3, valid, PC 0 (R288 R522). -/
theorem test_j_bound : let w := ins 0x11 [(21, 27, 4)]
    ((after (exec (.j 0 0 w) (at1 0 w []))).quires[(0 : Fin 64)]).seq.fault = 0x43 := by decide +kernel

/-- IDLE 5 of task 0 in lc 100: the next issue is in lc 106, five lc booked (R273). -/
theorem test_idle : let w := ins 0x14 [(16, 16, 5)]
    let k := (after (exec (.idle 0 0 w) (at1 0 w []))).quires[(0 : Fin 64)]
    k.seq.lc = 106 ∧ k.idleCause[(0 : Fin 8)] = 5 ∧ k.idleIssue = 1 := by decide +kernel

/-- END stops its task and ends the run; SEQ.ISSUED counts it (R276). -/
theorem test_end : let w := ins 0x16 []
    let k := (after (exec (.endTask 0 0 w) (at1 0 w []))).quires[(0 : Fin 64)]
    k.seq.tasks[(0 : Fin 4)].state = .stopped ∧ k.seq.inRun = false ∧ k.seq.issued = 1 := by decide +kernel

/-- GETDB clears the bits it returns (R289). -/
theorem test_getdb : let w := ins 0x18 [(6, 5, 3)]
    let u := after (exec (.getdb 0 0 w) (updQ (at1 0 w []) 0 (fun k => { k with dbToQuire := 0x101, qmask := 0x1_0000_0000 })))
    reg u 0 3 101 = 0x100 ∧ (u.quires[(0 : Fin 64)]).dbToQuire = 1 := by decide +kernel

/-- SWAP inverts FRONT of the half-pairs of its mask alone (R292). -/
theorem test_swap : let w := ins 0x30 [(11, 8, 0x81)]
    let tk := ((after (exec (.swap 0 0 w) (at1 0 w []))).quires[(0 : Fin 64)]).seq.tasks[(0 : Fin 4)]
    tk.hp.map (·.front) = #v[true, false, false, false, false, false, false, true] := by decide +kernel

/-- YIELD in a filler is an illegal opcode: SEQ.FAULT cause 5, task 1 (R290 R522). -/
theorem test_yield_filler : let w := ins 0x15 [(16, 16, 5)]
    ((after (exec (.yield 0 1 w) (at1 1 w []))).quires[(0 : Fin 64)]).seq.fault = 0x55 := by decide +kernel

/-- ALERT_CLEAR releases the alert of a module without a fault (R501). -/
theorem test_alert_clear : (after (exec .alertClear { up with bind := { up.bind with alertN := true } })).bind.alertN = false := by
  decide +kernel

/-- DROOP_CFG refuses thresholds less than 10 apart (R357). -/
theorem test_droop_cfg : (after (exec (.droopCfg 0x1D14) up)).clk.droopCfg = 0x4628
    ∧ (after (exec (.droopCfg 0x1E14) up)).clk.droopCfg = 0x1E14 := by decide +kernel

/-- Without a packet in the ring a command row comes about with nothing (R428). -/
theorem test_empty_ring :
    (after (exec (.nopCommand 1 { flags := 0, tag := 0, rsvd := 0, p := Vector.replicate 7 0 }) up)).bind.cmds = [] := by decide +kernel

/-- A module of stepping 0x00 keeps it when power is lost (R6 R494). -/
theorem test_power_loss : (after (exec .powerLoss { up with bind := { up.bind with stepping := 0 } })).bind.stepping = 0 := by decide +kernel

/-- A droop of 110 mV above T2_MV = 70 stretches by a half, one of exactly T2_MV by a quarter, T1_MV = 40 (R347). -/
theorem test_droop_stretch :
    (let u := after (exec (.droopStretch 3 110) up); u.clk.half[(3 : Fin 16)] = 1 ∧ u.clk.qtr[(3 : Fin 16)] = 0)
    ∧ (let u := after (exec (.droopStretch 3 70) up); u.clk.half[(3 : Fin 16)] = 0 ∧ u.clk.qtr[(3 : Fin 16)] = 1) := by decide +kernel

/-- An empty queue lets a tick pass (log entry 2). -/
theorem test_tick : (after (step up)).clk.stitch = 501 := by decide +kernel

/-! ## Witnesses: instructions -/

/-- ADDI, ANDI, ORI, XORI, SLTI on the ends of the immediate, the shifts by 0 and 63: `ScalarResults`. -/
theorem witness_ScalarResults_immediates :
    (∀ op ∈ [2, 3, 4, 5, 9], ∀ imm ∈ [0x7FFFFFFF, 0x80000000], let w := ins op [(6, 5, 3), (11, 5, 2), (16, 32, imm)]
      Issues (at1 0 w [0, 0, 7]) 0 0 w op ∧ ReadsReady (at1 0 w [0, 0, 7]) 0 0 [wRA w] ∧ WriteClear (at1 0 w [0, 0, 7]) 0 0 (wRD w) 101)
    ∧ (∀ op ∈ [6, 7, 8], ∀ imm ∈ [0, 63], let w := ins op [(6, 5, 31), (11, 5, 2), (16, 32, imm)]
      (BitVec.ofNat 32 (fld w 16 32)).toNat < 64
      ∧ Issues (at1 2 w [0, 0, 7]) 0 2 w op ∧ ReadsReady (at1 2 w [0, 0, 7]) 0 2 [wRA w] ∧ WriteClear (at1 2 w [0, 0, 7]) 0 2 (wRD w) 101) := by
  simp only [Issues, ReadsReady, WriteClear]; decide +kernel

/-- The functions 0, 8 and 15 of ALU, LI and LIH: `ScalarResults`. -/
theorem witness_ScalarResults_alu :
    (∀ fn ∈ [0, 8, 15], let w := ins 1 [(6, 5, 3), (11, 5, 2), (16, 5, 1), (21, 7, fn)]
      fld w 21 7 = fn ∧ Issues (at1 0 w [0, 5, 7]) 0 0 w 1 ∧ ReadsReady (at1 0 w [0, 5, 7]) 0 0 [wRA w, wRB w]
      ∧ WriteClear (at1 0 w [0, 5, 7]) 0 0 (wRD w) (issueLc (at1 0 w [0, 5, 7]) 0 0 + if fn = 8 then 3 else 1))
    ∧ (∀ op ∈ [0xA, 0xB], let w := ins op [(6, 5, 3), (16, 32, 0x80000000)]
      Issues (at1 1 w []) 0 1 w op ∧ ReadsReady (at1 1 w []) 0 1 [wRD w] ∧ WriteClear (at1 1 w []) 0 1 (wRD w) 101) := by
  simp only [Issues, ReadsReady, WriteClear]; decide +kernel

/-- NOP, a met WAITS and a met WAITW: `NopAndMetWaits`. -/
theorem witness_NopAndMetWaits :
    Issues (at1 0 0 []) 0 0 0 0x00
    ∧ (Issues (at1 2 0x2E []) 0 2 0x2E 0x2E ∧ (issueQuire (at1 2 0x2E []) 0 2).stream.landings = [])
    ∧ (Issues (at1 0 0x2F []) 0 0 0x2F 0x2F ∧ (issueQuire (at1 0 0x2F []) 0 0).stream.writes = []
      ∧ (issueQuire (at1 0 0x2F []) 0 0).stream.doneWrites = []) := by
  simp only [Issues]; decide +kernel

/-- Sources 0 and 5 of GETS, and the first illegal one: `GetsSources`. -/
theorem witness_GetsSources :
    (∀ sel ∈ [0, 5], let w := ins 0xC [(6, 5, 3), (16, 8, sel)]
      fld w 16 8 = sel ∧ Issues (at1 0 w []) 0 0 w 0xC ∧ WriteClear (at1 0 w []) 0 0 (wRD w) 101)
    ∧ (∀ sel ∈ [6, 255], let w := ins 0xC [(6, 5, 3), (16, 8, sel)]
      fld w 16 8 ≥ 6 ∧ Issues (at1 0 w []) 0 0 w 0xC ∧ (issueState (at1 0 w []) 0 0).quiet) := by
  simp only [Issues, WriteClear, State.quiet]; decide +kernel

/-- A write of s31 with none of it waiting: `RegisterWrites`. -/
theorem witness_RegisterWrites : (31 : Nat) < 32 ∧ (31 : Nat) ≠ 0 ∧ (∀ p ∈ Task.reset.pend, p.reg.val ≠ 31) ∧ (0 : Nat) ≠ 31 := by decide

/-- BR in both ways, J, CALL and RET to the first and the last index of the code: `BranchesAndBounds`. -/
theorem witness_BranchesAndBounds :
    (∀ c ∈ [0, 5], ∀ off ∈ [0, 3], let w := ins 0x10 [(6, 5, c), (11, 5, 1), (16, 5, 2), (21, 27, off)]
      Issues (at1 0 w [0, 5, 5]) 0 0 w 0x10 ∧ ReadsReady (at1 0 w [0, 5, 5]) 0 0 [wRA w, wRB w]
      ∧ (0 ≤ (issueTask (at1 0 w [0, 5, 5]) 0 0).pc.toNat + sfld w 21 27
        ∧ (issueTask (at1 0 w [0, 5, 5]) 0 0).pc.toNat + sfld w 21 27 < (issueTask (at1 0 w [0, 5, 5]) 0 0).codeCount))
    ∧ (∀ op ∈ [0x11, 0x12], ∀ off ∈ [0, 3], let w := ins op [(21, 27, off)]
      Issues (at1 0 w []) 0 0 w op ∧ WriteClear (at1 0 w []) 0 0 (wRD w) 101
      ∧ (issueTask (at1 0 w []) 0 0).pc.toNat + sfld w 21 27 < (issueTask (at1 0 w []) 0 0).codeCount)
    ∧ (∀ v ∈ [0, 3], let w := ins 0x13 [(11, 5, 1)]
      let s := at1 0 w [0, BitVec.ofNat 64 v]
      Issues s 0 0 w 0x13 ∧ ReadsReady s 0 0 [wRA w] ∧ (readReg (issueTask s 0 0) (wRA w)).toNat < (issueTask s 0 0).codeCount) := by
  simp only [Issues, ReadsReady, WriteClear]; decide +kernel

/-- The same one index beyond the code and one before it: `BranchesAndBounds`. -/
theorem witness_BranchesAndBounds_beyond :
    (∀ op ∈ [0x10, 0x11, 0x12], ∀ off ∈ [4, 2 ^ 27 - 1], let w := ins op [(21, 27, off)]
      Issues (at1 0 w []) 0 0 w op ∧ (issueState (at1 0 w []) 0 0).quiet
      ∧ ((issueTask (at1 0 w []) 0 0).pc.toNat + sfld w 21 27 < 0
        ∨ ((issueTask (at1 0 w []) 0 0).codeCount : Int) ≤ (issueTask (at1 0 w []) 0 0).pc.toNat + sfld w 21 27))
    ∧ (let w := ins 0x13 [(11, 5, 1)]
      Issues (at1 0 w [0, 4]) 0 0 w 0x13 ∧ (issueState (at1 0 w [0, 4]) 0 0).quiet
      ∧ (issueTask (at1 0 w [0, 4]) 0 0).codeCount ≤ (readReg (issueTask (at1 0 w [0, 4]) 0 0) (wRA w)).toNat) := by
  simp only [Issues, State.quiet]; decide +kernel

/-- Words with an unlisted bit, and each illegal value at the end of its range: `IllegalWords`. -/
theorem witness_IllegalWords :
    (∀ op ∈ [0x00, 0x16, 0x20, 0x30], let w := ins op [(62, 1, 1)]
      (issueState (at1 0 w []) 0 0).quiet ∧ canIssue (at1 0 w []) 0 0 w op = true
      ∧ canIssue (arrive (at1 0 w []) 0 0) 0 0 w op = true ∧ wordFieldsOk op w = false)
    ∧ (∀ p ∈ [(0x01, [(21, 7, 16)]), (0x06, [(16, 32, 64)]), (0x10, [(6, 5, 6)]), (0x14, []), (0x15, []), (0x31, [(9, 2, 3)])],
      let w := ins p.1 p.2; Issues (at1 0 w []) 0 0 w p.1 ∧ (issueState (at1 0 w []) 0 0).quiet) := by
  simp only [Issues, State.quiet]; decide +kernel

/-- IDLE and YIELD of task 0 and IDLE of a filler, of 1 and of 65,535 lc: `IdleAndYield`. -/
theorem witness_IdleAndYield :
    (∀ t ∈ [(0 : Fin 4), 3], ∀ n ∈ [1, 65535], let w := ins 0x14 [(16, 16, n)]
      fld w 16 16 ≠ 0 ∧ Issues (at1 t w []) 0 t w 0x14)
    ∧ (∀ n ∈ [1, 65535], let w := ins 0x15 [(16, 16, n)]
      fld w 16 16 ≠ 0 ∧ Issues (at1 0 w []) 0 0 w 0x15) := by
  simp only [Issues]; decide +kernel

/-- END of task 0 and of a filler: `EndStopsTask`. -/
theorem witness_EndStopsTask : ∀ t ∈ [(0 : Fin 4), 3],
    Issues (at1 t 0x16 []) 0 t 0x16 0x16 ∧ (issueState (at1 t 0x16 []) 0 t).quiet := by
  simp only [Issues, State.quiet]; decide +kernel

/-- RINGDB and GETDB: `QuireDoorbells`. SWAP and SETHP of the last half-pair and scratchpad: `HalfPairs`. -/
theorem witness_QuireDoorbells_HalfPairs :
    (let w := ins 0x17 [(16, 32, 0x80000001)]; Issues (at1 0 w []) 0 0 w 0x17)
    ∧ (let w := ins 0x18 [(6, 5, 3)]; Issues (at1 1 w []) 0 1 w 0x18 ∧ WriteClear (at1 1 w []) 0 1 (wRD w) 101)
    ∧ (let w := ins 0x30 [(11, 8, 0x81)]; Issues (at1 0 w []) 0 0 w 0x30)
    ∧ (let w := ins 0x31 [(6, 3, 7), (9, 2, 2), (28, 16, 0xFFFF)]; Issues (at1 2 w []) 0 2 w 0x31 ∧ fld w 9 2 ≠ 3) := by
  simp only [Issues, WriteClear]; decide +kernel

/-- Every reserved instruction in fillers 1 and 3: `ReservedToTaskZero`. -/
theorem witness_ReservedToTaskZero : ∀ t ∈ [(1 : Fin 4), 3],
    (∀ p ∈ [(0x15, [(16, 16, 5)]), (0x34, []), (0x35, []), (0x24, [(30, 10, 1)]), (0x25, []), (0x26, [(7, 2, 2)]), (0x27, []),
        (0x28, []), (0x38, []), (0x39, []), (0x3A, [])], let w := ins p.1 p.2
      t ≠ 0 ∧ Issues (at1 t w []) 0 t w p.1 ∧ (issueState (at1 t w []) 0 t).quiet)
    ∧ injectLegal (ins 0x24 [(30, 10, 1)]) = true := by
  simp only [Issues, State.quiet]; decide +kernel

/-- An INJECT of three slots from staging rows 4 to 9, and one of a half: `InjectStarts`. -/
theorem witness_InjectStarts :
    (let w := ins 0x24 [(14, 16, 4), (30, 10, 3), (40, 2, 1), (48, 12, 5)]
     let s := at1 0 w []
     Issues s 0 0 w 0x24 ∧ injectLegal w = true ∧ rowRef (issueTask s 0 0) (injRef w) 2 = some 4
     ∧ (issueTask s 0 0).spadOk 2 4 (injRows w) = true ∧ 4 = (issueTask s 0 0).spadBase 2 + 4
     ∧ injBack w = false ∧ (issueQuire s 0 0).rstop.injFore ≤ issueLc s 0 0 + 3)
    ∧ (let w := ins 0x24 [(6, 1, 1), (7, 2, 1), (9, 3, 4), (12, 2, 3), (30, 10, 4)]
     let s := at1 0 w []
     Issues s 0 0 w 0x24 ∧ injectLegal w = true ∧ 2 ≤ injSrc w ∧ injBack w = true
     ∧ (issueQuire s 0 0).rstop.injBack ≤ issueLc s 0 0 + 3) := by
  simp only [Issues]; decide +kernel

/-- LAND, REDUCE and COPY into each scratchpad: `LandCopyReduceStart`. -/
theorem witness_LandCopyReduceStart :
    (let w := ins 0x25 [(6, 1, 1), (7, 1, 1), (8, 2, 3)]; Issues (at1 0 w []) 0 0 w 0x25)
    ∧ (let w := ins 0x27 [(48, 12, 4095)]; Issues (at1 0 w []) 0 0 w 0x27)
    ∧ (∀ sp ∈ [0, 1, 2], let w := ins 0x26 [(7, 2, sp), (9, 16, 504)]
        Issues (at1 0 w []) 0 0 w 0x26 ∧ fld w 7 2 ≠ 3 ∧ rowRef (issueTask (at1 0 w []) 0 0) (fld w 9 16) (fld w 7 2) = some 504
        ∧ (issueTask (at1 0 w []) 0 0).spadOk (fld w 7 2) 504 8 = true) := by
  simp only [Issues]; decide +kernel

/-- Every other quire stands at an equal SPLICE. -/
def splicing (m : BitVec 16) (w : Word) : State :=
  let s := at1 0 w []
  { s with quires := Vector.ofFn (fun q : Fin 64 =>
      if q = 0 then s.quires[(0 : Fin 64)] else { s.quires[(0 : Fin 64)] with rstop := { s.quires[(0 : Fin 64)].rstop with splice := some m } }) }

/-- The first SPLICE and the last of one ring and of sixteen: `Splices`. -/
theorem witness_Splices : ∀ m ∈ [0x8000, 0xFFFF], let w := ins 0x28 [(6, 16, m)]
    maskLegal (BitVec.ofNat 16 (fld w 6 16)) = true
    ∧ (Issues (at1 0 w []) 0 0 w 0x28 ∧ ∃ b : Fin 64, b ≠ 0 ∧ ((issueState (at1 0 w []) 0 0).quires[b]).rstop.splice = none)
    ∧ (Issues (splicing (BitVec.ofNat 16 m) w) 0 0 w 0x28
      ∧ ∀ c : Fin 64, c ≠ 0 → ((issueState (splicing (BitVec.ofNat 16 m) w) 0 0).quires[c]).rstop.splice
        = some (BitVec.ofNat 16 (fld w 6 16))) := by
  simp only [Issues]; decide +kernel

/-- A word of a stream descriptor (R174): far memory, PACE as its target asks. -/
def sdWord (dir target pace row len : Nat) : Nat := (packFlds [(0, 2, dir), (2, 3, target), (6, 2, pace), (16, 16, row), (32, 8, len)]).toNat

/-- Task t at a STREAM of entry 7, which names rows of a target and bytes of far memory from 2,560 on. -/
def streaming (t : Fin 4) (w : Word) (dir target pace row len : Nat) : State :=
  running t [w, 0, 0, 0] (fun k => updTask k t (fun tk => { tk with
    sdt := writeBytes [] 224 (wds [sdWord dir target pace row len, 2560]) }))

/-- The word STREAM of entry 7. -/
def wStream : Word := ins 0x2C [(11, 5, 7)]

/-- A read and a write STREAM of each scratchpad and bank, each of one row: `StreamStarts`. -/
theorem witness_StreamStarts : ∀ dir ∈ [0, 1], ∀ p ∈ [(0, 0), (1, 2), (3, 1), (4, 2), (5, 1), (6, 2)],
    let s := streaming 0 wStream dir p.1 p.2 8 1
    let tk := issueTask s 0 0
    let bs := sdtEntry tk 7
    let d := streamOffsets (readReg tk 0) (parseStream bs)
    Issues s 0 0 wStream 0x2C ∧ fld wStream 6 5 = 0 ∧ ReadsReady s 0 0 [0] ∧ streamValuesOk bs d = true
    ∧ farUseOk (issueState s 0 0) 0 0 d = true ∧ streamRow tk d = some 8 ∧ streamAligned tk d = true ∧ streamRowsOk tk d 8 = true
    ∧ streamFarOk (issueState s 0 0) tk d = true ∧ d.write = decide (dir = 1)
    ∧ issuedLandings (issueQuire s 0 0) 0 < landLimit 0 ∧ 512 * d.len ≤ landStoreSize 0
    ∧ startedAt (issueQuire s 0 0).stream.landings tk.pc.toNat = none
    ∧ streamUsed (issueQuire s 0 0) 0 (issueLc s 0 0) + 512 * d.len ≤ landStoreSize 0
    ∧ writeUsed (issueQuire s 0 0) 0 (issueLc s 0 0) + 512 * d.len ≤ outStoreSize 0 := by
  simp only [Issues, ReadsReady]; decide +kernel

/-- A landing of task t for the STREAM at index 0, of one row of operand staging. -/
def landing (t : Fin 4) (desc : List Byte) (issued landed : Bool) : Landing :=
  { task := t, entry := 7, desc := desc, pcIndex := 0, issued := issued, x := 60, landed := landed, data := List.replicate 512 1
    ready := 90, fetched := [], released := true, target := 2, firstRow := 8, pace := 1, len := 1, far := 0, port := 0, faddr := 2560, storeBytes := 512 }

/-- A quire with pending landings. -/
def withLandings (ls : List Landing) (s : State) : State := updQ s 0 (fun k => { k with stream := { k.stream with landings := ls } })

/-- A read that run-ahead has started for the STREAM: `StreamStarts`. -/
theorem witness_StreamStarts_ahead :
    let desc := wds [sdWord 0 2 0 8 1, 2560, 0, 0]
    let s := withLandings [landing 0 desc false true] (streaming 0 wStream 0 2 0 8 1)
    Issues s 0 0 wStream 0x2C ∧ sdtEntry (issueTask s 0 0) 7 = desc
    ∧ startedAt (issueQuire s 0 0).stream.landings (issueTask s 0 0).pc.toNat = some 0
    ∧ (issueQuire s 0 0).stream.landings[(0 : Nat)]? = some (landing 0 desc false true)
    ∧ (landing 0 desc false true).entry = fld wStream 11 5 := by
  simp only [Issues]; decide +kernel

/-- SDLOAD of the last staging row, and a WAITS of task 0 and of a filler whose landing has landed: `SdloadAndCommit`. -/
theorem witness_SdloadAndCommit :
    (let w := ins 0x2D [(6, 1, 1), (7, 16, 511)];
      Issues (at1 3 w []) 0 3 w 0x2D ∧ rowRef (issueTask (at1 3 w []) 0 3) (fld w 7 16) 2 = some 511
      ∧ (issueTask (at1 3 w []) 0 3).spadOk 2 511 1 = true)
    ∧ (∀ t ∈ [(0 : Fin 4), 2], let s := withLandings [landing t [] true true] (at1 t 0x2E [])
      Issues s 0 t 0x2E 0x2E ∧ (issueQuire s 0 t).stream.landings[(0 : Nat)]? = some (landing t [] true true)
      ∧ (landing t [] true true).ready ≤ issueLc s 0 t) := by
  simp only [Issues]; decide +kernel

/-- Port 3 is mapped to link 2 and quire 0 receives two messages there; buffer 9 is quire 0's and holds five entries. -/
def receiving (s : State) : State :=
  { s with
    ports := s.ports.set 3 { Port.reset with
      phys := 2, recvValid := true, recvQuire := 0, rxSize := 65536, landed := 2, landedReady := [60, 70], landedSizes := [512, 1024]
      taken := 4, takenBytes := 2048 }
    con := { s.con with xbCfg := s.con.xbCfg.set 9 (packFlds [(60, 1, 1)]), xbCount := s.con.xbCount.set 9 5 } }

/-- LWAIT of all and of one more message than there are, XWAIT of all and of one more entry: `MetWaitsTake`, `UnmetWaitsHold`. -/
theorem witness_MetWaitsTake_UnmetWaitsHold :
    (∀ n ∈ [0, 2, 3], let w := ins 0x34 [(6, 5, 3), (11, 16, n)]
      let s := receiving (at1 0 w [])
      let p := (issueState s 0 0).ports[(3 : Fin 26)]
      Issues s 0 0 w 0x34 ∧ fld w 6 5 = 3 ∧ p.mapped = true ∧ p.recvValid = true ∧ p.recvQuire = 0
      ∧ (if n = 3 then p.landed < fld w 11 16
        else fld w 11 16 ≤ p.landed - (p.landedReady.filter (fun r => issueLc s 0 0 < r)).length))
    ∧ (∀ n ∈ [0, 5, 6], let w := ins 0x35 [(6, 5, 9), (11, 16, n)]
      let s := receiving (at1 0 w [])
      let c := (issueState s 0 0).con
      Issues s 0 0 w 0x35 ∧ fld w 6 5 = 9 ∧ bit c.xbCfg[(9 : Fin 32)] 60 = true ∧ fld c.xbCfg[(9 : Fin 32)] 54 6 = 0
      ∧ (if n = 6 then c.xbCount[(9 : Fin 32)].toNat < fld w 11 16
        else fld w 11 16 ≤ c.xbCount[(9 : Fin 32)].toNat - (c.xbLate[(9 : Fin 32)].filter (fun r => issueLc s 0 0 < r)).length)) := by
  simp only [Issues]; decide +kernel

/-- An incomplete write of task t: its first 512 bytes of far memory from 1,024 on. -/
def write1 (t : Fin 4) (far : Nat) : OutWrite :=
  { task := t, far := far, port := 3, faddr := 1024, x := 3, edge := 3, len := 1, data := List.replicate 512 9, left := false }

/-- A quire with incomplete writes. -/
def withWrites (os : List OutWrite) (s : State) : State := updQ s 0 (fun k => { k with stream := { k.stream with writes := os } })

/-- WAITW of task 0 and of a filler: `UnmetWaitsHold`. -/
theorem witness_UnmetWaitsHold_waitw : ∀ t ∈ [(0 : Fin 4), 2], let s := withWrites [write1 t 0] (at1 t 0x2F [])
    Issues s 0 t 0x2F 0x2F ∧ ∃ o ∈ (issueQuire s 0 t).stream.writes, o.task = t := by
  simp only [Issues]; decide +kernel

/-- Task t at the word w, with descriptors in rows 3 and 4 of operand staging. -/
def described (t : Fin 4) (w : Word) (row3 row4 : List Byte) : State :=
  running t [w, 0, 0, 0] (fun k => { k with mem := { k.mem with stg := writeBytes (writeBytes [] 1536 row3) 2048 row4 } })

/-- A tile of one chunk of B16 pairs from activation and staging into partial sums as F32 (R281). -/
def tileBytes : List Byte :=
  wds [(packFlds [(0, 2, 2), (2, 2, 2), (13, 1, 1), (16, 16, 1)]).toNat, 2 ^ 64 - 1, 1, 0, 0, 0, 0, 0]

/-- Its operand pair: activation and staging rows from 0 on, scale 127. -/
def pairBytes : List Byte := wds [127 * 256, 0, 0, 0, 2 + 127 * 256, 0, 0, 0]

/-- TILE by task 0 and by a filler: `TileStarts`. -/
theorem witness_TileStarts : ∀ t ∈ [(0 : Fin 4), 3], let w := ins 0x20 [(11, 12, 24), (23, 12, 32)]
    let s := described t w tileBytes pairBytes
    let k := issueQuire s 0 t
    let tk := issueTask s 0 t
    let f := tileOffsets (readReg tk 0) (parseTile tileBytes) (parseTensor pairBytes 0) (parseTensor pairBytes 32)
    let d := f.1
    Issues s 0 t w 0x20 ∧ ReadsReady s 0 t [fld w 6 5]
    ∧ descAt k (afterLc (issueState s 0 t) 0 100) tk (fld w 11 12) 64 64 = some (tileBytes, [])
    ∧ descAt k (afterLc (issueState s 0 t) 0 100) tk (fld w 23 12) 64 0 = some (pairBytes, [])
    ∧ tileValuesOk tileBytes d = true ∧ pairingOk d.rowFmt d.colFmt = true ∧ rowTensorOk d f.2.1 = true ∧ colTensorOk d f.2.2 = true
    ∧ pairReservedOk pairBytes = true ∧ bit w 60 = false ∧ d.deriv = 0 ∧ d.rowSrc = 2 ∧ d.colSrc = 2 ∧ f.2.1.hpEn = false ∧ f.2.1.row = 0
    ∧ f.2.2.hpEn = false ∧ f.2.2.row = 0 ∧ d.init ≠ 2 ∧ d.dest ≠ 4 ∧ d.destRow % tileRows d.outFmt = 0
    ∧ tileBoundsOk tk d f.2.1 f.2.2 0 0 (fillsCollector k d) = true ∧ k.array.running = none ∧ k.array.lastChunk ≤ 102
    ∧ liveDrains k = [] ∧ DescClear s 0 t (fld w 11 12) 64 64 ∧ DescClear s 0 t (fld w 23 12) 64 0 := by
  simp only [Issues, ReadsReady, DescClear]; decide +kernel

/-- A panel of two blocks in a format (R139). -/
def panelBytes (fmt : Nat) : List Byte := wds [(packFlds [(0, 14, 5), (17, 3, fmt), (24, 8, 127), (40, 8, 2), (48, 16, 7)]).toNat, 9 * 65536, 0, 0]

/-- WPANEL in each format: `WpanelStarts`. -/
theorem witness_WpanelStarts : ∀ fmt ∈ [1, 2, 3], let w := ins 0x21 [(11, 13, 48)]
    let s := described 1 w (panelBytes fmt) []
    let tk := issueTask s 0 1
    let d := panelOffsets (readReg tk 0) (parsePanel (panelBytes fmt))
    Issues s 0 1 w 0x21 ∧ ReadsReady s 0 1 [fld w 6 5]
    ∧ descAt (issueQuire s 0 1) (afterLc (issueState s 0 1) 0 100) tk (fld w 11 13) 32 16 = some (panelBytes fmt, [])
    ∧ panelValuesOk (issueState s 0 1) (panelBytes fmt) d = true ∧ tk.regValid = true ∧ d.destRow % 2 = 0
    ∧ (∀ m < d.nblk, tk.blocksOk (d.block + m * d.stride) 1 = true) ∧ tk.spadOk 2 d.destRow (panelRows d) = true
    ∧ tk.spadOk 2 d.scRow (panelScRows d) = true ∧ DescClear s 0 1 (fld w 11 13) 32 16 := by
  simp only [Issues, ReadsReady, DescClear]; decide +kernel

/-- COPY (op 0) or TAB (op 15) of 100 elements a line, two lines, from activation to staging (R196 R197). -/
def vecBytes (op : Nat) : List Byte :=
  wds [(packFlds [(0, 5, op), (15, 1, 1), (32, 16, 100), (48, 16, 2)]).toNat, (packFlds [(4, 3, 1), (32, 16, 8)]).toNat, 0, 0,
    (packFlds [(2, 2, 2), (4, 3, 1), (32, 16, 8)]).toNat, 0, 0, 0]

/-- VOP with and without a table: `VopStarts`. -/
theorem witness_VopStarts : ∀ op ∈ [0, 15], let w := ins 0x22 [(11, 12, 24)]
    let s := described 2 w (vecBytes op) []
    let b := issueState s 0 2
    let d := parseVec (vecBytes op)
    let o := parseOperand (vecBytes op)
    Issues s 0 2 w 0x22 ∧ ReadsReady s 0 2 (fld w 6 5 :: operandRegs [o 1, o 2, o 3])
    ∧ descAt (issueQuire s 0 2) (afterLc b 0 100) (issueTask s 0 2) (fld w 11 12) 64 32 = some (vecBytes op, [])
    ∧ vecLegal (vecBytes op) d (o 1) (o 2) (o 3) (o 4) = true ∧ usesB d.op = false ∧ usesC d.op = false
    ∧ (∃ va ∈ resolveOperand b 0 2 (o 1) 0, ∃ vo ∈ resolveOperand b 0 2 (o 4) 0,
        vecBoundsOk (issueTask s 0 2) d va VecSrc.absent VecSrc.absent vo = true)
    ∧ (issueQuire s 0 2).vec.lastBeat ≤ 102 ∧ DescClear s 0 2 (fld w 11 12) 64 32 := by
  simp only [Issues, ReadsReady, DescClear]; decide +kernel

/-- An entry of the active store for UPD op, its rule legal for it (R241 R246). -/
def layerBytes (rule : Nat) : List Byte := wds [(packFlds [(0, 3, rule), (16, 8, 7), (27, 4, if rule = 3 then 5 else 0)]).toNat]

/-- UPD with each operation, UGET of the last word, USTAT into an even pair: `UpdateEngine`. -/
theorem witness_UpdateEngine :
    (∀ p ∈ [(1, 0), (1, 1), (4, 2), (4, 3)], let w := ins 0x38 [(6, 4, if p.2 = 3 then 2 else 0), (10, 2, p.2), (12, 10, 1023), (22, 13, 0), (35, 13, 8191)]
      let s := running 0 [w, 0, 0, 0] (fun k => { k with mem := { k.mem with descActive := writeBytes [] (64 * 1023) (layerBytes p.1) } })
      let bs := readBytes (issueQuire s 0 0).mem.descActive (64 * fld w 12 10) 64
      Issues s 0 0 w 0x38 ∧ (p.2 ≠ 3 → fld w 6 4 = 0) ∧ layerOk bs (parseLayer bs) p.2 = true
      ∧ (issueTask s 0 0).blocksOk (fld w 22 13) (fld w 35 13 + 1) = true ∧ ReadsReady s 0 0 [2 * fld w 6 4]
      ∧ updClash (issueQuire s 0 0) 100 = false)
    ∧ (let w := ins 0x39 [(6, 5, 3), (11, 11, 1039), (22, 3, 7)]; Issues (at1 0 w []) 0 0 w 0x39 ∧ fld w 11 11 ≤ 1039
        ∧ UnitClear (at1 0 w []) 0 0 (wRD w))
    ∧ (let w := ins 0x3A [(6, 5, 30)];
      let s := updQ (at1 0 w []) 0 (fun k => { k with upd := { k.upd with runs := [{ x := 1, blocks := 1, adds := true }] } })
      Issues s 0 0 w 0x3A ∧ wRD w % 2 = 0 ∧ UnitClear s 0 0 (wRD w) ∧ UnitClear s 0 0 (wRD w + 1)
      ∧ (issueQuire s 0 0).upd.runs = [{ x := 1, blocks := 1, adds := true }]) := by
  simp only [Issues, ReadsReady, UnitClear]; decide +kernel

/-! ## Witnesses: the block, the quires' events -/

/-- A module with powered parts and nothing in flight, and one without power: `IdleTick`, `StepKeepsMemories`, `StepKeepsPoint`,
`StepKeepsReserved`. -/
theorem witness_IdleTick_StepKeeps :
    up.pending = [] ∧ up.pwr.powered = true ∧ up.still ∧ up.canonical ∧ up.pointLegal ∧ up.reservedZero ∧ (∃ t, step up = .next t)
    ∧ (after (exec .powerLoss up)).pending = [] ∧ (after (exec .powerLoss up)).pwr.powered = false := by
  refine ⟨rfl, rfl, ?_, ?_, ?_, ?_, ⟨_, rfl⟩, rfl, rfl⟩
  · simp only [State.still]; decide +kernel
  · simp only [State.canonical, Quire.canonical, QuireMem.canonical]; decide +kernel
  · simp only [State.pointLegal]; exact ⟨by decide, by decide, (fun r h => nomatch (show (none : Option Nat) = some r from h)), by decide⟩
  · simp only [State.reservedZero, Quire.reservedZero]; decide +kernel

/-- A finished set of task 0 whose drain begins in a lc: with a derivative stash where `deriv` is 2. -/
def drainAt (deriv start : Nat) : Drain :=
  { x := 90, task := 0, d := parseTile (wds [0, 0, 256 * deriv, 0]), scaleExp := 0, start := start, after := 0, destRow := 0
    biasRow := 0, derivRow := 0, tableRow := 0, scRow := 0, writesSc := false, stop := none, noTable := false, bias := [], stash := [], store := false, row := [], scales := [] }

/-- A drain due in the lc come to, without and with a stash; an idle bank; a corrected word: `DrainAndScrub`. -/
theorem witness_DrainAndScrub :
    (∀ deriv ∈ [0, 2], let s := updQ (at1 0 0 []) 0 (fun k => { k with array := { k.array with drains := [drainAt deriv 100] } })
      computeUp s = true ∧ (s.quires[(0 : Fin 64)]).seq.inRun = true ∧ lcPass (s.quires[(0 : Fin 64)]) = true
      ∧ (s.quires[(0 : Fin 64)]).array.drains = [drainAt deriv 100]
      ∧ 100 ≤ max (s.quires[(0 : Fin 64)]).seq.lc (s.quires[(0 : Fin 64)]).seq.winEnd
      ∧ ((s.quires[(0 : Fin 64)]).seq.tasks[(0 : Fin 4)]).live = true)
    ∧ (computeUp (catchUp up) = true ∧ ((catchUp up).quires[(63 : Fin 64)]).upsets = [])
    ∧ (∀ base ∈ [up, at1 0 0 []],
      let s := updQ base 0 (fun k => { k with upsets := [{ mem := 1, word := 77, bits := 1 }], bank := { k.bank with fixQueue := [(0, 3), (1, 77)] } })
      let b := catchUp s
      let k := b.quires[(0 : Fin 64)]
      let l := reachedLc (dieNow b) k
      computeUp b = true ∧ k.canonical ∧ k.upsets = [{ mem := 1, word := 77, bits := 1 }]
      ∧ k.bank.fixQueue = [(0, 3)] ++ (1, 77) :: [] ∧ (∀ p ∈ [((0 : Nat), (3 : Nat))], sameBank p.1 1 = false)
      ∧ portIdle k 1 l = true ∧ k.bank.fixNext[bankPort 1] ≤ l) := by
  simp only [Quire.canonical, QuireMem.canonical]; decide +kernel

/-- A read STREAM 0 or 256 instructions behind the PC: `ReadsAndWrites`. -/
theorem witness_ReadsAndWrites_ahead : ∀ n ∈ [0, 256],
    let s := running 0 (List.replicate n 0 ++ [wStream]) (fun k => updTask k 0 (fun tk => { tk with
      sdt := writeBytes [] 224 (wds [sdWord 0 2 0 8 1, 2560]) }))
    let b := catchUp s
    let k := b.quires[(0 : Fin 64)]
    let tk := settleLoads k.seq.lc k.seq.tasks[(0 : Fin 4)]
    let word := fun i : Nat => BitVec.ofNat 64 (readNum k.mem.prog (8 * (tk.codeBase + i)) 8)
    let d := parseStream (sdtEntry tk 7)
    computeUp b = true ∧ k.seq.inRun = true ∧ tk.live = true ∧ tk.codeValid = true ∧ n < tk.codeCount
    ∧ (∀ j < n, scanStops (fld (word j) 0 6) = false ∧ fld (word j) 0 6 ≠ 0x2C)
    ∧ word n = wStream ∧ d.dir = 0 ∧ k.stream.landings = [] ∧ d.ordered = false ∧ scanFits k tk (sdtEntry tk 7) d = true := by decide +kernel

/-- A pending landing of far memory, and writes at the edges of a buffer of quire 0: `ReadsAndWrites`. -/
theorem witness_ReadsAndWrites :
    (let s := withLandings [landing 0 [] true false] (at1 0 0 []);
      let b := catchUp s
      computeUp b = true ∧ (b.quires[(0 : Fin 64)]).stream.landings[(0 : Nat)]? = some (landing 0 [] true false)
      ∧ landingBlocked b 0 (landing 0 [] true false) = false)
    ∧ (∀ t ∈ [(0 : Fin 4), 1], let s := withWrites [write1 t 0] (at1 t 0 [])
      let b := catchUp { s with con := { s.con with xbCfg := s.con.xbCfg.set 9 (packFlds [(0, 27, 2), (27, 27, 1), (60, 1, 1)]) } }
      b.pwr.powered = true ∧ (b.quires[(0 : Fin 64)]).stream.writes[(0 : Nat)]? = some (write1 t 0)
      ∧ (write1 t 0).data.length = 512 * (write1 t 0).len ∧ farServed b 0 1 (write1 t 0).faddr 512 = true
      ∧ oldestWrite b 0 0 (write1 t 0) = true ∧ bufferOf b (write1 t 0).faddr = some 9) := by decide +kernel

/-- Task t held by a wait since tick n, its gathering halted in the layout of sixteen rings. -/
def holding (t : Fin 4) (since : Nat) : State :=
  let s := at1 t 0x2F []
  { s with
    con := { s.con with waitLimit := 16 }
    spine := { s.spine with layout := 0xFFFF }
    quires := Vector.ofFn (fun q : Fin 64 => if q.val ≤ 3 then { s.quires[q] with rstop := { s.quires[q].rstop with halted := true } } else s.quires[q])
  } |> (withWrites [write1 t 0] ·) |> (fun s => updT s 0 t (fun tk => { tk with state := .held, heldWord := some 0x2F, heldKind := .waitw, heldSince := since, heldCause := 7 }))

/-- A wait one tick over the limit, a throttle that is due, a met WAITW: `HaltsEnd`. -/
theorem witness_HaltsEnd :
    (∀ t ∈ [(0 : Fin 4), 3], let b := catchUp (holding t 483)
      computeUp b = true ∧ stillUnmet b 0 t = true
      ∧ ((b.quires[(0 : Fin 64)]).seq.tasks[t]).heldSince + max 16 (fld b.con.waitLimit 0 32) < tick b)
    ∧ (let s := at1 0 0 [];
      let b := catchUp { s with con := { s.con with throttled := [(0, 500)] } }
      b.con.throttled = [(0, 500)] ∧ 500 ≤ tick b)
    ∧ (let b := catchUp (withWrites [] (holding 0 499));
      computeUp b = true ∧ sameGathering b.spine.layout 3 0 = true
      ∧ (∀ c : Fin 64, sameGathering b.spine.layout 3 c = true →
        (b.quires[c]).rstop.halted = true ∧ (b.quires[c]).rstop.stalled = false ∧ (c ≠ 0 → heldAt b.quires[c] = none))
      ∧ heldAt (b.quires[(0 : Fin 64)]) = some 0x2F ∧ fld 0x2F 0 6 = 0x2F ∧ ((b.quires[(0 : Fin 64)]).seq.tasks[(0 : Fin 4)]).heldCause = 7
      ∧ (b.quires[(0 : Fin 64)]).stream.writes = []) := by decide +kernel

/-! ## Witnesses: links -/

/-- A message of 700 bytes received whole, and one of which 412 bytes have come. -/
def rxWhole : RxMsg := { num := 1, bytes := 700, first := 3, complete := true, spill := [(5000, 7)] }
def rxPart : RxMsg := { num := 9, bytes := 412, first := 7, complete := false, spill := [] }

/-- A flit in the send buffer. -/
def sentFlit (n : Nat) : SentFlit := { seq := BitVec.ofNat 16 n, body := flitBody (packFlds [(0, 4, 1), (4, 12, n), (30, 2, 3)]) [], tick := 60 }

/-- Link 2 up at x8 and mapped to port 3, with a send buffer and received messages; quire 0 has one message to send. -/
def linked (sent : List SentFlit) (rx : List RxMsg) (f : Link → Link) : State :=
  let s := withWrites [write1 0 2] (at1 0 0 [])
  { s with
    links := s.links.set 2 (f { Link.reset with
      state := 2, width := 3, required := true, port := 3, txSeq := 4095, rxSeq := 4095, unacked := sent, ackOwed := some 499, heardTick := 492 })
    ports := s.ports.set 3 { Port.reset with
      phys := 2, sendValid := true, rxSize := 262144, credit := 1, head := 511, rx := rx, tx := [{ num := 1, bytes := 232, tick := 400, lastSeq := 4 }] } }

/-- A message to accept with just enough credit, one to land: `Messages`. -/
theorem witness_Messages :
    (let b := catchUp (linked [] [rxWhole] id);
      b.ports[(3 : Fin 26)].phys.toNat = 2 ∧ waitingMessage b 3 = some (0, 0, write1 0 2) ∧ (write1 0 2).data.length = 512 * (write1 0 2).len
      ∧ linkIsUp b 2 = true ∧ computeRuns b = true ∧ (write1 0 2).len ≤ b.ports[(3 : Fin 26)].credit
      ∧ b.links[(2 : Fin 26)].unacked.length + ceilDiv (write1 0 2).data.length 232 ≤ 1024
      ∧ ∀ x : Fin 26, x ≠ 3 → b.ports[x].phys.toNat ≠ 2)
    ∧ (let s := linked [] [rxWhole] id;
      s.pwr.powered = true ∧ s.ports[(3 : Fin 26)].rx = rxWhole :: [] ∧ rxWhole.complete = true) := by decide +kernel

/-- A fold that the kernel evaluates step by step. -/
def force {α : Type} (n : Nat) (k : Nat → α) : α := match n with | 0 => k 0 | m + 1 => k (m + 1)

def foldS (f : Nat → Byte → Nat) : Nat → List Byte → Nat
  | a, [] => a
  | a, b :: bs => force (f a b) (fun x => foldS f x bs)

def synS (bs : List Byte) : List Nat := (List.range 16).map (fun i => foldS (fun a b => gfMul a (gfExp i) ^^^ b.toNat) 0 bs)

theorem synS_eq (bs : List Byte) : rsSyndromes bs = synS bs := by
  have h : ∀ (f : Nat → Byte → Nat) (bs : List Byte) (a : Nat), foldS f a bs = bs.foldl f a := by
    intro f bs
    induction bs with
    | nil => intro a; rfl
    | cons b bs ih =>
      intro a
      have e : ∀ n, force n (fun x => foldS f x bs) = foldS f n bs := fun n => by cases n <;> rfl
      exact (e _).trans (ih _)
  simp only [rsSyndromes, synS, h]

theorem decodes {bs : List Byte} (h : synS bs = List.replicate 16 0) : decodeFlit bs = some (bs, 0) := by
  simp only [decodeFlit, synS_eq, h]; rfl

/-- Flits whose data bytes are 0: CTRL with all credit, HEARTBEAT with an acknowledgement of 4, CTRL with NAK, the first and the
last DATA flit of message 9 with SEQ 4095 and 100 bytes, and a FAULT flit, each with the parity bytes of R366. -/
def flitBytes (i : Fin 6) : List Byte :=
  let h : List Byte := #v[[2, 0, 0, 0, 0, 255, 15, 0], [0, 0, 4, 16, 0, 0, 0, 0], [2, 0, 0, 32, 0, 0, 0, 0], [241, 255, 0, 64, 100, 0, 144, 0],
    [241, 255, 0, 128, 100, 0, 144, 0], [4, 0, 0, 0, 0, 0, 0, 0]][i]
  let p : List Byte := #v[[68, 174, 81, 67, 120, 4, 177, 134, 14, 97, 232, 100, 204, 62, 159, 207],
    [51, 141, 129, 9, 165, 211, 110, 66, 8, 43, 133, 48, 69, 105, 155, 89],
    [27, 246, 76, 64, 17, 231, 84, 53, 38, 179, 38, 64, 63, 17, 247, 126],
    [26, 29, 224, 195, 225, 82, 43, 241, 238, 188, 23, 18, 141, 152, 51, 134],
    [64, 19, 85, 94, 135, 58, 206, 79, 58, 49, 195, 143, 15, 254, 59, 147], [0, 0, 0, 0, 0, 0, 0, 0, 0, 0, 0, 0, 0, 0, 0, 4]][i]
  h ++ List.replicate 232 0 ++ p

/-- Each of them is a code word (R366). -/
theorem test_decodeFlit : ∀ i, (flitBytes i).length = 256 ∧ decodeFlit (flitBytes i) = some (flitBytes i, 0) := by
  have h : ∀ i, (flitBytes i).length = 256 ∧ synS (flitBytes i) = List.replicate 16 0 := by decide +kernel
  exact fun i => ⟨(h i).1, decodes (h i).2⟩

/-- 256 equal bytes are none that the code corrects. -/
theorem test_decodeFlit_none : decodeFlit (List.replicate 256 7) = none := by
  have h : rsSyndromes (List.replicate 256 7) = 0 :: List.replicate 15 7 := (synS_eq _).trans (by decide +kernel)
  simp only [decodeFlit, h]
  decide +kernel

/-- The flits of `test_decodeFlit` as they come: CTRL with credit, HEARTBEAT with an acknowledgement, CTRL with NAK, the first and the
last DATA flit of a message that ends at the ring's end: `FlitsTaken`. -/
theorem witness_FlitsTaken :
    (let s := linked [sentFlit 4, sentFlit 5] [] id;
      linkIsUp s 2 = true ∧ portOn s 2 = some 3 ∧ s.links[(2 : Fin 26)].unacked = [] ++ sentFlit 4 :: [sentFlit 5]
      ∧ (sentFlit 4).seq.toNat = fld (flitHeader (flitBytes 1)) 16 12 ∧ faultFilled s 2 = false
      ∧ (flitType (flitBytes 0) = 2 ∧ bit (flitHeader (flitBytes 0)) 28 = false ∧ bit (flitHeader (flitBytes 0)) 29 = false)
      ∧ (flitType (flitBytes 1) = 0 ∧ bit (flitHeader (flitBytes 1)) 28 = true ∧ bit (flitHeader (flitBytes 1)) 29 = false)
      ∧ (flitType (flitBytes 2) = 2 ∧ bit (flitHeader (flitBytes 2)) 28 = false ∧ bit (flitHeader (flitBytes 2)) 29 = true))
    ∧ (∀ p ∈ [((3 : Fin 6), [rxWhole], 0), (4, [rxWhole, rxPart], 412)],
      let h := flitHeader (flitBytes p.1)
      let s := linked [] p.2.1 id
      linkIsUp s 2 = true ∧ portOn s 2 = some 3 ∧ flitType (flitBytes p.1) = 1 ∧ bit h 28 = false ∧ bit h 29 = false ∧ s.bind.latch = false
      ∧ fld h 4 12 = s.links[(2 : Fin 26)].rxSeq.toNat ∧ s.ports[(3 : Fin 26)].rx = p.2.1 ∧ rxWhole.complete = true ∧ rxPart.complete = false
      ∧ bit h 30 = decide (p.1 = 3) ∧ fld h 32 8 = 100
      ∧ 512 * s.ports[(3 : Fin 26)].head + p.2.2 + 100 ≤ min 262144 s.ports[(3 : Fin 26)].rxSize) := by decide +kernel

/-- A flit that does not decode (`test_decodeFlit_none`), a DATA flit out of sequence, one on the fault path, a FAULT flit:
`FlitsRefused`. -/
theorem witness_FlitsRefused :
    let s := linked [] [] id
    let t := { s with links := s.links.set 2 { s.links[(2 : Fin 26)] with rxSeq := 4094 } }
    linkIsUp s 2 = true ∧ portOn s 2 = some 3
    ∧ (flitType (flitBytes 3) = 1 ∧ t.bind.latch = false ∧ fld (flitHeader (flitBytes 3)) 4 12 ≠ t.links[(2 : Fin 26)].rxSeq.toNat)
    ∧ flitType (flitBytes 4) = 1 ∧ ({ s with bind := { s.bind with latch := true } } : State).bind.latch = true
    ∧ flitType (flitBytes 5) = 4 ∧ bit (flitHeader (flitBytes 5)) 28 = false ∧ bit (flitHeader (flitBytes 5)) 29 = false := by decide +kernel

/-- The fault that set the latch. -/
def raised7 : Raised := { cls := 7, quire := some 0, link := 0, originClass := 0, originId := 0, tick := 400 }

/-- Each timer of a link in the first tick in which it has run out: `LinkTimers`. -/
theorem witness_LinkTimers :
    (let s := linked [sentFlit 4] [rxPart] id;
      let k := s.links[(2 : Fin 26)]
      linkIsUp s 2 = true ∧ portOn s 2 = some 3 ∧ k.required = true ∧ computeRuns s = true ∧ (∃ x ∈ k.unacked, x.tick + 2 ≤ tick s)
      ∧ k.ackOwed = some 499 ∧ 499 + 1 ≤ tick s ∧ k.sentTick + 1 ≤ tick s ∧ k.heardTick + 8 ≤ tick s
      ∧ s.ports[(3 : Fin 26)].phys.toNat = 2 ∧ (∃ m ∈ s.ports[(3 : Fin 26)].tx, m.tick + (4 + ceilDiv m.bytes 116000) + 1 < tick s)
      ∧ rxPart ∈ s.ports[(3 : Fin 26)].rx ∧ rxPart.complete = false ∧ rxPart.first + (4 + ceilDiv 65536 116000) < tick s)
    ∧ (let s := linked [] [] (fun k => { k with faultTick := some 484 });
      let s := { s with bind := { s.bind with latch := true, firstFault := some raised7 } }
      s.bind.latch = true ∧ s.bind.firstFault = some raised7 ∧ raised7.cls ≠ 5 ∧ s.links[(2 : Fin 26)].faultTick = some 484
      ∧ 484 + 16 ≤ tick s ∧ s.links[(2 : Fin 26)].sentTick + 1 ≤ tick s)
    ∧ (let s := linked [] [] id;
      let s := { s with clk := { s.clk with inLoss := true, lossTick := 10, stitch := 1010 } }
      s.links[(2 : Fin 26)].required = true ∧ computeRuns s = true ∧ s.clk.inLoss = true ∧ tick s = s.clk.lossTick + 1000
      ∧ s.bind.raised = []) := by decide +kernel

/-- A link that is up, one that trains, the tick of the background training, a TRAIN flit on a required link that agrees with the
topology and one that does not: `LinkTraining`. -/
theorem witness_LinkTraining :
    (let s := linked [] [] id;
      bandOn s 2 = true ∧ s.clk.present = true ∧ s.bind.held = false ∧ s.links[(2 : Fin 26)].state ≠ 1
      ∧ s.links[(2 : Fin 26)].disabled = false)
    ∧ (∀ state ∈ [1, 2], ∀ peer ∈ [0, 1], let s := linked [] [] (fun k => { k with state := state })
      let s := { s with bind := { s.bind with topoLoaded := true } }
      bandOn s 2 = true ∧ s.links[(2 : Fin 26)].state = state ∧ portOn s 2 = some 3 ∧ s.bind.topoLoaded = true
      ∧ s.links[(2 : Fin 26)].required = true ∧ computeRuns s = true
      ∧ (BitVec.ofNat 32 peer = s.ports[(3 : Fin 26)].peerId ∧ 0 = s.ports[(3 : Fin 26)].peerPort ∧ 0 = s.bind.job ↔ peer = 0))
    ∧ (let s := { up with clk := { up.clk with stitch := 100000 } }; s.pwr.powered = true ∧ tick s ≠ 0 ∧ tick s % 100000 = 0) := by
  decide +kernel

/-! ## Witnesses: fault path, clock root, power -/

/-- A raised fault of a quire, and the state in which it waits. -/
def raisedNow (latch : Bool) : State :=
  let s := at1 0 0 []
  { s with bind := { s.bind with raised := [raised7], latch := latch } }

/-- A slot whose parity goes wrong on its way, injected by quire 60 while no quire runs. -/
def slot60 : Slot :=
  { back := false, origin := 60, t0 := 0, kind := 2, fmt := 0, ret := false, seq := 0, payload := [], scales := [], born := 0, left := none }

/-- The slot on the spine of sixteen folios without a splice, the latch set; site `fenced` of folio 15 fenced. -/
def slotState (fenced : Nat) : State :=
  { up with bind := { up.bind with latch := true, fenceMap := BitVec.ofNat 64 (fenced * 2 ^ 45) }, spine := { up.spine with slots := [slot60] } }

/-- Of three faults the trip of the oldest tick, before a memory error of the tick and a trip of a later one, without and with the
latch set; a slot at an enabled site, and at the stops beside a fenced one: `FaultReachesLatch`. -/
theorem witness_FaultReachesLatch :
    (∀ latch ∈ [false, true], let b := catchUp (raisedNow latch)
      b.pwr.powered = true ∧ b.bind.raised = raised7 :: [] ∧ b.bind.latch = latch ∧ b.bind.resetTick = none)
    ∧ (let b := catchUp (slotState 4);
      computeUp b = true ∧ b.bind.latch = true ∧ fld b.bind.fenceMap 45 3 = 4
      ∧ (60 : Fin 64).val / 4 = 15 ∧ (60 : Fin 64).val % 4 = 0 ∧ slotPasses b 60 false 0 = true
      ∧ slotPasses b 63 false 1 = true) := by decide +kernel

/-- A powered module in which nothing is in flight: without and with a raised fault, the latch set and not, no link up and no task
running; the sites of a folio, enabled and fenced; an opcode that the map does not list, and a fetch past the last instruction, at
their issue: `FaultPathCompletes`. -/
theorem witness_FaultPathCompletes :
    (up.still ∧ up.pwr.powered = true ∧ up.bind.raised = [] ∧ up.bind.latch = false
      ∧ (∀ (q : Fin 64) (t : Fin 4), ((up.quires[q]).seq.tasks[t]).live = false) ∧ ∀ l : Fin 26, linkIsUp up l = false)
    ∧ (let s := slotState 4;
      s.still ∧ s.pwr.powered = true ∧ s.bind.raised = [] ∧ s.bind.latch = true ∧ computeUp s = true ∧ fld s.bind.fenceMap 45 3 = 4
      ∧ (∀ q : Fin 64, ¬ (q.val / 4 = 15 ∧ (if q.val % 4 < 4 then q.val % 4 else q.val % 4 + 1) = 4))
      ∧ (60 : Fin 64).val / 4 = 15 ∧ (60 : Fin 64).val % 4 = 0
      ∧ (∀ t : Fin 4, ((s.quires[(60 : Fin 64)]).seq.tasks[t]).live = false) ∧ slotPasses s 60 false 0 = true)
    ∧ (∀ code ∈ [[0x3F], []], let b := running 0 code id
      let s := { b with bind := { b.bind with latch := true } }
      s.still ∧ s.bind.raised = [] ∧ s.bind.latch = true ∧ comesToIssue s 0 0 = true
      ∧ if code = [] then fetchWord s.quires[(0 : Fin 64)] 0 = none
        else fetchWord s.quires[(0 : Fin 64)] 0 = some 0x3F ∧ opcodeListed (fld 0x3F 0 6) = false) := by
  simp only [State.still]; decide +kernel

/-- An incident of two held records and the sixteen latest. -/
def incident18 : Incident :=
  { firstStitch := 5, held := [List.replicate 32 1, List.replicate 32 2], latest := List.replicate 16 (List.replicate 32 3), dropped := 2, lastStitch := 8 }

/-- The latch set and nothing recorded, a running firmware, an incident with just enough room in its ring: `FaultRecorded`,
`RecordsComplete`. -/
theorem witness_FaultRecorded :
    (let s := raisedNow true;
      let s := { s with bind := { s.bind with firstFault := some raised7 } }
      firmwareRuns s = true ∧ s.bind.latch = true ∧ bit s.bind.faultInfo 0 = false ∧ s.bind.firstFault = some raised7
      ∧ s.host.dbOutMask.toNat.testBit 5 = true ∧ s.host.dbOut.toNat.testBit 5 = false ∧ s.trace.alarmPend = [])
    ∧ (let s := { up with trace := { up.trace with
        incident := up.trace.incident.set 15 (some incident18), ptr := up.trace.ptr.set 15 (packFlds [(0, 16, 0x7FC0 + 0x8010), (16, 16, 0x8010)]) } };
      s.trace.incident[(15 : Fin 16)] = some incident18 ∧ s.pwr.powered = true ∧ s.pwr.on.toNat.testBit 13 = true
      ∧ (fld s.trace.ptr[(15 : Fin 16)] 0 16 + 65536 - fld s.trace.ptr[(15 : Fin 16)] 16 16) % 65536 + 64 ≤ 32768
      ∧ incident18.held.length + incident18.latest.length ≤ 32 ∧ Mem.wf s.far = true
      ∧ ∀ r ∈ incident18.held ++ incident18.latest, r.length = 32) := by decide +kernel

/-- The clock root with a change pending to index 2. -/
def clocked (f : Clk → Clk) : State := { up with clk := f { up.clk with target := 2, lossTick := 400 } }

/-- Stretches outside a run, a writable DROOP_CFG, a pending change at its kettle count, losses, expiry and return: `ClockRoot`. -/
theorem witness_ClockRoot :
    (let b := catchUp up;
      b.pwr.powered = true ∧ b.pwr.on.toNat.testBit 29 = true ∧ (∀ q ∈ gatheringQuires b 60, (b.quires[q]).seq.inRun = false)
      ∧ mainView up = true)
    ∧ (let s := clocked (fun c => { c with opPending := true, kettle := 500 });
      s.pwr.powered = true ∧ s.clk.opPending = true ∧ s.clk.kettle.toNat ≤ tick s ∧ s.clk.pendSource = none ∧ s.bind.resetTick = none
      ∧ s.clk.present = true)
    ∧ (let s := clocked id; s.clk.present = true ∧ s.clk.opPending = false)
    ∧ (let s := clocked (fun c => { c with source := 1, present := false, inLoss := true });
      s.clk.source = 1 ∧ s.clk.lossTick + 100 ≤ tick s ∧ s.clk.pendSource = none ∧ s.clk.present = false ∧ s.clk.inLoss = true) := by
  decide +kernel

/-- Samples that bring the 100-tick average just above each limit and not, a sustained excess of 10,000 ticks, temperatures at the trip and below, a request that a
required link keeps, a domain that has come up: `PowerAndThermal`. -/
theorem witness_PowerAndThermal :
    (let s := { up with
        pwr := { up.pwr with overSince := some 10000, samples := List.replicate 99 (3200 * 65536), starting := [(4, 20000)] }
        clk := { up.clk with stitch := 20000 } };
      let above := fun (watts fraction limit : BitVec 16) =>
        65536 * 100 * limit.toNat < ((((watts ++ fraction) :: s.pwr.samples).take 100).map (·.toNat)).sum
      s.pwr.powered = true ∧ s.pwr.sampled = false ∧ above 43200 1 s.pwr.peakLimit ∧ ¬ above 43200 0 s.pwr.peakLimit ∧ above 3200 1 s.pwr.sustLimit
      ∧ ¬ above 3200 0 s.pwr.sustLimit ∧ s.pwr.overSince = some 10000 ∧ 10000 + 10000 ≤ tick s ∧ (4, 20000) ∈ s.pwr.starting ∧ 20000 ≤ tick s)
    ∧ (Instr.thermalTrip 23 840 = .thermalTrip 23 840 ∧ (840 : BitVec 16).toInt = 840 ∧ ¬ (840 : Int) ≤ (839 : BitVec 16).toInt)
    ∧ mainView (linked [] [] id) = true := by decide +kernel

/-- A boot that meets nothing wrong. -/
def env : BootEnv :=
  { imageOk := true, colophonReadable := true, colophonSigned := true, keyOk := true, selftestFail := none, mcFail := 0, reference := true
    lanes := Vector.replicate 26 0xFF, bootMs := 1000 }

/-- An image of one page (R457). -/
def page : List Byte := bytesLE 4 0x574D4946 ++ bytesLE 4 3 ++ bytesLE 4 4096 ++ List.replicate 4084 0

/-- The recovery path with a page loaded. -/
def recovering : State := { up with far := writeBytes [] 0x9_0000_0000 page, host := { up.host with recovery := true } }

/-- An unpowered module with a good image and colophon, one whose image fails, the recovery path: `PowerCycle`. -/
theorem witness_PowerCycle :
    (let s := after (exec .powerLoss up);
      s.pwr.powered = false ∧ env.imageOk = true ∧ flashGood s.flash = true ∧ env.reference = true ∧ env.colophonReadable = true
      ∧ env.colophonSigned = true ∧ env.selftestFail = none ∧ env.mcFail = 0 ∧ limitsAgree s.flash.colophon = true
      ∧ fencingOk s.flash.colophon = true ∧ repairsOk s.flash.colophon = true ∧ ({ env with imageOk := false }.imageOk && flashGood s.flash) = false)
    ∧ (hostReach recovering = true ∧ recovering.host.recovery = true ∧ bit 0x101 0 = true ∧ 1 ≤ fld 0x101 8 13 ∧ fld 0x101 8 13 ≤ 3072
      ∧ imageShape ((readBytes recovering.far 0x9_0000_0000 (4096 * fld 0x101 8 13)).take
          (numAt (readBytes recovering.far 0x9_0000_0000 (4096 * fld 0x101 8 13)) 8 4)) = true) := by decide +kernel

/-! ## Witnesses: host interface -/

/-- PERST_N asserted and released: `HostLink`. The edges of a BAR4 segment, requests at and beyond the end of BAR0, one of two bytes:
`HostWindows`. -/
theorem witness_HostLink_HostWindows :
    (let s := { up with host := { up.host with perst := true } }; s.host.perst = true)
    ∧ (up.pwr.powered = true ∧ up.host.linkUp = true ∧ up.host.perst = false ∧ hostReach up = true ∧ up.host.recovery = false)
    ∧ (∀ off ∈ [3 * 2 ^ 32, 4 * 2 ^ 32 - 2], 3 * 2 ^ 32 ≤ off ∧ off + [(1 : Byte), 2].length ≤ (3 + 1) * 2 ^ 32)
    ∧ (¬ 2 ^ 26 - 4 + 8 ≤ 2 ^ 26) ∧ (2 ^ 26 - 8 + 8 ≤ 2 ^ 26 ∧ (2 ≠ 4 ∧ 2 ≠ 8) ∧ (2 ^ 26 - 4) % 8 ≠ 0) := by decide +kernel

/-- Bells 0, 3, 4, 7, 8 and 31, open and held, and masks that open nothing or one ring bell: `HostBells`. -/
theorem witness_HostBells :
    (mainView up = true ∧ up.pwr.powered = true ∧ firmwareRuns up = true ∧ up.host.dbInMask = 0
      ∧ (∀ r : Fin 4, ringFill up r ≤ ringSize up r))
    ∧ (let s := { up with host := { up.host with dbInMask := 0x8000_000F } };
      ∀ n ∈ [(0 : Fin 32), 3, 31], (n.val < 4 ∨ 8 ≤ n.val) ∧ s.host.dbInMask.toNat.testBit n.val = true)
    ∧ (let b := at1 0 0 []; let s := { b with mbox := { b.mbox with route := b.mbox.route.set 31 1 } };
      s.host.dbInMask.toNat.testBit 31 = false ∧ ∀ q : Fin 64, s.mbox.route[(31 : Fin 32)].toNat.testBit q.val = true → quireDeaf s q = false)
    ∧ up.host.dbIn &&& up.host.dbInMask &&& ~~~ 0xFFFF_FFFF = 0
    ∧ (let s := { up with host := { up.host with dbIn := 8, dbInMask := 8 } };
      (3 : Fin 32).val = (3 : Fin 4).val ∧ s.host.dbIn = 1#32 <<< 3 ∧ s.host.dbInMask = 1#32 <<< 3 ∧ ringFill s 3 ≤ ringSize s 3) := by
  decide +kernel

/-- A quire that has rung bell n in tick 480. -/
def rung (n : Fin 32) : State := updQ up 5 (fun k => { k with dbFromQuire := 1#32 <<< n.val, dbFromSince := k.dbFromSince.set n 480 })

/-- Bells 7, 8 and 31 of a quire, a clear of the bits the tick began with, an open vector, masks and timeouts: `OutwardBells`. -/
theorem witness_OutwardBells :
    (mainView up = true ∧ ∀ n ∈ [(7 : Fin 32), 8, 31],
      let k := (rung n).quires[(5 : Fin 64)]
      k.dbFromQuire = 1#32 <<< n.val ∧ fld k.qmask 0 32 = 0 ∧ (rung n).host.dbOutMask.toNat.testBit n.val = true
      ∧ (rung n).host.dbOut.toNat.testBit n.val = false ∧ tick (rung n) = k.dbFromSince[n] + 20 ∧ k.dbToQuire.toNat.testBit 7 = false)
    ∧ (let s := { up with w1c := [(0x30058, 0x101)] };
      (0x30058, BitVec.ofNat 64 (0x101 : BitVec 32).toNat) ∈ s.w1c
      ∧ ∀ p ∈ s.w1c, p.1 = 0x30058 → p.2 = BitVec.ofNat 64 (0x101 : BitVec 32).toNat)
    ∧ (let s := { up with host := { up.host with msixPending := 0x8000_0000, dbOut := 0x8000_0000, dbOutMask := 0 } };
      s.host.msixPending.toNat.testBit 31 = true ∧ s.host.dbOut.toNat.testBit 31 = true ∧ s.host.dbOutMask.toNat.testBit 31 = false)
    ∧ (let s := { up with host := { up.host with dbOut := 1, dbOutMask := 1 } };
      s.host.dbOutMask = 1#32 <<< 0 ∧ s.host.dbOut = 1#32 <<< 0 ∧ s.host.msixPending = 0 ∧ hostDeaf s = false)
    ∧ (let k := up.quires[(5 : Fin 64)]; fld (k.qmask &&& ~~~ 0) 32 32 = 0 ∧ k.dbFromQuire &&& ~~~ (BitVec.ofNat 32 (fld 0 0 32)) = 0)
    ∧ (let s := updQ up 5 (fun k => { k with dbToQuire := 0x100, dbToSince := k.dbToSince.set 8 480 });
      let k := s.quires[(5 : Fin 64)]
      k.dbToQuire.toNat.testBit 8 = true ∧ (fld k.qmask 32 32).testBit 8 = false ∧ tick s = k.dbToSince[(8 : Fin 32)] + 20) := by
  decide +kernel

/-- The register space of a module that runs, SMBus from stage 3 on and before it: `HostRegisters`, `Sideband`. -/
theorem witness_HostRegisters_Sideband :
    (mainView up = true ∧ mainView (catchUp up) = true ∧ windowsOpen (catchUp up) = true)
    ∧ (let s := { up with bind := { up.bind with stage := 3, alertN := true } };
      s.pwr.powered = true ∧ 3 ≤ s.bind.stage ∧ s.host.recovery = false ∧ (s.bind.faultN = true ∨ s.bind.alertN = true))
    ∧ (let s := { up with bind := { up.bind with stage := 2 } }; s.bind.stage < 3) := by decide +kernel

/-! ## Witnesses: commands -/

/-- A packet with flags and parameters. -/
def pkt (flags : Nat) (ps : List Nat) : Packet :=
  { flags := BitVec.ofNat 8 flags, tag := 7, rsvd := 0, p := Vector.ofFn (fun i => BitVec.ofNat 64 ((ps[i.val]?).getD 0)) }

/-- The packet stands in the last entry of ring r, which has 64. -/
def queued (r : Fin 4) (op : Nat) (k : Packet) (s : State) : State :=
  { s with
    far := writeBytes s.far (0x5000 + 64 * 63) (packetBytes op k)
    host := { s.host with
      ringCfg := s.host.ringCfg.set r 0x561, ringPtr := s.host.ringPtr.set r (packFlds [(0, 16, 0xFFC0), (16, 16, 0xFFBF)])
      active := s.host.active.set r true } }

/-- A START_TASK of ring r is in progress. -/
def busy (r : Fin 4) (s : State) : State :=
  { s with bind := { s.bind with cmds := [Cmd.ofPacket r 0x05 (pkt 0 []) none false false 3 0xFFBE] } }

/-- A ring without the packet, one whose turn is over, a reserved flag, a fence behind a command of the ring: `PacketsTaken`. -/
theorem witness_PacketsTaken :
    (∀ op ∈ [0x00, 0x10], ¬ Takes (queued 0 op (pkt 0 [1]) up) 0 op (pkt 0 [])
      ∧ ¬ Takes (queued 0 op (pkt 0 []) { up with host := { up.host with turn := 2 } }) 0 op (pkt 0 []))
    ∧ (∀ op ∈ [0x00, 0x05, 0x0D, 0x10], let s := queued 0 op (pkt 0x80 []) up
      Takes s 0 op (pkt 0x80 []) ∧ Unfenced s 0 op (pkt 0x80 []) ∧ firstCheck s op 0 (pkt 0x80 []) = some 3)
    ∧ (let s := queued 0 0x0E (pkt 1 []) (busy 0 up);
      Takes s 0 0x0E (pkt 1 []) ∧ pktFenced (pkt 1 []) = true
      ∧ ∃ d ∈ s.bind.cmds, d.ring = 0 ∧ d.mute = false ∧ d.before (commandOf s 0 0x0E (pkt 1 []) none) = true) := by
  simp only [Takes, Unfenced]; decide +kernel

/-- Every report to far memory and one to host memory, READ_TELEMETRY of one and of 512 registers: `ReportCommands`. -/
theorem witness_ReportCommands :
    Starts (queued 3 0x00 (pkt 0 []) up) 3 0x00 (pkt 0 [])
    ∧ (let k := pkt 0 [0x10000]; Starts (queued 3 0x01 k up) 3 0x01 k ∧ k.p[0].toNat % 512 = 0 ∧ k.p[0].toNat + 512 ≤ 48 * 2 ^ 30)
    ∧ (let k := pkt 2 [64]; Starts (queued 3 0x01 k up) 3 0x01 k ∧ pktHost k = true ∧ k.p[0].toNat % 64 = 0
        ∧ (workState (queued 3 0x01 k up) 3).host.perst = false ∧ (workState (queued 3 0x01 k up) 3).host.linkUp = true)
    ∧ (∀ n ∈ [1, 512], let k := pkt 0 [0x10000, n, 0x20000]
      let b := workState (queued 1 0x0A k up) 1
      Starts (queued 1 0x0A k up) 1 0x0A k ∧ 1 ≤ k.p[1].toNat ∧ k.p[1].toNat ≤ 512 ∧ ∀ c ∈ b.far, c.1 < 0x10000)
    ∧ (let k := pkt 0 [1, 2, 3, 4, 0x10000, 1024]; Starts (queued 0 0x10 k up) 0 0x10 k ∧ 1024 ≤ k.p[5].toNat) := by
  simp only [Starts, Takes, Unfenced]; decide +kernel

/-- The last slot of one quire and every slot of all: `LedgerCommand`. -/
theorem witness_LedgerCommand : ∀ x ∈ [(63, 255, 1), (256, 0, 256)],
    let k := pkt 0 [x.1 + 65536 * x.2.1 + 2 ^ 24 * x.2.2, 0x10000]
    Starts (queued 0 0x09 k up) 0 0x09 k ∧ pktHost k = false ∧ namedQuires k.p[0] = some (if x.1 = 63 then [63] else allQuires)
    ∧ 1 ≤ fld k.p[0] 24 9 ∧ fld k.p[0] 16 8 + fld k.p[0] 24 9 ≤ 256 ∧ k.p[1].toNat % 512 = 0
    ∧ Mem.wf (workState (queued 0 0x09 k up) 0).far = true := by
  simp only [Starts, Takes, Unfenced]; decide +kernel

/-- The header of a binary of two instructions at index 8,190 (R438); with PER_QUIRE or FILLER, as many as `code` bytes. -/
def binary (flags code : Nat) : List Byte :=
  let h := bytesLE 4 0x4E425A46 ++ bytesLE 2 0x200 ++ bytesLE 2 flags ++ bytesLE 2 8190 ++ bytesLE 2 2 ++ List.replicate 20 0 ++ bytesLE 8 (4096 + code)
    ++ List.replicate 24 0 ++ (List.range 4).flatMap (fun _ => bytesLE 4 0x91849184)
  h ++ List.replicate (4096 + code - h.length) 0

/-- FW_UPDATE, a main binary, one image per quire, a filler, SET_STEP: `StoreCommands`. -/
theorem witness_StoreCommands :
    (let k := pkt 0 [0x20000, 4096];
      let s := queued 0 0x0F k { up with far := writeBytes [] 0x20000 page }
      Starts s 0 0x0F k ∧ pktHost k = false ∧ numAt (readBytes (workState s 0).far 0x20000 12) 0 4 = 0x574D4946
      ∧ numAt (readBytes (workState s 0).far 0x20000 12) 8 4 = 4096 ∧ (workState s 0).bind.cmds = [])
    ∧ (∀ x ∈ [(0, 16), (1, 1024), (2, 16)], let k := pkt 0 [0x20000, 4096 + x.2, x.1 / 2]
      let s := queued 0 0x02 k { up with far := writeBytes [] 0x20000 (binary x.1 x.2) }
      Starts s 0 0x02 k ∧ 4096 ≤ k.p[1].toNat ∧ pktHost k = false ∧ k.p[0].toNat % 512 = 0 ∧ k.p[0].toNat + k.p[1].toNat ≤ 48 * 2 ^ 30
      ∧ loadCheck (workState s 0) (readBytes (workState s 0).far k.p[0].toNat k.p[1].toNat) k.p[1].toNat (bit k.p[2] 0) = none)
    ∧ (let k := pkt 0 [55, 48 * 2 ^ 30 - 66560];
      Starts (queued 0 0x07 k up) 0 0x07 k ∧ k.p[1].toNat % 512 = 0 ∧ k.p[1].toNat + 66560 ≤ 48 * 2 ^ 30
      ∧ Mem.wf (workState (queued 0 0x07 k up) 0).far = true) := by
  simp only [Starts, Takes, Unfenced]; decide +kernel

/-- Both transfers of the last row of each target of quire 63, and of one row of all quires: `RegionCommands`. -/
theorem witness_RegionCommands :
    (∀ op ∈ [0x03, 0x04], ∀ x ∈ [(63, 0, 1023), (63, 1, 511), (63, 2, 511), (63, 3, 32767), (63, 4, 32767), (63, 5, 65535), (63, 6, 1023), (256, 0, 0)],
      let k := pkt 0 [x.1 + 65536 * x.2.1, x.2.2 + 2 ^ 32, 0x100000, 512]
      Starts (queued 0 op k up) 0 op k ∧ namedQuires k.p[0] = some (if x.1 = 63 then [63] else allQuires) ∧ fld k.p[0] 16 3 = x.2.1
      ∧ fld k.p[1] 32 17 = 1 ∧ fld k.p[1] 0 17 + 1 ≤ ([1024, 512, 512, 32768, 32768, 65536, 1024][x.2.1]?).getD 0)
    ∧ (let b := workState (queued 0 3 (pkt 0 [256, 2 ^ 32, 0x100000, 512]) up) 0;
      b.canonical ∧ (∀ q : Fin 64, b.quires[q].upsets = [] ∧ ∀ t : Fin 4, ((b.quires[q]).seq.tasks[t]).live = false)) := by
  simp only [Starts, Takes, Unfenced, State.canonical, Quire.canonical, QuireMem.canonical]; decide +kernel

/-- START_TASK of one instruction at the last index on one quire and on all, RUN_UPDATE at the last entry: `TaskCommands`. -/
theorem witness_TaskCommands :
    ∀ x ∈ [(0x05, 63 + 1024 * 3 + 65536 * 8191 + 2 ^ 32), (0x05, 256 + 65536 * 8191 + 2 ^ 32), (0x08, 15)],
      let k := pkt 0 [x.2, 1024 * 1024 + 512 * 2 ^ 30 + 512 * 2 ^ 49, 8192 * 65536, 786432 * 2 ^ 20]
      let s := queued 0 x.1 k { up with bind := { up.bind with entries := up.bind.entries.set 15 (packFlds [(0, 13, 8191), (16, 14, 1)]) } }
      let b := workState s 0
      Starts s 0 x.1 k ∧ b.still ∧ b.bind.loaded ≠ 0 ∧ fld b.bind.entries[(15 : Fin 16)] 0 13 + fld b.bind.entries[(15 : Fin 16)] 16 14 ≤ 8192
      ∧ fld k.p[1] 0 10 + fld k.p[1] 10 11 ≤ 1024 ∧ fld k.p[1] 21 9 + fld k.p[1] 30 10 ≤ 512 ∧ fld k.p[1] 40 9 + fld k.p[1] 49 10 ≤ 512
      ∧ fld k.p[2] 0 14 + fld k.p[2] 16 14 ≤ 8192 ∧ fld k.p[3] 0 20 + fld k.p[3] 20 20 ≤ 786432
      ∧ (x.1 = 5 → 1 ≤ fld k.p[0] 32 14 ∧ fld k.p[0] 16 13 + fld k.p[0] 32 14 ≤ 8192 ∧ (namedQuires k.p[0]).isSome = true) := by
  simp only [Starts, Takes, Unfenced, State.still]; decide +kernel

/-- TaskCommands: the quires, for the same starts. -/
theorem witness_TaskCommands_quires :
    ∀ x ∈ [(0x05, 63 + 1024 * 3 + 65536 * 8191 + 2 ^ 32), (0x08, 15)],
      let k := pkt 0 [x.2, 1024 * 1024 + 512 * 2 ^ 30 + 512 * 2 ^ 49, 8192 * 65536, 786432 * 2 ^ 20]
      let s := queued 0 x.1 k { up with bind := { up.bind with entries := up.bind.entries.set 15 (packFlds [(0, 13, 8191), (16, 14, 1)]) } }
      let b := workState s 0
      let new := { Task.reset with
        code := packFlds [(0, 13, 8191), (16, 14, 1), (32, 1, 1)], state := .running, bound := setFld k.p[1] 59 1 1
        region := setFld k.p[2] 32 1 1, mwin := setFld k.p[3] 40 1 1, arg := k.p[5], startsAt := tick b + 1 }
      topologyShort b = false ∧ bit b.con.debugCtl 0 = false
      ∧ (∀ q : Fin 64, (∀ t : Fin 4, ((b.quires[q]).seq.tasks[t]).live = false ∧ overlapsOf b.quires[q] t new = []) ∧ regionOpen b q = false) := by
  decide +kernel

/-- TaskCommands: ABORT_TASK, of a live task and of one that is not. -/
theorem witness_TaskCommands_abort :
    ∀ t ∈ [(0 : Fin 4), 3], let k := pkt 0 [1024 * t.val]
      Starts (queued 1 0x06 k (at1 t 0 [])) 1 0x06 k ∧ namedQuires k.p[0] = some [0] ∧ t.val = fld k.p[0] 10 2
      ∧ (((workState (queued 1 0x06 k (at1 t 0 [])) 1 (goesFirst 0x06 k)).quires[(0 : Fin 64)]).seq.tasks[t]).live = true
      ∧ (((workState (queued 1 0x06 k up) 1 (goesFirst 0x06 k)).quires[(0 : Fin 64)]).seq.tasks[t]).live = false := by
  simp only [Starts, Takes, Unfenced]; decide +kernel

/-- SET_OPERATING_POINT failing each check and passing them at both ends of its range, RESET_COMPUTE: `ClockCommands`. -/
theorem witness_ClockCommands :
    (∀ x ∈ [(7, 600), (5, 563), (5, 1000501), (5, 564), (0, 1000500)], let k := pkt 0 [x.1, x.2]
      Starts (queued 0 0x0B k up) 0 0x0B k ∧ (fld k.p[0] 0 3 = 7 ↔ x.1 = 7)
      ∧ (k.p[1].toNat < tick (workState (queued 0 0x0B k up) 0) + 64 ∨ tick (workState (queued 0 0x0B k up) 0) + 1000000 < k.p[1].toNat
        ↔ x.2 = 563 ∨ x.2 = 1000501))
    ∧ (let k := pkt 0 [5, 564]; let s := queued 0 0x0B k { up with clk := { up.clk with source := 1, opPending := true } };
      Starts s 0 0x0B k ∧ (workState s 0).clk.source ≠ 0 ∧ (workState s 0).clk.opPending = true)
    ∧ Starts (queued 0 0x0E (pkt 0 []) up) 0 0x0E (pkt 0 []) := by
  simp only [Starts, Takes, Unfenced]; decide +kernel

/-- A descriptor that maps port 0 to link 25 at x8 and no other (R386). -/
def topo : List Byte :=
  bytesLE 8 1 ++ List.replicate 56 0 ++ wds ((List.range 26).flatMap (fun p => [if p = 0 then 25 + 32 * 3 + 256 * 3 else 31, 0])) ++ List.replicate 32 0

/-- SET_TOPOLOGY in an idle module, and the end of its wait: `TopologyCommand`. -/
theorem witness_TopologyCommand :
    (let k := pkt 0 [0x20000]; let s := queued 0 0x0C k { up with far := writeBytes [] 0x20000 topo };
      Starts s 0 0x0C k ∧ k.p[0].toNat % 512 = 0 ∧ topologyOk (readBytes (workState s 0).far 0x20000 512) = true
      ∧ (∀ q : Fin 64, (((workState s 0).quires[q]).seq.tasks[(0 : Fin 4)]).live = false) ∧ (workState s 0).bind.cmds = [])
    ∧ (let c := Cmd.ofPacket 0 0x0C (pkt 0 [0x20000]) none false false 3 0
       let s := { up with bind := { up.bind with cmds := [c], topoCmdTick := 500 }, clk := { up.clk with stitch := 100500 } }
       s.pwr.powered = true ∧ firmwareRuns s = true ∧ c.opcode = 0x0C ∧ c.st = .running ∧ s.bind.topoCmdTick + 100000 ≤ tick s) := by
  simp only [Starts, Takes, Unfenced]; decide +kernel

/-- A link of 26, and the last link with each action, required and not: `LinkControl`. -/
theorem witness_LinkControl :
    (∀ x ∈ [26, 25, 25 + 256, 25 + 512, 25 + 768], let k := pkt 0 [x]
      Starts (queued 0 0x0D k up) 0 0x0D k ∧ (26 ≤ fld k.p[0] 0 5 ↔ x = 26))
    ∧ (let b := workState (queued 0 0x0D (pkt 0 [25]) up) 0;
      (b.links[(25 : Fin 26)]).required = false ∧ bandOn b 25 = true ∧ b.clk.present = true ∧ b.bind.held = false
      ∧ (b.links[(25 : Fin 26)]).disabled = false
      ∧ (b.links[(25 : Fin 26)]).state ≠ 1)
    ∧ (let b := workState (queued 0 0x0D (pkt 0 [2]) (linked [] [] id)) 0; (b.links[(2 : Fin 26)]).required = true ∧ computeRuns b = true) := by
  simp only [Starts, Takes, Unfenced]; decide +kernel

/-- A command of ring 1 in a state. -/
def ended (op : Nat) (st : CmdState) (k : Packet) : Cmd := { Cmd.ofPacket 1 op k none false false 3 0 with st := st, doneAt := 4 }

/-- A command done, behind the one done first; a SET_STEP; a start that has ended; a fenced NOP: `CommandsEnd`. -/
theorem witness_CommandsEnd :
    (let s := queued 1 0 (pkt 0 []) up;
      firmwareRuns s = true ∧ bit s.host.ringCfg[(1 : Fin 4)] 0 = true ∧ opcodeRuns s 0x0C = false)
    ∧ (let c := ended 0x05 (.done 3 8 9) (pkt 0 []); let rest := [{ c with doneAt := 5 }];
      c.ring = 1 ∧ c.mute = false ∧ c.opcode ≠ 0x07 ∧ ∀ d ∈ rest, d.doneAt > c.doneAt ∨ d.ring ≠ 1)
    ∧ (let c := ended 0x05 .running (pkt 0 []);
      c.st = .running ∧ (c.opcode = 0x05 ∨ c.opcode = 0x08) ∧ c.quires = [])
    ∧ (let c := ended 0x00 .waiting (pkt 1 []); c.st = .waiting ∧ c.opcode = 0x00 ∧ firstCheck up 0x00 1 c.pkt = none) := by decide +kernel

end Sys2Proof.Tests
end

section
/-! Scalar registers: what a read gives once the writes readable in a lc have taken effect (R270 R271). -/

namespace Sys2Proof.Machine

/-- A pending write stands somewhere between those that waited before, which keep their order. -/
theorem insertPend_split (p : PendReg) (l : List PendReg) : ∃ l₁ l₂, l = l₁ ++ l₂ ∧ insertPend p l = l₁ ++ p :: l₂ := by
  induction l with
  | nil => exact ⟨[], [], rfl, rfl⟩
  | cons a as ih =>
    obtain ⟨l₁, l₂, h, hi⟩ := ih
    by_cases hc : (p.lc < a.lc || (p.lc == a.lc && a.byUnit && !p.byUnit)) = true
    · exact ⟨[], a :: as, rfl, if_pos hc⟩
    · exact ⟨a :: l₁, l₂, congrArg (a :: ·) h, (if_neg hc).trans (congrArg (a :: ·) hi)⟩

theorem filter_insertPend_of_not {f : PendReg → Bool} {p : PendReg} (hp : f p = false) (l : List PendReg) :
    (insertPend p l).filter f = l.filter f := by
  obtain ⟨l₁, l₂, rfl, hi⟩ := insertPend_split p l
  simp [hi, hp]

theorem filter_insertPend_of_only {f : PendReg → Bool} {p : PendReg} (hp : f p = true) {l : List PendReg}
    (hl : ∀ a ∈ l, f a = false) : (insertPend p l).filter f = [p] := by
  obtain ⟨l₁, l₂, rfl, hi⟩ := insertPend_split p l
  have h₁ : l₁.filter f = [] := List.filter_eq_nil_iff.2 fun a ha => by simp [hl a (List.mem_append_left _ ha)]
  have h₂ : l₂.filter f = [] := List.filter_eq_nil_iff.2 fun a ha => by simp [hl a (List.mem_append_right _ ha)]
  simp [hi, hp, h₁, h₂]

/-- Of the writes of a register file, those of one register decide what it holds. -/
theorem foldl_set_getElem (k : Fin 32) (ps : List PendReg) (rs : Vector Word 32) :
    (ps.foldl (fun rs p => rs.set p.reg p.value) rs)[k] = (ps.filter (fun p => p.reg == k)).foldl (fun _ p => p.value) rs[k] := by
  induction ps generalizing rs with
  | nil => rfl
  | cons p ps ih =>
    rw [List.foldl_cons, ih]
    by_cases h : p.reg = k
    · simp [h]
    · have hk : p.reg.val ≠ k.val := fun e => h (Fin.ext e)
      simp [h, hk]

@[simp] theorem readReg_zero (tk : Task) : readReg tk 0 = 0 := rfl

/-- A register is read with the last of its writes that are readable in the lc. -/
theorem readReg_settleRegs (x : Nat) (tk : Task) {r : Nat} (hr : r ≠ 0) (h32 : r < 32) :
    readReg (settleRegs x tk) r
      = (tk.pend.filter (fun p => p.reg.val == r && decide (p.lc ≤ x))).foldl (fun _ p => p.value) (readReg tk r) := by
  have hk := foldl_set_getElem ⟨r, h32⟩ (tk.pend.filter (fun p => decide (p.lc ≤ x))) tk.sregs
  rw [List.filter_filter] at hk
  simpa [readReg, settleRegs, hr, Nat.mod_eq_of_lt h32, Fin.ext_iff, beq_eq_decide] using hk

@[simp] theorem writeReg_zero (tk : Task) (v : Word) (y : Nat) (byUnit : Bool) : writeReg tk 0 v y byUnit = tk := rfl

/-- The write of a register that its task keeps pending until it is readable. -/
def pendWrite (r : Nat) (v : Word) (y : Nat) (byUnit : Bool) : PendReg :=
  { lc := y, reg := ⟨r % 32, by omega⟩, value := v, byUnit := byUnit }

theorem writeReg_of_ne {r : Nat} (hr : r ≠ 0) (tk : Task) (v : Word) (y : Nat) (byUnit : Bool) :
    writeReg tk r v y byUnit = { tk with pend := insertPend (pendWrite r v y byUnit) tk.pend } := if_neg hr

/-- A write is not read before it is settled. -/
@[simp] theorem readReg_writeReg (tk : Task) (r k : Nat) (v : Word) (y : Nat) (byUnit : Bool) :
    readReg (writeReg tk r v y byUnit) k = readReg tk k := by
  unfold writeReg; split <;> rfl

@[simp] theorem writeReg_live (tk : Task) (r : Nat) (v : Word) (y : Nat) (byUnit : Bool) :
    (writeReg tk r v y byUnit).live = tk.live := by
  unfold writeReg; split <;> rfl

/-- Of the writes of a register readable in lc x, one more of another register, or one readable only later, is none. -/
theorem readReg_settleRegs_writeReg_of_not (x : Nat) (tk : Task) {r k : Nat} (v : Word) {y : Nat} (byUnit : Bool) (h32 : r < 32)
    (hk : k < 32) (h : k ≠ r ∨ x < y) :
    readReg (settleRegs x (writeReg tk r v y byUnit)) k = readReg (settleRegs x tk) k := by
  by_cases hr : r = 0
  · rw [hr, writeReg_zero]
  by_cases hk0 : k = 0
  · rw [hk0, readReg_zero, readReg_zero]
  have hp : ((pendWrite r v y byUnit).reg.val == k && decide ((pendWrite r v y byUnit).lc ≤ x)) = false := by
    simp only [pendWrite, Nat.mod_eq_of_lt h32, Bool.and_eq_false_iff, beq_eq_false_iff_ne, decide_eq_false_iff_not]
    omega
  rw [readReg_settleRegs x _ hk0 hk, readReg_settleRegs x _ hk0 hk, readReg_writeReg, writeReg_of_ne hr,
    filter_insertPend_of_not hp]

/-- A register that no write waits for keeps its value. -/
theorem readReg_settleRegs_of_none (x : Nat) {tk : Task} {r : Nat} (h32 : r < 32) (h : ∀ p ∈ tk.pend, p.reg.val ≠ r) :
    readReg (settleRegs x tk) r = readReg tk r := by
  by_cases hr : r = 0
  · rw [hr, readReg_zero, readReg_zero]
  have hn : tk.pend.filter (fun p => p.reg.val == r && decide (p.lc ≤ x)) = [] :=
    List.filter_eq_nil_iff.2 fun p hp => by simp [h p hp]
  rw [readReg_settleRegs x _ hr h32, hn, List.foldl_nil]

/-- The only write of a register is read from its lc on. -/
theorem readReg_settleRegs_writeReg_same {x y : Nat} {tk : Task} {r : Nat} (v : Word) (byUnit : Bool) (hr : r ≠ 0) (h32 : r < 32)
    (h : ∀ p ∈ tk.pend, p.reg.val ≠ r) (hy : y ≤ x) : readReg (settleRegs x (writeReg tk r v y byUnit)) r = v := by
  have hp : ((pendWrite r v y byUnit).reg.val == r && decide ((pendWrite r v y byUnit).lc ≤ x)) = true := by
    simp [pendWrite, Nat.mod_eq_of_lt h32, hy]
  rw [readReg_settleRegs x _ hr h32, writeReg_of_ne hr, filter_insertPend_of_only hp fun p hm => by simp [h p hm]]
  rfl

/-- Settles O11: of the pending writes of a register, the last one readable in the lc is read. -/
theorem registerWrites : Obligations.RegisterWrites := by
  unfold Obligations.RegisterWrites
  intro tk r v y byUnit h32
  refine ⟨readReg_zero tk, writeReg_zero tk v y byUnit, fun hr hn => ⟨fun x hx => ?_, fun x hx => ?_⟩, fun x k hk hne => ?_⟩
  · exact readReg_settleRegs_writeReg_same v byUnit hr h32 hn hx
  · rw [readReg_settleRegs_writeReg_of_not x tk v byUnit h32 h32 (.inr hx), readReg_settleRegs_of_none x h32 hn]
  · exact readReg_settleRegs_writeReg_of_not x tk v byUnit h32 hk (.inl hne)

end Sys2Proof.Machine
end

section
/-! Rows of the sequencer whose effect changes registers, doorbells or half pairs and puts nothing in flight
(R171 R172 R287 R289 R292). -/

namespace Sys2Proof.Machine

/-! ## The issue of such a row -/

/-- An instruction whose effect is the state a, its task still in its run, retires with it. -/
theorem Issues.retires {s a : State} {q : Fin 64} {t : Fin 4} {w : Word} {op : Nat} (h : Issues s q t w op)
    {body : State → Nat → Res} (hb : body (issueState s q t) (issueLc s q t) = .done a)
    (hl : a.quires[q].seq.tasks[t].live = true) :
    ∃ u, (.next (issueRow op q t w body s) : Host.Outcome State Fault Refusal) = .next u ∧ Retired a u q t (nextPc s q t) :=
  ⟨_, congrArg _ (h.done hb hl), retired_retire _ _ _ _⟩

/-- A change of a task that leaves its state alone leaves it in its run. -/
theorem updT_live {f : Task → Task} (hf : ∀ tk, (f tk).live = tk.live) (a : State) (q : Fin 64) (t : Fin 4) :
    (updT a q t f).quires[q].seq.tasks[t].live = a.quires[q].seq.tasks[t].live := by
  rw [updT_quires_self, updTask_task_self, hf]

theorem withReg_live (a : State) (q : Fin 64) (t : Fin 4) (r : Nat) (v : Word) (y : Nat) :
    (withReg a q t r v y).quires[q].seq.tasks[t].live = a.quires[q].seq.tasks[t].live :=
  updT_live (fun tk => writeReg_live tk r v y false) a q t

/-- An instruction that reads no register reads none early. -/
theorem readsReady_nil (s : State) (q : Fin 64) (t : Fin 4) : ReadsReady s q t [] := by
  have hd : resultDue (issueState s q t).quires[q] t [] = false := by
    rw [resultDue, List.any_eq_false]
    intro e _
    split <;> simp
  exact .inr (by simp only [List.filter_nil, readsEarly, hd]; simp)

/-! ## Fields of words -/

theorem bit_eq_testBit (w : Word) (i : Nat) : bit w i = w.toNat.testBit i := by
  simp [bit, fld, bitsOf, Nat.testBit_eq_decide_div_mod_eq, Nat.shiftRight_eq_div_pow, beq_eq_decide]

theorem testBit_fld (w : Word) (lo len i : Nat) : (fld w lo len).testBit i = (decide (i < len) && bit w (lo + i)) := by
  simp [fld, bitsOf, bit_eq_testBit, Nat.testBit_mod_two_pow, Nat.testBit_shiftRight]

theorem ofNat_fld (w : Word) (lo len : Nat) : BitVec.ofNat len (fld w lo len) = w.extractLsb' lo len := by
  apply BitVec.eq_of_toNat_eq
  simp [fld, bitsOf]

theorem fld_lt (w : Word) (lo len : Nat) : fld w lo len < 2 ^ len := Nat.mod_lt _ (Nat.two_pow_pos len)

/-! ## GETS (R287) -/

theorem exec_gets (s : State) (q : Fin 64) (t : Fin 4) (w : Word) :
    exec (.gets q t w) s = .next (issueRow 0x0C q t w (getsBody q t w) s) := rfl

theorem getsValue_eq_table (s : State) (q : Fin 64) (t : Fin 4) (x sel : Nat) :
    getsValue s q t x sel =
      [if s.quires[q].seq.inRun then BitVec.ofNat 64 x else 0, BitVec.ofNat 64 q.val, BitVec.ofNat 64 t.val,
        BitVec.ofNat 64 s.bind.loaded, s.quires[q].seq.tasks[t].arg, s.quires[q].upd.stepActive][sel]? :=
  match sel with
  | 0 | 1 | 2 | 3 | 4 | 5 => rfl
  | _ + 6 => rfl

theorem getsValue_of_ge (s : State) (q : Fin 64) (t : Fin 4) (x : Nat) {sel : Nat} (h : 6 ≤ sel) : getsValue s q t x sel = none := by
  rw [getsValue_eq_table]
  exact List.getElem?_eq_none h

theorem getsBody_some {s : State} {q : Fin 64} {t : Fin 4} {w v : Word} {x : Nat} (h : getsValue s q t x (fld w 16 8) = some v) :
    getsBody q t w s x = .done (setReg s q t x (wRD w) v (x + 1)) := by
  simp only [getsBody, h, loadBody]

theorem getsBody_none {s : State} {q : Fin 64} {t : Fin 4} {w : Word} {x : Nat} (h : getsValue s q t x (fld w 16 8) = none) :
    getsBody q t w s x = .bad .seq 2 := by
  simp only [getsBody, h]

/-- Settles O10: the table is `getsValue`, and beyond it the instruction is illegal. -/
theorem getsSources : Obligations.GetsSources := by
  unfold Obligations.GetsSources
  intro s q t w
  refine ⟨fun v hv hi _ hw => ?_, fun hsel hi hq => ?_⟩
  · have hval : getsValue (issueState s q t) q t (issueLc s q t) (fld w 16 8) = some v := (getsValue_eq_table _ _ _ _ _).trans hv
    rw [exec_gets]
    refine hi.retires ((getsBody_some hval).trans (congrArg Res.done (hw.setReg v _))) ?_
    rw [withReg_live]
    exact hi.live
  · rw [exec_gets]
    exact hi.seqFault (getsBody_none (getsValue_of_ge _ _ _ _ hsel)) (readsReady_nil s q t) hq

/-! ## RINGDB and GETDB (R289 R443) -/

/-- The effect of RINGDB: the bits rung, and the doorbell traced (R475). -/
def rungState (a : State) (q : Fin 64) (t : Fin 4) (mask : BitVec 32) : State := traceQ (ringFromQuire a q mask) q t 4

theorem exec_ringdb (s : State) (q : Fin 64) (t : Fin 4) (w : Word) :
    exec (.ringdb q t w) s = .next (issueRow 0x17 q t w (fun s _ => .done (rungState s q t (BitVec.ofNat 32 (fld w 16 32)))) s) := rfl

theorem rungState_quires_self (a : State) (q : Fin 64) (t : Fin 4) (mask : BitVec 32) :
    (rungState a q t mask).quires[q] =
      { a.quires[q] with
        dbFromQuire := a.quires[q].dbFromQuire ||| mask
        dbFromSince := (rungState a q t mask).quires[q].dbFromSince } := by
  simp only [rungState, traceQ_quires, ringFromQuire, updQ_quires_self]

theorem rungState_quires_ne (a : State) {q b : Fin 64} (t : Fin 4) (mask : BitVec 32) (h : b ≠ q) :
    (rungState a q t mask).quires[b] = a.quires[b] := by
  simp only [rungState, traceQ_quires, ringFromQuire, updQ_quires_ne _ _ h]

/-- Outside the quires RINGDB leaves at most a trace record. -/
theorem rungState_rest (a : State) (q : Fin 64) (t : Fin 4) (mask : BitVec 32) :
    { rungState a q t mask with quires := a.quires, trace := a.trace, far := a.far, free := a.free } = a :=
  (congrArg (fun u : State => { u with quires := a.quires }) (traceQ_rest (ringFromQuire a q mask) q t 4) :)

theorem rungState_live (a : State) (q : Fin 64) (t : Fin 4) (mask : BitVec 32) :
    (rungState a q t mask).quires[q].seq.tasks[t].live = a.quires[q].seq.tasks[t].live := by
  rw [rungState_quires_self]

/-- The bits that GETDB takes: rung toward the quire and not held by its mask. -/
theorem deliveredTo_eq (qr : Quire) : deliveredTo qr = qr.dbToQuire &&& ~~~ (qr.qmask.extractLsb' 32 32) := by
  rw [deliveredTo, ofNat_fld]

/-- The state behind the clearing read of GETDB. -/
def clearedState (a : State) (q : Fin 64) : State :=
  updQ a q (fun qr => { qr with dbToQuire := qr.dbToQuire &&& ~~~ (deliveredTo a.quires[q]) })

theorem exec_getdb (s : State) (q : Fin 64) (t : Fin 4) (w : Word) :
    exec (.getdb q t w) s = .next (issueRow 0x18 q t w (fun s x =>
      .done (setReg (clearedState s q) q t x (wRD w) ((deliveredTo s.quires[q]).zeroExtend 64) (x + 1))) s) := by
  simp only [BitVec.zeroExtend, ← BitVec.ofNat_toNat]
  rfl

/-- The clearing read touches no task. -/
theorem clearedState_seq (a : State) (q : Fin 64) : (clearedState a q).quires[q].seq = a.quires[q].seq := by
  rw [clearedState, updQ_quires_self]

theorem hazard_off {a : State} (h : hazOn a = false) (q : Fin 64) (t : Fin 4) (kind unit lc : Nat) :
    hazard a q t kind unit lc = a := by
  simp [hazard, h]

/-- A write of a register for which no unit's write of the same lc waits, or that no checker sees, is no hazard. -/
theorem setReg_eq_withReg {a : State} {q : Fin 64} {t : Fin 4} {r y : Nat}
    (h : hazOn a = false ∨ a.quires[q].seq.tasks[t].pend.any (fun p => p.byUnit && p.reg.val == r && p.lc == y) = false)
    (x : Nat) (v : Word) : setReg a q t x r v y = withReg a q t r v y := by
  simp only [setReg]
  obtain h | h := h
  · split
    · exact hazard_off (a := withReg a q t r v y) h q t 1 10 x
    · rfl
  · rw [h, Bool.and_false]
    rfl

/-- Settles O16: the rung state meets each clause, and GETDB writes what it clears. -/
theorem quireDoorbells : Obligations.QuireDoorbells := by
  unfold Obligations.QuireDoorbells
  intro s q t w
  refine ⟨fun hi => ?_, fun hi hw => ?_⟩
  · have hq := rungState_quires_self (issueState s q t) q t (BitVec.ofNat 32 (fld w 16 32))
    obtain ⟨u, hu, hr⟩ := (exec_ringdb s q t w) ▸ hi.retires rfl ((rungState_live _ q t _).trans hi.live)
    refine ⟨_, u, hu, hr, ?_, ?_, fun c hc => rungState_quires_ne _ t _ hc, rungState_rest _ q t _⟩
    · rw [hq]; rfl
    · rw [hq]; rfl
  · have hset := setReg_eq_withReg (a := clearedState (issueState s q t) q) (t := t) (by rw [clearedState_seq]; exact hw)
      (issueLc s q t) ((deliveredTo (issueQuire s q t)).zeroExtend 64)
    rw [exec_getdb, ← deliveredTo_eq]
    refine hi.retires (congrArg Res.done hset) ?_
    rw [withReg_live, updQ_quires_self]
    exact hi.live

/-! ## SWAP and SETHP (R171 R172 R292) -/

theorem exec_swap (s : State) (q : Fin 64) (t : Fin 4) (w : Word) :
    exec (.swap q t w) s = .next (issueRow 0x30 q t w (fun s _ =>
      .done (updT s q t (fun tk => { tk with hp := swapHalves (fld w 11 8) tk.hp }))) s) := rfl

theorem exec_sethp (s : State) (q : Fin 64) (t : Fin 4) (w : Word) :
    exec (.sethp q t w) s = .next (issueRow 0x31 q t w (sethpBody q t w) s) := rfl

/-- SWAP by the bits of its word: bit 11 + i of the word is bit i of the mask. -/
theorem swapHalves_fld (w : Word) (hp : Vector HalfPair 8) :
    swapHalves (fld w 11 8) hp =
      Vector.ofFn (fun i : Fin 8 => { hp[i] with front := if bit w (11 + i.val) then !(hp[i]).front else (hp[i]).front }) := by
  unfold swapHalves
  congr 1
  funext i
  rw [testBit_fld, decide_eq_true i.isLt, Bool.true_and]
  split <;> rfl

/-- One half-pair register replaced, seen register by register. -/
theorem halfPairs_set (hp : Vector HalfPair 8) {n : Nat} (hn : n < 8) (h : HalfPair) :
    hp.set n h = Vector.ofFn (fun i : Fin 8 => if i.val = n then h else hp[i]) := by
  ext i hi
  simp [Vector.getElem_set, eq_comm]

/-- A legal SETHP writes the half-pair register that its word names. -/
theorem sethpBody_done {w : Word} (h : fld w 9 2 ≠ 3) (s : State) (q : Fin 64) (t : Fin 4) (x : Nat) :
    sethpBody q t w s x = .done (updT s q t (fun tk => { tk with
      hp := Vector.ofFn (fun i : Fin 8 =>
        if i.val = fld w 6 3 then { spad := fld w 9 2, rowA := fld w 12 16, rowB := fld w 28 16, front := bit w 11 }
        else tk.hp[i]) })) := by
  have hn : fld w 6 3 % 8 = fld w 6 3 := Nat.mod_eq_of_lt (fld_lt w 6 3)
  simp only [sethpBody, if_neg h, halfPairs_set, hn]

/-- Settles O17: both write half-pair registers of their task alone. -/
theorem halfPairs : Obligations.HalfPairs := by
  unfold Obligations.HalfPairs
  intro s q t w
  refine ⟨fun hi => ?_, fun hi hs => ?_⟩
  · simp only [exec_swap, swapHalves_fld]
    refine hi.retires rfl ?_
    rw [updT_live]
    · exact hi.live
    · intro tk; rfl
  · rw [exec_sethp]
    refine hi.retires (sethpBody_done hs _ q t _) ?_
    rw [updT_live]
    · exact hi.live
    · intro tk; rfl

end Sys2Proof.Machine
end

section
/-! Every step keeps the claimed properties (R12 R343; log entry 6), and no step stops the block. -/

namespace Sys2Proof.Machine

/-- Every command keeps the claimed properties. -/
theorem exec_ok {K : Parts} (i : Instr) {s : State} (h : Ok K s) : OutOk K (exec i s) := by
  cases i with
  | nop q t w => exact execNop_ok q t w h
  | alu q t w => exact execAlu_ok q t w h
  | addi q t w => exact execAddi_ok q t w h
  | andi q t w => exact execAndi_ok q t w h
  | ori q t w => exact execOri_ok q t w h
  | xori q t w => exact execXori_ok q t w h
  | shli q t w => exact execShli_ok q t w h
  | shri q t w => exact execShri_ok q t w h
  | srai q t w => exact execSrai_ok q t w h
  | slti q t w => exact execSlti_ok q t w h
  | li q t w => exact execLi_ok q t w h
  | lih q t w => exact execLih_ok q t w h
  | gets q t w => exact execGets_ok q t w h
  | br q t w => exact execBr_ok q t w h
  | j q t w => exact execJ_ok q t w h
  | call q t w => exact execCall_ok q t w h
  | ret q t w => exact execRet_ok q t w h
  | idle q t w => exact execIdle_ok q t w h
  | yield q t w => exact execYield_ok q t w h
  | endTask q t w => exact execEndTask_ok q t w h
  | ringdb q t w => exact execRingdb_ok q t w h
  | getdb q t w => exact execGetdb_ok q t w h
  | tile q t w => exact execTile_ok q t w h
  | wpanel q t w => exact execWpanel_ok q t w h
  | vop q t w => exact execVop_ok q t w h
  | inject q t w => exact execInject_ok q t w h
  | land q t w => exact execLand_ok q t w h
  | copy q t w => exact execCopy_ok q t w h
  | reduce q t w => exact execReduce_ok q t w h
  | splice q t w => exact execSplice_ok q t w h
  | stream q t w => exact execStream_ok q t w h
  | sdload q t w => exact execSdload_ok q t w h
  | waits q t w => exact execWaits_ok q t w h
  | waitw q t w => exact execWaitw_ok q t w h
  | swap q t w => exact execSwap_ok q t w h
  | sethp q t w => exact execSethp_ok q t w h
  | lwait q t w => exact execLwait_ok q t w h
  | xwait q t w => exact execXwait_ok q t w h
  | upd q t w => exact execUpd_ok q t w h
  | uget q t w => exact execUget_ok q t w h
  | ustat q t w => exact execUstat_ok q t w h
  | tileDrain q => exact execTileDrain_ok q h
  | gatheringResume q periods => exact execGatheringResume_ok q periods h
  | runAheadStart q => exact execRunAheadStart_ok q h
  | landingComplete q ix => exact execLandingComplete_ok q ix h
  | writeComplete q ix => exact execWriteComplete_ok q ix h
  | messageAccept port => exact execMessageAccept_ok port h
  | messageLanded port => exact execMessageLanded_ok port h
  | dataFlit link bytes => exact execDataFlit_ok link bytes h
  | ctrlFlit link bytes => exact execCtrlFlit_ok link bytes h
  | heartbeatFlit link bytes => exact execHeartbeatFlit_ok link bytes h
  | trainFlit link phys deviceId peerPort job => exact execTrainFlit_ok link phys deviceId peerPort job h
  | faultFlit link bytes => exact execFaultFlit_ok link bytes h
  | replayTimeout link => exact execReplayTimeout_ok link h
  | ackTimeout link => exact execAckTimeout_ok link h
  | heartbeatTimeout link => exact execHeartbeatTimeout_ok link h
  | silence link => exact execSilence_ok link h
  | promise port => exact execPromise_ok port h
  | partialMsg port => exact execPartialMsg_ok port h
  | linkTraining link => exact execLinkTraining_ok link h
  | linkTrained link lanes => exact execLinkTrained_ok link lanes h
  | backgroundRetrain => exact execBackgroundRetrain_ok h
  | faultPath src => exact execFaultPath_ok src h
  | faultRecord => exact execFaultRecord_ok h
  | waitTimeout q t => exact execWaitTimeout_ok q t h
  | throttleResume q periods => exact execThrottleResume_ok q periods h
  | droopStretch folio droop => exact execDroopStretch_ok folio droop h
  | operatingPointChange => exact execOperatingPointChange_ok h
  | referenceLoss => exact execReferenceLoss_ok h
  | holdoverExpiry => exact execHoldoverExpiry_ok h
  | referenceTimeout => exact execReferenceTimeout_ok h
  | referenceReturn => exact execReferenceReturn_ok h
  | powerTrip watts fraction => exact execPowerTrip_ok watts fraction h
  | thermalTrip sensor temp => exact execThermalTrip_ok sensor temp h
  | thermalWarning sensor temp => exact execThermalWarning_ok sensor temp h
  | powerDomainOn pd => exact execPowerDomainOn_ok pd h
  | scrub q wIdle mIdle upsets => exact execScrub_ok q wIdle mIdle upsets h
  | fixQueueWriteback q bank => exact execFixQueueWriteback_ok q bank h
  | traceIncidentEnd folio => exact execTraceIncidentEnd_ok folio h
  | watchdog => exact execWatchdog_ok h
  | coldPowerOn env => exact execColdPowerOn_ok env h
  | powerLoss => exact execPowerLoss_ok h
  | perstAssert => exact execPerstAssert_ok h
  | perstRelease => exact execPerstRelease_ok h
  | bar4Write offset bytes => exact execBar4Write_ok offset bytes h
  | bar4Read offset length => exact execBar4Read_ok offset length h
  | unsupportedRequest req => exact execUnsupportedRequest_ok req h
  | completionTimeout ring tag => exact execCompletionTimeout_ok ring tag h
  | dbInSet value => exact execDbInSet_ok value h
  | dbOut value => exact execDbOut_ok value h
  | dbInMask value => exact execDbInMask_ok value h
  | dbOutMask value => exact execDbOutMask_ok value h
  | qmask q value => exact execQmask_ok q value h
  | quireDoorbell q => exact execQuireDoorbell_ok q h
  | dbTimeout db => exact execDbTimeout_ok db h
  | ringCfg ring value => exact execRingCfg_ok ring value h
  | heartbeat value => exact execHeartbeat_ok value h
  | bar4Seg value => exact execBar4Seg_ok value h
  | fence window value => exact execFence_ok window value h
  | pdReq value => exact execPdReq_ok value h
  | droopCfg value => exact execDroopCfg_ok value h
  | recoveryGo value verified => exact execRecoveryGo_ok value verified h
  | registerWrite bar2 offset width value => exact execRegisterWrite_ok bar2 offset width value h
  | nopCommand ring pkt => exact execNopCommand_ok ring pkt h
  | query ring pkt host => exact execQuery_ok ring pkt host h
  | loadProgram ring pkt host => exact execLoadProgram_ok ring pkt host h
  | loadRegion ring pkt => exact execLoadRegion_ok ring pkt h
  | exportRegion ring pkt => exact execExportRegion_ok ring pkt h
  | startTask ring pkt => exact execStartTask_ok ring pkt h
  | abortTask ring pkt => exact execAbortTask_ok ring pkt h
  | setStep ring pkt => exact execSetStep_ok ring pkt h
  | runUpdate ring pkt => exact execRunUpdate_ok ring pkt h
  | readLedger ring pkt host => exact execReadLedger_ok ring pkt host h
  | readTelemetry ring pkt host => exact execReadTelemetry_ok ring pkt host h
  | setOperatingPoint ring pkt => exact execSetOperatingPoint_ok ring pkt h
  | setTopology ring pkt => exact execSetTopology_ok ring pkt h
  | topologyWaitExpiry => exact execTopologyWaitExpiry_ok h
  | linkControlRetrain ring pkt => exact execLinkControlRetrain_ok ring pkt h
  | linkControlDisable ring pkt => exact execLinkControlDisable_ok ring pkt h
  | linkControlEnable ring pkt => exact execLinkControlEnable_ok ring pkt h
  | linkControlClear ring pkt => exact execLinkControlClear_ok ring pkt h
  | resetCompute ring pkt => exact execResetCompute_ok ring pkt h
  | fwUpdate ring pkt host verified written => exact execFwUpdate_ok ring pkt host verified written h
  | attest ring pkt host => exact execAttest_ok ring pkt host h
  | fencedCommandStart ring => exact execFencedCommandStart_ok ring h
  | commandCompletion ring => exact execCommandCompletion_ok ring h
  | taskCompletion ring tag => exact execTaskCompletion_ok ring tag h
  | ident => exact execIdent_ok h
  | status => exact execStatus_ok h
  | fault => exact execFault_ok h
  | power => exact execPower_ok h
  | tempMax => exact execTempMax_ok h
  | alertClear => exact execAlertClear_ok h
  | alertResponse => exact execAlertResponse_ok h
  | msixVectorUnmask vector => exact execMsixVectorUnmask_ok vector h
  | uncorrectableFlit link => exact execUncorrectableFlit_ok link h
  | faultFlitResend link => exact execFaultFlitResend_ok link h
  | pcieLinkDown => exact execPcieLinkDown_ok h
  | d3hot enter => exact execD3hot_ok enter h

/-- Taking a command from the queue touches none of them. -/
theorem Ok.withPending {K : Parts} {s : State} (h : Ok K s) (cs : List Instr) : Ok K { s with pending := cs } :=
  { h with }

/-- Every step keeps the claimed properties: a tick on an empty queue, else the command at its front. -/
theorem step_ok {K : Parts} {s : State} (h : Ok K s) : OutOk K (step s) := by
  unfold step
  split
  · exact outOk_next.2 (stitchTick_ok h)
  · exact exec_ok _ (h.withPending _)

/-- Settles O5: canonical memories are one of the properties that every step keeps. -/
theorem stepKeepsMemories : Obligations.StepKeepsMemories := by
  unfold Obligations.StepKeepsMemories
  exact fun _ t h ht => (step_ok (Ok.of_canonical h) t ht).canonical rfl

/-- Settles O6: legal indices of the clock root are one of them. -/
theorem stepKeepsPoint : Obligations.StepKeepsPoint := by
  unfold Obligations.StepKeepsPoint
  exact fun _ t h ht => (step_ok (Ok.of_pointLegal h) t ht).pointLegal rfl

/-- Settles O7: reserved bits that are 0 are one of them. -/
theorem stepKeepsReserved : Obligations.StepKeepsReserved := by
  unfold Obligations.StepKeepsReserved
  exact fun _ t h ht => (step_ok (Ok.of_reservedZero h) t ht).reservedZero rfl

/-- Settles O4: the reset state has every claimed property. -/
theorem invariantsAtReset : Obligations.InvariantsAtReset := by
  unfold Obligations.InvariantsAtReset
  have h : Ok ⟨true, true, true⟩ State.reset := stateReset_ok
  exact ⟨h.canonical rfl, h.pointLegal rfl, h.reservedZero rfl⟩

/-- Settles O1: `step` is the meaning of the command at the front. -/
theorem stepRunsFront : Obligations.StepRunsFront := by
  unfold Obligations.StepRunsFront
  intro s c cs
  rfl

/-- No command stops the block. -/
theorem exec_completes (i : Instr) (s : State) : Completes (exec i s) := by
  cases i <;> exact ⟨_, rfl⟩

theorem reset_quires (q : Fin 64) : State.reset.quires[q] = Quire.atReset := by
  show (Vector.replicate 64 Quire.atReset)[q] = Quire.atReset
  simp

theorem Quire.atReset_tasks (t : Fin 4) : Quire.atReset.seq.tasks[t] = Task.reset := by
  show (Vector.replicate 4 Task.reset)[t] = Task.reset
  simp

/-- Settles O3: the reset state, register by register. -/
theorem resetRegisters : Obligations.ResetRegisters := by
  unfold Obligations.ResetRegisters
  refine ⟨fun q => ?_, rfl, rfl, rfl, rfl, rfl, rfl, rfl, ?_, rfl, rfl, ?_, rfl, rfl, rfl, rfl, rfl, rfl, rfl, rfl⟩
  · rw [reset_quires]
    refine ⟨rfl, ?_, rfl, rfl, rfl, ?_, rfl, rfl, fun t => ?_⟩
    · intro i
      show (Vector.replicate 4 (~~~0 : Word))[i] = _
      simp
    · intro i
      show (Vector.replicate 256 LedgerSlot.reset)[i] = _
      simp
    · rw [Quire.atReset_tasks]
      refine ⟨rfl, rfl, fun r => ?_⟩
      show (Vector.replicate 32 (0 : Word))[r] = _
      simp
  · decide
  · decide

end Sys2Proof.Machine
end

section
/-! A stitch tick: what the firmware does, what comes about, and what both leave (R159 R340 R352 R357 R436 R471; log entry 2). -/

namespace Sys2Proof.Machine

/-! ## Everything has come about -/

theorem startDue_noDrain {qr : Quire} (h : qr.array.drains = []) (l : Nat) : startDue l qr = qr := by
  simp [startDue, h]

/-- Where nothing is in flight and no drain waits, everything has come about. -/
theorem catchUp_still {s : State} (h : s.still) : catchUp s = s := by
  have hs : updAllQ s (fun _ qr => if qr.array.drains.isEmpty || !lcPass qr then qr else startDue (reachedLc (dieNow s) qr) qr) = s := by
    have hq : Vector.ofFn (fun q : Fin 64 =>
        if s.quires[q].array.drains.isEmpty || !lcPass s.quires[q] then s.quires[q]
        else startDue (reachedLc (dieNow s) s.quires[q]) s.quires[q]) = s.quires := by
      ext q hq
      have hd : s.quires[q].array.drains = [] := (h ⟨q, hq⟩).2
      simp [hd]
    simp only [updAllQ, hq]
  simp only [catchUp, hs]
  exact settle_quiet (fun b => (h b).1) _

/-! ## What the firmware does at a tick -/

/-- The clock, the power state, the flash and the queue of commands stay. -/
structure KeepsRoot (b a : State) : Prop where
  clk : a.clk = b.clk
  pwr : a.pwr = b.pwr
  flash : a.flash = b.flash
  pending : a.pending = b.pending

theorem KeepsRoot.refl (s : State) : KeepsRoot s s := ⟨rfl, rfl, rfl, rfl⟩

theorem KeepsRoot.trans {a b c : State} (h : KeepsRoot a b) (g : KeepsRoot b c) : KeepsRoot a c :=
  ⟨g.clk.trans h.clk, g.pwr.trans h.pwr, g.flash.trans h.flash, g.pending.trans h.pending⟩

theorem KeepsRoot.after {a b c : State} (g : KeepsRoot b c) (h : KeepsRoot a b) : KeepsRoot a c := h.trans g

theorem KeepsRoot.foldl {α : Type} {f : State → α → State} (hf : ∀ s x, KeepsRoot s (f s x)) (l : List α) :
    ∀ s, KeepsRoot s (l.foldl f s) := by
  induction l with
  | nil => exact KeepsRoot.refl
  | cons x l ih => exact fun s => (hf s x).trans (ih (f s x))

theorem timeoutAlarm_keepsRoot (s : State) (src : Nat) : KeepsRoot s (timeoutAlarm s src) := ⟨rfl, rfl, rfl, rfl⟩

theorem sendMsix_keepsRoot (s : State) (n : Fin 32) : KeepsRoot s (sendMsix s n) := by
  unfold sendMsix
  split <;> exact ⟨rfl, rfl, rfl, rfl⟩

theorem ringHostRaw_keepsRoot (s : State) (n : Fin 32) : KeepsRoot s (ringHostRaw s n) := by
  unfold ringHostRaw
  dsimp only
  split
  · exact ⟨rfl, rfl, rfl, rfl⟩
  · exact (sendMsix_keepsRoot _ n).after ⟨rfl, rfl, rfl, rfl⟩

theorem flagQuires_keepsRoot (s : State) (mask : Word) : KeepsRoot s (flagQuires s mask) := by
  refine KeepsRoot.trans (KeepsRoot.foldl (fun s q => ?_) allQuires s) (timeoutAlarm_keepsRoot _ 0)
  split
  · exact ⟨rfl, rfl, rfl, rfl⟩
  · exact KeepsRoot.refl s

theorem checkHost_keepsRoot (s : State) (n : Fin 32) : KeepsRoot s (checkHost s n) := by
  unfold checkHost
  split
  · exact flagQuires_keepsRoot s _
  · exact KeepsRoot.refl s

theorem ringHost_keepsRoot (s : State) (n : Fin 32) : KeepsRoot s (ringHost s n) := by
  unfold ringHost
  dsimp only
  split
  · exact ringHostRaw_keepsRoot s n
  · exact (ringHostRaw_keepsRoot s n).trans (checkHost_keepsRoot _ n)

theorem alarmPut_keepsRoot (s : State) (a : Alarm) : KeepsRoot s (alarmPut s a) := by
  unfold alarmPut
  dsimp only
  (repeat' split) <;> exact ⟨rfl, rfl, rfl, rfl⟩

theorem flushAlarms_keepsRoot (s : State) : KeepsRoot s (flushAlarms s) := by
  unfold flushAlarms
  split
  · exact KeepsRoot.refl s
  · exact (KeepsRoot.foldl alarmPut_keepsRoot _ s).trans ((ringHost_keepsRoot _ 4).after ⟨rfl, rfl, rfl, rfl⟩)

theorem ringCheck_keepsRoot (s : State) (r : Fin 4) : KeepsRoot s (ringCheck s r) := by
  unfold ringCheck
  split
  · exact (ringHost_keepsRoot _ 7).after ⟨rfl, rfl, rfl, rfl⟩
  · exact KeepsRoot.refl s

theorem startCmd_unlisted {s : State} {c : Cmd} (h : commandListed c.opcode = false) (work : State → Cmd → Reply) :
    startCmd work s c = .fail s 0x01 := by
  have hc : firstCheck s c.opcode c.ring c.pkt = some 0x01 := by simp only [firstCheck, h, Bool.not_false, if_true]
  simp only [startCmd, hc]

theorem takeUnlisted_keepsRoot (r : Fin 4) (n : Nat) : ∀ s, KeepsRoot s (takeUnlisted r n s) := by
  induction n with
  | zero => exact KeepsRoot.refl
  | succ n ih =>
    intro s
    unfold takeUnlisted
    dsimp only
    split
    · next h =>
      refine KeepsRoot.trans ?_ (ih _)
      simp only [Bool.and_eq_true, Bool.not_eq_true'] at h
      split
      · exact ⟨rfl, rfl, rfl, rfl⟩
      · rw [startCmd_unlisted (by exact h.2)]
        exact ⟨rfl, rfl, rfl, rfl⟩
    · exact KeepsRoot.refl s

theorem tickFirmware_keepsRoot (s : State) : KeepsRoot s (tickFirmware s) := by
  unfold tickFirmware
  split
  · exact KeepsRoot.refl s
  · exact (flushAlarms_keepsRoot s).trans ((KeepsRoot.foldl ringCheck_keepsRoot _ _).trans
      (KeepsRoot.foldl (fun s r => takeUnlisted_keepsRoot r 8 s) _ _))

/-! ## What comes about at a tick -/

/-- The scrub engine of every quire runs as SCRUB_CTL says (R159). -/
def State.scrubTaken (s : State) : Prop := ∀ q : Fin 64, s.quires[q].bank.scrubActive = s.quires[q].bank.scrubCtl

/-- What the phases of a reset, the domains and the starts of a tick keep. -/
structure KeepsTick (b a : State) : Prop where
  stitch : a.clk.stitch = b.clk.stitch
  droop : a.clk.droopActive = b.clk.droopActive
  powered : a.pwr.powered = b.pwr.powered
  sampled : a.pwr.sampled = b.pwr.sampled
  flash : a.flash = b.flash
  taken : a.host.taken = b.host.taken
  pending : a.pending = b.pending
  scrub : b.scrubTaken → a.scrubTaken

theorem KeepsTick.refl (s : State) : KeepsTick s s := ⟨rfl, rfl, rfl, rfl, rfl, rfl, rfl, id⟩

theorem KeepsTick.trans {a b c : State} (h : KeepsTick a b) (g : KeepsTick b c) : KeepsTick a c :=
  ⟨g.stitch.trans h.stitch, g.droop.trans h.droop, g.powered.trans h.powered, g.sampled.trans h.sampled, g.flash.trans h.flash,
    g.taken.trans h.taken, g.pending.trans h.pending, g.scrub ∘ h.scrub⟩

theorem KeepsTick.after {a b c : State} (g : KeepsTick b c) (h : KeepsTick a b) : KeepsTick a c := h.trans g

theorem KeepsTick.foldl {α : Type} {f : State → α → State} (hf : ∀ s x, KeepsTick s (f s x)) (l : List α) :
    ∀ s, KeepsTick s (l.foldl f s) := by
  induction l with
  | nil => exact KeepsTick.refl
  | cons x l ih => exact fun s => (hf s x).trans (ih (f s x))

/-- A quire changed beside its scrub registers. -/
theorem updQ_keepsTick (s : State) (q : Fin 64) {f : Quire → Quire} (hf : ∀ qr, (f qr).bank = qr.bank) : KeepsTick s (updQ s q f) := by
  refine ⟨rfl, rfl, rfl, rfl, rfl, rfl, rfl, fun h b => ?_⟩
  rw [updQ_quires]
  split
  · rw [hf]; exact h b
  · exact h b

theorem farWrite_keepsTick (s : State) (a : Nat) (bs : List Byte) : KeepsTick s (farWrite s a bs) :=
  ⟨rfl, rfl, rfl, rfl, rfl, rfl, rfl, id⟩

theorem quiesceWrites_keepsTick (s : State) : KeepsTick s (quiesceWrites s) := by
  refine KeepsTick.foldl (fun s q => ?_) allQuires s
  refine KeepsTick.trans (KeepsTick.foldl (fun s o => ?_) s.quires[q].stream.writes s) (updQ_keepsTick _ q ?_)
  · split
    · exact farWrite_keepsTick s _ _
    · exact KeepsTick.refl s
  · intro qr; rfl

theorem clearBlocks_keepsTick (s : State) : KeepsTick s (clearBlocks s) := by
  refine ⟨rfl, rfl, rfl, rfl, rfl, rfl, rfl, fun _ q => ?_⟩
  have hq : (clearBlocks s).quires[q] = clearQuire s.quires[q] := by
    show (s.quires.map clearQuire)[q] = _
    simp
  rw [hq]
  rfl

theorem restoreIndex_stitch (former now : Nat) (c : Clk) :
    (restoreIndex former now c).stitch = c.stitch ∧ (restoreIndex former now c).droopActive = c.droopActive := by
  unfold restoreIndex
  dsimp only
  (repeat' split) <;> exact ⟨rfl, rfl⟩

theorem clearStep_keepsTick (s : State) : KeepsTick s (clearStep s) := by
  have h := clearBlocks_keepsTick s
  unfold clearStep
  generalize clearBlocks s = c at h
  have h2 : KeepsTick s (if c.bind.resetFault || c.bind.selftestFail then c else releaseFault c) := by
    split
    · exact h
    · exact h.trans ⟨rfl, rfl, rfl, rfl, rfl, rfl, rfl, id⟩
  dsimp only
  generalize (if c.bind.resetFault || c.bind.selftestFail then c else releaseFault c) = d at h2
  have hr := restoreIndex_stitch d.bind.formerIndex (tick d) d.clk
  exact ⟨hr.1.trans h2.stitch, hr.2.trans h2.droop, h2.powered, h2.sampled, h2.flash, h2.taken, h2.pending, h2.scrub⟩

theorem resetPhase_keepsTick (s : State) : KeepsTick s (resetPhase s) := by
  unfold resetPhase
  split
  · exact KeepsTick.refl s
  · dsimp only
    split
    · exact KeepsTick.refl s
    · split
      · exact (quiesceWrites_keepsTick _).after ⟨rfl, rfl, rfl, rfl, rfl, rfl, rfl, id⟩
      · split
        · exact ⟨rfl, rfl, rfl, rfl, rfl, rfl, rfl, id⟩
        · exact (clearStep_keepsTick _).after ⟨rfl, rfl, rfl, rfl, rfl, rfl, rfl, id⟩

theorem leaveUp_keepsTick (s : State) (l : Fin 26) (state : Nat) : KeepsTick s (leaveUp s l state) := by
  unfold leaveUp
  dsimp only
  (repeat' split) <;> exact ⟨rfl, rfl, rfl, rfl, rfl, rfl, rfl, id⟩

theorem unmapLink_keepsTick (s : State) (l : Fin 26) : KeepsTick s (unmapLink s l) := by
  unfold unmapLink
  dsimp only
  (repeat' split) <;> exact ⟨rfl, rfl, rfl, rfl, rfl, rfl, rfl, id⟩

theorem bandOff_keepsTick (s : State) (pd : Nat) : KeepsTick s (bandOff s pd) := by
  refine KeepsTick.foldl (fun s l => ?_) _ s
  exact KeepsTick.trans ((leaveUp_keepsTick s l 0).trans (unmapLink_keepsTick _ l)) ⟨rfl, rfl, rfl, rfl, rfl, rfl, rfl, id⟩

theorem takeDomain_keepsTick (s : State) (pd : Nat) : KeepsTick s (takeDomain s pd) := by
  unfold takeDomain
  dsimp only
  split
  · exact ⟨rfl, rfl, rfl, rfl, rfl, rfl, rfl, id⟩
  · split
    · split
      · exact ⟨rfl, rfl, rfl, rfl, rfl, rfl, rfl, id⟩
      · exact (bandOff_keepsTick s pd).trans ⟨rfl, rfl, rfl, rfl, rfl, rfl, rfl, id⟩
    · exact KeepsTick.refl s

/-- Every quire changed beside its scrub registers. -/
theorem updAllQ_keepsTick (s : State) {f : Fin 64 → Quire → Quire} (hf : ∀ q qr, (f q qr).bank = qr.bank) :
    KeepsTick s (updAllQ s f) := by
  refine ⟨?_, ?_, ?_, ?_, ?_, ?_, ?_, fun h q => ?_⟩
  · rw [updAllQ_clk]
  · rw [updAllQ_clk]
  · rw [updAllQ_pwr]
  · rw [updAllQ_pwr]
  · rw [updAllQ_flash]
  · rw [updAllQ_host]
  · rw [updAllQ_pending]
  · rw [updAllQ_quires, hf]
    exact h q

theorem startRuns_keepsTick (s : State) : KeepsTick s (startRuns s) := by
  unfold startRuns
  split
  · refine (updAllQ_keepsTick _ fun _ qr => ?_).after ⟨rfl, rfl, rfl, rfl, rfl, rfl, rfl, id⟩
    split <;> rfl
  · exact KeepsTick.refl s

/-- Behind the starts of a tick no run whose first tick has come waits. -/
theorem startRuns_comesUp (s : State) (q : Fin 64) : comesUp (tick s) (startRuns s).quires[q] = false := by
  unfold startRuns
  split
  · rw [updAllQ_quires]
    split
    · rfl
    · next h => exact Bool.eq_false_iff.2 h
  · next h =>
    simp only [List.any_eq_true, not_exists, not_and] at h
    exact Bool.eq_false_iff.2 (h q (List.mem_finRange q))

/-- The state in which a tick begins anew, the firmware behind its work. -/
def tickBase (s : State) : State := updAllQ (newTick (countTick (tickFirmware s))) (fun _ => tickQuire)

/-- What comes about at the tick. -/
def tickEvents (s : State) : State := takeDomains (resetPhase s)

theorem tickEvents_keepsTick (s : State) : KeepsTick s (tickEvents s) :=
  (resetPhase_keepsTick s).trans (KeepsTick.foldl takeDomain_keepsTick softDomains _)

/-- The tick of a powered module in which nothing is in flight. -/
theorem stitchTick_still {s : State} (hw : s.pwr.powered = true) (hs : s.still) :
    stitchTick s = { startRuns (tickEvents (tickBase s)) with w1c := w1cSnapshot (startRuns (tickEvents (tickBase s))) } := by
  rw [stitchTick, hw, catchUp_still hs]
  rfl

/-- A task 0 in a run that has not begun waits for its first tick. -/
theorem comesUp_false {n : Nat} {qr : Quire} (h : comesUp n qr = false) (hr : qr.seq.inRun = false)
    (hl : qr.seq.tasks[0].live = true) : n < qr.seq.tasks[0].startsAt := by
  simpa [comesUp, hr, hl] using h

theorem step_empty {s : State} (h : s.pending = []) : step s = .next (stitchTick s) := by
  unfold step
  rw [h]

/-- No step stops the block: a tick answers a next state, and so does every command. -/
theorem step_completes (s : State) : Completes (step s) := by
  unfold step
  split
  · exact ⟨_, rfl⟩
  · exact exec_completes _ _

/-- Settles O2: what the firmware does and what comes about at a tick, one after the other. -/
theorem idleTick : Obligations.IdleTick := by
  unfold Obligations.IdleTick
  refine ⟨fun s hp hw hs => ?_, fun s hp hw => ?_, step_completes⟩
  · have hf := tickFirmware_keepsRoot s
    have hk := (tickEvents_keepsTick (tickBase s)).trans (startRuns_keepsTick _)
    have hc := startRuns_comesUp (tickEvents (tickBase s))
    have ht : tick (startRuns (tickEvents (tickBase s))) = tick (tickEvents (tickBase s)) :=
      congrArg BitVec.toNat (startRuns_keepsTick _).stitch
    have hb : (tickBase s).scrubTaken := fun q => by rw [tickBase, updAllQ_quires]; rfl
    refine ⟨_, (step_empty hp).trans (congrArg _ (stitchTick_still hw hs)), ?_, ?_, ?_, ?_, hk.scrub hb, ?_, ?_, ?_, fun q hr hl => ?_⟩
    · refine hk.stitch.trans ?_
      rw [tickBase, updAllQ_clk]
      exact congrArg (fun c : Clk => c.stitch + 1) hf.clk
    · refine hk.pending.trans ?_
      rw [tickBase, updAllQ_pending]
      exact hf.pending.trans hp
    · refine hk.powered.trans ?_
      rw [tickBase, updAllQ_pwr]
      exact (congrArg Pwr.powered hf.pwr).trans hw
    · refine hk.flash.trans ?_
      rw [tickBase, updAllQ_flash]
      exact hf.flash
    · refine hk.taken.trans ?_
      rw [tickBase, updAllQ_host]
      rfl
    · refine hk.sampled.trans ?_
      rw [tickBase, updAllQ_pwr]
      rfl
    · refine hk.droop.trans ?_
      rw [tickBase, updAllQ_clk]
      show (tickFirmware s).clk.droopCfg = _
      rw [hf.clk]
    · have h := comesUp_false (hc q) hr hl
      rwa [← ht] at h
  · rw [step_empty hp, stitchTick, hw]
    rfl
end Sys2Proof.Machine
end

section
/-! Scalar instructions and waits that are met at once (R120 R182 R189 R284 R286 R306). -/

namespace Sys2Proof.Machine

/-! ## Results in registers (R286) -/

/-- An instruction that reads ready registers and writes RD clear of any unit computes. -/
theorem computes_of_body {s : State} {q : Fin 64} {t : Fin 4} {w : Word} {op : Nat} {regs : List Nat} {v : Word} {y : Nat}
    {body : State → Nat → Res}
    (hb : body (issueState s q t) (issueLc s q t) =
      .done (setReg (noteEarly (issueState s q t) q t (issueLc s q t) regs) q t (issueLc s q t) (wRD w) v y)) :
    Computes s q t w op regs v y (.next (issueRow op q t w body s)) := by
  intro hi hr hw
  rw [hr.noteEarly, hw.setReg] at hb
  refine hi.retires hb ?_
  rw [withReg_live]
  exact hi.live

/-- An instruction that reads no register computes. -/
theorem computes_of_load {s : State} {q : Fin 64} {t : Fin 4} {w : Word} {op : Nat} {v : Word} {y : Nat}
    {body : State → Nat → Res}
    (hb : body (issueState s q t) (issueLc s q t) = .done (setReg (issueState s q t) q t (issueLc s q t) (wRD w) v y)) :
    Computes s q t w op [] v y (.next (issueRow op q t w body s)) :=
  computes_of_body (by rw [(readsReady_nil s q t).noteEarly, hb])

theorem shiftBody_done {w : Word} (h : fld w 16 32 < 64) (q : Fin 64) (t : Fin 4) (f : Word → Nat → Word) (s : State) (x : Nat) :
    shiftBody q t w f s x = unaryBody q t w (fun a => f a (fld w 16 32)) s x := if_neg (Nat.not_le.2 h)

theorem wImmZ_eq (w : Word) : wImmZ w = (BitVec.ofNat 32 (fld w 16 32)).zeroExtend 64 := by
  have h := fld_lt w 16 32
  apply BitVec.eq_of_toNat_eq
  simp only [wImmZ, wImm, BitVec.toNat_ofNat, BitVec.zeroExtend, BitVec.toNat_setWidth]
  omega

theorem toNat_imm {w : Word} (h : fld w 16 32 < 64) : (BitVec.ofNat 32 (fld w 16 32)).toNat = fld w 16 32 := by
  rw [BitVec.toNat_ofNat]; omega

theorem slt_wImmS (a w : Word) : a.slt (wImmS w) = decide (a.toInt < (BitVec.ofNat 32 (fld w 16 32)).toInt) := by
  rw [BitVec.slt, wImmS, BitVec.toInt_signExtend_of_le (by decide), wImm]

/-- The upper half of RD replaced by the immediate. -/
theorem lihValue_eq (w a : Word) :
    BitVec.ofNat 64 (wImm w * 2 ^ 32 + a.toNat % 2 ^ 32) = BitVec.ofNat 32 (fld w 16 32) ++ a.setWidth 32 := by
  have h := fld_lt w 16 32
  apply BitVec.eq_of_toNat_eq
  rw [BitVec.toNat_append, BitVec.toNat_setWidth, BitVec.toNat_ofNat, BitVec.toNat_ofNat, Nat.mod_eq_of_lt h, wImm,
    ← Nat.shiftLeft_eq, Nat.shiftLeft_add_eq_or_of_lt (Nat.mod_lt _ (by decide)), Nat.mod_eq_of_lt]
  exact Nat.or_lt_two_pow (by rw [Nat.shiftLeft_eq]; omega) (by omega)

/-- The sixteen functions of ALU, by their number. -/
theorem aluResult_eq_table (fn : Nat) (a b : Word) :
    aluResult fn a b =
      [a + b, a - b, a &&& b, a ||| b, a ^^^ b, a <<< (b.toNat % 64), a >>> (b.toNat % 64), a.sshiftRight (b.toNat % 64), a * b,
        if a.toInt < b.toInt then 1 else 0, if a.toNat < b.toNat then 1 else 0, if a = b then 1 else 0,
        if a.toInt < b.toInt then a else b, if a.toInt < b.toInt then b else a, if a.toNat < b.toNat then a else b,
        if a.toNat < b.toNat then b else a][fn]? := by
  match fn with
  | 0 | 1 | 2 | 3 | 4 | 5 | 6 | 7 | 8 | 11 => rfl
  | 9 | 10 | 12 | 13 | 14 | 15 => simp [aluResult, BitVec.slt, BitVec.ult]
  | _ + 16 => rfl

theorem aluBody_done {w v : Word} {s : State} {q : Fin 64} {t : Fin 4} {x : Nat}
    (h : aluResult (fld w 21 7) (srcReg s q t (wRA w)) (srcReg s q t (wRB w)) = some v) :
    aluBody q t w s x = .done (setReg (noteEarly s q t x [wRA w, wRB w]) q t x (wRD w) v (aluReady (fld w 21 7) x)) := by
  simp only [aluBody, h]

theorem aluReady_eq (fn x : Nat) : aluReady fn x = x + if fn = 8 then 3 else 1 := by
  unfold aluReady
  split <;> rfl

/-- Settles O9: each body names the registers it reads and the value it writes. -/
theorem scalarResults : Obligations.ScalarResults := by
  unfold Obligations.ScalarResults
  refine ⟨fun s q t w => ?_, fun s q t w => ?_, fun s q t w => ?_⟩
  · refine ⟨computes_of_body rfl, computes_of_body ?_, computes_of_body ?_, computes_of_body ?_, computes_of_body ?_, fun h => ?_⟩
    · rw [← wImmZ_eq]; rfl
    · rw [← wImmZ_eq]; rfl
    · rw [← wImmZ_eq]; rfl
    · simp only [unaryBody, slt_wImmS, decide_eq_true_eq]
      rfl
    · rw [toNat_imm (by rwa [BitVec.toNat_ofNat, Nat.mod_eq_of_lt (fld_lt w 16 32)] at h)]
      rw [BitVec.toNat_ofNat, Nat.mod_eq_of_lt (fld_lt w 16 32)] at h
      exact ⟨computes_of_body (shiftBody_done h q t _ _ _), computes_of_body (shiftBody_done h q t _ _ _),
        computes_of_body (shiftBody_done h q t _ _ _)⟩
  · intro a b n sMin sMax uMin uMax table fn v hfn hv
    rw [← hfn] at hv ⊢
    rw [← aluReady_eq]
    exact computes_of_body (aluBody_done ((aluResult_eq_table _ a b).trans hv))
  · refine ⟨computes_of_load rfl, computes_of_body ?_⟩
    rw [← lihValue_eq]
    rfl

/-! ## Waits that are met at once (R182 R189) -/

theorem oldestIssued_none {qr : Quire} {t : Fin 4} (h : ∀ l ∈ qr.stream.landings, l.task = t → l.issued = false) :
    oldestIssued qr t = none := by
  rw [oldestIssued, List.findIdx?_eq_none_iff]
  intro l hl
  rw [Bool.and_eq_false_imp, beq_iff_eq]
  exact h l hl

theorem waitsBody_idle {s : State} {q : Fin 64} {t : Fin 4} (w : Word) (x : Nat)
    (h : ∀ l ∈ s.quires[q].stream.landings, l.task = t → l.issued = false) : waitsBody q t w s x = .done s := by
  simp only [waitsBody, oldestIssued_none h]

theorem inTime_of_ready {qr : Quire} {t : Fin 4} {x ready : Nat} (h : t ≠ 0 ∨ ready ≤ x) : inTime qr t x ready = true := by
  obtain h | h := h <;> simp [inTime, h]

theorem waitwBody_idle {s : State} {q : Fin 64} {t : Fin 4} (w : Word) {x : Nat}
    (h : ∀ o ∈ s.quires[q].stream.writes, o.task ≠ t)
    (hd : ∀ d ∈ s.quires[q].stream.doneWrites, d.task = t → t ≠ 0 ∨ d.ready ≤ x) : waitwBody q t w s x = .done s := by
  have h1 : s.quires[q].stream.writes.any (fun o => o.task == t) = false := by
    rw [List.any_eq_false]
    intro o ho
    simpa using h o ho
  have h2 : (lateWrites s.quires[q] t x).any (fun d => d.task == t) = false := by
    rw [List.any_eq_false]
    intro d hm ht
    rw [lateWrites, List.mem_filter] at hm
    obtain ⟨hm, hn⟩ := hm
    rw [inTime_of_ready (hd d hm (by simpa using ht))] at hn
    simp at hn
  unfold waitwBody
  dsimp only
  rw [h1, h2]
  rfl

/-- Settles O8: each of the three bodies is done with the state unchanged. -/
theorem nopAndMetWaits : Obligations.NopAndMetWaits := by
  unfold Obligations.NopAndMetWaits
  intro s q t w
  exact ⟨fun hi => hi.retires rfl hi.live, fun hi h => hi.retires (waitsBody_idle w _ h) hi.live,
    fun hi h hd => hi.retires (waitwBody_idle w h hd) hi.live⟩

end Sys2Proof.Machine
end

section
/-! Faults at the issue of an instruction: what a stop keeps of the FAULT registers and of the code of a task, and every
instruction that breaks a check (R284 R297 R522 R523). -/

namespace Sys2Proof.Machine

/-! ## What a stop keeps -/

/-- The FAULT registers of the units beside the sequencer (R522). -/
def Quire.faultRegs (k : Quire) : Word × Word × Word × Word × Word :=
  (k.array.fault, k.rstop.fault, k.stream.fault, k.vec.fault, k.upd.fault)

/-- Where a task stands and how long its code is. -/
def Task.place (tk : Task) : BitVec 14 × Nat := (tk.pc, tk.codeCount)

/-- A stop keeps the FAULT registers of the units, and where each task stands in its code. -/
structure KeepsFaults (a b : Quire) : Prop where
  regs : b.faultRegs = a.faultRegs
  place : ∀ k : Fin 4, b.seq.tasks[k].place = a.seq.tasks[k].place

theorem KeepsFaults.refl (a : Quire) : KeepsFaults a a := ⟨rfl, fun _ => rfl⟩

theorem KeepsFaults.trans {a b c : Quire} (h : KeepsFaults a b) (g : KeepsFaults b c) : KeepsFaults a c :=
  ⟨g.regs.trans h.regs, fun k => (g.place k).trans (h.place k)⟩

/-- A bit outside a field is not touched by a write of the field. -/
theorem getLsbD_setFld (w : Word) (lo len v i : Nat) (hi : i < 64) :
    (setFld w lo len v).getLsbD i = if lo ≤ i ∧ i < lo + len then v.testBit (i - lo) else w.getLsbD i := by
  have hm : (maskOf lo len).getLsbD i = decide (lo ≤ i ∧ i < lo + len) := by
    simp only [maskOf, BitVec.getLsbD_ofNat, hi, decide_true, Bool.true_and, Nat.testBit_shiftLeft, Nat.testBit_two_pow_sub_one]
    by_cases h : lo ≤ i
    · simp only [h, decide_true, Bool.true_and, true_and, decide_eq_decide]
      omega
    · simp [h]
  have hv : (BitVec.ofNat 64 ((v % 2 ^ len) <<< lo)).getLsbD i = (decide (lo ≤ i ∧ i < lo + len) && v.testBit (i - lo)) := by
    simp only [BitVec.getLsbD_ofNat, hi, decide_true, Bool.true_and, Nat.testBit_shiftLeft, Nat.testBit_mod_two_pow]
    by_cases h : lo ≤ i
    · by_cases h' : i < lo + len
      · have : i - lo < len := by omega
        simp [h, h', this]
      · have : ¬ i - lo < len := by omega
        simp [h', this]
    · simp [h]
  simp only [setFld, BitVec.getLsbD_or, BitVec.getLsbD_and, BitVec.getLsbD_not, hi, decide_true, Bool.true_and, hm, hv]
  by_cases h : lo ≤ i ∧ i < lo + len <;> simp [h]

/-- A field is read as before a write of another field. -/
theorem fld_setFld_of_disjoint (w : Word) {lo len lo' len' : Nat} (v : Nat) (h : lo + len ≤ lo' ∨ lo' + len' ≤ lo) :
    fld (setFld w lo len v) lo' len' = fld w lo' len' := by
  apply Nat.eq_of_testBit_eq
  intro i
  rw [testBit_fld, testBit_fld, bit_eq_testBit, bit_eq_testBit, BitVec.testBit_toNat, BitVec.testBit_toNat]
  by_cases hi : i < len'
  · by_cases h64 : lo' + i < 64
    · rw [getLsbD_setFld _ _ _ _ _ h64, if_neg (by omega)]
    · rw [BitVec.getLsbD_of_ge _ _ (by omega), BitVec.getLsbD_of_ge _ _ (by omega)]
  · simp [hi]

/-- A field that a write has just set reads back. -/
theorem fld_setFld_same (w : Word) {lo len : Nat} (v : Nat) (h : lo + len ≤ 64) : fld (setFld w lo len v) lo len = v % 2 ^ len := by
  apply Nat.eq_of_testBit_eq
  intro i
  rw [testBit_fld, bit_eq_testBit, BitVec.testBit_toNat, Nat.testBit_mod_two_pow]
  by_cases hi : i < len
  · rw [getLsbD_setFld _ _ _ _ _ (by omega), if_pos (by omega), Nat.add_sub_cancel_left]
  · simp [hi]

theorem stopContext_place (lc how : Nat) (tk : Task) : (stopContext lc how tk).place = tk.place := by
  simp only [Task.place, Task.codeCount, stopContext, settleRegs, Prod.mk.injEq, true_and]
  exact fld_setFld_of_disjoint _ _ (by decide)

theorem updTask_keepsFaults (a : Quire) (t : Fin 4) {f : Task → Task} (hf : ∀ tk, (f tk).place = tk.place) :
    KeepsFaults a (updTask a t f) := by
  refine ⟨rfl, fun k => ?_⟩
  by_cases h : k = t
  · subst h; rw [updTask_task_self, hf]
  · rw [updTask_task_ne a f h]

theorem stopUnits_keepsFaults (how : Nat) (t : Fin 4) (a : Quire) : KeepsFaults a (stopUnits how t a) := by
  have key : ∀ c : Quire, c.seq = a.seq → c.faultRegs = a.faultRegs →
      KeepsFaults a (let qr := updTask c t (stopContext a.seq.lc how); if t = 0 then stopRun qr else qr) := by
    intro c hs hr
    have h1 := updTask_keepsFaults c t (stopContext_place a.seq.lc how)
    have h2 : KeepsFaults a c := ⟨hr, fun k => by rw [hs]⟩
    dsimp only
    split
    · exact (h2.trans h1).trans ⟨rfl, fun _ => rfl⟩
    · exact h2.trans h1
  simp only [stopUnits]
  apply key
  · (repeat' split) <;> rfl
  · (repeat' split) <;> rfl

theorem bookStand_keepsFaults (s : State) (q b : Fin 64) : KeepsFaults s.quires[b] (bookStand s q).quires[b] := by
  by_cases h : b = q
  · subst h
    obtain ⟨v, hv⟩ := bookStand_quires_self s b
    rw [hv]
    exact ⟨rfl, fun _ => rfl⟩
  · rw [bookStand_quires_ne s h]
    exact KeepsFaults.refl _

theorem stopTask_keepsFaults (s : State) (q : Fin 64) (t : Fin 4) (how : Nat) (b : Fin 64) :
    KeepsFaults s.quires[b] (stopTask s q t how).quires[b] := by
  rw [stopTask_quires]
  split
  · by_cases h : b = q
    · subst h
      rw [updQ_quires_self]
      split
      · exact (bookStand_keepsFaults s b b).trans (stopUnits_keepsFaults how t _)
      · exact stopUnits_keepsFaults how t _
    · rw [updQ_quires_ne _ _ h]
      split
      · exact bookStand_keepsFaults s q b
      · exact KeepsFaults.refl _
  · exact KeepsFaults.refl _

theorem stopQuire_keepsFaults (s : State) (q : Fin 64) (how : Nat) (b : Fin 64) :
    KeepsFaults s.quires[b] (stopQuire s q how).quires[b] := by
  rw [stopQuire_eq]
  exact (((stopTask_keepsFaults s q 0 how b).trans (stopTask_keepsFaults _ q 1 how b)).trans
    (stopTask_keepsFaults _ q 2 how b)).trans (stopTask_keepsFaults _ q 3 how b)

theorem raiseFault_keepsFaults (s : State) (q : Fin 64) (t : Fin 4) (cls : Nat) (b : Fin 64) :
    KeepsFaults s.quires[b] (raiseFault s q t cls).quires[b] := by
  have h1 := stopQuire_keepsFaults (traceQ s q t 5) q 3 b
  simp only [traceQ_quires] at h1
  have h2 : ∀ (m : State) (f : Task → Task), (∀ tk, (f tk).place = tk.place) →
      KeepsFaults m.quires[b] (updT m q t f).quires[b] := by
    intro m f hf
    by_cases h : b = q
    · subst h
      rw [updT_quires_self]
      exact updTask_keepsFaults _ _ hf
    · rw [updT_quires_ne _ _ _ h]
      exact KeepsFaults.refl _
  unfold raiseFault
  dsimp only
  generalize stopQuire (traceQ s q t 5) q 3 = m at h1
  exact h1.trans (h2 m (fun tk => { tk with state := .faulted }) fun _ => rfl)

/-- A hazard is counted, and the first recorded. -/
theorem noteHazard_quires_self (s : State) (q : Fin 64) (t : Fin 4) (kind unit lc : Nat) :
    ∃ n i, (noteHazard s q t kind unit lc).quires[q] = { s.quires[q] with hazCount := n, hazInfo := i } := by
  simp only [noteHazard, traceQ_quires, updQ_quires_self]
  exact ⟨_, _, rfl⟩

theorem noteHazard_quires_ne (s : State) {q b : Fin 64} (t : Fin 4) (kind unit lc : Nat) (h : b ≠ q) :
    (noteHazard s q t kind unit lc).quires[b] = s.quires[b] := by
  rw [noteHazard, traceQ_quires, updQ_quires_ne _ _ h]

theorem noteHazard_raised (s : State) (q : Fin 64) (t : Fin 4) (kind unit lc : Nat) :
    (noteHazard s q t kind unit lc).bind.raised = s.bind.raised := by
  rw [noteHazard, traceQ_bind, updQ_bind]

theorem noteHazard_keepsFaults (s : State) (q : Fin 64) (t : Fin 4) (kind unit lc : Nat) :
    KeepsFaults s.quires[q] (noteHazard s q t kind unit lc).quires[q] := by
  obtain ⟨n, i, h⟩ := noteHazard_quires_self s q t kind unit lc
  rw [h]
  exact ⟨rfl, fun _ => rfl⟩

theorem hazard_keepsFaults (s : State) (q : Fin 64) (t : Fin 4) (kind unit lc : Nat) :
    KeepsFaults s.quires[q] (hazard s q t kind unit lc).quires[q] := by
  unfold hazard
  split
  · exact KeepsFaults.refl _
  · dsimp only
    split
    · exact (noteHazard_keepsFaults s q t kind unit lc).trans (raiseFault_keepsFaults _ q t 9 q)
    · exact noteHazard_keepsFaults s q t kind unit lc

theorem noteEarly_keepsFaults (s : State) (q : Fin 64) (t : Fin 4) (x : Nat) (regs : List Nat) :
    KeepsFaults s.quires[q] (noteEarly s q t x regs).quires[q] := by
  unfold noteEarly
  split
  · exact hazard_keepsFaults s q t 2 10 x
  · exact KeepsFaults.refl _

theorem setReg_keepsFaults (s : State) (q : Fin 64) (t : Fin 4) (x r : Nat) (v : Word) (y : Nat) :
    KeepsFaults s.quires[q] (setReg s q t x r v y).quires[q] := by
  have h : KeepsFaults s.quires[q] (updT s q t (fun tk => writeReg tk r v y false)).quires[q] := by
    rw [updT_quires_self]
    refine updTask_keepsFaults _ t fun tk => ?_
    simp only [writeReg]
    split <;> rfl
  unfold setReg
  dsimp only
  split
  · exact h.trans (hazard_keepsFaults _ q t 1 10 x)
  · exact h

/-! ## A fault at issue -/

/-- What a fault at issue with a cause in one of the FAULT registers leaves. -/
structure FaultsAt (s u : State) (q : Fin 64) (t : Fin 4) (r : FaultReg) (cause : Nat) : Prop where
  faulted : Faulted s u q t 7
  seq : u.quires[q].seq.fault = (recordFault (issueQuire s q t) r cause t).seq.fault
  regs : u.quires[q].faultRegs = (recordFault (issueQuire s q t) r cause t).faultRegs

theorem programFault_faultRegs (a : State) (q : Fin 64) (t : Fin 4) (r : FaultReg) (cause : Nat) :
    (programFault a q t r cause).quires[q].faultRegs = (recordFault a.quires[q] r cause t).faultRegs := by
  have h := (raiseFault_keepsFaults (updQ a q (fun qr => recordFault qr r cause t)) q t 7 q).regs
  rw [updQ_quires_self] at h
  unfold programFault
  exact h

theorem programFault_faultsAt (s : State) (q : Fin 64) (t : Fin 4) (r : FaultReg) (cause : Nat) :
    FaultsAt s (programFault (issueState s q t) q t r cause) q t r cause := by
  have hp := programFault_faulted (issueState s q t) q t r cause
  have hr := programFault_faultRegs (issueState s q t) q t r cause
  generalize programFault (issueState s q t) q t r cause = u at hp hr ⊢
  obtain ⟨g1, g2, g3, g4, g5, g6, g7, g8, g9, g10, -⟩ := hp
  exact ⟨⟨g1, g2, g3, g4, g5, g6, g7, g8, g9⟩, g10, hr⟩

/-- A hazard reported beside the fault changes none of it. -/
theorem FaultsAt.noteHazard {s u : State} {q : Fin 64} {t : Fin 4} {r : FaultReg} {cause : Nat} (h : FaultsAt s u q t r cause)
    (kind unit lc : Nat) : FaultsAt s (noteHazard u q t kind unit lc) q t r cause := by
  obtain ⟨⟨h1, h2, h3, h4, h5, h6, h7, h8, h9⟩, h10, h11⟩ := h
  obtain ⟨n, i, e⟩ := noteHazard_quires_self u q t kind unit lc
  refine ⟨⟨?_, ?_, ?_, ?_, ?_, ?_, ?_, fun b hb => ?_, ?_⟩, ?_, ?_⟩
  · rw [e]; exact h1
  · rw [e]; exact h2
  · rw [e]; exact h3
  · rw [e]; exact h4
  · rw [e]; exact h5
  · rw [e]; exact h6
  · rw [e]; exact h7
  · rw [noteHazard_quires_ne u t kind unit lc hb]; exact h8 b hb
  · rw [noteHazard_raised]; exact h9
  · rw [e]; exact h10
  · rw [e]; exact h11

/-- Where nothing was in flight, nothing is behind a fault. -/
theorem programFault_quiet {a : State} (h : a.quiet) (q : Fin 64) (t : Fin 4) (r : FaultReg) (cause : Nat) :
    (programFault a q t r cause).quiet := by
  obtain ⟨-, -, -, -, -, -, -, ho, -, -, hf⟩ := programFault_faulted a q t r cause
  intro b
  by_cases hb : b = q
  · subst hb; exact hf (h b)
  · rw [ho b hb]; exact h b

theorem noteHazard_quiet {a : State} (h : a.quiet) (q : Fin 64) (t : Fin 4) (kind unit lc : Nat) :
    (noteHazard a q t kind unit lc).quiet := by
  intro b
  by_cases hb : b = q
  · subst hb
    obtain ⟨n, i, e⟩ := noteHazard_quires_self a b t kind unit lc
    rw [e]; exact h b
  · rw [noteHazard_quires_ne a t kind unit lc hb]; exact h b

/-- An instruction that breaks a check faults at its issue, whether or not it reads a register early. -/
theorem Issues.faults {s : State} {q : Fin 64} {t : Fin 4} {w : Word} {op : Nat} (h : Issues s q t w op)
    {body : State → Nat → Res} {r : FaultReg} {cause : Nat} {reads : List Nat}
    (hb : body (issueState s q t) (issueLc s q t) = .bad r cause reads) (hq : (issueState s q t).quiet) :
    FaultsAt s (issueRow op q t w body s) q t r cause := by
  have hf := programFault_faultsAt s q t r cause
  have hz := programFault_quiet hq q t r cause
  have key : ∀ u, applyRes (issueState s q t) q t w (body (issueState s q t) (issueLc s q t)) = u →
      FaultsAt s u q t r cause → u.quiet → FaultsAt s (issueRow op q t w body s) q t r cause := by
    intro u hu hf hz
    have hl : ¬ u.quires[q].seq.tasks[t].live = true := by rw [hf.faulted.stopped t]; decide
    rw [h.row body hu, if_neg hl, settle_quiet hz]
    exact hf
  by_cases hc : (hazOn (issueState s q t) && readsEarly (issueState s q t) q t (reads.filter (· != 0))) = true
  · exact key _ (by rw [hb]; exact if_pos hc) (hf.noteHazard _ _ _) (noteHazard_quiet hz _ _ _ _ _)
  · exact key _ (by rw [hb]; exact if_neg hc) hf hz

theorem FaultsAt.seqFault {s u : State} {q : Fin 64} {t : Fin 4} {cause : Nat} (h : FaultsAt s u q t .seq cause) :
    SeqFault s q t cause (.next u) :=
  ⟨u, rfl, h.faulted, h.seq.trans rfl⟩

theorem FaultsAt.rstopFault {s u : State} {q : Fin 64} {t : Fin 4} {cause : Nat} (h : FaultsAt s u q t .rstop cause) :
    RstopFault s q t cause (.next u) :=
  ⟨u, rfl, h.faulted, congrArg (fun r => r.2.1) h.regs⟩

theorem FaultsAt.updFault {s u : State} {q : Fin 64} {t : Fin 4} {cause : Nat} (h : FaultsAt s u q t .upd cause) :
    UpdFault s q t cause (.next u) :=
  ⟨u, rfl, h.faulted, congrArg (fun r => r.2.2.2.2) h.regs⟩

/-! ## Illegal words (R284) -/

/-- A word with a bit set that its format does not list is the fault of its issue, whatever the instruction does. -/
theorem issueRow_of_wordFieldsBad {s : State} {q : Fin 64} {t : Fin 4} {w : Word} {op : Nat} (h1 : canIssue s q t w op = true)
    (h2 : canIssue (arrive s q t) q t w op = true) (hw : wordFieldsOk op w = false) (body : State → Nat → Res) {u : State}
    (hu : programFault (issueState s q t) q t .seq 2 = u) :
    issueRow op q t w body s =
      if u.quires[q].seq.tasks[t].live then u else settle (.edge (issueEdge (arrive s q t) q t + 1)) u := by
  have e : atIssue (arrive s q t) q t = issueState s q t := rfl
  simp only [issueRow, h1, h2, issueNow, hw, e, hu, Bool.not_true, Bool.not_false, Bool.false_eq_true, if_false, if_true]

theorem issueRow_illegal {s : State} {q : Fin 64} {t : Fin 4} {w : Word} {op : Nat} (h1 : canIssue s q t w op = true)
    (h2 : canIssue (arrive s q t) q t w op = true) (hw : wordFieldsOk op w = false) (hq : (issueState s q t).quiet)
    (body : State → Nat → Res) : SeqFault s q t 2 (.next (issueRow op q t w body s)) := by
  have hf := programFault_faultsAt s q t .seq 2
  have hz := programFault_quiet hq q t .seq 2
  have hr := fun u => issueRow_of_wordFieldsBad (u := u) h1 h2 hw body
  generalize programFault (issueState s q t) q t .seq 2 = u at hf hz hr
  have hl : ¬ u.quires[q].seq.tasks[t].live = true := by rw [hf.faulted.stopped t]; decide
  rw [hr u rfl, if_neg hl, settle_quiet hz]
  exact hf.seqFault

theorem aluResult_none {fn : Nat} (h : 16 ≤ fn) (a b : Word) : aluResult fn a b = none := by
  rw [aluResult_eq_table]
  exact List.getElem?_eq_none h

theorem brCond_none {cc : Nat} (h : 6 ≤ cc) (a b : Word) : brCond cc a b = none := by
  match cc, h with
  | _ + 6, _ => rfl

/-- Settles O13: each illegal field makes its body answer the fault. -/
theorem illegalWords : Obligations.IllegalWords := by
  unfold Obligations.IllegalWords
  intro s q t w hq
  refine ⟨fun op h1 h2 hw => ⟨?_, ?_, ?_, ?_⟩, fun hi h => ?_, fun hi h => ?_, fun hi h => ?_, fun hi h => ?_, fun hi h => ?_,
    fun hi h => ?_⟩
  · rintro rfl; exact issueRow_illegal h1 h2 hw hq _
  · rintro rfl; exact issueRow_illegal h1 h2 hw hq _
  · rintro rfl; exact issueRow_illegal h1 h2 hw hq _
  · rintro rfl; exact issueRow_illegal h1 h2 hw hq _
  · exact (hi.faults (body := aluBody q t w) (reads := []) (by simp only [aluBody, aluResult_none h]) hq).seqFault
  · exact (hi.faults (body := shiftBody q t w (fun a n => a <<< n)) (if_pos h) hq).seqFault
  · exact (hi.faults (reads := []) (by simp only [brCond_none h]) hq).seqFault
  · exact (hi.faults (if_pos h) hq).seqFault
  · exact (hi.faults (if_pos h) hq).seqFault
  · exact (hi.faults (body := sethpBody q t w) (if_pos h) hq).seqFault

end Sys2Proof.Machine
end

section
/-! Instructions of task 0 alone, branches, IDLE, YIELD and END (R106 R183 R240 R273–R276 R288 R290). -/

namespace Sys2Proof.Machine

/-! ## Reserved to task 0 (R106 R240 R290) -/

theorem lwaitBody_filler {s : State} {q : Fin 64} {t : Fin 4} (ht : t ≠ 0) (w : Word) (x : Nat) :
    lwaitBody q t w s x = .bad .seq (if fld w 6 5 < 26 then 5 else 2) := by
  unfold lwaitBody
  by_cases h : fld w 6 5 < 26 <;> simp [h, ht]

theorem yieldBody_filler {t : Fin 4} (ht : t ≠ 0) (w : Word) (s : State) :
    (if fld w 16 16 = 0 then Res.bad .seq 2 else if t ≠ 0 then .bad .seq 5 else .window s (fld w 16 16)) =
      .bad .seq (if fld w 16 16 = 0 then 2 else 5) := by
  by_cases h : fld w 16 16 = 0 <;> simp [h, ht]

theorem injectBody_filler {s : State} {q : Fin 64} {t : Fin 4} (ht : t ≠ 0) {w : Word} (hw : injectLegal w = true) (x : Nat) :
    injectBody q t w s x = .bad .rstop 1 := by
  unfold injectBody
  dsimp only
  rw [hw, if_neg (by decide), if_pos ht]

theorem copyBody_filler {s : State} {q : Fin 64} {t : Fin 4} (ht : t ≠ 0) {w : Word} (hw : fld w 7 2 ≠ 3) (x : Nat) :
    copyBody q t w s x = .bad .rstop 1 := (if_neg hw).trans (if_pos ht)

theorem spliceBody_filler {s : State} {q : Fin 64} {t : Fin 4} (ht : t ≠ 0) (w : Word) (x : Nat) :
    spliceBody q t w s x = .bad .rstop (if maskLegal (BitVec.ofNat 16 (fld w 6 16)) then 1 else 4) := by
  unfold spliceBody
  cases h : maskLegal (BitVec.ofNat 16 (fld w 6 16)) <;> simp [h, ht]

/-- A UPD of a filler: what is illegal by itself comes first. -/
theorem updBody_filler {s : State} {q : Fin 64} {t : Fin 4} (ht : t ≠ 0) (w : Word) (x : Nat) :
    let layer := readBytes s.quires[q].mem.descActive (64 * fld w 12 10) 64
    ∃ reads, updBody q t w s x =
      .bad .upd (if (fld w 10 2 = 3 ∨ fld w 6 4 = 0) ∧ layerOk layer (parseLayer layer) (fld w 10 2) = true then 3 else 1) reads := by
  intro layer
  have e : storeEntry s.quires[q].mem.descActive (fld w 12 10) = layer := rfl
  simp only [updBody, e]
  by_cases h1 : fld w 10 2 ≠ 3 ∧ fld w 6 4 ≠ 0
  · exact ⟨[], by simp [h1]⟩
  · have hp : fld w 10 2 = 3 ∨ fld w 6 4 = 0 := by tauto
    refine ⟨if fld w 10 2 = 3 then [2 * fld w 6 4] else [], ?_⟩
    cases h2 : layerOk layer (parseLayer layer) (fld w 10 2)
    · rw [if_neg (by simpa using h1)]
      simp
    · rw [if_neg (by simpa using h1)]
      simp [hp, ht]

theorem ugetBody_filler {s : State} {q : Fin 64} {t : Fin 4} (ht : t ≠ 0) (w : Word) (x : Nat) :
    ugetBody q t w s x = .bad .upd (if fld w 11 11 ≤ 1039 then 3 else 4) := by
  unfold ugetBody
  by_cases h : fld w 11 11 ≤ 1039
  · simp [h, ht, Nat.not_lt.2 h]
  · simp [h, Nat.not_le.1 h]

theorem ustatBody_filler {s : State} {q : Fin 64} {t : Fin 4} (ht : t ≠ 0) (w : Word) (x : Nat) :
    ustatBody q t w s x = .bad .upd (if wRD w % 2 = 0 then 3 else 1) := by
  unfold ustatBody
  rw [show wRD w = fld w 6 5 from rfl]
  obtain h | h := Nat.mod_two_eq_zero_or_one (fld w 6 5) <;> simp [h, ht]

/-- Settles O18: issued by a filler, each body answers its fault. -/
theorem reservedToTaskZero : Obligations.ReservedToTaskZero := by
  unfold Obligations.ReservedToTaskZero
  intro s q t w ht hq layer
  refine ⟨fun hi => ?_, fun hi => ?_, fun hi => ?_, fun hi h => ?_, fun hi => ?_, fun hi h => ?_, fun hi => ?_, fun hi => ?_,
    fun hi => ?_, fun hi => ?_, fun hi => ?_⟩
  · exact (hi.faults (reads := []) (yieldBody_filler ht w _) hq).seqFault
  · exact (hi.faults (lwaitBody_filler ht w _) hq).seqFault
  · exact (hi.faults (body := xwaitBody q t w) (reads := []) (if_pos ht) hq).seqFault
  · exact (hi.faults (injectBody_filler ht h _) hq).rstopFault
  · exact (hi.faults (body := landBody q t w) (reads := []) (if_pos ht) hq).rstopFault
  · exact (hi.faults (copyBody_filler ht h _) hq).rstopFault
  · exact (hi.faults (body := reduceBody q t w) (reads := []) (if_pos ht) hq).rstopFault
  · exact (hi.faults (spliceBody_filler ht w _) hq).rstopFault
  · obtain ⟨reads, hb⟩ := updBody_filler (s := issueState s q t) (q := q) ht w (issueLc s q t)
    exact (hi.faults hb hq).updFault
  · exact (hi.faults (ugetBody_filler ht w _) hq).updFault
  · exact (hi.faults (ustatBody_filler ht w _) hq).updFault

/-! ## Branches (R183 R288) -/

/-- The six comparisons of BR, by their CC. -/
theorem brCond_eq_table (cc : Nat) (a c : Word) :
    brCond cc a c = [decide (a = c), decide (a ≠ c), decide (a.toInt < c.toInt), decide (c.toInt ≤ a.toInt),
      decide (a.toNat < c.toNat), decide (c.toNat ≤ a.toNat)][cc]? := by
  match cc with
  | 0 | 1 => simp [brCond, bne, beq_eq_decide]
  | 2 | 4 => simp [brCond, BitVec.slt, BitVec.ult]
  | 3 | 5 => simp only [brCond, BitVec.slt, BitVec.ult, ← decide_not, Int.not_lt, Nat.not_lt]; rfl
  | _ + 6 => rfl

theorem takeBranch_within {s : State} {q : Fin 64} {t : Fin 4} {n : Int} (h0 : 0 ≤ n)
    (h : n < (s.quires[q].seq.tasks[t].codeCount : Int)) : takeBranch s q t n = .jump (branchDiscard s q t) n.toNat :=
  if_neg (by simp only [Bool.or_eq_true, decide_eq_true_eq]; omega)

theorem takeBranch_beyond {s : State} {q : Fin 64} {t : Fin 4} {n : Int}
    (h : n < 0 ∨ (s.quires[q].seq.tasks[t].codeCount : Int) ≤ n) : takeBranch s q t n = .bad .seq 3 :=
  if_pos (by simpa using h)

theorem branchDiscard_live (s : State) (q : Fin 64) (t : Fin 4) :
    (branchDiscard s q t).quires[q].seq.tasks[t].live = s.quires[q].seq.tasks[t].live := by
  rw [branchDiscard, updQ_quires_self]
  rfl

/-- A taken branch retires at its target, landings ahead of it discarded. -/
theorem Issues.branches {s a : State} {q : Fin 64} {t : Fin 4} {w : Word} {op n : Nat} (h : Issues s q t w op)
    {body : State → Nat → Res} (hb : body (issueState s q t) (issueLc s q t) = .jump (branchDiscard a q t) n)
    (hl : a.quires[q].seq.tasks[t].live = true) :
    ∃ u, (.next (issueRow op q t w body s) : Host.Outcome State Fault Refusal) = .next u
      ∧ Retired (branchDiscard a q t) u q t (BitVec.ofNat 14 n) :=
  ⟨_, congrArg _ (h.jump hb ((branchDiscard_live a q t).trans hl)), retired_retire _ _ _ _⟩

theorem withReg_codeCount (a : State) (q : Fin 64) (t : Fin 4) (r : Nat) (v : Word) (y : Nat) :
    (withReg a q t r v y).quires[q].seq.tasks[t].codeCount = a.quires[q].seq.tasks[t].codeCount := by
  rw [withReg, updT_quires_self, updTask_task_self, writeReg]
  split <;> rfl

theorem KeepsFaults.pc {a b : Quire} (h : KeepsFaults a b) (t : Fin 4) : b.seq.tasks[t].pc = a.seq.tasks[t].pc :=
  congrArg Prod.fst (h.place t)

theorem KeepsFaults.codeCount {a b : Quire} (h : KeepsFaults a b) (t : Fin 4) :
    b.seq.tasks[t].codeCount = a.seq.tasks[t].codeCount := congrArg Prod.snd (h.place t)

theorem relTarget_of_pc {a b : State} {q : Fin 64} {t : Fin 4} (h : b.quires[q].seq.tasks[t].pc = a.quires[q].seq.tasks[t].pc)
    (w : Word) : relTarget b q t w = relTarget a q t w := by
  simp only [relTarget, h]

/-- Settles O12: a branch in bounds jumps, one out of bounds is the fault; a hazard of its reads or of its write moves neither
the task's place nor its code. -/
theorem branchesAndBounds : Obligations.BranchesAndBounds := by
  unfold Obligations.BranchesAndBounds
  refine ⟨fun s q t w => ?_, fun s q t w hq => ?_⟩
  · intro b a c conds pc rel within taken
    refine ⟨fun hi hr => ⟨fun hc => ?_, fun hc hn => ?_⟩, fun hi hn => ?_, fun hi hw hn => ?_, fun hi hr hn => ?_⟩
    · have hb := (brCond_eq_table (fld w 6 5) (srcReg b q t (wRA w)) (srcReg b q t (wRB w))).trans hc
      refine hi.retires ?_ hi.live
      simp only [b, hb, hr.noteEarly]
      rfl
    · have hb := (brCond_eq_table (fld w 6 5) (srcReg b q t (wRA w)) (srcReg b q t (wRB w))).trans hc
      refine hi.branches ?_ hi.live
      simp only [b, hb, hr.noteEarly]
      exact congrArg (Res.reading _) (takeBranch_within (n := rel) hn.1 hn.2)
    · exact hi.branches (takeBranch_within (n := rel) hn.1 hn.2) hi.live
    · refine hi.branches ?_ ((withReg_live _ q t _ _ _).trans hi.live)
      simp only [hw.setReg]
      refine takeBranch_within (n := rel) hn.1 ?_
      rw [withReg_codeCount]
      exact hn.2
    · refine hi.branches ?_ hi.live
      simp only [hr.noteEarly]
      exact congrArg (Res.reading _) (takeBranch_within (n := a.toNat) hn.1 hn.2)
  · intro rel beyond
    refine ⟨fun hi hcc hab hn => ?_, fun hi hn => ?_, fun hi hn => ?_, fun hi hn => ?_⟩
    · have hk := noteEarly_keepsFaults (issueState s q t) q t (issueLc s q t) [wRA w, wRB w]
      have hc : brCond (fld w 6 5) (srcReg (issueState s q t) q t (wRA w)) (srcReg (issueState s q t) q t (wRB w)) = some true := by
        rw [hcc]
        exact congrArg some (beq_iff_eq.2 hab)
      refine (hi.faults (reads := [wRA w, wRB w]) ?_ hq).seqFault
      simp only [hc, if_true, relTarget_of_pc (hk.pc t)]
      refine congrArg (Res.reading _) (takeBranch_beyond (n := rel) ?_)
      rw [hk.codeCount t]
      exact hn
    · exact (hi.faults (takeBranch_beyond (n := rel) hn) hq).seqFault
    · refine (hi.faults (reads := []) ?_ hq).seqFault
      refine takeBranch_beyond (n := rel) ?_
      rw [(setReg_keepsFaults _ q t _ _ _ _).codeCount t]
      exact hn
    · have hk := noteEarly_keepsFaults (issueState s q t) q t (issueLc s q t) [wRA w]
      refine (hi.faults (reads := [wRA w]) ?_ hq).seqFault
      refine congrArg (Res.reading _) (takeBranch_beyond (n := (readReg (issueTask s q t) (wRA w)).toNat) ?_)
      rw [hk.codeCount t]
      exact hn

/-! ## IDLE and YIELD (R273 R274) -/

/-- An instruction whose result opens a window or passes bubbles: behind its issue, that of the result. -/
theorem Issues.result {s u : State} {q : Fin 64} {t : Fin 4} {w : Word} {op : Nat} (h : Issues s q t w op)
    {body : State → Nat → Res} {r : Res} (hb : body (issueState s q t) (issueLc s q t) = r)
    (hu : applyRes (issueState s q t) q t w r = u) (hl : u.quires[q].seq.tasks[t].live = true) :
    issueRow op q t w body s = u :=
  (h.row body (by rw [hb]; exact hu)).trans (if_pos hl)

theorem finish_live {s : State} {q : Fin 64} {t : Fin 4} (h : s.quires[q].seq.tasks[t].live = true) (npc : BitVec 14) :
    finish s q t npc = updQ s q (retire t npc) := if_pos h

theorem retire_lc (t : Fin 4) (npc : BitVec 14) (qr : Quire) : (retire t npc qr).seq.lc = qr.seq.lc + 1 := by
  simp only [retire, updTask, endLc]
  split <;> simp [bookIdle, afterTurn]

theorem Task.live_iff (tk : Task) : tk.live = true ↔ tk.state = .running ∨ tk.state = .held := by
  simp [Task.live]

/-- The lc in which a task that has retired issues next. -/
theorem retired_lc (s : State) (q : Fin 64) (t : Fin 4) :
    (updQ (issueState s q t) q (retire t (nextPc s q t))).quires[q].seq.lc = issueLc s q t + 1 := by
  rw [updQ_quires_self]
  exact retire_lc t _ _

theorem retired_live (s : State) (q : Fin 64) (t : Fin 4) :
    (updQ (issueState s q t) q (retire t (nextPc s q t))).quires[q].seq.tasks[t].live = true := by
  rw [updQ_quires_self]
  exact retire_live t _ _

theorem joinFillers_live (now : Nat) (sq : SeqUnit) (t : Fin 4) : (joinFillers now sq).tasks[t].live = sq.tasks[t].live := by
  simp only [joinFillers, Fin.getElem_fin, Vector.getElem_map]
  split <;> rfl

theorem applyRes_window (s : State) (q : Fin 64) (t : Fin 4) (w : Word) (n : Nat) :
    applyRes s q t w (.window s n) = updQ (finish s q t (s.quires[q].seq.tasks[t].pc + 1)) q (fun qr =>
      { qr with seq := joinFillers (tick s) { qr.seq with winEnd := qr.seq.lc + n } }) := rfl

theorem updQ_congr {s : State} {q : Fin 64} {f g : Quire → Quire} (h : f s.quires[q] = g s.quires[q]) : updQ s q f = updQ s q g := by
  rw [updQ, updQ, h]

/-- Settles O14: behind the issue, the bubbles of IDLE or the window of YIELD. -/
theorem idleAndYield : Obligations.IdleAndYield := by
  unfold Obligations.IdleAndYield
  intro s q t w b n next hn
  have hnext : (updQ (issueState s q t) q (retire t (nextPc s q t))).quires[q].seq.lc = next := retired_lc s q t
  refine ⟨fun hi => ⟨_, _, rfl, retired_retire _ _ _ _, ?_⟩, fun ht hi => ⟨_, _, rfl, retired_retire _ _ _ _, ?_⟩⟩
  · have hf := finish_live hi.live (nextPc s q t)
    by_cases ht : t = 0
    · rw [if_pos ht]
      refine hi.result (if_neg hn) ((if_pos ht).trans ?_) ?_
      · refine (congrArg (updQ · q _) hf).trans (updQ_congr ?_)
        rw [hnext]
        rfl
      · rw [updQ_quires_self]
        exact retired_live s q t
    · rw [if_neg ht]
      refine hi.result (if_neg hn) ((if_neg ht).trans (congrArg (updT · q t _) hf)) ?_
      rw [updT_live]
      · exact retired_live s q t
      · intro tk; rfl
  · have hf := finish_live hi.live (nextPc s q t)
    have hj : ∀ sq : SeqUnit, (joinFillers (tick b) sq).tasks = sq.tasks.map (fun tk =>
        if (tk.state = .running ∨ tk.state = .held) ∧ tk.startsAt ≤ tick b then { tk with joined := true } else tk) := fun sq => by
      simp only [joinFillers, Bool.and_eq_true, Task.live_iff, decide_eq_true_eq]
    refine hi.result (r := .window b n) ((if_neg hn).trans (if_neg (not_not.2 ht))) ?_ ?_
    · rw [applyRes_window]
      refine (congrArg (updQ · q _) hf).trans (updQ_congr ?_)
      rw [← hj, hnext]
      rfl
    · rw [updQ_quires_self, ← hj, joinFillers_live]
      exact retired_live s q t

end Sys2Proof.Machine
end

section
/-! END: the stop of a task that has retired (R276). -/

namespace Sys2Proof.Machine

theorem stopUnits_task (how : Nat) (t : Fin 4) (a : Quire) :
    (stopUnits how t a).seq.tasks[t] = stopContext a.seq.lc how a.seq.tasks[t] := by
  have key : ∀ c : Quire, c.seq = a.seq →
      (let qr := updTask c t (stopContext a.seq.lc how); if t = 0 then stopRun qr else qr).seq.tasks[t]
        = stopContext a.seq.lc how a.seq.tasks[t] := by
    intro c hs
    have h : (updTask c t (stopContext a.seq.lc how)).seq.tasks[t] = stopContext a.seq.lc how a.seq.tasks[t] := by
      rw [updTask_task_self, hs]
    dsimp only
    split <;> exact h
  simp only [stopUnits]
  apply key
  (repeat' split) <;> rfl

/-- The stop of task 0 puts the ring stop into pass-through (R126). -/
theorem stopUnits_pass (how : Nat) (a : Quire) : (stopUnits how 0 a).rstop.pass = true := by
  unfold stopUnits
  rfl

/-- What the stop of a live task leaves of its quire: its units stopped, of task 0 the halted periods booked. -/
theorem stopTask_live {s : State} {q : Fin 64} {t : Fin 4} (h : s.quires[q].seq.tasks[t].live = true) (how : Nat) :
    ∃ v, (stopTask s q t how).quires[q] = stopUnits how t { s.quires[q] with idleCause := v } := by
  rw [stopTask_quires, if_pos h, updQ_quires_self]
  split
  · obtain ⟨v, hv⟩ := bookStand_quires_self s q
    exact ⟨v, by rw [hv]⟩
  · exact ⟨s.quires[q].idleCause, rfl⟩

/-- The stop of a task leaves nothing in flight where nothing was. -/
theorem stopTask_quiet {s : State} (h : s.quiet) (q : Fin 64) (t : Fin 4) (how : Nat) : (stopTask s q t how).quiet := by
  intro b
  by_cases hb : b = q
  · subst hb
    have hs := stopTask_stops s b t how
    split at hs
    · exact hs.flight (h b)
    · rw [hs]; exact h b
  · rw [stopTask_quires_ne s t how hb]; exact h b

theorem updQ_quiet {s : State} (h : s.quiet) (q : Fin 64) {f : Quire → Quire} (hf : ∀ qr, (f qr).flight = qr.flight) :
    (updQ s q f).quiet := by
  intro b
  rw [updQ_quires]
  split
  · rw [hf]; exact h b
  · exact h b

theorem retire_flight (t : Fin 4) (npc : BitVec 14) (qr : Quire) : (retire t npc qr).flight = qr.flight := by
  simp only [retire, updTask, endLc]
  split <;> rfl

theorem applyRes_ended (s : State) (q : Fin 64) (t : Fin 4) (w : Word) :
    applyRes s q t w (.ended s) = stopTask (finish s q t (s.quires[q].seq.tasks[t].pc + 1)) q t 1 := rfl

/-- END retires and stops its task. -/
theorem exec_endTask {s : State} {q : Fin 64} {t : Fin 4} {w : Word} (hi : Issues s q t w 0x16) (hq : (issueState s q t).quiet) :
    exec (.endTask q t w) s = .next (stopTask (updQ (issueState s q t) q (retire t (nextPc s q t))) q t 1) := by
  have hu : applyRes (issueState s q t) q t w (.ended (issueState s q t)) =
      stopTask (updQ (issueState s q t) q (retire t (nextPc s q t))) q t 1 :=
    (applyRes_ended _ q t w).trans (congrArg (stopTask · q t 1) (finish_live hi.live _))
  have hz : (stopTask (updQ (issueState s q t) q (retire t (nextPc s q t))) q t 1).quiet :=
    stopTask_quiet (updQ_quiet hq q (retire_flight t _)) q t 1
  have hs := stopTask_stops (updQ (issueState s q t) q (retire t (nextPc s q t))) q t 1
  rw [if_pos (retired_live s q t)] at hs
  have hr := hi.row (fun s _ => .ended s) hu
  generalize stopTask (updQ (issueState s q t) q (retire t (nextPc s q t))) q t 1 = u at hu hz hs hr
  have hl : ¬ u.quires[q].seq.tasks[t].live = true := by rw [hs.task]; decide
  rw [if_neg hl, settle_quiet hz] at hr
  exact congrArg Host.Outcome.next hr

/-- The context that END leaves of a task. -/
theorem stopContext_end (lc : Nat) (tk : Task) (pc : BitVec 14) (st : TaskState) (hw : Option Word) :
    let k := stopContext lc 1 { tk with pc := pc, state := st, heldWord := hw }
    k.state = .stopped ∧ k.pc = pc ∧ k.code = setFld tk.code 32 1 0 ∧ k.bound = setFld tk.bound 59 1 0
      ∧ k.region = setFld tk.region 32 1 0 ∧ k.mwin = setFld tk.mwin 40 1 0 ∧ k.endedBy = 1 ∧ k.runLc = lc
      ∧ k.sregs = (settleRegs lc tk).sregs := ⟨rfl, rfl, rfl, rfl, rfl, rfl, rfl, rfl, rfl⟩

/-- Settles O15: the context that a stop leaves, of the task as it has retired. -/
theorem endStopsTask : Obligations.EndStopsTask := by
  unfold Obligations.EndStopsTask
  intro s q t w hi hq
  refine ⟨_, exec_endTask hi hq, ?_⟩
  have hr := retired_retire (issueState s q t) q t (nextPc s q t)
  have hlive := retired_live s q t
  have hlc := retired_lc s q t
  generalize updQ (issueState s q t) q (retire t (nextPc s q t)) = m at hr hlive hlc
  have hs := stopTask_stops m q t 1
  rw [if_pos hlive] at hs
  obtain ⟨v, hv⟩ := stopTask_live hlive 1
  have htask : (stopTask m q t 1).quires[q].seq.tasks[t] = stopContext (issueLc s q t + 1) 1
      { issueTask s q t with pc := nextPc s q t, state := .running, heldWord := none } := by
    rw [hv, stopUnits_task]
    show stopContext m.quires[q].seq.lc 1 m.quires[q].seq.tasks[t] = _
    rw [hlc, hr.task]
    rfl
  obtain ⟨h1, h2, h3, h4, h5, h6, h7, h8, h9⟩ :=
    stopContext_end (issueLc s q t + 1) (issueTask s q t) (nextPc s q t) .running none
  rw [← htask] at h1 h2 h3 h4 h5 h6 h7 h8 h9
  refine ⟨h1, h2, h3, h4, h5, h6, h7, h8, h9, ?_, fun ht => ⟨?_, ?_⟩, fun j hj => ?_, ?_, fun b hb => ?_⟩
  · exact hs.issued.trans (congrArg SeqUnit.issued hr.seq)
  · rw [hs.run, ht]
    simp
  · subst ht
    rw [hv]
    exact stopUnits_pass 1 _
  · rw [hs.tasks j hj, hr.tasks j hj]
    rfl
  · exact hs.mem.trans (congrArg Quire.mem hr.quire :)
  · rw [stopTask_quires_ne m t 1 hb, hr.others b hb]

end Sys2Proof.Machine
end

section
/-! Ring-stop instructions that put work in flight, and SPLICE (R108 R111 R114 R115 R124 R291 R304). -/

namespace Sys2Proof.Machine

/-! ## INJECT (R291) -/

theorem injFirst_zero (x : Nat) (w : Word) (base : Nat) :
    injFirst { x := x, w := w, base := base } 0 = if injSrc w = 1 then x + 1 else x + 2 := by
  simp [injFirst, injLc]

theorem injAccesses_task {o : InjectOp} {t : Fin 4} {i l : Nat} {upper : Bool} {p : Access} (h : p ∈ injAccesses o t i l upper) :
    p.task = t := by
  have hs : ∀ spad p, p ∈ (if injFmt o.w = 3 then [scaleRead 3 o.x t spad (injScaleId o i) l] else []) → p.task = t := by
    intro spad p h
    split at h
    · rw [List.mem_singleton.1 h]; rfl
    · cases h
  unfold injAccesses at h
  dsimp only at h
  split at h
  · cases h
  · split at h
    · obtain h | h := List.mem_append.1 h
      · obtain h | h := List.mem_pair.1 h <;> (rw [h]; rfl)
      · exact hs _ _ h
    · split at h
      · obtain h | h := List.mem_cons.1 h
        · rw [h]; rfl
        · exact hs _ _ h
      · rw [List.mem_singleton.1 h]; rfl

/-- The state that an INJECT leaves which does not cut another: its leg taken, its first step on its way, its claim made. -/
def injected (q : Fin 64) (w : Word) (x base : Nat) (s : State) : State :=
  let o : InjectOp := { x := x, w := w, base := base }
  let last := injLc o (injCount w - 1)
  claimTok (laterInject (updQ s q (fun qr => { qr with
      rstop := if injBack w then { qr.rstop with injBack := last + 1 } else { qr.rstop with injFore := last + 1 } }))
    q 0 (injFirst o 0) o 0 []) q { first := x + 2, last := last, tok := tokOf w, task := 0, drain := false }

/-- An INJECT whose checks hold and whose first slot comes behind the leg's last. -/
theorem injectBody_done {s : State} {q : Fin 64} {w : Word} {x base : Nat} (hw : injectLegal w = true)
    (hb : if 2 ≤ injSrc w then base = 0
      else ∃ r, rowRef s.quires[q].seq.tasks[(0 : Fin 4)] (injRef w) (if injSrc w = 0 then 2 else 0) = some r
        ∧ s.quires[q].seq.tasks[(0 : Fin 4)].spadOk (if injSrc w = 0 then 2 else 0) r (injRows w) = true
        ∧ base = s.quires[q].seq.tasks[(0 : Fin 4)].spadBase (if injSrc w = 0 then 2 else 0) + r)
    (hc : (if injBack w then s.quires[q].rstop.injBack else s.quires[q].rstop.injFore) ≤ x + 3) :
    injectBody q 0 w s x = .done (injected q w x base s) := by
  have hcut : decide (x + 3 < if injBack w then s.quires[q].rstop.injBack else s.quires[q].rstop.injFore) = false := by
    rw [decide_eq_false_iff_not]; omega
  unfold injectBody
  dsimp only
  rw [hw, hcut]
  generalize s.quires[q].seq.tasks[(0 : Fin 4)] = tk at hb ⊢
  by_cases h2 : 2 ≤ injSrc w
  · rw [if_pos h2] at hb
    subst hb
    simp [h2, injected]
  · rw [if_neg h2] at hb
    obtain ⟨r, hr, hok, rfl⟩ := hb
    simp [h2, hr, hok, injected]

theorem injected_launches {s : State} {q : Fin 64} (hl : s.quires[q].seq.tasks[(0 : Fin 4)].live = true) (w : Word) (x base : Nat) :
    let o : InjectOp := { x := x, w := w, base := base }
    let last := injLc o (injCount w - 1)
    Launches s (injected q w x base s) q
      { s.quires[q] with
        rstop := if injBack w then { s.quires[q].rstop with injBack := last + 1 } else { s.quires[q].rstop with injFore := last + 1 } }
      [{ lc := injFirst o 0, ph := 0, task := 0, op := .inject o 0 [] }] (injAccesses o 0 0 (injFirst o 0) false)
      [{ first := x + 2, last := last, tok := tokOf w, task := 0, drain := false }] := by
  intro o last
  have h0 := (Launches.start s q).upd (f := fun qr => { qr with
    rstop := if injBack w then { qr.rstop with injBack := last + 1 } else { qr.rstop with injFore := last + 1 } }) rfl rfl rfl rfl
  have h1 := (h0.place hl (l := injAccesses o 0 0 (injFirst o 0) false) (fun p hp => injAccesses_task hp)).later hl
    (injFirst o 0) 0 (.inject o 0 [])
  exact h1.claim { first := x + 2, last := last, tok := tokOf w, task := 0, drain := false } hl

/-- Settles O19: the leg, the first step and the claim, one after the other. -/
theorem injectStarts : Obligations.InjectStarts := by
  unfold Obligations.InjectStarts
  intro s q w base k x spad o last c hi hw hb hc
  have h := hi.starts (injectBody_done hw hb hc) (injected_launches hi.live w x base) rfl
  rw [injFirst_zero] at h
  exact h

/-! ## LAND, REDUCE and COPY -/

/-- Settles O20: each body puts its first step in flight. -/
theorem landCopyReduceStart : Obligations.LandCopyReduceStart := by
  unfold Obligations.LandCopyReduceStart
  intro s q w k x at2 claim
  have h0 := Launches.start (issueState s q 0) q
  refine ⟨fun hi => ?_, fun hi => ?_, fun r hi hs hr hok => ?_⟩
  · exact hi.starts (body := landBody q 0 w) rfl (h0.later hi.live (x + 2) 1 _) rfl
  · exact hi.starts (body := reduceBody q 0 w) rfl ((h0.later hi.live (x + 2) 0 _).claim _ hi.live) rfl
  · intro o lastLc
    have hT : ∀ p ∈ (List.range 8).map (copyAccess x 0 o), p.task = 0 := by
      intro p hp
      obtain ⟨i, -, rfl⟩ := List.mem_map.1 hp
      rfl
    have hb : copyBody q 0 w (issueState s q 0) x = .done (claimTok (later (placePorts (issueState s q 0) q
        ((List.range 8).map (copyAccess x 0 o))) q 0 (x + 2) 0 (.copy o 0 0 [])) q (claim lastLc)) := by
      have hr' : rowRef (issueState s q 0).quires[q].seq.tasks[(0 : Fin 4)] (fld w 9 16) (fld w 7 2) = some r := hr
      have hok' : (issueState s q 0).quires[q].seq.tasks[(0 : Fin 4)].spadOk (fld w 7 2) r 8 = true := hok
      simp only [copyBody, if_neg hs, ne_eq, not_true_eq_false, if_false, hr', hok', Bool.not_true, Bool.false_eq_true, copySpan]
      rfl
    have h1 := ((h0.place hi.live hT).later hi.live (x + 2) 0 (.copy o 0 0 [])).claim (claim lastLc) hi.live
    exact hi.starts hb h1 rfl

/-! ## SPLICE (R114) -/

/-- The state behind a SPLICE of quire q with mask m: the quire stands at it, its ring stop in pass-through. -/
def spliceHeld (q : Fin 64) (w : Word) (m : BitVec 16) (s : State) : State :=
  updQ s q (fun k => { k with
    rstop := { k.rstop with splice := some m, pass := true }
    seq := { k.seq with tasks := k.seq.tasks.set 0 { k.seq.tasks[0] with
      state := .held, heldWord := some w, heldKind := .splice, heldCause := 6, heldSince := tick s } } })

theorem spliceHeld_splice (q : Fin 64) (w : Word) (m : BitVec 16) (s : State) (b : Fin 64) :
    (spliceHeld q w m s).quires[b].rstop.splice = if b = q then some m else s.quires[b].rstop.splice := by
  rw [spliceHeld, updQ_quires]
  split <;> rfl

theorem spliceHeld_live (q : Fin 64) (w : Word) (m : BitVec 16) (s : State) :
    (spliceHeld q w m s).quires[q].seq.tasks[(0 : Fin 4)].live = true := by
  unfold spliceHeld
  rw [updQ_quires_self]
  simp [Task.live]

/-- A legal SPLICE of task 0: the quire is held, and of the 64 the last decides. -/
theorem spliceBody_legal {s : State} {q : Fin 64} {w : Word} (h : maskLegal (BitVec.ofNat 16 (fld w 6 16)) = true) (x : Nat) :
    spliceBody q 0 w s x =
      let s' := spliceHeld q w (BitVec.ofNat 16 (fld w 6 16)) s
      let m0 := s'.quires[(0 : Fin 64)].rstop.splice
      if !allQuires.all (fun b => s'.quires[b].rstop.splice.isSome) then .raw s'
      else if allQuires.all (fun b => s'.quires[b].rstop.splice == m0) then .raw (spliceAll s' (BitVec.ofNat 16 (fld w 6 16)))
      else .raw (spliceMismatch s' (m0.getD 0)) := by
  unfold spliceBody
  dsimp only
  rw [h]
  rfl

/-- A quire that goes on behind a SPLICE of all 64, at the clock edge `edge` and the spine time `now` (R114). -/
def pastSplice (edge now : Int) (qr : Quire) : Quire :=
  let lc := qr.seq.lc
  let qr := bookIdle qr 6 ((edge - ((lc : Int) + qr.edgeOff)).toNat + 15)
  let qr := { qr with
    rstop := { qr.rstop with splice := none, pass := false, clearTo := lc + 16 }
    seq := { qr.seq with lc := lc + 16, winEnd := lc + 16, issued := qr.seq.issued + 1 }
    idleIssue := qr.idleIssue + 1, spineOff := now + 16 - ((lc : Int) + 16), edgeOff := edge + 16 - ((lc : Int) + 16) }
  updTask qr 0 (fun tk => { tk with state := .running, heldWord := none, pc := tk.pc + 1 })

theorem pastSplice_task (edge now : Int) (qr : Quire) :
    (pastSplice edge now qr).seq.tasks[0] =
      { qr.seq.tasks[0] with state := .running, heldWord := none, pc := qr.seq.tasks[0].pc + 1 } := by
  unfold pastSplice
  exact updTask_task_self _ 0 _

/-- What the trace leaves of quires and spine, over many quires. -/
theorem traceAll_quires_spine (l : List (Fin 64)) (t : Fin 4) (kind : Nat) :
    ∀ s : State, (l.foldl (fun s q => traceQ s q t kind) s).quires = s.quires
      ∧ (l.foldl (fun s q => traceQ s q t kind) s).spine = s.spine := by
  induction l with
  | nil => exact fun s => ⟨rfl, rfl⟩
  | cons q l ih =>
    intro s
    have h := ih (traceQ s q t kind)
    exact ⟨h.1.trans (traceQ_quires s q t kind), h.2.trans (congrArg State.spine (traceQ_rest s q t kind) :)⟩

/-- The last SPLICE of the 64: layout in force, no slot left, every quire behind its SPLICE at one clock edge. -/
theorem spliceAll_spec (s : State) (m : BitVec 16) :
    ∃ edge now : Int, (spliceAll s m).spine.layout = m ∧ (spliceAll s m).spine.slots = []
      ∧ ∀ c : Fin 64, (spliceAll s m).quires[c] = pastSplice edge now s.quires[c] := by
  refine ⟨allQuires.foldl (fun a q => max a ((s.quires[q].seq.lc : Int) + s.quires[q].edgeOff)) s.edgeNow,
    allQuires.foldl (fun a q => max a (spineTime s q s.quires[q].seq.lc)) s.spineNow, ?_⟩
  unfold spliceAll
  dsimp only
  simp only [(traceAll_quires_spine _ _ _ _).1, (traceAll_quires_spine _ _ _ _).2, updAllQ_spine, updAllQ_quires]
  exact ⟨trivial, trivial, fun c => rfl⟩

/-- Settles O21: one quire without a SPLICE keeps all waiting; with none left, all pass. -/
theorem splices : Obligations.Splices := by
  unfold Obligations.Splices
  refine ⟨fun s q w hi hm ⟨b, hbq, hb⟩ => ?_, fun s q w => ?_⟩
  · have hn : allQuires.all (fun b => (spliceHeld q w (BitVec.ofNat 16 (fld w 6 16)) (issueState s q 0)).quires[b].rstop.splice.isSome)
        = false := by
      rw [List.all_eq_false]
      refine ⟨b, List.mem_finRange b, ?_⟩
      rw [spliceHeld_splice, if_neg hbq, hb]
      decide
    refine congrArg Host.Outcome.next (hi.result (r := .raw (spliceHeld q w (BitVec.ofNat 16 (fld w 6 16)) (issueState s q 0)))
      ?_ rfl ?_)
    · rw [spliceBody_legal hm]
      dsimp only
      rw [hn]
      rfl
    · exact spliceHeld_live q w _ _
  · intro b m hi hm hall
    have hsp : ∀ c : Fin 64, (spliceHeld q w m b).quires[c].rstop.splice = some m := fun c => by
      rw [spliceHeld_splice]
      split
      · rfl
      · next h => exact hall c h
    have h1 : allQuires.all (fun c => (spliceHeld q w m b).quires[c].rstop.splice.isSome) = true := by
      rw [List.all_eq_true]
      intro c _
      rw [hsp]; rfl
    have h2 : allQuires.all (fun c => (spliceHeld q w m b).quires[c].rstop.splice
        == (spliceHeld q w m b).quires[(0 : Fin 64)].rstop.splice) = true := by
      rw [List.all_eq_true]
      intro c _
      rw [hsp, hsp]; exact beq_self_eq_true _
    obtain ⟨edge, now, hlay, hslots, hq⟩ := spliceAll_spec (spliceHeld q w m b) m
    have hb : ∀ c : Fin 64, (spliceHeld q w m b).quires[c].seq.lc = b.quires[c].seq.lc
        ∧ (spliceHeld q w m b).quires[c].seq.issued = b.quires[c].seq.issued
        ∧ (spliceHeld q w m b).quires[c].mem = b.quires[c].mem := fun c => by
      rw [spliceHeld, updQ_quires]
      split <;> exact ⟨rfl, rfl, rfl⟩
    have ht : ∀ c : Fin 64, ∃ st hw hk hc hs, (spliceHeld q w m b).quires[c].seq.tasks[0] =
        { b.quires[c].seq.tasks[0] with state := st, heldWord := hw, heldKind := hk, heldCause := hc, heldSince := hs } := fun c => by
      rw [spliceHeld, updQ_quires]
      split
      · exact ⟨_, _, _, _, _, Vector.getElem_set_self _⟩
      · exact ⟨_, _, _, _, _, rfl⟩
    refine ⟨spliceAll (spliceHeld q w m b) m, congrArg Host.Outcome.next (hi.result
      (r := .raw (spliceAll (spliceHeld q w m b) m)) ?_ rfl ?_), hlay, hslots, fun c d => ?_, fun c => ?_⟩
    · rw [spliceBody_legal hm]
      dsimp only
      rw [h1, h2]
      rfl
    · rw [hq]
      have h := pastSplice_task edge now (spliceHeld q w m b).quires[q]
      exact congrArg Task.live h
    · rw [hq, hq]
      simp only [pastSplice, updTask]
      omega
    · obtain ⟨hlc, his, hmem⟩ := hb c
      obtain ⟨st, hw, hk, hc, hs, ht⟩ := ht c
      rw [hq]
      refine ⟨congrArg (· + 16) hlc, rfl, rfl, ?_, congrArg (· + 1) his, hmem⟩
      rw [pastSplice_task, ht]

end Sys2Proof.Machine
end

section
/-! LWAIT, XWAIT and WAITW, met and not met (R120 R182 R275 R321 R377). -/

namespace Sys2Proof.Machine

/-! ## Met waits -/

/-- What a wait in lc x does not count: of task 0 what is ready for later lc alone, or less. -/
theorem late_le (qr : Quire) (x : Nat) (l : List Nat) :
    (l.filter (fun r => !inTime qr 0 x r)).length ≤ (l.filter (fun r => x < r)).length := by
  rw [← List.countP_eq_length_filter, ← List.countP_eq_length_filter]
  refine List.countP_mono_left fun r _ h => ?_
  rw [decide_eq_true_eq]
  by_contra hx
  rw [inTime_of_ready (.inr (Nat.le_of_not_lt hx))] at h
  cases h

theorem takeMessages_eq (n : Nat) (p : Port) :
    takeMessages n p =
      { p with
        owed := p.owed + p.takenBytes / 512, landed := p.landed - n, taken := n
        takenBytes := (p.landedSizes.take n).sum, landedReady := p.landedReady.drop n, landedSizes := p.landedSizes.drop n } := by
  rw [List.sum_eq_foldl]
  rfl

/-- The checks of an LWAIT hold: it takes its messages where enough have landed in time. -/
theorem lwaitBody_legal {s : State} {q : Fin 64} {w : Word} {l : Fin 26} (hl : fld w 6 5 = l.val) (hm : s.ports[l].mapped = true)
    (hv : s.ports[l].recvValid = true) (hq : s.ports[l].recvQuire = q.val) (x : Nat) :
    lwaitBody q 0 w s x =
      if s.ports[l].landed - lateMessages s.quires[q] x s.ports[l] < fld w 11 16 then .wait .lwait 1
      else .done (updPort s l (takeMessages (fld w 11 16))) := by
  obtain ⟨n, h⟩ := l
  obtain rfl : fld w 6 5 = n := hl
  unfold lwaitBody
  dsimp only
  rw [dif_pos h, if_neg (by decide), hm, hv, hq, beq_self_eq_true]
  rfl

theorem xwaitBody_legal {s : State} {q : Fin 64} {w : Word} {f : Fin 32} (hf : fld w 6 5 = f.val) (hv : bit s.con.xbCfg[f] 60 = true)
    (hq : fld s.con.xbCfg[f] 54 6 = q.val) (x : Nat) :
    xwaitBody q 0 w s x =
      if s.con.xbCount[f].toNat - (s.con.xbLate[f].filter (fun r => !inTime s.quires[q] 0 x r)).length < fld w 11 16 then
        .wait .xwait 6
      else .done { s with con := { s.con with
        xbCount := s.con.xbCount.set f (s.con.xbCount[f] - BitVec.ofNat 32 (fld w 11 16)) } } := by
  obtain ⟨n, h⟩ := f
  obtain rfl : fld w 6 5 % 32 = n := (Nat.mod_eq_of_lt (fld_lt w 6 5)).trans hf
  unfold xwaitBody
  dsimp only
  rw [if_neg (by decide), hv, hq, beq_self_eq_true]
  rfl

/-- Settles O24: what has come about in time is at least what the wait asks for. -/
theorem metWaitsTake : Obligations.MetWaitsTake := by
  unfold Obligations.MetWaitsTake
  intro s q w b n late
  refine ⟨fun l hi hl hm hv hq hn => ?_, fun f hi hf hv hq hn => ?_⟩
  · have hle := late_le b.quires[q] (issueLc s q 0) b.ports[l].landedReady
    refine hi.retires ((lwaitBody_legal hl hm hv hq _).trans ((if_neg ?_).trans ?_)) hi.live
    · exact Nat.not_lt.2 (hn.trans (Nat.sub_le_sub_left hle _))
    · rw [updPort, takeMessages_eq]
  · have hle := late_le b.quires[q] (issueLc s q 0) b.con.xbLate[f]
    refine hi.retires ((xwaitBody_legal hf hv hq _).trans (if_neg ?_)) hi.live
    exact Nat.not_lt.2 (hn.trans (Nat.sub_le_sub_left hle _))

/-! ## Waits that are not met (R120 R275) -/

/-- An update of several quires, each once. -/
theorem foldl_updQ_quires (f : Fin 64 → Quire → Quire) (c : Fin 64) (l : List (Fin 64)) (hl : l.Nodup) :
    ∀ s : State, (l.foldl (fun s b => updQ s b (f b)) s).quires[c] = if c ∈ l then f c s.quires[c] else s.quires[c] := by
  induction l with
  | nil => exact fun s => rfl
  | cons a l ih =>
    intro s
    rw [List.nodup_cons] at hl
    rw [List.foldl_cons, ih hl.2, updQ_quires]
    by_cases h : c = a
    · subst h
      rw [if_neg hl.1, if_pos rfl, if_pos List.mem_cons_self]
    · simp only [h, if_false, List.mem_cons, false_or]

theorem gatheringQuires_nodup (s : State) (q : Fin 64) : (gatheringQuires s q).Nodup := (List.nodup_finRange 64).filter _

theorem mem_gatheringQuires {s : State} {q b : Fin 64} : b ∈ gatheringQuires s q ↔ sameGathering s.spine.layout q b = true := by
  simp [gatheringQuires, allQuires]

theorem sameGathering_self (m : BitVec 16) (q : Fin 64) : sameGathering m q q = true := by simp [sameGathering]

/-- The quire of a task that an unmet wait holds. -/
def heldQuire (t : Fin 4) (w : Word) (k : WaitKind) (cause since : Nat) (qr : Quire) : Quire :=
  updTask qr t (fun tk =>
    { tk with state := .held, heldWord := some w, heldKind := k, heldCause := cause,
              heldSince := if qr.seq.tasks[t].state == .held then tk.heldSince else since })

/-- A held filler's turn has passed. -/
theorem holdTask_filler {s : State} {q : Fin 64} {t : Fin 4} (ht : t ≠ 0) (w : Word) (k : WaitKind) (cause : Nat) :
    holdTask s q t w k cause = updQ (updQ s q (heldQuire t w k cause (tick s))) q (endLc t) := by
  unfold holdTask
  exact if_neg ht

/-- The halt of a quire of a gathering, and of the one whose wait halts it. -/
def haltQuire (qr : Quire) : Quire := { qr with rstop := { qr.rstop with halted := true } }
def ownHalt (qr : Quire) : Quire := { qr with rstop := { qr.rstop with waitOwner := true } }

/-- A wait that holds task 0 halts every quire of its gathering. -/
theorem holdTask_gathering (s : State) (q : Fin 64) (w : Word) (k : WaitKind) (cause : Nat) :
    let held := updQ s q (heldQuire 0 w k cause (tick s))
    holdTask s q 0 w k cause =
      traceQ (updQ ((gatheringQuires held q).foldl (fun s b => updQ s b haltQuire) held) q ownHalt) q 0 1 := by
  unfold holdTask
  exact if_pos rfl

theorem holdTask_quires (s : State) (q : Fin 64) (w : Word) (k : WaitKind) (cause : Nat) (c : Fin 64) :
    (holdTask s q 0 w k cause).quires[c] =
      if c = q then ownHalt (haltQuire (heldQuire 0 w k cause (tick s) s.quires[q]))
      else if sameGathering s.spine.layout q c = true then haltQuire s.quires[c] else s.quires[c] := by
  rw [holdTask_gathering, traceQ_quires, updQ_quires, foldl_updQ_quires (fun _ => haltQuire) c _ (gatheringQuires_nodup _ q)]
  simp only [mem_gatheringQuires, updQ_spine, updQ_quires]
  by_cases hc : c = q
  · subst hc
    simp only [if_true, sameGathering_self]
  · simp only [hc, if_false]

theorem heldQuire_task (t : Fin 4) (w : Word) (k : WaitKind) (cause since : Nat) (qr : Quire) :
    let tk := (heldQuire t w k cause since qr).seq.tasks[t]
    tk.state = .held ∧ tk.heldWord = some w ∧ tk.heldKind = k ∧ tk.pc = qr.seq.tasks[t].pc := by
  unfold heldQuire
  rw [updTask_task_self]
  exact ⟨rfl, rfl, rfl, rfl⟩

theorem endLc_filler {t : Fin 4} (ht : t ≠ 0) (qr : Quire) :
    (endLc t qr).seq.tasks = qr.seq.tasks ∧ (endLc t qr).seq.issued = qr.seq.issued ∧ (endLc t qr).mem = qr.mem
      ∧ (endLc t qr).rstop = qr.rstop ∧ (endLc t qr).seq.lc = qr.seq.lc + 1 := by
  unfold endLc
  dsimp only
  rw [if_neg ht]
  exact ⟨rfl, rfl, rfl, rfl, rfl⟩

/-- What an unmet wait of kind k leaves of the state b: the task held, its gathering halted or a filler's turn passed. -/
def WaitHolds (b u : State) (q : Fin 64) (t : Fin 4) (w : Word) (k : WaitKind) : Prop :=
  u.quires[q].seq.tasks[t].state = .held ∧ u.quires[q].seq.tasks[t].heldWord = some w ∧ u.quires[q].seq.tasks[t].heldKind = k
    ∧ u.quires[q].seq.tasks[t].pc = b.quires[q].seq.tasks[t].pc ∧ u.quires[q].seq.issued = b.quires[q].seq.issued
    ∧ u.quires[q].mem = b.quires[q].mem
    ∧ if t = 0 then
        u.quires[q].rstop.waitOwner = true ∧ u.quires[q].seq.lc = b.quires[q].seq.lc
        ∧ (∀ c : Fin 64, sameGathering b.spine.layout q c = true → u.quires[c].rstop.halted = true)
        ∧ (∀ c : Fin 64, sameGathering b.spine.layout q c = false → u.quires[c] = b.quires[c])
      else u.quires[q].rstop = b.quires[q].rstop ∧ u.quires[q].seq.lc = b.quires[q].seq.lc + 1
        ∧ ∀ c : Fin 64, c ≠ q → u.quires[c] = b.quires[c]

theorem holdTask_holds (b : State) (q : Fin 64) (t : Fin 4) (w : Word) (k : WaitKind) (cause : Nat) :
    WaitHolds b (holdTask b q t w k cause) q t w k := by
  obtain ⟨h1, h2, h3, h4⟩ := heldQuire_task t w k cause (tick b) b.quires[q]
  by_cases ht : t = 0
  · subst ht
    have hu := holdTask_quires b q w k cause
    generalize holdTask b q 0 w k cause = u at hu
    have hq := (hu q).trans (if_pos rfl)
    refine ⟨?_, ?_, ?_, ?_, ?_, ?_, ?_, ?_, fun c hc => ?_, fun c hc => ?_⟩
    · rw [hq]; exact h1
    · rw [hq]; exact h2
    · rw [hq]; exact h3
    · rw [hq]; exact h4
    · rw [hq]; rfl
    · rw [hq]; rfl
    · rw [hq]; rfl
    · rw [hq]; rfl
    · by_cases h : c = q
      · rw [h, hq]; rfl
      · rw [hu, if_neg h, if_pos hc]; rfl
    · have h : c ≠ q := fun h => by rw [h, sameGathering_self] at hc; cases hc
      rw [hu, if_neg h, if_neg (by rw [hc]; decide)]
  · have hu := holdTask_filler (s := b) (q := q) ht w k cause
    generalize holdTask b q t w k cause = u at hu
    have hq : u.quires[q] = endLc t (heldQuire t w k cause (tick b) b.quires[q]) := by
      rw [hu, updQ_quires_self, updQ_quires_self]
    obtain ⟨e1, e2, e3, e4, e5⟩ := endLc_filler ht (heldQuire t w k cause (tick b) b.quires[q])
    rw [WaitHolds, if_neg ht, hq, e1, e2, e3, e4, e5]
    refine ⟨h1, h2, h3, h4, rfl, rfl, rfl, rfl, fun c hc => ?_⟩
    rw [hu, updQ_quires_ne _ _ hc, updQ_quires_ne _ _ hc]

theorem applyRes_wait (s : State) (q : Fin 64) (t : Fin 4) (w : Word) (k : WaitKind) (cause : Nat) :
    applyRes s q t w (.wait k cause) = holdTask s q t w k cause := rfl

/-- An instruction that comes to an unmet wait holds its task. -/
theorem Issues.holds {s : State} {q : Fin 64} {t : Fin 4} {w : Word} {op : Nat} (h : Issues s q t w op)
    {body : State → Nat → Res} {k : WaitKind} {cause : Nat}
    (hb : body (issueState s q t) (issueLc s q t) = .wait k cause) :
    ∃ u, (.next (issueRow op q t w body s) : Host.Outcome State Fault Refusal) = .next u ∧ WaitHolds (issueState s q t) u q t w k := by
  have hs := holdTask_holds (issueState s q t) q t w k cause
  refine ⟨_, congrArg Host.Outcome.next (h.result hb (applyRes_wait _ q t w k cause) ?_), hs⟩
  generalize holdTask (issueState s q t) q t w k cause = u at hs
  exact (Task.live_iff _).2 (.inr hs.1)

theorem waitwBody_unmet {s : State} {q : Fin 64} {t : Fin 4} (w : Word) (x : Nat) {o : OutWrite}
    (ho : o ∈ s.quires[q].stream.writes) (ht : o.task = t) : waitwBody q t w s x = .wait .waitw (writeCause s.quires[q]) := by
  refine if_pos ?_
  rw [Bool.or_eq_true, List.any_eq_true]
  exact .inl ⟨o, ho, beq_iff_eq.2 ht⟩

/-- Settles O25: each body comes to its wait, and `holdTask` halts. -/
theorem unmetWaitsHold : Obligations.UnmetWaitsHold := by
  unfold Obligations.UnmetWaitsHold
  intro s q t w b n held
  refine ⟨fun l ht hi hl hm hv hq hn => ?_, fun f ht hi hf hv hq hn => ?_, fun hi ⟨o, ho, hot⟩ => ?_⟩
  · subst ht
    exact hi.holds ((lwaitBody_legal hl hm hv hq _).trans (if_pos (Nat.lt_of_le_of_lt (Nat.sub_le _ _) hn)))
  · subst ht
    exact hi.holds ((xwaitBody_legal hf hv hq _).trans (if_pos (Nat.lt_of_le_of_lt (Nat.sub_le _ _) hn)))
  · exact hi.holds (waitwBody_unmet w _ ho hot)

end Sys2Proof.Machine
end

section
/-! STREAM, SDLOAD and the commit of a landing (R173 R176 R177 R180–R182). -/

namespace Sys2Proof.Machine

/-! ## SDLOAD and WAITS (R173 R177) -/

theorem sdloadBody_done {s : State} {q : Fin 64} {t : Fin 4} {w : Word} {r : Nat}
    (hr : rowRef s.quires[q].seq.tasks[t] (fld w 7 16) 2 = some r) (hok : s.quires[q].seq.tasks[t].spadOk 2 r 1 = true) (x : Nat) :
    sdloadBody q t w s x = .done (later (placePorts s q [rowRead 6 x t 2 (s.quires[q].seq.tasks[t].stgBase + r) (x + 1)]) q t (x + 1) 0
      (.sdload (bit w 6) (s.quires[q].seq.tasks[t].stgBase + r))) := by
  unfold sdloadBody
  dsimp only
  generalize s.quires[q].seq.tasks[t] = tk at hr hok ⊢
  rw [hr]
  dsimp only
  rw [hok]
  rfl

/-- The oldest issued landing of a task is the first in its list. -/
theorem oldestIssued_eq {qr : Quire} {t : Fin 4} {i : Nat} {l : Landing} (hl : qr.stream.landings[i]? = some l) (ht : l.task = t)
    (hi : l.issued = true)
    (hfirst : ∀ j m, j < i → qr.stream.landings[j]? = some m → ¬ (m.task = t ∧ m.issued = true)) : oldestIssued qr t = some i := by
  obtain ⟨h, rfl⟩ := List.getElem?_eq_some_iff.1 hl
  rw [oldestIssued, List.findIdx?_eq_some_iff_getElem]
  refine ⟨h, by simp [ht, hi], fun j hj => ?_⟩
  have hm := hfirst j _ hj (List.getElem?_eq_getElem (hj.trans h))
  simpa [beq_iff_eq] using hm

theorem waitsBody_done {s : State} {q : Fin 64} {t : Fin 4} {i : Nat} {l : Landing} {x : Nat} (ho : oldestIssued s.quires[q] t = some i)
    (hl : s.quires[q].stream.landings[i]? = some l) (hd : l.landed = true) (hr : t ≠ 0 ∨ l.ready ≤ x) (w : Word) :
    waitsBody q t w s x = .done (commitLanding s q i l x) := by
  simp only [waitsBody, ho, hl, hd, inTime_of_ready hr, Bool.and_self, if_true]

theorem commitAccess_task (x : Nat) (t : Fin 4) (target row k l : Nat) : (commitAccess x t target row k l).task = t := by
  unfold commitAccess
  split <;> rfl

theorem commit_launches {s : State} {q : Fin 64} {l : Landing} (hl : s.quires[q].seq.tasks[l.task].live = true) (i x : Nat) :
    let first := commitStart s.quires[q] x
    Launches s (commitLanding s q i l x) q (takeLanding i l first s.quires[q])
      [{ lc := first, ph := 2, task := l.task, op := .commitRow x l.target l.firstRow 0 l.pace (pieces 512 l.len l.data) }]
      [commitAccess x l.task l.target l.firstRow 0 first] [] := by
  intro first
  have h0 := (Launches.start s q).upd (f := takeLanding i l first) (v' := takeLanding i l first s.quires[q]) rfl rfl rfl rfl
  exact (h0.place hl (l := [commitAccess x l.task l.target l.firstRow 0 first]) fun p hp => by
    rw [List.mem_singleton.1 hp]; exact commitAccess_task _ _ _ _ _ _).later hl first 2 _

theorem sdload_launches {s : State} {q : Fin 64} {t : Fin 4} (hl : s.quires[q].seq.tasks[t].live = true) (x row : Nat) (second : Bool) :
    Launches s (later (placePorts s q [rowRead 6 x t 2 row (x + 1)]) q t (x + 1) 0 (.sdload second row)) q s.quires[q]
      [{ lc := x + 1, ph := 0, task := t, op := .sdload second row }] [rowRead 6 x t 2 row (x + 1)] [] :=
  ((Launches.start s q).place hl (l := [rowRead 6 x t 2 row (x + 1)]) fun p hp => by rw [List.mem_singleton.1 hp]; rfl).later hl _ _ _

/-- Settles O23: the load's read or the commit's first row, put in flight. -/
theorem sdloadAndCommit : Obligations.SdloadAndCommit := by
  unfold Obligations.SdloadAndCommit
  intro s q t w k tk x
  refine ⟨fun r hi hr hok => ?_, fun i l hi hl ht hs hd hr hfirst => ?_⟩
  · exact hi.starts (sdloadBody_done hr hok x) (sdload_launches hi.live x _ _) rfl
  · intro first pastLast
    subst ht
    exact hi.starts (waitsBody_done (oldestIssued_eq hl rfl hs hfirst) hl hd hr w) (commit_launches hi.live i x) rfl

/-! ## STREAM (R176 R180–R182) -/

/-- The checks of R175 and R523 hold for a STREAM of descriptor d and relative row `row`. -/
structure StreamOk (s : State) (q : Fin 64) (t : Fin 4) (bs : List Byte) (d : StreamDesc) (row : Nat) : Prop where
  values : streamValuesOk bs d = true
  far : farUseOk s q t d = true
  resolved : streamRow s.quires[q].seq.tasks[t] d = some row
  aligned : streamAligned s.quires[q].seq.tasks[t] d = true
  rows : streamRowsOk s.quires[q].seq.tasks[t] d row = true
  range : streamFarOk s s.quires[q].seq.tasks[t] d = true

/-- The state in which a write STREAM takes its place: of task 0, a read started for it discarded. -/
def writeStart (q : Fin 64) (t : Fin 4) (s : State) : State :=
  if t = 0 then updQ s q (dropStarted s.quires[q].seq.tasks[t].pc.toNat) else s

/-- A STREAM whose checks hold, by its direction. -/
theorem streamBody_checked {s : State} {q : Fin 64} {t : Fin 4} {w : Word} {x row : Nat} {d : StreamDesc}
    (hn : noteEarly s q t x [fld w 6 5] = s)
    (hd : streamOffsets (srcReg s q t (fld w 6 5)) (parseStream (sdtEntry s.quires[q].seq.tasks[t] (fld w 11 5))) = d)
    (h : StreamOk s q t (sdtEntry s.quires[q].seq.tasks[t] (fld w 11 5)) d row) :
    streamBody q t w s x =
      if d.write then
        if 512 * d.len > outStoreSize t then .bad .stream 1 else streamWrite q t w d row (writeStart q t s) x
      else if issuedLandings s.quires[q] t ≥ landLimit t || 512 * d.len > landStoreSize t then .bad .stream 1
      else streamRead q t w (sdtEntry s.quires[q].seq.tasks[t] (fld w 11 5)) (fld w 11 5) d row s x := by
  obtain ⟨h1, h2, h3, h4, h5, h6⟩ := h
  simp only [streamBody, hn, hd, h1, h2, h3, h4, h5, h6, Bool.not_true, Bool.or_self, Bool.false_eq_true, if_false, writeStart]

section
variable {s : State} {q : Fin 64} {t : Fin 4} {w : Word} {x row : Nat} {d : StreamDesc} (hn : noteEarly s q t x [fld w 6 5] = s)
  (hd : streamOffsets (srcReg s q t (fld w 6 5)) (parseStream (sdtEntry s.quires[q].seq.tasks[t] (fld w 11 5))) = d)
  (h : StreamOk s q t (sdtEntry s.quires[q].seq.tasks[t] (fld w 11 5)) d row)
include hn hd h

theorem streamBody_read (hw : d.write = false) (hl : issuedLandings s.quires[q] t < landLimit t)
    (hm : 512 * d.len ≤ landStoreSize t) :
    streamBody q t w s x = streamRead q t w (sdtEntry s.quires[q].seq.tasks[t] (fld w 11 5)) (fld w 11 5) d row s x := by
  refine (streamBody_checked hn hd h).trans ((if_neg (by rw [hw]; decide)).trans (if_neg ?_))
  simp only [Bool.or_eq_true, decide_eq_true_eq]
  omega

theorem streamBody_write (hw : d.write = true) (hm : 512 * d.len ≤ outStoreSize t) :
    streamBody q t w s x = streamWrite q t w d row (writeStart q t s) x :=
  (streamBody_checked hn hd h).trans ((if_pos hw).trans (if_neg (Nat.not_lt.2 hm)))

end

/-- The landing of a read that its STREAM has started. -/
theorem arriveLanding_new (s : State) (tk : Task) (t : Fin 4) (entry : Nat) (bs : List Byte) (d : StreamDesc) (row x : Nat) :
    arriveLanding s (issueLanding tk d row x (newLanding tk t entry tk.pc.toNat bs d)) =
      { task := t, entry := entry, desc := bs, pcIndex := tk.pc.toNat, issued := true, x := x, landed := false, data := []
        ready := 0, fetched := [], released := d.far ≠ 0 || !fenceHolds s (tk.winBase + d.faddr) (512 * d.len)
        target := d.target, firstRow := streamFirst tk d.target row, pace := d.pace, len := d.len, far := d.far, port := d.link,
        faddr := if d.far = 0 then tk.winBase + d.faddr else d.faddr, storeBytes := 512 * d.len } := by
  by_cases h : d.far = 0
  · simp [arriveLanding, issueLanding, newLanding, h]
  · simp [arriveLanding, issueLanding, newLanding, h]

theorem streamRead_fresh {s : State} {q : Fin 64} {t : Fin 4} {w : Word} {bs : List Byte} {entry row x : Nat} {d : StreamDesc}
    (hs : t = 0 → startedAt s.quires[q].stream.landings s.quires[q].seq.tasks[t].pc.toNat = none)
    (hu : streamUsed s.quires[q] t x + 512 * d.len ≤ landStoreSize t) :
    streamRead q t w bs entry d row s x = .done (streamClaim (updQ s q (fun qr => setLandings qr (s.quires[q].stream.landings ++
      [arriveLanding s (issueLanding s.quires[q].seq.tasks[t] d row x
        (newLanding s.quires[q].seq.tasks[t] t entry s.quires[q].seq.tasks[t].pc.toNat bs d))]))) q t w d x) := by
  have h : (if t = 0 then startedAt s.quires[q].stream.landings s.quires[q].seq.tasks[t].pc.toNat else none) = none := by
    split
    · exact hs ‹_›
    · rfl
  simp only [streamRead, h, if_neg (Nat.not_lt.2 hu)]

theorem streamRead_started {s : State} {q : Fin 64} {w : Word} {bs : List Byte} {entry row x i : Nat} {d : StreamDesc} {l : Landing}
    (hs : startedAt s.quires[q].stream.landings s.quires[q].seq.tasks[(0 : Fin 4)].pc.toNat = some i)
    (hl : s.quires[q].stream.landings[i]? = some l) (hd : l.desc = bs) (he : l.entry = entry) :
    streamRead q 0 w bs entry d row s x = .done (streamClaim (updQ s q (fun qr => setLandings qr (s.quires[q].stream.landings.set i
      (issueLanding s.quires[q].seq.tasks[(0 : Fin 4)] d row x l)))) q 0 w d x) := by
  simp only [streamRead, if_true, hs, hl, hd, he, beq_self_eq_true, Bool.and_self]

theorem placeSends_live {t : Fin 4} {a : Access} {qr : Quire} (h : qr.seq.tasks[t].live = true) (ha : a.task = t) :
    placeSends [a] qr = placeAll [a] qr := by
  subst ha
  simp only [placeSends, placeAll, List.foldl_cons, List.foldl_nil, Task.reaches, h, Bool.true_or, if_true]

theorem sendAccess_task (x : Nat) (t : Fin 4) (target row k l : Nat) : (sendAccess x t target row k l).task = t := by
  unfold sendAccess
  split <;> rfl

/-- A source row read of a task that runs is put in flight with its access. -/
theorem Launches.send {b a : State} {q : Fin 64} {v : Quire} {es : List Event} {as : List Access} {cs : List Claim}
    (h : Launches b a q v es as cs) {t : Fin 4} (hv : v.seq.tasks[t].live = true) (l x target row j k pace len : Nat) :
    Launches b (laterSend a q t l x target row j k pace len) q v
      ({ lc := l, ph := 0, task := t, op := .send x target row j k pace len } :: es)
      (as ++ [sendAccess x t target (row + j) k l]) cs := by
  have hp : updQ a q (placeSends [sendAccess x t target (row + j) k l]) = placePorts a q [sendAccess x t target (row + j) k l] :=
    updQ_congr (placeSends_live (h.live hv) (sendAccess_task x t target (row + j) k l))
  rw [laterSend, hp]
  exact (h.place hv fun p hp => by rw [List.mem_singleton.1 hp]; exact sendAccess_task x t target (row + j) k l).later hv l 0 _

/-- A read STREAM makes its landing and its claim. -/
theorem streamRead_launches {s : State} {q : Fin 64} {t : Fin 4} (hl : s.quires[q].seq.tasks[t].live = true) (ls : List Landing)
    (w : Word) (d : StreamDesc) (x : Nat) :
    Launches s (streamClaim (updQ s q (fun qr => setLandings qr ls)) q t w d x) q (setLandings s.quires[q] ls) [] []
      [{ first := x + 2, last := x + 1 + d.len * d.pace, tok := tokOf w, task := t, drain := false }] :=
  ((Launches.start s q).upd (f := fun qr => setLandings qr ls) rfl rfl rfl rfl).claim _ hl

/-- A STREAM keeps the registers that it reads, whatever it comes to. -/
theorem reading_done {r : Res} {a : State} (h : r = .done a) (regs : List Nat) : r.reading regs = .done a := by
  rw [h]
  rfl

/-- What a write takes in the outbound store, and the reads it holds back (R180 R182). -/
def queueWrite (t : Fin 4) (pc : Nat) (o : OutWrite) (qr : Quire) : Quire :=
  { qr with stream := { qr.stream with
      writes := qr.stream.writes ++ [o]
      landings := if t = 0 ∧ o.far = 0 then holdBack pc o.faddr (512 * o.len) qr.stream.landings else qr.stream.landings } }

/-- The message of a write STREAM of descriptor d, issued in lc x. -/
def streamMessage (t : Fin 4) (winBase x : Nat) (edgeOff : Int) (d : StreamDesc) : OutWrite :=
  { task := t, far := d.far, port := d.link, faddr := if d.far = 0 then winBase + d.faddr else 0,
    x := x, edge := (x : Int) + edgeOff, len := d.len, data := [], left := false }

theorem streamWrite_done {s : State} {q : Fin 64} {t : Fin 4} {d : StreamDesc} {x : Nat}
    (hu : writeUsed s.quires[q] t x + 512 * d.len ≤ outStoreSize t) (w : Word) (row : Nat) :
    streamWrite q t w d row s x = .done (streamClaim (laterSend
      (updQ s q (queueWrite t s.quires[q].seq.tasks[t].pc.toNat
        (streamMessage t s.quires[q].seq.tasks[t].winBase x s.quires[q].edgeOff d)))
      q t (x + 2) x d.target (streamFirst s.quires[q].seq.tasks[t] d.target row) 0 0 d.pace d.len) q t w d x) := by
  unfold streamWrite queueWrite streamMessage
  simp only [if_neg (Nat.not_lt.2 hu), Bool.and_eq_true, decide_eq_true_eq, beq_iff_eq]

/-- A write STREAM takes its place in the state a of its quire v. -/
theorem streamWrite_launches {b a : State} {q : Fin 64} {t : Fin 4} {v : Quire} (h : Launches b a q v [] [] [])
    (hv : v.seq.tasks[t].live = true) (w : Word) (d : StreamDesc) (x pc first : Nat) (o : OutWrite) :
    Launches b (streamClaim (laterSend (updQ a q (queueWrite t pc o)) q t (x + 2) x d.target first 0 0 d.pace d.len) q t w d x) q
      (queueWrite t pc o v) [{ lc := x + 2, ph := 0, task := t, op := .send x d.target first 0 0 d.pace d.len }]
      [sendAccess x t d.target first 0 (x + 2)]
      [{ first := x + 2, last := x + 1 + d.len * d.pace, tok := tokOf w, task := t, drain := false }] := by
  have hc : (queueWrite t pc o a.quires[q]).content = (queueWrite t pc o v).content := congrArg (queueWrite t pc o) h.content
  exact ((h.upd hc rfl rfl rfl).send hv (x + 2) x d.target first 0 0 d.pace d.len).claim _ hv

/-- What the quire v of a write STREAM keeps of the quire k in which it issues: all but the reads discarded for it. -/
structure WriteStarts (k v : Quire) (t : Fin 4) (x : Nat) : Prop where
  seq : v.seq = k.seq
  edge : v.edgeOff = k.edgeOff
  writes : v.stream.writes = k.stream.writes
  used : writeUsed v t x = writeUsed k t x

theorem writeStart_quire (s : State) (q : Fin 64) (t : Fin 4) :
    (writeStart q t s).quires[q] =
      if t = 0 then dropStarted s.quires[q].seq.tasks[t].pc.toNat s.quires[q] else s.quires[q] := by
  unfold writeStart
  split
  · exact updQ_quires_self _ _ _
  · rfl

theorem dropStarted_starts (pc : Nat) (k : Quire) (t : Fin 4) (x : Nat) : WriteStarts k (dropStarted pc k) t x := ⟨rfl, rfl, rfl, rfl⟩

theorem writeStart_starts (s : State) (q : Fin 64) (t : Fin 4) (x : Nat) :
    WriteStarts s.quires[q] (writeStart q t s).quires[q] t x := by
  rw [writeStart_quire]
  split
  · exact dropStarted_starts _ _ _ _
  · exact ⟨rfl, rfl, rfl, rfl⟩

theorem writeStart_launches (s : State) (q : Fin 64) (t : Fin 4) :
    Launches s (writeStart q t s) q (writeStart q t s).quires[q] [] [] [] := by
  unfold writeStart
  split
  · rw [updQ_quires_self]
    exact (Launches.start s q).upd rfl rfl rfl rfl
  · exact Launches.start s q

/-- A write STREAM that takes its place starts its work. -/
theorem Issues.sends {s a : State} {q : Fin 64} {t : Fin 4} {w : Word} (hi : Issues s q t w 0x2C) {d : StreamDesc} {row : Nat} {v : Quire}
    (hb : streamBody q t w (issueState s q t) (issueLc s q t) = streamWrite q t w d row a (issueLc s q t))
    (hl : Launches (issueState s q t) a q v [] [] []) (hq : a.quires[q] = v)
    (hk : WriteStarts (issueQuire s q t) v t (issueLc s q t))
    (hu : writeUsed (issueQuire s q t) t (issueLc s q t) + 512 * d.len ≤ outStoreSize t) :
    StartsWork s q t (queueWrite t (issueTask s q t).pc.toNat
        (streamMessage t (issueTask s q t).winBase (issueLc s q t) (issueQuire s q t).edgeOff d) v)
      [{ lc := issueLc s q t + 2, ph := 0, task := t,
         op := .send (issueLc s q t) d.target (streamFirst (issueTask s q t) d.target row) 0 0 d.pace d.len }]
      [sendAccess (issueLc s q t) t d.target (streamFirst (issueTask s q t) d.target row) 0 (issueLc s q t + 2)]
      [{ first := issueLc s q t + 2, last := issueLc s q t + 1 + d.len * d.pace, tok := tokOf w, task := t, drain := false }]
      (exec (.stream q t w) s) := by
  obtain ⟨h1, h2, -, h4⟩ := hk
  have hd := streamWrite_done (s := a) (q := q) (t := t) (d := d) (x := issueLc s q t) (by rw [hq, h4]; exact hu) w row
  rw [hq, h1, h2] at hd
  have hv : v.seq.tasks[t].live = true := by rw [h1]; exact hi.live
  exact hi.starts (reading_done (hb.trans hd) [fld w 6 5]) (streamWrite_launches hl hv w d _ _ _ _) h1

/-- Settles O22: a landing of its own or the one run-ahead has started; or a message in the outbound store. -/
theorem streamStarts : Obligations.StreamStarts := by
  unfold Obligations.StreamStarts
  refine ⟨fun s q t w row => ?_, fun s q t w row => ?_⟩
  · intro k tk x bs d c issued fresh hi hr h1 h2 h3 h4 h5 h6 hw hn hm
    have hb := streamBody_read (d := d) (hr.noteEarly x) rfl (StreamOk.mk h1 h2 h3 h4 h5 h6) hw hn hm
    refine ⟨fun ⟨hs, hu⟩ => ?_, fun i l ht hs hl hd he => ?_⟩
    · replace hb := hb.trans (streamRead_fresh hs hu)
      rw [arriveLanding_new] at hb
      exact hi.starts (reading_done hb [fld w 6 5]) (streamRead_launches hi.live (k.stream.landings ++ [fresh]) w d x) rfl
    · subst ht
      replace hb := hb.trans (streamRead_started hs hl hd he)
      exact hi.starts (reading_done hb [fld w 6 5]) (streamRead_launches hi.live (k.stream.landings.set i (issued l)) w d x) rfl
  · intro k tk x bs d c o first kept ls hi hr h1 h2 h3 h4 h5 h6 hw hu
    have hb := streamBody_write (d := d) (hr.noteEarly x) rfl (StreamOk.mk h1 h2 h3 h4 h5 h6) hw
      (Nat.le_trans (Nat.le_add_left _ _) hu)
    have hk := writeStart_starts (issueState s q t) q t x
    have hv : (writeStart q t (issueState s q t)).quires[q] = kept := writeStart_quire _ q t
    have hl := writeStart_launches (issueState s q t) q t
    rw [hv] at hk hl
    have hs := hi.sends hb hl hv hk hu
    have he : queueWrite t tk.pc.toNat o kept = { kept with stream := { kept.stream with
        writes := k.stream.writes ++ [o]
        landings := if t = 0 ∧ d.far = 0 then holdBack tk.pc.toNat o.faddr (512 * d.len) ls else ls } } := by
      rw [show k.stream.writes = kept.stream.writes from hk.writes.symm]
      rfl
    rw [← he]
    exact hs

end Sys2Proof.Machine
end

section
/-! WPANEL and the instructions of the update engine (R140 R247 R257 R261 R277). -/

namespace Sys2Proof.Machine

/-! ## WPANEL (R138–R141) -/

/-- A descriptor read outside every stream commit is no hazard (R191). -/
theorem DescClear.noteDesc {s : State} {q : Fin 64} {t : Fin 4} {ix size first : Nat} (h : DescClear s q t ix size first) :
    noteDesc (issueState s q t) q t (issueLc s q t) (issueTask s q t) ix size first = issueState s q t := by
  obtain h | h := h
  · unfold Machine.noteDesc
    dsimp only
    split
    · exact hazard_off h q t 2 5 _
    · rfl
  · refine if_neg ?_
    rw [List.any_eq_true]
    rintro ⟨e, he, hc⟩
    obtain ⟨h1, h2⟩ := h e he
    rw [Bool.or_eq_true, h1, h2] at hc
    simp at hc

/-- A panel with its rows resolved, as its issue in lc x starts it. -/
def startPanel (tk : Task) (t : Fin 4) (x : Nat) (d : PanelDesc) : PanelOp :=
  { x := x, task := t
    d := { d with block := tk.regBase + d.block, destRow := tk.stgBase + d.destRow, scRow := tk.stgBase + d.scRow }
    block := [], lost := [], chunk := [], scales := [] }

theorem panelValuesOk_nblk {s : State} {bs : List Byte} {d : PanelDesc} (h : panelValuesOk s bs d = true) : d.nblk ≠ 0 := by
  unfold panelValuesOk at h
  simp only [Bool.and_eq_true, bne_iff_ne] at h
  tauto

/-- A WPANEL whose checks hold. -/
theorem wpanelBody_done {s : State} {q : Fin 64} {t : Fin 4} {w : Word} {x : Nat} {pd : List Byte × List ReadNote} {d : PanelDesc}
    (hn : noteEarly s q t x [fld w 6 5] = s)
    (hd : descAt s.quires[q] (afterLc s q x) s.quires[q].seq.tasks[t] (fld w 11 13) 32 16 = some pd)
    (hu : anyUncorrectable pd.2 = false) (he : panelOffsets (srcReg s q t (fld w 6 5)) (parsePanel pd.1) = d)
    (hv : panelValuesOk s pd.1 d = true) (hr : s.quires[q].seq.tasks[t].regValid = true) (ha : d.destRow % 2 = 0)
    (hb : ∀ m < d.nblk, s.quires[q].seq.tasks[t].blocksOk (d.block + m * d.stride) 1 = true)
    (h1 : s.quires[q].seq.tasks[t].spadOk 2 d.destRow (panelRows d) = true)
    (h2 : s.quires[q].seq.tasks[t].spadOk 2 d.scRow (panelScRows d) = true)
    (hc : noteDesc s q t x s.quires[q].seq.tasks[t] (fld w 11 13) 32 16 = s) :
    wpanelBody q t w s x = .done (claimTok (laterPanel s q (x + 2) (startPanel s.quires[q].seq.tasks[t] t x d) 0) q
      { first := x + 2, last := x + 1 + 2 * d.nblk, tok := tokOf w, task := t, drain := false }) := by
  have hall : (List.range d.nblk).all (fun m => s.quires[q].seq.tasks[t].blocksOk (d.block + m * d.stride) 1) = true := by
    rw [List.all_eq_true]
    exact fun m hm => hb m (List.mem_range.1 hm)
  have ha' : ¬ d.destRow % 2 = 1 := by omega
  simp only [wpanelBody, hn, hd, hu, he, hv, hr, hall, h1, h2, hc, ha', Bool.not_true, Bool.or_self, Bool.false_eq_true, if_false]
  rfl

theorem panel_launches {s : State} {q : Fin 64} {t : Fin 4} (hl : s.quires[q].seq.tasks[t].live = true) {d : PanelDesc}
    (hd : d.nblk ≠ 0) (w : Word) (x : Nat) :
    let o := startPanel s.quires[q].seq.tasks[t] t x d
    let c : Claim := { first := x + 2, last := x + 1 + 2 * d.nblk, tok := tokOf w, task := t, drain := false }
    Launches s (claimTok (laterPanel s q (x + 2) o 0) q c) q s.quires[q] [{ lc := x + 2, ph := 0, task := t, op := .panel o 0 }]
      [panelAccess o 0 (x + 2)] [c] := by
  intro o c
  have hp : laterPanel s q (x + 2) o 0 = later (placePorts s q [panelAccess o 0 (x + 2)]) q t (x + 2) 0 (.panel o 0) := by
    have h : 0 < 2 * o.d.nblk := Nat.mul_pos (by decide) (Nat.pos_of_ne_zero hd)
    unfold laterPanel
    rw [if_pos h]
    rfl
  rw [hp]
  exact (((Launches.start s q).place hl (l := [panelAccess o 0 (x + 2)]) fun p hp => by
    rw [List.mem_singleton.1 hp]; rfl).later hl _ _ _).claim c hl

/-- Settles O27: the first half of the first block in flight, the claim made. -/
theorem wpanelStarts : Obligations.WpanelStarts := by
  unfold Obligations.WpanelStarts
  intro s q t w pd k tk x d o c hi hr hd hu hv hg ha hb h1 h2 hc
  exact hi.starts (reading_done (wpanelBody_done (hr.noteEarly x) hd hu rfl hv hg ha hb h1 h2 hc.noteDesc) [fld w 6 5])
    (panel_launches hi.live (panelValuesOk_nblk hv) w x) rfl

/-! ## UPD (R247) -/

/-- The update engine with a pass that issues in lc x. -/
def startUpd (p : UpdPlan) (entry x : Nat) (qr : Quire) : Quire :=
  { qr with upd := { qr.upd with
      op := p.op, entry := entry, lastIssue := x, lastBlocks := p.n,
      runs := qr.upd.runs ++ [{ x := x, blocks := p.n, adds := p.op == 2 && p.kept }] } }

theorem updRun_done {s : State} {q : Fin 64} {x : Nat} (h : updClash s.quires[q] x = false) (w : Word) (p : UpdPlan) (entry : Nat) :
    updRun q 0 w p entry s x = .done (claimTok (laterRead (updQ s q (startUpd p entry x)) q (x + 2) p 0 0 BlockIn.empty) q
      { first := x + 2, last := x + 1 + 32 * p.n, tok := tokOf w, task := 0, drain := false }) := by
  unfold updRun
  dsimp only
  rw [h]
  rfl

theorem readAccesses_task {p : UpdPlan} {j i l : Nat} {a : Access} (h : a ∈ readAccesses p j i l) : a.task = 0 := by
  have key : ∀ (c : Bool) (b : Access), a ∈ (if c then [b] else []) → a = b := by
    intro c b h
    split at h
    · exact List.mem_singleton.1 h
    · cases h
  obtain h | h := List.mem_append.1 h
  · obtain h | h := List.mem_append.1 h <;> (rw [key _ _ h]; rfl)
  · rw [key _ _ h]; rfl

theorem upd_launches {s : State} {q : Fin 64} (hl : s.quires[q].seq.tasks[(0 : Fin 4)].live = true) (w : Word) (p : UpdPlan)
    (entry x : Nat) :
    let c : Claim := { first := x + 2, last := x + 1 + 32 * p.n, tok := tokOf w, task := 0, drain := false }
    Launches s (claimTok (laterRead (updQ s q (startUpd p entry x)) q (x + 2) p 0 0 BlockIn.empty) q c) q
      (startUpd p entry x s.quires[q]) [{ lc := x + 2, ph := 0, task := 0, op := .updRead p 0 0 BlockIn.empty }]
      (readAccesses p 0 0 (x + 2)) [c] := by
  intro c
  have h0 := (Launches.start s q).upd (f := startUpd p entry x) (v' := startUpd p entry x s.quires[q]) rfl rfl rfl rfl
  have h := ((h0.place hl (l := readAccesses p 0 0 (x + 2)) fun a ha => readAccesses_task ha).later hl (x + 2) 0
    (.updRead p 0 0 BlockIn.empty)).claim c hl
  exact h

/-- A UPD of task 0 whose checks hold. -/
theorem updBody_done {s : State} {q : Fin 64} {w : Word} {x : Nat} (hf : fld w 10 2 ≠ 3 → fld w 6 4 = 0)
    (hl : layerOk (storeEntry s.quires[q].mem.descActive (fld w 12 10)) (parseLayer (storeEntry s.quires[q].mem.descActive (fld w 12 10)))
      (fld w 10 2) = true)
    (hb : s.quires[q].seq.tasks[(0 : Fin 4)].blocksOk (fld w 22 13) (fld w 35 13 + 1) = true)
    (hn : noteEarly s q 0 x (if fld w 10 2 = 3 then [2 * fld w 6 4] else []) = s) :
    updBody q 0 w s x =
      let d := parseLayer (storeEntry s.quires[q].mem.descActive (fld w 12 10))
      updRun q 0 w
        { x := x, op := fld w 10 2, d := d, f := (srcReg s q 0 (2 * fld w 6 4)).setWidth 32,
          block0 := s.quires[q].seq.tasks[(0 : Fin 4)].regBase + fld w 22 13, n := fld w 35 13 + 1, kept := keepBit s.quires[q] d.gslot }
        (fld w 12 10) s x := by
  have h1 : (decide (fld w 10 2 ≠ 3) && decide (fld w 6 4 ≠ 0)) = false := by
    rw [← Bool.decide_and, decide_eq_false_iff_not]
    exact fun h => h.2 (hf h.1)
  unfold updBody
  dsimp only
  rw [h1, hl, hb, hn, BitVec.ofNat_toNat]
  rfl

/-! ## UGET and USTAT (R257 R261) -/

theorem unitReg_eq {a : State} {q : Fin 64} {t : Fin 4} {x r : Nat}
    (h : hazOn a = false ∨ r = 0 ∨
      a.quires[q].seq.tasks[t].pend.any (fun p => !p.byUnit && p.reg.val == r && p.lc == x + 2) = false) (v : Word) :
    unitReg a q t x r v = updT a q t (fun tk => writeReg tk r v (x + 2) true) := by
  unfold unitReg
  obtain h | h | h := h
  · dsimp only
    split
    · exact hazard_off (a := updT a q t (fun tk => writeReg tk r v (x + 2) true)) h q t 1 10 x
    · rfl
  · subst h
    rfl
  · rw [h, Bool.and_false]
    rfl

/-- A unit's write of a register is none that waits for a unit's write. -/
theorem any_pend_writeReg {tk : Task} {f : PendReg → Bool} (h : tk.pend.any f = false) (hf : ∀ p : PendReg, p.byUnit = true → f p = false)
    (r : Nat) (v : Word) (y : Nat) : (writeReg tk r v y true).pend.any f = false := by
  by_cases hr : r = 0
  · rw [hr, writeReg_zero]
    exact h
  · rw [writeReg_of_ne hr, List.any_eq_false, ← List.filter_eq_nil_iff, filter_insertPend_of_not (hf _ rfl), List.filter_eq_nil_iff,
      ← List.any_eq_false]
    exact h

theorem ustatBody_done {s : State} {q : Fin 64} {w : Word} {x : Nat} (hw : wRD w % 2 = 0)
    (hr : ∀ r ∈ s.quires[q].upd.runs, r.adds = true → r.x + 32 * r.blocks + 66 < x) :
    ustatBody q 0 w s x = .done (updQ (unitReg (unitReg s q 0 x (wRD w) ((f64ToF32 s.quires[q].upd.sumA).zeroExtend 64)) q 0 x
      (wRD w + 1) ((f64ToF32 s.quires[q].upd.sumB).zeroExtend 64)) q (fun k => { k with upd := { k.upd with sumA := 0, sumB := 0 } })) := by
  have h : s.quires[q].upd.runs.any (fun r => r.adds && decide (x ≤ r.x + 32 * r.blocks + 66)) = false := by
    rw [List.any_eq_false]
    intro r hm hc
    rw [Bool.and_eq_true, decide_eq_true_eq] at hc
    exact absurd (hr r hm hc.1) (Nat.not_lt.2 hc.2)
  have hodd : ¬ fld w 6 5 % 2 = 1 := by
    rw [show fld w 6 5 = wRD w from rfl, hw]
    decide
  unfold ustatBody
  dsimp only
  rw [if_neg hodd, if_neg (not_not.2 rfl), h, BitVec.ofNat_toNat, BitVec.ofNat_toNat]
  rfl

theorem ugetBody_done {s : State} {q : Fin 64} {w : Word} (h : fld w 11 11 ≤ 1039) (x : Nat) :
    ugetBody q 0 w s x =
      .done (unitReg s q 0 x (wRD w) (dword (storeEntry s.quires[q].mem.descActive (fld w 11 11)) (fld w 22 3))) :=
  (if_neg (Nat.not_lt.2 h)).trans (if_neg (not_not.2 rfl))

/-- Settles O29: the engine's pass, its word, and its sums. -/
theorem updateEngine : Obligations.UpdateEngine := by
  unfold Obligations.UpdateEngine
  refine ⟨fun s q w => ?_, fun s q w => ?_⟩
  · intro k tk x op n bs d p c hi hf hl hb hr hc
    have hn : noteEarly (issueState s q 0) q 0 x (if fld w 10 2 = 3 then [2 * fld w 6 4] else []) = issueState s q 0 := by
      split
      · exact (hr ‹_›).noteEarly x
      · exact (readsReady_nil s q 0).noteEarly x
    exact hi.starts ((updBody_done hf hl hb hn).trans (updRun_done hc w p _)) (upd_launches hi.live w p _ x) rfl
  · intro b k x put
    have hput : ∀ (a : State) (r : Nat) (v : Word), (put a r v).quires[q].seq.tasks[(0 : Fin 4)].live =
        a.quires[q].seq.tasks[(0 : Fin 4)].live := fun a r v => updT_live (fun tk => writeReg_live tk r v _ true) a q 0
    refine ⟨fun hi hn hc => ?_, fun hi hw hc hd hr => ?_⟩
    · exact hi.retires ((ugetBody_done hn x).trans (congrArg Res.done (unitReg_eq hc _))) ((hput _ _ _).trans hi.live)
    · have h1 := fun v => unitReg_eq hc v
      have h2 : ∀ v v', unitReg (updT (issueState s q 0) q 0 (fun tk => writeReg tk (wRD w) v (issueLc s q 0 + 2) true)) q 0
          (issueLc s q 0) (wRD w + 1) v' = put (put b (wRD w) v) (wRD w + 1) v' := fun v v' => unitReg_eq (by
        refine hd.imp id (Or.imp id fun h => ?_)
        rw [updT_quires_self, updTask_task_self]
        exact any_pend_writeReg h (fun p hp => by rw [hp]; rfl) _ _ _) v'
      have hb := ustatBody_done hw hr
      rw [h1, h2] at hb
      refine hi.retires hb ?_
      rw [updQ_quires_self]
      exact ((hput _ _ _).trans (hput _ _ _)).trans hi.live

end Sys2Proof.Machine
end

section
/-! VOP and TILE: what their issue puts in flight (R77–R81 R195–R203 R277). -/

namespace Sys2Proof.Machine

/-! ## VOP (R195 R203) -/

/-- The vector engine with an operation whose first beat enters in lc p.t0 and which cuts none. -/
def startVec (p : VecPlan) (t : Fin 4) (last : Nat) (k : Quire) : Quire :=
  { k with vec := { k.vec with
      task := t, lastBeat := last + 1, op := p.d.op, reduces := decide (p.d.red ≠ 0)
      runs := k.vec.runs.map (VecRun.cutAt p.t0) ++
        [{ task := t, first := p.t0, pace := p.d.pace, pastLast := last + 1, op := p.d.op, reduces := decide (p.d.red ≠ 0) }] } }

/-- The first step of an operation: the load of its table, or its first beat. -/
def firstBeat (q : Fin 64) (t : Fin 4) (p : VecPlan) (x : Nat) (s : State) : State :=
  if p.d.op = 15 then later (placePorts s q [vecTableAccess p 0 (x + 2)]) q t (x + 2) 0 (.vecTable (newVecOp p) 0)
  else laterBeat s q p.t0 (newVecOp p)

theorem vecRun_done {s : State} {q : Fin 64} {p : VecPlan} (h : s.quires[q].vec.lastBeat ≤ p.t0) (t : Fin 4) (w : Word) (x : Nat) :
    let last := p.t0 + (p.d.nOut * p.d.beats - 1) * p.d.pace
    vecRun q t w p s x = .done (claimTok (updQ (firstBeat q t p x s) q (startVec p t last)) q
      { first := p.t0, last := last, tok := tokOf w, task := t, drain := false }) := by
  have hc : decide (p.t0 < s.quires[q].vec.lastBeat) = false := decide_eq_false (Nat.not_lt.2 h)
  have hr : (p.d.red != 0) = decide (p.d.red ≠ 0) := by simp [bne, beq_eq_decide]
  unfold vecRun
  dsimp only
  rw [hc, hr]
  rfl

theorem operandAccesses_task {o : VecOp} {i : Nat} {v : VecSrc} {l k t : Nat} {a : Access} (h : a ∈ operandAccesses o i v l k t) :
    a.task = o.plan.task := by
  unfold operandAccesses at h
  split at h
  · cases h
  · obtain h | h := List.mem_cons.1 h
    · rw [h]; rfl
    · split at h
      · rw [List.mem_singleton.1 h]; rfl
      · cases h

theorem beatAccesses_task {o : VecOp} {t : Nat} {a : Access} (h : a ∈ beatAccesses o t) : a.task = o.plan.task := by
  simp only [beatAccesses, List.mem_append] at h
  obtain ((h | h) | h) | h := h
  · exact operandAccesses_task h
  · exact operandAccesses_task h
  · exact operandAccesses_task h
  · split at h
    · rw [List.mem_singleton.1 h]; rfl
    · cases h

theorem firstBeat_launches {s : State} {q : Fin 64} {t : Fin 4} (hl : s.quires[q].seq.tasks[t].live = true) {p : VecPlan}
    (hp : p.task = t) (x : Nat) :
    Launches s (firstBeat q t p x s) q s.quires[q]
      [if p.d.op = 15 then { lc := x + 2, ph := 0, task := t, op := .vecTable (newVecOp p) 0 }
       else { lc := p.t0, ph := 0, task := t, op := .vecBeat (newVecOp p) }]
      (if p.d.op = 15 then [vecTableAccess p 0 (x + 2)] else beatAccesses (newVecOp p) p.t0) [] := by
  subst hp
  have h0 := Launches.start s q
  unfold firstBeat
  by_cases h : p.d.op = 15
  · simp only [if_pos h]
    exact (h0.place hl (l := [vecTableAccess p 0 (x + 2)]) fun a ha => by rw [List.mem_singleton.1 ha]; rfl).later hl _ _ _
  · simp only [if_neg h]
    exact (h0.place hl (l := beatAccesses (newVecOp p) p.t0) fun a ha => beatAccesses_task ha).later hl _ _ _

theorem vec_launches {s : State} {q : Fin 64} {t : Fin 4} (hl : s.quires[q].seq.tasks[t].live = true) {p : VecPlan} (hp : p.task = t)
    (w : Word) (x last : Nat) :
    let c : Claim := { first := p.t0, last := last, tok := tokOf w, task := t, drain := false }
    Launches s (claimTok (updQ (firstBeat q t p x s) q (startVec p t last)) q c) q (startVec p t last s.quires[q])
      [if p.d.op = 15 then { lc := x + 2, ph := 0, task := t, op := .vecTable (newVecOp p) 0 }
       else { lc := p.t0, ph := 0, task := t, op := .vecBeat (newVecOp p) }]
      (if p.d.op = 15 then [vecTableAccess p 0 (x + 2)] else beatAccesses (newVecOp p) p.t0) [c] := by
  intro c
  have h := firstBeat_launches hl hp x
  have hc : (startVec p t last (firstBeat q t p x s).quires[q]).content = (startVec p t last s.quires[q]).content :=
    congrArg (startVec p t last) h.content
  exact (h.upd hc rfl rfl rfl).claim c hl

/-- A VOP whose checks hold. -/
theorem vopBody_done {s : State} {q : Fin 64} {t : Fin 4} {w : Word} {x : Nat} {vd : List Byte × List ReadNote} {va vb vc vo : VecSrc}
    (hd : descAt s.quires[q] (afterLc s q x) s.quires[q].seq.tasks[t] (fld w 11 12) 64 32 = some vd)
    (hu : anyUncorrectable vd.2 = false)
    (hv : vecLegal vd.1 (parseVec vd.1) (parseOperand vd.1 1) (parseOperand vd.1 2) (parseOperand vd.1 3) (parseOperand vd.1 4) = true)
    (ha : resolveOperand s q t (parseOperand vd.1 1) (xrPart (srcReg s q t (fld w 6 5)) 0) = some va)
    (hb : (if usesB (parseVec vd.1).op then resolveOperand s q t (parseOperand vd.1 2) (xrPart (srcReg s q t (fld w 6 5)) 1)
      else some VecSrc.absent) = some vb)
    (hc : (if usesC (parseVec vd.1).op then resolveOperand s q t (parseOperand vd.1 3) (xrPart (srcReg s q t (fld w 6 5)) 2)
      else some VecSrc.absent) = some vc)
    (ho : (if (parseVec vd.1).dEn then resolveOperand s q t (parseOperand vd.1 4) (xrPart (srcReg s q t (fld w 6 5)) 3)
      else some VecSrc.absent) = some vo)
    (hk : vecBoundsOk s.quires[q].seq.tasks[t] (parseVec vd.1) va vb vc vo = true)
    (hnd : noteDesc s q t x s.quires[q].seq.tasks[t] (fld w 11 12) 64 32 = s)
    (hn : noteEarly s q t x (fld w 6 5 :: operandRegs [parseOperand vd.1 1, parseOperand vd.1 2, parseOperand vd.1 3]) = s) :
    vopBody q t w s x = vecRun q t w
      { x := x, task := t, d := parseVec vd.1, a := va, b := vb, c := vc, o := vo
        t0 := if (parseVec vd.1).op = 15 then x + 10 else x + 2, mode := bit s.quires[q].vec.config 0
        redBase := s.quires[q].seq.tasks[t].spadBase (parseVec vd.1).redSpad + (parseVec vd.1).redRow
        tabBase := s.quires[q].seq.tasks[t].psBase + (parseVec vd.1).tabRow } s x := by
  simp only [vopBody, hd, hu, hv, ha, hb, hc, ho, hk, hnd, hn, Bool.not_true, Bool.false_eq_true, if_false, if_true]

/-- Settles O28: the table's load or the first beat in flight, the engine taken, the claim made. -/
theorem vopStarts : Obligations.VopStarts := by
  unfold Obligations.VopStarts
  intro s q t w vd va vb vc vo b k tk x xr d a1 a2 a3 a4 t0 last p c run hi hr hd hu hv ha hb hc ho hk hlast hclear
  exact hi.starts ((vopBody_done hd hu hv ha hb hc ho hk hclear.noteDesc (hr.noteEarly x)).trans (vecRun_done (p := p) hlast t w x))
    (vec_launches (p := p) hi.live rfl w x last) rfl

end Sys2Proof.Machine
end

section
/-! TILE: what its issue puts in flight (R77–R81 R277 R322 R523). -/

namespace Sys2Proof.Machine

/-- A tile whose first chunk comes behind the last of the running one cuts none (R81). -/
theorem cutTile_of_behind {qr : Quire} {c0 : Nat} (h : ∀ r, qr.array.running = some r → r.last < c0) (x p : Nat) :
    cutTile x p c0 qr = qr := by
  unfold cutTile
  split
  · rfl
  · exact if_pos (h _ ‹_›)

/-- The checks of a tile descriptor by itself (R75 R76 R106 R228 R301). -/
theorem tileIllegal_none {t : Fin 4} {w : Word} {bs : List Byte} {d : TileDesc} {x start : Nat} (hv : tileValuesOk bs d = true)
    (hp : pairingOk d.rowFmt d.colFmt = true) (hr : bit w 60 = true → d.rowSrc ≠ 2)
    (hs : d.ends = true → d.deriv = 2 → x + 12 ≤ start) (ht : t ≠ 0 → d.rowSrc = 2) : tileIllegal t w bs d x start = none := by
  have h1 : (bit w 60 && d.rowSrc == 2) = false := by
    rw [Bool.and_eq_false_imp, beq_eq_false_iff_ne]
    exact hr
  have h2 : ¬ (d.ends && d.deriv == 2 && decide (start < x + 12)) = true := by
    simp only [Bool.and_eq_true, beq_iff_eq, decide_eq_true_eq]
    exact fun h => absurd (hs h.1.1 h.1.2) (Nat.not_le.2 h.2)
  have h3 : ¬ (decide (t ≠ 0) && decide (d.rowSrc ≠ 2)) = true := by
    simp only [Bool.and_eq_true, decide_eq_true_eq]
    exact fun h => h.2 (ht h.1)
  unfold tileIllegal
  rw [hv, hp, h1, if_neg (by decide), if_neg h2, if_neg h3]

/-- A tile with its rows resolved, as its issue in lc x starts it. -/
def startTile (tk : Task) (t : Fin 4) (w : Word) (x rb cb : Nat) (d : TileDesc) (rt ct : TensorDesc) : TileOp :=
  let c0 := if d.init = 2 then x + 34 else x + 2
  { x := x, task := t, d := d, rt := rt, ct := ct, retire := bit w 60, rowBase := tk.actBase + rb
    rowSc := tk.actBase + rt.scRow, colBase := (if d.colSrc = 2 then tk.stgBase else tk.regBase) + cb
    colSc := tk.stgBase + ct.scRow, preRow := tk.psBase + d.preloadRow, p := x + 2, c0 := c0, n := chunkInterval d
    last := c0 + d.nchunk * chunkInterval d - 1, stop := none }

theorem planTimes_eq (x : Nat) (d : TileDesc) :
    planTimes x d = (x + 2, if d.init = 2 then x + 34 else x + 2, chunkInterval d,
      (if d.init = 2 then x + 34 else x + 2) + d.nchunk * chunkInterval d - 1) := rfl

/-- The checks of R523 hold for a tile of descriptors d, rt and ct and relative rows rb and cb, its drain to start in lc
`start`. -/
structure TileOk (qr : Quire) (t : Fin 4) (w : Word) (x start : Nat) (bs ob : List Byte) (d : TileDesc) (rt ct : TensorDesc)
    (rb cb : Nat) : Prop where
  rowTensor : rowTensorOk d rt = true
  colTensor : colTensorOk d ct = true
  pair : pairReservedOk ob = true
  legal : tileIllegal t w bs d x start = none
  row : (if d.rowSrc = 2 ∧ rt.hpEn = true then hpRow qr.seq.tasks[t] rt.hp rt.hpSide rt.row 0 else some rt.row) = some rb
  col : (if d.colSrc = 2 ∧ ct.hpEn = true then hpRow qr.seq.tasks[t] ct.hp ct.hpSide ct.row 2 else some ct.row) = some cb
  preload : d.init = 2 → d.preloadRow % 8 = 0
  spine : d.ends = true → d.dest = 4 → d.destRow < 2
  dest : d.ends = true → d.dest ≠ 4 → d.destRow % tileRows d.outFmt = 0
  deriv : d.ends = true → d.deriv = 2 → d.derivRow % 4 = 0
  bounds : tileBoundsOk qr.seq.tasks[t] d rt ct rb cb (fillsCollector qr d) = true

/-- A TILE whose checks hold. -/
theorem tileBody_done {s : State} {q : Fin 64} {t : Fin 4} {w : Word} {x start rb cb : Nat} {td od : List Byte × List ReadNote}
    {d : TileDesc} {rt ct : TensorDesc} (hn : noteEarly s q t x [fld w 6 5] = s)
    (htd : descAt s.quires[q] (afterLc s q x) s.quires[q].seq.tasks[t] (fld w 11 12) 64 64 = some td)
    (hod : descAt s.quires[q] (afterLc s q x) s.quires[q].seq.tasks[t] (fld w 23 12) 64 0 = some od)
    (hu : anyUncorrectable (td.2 ++ od.2) = false)
    (hf : tileOffsets (srcReg s q t (fld w 6 5)) (parseTile td.1) (parseTensor od.1 0) (parseTensor od.1 32) = (d, rt, ct))
    (hs : plannedStart s.quires[q] x d = start) (hok : TileOk s.quires[q] t w x start td.1 od.1 d rt ct rb cb)
    (hc1 : noteDesc s q t x s.quires[q].seq.tasks[t] (fld w 11 12) 64 64 = s)
    (hc2 : noteDesc s q t x s.quires[q].seq.tasks[t] (fld w 23 12) 64 0 = s) :
    tileBody q t w s x = tileRun q t w (startTile s.quires[q].seq.tasks[t] t w x rb cb d rt ct) start s x := by
  obtain ⟨h1, h2, h3, h4, h5, h6, h7, h8, h9, h10, h11⟩ := hok
  have g7 : ¬ (decide (d.init = 2) && (d.preloadRow % 8 != 0)) = true := by simpa using h7
  have g8 : ¬ (d.ends && decide (d.dest = 4) && decide (d.destRow ≥ 2)) = true := by simpa using h8
  have g9 : ¬ (d.ends && decide (d.dest ≠ 4) && (d.destRow % tileRows d.outFmt != 0)) = true := by simpa using h9
  have g10 : ¬ (d.ends && decide (d.deriv = 2) && (d.derivRow % 4 != 0)) = true := by simpa using h10
  simp only [tileBody, hn, htd, hod, hu, hf, hs, planTimes_eq, h1, h2, h3, h4, Bool.and_eq_true, decide_eq_true_eq, h5, h6, h11, hc1, hc2,
    Bool.not_true, Bool.or_self, Bool.false_eq_true, if_false]
  simp only [Bool.and_eq_true, decide_eq_true_eq] at g7 g8 g9 g10
  rw [if_neg g7, if_neg g8, if_neg g9, if_neg g10]
  rfl

/-- The array with a tile that runs and its drain. -/
def runTile (o : TileOp) (dr : Option Drain) (qr : Quire) : Quire :=
  { qr with array := { qr.array with running := some o, lastChunk := o.last + 1, drains := qr.array.drains ++ dr.toList } }

/-- A tile's effects and accesses in flight. -/
def flyTile (q : Fin 64) (o : TileOp) (dr : Option Drain) (s : State) : State :=
  updQ (placePorts (updQ s q (runTile o dr)) q (tileAccesses o dr)) q (fun qr => emitAll qr (tileEvents o dr))

/-- The claims of a tile, of which the drain's is that of 150 tokens. -/
def tileSpan (w : Word) (o : TileOp) : Claim := { first := o.p, last := o.last, tok := tokOf w, task := o.task, drain := false }
def drainSpan (s : State) (o : TileOp) (start : Nat) : Claim :=
  { first := drainClaimFirst s start, last := start + 39, tok := 150, task := o.task, drain := true }

theorem claimTok_bind (s : State) (q : Fin 64) (c : Claim) : (claimTok s q c).bind = s.bind := by
  unfold claimTok
  split <;> rfl

theorem drainSpan_claimTok (s : State) (q : Fin 64) (c : Claim) (o : TileOp) (start : Nat) :
    drainSpan (claimTok s q c) o start = drainSpan s o start := by
  simp only [drainSpan, drainClaimFirst, claimTok_bind]

/-- The drain of a tile with END. -/
def drainOfTile (qr : Quire) (o : TileOp) (start : Nat) : Option Drain :=
  if o.d.ends then
    some (newDrain qr.seq.tasks[o.task] o start (otherDrainEnd qr o.d.setIx) (fillsCollector qr o.d)) else none

/-- No set of the array is drained late into the tile's chunks (R80). -/
theorem fillsEarly_none {o : TileOp} {ds : List Drain}
    (h : ∀ r ∈ ds, r.d.setIx = o.d.setIx → if o.d.init = 2 then r.start + 1 ≤ o.p else r.start + 29 ≤ o.c0) :
    ds.any (fillsEarly o) = false := by
  rw [List.any_eq_false]
  intro r hr hf
  rw [fillsEarly, Bool.and_eq_true, beq_iff_eq] at hf
  have hs := h r hr hf.1
  have hf2 := hf.2
  split at hs
  · rw [if_pos ‹_›, decide_eq_true_eq] at hf2
    omega
  · rw [if_neg ‹_›, decide_eq_true_eq] at hf2
    omega

/-- The issue of a tile that cuts no other and comes behind every chunk and drain of its set. -/
theorem tileRun_done {s : State} {q : Fin 64} {o : TileOp} (hr : ∀ r, s.quires[q].array.running = some r → r.last < o.c0)
    (hl : s.quires[q].array.lastChunk ≤ o.c0)
    (hf : ∀ r ∈ liveDrains s.quires[q], r.d.setIx = o.d.setIx →
      if o.d.init = 2 then r.start + 1 ≤ o.p else r.start + 29 ≤ o.c0) (w : Word) (start x : Nat) :
    let a := claimTok (flyTile q o (drainOfTile s.quires[q] o start) s) q (tileSpan w o)
    tileRun q o.task w o start s x = .done (if o.d.ends then claimTok a q (drainSpan s o start) else a) := by
  intro a
  have hcut := cutTile_of_behind hr x o.p
  have hfly : flyTile q o (drainOfTile s.quires[q] o start) s = updQ s q (fun qr =>
      emitAll (placeAll (tileAccesses o (drainOfTile s.quires[q] o start))
        (runTile o (drainOfTile s.quires[q] o start) (cutTile x o.p o.c0 qr))) (tileEvents o (drainOfTile s.quires[q] o start))) := by
    rw [flyTile, placePorts, updQ_updQ, updQ_updQ]
    refine updQ_congr ?_
    rw [hcut]
  have hspan : drainSpan s o start = drainSpan a o start :=
    (drainSpan_claimTok (flyTile q o (drainOfTile s.quires[q] o start) s) q (tileSpan w o) o start).symm
  unfold tileRun
  dsimp only
  rw [fillsEarly_none hf, decide_eq_false (Nat.not_lt.2 hl), hcut]
  simp only [Bool.false_eq_true, if_false]
  rw [hspan, show a = claimTok _ q (tileSpan w o) from congrArg (claimTok · q (tileSpan w o)) hfly]
  rfl

theorem forall_mem_ite {α : Type} {P : α → Prop} {c : Prop} [Decidable c] {l : List α} (h : ∀ a ∈ l, P a) :
    ∀ a ∈ (if c then l else []), P a := by
  split
  · exact h
  · exact List.forall_mem_nil _

theorem chunkAccesses_task (o : TileOp) (c k l : Nat) : ∀ a ∈ chunkAccesses o c k l, a.task = o.task := by
  simp only [chunkAccesses, List.forall_mem_append]
  exact ⟨⟨⟨⟨forall_mem_ite (List.forall_mem_singleton.2 rfl), forall_mem_ite (List.forall_mem_singleton.2 rfl)⟩,
    forall_mem_ite (List.forall_mem_singleton.2 rfl)⟩,
    forall_mem_ite (List.forall_mem_cons.2 ⟨rfl, List.forall_mem_singleton.2 rfl⟩)⟩, forall_mem_ite (List.forall_mem_singleton.2 rfl)⟩

theorem drainOfTile_task {qr : Quire} {o : TileOp} {start : Nat} {dr : Drain} (h : drainOfTile qr o start = some dr) :
    dr.task = o.task := by
  unfold drainOfTile at h
  split at h
  · cases h; rfl
  · cases h

/-- Every access of a tile is its task's. -/
theorem tileAccesses_task {o : TileOp} {dr : Option Drain} (h : ∀ d, dr = some d → d.task = o.task) :
    ∀ a ∈ tileAccesses o dr, a.task = o.task := by
  simp only [tileAccesses, List.forall_mem_append]
  refine ⟨⟨chunkAccesses_task o 0 0 _, forall_mem_ite (List.forall_mem_singleton.2 rfl)⟩, ?_⟩
  match dr with
  | none => exact List.forall_mem_nil _
  | some d =>
    have hd : d.task = o.task := h d rfl
    simp only [firstStash, List.forall_mem_append]
    exact ⟨⟨forall_mem_ite (List.forall_mem_singleton.2 hd), forall_mem_ite (List.forall_mem_singleton.2 hd)⟩,
      forall_mem_ite (List.forall_mem_singleton.2 hd)⟩

/-- So is every effect. -/
theorem tileEvents_task (o : TileOp) (dr : Option Drain) : ∀ e ∈ tileEvents o dr, e.task = o.task := by
  simp only [tileEvents, List.forall_mem_append]
  refine ⟨⟨List.forall_mem_singleton.2 rfl, forall_mem_ite (List.forall_mem_singleton.2 rfl)⟩, ?_⟩
  match dr with
  | none => exact List.forall_mem_nil _
  | some d =>
    rw [List.forall_mem_append]
    exact ⟨forall_mem_ite (List.forall_mem_singleton.2 rfl), forall_mem_ite (List.forall_mem_singleton.2 rfl)⟩

theorem flyTile_launches {s : State} {q : Fin 64} {o : TileOp} {dr : Option Drain} (hl : s.quires[q].seq.tasks[o.task].live = true)
    (h : ∀ d, dr = some d → d.task = o.task) :
    Launches s (flyTile q o dr s) q (runTile o dr s.quires[q]) (tileEvents o dr) (tileAccesses o dr) [] := by
  have h0 := (Launches.start s q).upd (f := runTile o dr) (v' := runTile o dr s.quires[q]) rfl rfl rfl rfl
  have h1 := (h0.place hl (tileAccesses_task h)).emitAll hl (tileEvents o dr) (tileEvents_task o dr)
  rw [List.append_nil] at h1
  exact h1

theorem tile_launches {s : State} {q : Fin 64} {o : TileOp} {dr : Option Drain} (hl : s.quires[q].seq.tasks[o.task].live = true)
    (h : ∀ d, dr = some d → d.task = o.task) (w : Word) (start : Nat) :
    let a := claimTok (flyTile q o dr s) q (tileSpan w o)
    Launches s (if o.d.ends then claimTok a q (drainSpan s o start) else a) q (runTile o dr s.quires[q]) (tileEvents o dr)
      (tileAccesses o dr) (if o.d.ends then [tileSpan w o, drainSpan s o start] else [tileSpan w o]) := by
  intro a
  have h1 := (flyTile_launches hl h).claim (tileSpan w o) hl
  by_cases he : o.d.ends = true
  · rw [if_pos he, if_pos he]
    exact h1.claim (drainSpan s o start) hl
  · rw [if_neg he, if_neg he]
    exact h1

/-- Settles O26: the checks lead to the tile's issue, whose launch is composed of its effects, accesses and claims. -/
theorem tileStarts : Obligations.TileStarts := by
  unfold Obligations.TileStarts
  intro s q t w td od rb cb k tk x next f d rt ct p c0 n last after start o dr span drain cs hi hr htd hod hu hv hp hrt hct hpr hret
    hder ht hrow hcol hpre hsp hdest hdr hb hrun hlast hfill hc1 hc2
  have hs : plannedStart k x d = start := by
    unfold plannedStart
    rw [planTimes_eq]
    dsimp only
    rw [cutTile_of_behind hrun]
  have hok : TileOk k t w x start td.1 od.1 d rt ct rb cb :=
    ⟨hrt, hct, hpr, tileIllegal_none hv hp hret hder ht, hrow, hcol, hpre, hsp, hdest, hdr, hb⟩
  have hbody := (tileBody_done (hr.noteEarly x) htd hod hu rfl hs hok hc1.noteDesc hc2.noteDesc).trans
    (tileRun_done (o := o) hrun hlast hfill w start x)
  exact hi.starts (reading_done hbody [fld w 6 5]) (tile_launches (o := o) hi.live (fun d hd => drainOfTile_task hd) w start) rfl

end Sys2Proof.Machine
end

section
/-! TILE_DRAIN, SCRUB and FIX_QUEUE_WRITEBACK (R79 R149 R150 R154 R155). -/

namespace Sys2Proof.Machine

/-! ## Canonical memories -/

/-- A canonical memory lists exactly the bytes that are not 0. -/
theorem mem_iff_readByte {m : Mem} (h : Mem.wf m = true) (c : Host.Cell) : c ∈ m ↔ c.2 ≠ 0 ∧ readByte m c.1 = c.2 := by
  obtain ⟨hp, hz⟩ := (Mem.wf_iff m).1 h
  clear h
  induction m with
  | nil => exact ⟨fun h => absurd h List.not_mem_nil, fun h => absurd h.2.symm h.1⟩
  | cons d m ih =>
    obtain ⟨hd, hp⟩ := List.pairwise_cons.1 hp
    have ih := ih hp fun e he => hz e (List.mem_cons_of_mem _ he)
    rw [List.mem_cons]
    by_cases hc : d.1 = c.1
    · have hn : c ∉ m := fun hm => absurd (hd c hm) (by omega)
      rw [readByte, if_pos hc]
      refine ⟨?_, fun h => .inl (Prod.ext hc.symm h.2.symm)⟩
      rintro (rfl | hm)
      · exact ⟨hz c List.mem_cons_self, rfl⟩
      · exact absurd hm hn
    · rw [readByte, if_neg hc, ← ih]
      exact ⟨fun h => h.resolve_left fun e => hc (by rw [e]), .inr⟩

/-- Canonical memories of the same bytes are equal. -/
theorem Mem.ext_of_wf {m n : Mem} (hm : Mem.wf m = true) (hn : Mem.wf n = true) (h : ∀ a, readByte m a = readByte n a) : m = n := by
  have hperm : m.Perm n := by
    have hd : ∀ {k : Mem}, Mem.wf k = true → k.Nodup := fun hk =>
      ((Mem.wf_iff _).1 hk).1.imp fun hlt e => absurd hlt (by rw [e]; exact lt_irrefl _)
    rw [List.perm_ext_iff_of_nodup (hd hm) (hd hn)]
    intro c
    rw [mem_iff_readByte hm, mem_iff_readByte hn, h]
  refine hperm.eq_of_pairwise (fun c d _ _ h1 h2 => absurd (h1.trans h2) (lt_irrefl _)) ((Mem.wf_iff m).1 hm).1 ((Mem.wf_iff n).1 hn).1

/-- Bytes written back as they were read change nothing. -/
theorem writeBytes_readBytes {m : Mem} (h : Mem.wf m = true) (a n : Nat) : writeBytes m a (readBytes m a n) = m := by
  refine Mem.ext_of_wf (writeBytes_wf h _ _) h fun b => ?_
  by_cases hb : b < a ∨ a + n ≤ b
  · exact readByte_writeBytes_ne m a _ b (by rwa [readBytes_length])
  · obtain ⟨i, rfl⟩ : ∃ i, b = a + i := ⟨b - a, by omega⟩
    have hi : i < (readBytes m a n).length := by rw [readBytes_length]; omega
    rw [readByte_writeBytes_at m a _ i hi]
    simp only [readBytes_eq h, List.getElem_map, List.getElem_range]

/-! ## FIX_QUEUE_WRITEBACK (R149 R155) -/

/-- The memory of a bank of a quire in canonical form is in canonical form. -/
theorem bankMem_wf {k : Quire} (h : k.canonical) (bank : Fin 4) : Mem.wf (bankMem k bank.val) = true := by
  obtain ⟨⟨hw, hm, hs, hg, -⟩, -⟩ := h
  match bank with
  | 0 => exact hw
  | 1 => exact hm
  | 2 => exact hs
  | 3 => exact hg

theorem setBankMem_self (k : Quire) (bank : Fin 4) : setBankMem k bank.val (bankMem k bank.val) = k := by
  match bank with
  | 0 | 1 | 2 | 3 => rfl

/-- A word whose one wrong bit is corrected is delivered as it should be (R148). -/
theorem patchWord_corrected {u : Upset} (hm : u.mem < 4) (h1 : u.bits = 1) {bs : List Byte} (hl : bs.length = codeBytes u.mem) :
    patchWord (u.word * codeBytes u.mem) u bs = bs := by
  have hsev : upsetSev u = 1 := by
    unfold upsetSev
    rw [if_neg (by omega)]
    by_cases h3 : u.mem = 3
    · rw [if_pos h3, if_pos h1]
    · rw [if_neg h3, if_pos h1]
  have hslice : slice bs (u.word * codeBytes u.mem - u.word * codeBytes u.mem) (codeBytes u.mem) = bs := by
    simp [slice, ← hl]
  have hdata : upsetData u bs = bs := by
    simp only [upsetData, hsev]
  unfold patchWord
  dsimp only
  rw [hslice, hdata]
  refine List.ext_getElem (by simp) fun i hi hb => ?_
  have hlt : i < codeBytes u.mem := hl ▸ hb
  simp only [List.getElem_map, List.getElem_zipIdx, Nat.zero_add, Nat.le_add_right, decide_true, Bool.true_and, Nat.add_lt_add_left hlt,
    if_true, Nat.add_sub_cancel_left, List.getElem?_eq_getElem hb, Option.getD_some]

theorem codeBytes_pos (mem : Nat) : 0 < codeBytes mem := by
  unfold codeBytes
  (repeat' split) <;> decide

/-- Words of a memory meet only where they are the same. -/
theorem words_meet {w a b : Nat} : a * w < b * w + w ∧ b * w < a * w + w ↔ a = b ∧ 0 < w := by
  constructor
  · rintro ⟨h1, h2⟩
    have hw : 0 < w := by
      by_contra h
      have : w = 0 := by omega
      subst this
      omega
    rw [← Nat.succ_mul] at h1 h2
    have h1 := Nat.lt_of_mul_lt_mul_right h1
    have h2 := Nat.lt_of_mul_lt_mul_right h2
    exact ⟨by omega, hw⟩
  · rintro ⟨rfl, h⟩
    omega

/-- The write-back of the only word in error, the oldest queued of its bank: its data as they should be, no error and no entry
left. -/
theorem fixWriteBack_corrected {k : Quire} {bank : Fin 4} {word : Nat} {pre post : List (Nat × Nat)} (hc : Mem.wf (bankMem k bank.val) = true)
    (hu : k.upsets = [{ mem := bank.val, word := word, bits := 1 }]) (hq : k.bank.fixQueue = pre ++ (bank.val, word) :: post)
    (hpre : ∀ p ∈ pre, sameBank p.1 bank.val = false) (hpost : (bank.val, word) ∉ post) :
    fixWriteBack k bank.val = { k with upsets := [], bank := { k.bank with fixQueue := pre ++ post } } := by
  have hself : sameBank bank.val bank.val = true := by simp [sameBank]
  have hfind : k.bank.fixQueue.find? (fun p => sameBank p.1 bank.val) = some (bank.val, word) := by
    rw [hq, List.find?_append, List.find?_eq_none.2 (fun p hp => by rw [hpre p hp]; decide), Option.none_or, 
      List.find?_cons_of_pos (p := fun p : Nat × Nat => sameBank p.1 bank.val) hself]
  have hpos := codeBytes_pos bank.val
  have hin : upsetsIn k bank.val (word * codeBytes bank.val) (codeBytes bank.val) = k.upsets := by
    rw [hu]
    simp [upsetsIn, hu, hpos]
  have hread : (protRead k bank.val (word * codeBytes bank.val) (codeBytes bank.val)).1
      = readBytes (bankMem k bank.val) (word * codeBytes bank.val) (codeBytes bank.val) := by
    have h4 : ¬ bank.val ≥ 4 := by omega
    simp only [protRead, hin, hu, h4, List.foldl_cons, List.foldl_nil, decide_false, Bool.false_and, Bool.false_eq_true, if_false]
    exact patchWord_corrected (u := { mem := bank.val, word := word, bits := 1 }) bank.isLt rfl (readBytes_length _ _ _)
  have hhit : ∀ p : Nat × Nat, (p.1 == bank.val && (decide (p.2 * codeBytes bank.val < word * codeBytes bank.val + codeBytes bank.val)
      && decide (word * codeBytes bank.val < p.2 * codeBytes bank.val + codeBytes bank.val))) = decide (p = (bank.val, word)) := by
    intro p
    rw [Bool.eq_iff_iff, Bool.and_eq_true, Bool.and_eq_true, beq_iff_eq, decide_eq_true_eq, decide_eq_true_eq, decide_eq_true_eq,
      words_meet]
    simp [Prod.ext_iff, hpos]
  have hkeep : ∀ l : List (Nat × Nat), (bank.val, word) ∉ l → l.filter (fun p => !decide (p = (bank.val, word))) = l := by
    intro l hl
    rw [List.filter_eq_self]
    intro p hp
    rw [decide_eq_false fun e : p = (bank.val, word) => hl (e ▸ hp)]
    rfl
  have hpre' : (bank.val, word) ∉ pre := fun h => by
    rw [hpre _ h] at hself
    cases hself
  have hfq : k.bank.fixQueue.filter (fun p => !decide (p = (bank.val, word))) = pre ++ post := by
    rw [hq, List.filter_append, hkeep pre hpre', List.filter_cons_of_neg (by simp), hkeep post hpost]
  have hups : k.upsets.filter (fun u => !(u.mem == bank.val && (decide (u.word * codeBytes bank.val <
      word * codeBytes bank.val + codeBytes bank.val) && decide (word * codeBytes bank.val < u.word * codeBytes bank.val + codeBytes bank.val))))
      = [] := by
    rw [hu, List.filter_cons_of_neg (by simp [hpos]), List.filter_nil]
  unfold fixWriteBack
  rw [hfind]
  simp only [writeBank, hread, writeBytes_readBytes hc, setBankMem_self, readBytes_length, hhit, hfq, hups]

theorem exec_fixQueueWriteback (s : State) (q : Fin 64) (bank : Fin 4) :
    exec (.fixQueueWriteback q bank) s = .next (fixQueueWriteback q bank (catchUp s)) := rfl

/-- The entry that a write-back into the state b removes, and the next lc in which its bank takes one. -/
theorem fixQueueWriteback_corrected {b : State} {q : Fin 64} {bank : Fin 4} {word : Nat} {pre post : List (Nat × Nat)}
    (hup : computeUp b = true) (hc : b.quires[q].canonical) (hu : b.quires[q].upsets = [{ mem := bank.val, word := word, bits := 1 }])
    (hq : b.quires[q].bank.fixQueue = pre ++ (bank.val, word) :: post) (hpre : ∀ p ∈ pre, sameBank p.1 bank.val = false)
    (hpost : (bank.val, word) ∉ post)
    (hfree : lcPass b.quires[q] = true → portIdle b.quires[q] bank (reachedLc (dieNow b) b.quires[q]) = true ∧
      (b.quires[q].seq.inRun = true → b.quires[q].bank.fixNext[bankPort bank] ≤ reachedLc (dieNow b) b.quires[q])) :
    fixQueueWriteback q bank b = updQ b q (fun k => { k with upsets := [], bank := { k.bank with
      fixQueue := pre ++ post
      fixNext := if lcPass k then
        k.bank.fixNext.set (bankPort bank) (if k.seq.inRun then reachedLc (dieNow b) b.quires[q] + 1 else 0)
        else k.bank.fixNext } }) := by
  have hwf := bankMem_wf hc bank
  unfold fixQueueWriteback
  rw [hup]
  dsimp only
  generalize reachedLc (dieNow b) b.quires[q] = l at hfree ⊢
  generalize hk : b.quires[q] = k at hwf hu hq hfree ⊢
  by_cases hp : lcPass k = true
  · obtain ⟨hi, hn⟩ := hfree hp
    have hb : ¬ (!portIdle k bank l || (k.seq.inRun && decide (l < k.bank.fixNext[bankPort bank]))) = true := by
      rw [hi]
      simp only [Bool.not_true, Bool.false_or, Bool.and_eq_true, decide_eq_true_eq, not_and, not_lt]
      exact hn
    rw [if_neg (by decide), if_neg (by rw [hp]; decide), if_neg hb]
    refine updQ_congr ?_
    rw [hk, if_pos hp]
    exact fixWriteBack_corrected (k := { k with bank := { k.bank with
      fixNext := k.bank.fixNext.set (bankPort bank) (if k.seq.inRun then l + 1 else 0) } }) hwf hu hq hpre hpost
  · rw [if_neg (by decide), if_pos (by simpa using hp)]
    refine updQ_congr ?_
    rw [hk, if_neg hp]
    exact fixWriteBack_corrected hwf hu hq hpre hpost

/-! ## SCRUB (R150 R154) -/

/-- A read of a memory that has no error finds none. -/
theorem protRead_clean {k : Quire} (h : k.upsets = []) (mem a n : Nat) : (protRead k mem a n).2 = [] := by
  simp [protRead, upsetsIn, h]

theorem scrubRow_clean {k : Quire} (h : k.upsets = []) (moment : Bool) (r : Nat) : scrubRow k moment r = [] := by
  unfold scrubRow
  (repeat' split) <;> exact protRead_clean h _ _ _

theorem updQ_id (s : State) (q : Fin 64) {f : Quire → Quire} (h : f s.quires[q] = s.quires[q]) : updQ s q f = s := by
  have hq : s.quires.set q s.quires[q] = s.quires := Vector.set_getElem_self _
  rw [updQ, h, hq]

/-- A tick of the scrub engine of a quire without errors. -/
theorem scrubTick_clean {b : State} {q : Fin 64} (h : b.quires[q].upsets = []) (wIdle mIdle : Nat) :
    let k := b.quires[q]
    let st := k.bank.scrubStatus
    let due := if bit k.bank.scrubActive 0 && !k.bank.scrubbed then fld k.bank.scrubActive 8 8 else 0
    let n := min due (32 * idleLc b wIdle (k.bank.usedW + lcUsed 0 k.ports) / 16)
    let m := min due (4 * idleLc b mIdle (k.bank.usedM + lcUsed 1 k.ports) / 16)
    scrubTick q wIdle mIdle b = updQ b q (fun k => { k with bank := { k.bank with
      scrubbed := true, scrubStatus := scrubAdvance st n m
      scrubDefer := k.bank.scrubDefer + BitVec.ofNat 64 ((due - n) + (due - m)) } }) := by
  intro k st due n m
  unfold scrubTick
  dsimp only
  have hnil : ∀ (moment : Bool) (f : Nat → Nat) (l : List Nat), l.flatMap (fun i => scrubRow b.quires[q] moment (f i)) = [] := by
    intro moment f l
    rw [List.flatMap_eq_nil_iff]
    exact fun i _ => scrubRow_clean h moment _
  rw [hnil, hnil]
  rfl

theorem scrubAdvance_eq (st : Word) (n m : Nat) :
    scrubAdvance st n m = packFlds [(0, 16, (fld st 0 16 + n) % 32768), (16, 16, (fld st 16 16 + m) % 33792),
      (32, 16, fld st 32 16 + (fld st 0 16 + n) / 32768)] := rfl

theorem exec_scrub (s : State) (q : Fin 64) (wIdle mIdle : Nat) :
    exec (.scrub q wIdle mIdle []) s = .next (scrub q wIdle mIdle [] (catchUp s)) := rfl

theorem scrub_noUpset {b : State} (h : computeUp b = true) (q : Fin 64) (wIdle mIdle : Nat) :
    scrub q wIdle mIdle [] b = scrubTick q wIdle mIdle b := by
  have hid : updQ b q (fun qr => { qr with upsets := qr.upsets ++ [] }) = b := updQ_id b q (by rw [List.append_nil])
  unfold scrub
  rw [hid, h]
  rfl

/-! ## TILE_DRAIN (R79) -/

/-- The array whose oldest finished set drains. -/
def beginDrain (dr : Drain) (rest : List Drain) (k : Quire) : Quire :=
  { k with array := { k.array with drains := rest, draining := k.array.draining ++ [dr] } }

/-- The first row of a drain on its way, and with a stash its first row. -/
def drainFirst (q : Fin 64) (dr : Drain) (s : State) : State :=
  later (placePorts s q (drainAccesses dr 0 dr.start)) q dr.task dr.start 0 (.drainRow dr.x 0)
def drainStash (q : Fin 64) (dr : Drain) (s : State) : State :=
  later (placePorts s q [stashAccess dr 0 (dr.start + 2)]) q dr.task (dr.start + 2) 0 (.drainStash dr.x 0)

theorem startDrain_updQ {s : State} {q : Fin 64} {dr : Drain} {rest : List Drain} (h : s.quires[q].array.drains = dr :: rest) :
    updQ s q startDrain = if dr.d.deriv = 1 ∨ dr.d.deriv = 2 then drainStash q dr (drainFirst q dr (updQ s q (beginDrain dr rest)))
      else drainFirst q dr (updQ s q (beginDrain dr rest)) := by
  simp only [drainStash, drainFirst, later, placePorts, updQ_updQ]
  split <;> rename_i hs
  · refine updQ_congr ?_
    simp only [startDrain, h, Bool.or_eq_true, decide_eq_true_eq, if_pos hs]
    rfl
  · refine updQ_congr ?_
    simp only [startDrain, h, Bool.or_eq_true, decide_eq_true_eq, if_neg hs]
    rfl

theorem drainAccesses_task (dr : Drain) (i l : Nat) : ∀ a ∈ drainAccesses dr i l, a.task = dr.task := by
  unfold drainAccesses
  rw [List.forall_mem_append]
  refine ⟨?_, forall_mem_ite (List.forall_mem_singleton.2 rfl)⟩
  split
  · exact List.forall_mem_singleton.2 rfl
  · exact forall_mem_ite (List.forall_mem_singleton.2 rfl)

/-- A drain that begins puts its first row in flight, and with a stash that one's first row. -/
theorem startDrain_launches {s : State} {q : Fin 64} {dr : Drain} {rest : List Drain} (h : s.quires[q].array.drains = dr :: rest)
    (hl : s.quires[q].seq.tasks[dr.task].live = true) :
    Launches s (updQ s q startDrain) q (beginDrain dr rest s.quires[q])
      ({ lc := dr.start, ph := 0, task := dr.task, op := .drainRow dr.x 0 } ::
        if dr.d.deriv = 1 ∨ dr.d.deriv = 2 then [{ lc := dr.start + 2, ph := 0, task := dr.task, op := .drainStash dr.x 0 }] else [])
      (drainAccesses dr 0 dr.start ++
        if dr.d.deriv = 1 ∨ dr.d.deriv = 2 then [stashAccess dr 0 (dr.start + 2)] else []) [] := by
  have h0 := (Launches.start s q).upd (f := beginDrain dr rest) (v' := beginDrain dr rest s.quires[q]) rfl rfl rfl rfl
  have h1 := (h0.place hl (drainAccesses_task dr 0 dr.start)).later hl dr.start 0 (.drainRow dr.x 0)
  rw [startDrain_updQ h]
  by_cases hs : dr.d.deriv = 1 ∨ dr.d.deriv = 2
  · rw [if_pos hs, if_pos hs, if_pos hs]
    have h2 := (h1.place hl (l := [stashAccess dr 0 (dr.start + 2)]) (List.forall_mem_singleton.2 rfl)).later hl (dr.start + 2) 0
      (.drainStash dr.x 0)
    exact h2.congr rfl (List.Perm.swap _ _ []) fun _ => Iff.rfl
  · rw [if_neg hs, if_neg hs, if_neg hs, List.append_nil]
    exact h1

theorem tileDrain_due {s : State} {q : Fin 64} {dr : Drain} {rest : List Drain} (hc : computeUp s = true)
    (hr : s.quires[q].seq.inRun = true) (hp : lcPass s.quires[q] = true) (hd : s.quires[q].array.drains = dr :: rest)
    (hs : dr.start ≤ max s.quires[q].seq.lc s.quires[q].seq.winEnd) : tileDrain q s = updQ s q startDrain := by
  unfold tileDrain
  dsimp only
  rw [hc, hr, hp, hd]
  exact if_pos (by simpa using hs)

/-- Settles O30: a due drain launches; a scrub without errors advances; a corrected word is written back. -/
theorem drainAndScrub : Obligations.DrainAndScrub := by
  unfold Obligations.DrainAndScrub
  refine ⟨fun s q dr rest => ?_, fun s q wIdle mIdle => ?_, fun s q bank word pre post => ?_⟩
  · intro k stash hc hr hp hd hs hl
    exact ⟨_, congrArg Host.Outcome.next (tileDrain_due hc hr hp hd hs), startDrain_launches hd hl⟩
  · intro b k st due idle n m hc hu
    rw [exec_scrub, scrub_noUpset hc, scrubTick_clean hu]
    have hdue : (if bit k.bank.scrubActive 0 && !k.bank.scrubbed then fld k.bank.scrubActive 8 8 else 0) = due := by
      simp only [due, Bool.and_eq_true, Bool.not_eq_true']
    have hn : min due (32 * idleLc b wIdle (k.bank.usedW + lcUsed 0 k.ports) / 16) = n := by
      simp only [n, idle, idleLc]
      omega
    have hm : min due (4 * idleLc b mIdle (k.bank.usedM + lcUsed 1 k.ports) / 16) = m := by
      simp only [m, idle, idleLc]
      omega
    rw [hdue, hn, hm, scrubAdvance_eq]
  · intro b k hc hk hu hq hpre hpost l i hfree
    rw [exec_fixQueueWriteback]
    change Host.Outcome.next (fixQueueWriteback q bank b) = _
    clear_value b
    exact congrArg Host.Outcome.next (fixQueueWriteback_corrected hc hk hu hq hpre hpost hfree)

end Sys2Proof.Machine
end

section
/-! A landing of a far memory whose list is not in canonical form (R176; log entry 6). -/

namespace Sys2Proof.Machine

/-- A read of the first 512 B of far memory, issued and not landed. -/
def firstRead : Landing :=
  { task := 0, entry := 0, desc := [], pcIndex := 0, issued := true, x := 0, landed := false, data := [], ready := 0, fetched := []
    released := true, target := 0, firstRow := 0, pace := 1, len := 1, far := 0, port := 0, faddr := 0, storeBytes := 512 }

/-- The module after reset with that read pending, far memory listed out of order: address 1 before address 0. -/
def misordered : State :=
  updQ { State.reset with far := [(1, 1), (0, 1)] } 0 (fun k => { k with stream := { k.stream with landings := [firstRead] } })

theorem misordered_quires (q : Fin 64) :
    misordered.quires[q].flight = [] ∧ misordered.quires[q].array.drains = [] ∧ misordered.quires[q].stream.writes = [] := by
  have h : State.reset.quires[q].flight = [] ∧ State.reset.quires[q].array.drains = [] ∧ State.reset.quires[q].stream.writes = [] := by
    rw [reset_quires]
    exact ⟨rfl, rfl, rfl⟩
  rw [misordered, updQ_quires]
  split <;> exact h

theorem misordered_catchUp : catchUp misordered = misordered :=
  catchUp_still fun q => ⟨(misordered_quires q).1, (misordered_quires q).2.1⟩

theorem misordered_landings : misordered.quires[(0 : Fin 64)].stream.landings = [firstRead] := by
  rw [misordered, updQ_quires_self]

/-- A read that nothing blocks and no write on its way meets brings the bytes that stand there. -/
theorem landingComplete_settled {s : State} {q : Fin 64} {ix : Nat} {l : Landing} (hc : computeUp s = true)
    (hl : s.quires[q].stream.landings[ix]? = some l) (hn : l.landed = false) (hb : landingBlocked s q l = false) (hf : l.far = 0)
    (hfetch : l.fetched = []) (hw : beatsOnTheWay s l.faddr (512 * l.len) = []) :
    landingComplete q ix s = updQ s q (fun qr => setLandings qr (s.quires[q].stream.landings.set ix
      { l with landed := true, data := readBytes s.far l.faddr (512 * l.len), fetched := [], ready := readyFrom qr })) := by
  have hr : landingBytes s l = (readBytes s.far l.faddr (512 * l.len), s) := by
    rw [landingBytes, if_pos hf, hfetch, farRead_settled hw]
  simp only [landingComplete, hl, hc, hn, hb, hr, Bool.not_true, Bool.or_self, Bool.false_eq_true, if_false]

theorem misordered_computeUp : computeUp misordered = true := by decide
theorem misordered_open : landingBlocked misordered 0 firstRead = false := by decide +kernel

theorem misordered_noWrite : beatsOnTheWay misordered firstRead.faddr (512 * firstRead.len) = [] := by
  have h : allQuires.flatMap (fun q => misordered.quires[q].stream.writes) = [] :=
    List.flatMap_eq_nil_iff.2 fun q _ => (misordered_quires q).2.2
  rw [beatsOnTheWay, h]
  rfl

theorem misordered_landing : misordered.quires[(0 : Fin 64)].stream.landings[0]? = some firstRead := by
  rw [misordered_landings]
  rfl

/-- Refutes O31: where far memory lists address 1 before address 0, a run of bytes from address 0 on misses the byte that stands at
address 0, which the landing of that run should bring. -/
theorem not_readsAndWrites : ¬ Obligations.ReadsAndWrites := by
  unfold Obligations.ReadsAndWrites
  intro h
  obtain ⟨-, hland, -⟩ := h misordered 0
  rw [misordered_catchUp] at hland
  obtain ⟨data, n, he, -, hd⟩ := hland 0 firstRead misordered_computeUp misordered_landing rfl misordered_open
  have hex : exec (.landingComplete 0 0) misordered = .next (landingComplete 0 0 (catchUp misordered)) := rfl
  rw [hex, misordered_catchUp, landingComplete_settled misordered_computeUp misordered_landing rfl misordered_open rfl rfl
    misordered_noWrite] at he
  have hdata : data = readBytes misordered.far 0 512 := by
    have hs := congrArg (fun u : State => u.quires[(0 : Fin 64)].stream.landings) (Host.Outcome.next.inj he)
    dsimp only at hs
    rw [updQ_quires_self, updQ_quires_self, misordered_landings] at hs
    exact (congrArg Landing.data (List.head_eq_of_cons_eq hs)).symm
  obtain ⟨-, hbyte⟩ := hd rfl
  have h0 : data[0]? = some 0 := by
    rw [hdata]
    rfl
  obtain ⟨f, hf, -⟩ | ⟨-, hread | ⟨c, o, ho, -⟩⟩ := hbyte 0 (by decide)
  · cases hf
  · rw [h0] at hread
    exact absurd hread (by decide)
  · rw [(misordered_quires c).2.2] at ho
    cases ho

end Sys2Proof.Machine
end

section
/-! The ends of halts: WAIT_TIMEOUT, THROTTLE_RESUME and GATHERING_RESUME (R120 R320 R327 R407). -/

namespace Sys2Proof.Machine

/-! ## WAIT_TIMEOUT (R320) -/

theorem bookStand_con (s : State) (q : Fin 64) : (bookStand s q).con = s.con := (congrArg State.con (bookStand_rest s q) :)

theorem stopTask_con (s : State) (q : Fin 64) (t : Fin 4) (how : Nat) : (stopTask s q t how).con = s.con := by
  unfold stopTask
  split
  · rfl
  · dsimp only
    rw [traceQ_con]
    split
    · exact bookStand_con s q
    · rfl

theorem raiseFault_con (s : State) (q : Fin 64) (t : Fin 4) (cls : Nat) : (raiseFault s q t cls).con = s.con := by
  have h : (stopQuire (traceQ s q t 5) q 3).con = s.con := by
    rw [stopQuire_eq, stopTask_con, stopTask_con, stopTask_con, stopTask_con, traceQ_con]
  unfold raiseFault
  dsimp only
  generalize stopQuire (traceQ s q t 5) q 3 = m at h ⊢
  exact h

/-- The state with the first wait over its limit recorded (R334). -/
def waitRecorded (q : Fin 64) (t : Fin 4) (s : State) : State :=
  if bit s.con.waitFault 11 then s else { s with con := { s.con with
    waitFault := packFlds [(0, 6, q.val), (6, 2, t.val), (8, 3, (s.quires[q].seq.tasks[t].heldKind).code), (11, 1, 1)] } }

theorem waitRecorded_fields (q : Fin 64) (t : Fin 4) (s : State) :
    (waitRecorded q t s).quires = s.quires ∧ (waitRecorded q t s).bind = s.bind ∧ (waitRecorded q t s).clk = s.clk := by
  unfold waitRecorded
  split <;> exact ⟨rfl, rfl, rfl⟩

theorem waitTimeout_due {s : State} {q : Fin 64} {t : Fin 4} (hc : computeUp s = true) (hu : stillUnmet s q t = true)
    (hl : s.quires[q].seq.tasks[t].heldSince + max 16 (fld s.con.waitLimit 0 32) < tick s) :
    waitTimeout q t s = raiseFault (waitRecorded q t s) q t 8 := by
  have h : ¬ (!computeUp s || !stillUnmet s q t ||
      decide (tick s ≤ s.quires[q].seq.tasks[t].heldSince + max 16 (fld s.con.waitLimit 0 32))) = true := by
    rw [hc, hu]
    simpa using hl
  unfold waitTimeout
  exact if_neg h

/-! ## THROTTLE_RESUME (R327 R407) -/

/-- The periods of a halt booked to a cause on a quire in a run. -/
theorem bookRun_eq (k : Quire) {cause : Nat} (h : cause < 8) (n : Nat) :
    bookRun k cause n = { k with idleCause := Vector.ofFn (fun i : Fin 8 =>
      if i.val = cause ∧ k.seq.inRun = true then k.idleCause[i] + BitVec.ofNat 64 n else k.idleCause[i]) } := by
  have hv : ∀ v : Vector Word 8, (∀ i : Fin 8, v[i] =
      if i.val = cause ∧ k.seq.inRun = true then k.idleCause[i] + BitVec.ofNat 64 n else k.idleCause[i]) →
      ({ k with idleCause := v } : Quire) = { k with idleCause := Vector.ofFn (fun i : Fin 8 =>
        if i.val = cause ∧ k.seq.inRun = true then k.idleCause[i] + BitVec.ofNat 64 n else k.idleCause[i]) } := by
    intro v hv
    have : v = Vector.ofFn (fun i : Fin 8 =>
        if i.val = cause ∧ k.seq.inRun = true then k.idleCause[i] + BitVec.ofNat 64 n else k.idleCause[i]) := by
      refine Vector.ext fun i hi => ?_
      rw [Vector.getElem_ofFn]
      exact hv ⟨i, hi⟩
    rw [this]
  unfold bookRun bookIdle
  by_cases hr : k.seq.inRun = true
  · rw [if_pos hr]
    refine hv _ fun i => ?_
    simp only [Fin.getElem_fin, Vector.getElem_set, hr, and_true, Nat.mod_eq_of_lt h, eq_comm (a := cause)]
    split
    · next e => subst e; rfl
    · rfl
  · rw [if_neg hr]
    refine hv k.idleCause fun i => ?_
    rw [if_neg fun e => hr e.2]

theorem foldl_updQ_rest (f : Fin 64 → Quire → Quire) (l : List (Fin 64)) :
    ∀ s : State, { l.foldl (fun s b => updQ s b (f b)) s with quires := s.quires } = s := by
  induction l with
  | nil => exact fun s => rfl
  | cons a l ih => exact fun s => (congrArg (fun u : State => { u with quires := s.quires }) (ih (updQ s a (f a))) :)

/-- A quire of a gathering whose overdraw is over. -/
def leaveThrottle (periods : Nat) (k : Quire) : Quire :=
  { bookRun k 4 periods with
    rstop := { (bookRun k 4 periods).rstop with stalled := false }, edgeOff := (bookRun k 4 periods).edgeOff + periods }

theorem throttleResume_only {s : State} {q : Fin 64} {due : Nat} (h : s.con.throttled = [(q.val, due)]) (hd : due ≤ tick s)
    (periods : Nat) :
    throttleResume q periods s = (gatheringQuires s q).foldl (fun s b => updQ s b (leaveThrottle periods))
      { s with con := { s.con with throttled := [] } } := by
  have hf : s.con.throttled.find? (fun p => p.1 == q.val && decide (p.2 ≤ tick s)) = some (q.val, due) := by
    rw [h, List.find?_cons_of_pos]
    simpa using hd
  have hr : s.con.throttled.filter (fun p => p != (q.val, due)) = [] := by
    rw [h, List.filter_cons_of_neg (by simp), List.filter_nil]
  unfold throttleResume
  rw [hf]
  dsimp only
  rw [hr]
  simp only [List.any_nil, List.any_eq_false.2 fun _ _ => Bool.false_ne_true]
  rfl

/-! ## GATHERING_RESUME (R120) -/

/-- The idle cause of the halted periods of a quire. -/
def haltCause (k : Quire) : Nat := if (heldAt k).isSome then k.seq.tasks[0].heldCause else 6

/-- A quire of a resuming gathering whose periods all have one cause. -/
def resumeQuire (periods : Nat) (k : Quire) : Quire := leaveHalt periods (bookRun k (haltCause k) periods)

/-- The resumption of one quire of a gathering. -/
def resumeStep (periods : Nat) (s : State) (b : Fin 64) : State :=
  if s.quires[b].rstop.halted then updQ (bookHalt periods s b) b (leaveHalt periods) else s

theorem resumeStep_eq {s : State} {b : Fin 64} (hh : s.quires[b].rstop.halted = true) (hc : haltCause s.quires[b] ≠ 5) (periods : Nat) :
    resumeStep periods s b = updQ s b (resumeQuire periods) := by
  have hb : bookHalt periods s b = updQ s b (fun k => bookRun k (haltCause s.quires[b]) periods) := by
    unfold bookHalt
    exact if_neg hc
  rw [resumeStep, if_pos hh, hb, updQ_updQ]
  rfl

/-- The quires of a gathering resume each by itself. -/
theorem foldl_resumeStep (periods : Nat) (l : List (Fin 64)) (hl : l.Nodup) :
    ∀ s : State, (∀ c ∈ l, s.quires[c].rstop.halted = true ∧ haltCause s.quires[c] ≠ 5) →
      l.foldl (resumeStep periods) s = l.foldl (fun s b => updQ s b (resumeQuire periods)) s := by
  induction l with
  | nil => exact fun s _ => rfl
  | cons a l ih =>
    intro s h
    obtain ⟨ha, hl⟩ := List.nodup_cons.1 hl
    obtain ⟨h1, h2⟩ := h a List.mem_cons_self
    rw [List.foldl_cons, List.foldl_cons, resumeStep_eq h1 h2]
    refine ih hl _ fun c hc => ?_
    rw [updQ_quires_ne s _ (fun e : c = a => ha (e ▸ hc))]
    exact h c (List.mem_cons_of_mem _ hc)

theorem heldAt_some {k : Quire} {w : Word} (h : heldAt k = some w) :
    k.seq.tasks[(0 : Fin 4)].state = .held ∧ k.rstop.splice = none ∧ k.seq.tasks[(0 : Fin 4)].heldWord = some w := by
  unfold heldAt at h
  split at h
  · next hs =>
    rw [Bool.and_eq_true, decide_eq_true_eq, Option.isNone_iff_eq_none] at hs
    exact ⟨hs.1, hs.2, h⟩
  · cases h

theorem heldAt_of {k : Quire} {w : Word} (hs : k.seq.tasks[(0 : Fin 4)].state = .held) (hp : k.rstop.splice = none)
    (hw : k.seq.tasks[(0 : Fin 4)].heldWord = some w) : heldAt k = some w := by
  unfold heldAt
  rw [if_pos, ← hw]
  · rfl
  · rw [Bool.and_eq_true, decide_eq_true_eq, hp]
    exact ⟨hs, rfl⟩

theorem heldBody_waitw {w : Word} (h : fld w 0 6 = 0x2F) (q : Fin 64) (t : Fin 4) : heldBody q t w = waitwBody q t w := by
  unfold heldBody
  rw [h]
  rfl

/-- A WAITW of task 0 that stands halted is met once no write of the task is incomplete. -/
theorem waitwBody_held {s : State} {q : Fin 64} (hs : s.quires[q].seq.tasks[(0 : Fin 4)].state = .held)
    (hw : ∀ o ∈ s.quires[q].stream.writes, o.task ≠ 0) (w : Word) (x : Nat) : waitwBody q 0 w s x = .done s := by
  have h1 : s.quires[q].stream.writes.any (fun o => o.task == 0) = false := by
    rw [List.any_eq_false]
    intro o ho
    simpa using hw o ho
  have h2 : lateWrites s.quires[q] 0 x = [] := by
    rw [lateWrites, List.filter_eq_nil_iff]
    intro d _
    have hin : inTime s.quires[q] 0 x d.ready = true := by
      unfold inTime
      rw [hs]
      simp
    rw [hin]
    simp
  unfold waitwBody
  dsimp only
  rw [h1, h2]
  rfl

/-- A quire that holds no wait, or one that is met, keeps no gathering halted. -/
theorem waitMet_waitw {s : State} {q : Fin 64} {w : Word} (hh : heldAt s.quires[q] = some w) (hop : fld w 0 6 = 0x2F)
    (hw : ∀ o ∈ s.quires[q].stream.writes, o.task ≠ 0) : waitMet s q = true := by
  unfold waitMet
  rw [hh]
  dsimp only
  rw [heldBody_waitw hop, waitwBody_held (heldAt_some hh).1 hw]

theorem waitMet_none {s : State} {q : Fin 64} (hh : heldAt s.quires[q] = none) : waitMet s q = true := by
  unfold waitMet
  rw [hh]

theorem filter_singleton {α : Type} [DecidableEq α] {l : List α} (hl : l.Nodup) {o : α} (ho : o ∈ l) {p : α → Bool}
    (hp : ∀ c ∈ l, p c = true ↔ c = o) : l.filter p = [o] := by
  have h : l.filter p = l.filter (· == o) := List.filter_congr fun c hc => by
    rw [Bool.eq_iff_iff, hp c hc, beq_iff_eq]
  rw [h, List.filter_beq, List.count_eq_one_of_mem hl ho]
  rfl

/-- A gathering halted by the one WAITW of quire o, which is met, resumes, and the wait issues. -/
theorem gatheringResume_waitw {s : State} {q o : Fin 64} {w : Word} (hc : computeUp s = true)
    (ho : sameGathering s.spine.layout q o = true)
    (hg : ∀ c : Fin 64, sameGathering s.spine.layout q c = true →
      s.quires[c].rstop.halted = true ∧ s.quires[c].rstop.stalled = false ∧ (c ≠ o → heldAt s.quires[c] = none))
    (hh : heldAt s.quires[o] = some w) (hop : fld w 0 6 = 0x2F) (h5 : s.quires[o].seq.tasks[(0 : Fin 4)].heldCause ≠ 5)
    (hw : ∀ x ∈ s.quires[o].stream.writes, x.task ≠ 0) (periods : Nat) :
    gatheringResume q periods s =
      issueHeld ((gatheringQuires s q).foldl (fun s b => updQ s b (resumeQuire periods)) s) o := by
  have hog : o ∈ gatheringQuires s q := mem_gatheringQuires.2 ho
  have hany : (gatheringQuires s q).any (fun b => s.quires[b].rstop.halted && !s.quires[b].rstop.stalled) = true := by
    obtain ⟨h1, h2, -⟩ := hg o ho
    refine List.any_eq_true.2 ⟨o, hog, ?_⟩
    rw [h1, h2]
    rfl
  have hstall : (gatheringQuires s q).any (fun b => s.quires[b].rstop.stalled) = false := by
    refine List.any_eq_false.2 fun c hc => ?_
    rw [(hg c (mem_gatheringQuires.1 hc)).2.1]
    decide
  have hmet : (gatheringQuires s q).all (waitMet s) = true := by
    refine List.all_eq_true.2 fun c hc => ?_
    by_cases h : c = o
    · rw [h]
      exact waitMet_waitw hh hop hw
    · exact waitMet_none ((hg c (mem_gatheringQuires.1 hc)).2.2 h)
  have hown : (gatheringQuires s q).filter (fun b => (heldAt s.quires[b]).isSome) = [o] := by
    refine filter_singleton (gatheringQuires_nodup s q) hog fun c hc => ?_
    refine ⟨fun h => ?_, fun h => by rw [h, hh]; rfl⟩
    by_contra hne
    rw [(hg c (mem_gatheringQuires.1 hc)).2.2 hne] at h
    cases h
  have hcause : ∀ c ∈ gatheringQuires s q, s.quires[c].rstop.halted = true ∧ haltCause s.quires[c] ≠ 5 := by
    intro c hc
    obtain ⟨h1, -, h3⟩ := hg c (mem_gatheringQuires.1 hc)
    refine ⟨h1, ?_⟩
    by_cases h : c = o
    · rw [h, haltCause, hh]
      exact h5
    · rw [haltCause, h3 h]
      exact (by decide : 6 ≠ 5)
  have hfold := foldl_resumeStep periods _ (gatheringQuires_nodup s q) s hcause
  unfold gatheringResume
  dsimp only
  rw [hc, hany, hstall, hmet, hown, ← hfold]
  rfl

theorem applyRes_done (s a : State) (q : Fin 64) (t : Fin 4) (w : Word) :
    applyRes s q t w (.done a) = finish a q t (s.quires[q].seq.tasks[t].pc + 1) := rfl

theorem settled_task (lc : Nat) (tk : Task) :
    (settleLoads lc (settleRegs lc tk)).state = tk.state ∧ (settleLoads lc (settleRegs lc tk)).pc = tk.pc := ⟨rfl, rfl⟩

/-- The met WAITW of a resumed quire issues. -/
theorem issueHeld_waitw {a : State} {o : Fin 64} {w : Word} (hh : heldAt a.quires[o] = some w) (hop : fld w 0 6 = 0x2F)
    (hw : ∀ x ∈ a.quires[o].stream.writes, x.task ≠ 0) {lc : Nat} (hlc : a.quires[o].seq.lc = lc) :
    issueHeld a o = updQ (updT a o 0 (fun tk => settleLoads lc (settleRegs lc tk))) o
      (retire 0 (a.quires[o].seq.tasks[(0 : Fin 4)].pc + 1)) := by
  have hu : updQ a o (fun qr => updTask qr 0 (fun tk => settleLoads qr.seq.lc (settleRegs qr.seq.lc tk))) =
      updT a o 0 (fun tk => settleLoads lc (settleRegs lc tk)) := updQ_congr (by rw [hlc])
  have hb : ∀ b, updT a o 0 (fun tk => settleLoads lc (settleRegs lc tk)) = b →
      b.quires[o].seq.tasks[(0 : Fin 4)] = settleLoads lc (settleRegs lc a.quires[o].seq.tasks[(0 : Fin 4)])
        ∧ b.quires[o].stream.writes = a.quires[o].stream.writes := by
    rintro b rfl
    rw [updT_quires_self, updTask_task_self]
    exact ⟨rfl, rfl⟩
  unfold issueHeld
  rw [hh]
  dsimp only
  rw [hu, heldBody_waitw hop]
  generalize updT a o 0 (fun tk => settleLoads lc (settleRegs lc tk)) = b at hb
  obtain ⟨ht, hwr⟩ := hb b rfl
  obtain ⟨h1, h2⟩ := settled_task lc a.quires[o].seq.tasks[(0 : Fin 4)]
  rw [← ht] at h1 h2
  have hs := h1.trans (heldAt_some hh).1
  rw [waitwBody_held hs (by rw [hwr]; exact hw), applyRes_done, h2, finish_live ((Task.live_iff _).2 (.inr hs))]

theorem leaveThrottle_eq (periods : Nat) (k : Quire) :
    leaveThrottle periods k = { k with
      idleCause := Vector.ofFn (fun i : Fin 8 =>
        if i.val = 4 ∧ k.seq.inRun = true then k.idleCause[i] + BitVec.ofNat 64 periods else k.idleCause[i])
      edgeOff := k.edgeOff + periods, rstop := { k.rstop with stalled := false } } := by
  rw [leaveThrottle, bookRun_eq k (by decide)]

theorem resumeQuire_eq (periods : Nat) {k : Quire} (h : haltCause k < 8) :
    resumeQuire periods k = { k with
      idleCause := Vector.ofFn (fun i : Fin 8 =>
        if i.val = haltCause k ∧ k.seq.inRun = true then k.idleCause[i] + BitVec.ofNat 64 periods else k.idleCause[i])
      edgeOff := k.edgeOff + periods, rstop := { k.rstop with halted := false, waitOwner := false } } := by
  rw [resumeQuire, bookRun_eq k h, leaveHalt]

/-- Settles O32: the record and the fault of a timeout; each quire of a gathering resumed by itself, and the met wait issued. -/
theorem haltsEnd : Obligations.HaltsEnd := by
  unfold Obligations.HaltsEnd
  intro s q b booked
  have hex1 : ∀ t, exec (.waitTimeout q t) s = .next (waitTimeout q t b) := fun t => rfl
  have hex2 : ∀ periods, exec (.throttleResume q periods) s = .next (throttleResume q periods b) := fun periods => rfl
  have hex3 : ∀ periods, exec (.gatheringResume q periods) s = .next (gatheringResume q periods b) := fun periods => rfl
  clear_value b
  refine ⟨fun t hc hu hl => ?_, fun periods due ht hd => ?_, fun o w periods => ?_⟩
  · obtain ⟨hq, hbind, hclk⟩ := waitRecorded_fields q t b
    have hcon := raiseFault_con (waitRecorded q t b) q t 8
    obtain ⟨h1, h2, h3, h4, h5, c, hc1, -, -, hc4, -, -, -⟩ := raiseFault_faulted (waitRecorded q t b) q t 8
    refine ⟨_, (hex1 t).trans (congrArg _ (waitTimeout_due hc hu hl)), ?_⟩
    generalize raiseFault (waitRecorded q t b) q t 8 = u at hcon h1 h2 h3 h4 h5 hc4
    rw [hq] at h3 h4 hc1
    refine ⟨?_, h1, h2, h3, hc4.trans hc1.mem, h4, ?_⟩
    · rw [hcon, waitRecorded]
      split <;> rfl
    · rw [h5, hbind, show tick (waitRecorded q t b) = tick b from congrArg (fun c : Clk => c.stitch.toNat) hclk]
  · have hrest := foldl_updQ_rest (fun _ => leaveThrottle periods) (gatheringQuires b q) { b with con := { b.con with throttled := [] } }
    have hquires := fun c => foldl_updQ_quires (fun _ => leaveThrottle periods) c _ (gatheringQuires_nodup b q)
      { b with con := { b.con with throttled := [] } }
    refine ⟨_, (hex2 periods).trans (congrArg _ (throttleResume_only ht hd periods)), ?_⟩
    generalize (gatheringQuires b q).foldl (fun s b => updQ s b (leaveThrottle periods)) { b with con := { b.con with throttled := [] } } = u
      at hrest hquires
    refine ⟨fun c => ?_, ?_, (congrArg (fun v : State => v.con.throttled) hrest :)⟩
    · rw [hquires c, leaveThrottle_eq]
      simp only [mem_gatheringQuires]
      rfl
    · exact (congrArg (fun v : State => { v with quires := b.quires, con := { v.con with throttled := b.con.throttled } }) hrest :)
  · intro tk lc hc ho hg hh hop h8 h5 hw
    have hrest := foldl_updQ_rest (fun _ => resumeQuire periods) (gatheringQuires b q) b
    have hquires := fun c => foldl_updQ_quires (fun _ => resumeQuire periods) c _ (gatheringQuires_nodup b q) b
    have hex := (hex3 periods).trans (congrArg Host.Outcome.next (gatheringResume_waitw hc ho hg hh hop h5 hw periods))
    generalize (gatheringQuires b q).foldl (fun s b => updQ s b (resumeQuire periods)) b = a at hrest hquires hex
    have hcause : ∀ c, sameGathering b.spine.layout q c = true → haltCause b.quires[c] = if c = o then tk.heldCause else 6 := by
      intro c hcg
      by_cases h : c = o
      · rw [if_pos h, h, haltCause, hh]
        rfl
      · rw [if_neg h, haltCause, (hg c hcg).2.2 h]
        rfl
    have hres : ∀ c, sameGathering b.spine.layout q c = true → a.quires[c] = resumeQuire periods b.quires[c] := fun c hcg =>
      (hquires c).trans (if_pos (mem_gatheringQuires.2 hcg))
    have hao : a.quires[o].seq = b.quires[o].seq ∧ a.quires[o].rstop.splice = b.quires[o].rstop.splice
        ∧ a.quires[o].stream = b.quires[o].stream := by
      rw [hres o ho, resumeQuire_eq periods (by rw [hcause o ho, if_pos rfl]; exact h8)]
      exact ⟨rfl, rfl, rfl⟩
    obtain ⟨e1, e2, e3⟩ := hao
    obtain ⟨g1, g2, g3⟩ := heldAt_some hh
    have hiss := issueHeld_waitw (a := a) (o := o) (w := w) (lc := lc) (heldAt_of (by rw [e1]; exact g1) (e2.trans g2) (by rw [e1]; exact g3))
      hop (by rw [e3]; exact hw) (congrArg SeqUnit.lc e1)
    rw [e1] at hiss
    refine ⟨a, _, hex.trans (congrArg _ hiss), fun c => ?_, hrest, retired_retire _ _ _ _⟩
    by_cases hcg : sameGathering b.spine.layout q c = true
    · rw [if_pos hcg, hres c hcg, resumeQuire_eq periods (by rw [hcause c hcg]; split; exact h8; decide), hcause c hcg]
    · rw [if_neg hcg, hquires c, if_neg fun h => hcg (mem_gatheringQuires.1 h)]

end Sys2Proof.Machine
end

section
/-! PROOFS. Links and ports: one rule per operation on them, and the link faults they raise. -/

namespace Sys2Proof.Machine

/-! ## Updates of a link and of a port -/

@[simp] theorem updLink_updLink (s : State) (l : Fin 26) (f g : Link → Link) :
    updLink (updLink s l f) l g = updLink s l (fun k => g (f k)) := by
  simp only [updLink, Fin.getElem_fin, Vector.getElem_set_self, Vector.set_set]

@[simp] theorem updPort_updPort (s : State) (p : Fin 26) (f g : Port → Port) :
    updPort (updPort s p f) p g = updPort s p (fun k => g (f k)) := by
  simp only [updPort, Fin.getElem_fin, Vector.getElem_set_self, Vector.set_set]

/-- Links and ports are apart: an update of a link moves in front of one of a port. -/
theorem updLink_updPort (s : State) (l p : Fin 26) (f : Port → Port) (g : Link → Link) :
    updLink (updPort s p f) l g = updPort (updLink s l g) p f := rfl

theorem updLink_congr {s : State} {l : Fin 26} {f g : Link → Link} (h : f s.links[l] = g s.links[l]) :
    updLink s l f = updLink s l g := by
  rw [updLink, updLink, h]

theorem updPort_congr {s : State} {p : Fin 26} {f g : Port → Port} (h : f s.ports[p] = g s.ports[p]) :
    updPort s p f = updPort s p g := by
  rw [updPort, updPort, h]

theorem updLink_id (s : State) (l : Fin 26) {f : Link → Link} (h : f s.links[l] = s.links[l]) : updLink s l f = s := by
  have hl : s.links.set l s.links[l] = s.links := Vector.set_getElem_self _
  rw [updLink, h, hl]

theorem updPort_ports (s : State) (p : Fin 26) (f : Port → Port) (x : Fin 26) :
    (updPort s p f).ports[x] = if x = p then f s.ports[p] else s.ports[x] := by
  split
  next h => rw [h, updPort_ports_self]
  next h => exact updPort_ports_ne s f h

@[simp] theorem tick_updLink (s : State) (l : Fin 26) (f : Link → Link) : tick (updLink s l f) = tick s := rfl
@[simp] theorem tick_updPort (s : State) (p : Fin 26) (f : Port → Port) : tick (updPort s p f) = tick s := rfl

@[simp] theorem computeRuns_updLink (s : State) (l : Fin 26) (f : Link → Link) : computeRuns (updLink s l f) = computeRuns s := rfl
@[simp] theorem computeRuns_updPort (s : State) (p : Fin 26) (f : Port → Port) : computeRuns (updPort s p f) = computeRuns s := rfl

@[simp] theorem bandOn_updLink (s : State) (l : Fin 26) (f : Link → Link) (x : Fin 26) : bandOn (updLink s l f) x = bandOn s x := rfl
@[simp] theorem bandOn_updPort (s : State) (p : Fin 26) (f : Port → Port) (x : Fin 26) : bandOn (updPort s p f) x = bandOn s x := rfl

@[simp] theorem linkIsUp_updPort (s : State) (p : Fin 26) (f : Port → Port) (x : Fin 26) :
    linkIsUp (updPort s p f) x = linkIsUp s x := rfl

@[simp] theorem portOn_updLink (s : State) (l : Fin 26) (f : Link → Link) (x : Fin 26) : portOn (updLink s l f) x = portOn s x := rfl

theorem portOn_updPort (s : State) (p : Fin 26) {f : Port → Port} (h : (f s.ports[p]).phys = s.ports[p].phys) (x : Fin 26) :
    portOn (updPort s p f) x = portOn s x := by
  have hp : ∀ y : Fin 26, (updPort s p f).ports[y].phys = s.ports[y].phys := fun y => by
    rw [updPort_ports]
    split
    next hy => rw [h, hy]
    next => rfl
  simp only [portOn, hp]

/-- The port of a link is the one mapped to it, where no other is. -/
theorem portOn_of_only {s : State} {p l : Fin 26} (h : s.ports[p].phys.toNat = l.val)
    (ho : ∀ x : Fin 26, x ≠ p → s.ports[x].phys.toNat ≠ l.val) : portOn s l = some p := by
  have hf : ∃ x, portOn s l = some x := by
    rw [portOn, ← Option.isSome_iff_exists, List.find?_isSome]
    exact ⟨p, List.mem_finRange p, beq_iff_eq.mpr h⟩
  obtain ⟨x, hx⟩ := hf
  have hm := List.find?_some hx
  by_cases hxp : x = p
  · rw [hx, hxp]
  · exact absurd (beq_iff_eq.mp hm) (ho x hxp)

@[simp] theorem grantable_updLink (s : State) (l : Fin 26) (f : Link → Link) (x p : Fin 26) :
    grantable (updLink s l f) x p = grantable s x p := rfl

/-! ## Flits that leave a link -/

/-- FAULT flits fill a link by its own record alone. -/
theorem faultFilled_updLink {s : State} {l : Fin 26} {f : Link → Link} (h : (f s.links[l]).faultTick = s.links[l].faultTick) :
    faultFilled (updLink s l f) l = faultFilled s l := by
  rw [faultFilled, faultFilled, updLink_links_self, h, tick_updLink]

@[simp] theorem faultFilled_updPort (s : State) (p : Fin 26) (f : Port → Port) (x : Fin 26) :
    faultFilled (updPort s p f) x = faultFilled s x := rfl

/-- The flits of a sending, as the link keeps them. -/
def Link.send (t : Nat) (nak : Bool) (bodies : List (List Byte)) (k : Link) : Link :=
  { k with lastSent := bodies.map (fun b => encodeFlit (withAck k nak b)), sentTick := t, ackOwed := none }

theorem sendFlits_eq (s : State) (l : Fin 26) (nak : Bool) (bodies : List (List Byte)) :
    sendFlits s l nak bodies = updLink s l (Link.send (tick s) nak bodies) := rfl

/-- The credit of a flit leaves the port's books. -/
def Port.grant (n : Nat) (po : Port) : Port := { po with owed := po.owed - n, granted := po.granted + n }

/-- Nothing leaves a link that FAULT flits fill. -/
theorem sendBare_filled {s : State} {l : Fin 26} (h : faultFilled s l = true) (type : Nat) (nak : Bool) :
    sendBare s l type nak = s := by
  rw [sendBare, if_pos h]

/-- A flit without payload: its credit leaves the books of the link's port. -/
theorem sendBare_eq {s : State} {l p : Fin 26} (hf : faultFilled s l = false) (hp : portOn s l = some p) (type : Nat) (nak : Bool) :
    sendBare s l type nak = updPort (updLink s l (Link.send (tick s) nak
      [flitBody (packFlds [(0, 4, type), (40, 12, grantable s l p)]) []])) p (Port.grant (grantable s l p)) := by
  rw [sendBare, hf]
  simp only [Bool.false_eq_true, if_false, takeGrant, hp]
  rfl

/-- Every unacknowledged flit of a link goes out again. -/
def Link.replayed (t : Nat) (k : Link) : Link :=
  { k with lastSent := k.unacked.map (fun x => encodeFlit (withAck k false x.body)), sentTick := t, ackOwed := none,
           replays := k.replays + 1, unacked := k.unacked.map (fun x => { x with tick := t }) }

theorem replay_eq {s : State} {l : Fin 26} (h : s.links[l].unacked ≠ []) (hf : faultFilled s l = false) :
    replay s l = updLink s l (Link.replayed (tick s)) := by
  have he : s.links[l].unacked.isEmpty = false := by simpa using h
  have hs : replay s l = updLink (sendFlits s l false (s.links[l].unacked.map (·.body))) l
      (fun k => { k with replays := k.replays + 1, unacked := s.links[l].unacked.map (fun u => { u with tick := tick s }) }) := by
    rw [replay, he, hf]
    rfl
  rw [hs, sendFlits_eq, updLink_updLink]
  apply updLink_congr
  simp only [Link.send, Link.replayed, List.map_map, Function.comp_def]

theorem replay_filled {s : State} {l : Fin 26} (hf : faultFilled s l = true) : replay s l = s := by
  simp only [replay, hf, Bool.or_true, if_true]

/-! ## Faults of a link -/

theorem setFld_zero_of_clear {w : Word} {lo len : Nat} (h : fld w lo len = 0) : setFld w lo len 0 = w := by
  apply BitVec.eq_of_getLsbD_eq
  intro i hi
  rw [getLsbD_setFld w lo len 0 i hi]
  split
  next hr =>
    have hb : (fld w lo len).testBit (i - lo) = w.getLsbD i := by
      rw [testBit_fld, bit_eq_testBit, BitVec.testBit_toNat, Nat.add_sub_cancel' hr.1, decide_eq_true (by omega), Bool.true_and]
    rw [← hb, h]
  next => rfl

/-- Without the only-recorded bit, LINK.FAULT has cause, valid bit and origin. -/
theorem linkFaultWord_false (cause origin : Nat) :
    linkFaultWord cause false origin = packFlds [(0, 3, cause), (3, 1, 1), (32, 32, origin)] := by
  have h : fld (setFld (setFld 0 0 3 cause) 3 1 1) 4 1 = 0 := by
    rw [fld_setFld_of_disjoint _ _ (Or.inl (by omega)), fld_setFld_of_disjoint _ _ (Or.inl (by omega))]
    rfl
  show setFld (setFld (setFld (setFld 0 0 3 cause) 3 1 1) 4 1 0) 32 32 origin = _
  rw [setFld_zero_of_clear h]
  rfl

/-- Without an origin, its field stays clear. -/
theorem packFlds_noOrigin (cause : Nat) :
    packFlds [(0, 3, cause), (3, 1, 1), (32, 32, (0 : BitVec 32).toNat)] = packFlds [(0, 3, cause), (3, 1, 1)] := by
  have h : fld (setFld (setFld 0 0 3 cause) 3 1 1) 32 32 = 0 := by
    rw [fld_setFld_of_disjoint _ _ (Or.inl (by omega)), fld_setFld_of_disjoint _ _ (Or.inl (by omega))]
    rfl
  exact setFld_zero_of_clear h

/-- The model's raise of a link fault is the statements' linkFaulted. -/
theorem raiseLink_eq (s : State) (l : Fin 26) (r : Raised) : raiseLink s l r = linkFaulted s l r := by
  unfold raiseLink linkFaulted
  simp only [linkFaultWord_false]
  change (match s.bind.raised.find? (sameLinkTick s l) with | none => _ | some g => _) =
    match s.bind.raised.find? (sameLinkTick s l) with | none => _ | some g => _
  cases s.bind.raised.find? (sameLinkTick s l) with
  | none =>
    cases hb : bit s.links[l].fault 3 with
    | true =>
      have hi : updLink s l (fun k => recordLink k r.cause false r.originId.toNat) = s :=
        updLink_id s l (by simp only [recordLink, hb, if_true])
      simp only [hi, if_true]
    | false =>
      have hr : updLink s l (fun k => recordLink k r.cause false r.originId.toNat) =
          updLink s l (fun k => { k with fault := packFlds [(0, 3, r.cause), (3, 1, 1), (32, 32, r.originId.toNat)] }) :=
        updLink_congr (by simp only [recordLink, hb, Bool.false_eq_true, if_false, linkFaultWord_false])
      simp only [hr, Bool.false_eq_true, if_false]
      rfl
  | some g =>
    simp only
    split
    · cases g.noted <;> rfl
    · rfl

theorem linkFault_eq (s : State) (l : Fin 26) (cause : Nat) :
    linkFault s l cause =
      if s.links[l].required = true ∧ computeRuns s = true then linkFaulted s l (linkRaise l cause (tick s)) else s := by
  simp only [linkFault, Bool.and_eq_true, raiseLink_eq]
  rfl

/-- LINK.FAULT of a link behind a fault r of it. -/
def linkRecord (s : State) (l : Fin 26) (r : Raised) : Word :=
  let w := packFlds [(0, 3, r.cause), (3, 1, 1), (32, 32, r.originId.toNat)]
  let old := s.links[l].fault
  match s.bind.raised.find? (sameLinkTick s l) with
  | none => if bit old 3 then old else w
  | some g => if r.cause < g.cause ∧ g.noted = true then w else old

/-- The faults on their way to the latch behind a fault r of link l. -/
def linkRaised (s : State) (l : Fin 26) (r : Raised) : List Raised :=
  match s.bind.raised.find? (sameLinkTick s l) with
  | none => s.bind.raised ++ [{ r with noted := !bit s.links[l].fault 3 }]
  | some g =>
    if r.cause < g.cause then s.bind.raised.map (fun e => if sameLinkTick s l e then { r with noted := g.noted } else e)
    else s.bind.raised

/-- A link fault changes LINK.FAULT of its link and the faults on their way to the latch, no more. -/
theorem linkFaulted_eq (s : State) (l : Fin 26) (r : Raised) :
    linkFaulted s l r = { updLink s l (fun k => { k with fault := linkRecord s l r }) with
      bind := { s.bind with raised := linkRaised s l r } } := by
  have hid : updLink s l (fun k => { k with fault := s.links[l].fault }) = s := updLink_id s l rfl
  unfold linkFaulted linkRecord linkRaised
  change (match s.bind.raised.find? (sameLinkTick s l) with | none => _ | some g => _) = _
  cases s.bind.raised.find? (sameLinkTick s l) with
  | none =>
    by_cases hb : bit s.links[l].fault 3 = true
    · simp only [hb, if_true, hid]
    · simp only [hb, if_false, Bool.false_eq_true]
  | some g =>
    by_cases hc : r.cause < g.cause
    · by_cases hg : g.noted = true
      · simp only [hc, hg, and_self, if_true]
        rfl
      · simp only [hc, hg, and_false, if_false, if_true, hid, Bool.false_eq_true]
        rfl
    · simp only [hc, false_and, if_false, hid]

/-- Updates of a port do not meet link faults. -/
theorem linkFaulted_updPort (s : State) (l p : Fin 26) (r : Raised) (f : Port → Port) :
    linkFaulted (updPort s p f) l r = updPort (linkFaulted s l r) p f := by
  rw [linkFaulted_eq, linkFaulted_eq]
  rfl

end Sys2Proof.Machine
end

section
/-! PROOFS. Received flits: what each kind does to its link and port (O34 O35). -/

namespace Sys2Proof.Machine

/-! ## What a received flit does first -/

/-- The link has heard a flit, n of its bytes corrected. -/
def heardFlit (s : State) (l : Fin 26) (n : Nat) : State :=
  updLink s l (fun k => { k with heardTick := tick s, corrected := k.corrected + BitVec.ofNat 32 n })

theorem recvFlit_none {s : State} {l : Fin 26} {bytes : List Byte} (hu : linkIsUp s l = true) (hb : bytes.length = 256)
    (hd : decodeFlit bytes = none) (type : Nat) (take : State → Word → List Byte → State) :
    recvFlit s l bytes type take = uncorrectable s l := by
  simp only [recvFlit, hu, hb, hd, bne_self_eq_false, Bool.not_true, Bool.or_self, Bool.false_eq_true, if_false]

theorem recvFlit_some {s : State} {l : Fin 26} {bytes body : List Byte} {n type : Nat} (hu : linkIsUp s l = true)
    (hb : bytes.length = 256) (hd : decodeFlit bytes = some (body, n)) (ht : flitType body = type)
    (take : State → Word → List Byte → State) :
    recvFlit s l bytes type take = take (takeAck (heardFlit s l n) l (flitHeader body)) (flitHeader body) body := by
  simp only [recvFlit, hu, hb, hd, ht, bne_self_eq_false, Bool.not_true, Bool.or_self, Bool.false_eq_true, if_false, ne_eq,
    not_true_eq_false]
  rfl

/-- A flit without acknowledgement and NAK. -/
theorem takeAck_plain {h : Word} (h28 : bit h 28 = false) (h29 : bit h 29 = false) (s : State) (l : Fin 26) :
    takeAck s l h = s := by
  simp only [takeAck, h28, h29, Bool.not_false, Bool.and_self, if_true]

/-- The messages of a port whose last flit is still unacknowledged. -/
def Port.keepTx (us : List SentFlit) (po : Port) : Port :=
  { po with tx := po.tx.filter (fun m => us.any (fun u => u.seq.toNat == m.lastSeq)) }

/-- An acknowledgement without NAK: the flits up to it leave the send buffer, and the messages they end. -/
theorem takeAck_ack {s : State} {l p : Fin 26} {h : Word} (hp : portOn s l = some p) (h28 : bit h 28 = true)
    (h29 : bit h 29 = false) :
    takeAck s l h = updPort (updLink s l (fun k => { k with unacked := ackUnacked (fld h 16 12) s.links[l].unacked })) p
      (Port.keepTx (ackUnacked (fld h 16 12) s.links[l].unacked)) := by
  simp only [takeAck, h28, h29, Bool.not_true, Bool.false_and, Bool.false_eq_true, if_false, if_true, portOn_updLink, hp]
  rfl

/-- A NAK without acknowledgement: the send buffer goes out again. -/
theorem takeAck_nak {s : State} {l p : Fin 26} {h : Word} (hp : portOn s l = some p) (h28 : bit h 28 = false)
    (h29 : bit h 29 = true) :
    takeAck s l h = replay (updPort s p (Port.keepTx s.links[l].unacked)) l := by
  have hi : updLink s l (fun k => { k with unacked := s.links[l].unacked }) = s := updLink_id s l rfl
  simp only [takeAck, h28, h29, Bool.not_false, Bool.not_true, Bool.and_false, Bool.false_eq_true, if_false, if_true, hi, hp]
  rfl

/-- The first flit of the send buffer that carries the acknowledged number leaves it, with those before it. -/
theorem ackUnacked_of_first {ack : Nat} {us pre post : List SentFlit} {a : SentFlit} (h : us = pre ++ a :: post)
    (ha : a.seq.toNat = ack) (hpre : ∀ x ∈ pre, x.seq.toNat ≠ ack) : ackUnacked ack us = post := by
  have hi : us.findIdx? (fun u => u.seq.toNat == ack) = some pre.length := by
    rw [h, List.findIdx?_append, List.findIdx?_eq_none_iff.mpr fun x hx => beq_eq_false_iff_ne.mpr (hpre x hx),
      List.findIdx?_cons, beq_iff_eq.mpr ha]
    simp
  rw [ackUnacked, hi]
  show us.drop (pre.length + 1) = post
  rw [h, List.drop_append, List.drop_eq_nil_of_le (by omega)]
  simp

/-- The credit that a flit carries reaches the port. -/
def Port.addCredit (h : Word) (po : Port) : Port := { po with credit := po.credit + fld h 40 12 }

theorem takeCredit_eq {s : State} {l p : Fin 26} (hp : portOn s l = some p) (h : Word) :
    takeCredit s l h = updPort s p (Port.addCredit h) := by
  simp only [takeCredit, hp]
  rfl

/-! ## Flits that take nothing -/

/-- One NAK for a gap of DATA flits. -/
def nakGap (a : State) (l p : Fin 26) : State :=
  if a.links[l].discarding then a
  else if faultFilled a l then updLink a l (fun k => { k with discarding := true })
  else
    updPort (updLink a l (fun k => { k with
      discarding := true, sentTick := tick a, ackOwed := none
      lastSent := [encodeFlit (withAck k true (flitBody (packFlds [(0, 4, 2), (40, 12, grantable a l p)]) []))] })) p
      (Port.grant (grantable a l p))

theorem discardGap_eq {s : State} {l p : Fin 26} (hp : portOn s l = some p) : discardGap s l = nakGap s l p := by
  unfold discardGap nakGap
  split
  · rfl
  · generalize hu : updLink s l (fun k => { k with discarding := true }) = u
    have hf : faultFilled u l = faultFilled s l := hu ▸ faultFilled_updLink rfl
    split
    next h => exact sendBare_filled (hf.trans h) 2 true
    next h =>
      have hpu : portOn u l = some p := hu ▸ hp
      rw [sendBare_eq (hf.trans (Bool.eq_false_iff.mpr h)) hpu]
      subst hu
      rw [updLink_updLink]
      rfl

theorem uncorrectable_eq {s : State} {l p : Fin 26} (hp : portOn s l = some p) :
    uncorrectable s l = nakGap (updLink s l (fun k => { k with uncorr := k.uncorr + 1 })) l p :=
  discardGap_eq hp

/-- On the fault path a DATA flit is discarded. -/
theorem takeData_latched {s : State} {l p : Fin 26} (hp : portOn s l = some p) (hl : s.bind.latch = true) (h : Word)
    (body : List Byte) :
    takeData s l h body = if bit h 31 then updPort s p (fun po => { po with drops := po.drops + 1 }) else s := by
  simp only [takeData, hl, if_true, dropData, hp]

/-- A DATA flit of another SEQ is discarded. -/
theorem takeData_gap {s : State} {l p : Fin 26} (hp : portOn s l = some p) (hl : s.bind.latch = false) {h : Word}
    (hs : fld h 4 12 ≠ s.links[l].rxSeq.toNat) (body : List Byte) : takeData s l h body = nakGap s l p := by
  simp only [takeData, hl, Bool.false_eq_true, if_false, if_pos hs, discardGap_eq hp]

/-- Settles O35: a flit that does not decode is counted and asks for a replay once, so does a gap of SEQ; the fault path
discards; a FAULT flit is a link fault or is recorded. -/
theorem flitsRefused : Obligations.FlitsRefused := by
  unfold Obligations.FlitsRefused
  intro s l p bytes body n h heard nak lost hu hb hp
  have hlost : uncorrectable s l = lost := uncorrectable_eq hp
  refine ⟨?_, fun hd => ?_, fun hd h28 h29 => ⟨fun ht hl hs => ?_, fun ht hl => ?_, fun ht => ?_⟩⟩
  · show Host.Outcome.next (if linkIsUp s l then uncorrectable s l else s) = _
    rw [if_pos hu, hlost]
  · rw [← hlost]
    refine ⟨?_, ?_, ?_, ?_⟩ <;> exact congrArg Host.Outcome.next (recvFlit_none hu hb hd _ _)
  · refine congrArg Host.Outcome.next ((recvFlit_some hu hb hd ht _).trans ?_)
    rw [takeAck_plain h28 h29]
    refine takeData_gap (s := heardFlit s l n) hp hl ?_ body
    rw [heardFlit, updLink_links_self]
    exact hs
  · refine congrArg Host.Outcome.next ((recvFlit_some hu hb hd ht _).trans ?_)
    rw [takeAck_plain h28 h29]
    exact takeData_latched (s := heardFlit s l n) hp hl h body
  · refine congrArg Host.Outcome.next ((recvFlit_some hu hb hd ht _).trans ?_)
    rw [takeAck_plain h28 h29]
    have hr : (heardFlit s l n).links[l].required = s.links[l].required := by rw [heardFlit, updLink_links_self]
    simp only [takeFault, hr, raiseLink_eq]
    rfl

/-! ## A DATA flit taken in order -/

/-- The message being received when the next in-order flit comes, behind complete ones. -/
def Receiving (po : Port) (first : Bool) (num now : Nat) (done : List RxMsg) (m : RxMsg) : Prop :=
  if first then po.rx = done ∧ m = { num := num, bytes := 0, first := now, complete := false, spill := [] }
  else po.rx = done ++ [m] ∧ m.complete = false

theorem Receiving.open {po : Port} {first : Bool} {num now : Nat} {done : List RxMsg} {m : RxMsg}
    (h : Receiving po first num now done m) : m.complete = false := by
  cases first with
  | true => exact h.2 ▸ rfl
  | false => exact h.2

/-- A FIRST flit begins its message behind the complete ones, another flit goes on with the one begun. -/
theorem startRx_eq {po : Port} {first : Bool} {num now : Nat} {done : List RxMsg} {m : RxMsg}
    (h : Receiving po first num now done m) (hd : ∀ r ∈ done, r.complete = true) :
    startRx po first num now = { po with rx := done ++ [m] } := by
  cases first with
  | true =>
    obtain ⟨hrx, hm⟩ : po.rx = done ∧ _ := h
    rw [startRx, if_pos rfl, hrx, List.filter_eq_self.mpr hd, hm]
  | false =>
    obtain ⟨hrx, -⟩ : po.rx = done ++ [m] ∧ _ := h
    rw [startRx, if_neg Bool.false_ne_true, ← hrx]

theorem find_open {done : List RxMsg} {m : RxMsg} (hd : ∀ r ∈ done, r.complete = true) (hm : m.complete = false) :
    (done ++ [m]).find? (fun r => !r.complete) = some m := by
  rw [List.find?_append, List.find?_eq_none.mpr fun r hr => by simp [hd r hr]]
  simp [hm]

/-- n bytes more for the message begun. -/
theorem advanceRx_eq {po : Port} {done : List RxMsg} {m : RxMsg} (hrx : po.rx = done ++ [m])
    (hd : ∀ r ∈ done, r.complete = true) (hm : m.complete = false) (n : Nat) (last : Bool) :
    advanceRx po n last = { po with
      rx := done ++ [{ m with bytes := m.bytes + n, complete := last }]
      granted := po.granted - ((m.bytes + n) / 512 - m.bytes / 512)
      head := if last then (po.head + ceilDiv (m.bytes + n) 512) % max 1 (po.rxSize / 512) else po.head } := by
  have hmap : (done ++ [m]).map (fun r => if r.complete then r else { r with bytes := m.bytes + n, complete := last }) =
      done ++ [{ m with bytes := m.bytes + n, complete := last }] := by
    rw [List.map_append, List.map_congr_left (g := id) fun r hr => by simp [hd r hr], List.map_id, List.map_singleton, if_neg (by simp [hm])]
  simp only [advanceRx, hrx, find_open hd hm, hmap]

/-- Bytes that neither the endpaper's end nor the ring's end cuts. -/
theorem ringPieces_single {size off n : Nat} (hn : 0 < n) (h : off + n ≤ min 262144 size) : ringPieces size 6 off n = [(off, n)] := by
  have hmod : off % size = off := Nat.mod_eq_of_lt (by omega)
  have hk : min n (min 262144 size - off) = n := by omega
  rw [ringPieces, if_neg (by omega)]
  simp only [hmod, if_pos (show off < 262144 by omega), hk, Nat.sub_self]
  rw [ringPieces, if_pos (Or.inl rfl)]

/-- Bytes written into an endpaper. -/
def putEndpaper (s : State) (l : Fin 26) (off : Nat) (bytes : List Byte) : State :=
  { s with endpapers := s.endpapers.set l (writeBytes s.endpapers[l] off bytes) }

/-- Such bytes go to the endpaper. -/
theorem ringWrite_endpaper {s : State} {l p : Fin 26} {off : Nat} {bytes : List Byte} (hn : 0 < bytes.length)
    (h : off + bytes.length ≤ min 262144 s.ports[p].rxSize) :
    ringWrite s l p off bytes = putEndpaper s l off bytes := by
  simp only [putEndpaper, ringWrite, ringPieces_single hn h, List.foldl_cons, List.foldl_nil, List.take_length,
    if_pos (show off < 262144 by omega)]

@[simp] theorem slice_length (bs : List Byte) (off n : Nat) : (slice bs off n).length = n := by
  simp only [slice, List.length_append, List.length_replicate, List.length_take]
  omega

/-- The deadline of R379 is written out in the statements. -/
theorem deadline_eq (w bytes : Nat) :
    deadline w bytes = 4 + ceilDiv bytes (if w = 3 then 116000 else if w = 2 then 58000 else 29000) := by
  have hr : widthRate w = if w = 3 then 116000 else if w = 2 then 58000 else 29000 := by
    unfold widthRate
    split
    · rfl
    · rfl
    next h3 h2 => rw [if_neg h3, if_neg h2]
  rw [deadline, hr]

/-- The port behind n bytes more of the message m. -/
def Port.received (done : List RxMsg) (m : RxMsg) (n : Nat) (last : Bool) (po : Port) : Port :=
  { po with
    rx := done ++ [{ m with bytes := m.bytes + n, complete := last }]
    granted := po.granted - ((m.bytes + n) / 512 - m.bytes / 512)
    head := if last then (po.head + ceilDiv (m.bytes + n) 512) % max 1 (po.rxSize / 512) else po.head }

/-- The bytes of an in-order DATA flit behind those of its message in the ring of the endpaper. -/
def payloadTaken (s : State) (l p : Fin 26) (done : List RxMsg) (m : RxMsg) (h : Word) (body : List Byte) : State :=
  updPort (putEndpaper s l (512 * s.ports[p].head + m.bytes) (slice body 8 (fld h 32 8))) p
    (Port.received done m (fld h 32 8) (bit h 31))

/-- The payload goes behind the bytes of the message begun. -/
theorem takePayload_some {s a u : State} {l p : Fin 26} {h : Word} {m : RxMsg} {body : List Byte} (hp : portOn s l = some p)
    (ha : updPort s p (fun po => startRx po (bit h 30) (fld h 52 6) (tick s)) = a)
    (hm : a.ports[p].rx.find? (fun m => !m.complete) = some m)
    (hu : updPort (ringWrite a l p (512 * a.ports[p].head + m.bytes) (slice body 8 (fld h 32 8))) p
      (fun po => advanceRx po (fld h 32 8) (bit h 31)) = u) :
    takePayload s l h body =
      if bit h 31 && decide (m.first + deadline u.links[l].width (m.bytes + fld h 32 8) < tick u) then linkFault u l 2 else u := by
  subst ha hu
  simp only [takePayload, hp, hm]

theorem takePayload_eq {s : State} {l p : Fin 26} {h : Word} {done : List RxMsg} {m : RxMsg} (hp : portOn s l = some p)
    (hr : Receiving s.ports[p] (bit h 30) (fld h 52 6) (tick s) done m) (hd : ∀ r ∈ done, r.complete = true)
    (hn : 0 < fld h 32 8) (hend : 512 * s.ports[p].head + m.bytes + fld h 32 8 ≤ min 262144 s.ports[p].rxSize) (body : List Byte) :
    takePayload s l h body =
      if bit h 31 = true ∧ m.first + deadline s.links[l].width (m.bytes + fld h 32 8) < tick s then
        linkFault (payloadTaken s l p done m h body) l 2
      else payloadTaken s l p done m h body := by
  have hs : updPort s p (fun po => startRx po (bit h 30) (fld h 52 6) (tick s)) =
      updPort s p (fun po => { po with rx := done ++ [m] }) := updPort_congr (startRx_eq hr hd)
  have hpo : (updPort s p (fun po => { po with rx := done ++ [m] })).ports[p] = { s.ports[p] with rx := done ++ [m] } :=
    updPort_ports_self s p _
  have hw := ringWrite_endpaper (s := updPort s p (fun po => { po with rx := done ++ [m] })) (l := l) (p := p)
    (off := 512 * s.ports[p].head + m.bytes) (bytes := slice body 8 (fld h 32 8)) (by rw [slice_length]; exact hn)
    (by rw [slice_length, hpo]; exact hend)
  have ha : updPort (putEndpaper (updPort s p (fun po => { po with rx := done ++ [m] })) l (512 * s.ports[p].head + m.bytes)
      (slice body 8 (fld h 32 8))) p (fun po => advanceRx po (fld h 32 8) (bit h 31)) = payloadTaken s l p done m h body := by
    rw [payloadTaken]
    refine (updPort_updPort (putEndpaper s l (512 * s.ports[p].head + m.bytes) (slice body 8 (fld h 32 8))) p
      (fun po => { po with rx := done ++ [m] }) _).trans (updPort_congr ?_)
    exact advanceRx_eq rfl hd hr.open _ _
  have hu : updPort (ringWrite (updPort s p (fun po => { po with rx := done ++ [m] })) l p
      (512 * (updPort s p (fun po => { po with rx := done ++ [m] })).ports[p].head + m.bytes) (slice body 8 (fld h 32 8))) p
      (fun po => advanceRx po (fld h 32 8) (bit h 31)) = payloadTaken s l p done m h body := by
    rw [hpo]
    exact (congrArg (fun a => updPort a p (fun po => advanceRx po (fld h 32 8) (bit h 31))) hw).trans ha
  rw [takePayload_some hp hs (by rw [hpo]; exact find_open hd hr.open) hu]
  simp only [Bool.and_eq_true, decide_eq_true_eq]
  rfl

/-- A link fault behind an in-order DATA flit does not meet the credit that the flit carries. -/
theorem takeCredit_linkFault {u : State} {l p : Fin 26} (hp : portOn u l = some p) (cause : Nat) (h : Word) :
    takeCredit (linkFault u l cause) l h = linkFault (updPort u p (Port.addCredit h)) l cause := by
  have hpl : portOn (linkFault u l cause) l = some p := by
    rw [linkFault_eq]
    split
    · rw [linkFaulted_eq]
      exact hp
    · exact hp
  rw [takeCredit_eq hpl, linkFault_eq, linkFault_eq, updPort_links, computeRuns_updPort, linkFaulted_updPort]
  split <;> rfl

/-- The link behind a DATA flit taken in order. -/
def Link.tookData (t : Nat) (k : Link) : Link :=
  { k with rxSeq := BitVec.ofNat 16 ((k.rxSeq.toNat + 1) % 4096), rxAny := true, discarding := false,
           ackOwed := some (k.ackOwed.getD t) }

theorem takeData_inOrder {s : State} {l : Fin 26} (hl : s.bind.latch = false) {h : Word}
    (hs : fld h 4 12 = s.links[l].rxSeq.toNat) (body : List Byte) :
    takeData s l h body = takeCredit (takePayload (updLink s l (Link.tookData (tick s))) l h body) l h := by
  simp only [takeData, hl, Bool.false_eq_true, if_false, ne_eq, hs, not_true_eq_false]
  rfl

/-- A payload and its credit change endpapers and ports alone. -/
theorem payloadTaken_rest (s : State) (l p : Fin 26) (done : List RxMsg) (m : RxMsg) (h : Word) (body : List Byte) (f : Port → Port) :
    { updPort (payloadTaken s l p done m h body) p f with endpapers := s.endpapers, ports := s.ports } = s := rfl

theorem portOn_payloadTaken (s : State) (l p : Fin 26) (done : List RxMsg) (m : RxMsg) (h : Word) (body : List Byte) (x : Fin 26) :
    portOn (payloadTaken s l p done m h body) x = portOn s x := by
  rw [payloadTaken, portOn_updPort _ _ rfl]
  rfl

/-- A DATA flit in order: its payload, its credit, and the fault of a LAST flit that comes too late. -/
theorem takeData_taken {s : State} {l p : Fin 26} {h : Word} {done : List RxMsg} {m : RxMsg} (hp : portOn s l = some p)
    (hl : s.bind.latch = false) (hs : fld h 4 12 = s.links[l].rxSeq.toNat)
    (hr : Receiving s.ports[p] (bit h 30) (fld h 52 6) (tick s) done m) (hd : ∀ r ∈ done, r.complete = true)
    (hn : 0 < fld h 32 8) (hend : 512 * s.ports[p].head + m.bytes + fld h 32 8 ≤ min 262144 s.ports[p].rxSize) (body : List Byte) :
    let u := updPort (payloadTaken (updLink s l (Link.tookData (tick s))) l p done m h body) p (Port.addCredit h)
    takeData s l h body =
      if bit h 31 = true ∧ m.first + deadline s.links[l].width (m.bytes + fld h 32 8) < tick s then linkFault u l 2 else u := by
  intro u
  have hw : (updLink s l (Link.tookData (tick s))).links[l].width = s.links[l].width := by
    rw [updLink_links_self]
    rfl
  have hpu : portOn (payloadTaken (updLink s l (Link.tookData (tick s))) l p done m h body) l = some p :=
    (portOn_payloadTaken _ _ _ _ _ _ _ _).trans hp
  have ht := takePayload_eq (s := updLink s l (Link.tookData (tick s))) hp hr hd hn hend body
  rw [hw] at ht
  rw [takeData_inOrder hl hs]
  by_cases hlate : bit h 31 = true ∧ m.first + deadline s.links[l].width (m.bytes + fld h 32 8) < tick s
  · rw [ht.trans (if_pos hlate), if_pos hlate]
    exact takeCredit_linkFault hpu 2 h
  · rw [ht.trans (if_neg hlate), if_neg hlate]
    exact takeCredit_eq hpu h

/-- Settles O34: a flit of another kind than DATA has its acknowledgement, NAK and credit; a DATA flit in order its payload and
credit. -/
theorem flitsTaken : Obligations.FlitsTaken := by
  unfold Obligations.FlitsTaken
  intro s l p bytes body n h heard credit hu hb hd hp out hout
  have hheard : heard = heardFlit s l n := rfl
  have hpu : portOn heard l = some p := hp
  have hun : heard.links[l].unacked = s.links[l].unacked := by rw [hheard, heardFlit, updLink_links_self]
  have hbare : flitType body ≠ 1 → out = .next (takeCredit (takeAck heard l h) l h) := by
    intro h1
    obtain ⟨ht, rfl⟩ | ⟨ht, rfl⟩ : (flitType body = 2 ∧ _) ∨ (flitType body = 0 ∧ _) := by
      rcases hout with h2 | ⟨h3, -⟩
      · exact h2
      · exact absurd h3 h1
    · exact congrArg Host.Outcome.next (recvFlit_some hu hb hd ht _)
    · exact congrArg Host.Outcome.next (recvFlit_some hu hb hd ht _)
  refine ⟨fun h1 h28 h29 => ?_, fun pre a post h1 h28 h29 hus ha hpre => ?_, fun h1 h28 h29 hne hf => ?_,
    fun done m h1 h28 h29 hl hs hdone hrx hn hend => ?_⟩
  · rw [hbare h1, takeAck_plain h28 h29, takeCredit_eq hpu]
    rfl
  · have hpost : ackUnacked (fld h 16 12) heard.links[l].unacked = post := ackUnacked_of_first (hun.trans hus) ha hpre
    have hpp : portOn (updPort (updLink heard l (fun k => { k with unacked := post })) p (Port.keepTx post)) l = some p :=
      (portOn_updPort _ _ rfl _).trans hpu
    rw [hbare h1, takeAck_ack hpu h28 h29, hpost, takeCredit_eq hpp, updPort_updPort]
    rfl
  · have hk : (updPort heard p (Port.keepTx heard.links[l].unacked)).links[l].unacked ≠ [] := fun hc => hne (hun.symm.trans hc)
    have hfl : faultFilled (updPort heard p (Port.keepTx heard.links[l].unacked)) l = false :=
      (faultFilled_updLink (f := fun k => { k with heardTick := tick s, corrected := k.corrected + BitVec.ofNat 32 n }) rfl).trans hf
    have hpp : portOn (updPort (updLink heard l (Link.replayed (tick heard))) p (Port.keepTx heard.links[l].unacked)) l = some p :=
      (portOn_updPort _ _ rfl _).trans hpu
    rw [hbare h1, takeAck_nak hpu h28 h29, replay_eq hk hfl, tick_updPort, updLink_updPort, takeCredit_eq hpp, updPort_updPort, hun]
    rfl
  · have hex : out = .next (takeData heard l h body) := by
      rcases hout with (⟨h2, -⟩ | ⟨h2, -⟩) | ⟨-, rfl⟩
      · exact absurd (h1.symm.trans h2) (by decide)
      · exact absurd (h1.symm.trans h2) (by decide)
      · refine congrArg Host.Outcome.next ((recvFlit_some hu hb hd h1 _).trans ?_)
        rw [takeAck_plain h28 h29]
        rfl
    have hs' : fld h 4 12 = heard.links[l].rxSeq.toNat := by
      rw [hheard, heardFlit, updLink_links_self]
      exact hs
    have hw : heard.links[l].width = s.links[l].width := by rw [hheard, heardFlit, updLink_links_self]
    have hreq : heard.links[l].required = s.links[l].required := by rw [hheard, heardFlit, updLink_links_self]
    have htaken := takeData_taken hpu hl hs' hrx hdone hn hend body
    rw [hw, deadline_eq] at htaken
    generalize hu' : updPort (payloadTaken (updLink heard l (Link.tookData (tick heard))) l p done m h body) p (Port.addCredit h) = u
      at htaken
    have hlinks : u.links = (updLink heard l (Link.tookData (tick heard))).links := hu' ▸ rfl
    have hown : u.links[l] = Link.tookData (tick heard) heard.links[l] := by rw [hlinks, updLink_links_self]
    have hends : u.endpapers = s.endpapers.set l (writeBytes s.endpapers[l] (512 * s.ports[p].head + m.bytes)
      (slice body 8 (fld h 32 8))) := hu' ▸ rfl
    have hports : u.ports = (updPort (updPort s p (Port.received done m (fld h 32 8) (bit h 31))) p (Port.addCredit h)).ports :=
      hu' ▸ rfl
    have hrest : { u with endpapers := s.endpapers, links := s.links, ports := s.ports } = s := by
      have hr := payloadTaken_rest (updLink heard l (Link.tookData (tick heard))) l p done m h body (Port.addCredit h)
      rw [hu'] at hr
      exact (congrArg (fun v : State => { v with links := s.links }) hr :)
    have hrun : computeRuns u = computeRuns s := hu' ▸ rfl
    have htick : tick u = tick s := hu' ▸ rfl
    have hfault : linkFault u l 2 = if s.links[l].required = true ∧ computeRuns s = true then
        linkFaulted u l (linkRaise l 2 (tick s)) else u := by
      have hureq : u.links[l].required = s.links[l].required := by
        rw [hown]
        exact hreq
      rw [linkFault_eq, hrun, htick, hureq]
    refine ⟨u, ?_, ?_, ?_, ?_, fun x hx => ⟨?_, ?_⟩, fun x hx => ?_, hrest⟩
    · rw [hex, htaken, hfault]
      by_cases hlate : bit h 31 = true ∧ m.first + (4 + ceilDiv (m.bytes + fld h 32 8)
          (if s.links[l].width = 3 then 116000 else if s.links[l].width = 2 then 58000 else 29000)) < tick s
      · by_cases hr : s.links[l].required = true ∧ computeRuns s = true
        · exact congrArg Host.Outcome.next ((if_pos hlate).trans ((if_pos hr).trans (if_pos ⟨hlate, hr⟩).symm))
        · exact congrArg Host.Outcome.next ((if_pos hlate).trans ((if_neg hr).trans (if_neg fun hc => hr hc.2).symm))
      · exact congrArg Host.Outcome.next ((if_neg hlate).trans (if_neg fun hc => hlate hc.1).symm)
    · rw [hends]
      exact Vector.getElem_set_self _
    · rw [hown, hs']
      rw [hheard, heardFlit, updLink_links_self]
      rfl
    · rw [hports, updPort_updPort, updPort_ports_self]
      rfl
    · rw [hends]
      exact Vector.getElem_set_ne _ _ fun hc => hx (Fin.ext hc.symm)
    · rw [hlinks, updLink_links_ne _ _ hx]
      exact updLink_links_ne s _ hx
    · rw [hports, updPort_updPort, updPort_ports_ne _ _ hx]

end Sys2Proof.Machine
end

section
/-! PROOFS. Messages: the flits of a message, its acceptance and its landing (O33). -/

namespace Sys2Proof.Machine

/-! ## Bytes and the header of a flit -/

@[simp] theorem bytesLE_length (n v : Nat) : (bytesLE n v).length = n := by
  induction n generalizing v with
  | zero => rfl
  | succ n ih => simp only [bytesLE, List.length_cons, ih]

theorem ofBytesLE_bytesLE (n v : Nat) : ofBytesLE (bytesLE n v) = v % 256 ^ n := by
  induction n generalizing v with
  | zero => simp only [bytesLE, ofBytesLE, Nat.pow_zero, Nat.mod_one]
  | succ n ih =>
    have hb : (BitVec.ofNat 8 v).toNat = v % 256 := by rw [BitVec.toNat_ofNat]
    rw [bytesLE, ofBytesLE, ih, hb, Nat.pow_succ', Nat.mod_mul]

theorem slice_of_length {bs : List Byte} {n : Nat} (h : bs.length = n) : slice bs 0 n = bs := by
  simp only [slice, List.drop_zero, ← h, List.take_length, Nat.sub_self, List.replicate_zero, List.append_nil]

@[simp] theorem flitHeader_flitBody (h : Word) (payload : List Byte) : flitHeader (flitBody h payload) = h := by
  have hs : slice (bytesLE 8 h.toNat ++ slice payload 0 232) 0 8 = bytesLE 8 h.toNat := by
    have ht : (bytesLE 8 h.toNat ++ slice payload 0 232).take 8 = bytesLE 8 h.toNat := by
      rw [List.take_append_of_le_length (by simp), List.take_of_length_le (by simp)]
    simp only [slice, List.drop_zero] at ht ⊢
    rw [ht]
    simp
  have hlt : h.toNat < 256 ^ 8 := h.isLt
  rw [flitHeader, flitBody, numAt, hs, ofBytesLE_bytesLE, Nat.mod_eq_of_lt hlt]
  exact (BitVec.ofNat_toNat 64 h).trans (BitVec.setWidth_eq h)

@[simp] theorem flitBody_drop (h : Word) (payload : List Byte) : (flitBody h payload).drop 8 = slice payload 0 232 := by
  rw [flitBody, List.drop_append_of_le_length (by simp), List.drop_of_length_le (by simp), List.nil_append]

/-! ## The flits of a message -/

/-- The header of flit i of n, without the credit. -/
def dataHeader (seq num n i len : Nat) : Word :=
  packFlds [(0, 4, 1), (4, 12, (seq + i) % 4096), (30, 1, b2n (i == 0)), (31, 1, b2n (i + 1 == n)), (32, 8, len), (52, 6, num)]

theorem dataBodies_eq (seq num : Nat) (bytes : List Byte) :
    dataBodies seq num bytes = (List.range (ceilDiv bytes.length 232)).map (fun i =>
      (BitVec.ofNat 16 ((seq + i) % 4096),
        flitBody (dataHeader seq num (ceilDiv bytes.length 232) i ((bytes.drop (232 * i)).take 232).length)
          ((bytes.drop (232 * i)).take 232))) := rfl

theorem b2n_mod_two (b : Bool) : (b2n b % 2 ^ 1 == 1) = b := by cases b <;> rfl

/-- What the header of a DATA flit says. -/
structure DataHeader (w : Word) (seq num n i : Nat) : Prop where
  type : fld w 0 4 = 1
  seq : fld w 4 12 = (seq + i) % 4096
  first : bit w 30 = decide (i = 0)
  last : bit w 31 = decide (i + 1 = n)
  num : fld w 52 6 = num % 64

theorem dataHeader_says (seq num n i len : Nat) : DataHeader (dataHeader seq num n i len) seq num n i := by
  have hu : dataHeader seq num n i len = setFld (setFld (setFld (setFld (setFld (setFld 0 0 4 1) 4 12 ((seq + i) % 4096)) 30 1
    (b2n (i == 0))) 31 1 (b2n (i + 1 == n))) 32 8 len) 52 6 num := rfl
  rw [hu]
  refine ⟨?_, ?_, ?_, ?_, ?_⟩
  · rw [fld_setFld_of_disjoint _ _ (Or.inr (by omega)), fld_setFld_of_disjoint _ _ (Or.inr (by omega)),
      fld_setFld_of_disjoint _ _ (Or.inr (by omega)), fld_setFld_of_disjoint _ _ (Or.inr (by omega)),
      fld_setFld_of_disjoint _ _ (Or.inr (by omega)), fld_setFld_same _ _ (by omega)]
    rfl
  · rw [fld_setFld_of_disjoint _ _ (Or.inr (by omega)), fld_setFld_of_disjoint _ _ (Or.inr (by omega)),
      fld_setFld_of_disjoint _ _ (Or.inr (by omega)), fld_setFld_of_disjoint _ _ (Or.inr (by omega)),
      fld_setFld_same _ _ (by omega)]
    omega
  · rw [bit, fld_setFld_of_disjoint _ _ (Or.inr (by omega)), fld_setFld_of_disjoint _ _ (Or.inr (by omega)),
      fld_setFld_of_disjoint _ _ (Or.inr (by omega)), fld_setFld_same _ _ (by omega), b2n_mod_two]
    rfl
  · rw [bit, fld_setFld_of_disjoint _ _ (Or.inr (by omega)), fld_setFld_of_disjoint _ _ (Or.inr (by omega)),
      fld_setFld_same _ _ (by omega), b2n_mod_two]
    rfl
  · exact fld_setFld_same _ _ (by omega)

/-- The credit field lies apart from the rest. -/
theorem DataHeader.credit {w : Word} {seq num n i : Nat} (h : DataHeader w seq num n i) (g : Nat) :
    DataHeader (setFld w 40 12 g) seq num n i := by
  obtain ⟨htype, hseq, hfirst, hlast, hnum⟩ := h
  refine ⟨?_, ?_, ?_, ?_, ?_⟩
  · rw [fld_setFld_of_disjoint _ _ (Or.inr (by omega)), htype]
  · rw [fld_setFld_of_disjoint _ _ (Or.inr (by omega)), hseq]
  · rw [bit, fld_setFld_of_disjoint _ _ (Or.inr (by omega))]
    exact hfirst
  · rw [bit, fld_setFld_of_disjoint _ _ (Or.inr (by omega))]
    exact hlast
  · rw [fld_setFld_of_disjoint _ _ (Or.inl (by omega)), hnum]

/-- The first flit of a sending carries the port's credit. -/
def grantFirst (g : Nat) : List (BitVec 16 × List Byte) → List (BitVec 16 × List Byte)
  | [] => []
  | f :: fs => (f.1, flitBody (setFld (flitHeader f.2) 40 12 g) (f.2.drop 8)) :: fs

@[simp] theorem grantFirst_length (g : Nat) (fl : List (BitVec 16 × List Byte)) : (grantFirst g fl).length = fl.length := by
  cases fl <;> rfl

theorem grantFirst_map_fst (g : Nat) (fl : List (BitVec 16 × List Byte)) :
    (grantFirst g fl).map (·.1) = fl.map (·.1) := by
  cases fl <;> rfl

/-- The flits of a message. -/
def messageFlits (g seq num : Nat) (bytes : List Byte) : List (BitVec 16 × List Byte) := grantFirst g (dataBodies seq num bytes)

@[simp] theorem messageFlits_length (g seq num : Nat) (bytes : List Byte) :
    (messageFlits g seq num bytes).length = ceilDiv bytes.length 232 := by
  rw [messageFlits, grantFirst_length, dataBodies_eq, List.length_map, List.length_range]

theorem messageFlits_seqs (g seq num : Nat) (bytes : List Byte) :
    (messageFlits g seq num bytes).map (·.1) =
      (List.range (ceilDiv bytes.length 232)).map (fun i => BitVec.ofNat 16 ((seq + i) % 4096)) := by
  rw [messageFlits, grantFirst_map_fst, dataBodies_eq, List.map_map]
  rfl

/-- Flit i of a message: its header and its part of the bytes. -/
theorem messageFlits_get (g seq num : Nat) (bytes : List Byte) {i : Nat} (hi : i < ceilDiv bytes.length 232) :
    ∃ f, (messageFlits g seq num bytes)[i]? = some f
      ∧ f.2.drop 8 = slice ((bytes.drop (232 * i)).take 232) 0 232
      ∧ DataHeader (flitHeader f.2) seq num (ceilDiv bytes.length 232) i := by
  have hd : (dataBodies seq num bytes)[i]? = some (BitVec.ofNat 16 ((seq + i) % 4096),
      flitBody (dataHeader seq num (ceilDiv bytes.length 232) i ((bytes.drop (232 * i)).take 232).length)
        ((bytes.drop (232 * i)).take 232)) := by
    rw [dataBodies_eq, List.getElem?_map, List.getElem?_range hi]
    rfl
  rw [messageFlits]
  generalize dataBodies seq num bytes = fl at hd
  cases fl with
  | nil => exact absurd hd (by simp)
  | cons f fs =>
    cases i with
    | zero =>
      obtain rfl : f = _ := Option.some.inj hd
      refine ⟨_, rfl, ?_, ?_⟩
      · rw [flitBody_drop, flitBody_drop]
        exact slice_of_length (slice_length _ _ _)
      · rw [flitHeader_flitBody, flitHeader_flitBody]
        exact (dataHeader_says _ _ _ _ _).credit g
    | succ i =>
      refine ⟨_, hd, flitBody_drop _ _, ?_⟩
      rw [flitHeader_flitBody]
      exact dataHeader_says _ _ _ _ _

/-! ## Acceptance -/

/-- A flit as the send buffer keeps it. -/
def SentFlit.at (t : Nat) (f : BitVec 16 × List Byte) : SentFlit := { seq := f.1, body := f.2, tick := t }

/-- The link behind the flits of a message. -/
def Link.sendMessage (t : Nat) (fl : List (BitVec 16 × List Byte)) (k : Link) : Link :=
  { Link.send t false (fl.map (·.2)) k with
    txSeq := BitVec.ofNat 16 ((k.txSeq.toNat + fl.length) % 4096)
    unacked := k.unacked ++ fl.map (SentFlit.at t) }

/-- The port behind the acceptance of a message of n bytes whose last flit has number last. -/
def Port.accept (g n t last : Nat) (po : Port) : Port :=
  { Port.grant g po with
    credit := po.credit - n / 512, sent := po.sent + 1
    tx := po.tx ++ [{ num := po.sent.toNat % 64, bytes := n, tick := t, lastSeq := last }] }

theorem acceptMessage_eq {s : State} {l p : Fin 26} {bytes : List Byte} {g : Nat} {fl : List (BitVec 16 × List Byte)}
    (hp : portOn s l = some p) (hgr : grantable s l p = g)
    (hfl : messageFlits g s.links[l].txSeq.toNat (s.ports[p].sent.toNat % 64) bytes = fl) :
    acceptMessage s l p bytes = updPort (updLink s l (Link.sendMessage (tick s) fl)) p
      (Port.accept g bytes.length (tick s) ((s.links[l].txSeq.toNat + fl.length + 4095) % 4096)) := by
  subst hgr hfl
  generalize hgr : grantable s l p = g
  have hsent : (updPort s p (Port.grant g)).ports[p].sent = s.ports[p].sent := by rw [updPort_ports_self]; rfl
  have hg : takeGrant s l = (g, updPort s p (Port.grant g)) := by
    simp only [takeGrant, hp, hgr]
    rfl
  have hacc : acceptMessage s l p bytes =
      (let a := updPort s p (Port.grant g)
       let num := a.ports[p].sent.toNat % 64
       let fl := messageFlits g a.links[l].txSeq.toNat num bytes
       updPort (updLink (sendFlits a l false (fl.map (·.2))) l (fun k =>
          { k with txSeq := BitVec.ofNat 16 ((k.txSeq.toNat + fl.length) % 4096),
                   unacked := k.unacked ++ fl.map (fun f => { seq := f.1, body := f.2, tick := tick a }) })) p (fun po =>
          { po with credit := po.credit - bytes.length / 512, sent := po.sent + 1,
                    tx := po.tx ++ [{ num := num, bytes := bytes.length, tick := tick a,
                                      lastSeq := (a.links[l].txSeq.toNat + fl.length + 4095) % 4096 }] })) := by
    rw [acceptMessage, hg]
    rfl
  simp only [hacc, hsent, sendFlits_eq, updLink_updLink, updLink_updPort, updPort_updPort]
  rfl

/-- A message whose port has credit and whose link has room is accepted. -/
theorem messageAccept_eq {b : State} {p l : Fin 26} {q : Fin 64} {ix : Nat} {o : OutWrite} (hl : b.ports[p].phys.toNat = l.val)
    (hw : waitingMessage b p = some (q, ix, o)) (hd : o.data.length = 512 * o.len) (hu : linkIsUp b l = true)
    (hr : computeRuns b = true) (hc : o.len ≤ b.ports[p].credit)
    (hroom : b.links[l].unacked.length + ceilDiv o.data.length 232 ≤ 1024) :
    messageAccept p b = acceptMessage (dropWrite b q ix o) l p o.data := by
  have hlt : b.ports[p].phys.toNat < 26 := hl ▸ l.isLt
  have hle : (⟨b.ports[p].phys.toNat, hlt⟩ : Fin 26) = l := Fin.ext hl
  have hwhole : o.whole = true := beq_iff_eq.mpr hd
  have hcr : decide (o.data.length ≤ 512 * b.ports[p].credit) = true := decide_eq_true (by omega)
  have hrm := decide_eq_true hroom
  rw [messageAccept, dif_pos hlt]
  simp only [hw, hle]
  rw [hwhole, hu, hr, hcr, hrm]
  rfl

/-- Settles O33: a message's flits leave, and what has landed is handed to the port. -/
theorem messages : Obligations.Messages := by
  unfold Obligations.Messages
  intro s p l b
  have hex : exec (.messageAccept p) s = .next (messageAccept p b) := rfl
  refine ⟨fun q ix o hl hw hd hu hr hc hroom honly => ?_, fun m rest hp hrx hm => ?_⟩
  · rw [hex]
    clear_value b
    have hpo : portOn (dropWrite b q ix o) l = some p := portOn_of_only (s := dropWrite b q ix o) hl honly
    obtain ⟨fl, hfl⟩ : ∃ fl, messageFlits (grantable b l p) b.links[l].txSeq.toNat (b.ports[p].sent.toNat % 64) o.data = fl :=
      ⟨_, rfl⟩
    have hacc := acceptMessage_eq (bytes := o.data) hpo rfl hfl
    have hlen : fl.length = ceilDiv o.data.length 232 := hfl ▸ messageFlits_length _ _ _ _
    have hseqs : fl.map (·.1) = _ := hfl ▸ messageFlits_seqs _ _ _ _
    have hget := fun (i : Nat) (hi : i < ceilDiv o.data.length 232) => hfl ▸ messageFlits_get _ _ _ _ hi
    rw [hlen] at hacc
    refine ⟨_, congrArg Host.Outcome.next ((messageAccept_eq hl hw hd hu hr hc hroom).trans hacc), rfl, ?_, fun x hx => ?_, ?_, ?_,
      fun i hi => ?_, ?_, ?_, fun x hx => ?_, ?_⟩
    · have hdiv : o.data.length / 512 = o.len := by omega
      rw [updPort_ports_self, Port.accept, hdiv]
      rfl
    · exact updPort_ports_ne _ _ hx
    · rw [updPort_links, updLink_links_self]
      show (BitVec.ofNat 16 ((b.links[l].txSeq.toNat + fl.length) % 4096)).toNat = _
      rw [hlen, BitVec.toNat_ofNat]
      omega
    · rw [updPort_links, updLink_links_self]
      show (b.links[l].unacked ++ fl.map (SentFlit.at (tick b))).map (·.seq) = _
      rw [List.map_append, List.map_map, ← hseqs]
      rfl
    · obtain ⟨f, hf, hbody, hhead⟩ := hget i hi
      refine ⟨SentFlit.at (tick b) f, ?_, rfl, hbody, hhead.type, hhead.seq, hhead.first, hhead.last,
        hhead.num.trans (Nat.mod_mod _ _)⟩
      rw [updPort_links, updLink_links_self]
      show (b.links[l].unacked ++ fl.map (SentFlit.at (tick b)))[b.links[l].unacked.length + i]? = _
      rw [List.getElem?_append_right (by omega), Nat.add_sub_cancel_left, List.getElem?_map, hf]
      rfl
    · rw [updPort_links, updLink_links_self]
      show ((fl.map (·.2)).map (fun x => encodeFlit (withAck b.links[l] false x))).length = _
      rw [List.length_map, List.length_map, hlen]
    · rw [updPort_links, updLink_links_self]
      rfl
    · exact updLink_links_ne _ _ hx
    · rfl
  · have hland : messageLanded p s = updPort { s with far := m.spill.foldl (fun f c => writeBytes f c.1 [c.2]) s.far } p
        (fun po => { po with
          rx := rest, landed := po.landed + 1, landedSizes := po.landedSizes ++ [m.bytes]
          landedReady := po.landedReady ++ [if po.recvValid then readyFrom s.quires[po.recvQuire % 64] else 0] }) := by
      rw [messageLanded, hrx]
      simp only [hp, hm, Bool.and_self, Bool.not_true, Bool.false_eq_true, if_false]
    exact congrArg Host.Outcome.next hland

end Sys2Proof.Machine
end

section
/-! PROOFS. The timers of links and ports (O36). -/

namespace Sys2Proof.Machine

/-! ## Links that go down -/

/-- The alarm of a link is in the trace part of the state alone. -/
theorem linkAlarm_trace (s : State) (l : Fin 26) : ∃ tr, linkAlarm s l = { s with trace := tr } := ⟨_, rfl⟩

/-- Leaving the up state: the link and its port, and an alarm where it was up. -/
theorem leaveUp_trace {s : State} {l p : Fin 26} (hp : portOn s l = some p) (state : Nat) :
    ∃ tr, leaveUp s l state =
      { updPort (updLink s l (Link.down state)) p (dropInFlight (!s.links[l].required)) with trace := tr } := by
  have hu : leaveUp s l state =
      (if s.links[l].state == 2 then linkAlarm (updPort (updLink s l (Link.down state)) p (dropInFlight (!s.links[l].required))) l
        else updPort (updLink s l (Link.down state)) p (dropInFlight (!s.links[l].required))) := by
    simp only [leaveUp, portOn_updLink, hp]
  rw [hu]
  split
  · exact linkAlarm_trace _ l
  · exact ⟨_, rfl⟩

/-- A link fault, where it is one, leaves LINK.FAULT and the faults on their way. -/
theorem linkFault_fields (s : State) (l : Fin 26) (cause : Nat) :
    ∃ w rs, linkFault s l cause =
      { updLink s l (fun k => { k with fault := w }) with bind := { s.bind with raised := rs } } := by
  rw [linkFault_eq]
  split
  · exact ⟨_, _, linkFaulted_eq s l _⟩
  · exact ⟨s.links[l].fault, s.bind.raised, by rw [updLink_id s l rfl]⟩

/-! ## A fault of every required link -/

/-- LINK.FAULT of a link behind a first fault of the tick. -/
def Link.noteFault (cause : Nat) (k : Link) : Link :=
  { k with fault := if bit k.fault 3 then k.fault else packFlds [(0, 3, cause), (3, 1, 1)] }

/-- One more fault on its way to the latch. -/
def withRaised (s : State) (r : Raised) : State := { s with bind := { s.bind with raised := s.bind.raised ++ [r] } }

/-- The first fault of a link in a tick. -/
theorem linkFaulted_fresh {s : State} {l : Fin 26} (h : s.bind.raised.find? (sameLinkTick s l) = none) (cause t : Nat) :
    linkFaulted s l (linkRaise l cause t) =
      withRaised (updLink s l (Link.noteFault cause)) { linkRaise l cause t with noted := !bit s.links[l].fault 3 } := by
  have hw : updLink s l (fun k => { k with fault := linkRecord s l (linkRaise l cause t) }) = updLink s l (Link.noteFault cause) := by
    apply updLink_congr
    simp only [linkRecord, h, Link.noteFault]
    rw [show (linkRaise l cause t).originId = 0 from rfl, packFlds_noOrigin]
    rfl
  rw [linkFaulted_eq, hw]
  simp only [linkRaised, h]
  rfl

/-- Faults of one cause of every required link of a list, none of which has one in this tick. -/
structure AllFaulted (s u : State) (cause : Nat) (ls : List (Fin 26)) : Prop where
  links : ∀ x : Fin 26, u.links[x] =
    if x ∈ ls ∧ s.links[x].required = true then Link.noteFault cause s.links[x] else s.links[x]
  raised : u.bind.raised = s.bind.raised ++ (ls.filter (fun x => s.links[x].required)).map (fun x =>
    { linkRaise x cause (tick s) with noted := !bit s.links[x].fault 3 })
  rest : { u with links := s.links, bind := { u.bind with raised := s.bind.raised } } = s

/-- None of the faults on their way is one that a link of the list has found in this tick. -/
def NoFaultOf (s : State) (ls : List (Fin 26)) : Prop :=
  ∀ e ∈ s.bind.raised, e.cause = 0 ∨ e.tick ≠ tick s ∨ ∀ x ∈ ls, e.link ≠ x.val

theorem NoFaultOf.find {s : State} {ls : List (Fin 26)} (h : NoFaultOf s ls) {l : Fin 26} (hl : l ∈ ls) :
    s.bind.raised.find? (sameLinkTick s l) = none := by
  refine List.find?_eq_none.mpr fun e he => ?_
  simp only [sameLinkTick, Bool.and_eq_true, bne_iff_ne, beq_iff_eq, not_and]
  rcases h e he with h | h | h
  · exact fun hc => absurd h hc.1
  · exact fun _ => h
  · exact fun hc => absurd hc.2 (h l hl)

theorem foldl_linkFault (cause : Nat) (ls : List (Fin 26)) :
    ∀ s : State, ls.Nodup → computeRuns s = true → NoFaultOf s ls →
      AllFaulted s (ls.foldl (fun s l => linkFault s l cause) s) cause ls := by
  induction ls with
  | nil => exact fun s _ _ _ => ⟨fun x => by simp, by simp, rfl⟩
  | cons a ls ih =>
    intro s hnd hc hn
    obtain ⟨ha, hnd'⟩ := List.nodup_cons.mp hnd
    rw [List.foldl_cons]
    by_cases hr : s.links[a].required = true
    · have ha' : linkFault s a cause = withRaised (updLink s a (Link.noteFault cause))
          { linkRaise a cause (tick s) with noted := !bit s.links[a].fault 3 } := by
        rw [linkFault_eq, if_pos ⟨hr, hc⟩, linkFaulted_fresh (hn.find (List.mem_cons_self ..))]
      generalize hu : linkFault s a cause = u at ha'
      have hlinks : u.links = (updLink s a (Link.noteFault cause)).links := ha' ▸ rfl
      have hraised : u.bind.raised = s.bind.raised ++ [{ linkRaise a cause (tick s) with noted := !bit s.links[a].fault 3 }] :=
        ha' ▸ rfl
      have hrest : { u with links := s.links, bind := { u.bind with raised := s.bind.raised } } = s := ha' ▸ rfl
      have htick : tick u = tick s := ha' ▸ rfl
      have hkeep : ∀ x : Fin 26, x ≠ a → u.links[x] = s.links[x] := fun x hx => by
        rw [hlinks, updLink_links_ne _ _ hx]
      have hn' : NoFaultOf u ls := fun e he => by
        rw [hraised, List.mem_append, List.mem_singleton] at he
        rw [htick]
        rcases he with he | he
        · rcases hn e he with h | h | h
          · exact Or.inl h
          · exact Or.inr (Or.inl h)
          · exact Or.inr (Or.inr fun x hx => h x (List.mem_cons_of_mem _ hx))
        · subst he
          exact Or.inr (Or.inr fun x hx hxa => ha (Fin.ext hxa ▸ hx))
      obtain ⟨ilinks, iraised, irest⟩ := ih u hnd' (ha' ▸ hc) hn'
      have hfil : ls.filter (fun x => u.links[x].required) = ls.filter (fun x => s.links[x].required) :=
        List.filter_congr fun x hx => by rw [hkeep x fun hxa => ha (hxa ▸ hx)]
      refine ⟨fun x => ?_, ?_, ?_⟩
      · rw [ilinks x]
        by_cases hxa : x = a
        · subst hxa
          rw [if_neg fun hx => ha hx.1, hlinks, updLink_links_self, if_pos ⟨List.mem_cons_self .., hr⟩]
        · rw [hkeep x hxa]
          simp only [List.mem_cons, hxa, false_or]
      · rw [iraised, hraised, htick, hfil, List.filter_cons, if_pos hr, List.map_cons, List.append_assoc, List.singleton_append]
        congr 2
        refine List.map_congr_left fun x hx => ?_
        rw [hkeep x fun hxa => ha (hxa ▸ (List.mem_filter.mp hx).1)]
      · have hs : { u with links := s.links, bind := { u.bind with raised := s.bind.raised } } = s := hrest
        have hfold := congrArg (fun v : State => { v with links := s.links, bind := { v.bind with raised := s.bind.raised } }) irest
        exact (hfold : _ = _).trans hs
    · have ha' : linkFault s a cause = s := by rw [linkFault_eq, if_neg fun h => hr h.1]
      rw [ha']
      obtain ⟨ilinks, iraised, irest⟩ := ih s hnd' hc fun e he => (hn e he).imp id (Or.imp id fun h x hx => h x (List.mem_cons_of_mem _ hx))
      refine ⟨fun x => ?_, ?_, irest⟩
      · rw [ilinks x]
        by_cases hxa : x = a
        · subst hxa
          rw [if_neg fun hx => hr hx.2, if_neg fun hx => hr hx.2]
        · simp only [List.mem_cons, hxa, false_or]
      · rw [iraised, List.filter_cons, if_neg hr]

/-! ## The timers -/

theorem powered_of_computeRuns {s : State} (h : computeRuns s = true) : s.pwr.powered = true := by
  simp only [computeRuns, computeUp, Bool.and_eq_true] at h
  obtain ⟨⟨⟨hp, -⟩, -⟩, -⟩ := h
  exact hp

/-- PROMISE of a port whose link is required. -/
theorem promiseMissed_eq {s : State} {p l : Fin 26} (hl : s.ports[p].phys.toNat = l.val) (hr : s.links[l].required = true)
    (hc : computeRuns s = true) {m : TxMsg} (hm : m ∈ s.ports[p].tx) (hd : m.tick + deadline s.links[l].width m.bytes + 1 < tick s) :
    promiseMissed p s = linkFaulted s l (linkRaise l 1 (tick s)) := by
  have hlt : s.ports[p].phys.toNat < 26 := hl ▸ l.isLt
  have hle : (⟨s.ports[p].phys.toNat, hlt⟩ : Fin 26) = l := Fin.ext hl
  have hany : s.ports[p].tx.any (fun m => decide (m.tick + deadline s.links[l].width m.bytes + 1 < tick s)) = true :=
    List.any_eq_true.mpr ⟨m, hm, decide_eq_true hd⟩
  rw [promiseMissed, dif_pos hlt]
  simp only [hle]
  rw [powered_of_computeRuns hc, hany, Bool.and_self, if_pos rfl, linkFault_eq, if_pos ⟨hr, hc⟩]

/-- PARTIAL of a port whose link is required. -/
theorem partialMissed_eq {s : State} {p l : Fin 26} (hl : s.ports[p].phys.toNat = l.val) (hr : s.links[l].required = true)
    (hc : computeRuns s = true) {m : RxMsg} (hm : m ∈ s.ports[p].rx) (ho : m.complete = false)
    (hd : m.first + deadline s.links[l].width 65536 < tick s) :
    partialMissed p s = linkFaulted s l (linkRaise l 2 (tick s)) := by
  have hlt : s.ports[p].phys.toNat < 26 := hl ▸ l.isLt
  have hle : (⟨s.ports[p].phys.toNat, hlt⟩ : Fin 26) = l := Fin.ext hl
  have hany : s.ports[p].rx.any (fun m => !m.complete && decide (m.first + deadline s.links[l].width 65536 < tick s)) = true :=
    List.any_eq_true.mpr ⟨m, hm, by rw [ho, decide_eq_true hd]; rfl⟩
  rw [partialMissed, dif_pos hlt]
  simp only [hle]
  rw [powered_of_computeRuns hc, hany, Bool.and_self, if_pos rfl, linkFault_eq, if_pos ⟨hr, hc⟩]

/-- A silent link goes down. -/
theorem silenced_eq {s : State} {l p : Fin 26} (hu : linkIsUp s l = true) (hp : portOn s l = some p)
    (hq : s.links[l].heardTick + 8 ≤ tick s) :
    ∃ w rs tr, (linkFault s l 3).bind = { s.bind with raised := rs } ∧ (linkFault s l 3).links[l].fault = w
      ∧ silenced l s = { updPort (updLink s l (fun k => Link.down 0 { k with fault := w })) p (dropInFlight (!s.links[l].required))
          with trace := tr, bind := { s.bind with raised := rs } } := by
  obtain ⟨w, rs, hf⟩ := linkFault_fields s l 3
  have hs : silenced l s = leaveUp (linkFault s l 3) l 0 := by
    rw [silenced, hu, decide_eq_true hq]
    rfl
  have hpf : portOn (linkFault s l 3) l = some p := hf ▸ hp
  obtain ⟨tr, htr⟩ := leaveUp_trace hpf 0
  have hreq : (linkFault s l 3).links[l].required = s.links[l].required := by
    rw [hf, updLink_links_self]
  refine ⟨w, rs, tr, hf ▸ rfl, ?_, ?_⟩
  · rw [hf, updLink_links_self]
  · rw [hs, htr, hreq, hf]
    have hd := updLink_updLink s l (fun k => { k with fault := w }) (Link.down 0)
    exact congrArg (fun u : State => { updPort u p (dropInFlight (!s.links[l].required)) with
      trace := tr, bind := { s.bind with raised := rs } }) hd

/-- Settles O36: what each timer of a link or a port sends, drops or reports. -/
theorem linkTimers : Obligations.LinkTimers := by
  unfold Obligations.LinkTimers
  refine ⟨fun s l p hu hp => ⟨fun hx => ?_, fun t ht hd => ?_, fun hd => ?_, fun hd => ?_, fun r t hla hr hcl hft hd hsent => ?_⟩,
    fun s l hr hc => ⟨fun p m hl hm hd => ?_, fun p m hl hm ho hd => ?_, fun hin ht hn => ?_⟩⟩
  · obtain ⟨x, hxm, hxt⟩ := hx
    have hany : s.links[l].unacked.any (fun u => decide (u.tick + 2 ≤ tick s)) = true :=
      List.any_eq_true.mpr ⟨x, hxm, decide_eq_true hxt⟩
    have hex : exec (.replayTimeout l) s = .next (replay s l) := by
      show Host.Outcome.next (if _ then replay s l else s) = _
      rw [hu, hany, Bool.and_self, if_pos rfl]
    rw [hex]
    split
    next hf => rw [replay_filled hf]
    next hf =>
      rw [replay_eq (List.ne_nil_of_mem hxm) (Bool.eq_false_iff.mpr hf)]
      rfl
  · have hex : exec (.ackTimeout l) s = .next (sendBare s l 2 false) := by
      show Host.Outcome.next (if _ then sendBare s l 2 false else s) = _
      rw [hu, ht, Option.any_some, decide_eq_true hd, Bool.and_self, if_pos rfl]
    rw [hex]
    split
    next hf => rw [sendBare_filled hf]
    next hf =>
      rw [sendBare_eq (Bool.eq_false_iff.mpr hf) hp]
      rfl
  · have hex : exec (.heartbeatTimeout l) s = .next (sendBare s l 0 false) := by
      show Host.Outcome.next (if _ then sendBare s l 0 false else s) = _
      rw [hu, decide_eq_true hd, Bool.and_self, if_pos rfl]
    rw [hex]
    split
    next hf => rw [sendBare_filled hf]
    next hf =>
      rw [sendBare_eq (Bool.eq_false_iff.mpr hf) hp]
      rfl
  · obtain ⟨w, rs, tr, hb, hw, hs⟩ := silenced_eq hu hp hd
    rw [linkFault_eq] at hb hw
    refine ⟨silenced l s, rfl, ?_⟩
    generalize silenced l s = u at hs
    have hlinks : u.links = (updLink s l (fun k => Link.down 0 { k with fault := w })).links := hs ▸ rfl
    have hports : u.ports = (updPort s p (dropInFlight (!s.links[l].required))).ports := hs ▸ rfl
    have hown : u.links[l] = Link.down 0 { s.links[l] with fault := w } := by rw [hlinks, updLink_links_self]
    have hport : u.ports[p] = dropInFlight (!s.links[l].required) s.ports[p] := by rw [hports, updPort_ports_self]
    have hbind : u.bind = { s.bind with raised := rs } := hs ▸ rfl
    have hrest : { u with links := s.links, ports := s.ports, bind := s.bind, trace := s.trace } = s := hs ▸ rfl
    refine ⟨?_, ?_, ?_, ?_, ?_, ?_, ⟨?_, ?_⟩, fun x hx => ?_, fun x hx => ?_, hrest⟩
    · rw [hown]
      rfl
    · rw [hown]
      rfl
    · rw [hport]
      rfl
    · rw [hport]
      rfl
    · rw [hport]
      rfl
    · rw [hport]
      show (if (!s.links[l].required) = true then _ else _) = _
      cases s.links[l].required
      · rfl
      · exact (BitVec.add_zero _).symm
    · exact hbind.trans hb.symm
    · rw [hown]
      exact hw.symm
    · rw [hlinks, updLink_links_ne _ _ hx]
    · rw [hports, updPort_ports_ne _ _ hx]
  · have hany : s.links[l].faultTick.any (fun t => decide (t + 16 ≤ tick s)) = true := by
      rw [hft, Option.any_some, decide_eq_true hd]
    have hown : (r.cls != 5) = true := bne_iff_ne.mpr hcl
    have hex : exec (.faultFlitResend l) s = .next (sendFault s l) := by
      show Host.Outcome.next (if _ then sendFault s l else s) = _
      rw [hu, hla, hany, decide_eq_true hsent]
      rfl
    have hbody : faultBody s r = flitBody (packFlds [(0, 4, 4)])
        (bytesLE 4 s.bind.deviceId.toNat ++ bytesLE 8 r.tick ++ bytesLE 1 r.cls ++ bytesLE 1 1) := by
      simp only [faultBody, hown, if_true]
    have hsend : sendFault s l = sendFlits s l false [faultBody s r] := by
      simp only [sendFault, hr]
    rw [hex, hsend, hbody]
    rfl
  · exact congrArg Host.Outcome.next (promiseMissed_eq hl hr hc hm (by rw [deadline_eq]; exact hd))
  · exact congrArg Host.Outcome.next (partialMissed_eq hl hr hc hm ho (by rw [deadline_eq]; exact hd))
  · have hex : exec .referenceTimeout s = .next ((List.finRange 26).foldl (fun s l => linkFault s l 6) s) := by
      show Host.Outcome.next (referenceTimeout s) = _
      rw [referenceTimeout, powered_of_computeRuns hc, hin, beq_iff_eq.mpr ht]
      rfl
    have hall := foldl_linkFault 6 (List.finRange 26) s (List.nodup_finRange 26) hc fun e he =>
      (hn e he).imp id Or.inl
    refine ⟨_, hex, fun x => ?_, hall.raised, hall.rest⟩
    have hx := hall.links x
    simp only [List.mem_finRange, true_and] at hx
    by_cases hreq : s.links[x].required = true
    · rw [if_pos hreq]
      exact hx.trans (if_pos hreq)
    · rw [if_neg hreq]
      exact hx.trans (if_neg hreq)

end Sys2Proof.Machine
end

section
/-! PROOFS. Training of links and the identity stage (O37). -/

namespace Sys2Proof.Machine

/-! ## Links that begin to train -/

/-- Leaving the up state touches the link, its port and the trace. -/
theorem leaveUp_fields (s : State) (l : Fin 26) (state : Nat) :
    ∃ ps tr, leaveUp s l state = { updLink s l (Link.down state) with ports := ps, trace := tr } := by
  cases hp : portOn s l with
  | some p =>
    obtain ⟨tr, h⟩ := leaveUp_trace hp state
    exact ⟨_, tr, h⟩
  | none =>
    have hu : leaveUp s l state =
        if s.links[l].state == 2 then linkAlarm (updLink s l (Link.down state)) l else updLink s l (Link.down state) := by
      simp only [leaveUp, portOn_updLink, hp]
    rw [hu]
    split
    · obtain ⟨tr, h⟩ := linkAlarm_trace (updLink s l (Link.down state)) l
      exact ⟨_, tr, h⟩
    · exact ⟨_, _, rfl⟩

/-- A link in training. -/
def Link.train (k : Link) : Link := { Link.down 1 k with retrains := k.retrains + 1 }

theorem beginTraining_fields {s : State} {l : Fin 26} (h : mayTrain s l = true) :
    ∃ ps tr, beginTraining s l = { updLink s l Link.train with ports := ps, trace := tr } := by
  obtain ⟨ps, tr, hl⟩ := leaveUp_fields s l 1
  refine ⟨ps, tr, ?_⟩
  rw [beginTraining, if_pos h, hl]
  exact congrArg (fun u : State => { u with ports := ps, trace := tr })
    (updLink_updLink s l (Link.down 1) (fun k => { k with retrains := k.retrains + 1 }))

theorem mayTrain_iff (s : State) (l : Fin 26) : mayTrain s l = true ↔ bandOn s l = true ∧ s.clk.present = true
    ∧ s.bind.held = false ∧ s.links[l].state ≠ 1 ∧ s.links[l].disabled = false := by
  simp only [mayTrain, Bool.and_eq_true, Bool.not_eq_true', bne_iff_ne, and_assoc]

/-! ## BACKGROUND_RETRAIN -/

/-- Links that a background retrain takes up, where they may train. -/
def Link.due (k : Link) : Bool := k.state == 0 || (k.state == 2 && k.width != 3 && !k.required)

/-- The turn of one link. -/
def retrainOne (s : State) (l : Fin 26) : State := if s.links[l].due then beginTraining s l else s

theorem retrainOne_fields (s : State) (l : Fin 26) :
    ∃ ps tr, retrainOne s l =
      { updLink s l (fun k => if s.links[l].due = true ∧ mayTrain s l = true then Link.train k else k) with
        ports := ps, trace := tr } := by
  have hid : updLink s l (fun k => k) = s := updLink_id s l rfl
  unfold retrainOne
  by_cases hd : s.links[l].due = true
  · by_cases hm : mayTrain s l = true
    · rw [if_pos hd]
      simp only [hd, hm, and_self, if_true]
      exact beginTraining_fields hm
    · simp only [hd, hm, if_true, true_and, if_false, Bool.false_eq_true, beginTraining, hid]
      exact ⟨_, _, rfl⟩
  · simp only [hd, false_and, if_false, Bool.false_eq_true, hid]
    exact ⟨_, _, rfl⟩

/-- Whether a link trains is its own matter and that of the module. -/
theorem mayTrain_congr {s u : State} {x : Fin 26} (hk : u.links[x] = s.links[x]) (hpwr : u.pwr = s.pwr) (hclk : u.clk = s.clk)
    (hbind : u.bind = s.bind) : mayTrain u x = mayTrain s x := by
  rw [mayTrain, mayTrain, hk, hclk, hbind, bandOn, bandOn, hpwr, pdOn, pdOn, hpwr]

theorem foldl_retrainOne (ls : List (Fin 26)) :
    ∀ s : State, ls.Nodup → ∀ x : Fin 26, (ls.foldl retrainOne s).links[x] =
      if x ∈ ls ∧ s.links[x].due = true ∧ mayTrain s x = true then Link.train s.links[x] else s.links[x] := by
  induction ls with
  | nil => exact fun s _ x => (if_neg fun h => absurd h.1 List.not_mem_nil).symm
  | cons a ls ih =>
    intro s hnd x
    obtain ⟨ha, hnd'⟩ := List.nodup_cons.mp hnd
    obtain ⟨ps, tr, hu⟩ := retrainOne_fields s a
    rw [List.foldl_cons, ih _ hnd' x]
    generalize retrainOne s a = u at hu
    have hlinks : u.links = (updLink s a (fun k => if s.links[a].due = true ∧ mayTrain s a = true then Link.train k else k)).links :=
      hu ▸ rfl
    by_cases hxa : x = a
    · subst hxa
      rw [if_neg fun h => ha h.1, hlinks, updLink_links_self]
      simp only [List.mem_cons, true_or, true_and]
    · have hx : u.links[x] = s.links[x] := by rw [hlinks, updLink_links_ne _ _ hxa]
      have hm : mayTrain u x = mayTrain s x := mayTrain_congr hx (hu ▸ rfl) (hu ▸ rfl) (hu ▸ rfl)
      rw [hx, hm]
      simp only [List.mem_cons, hxa, false_or]

/-! ## A training that ends -/

/-- The space that a ring grants leaves with a CTRL flit, if one goes out. -/
theorem sendGrant_fields {s : State} {l p : Fin 26} (hp : portOn s l = some p) :
    ∃ g sent t owed, sendGrant s l =
      updPort (updLink s l (fun k => { k with lastSent := sent, sentTick := t, ackOwed := owed })) p (Port.grant g) := by
  have hsame : s = updPort (updLink s l (fun k =>
      { k with lastSent := s.links[l].lastSent, sentTick := s.links[l].sentTick, ackOwed := s.links[l].ackOwed })) p (Port.grant 0) := by
    have hi : updLink s l (fun k =>
        { k with lastSent := s.links[l].lastSent, sentTick := s.links[l].sentTick, ackOwed := s.links[l].ackOwed }) = s :=
      updLink_id s l rfl
    rw [hi, updPort, Port.grant]
    exact (congrArg (fun v => { s with ports := v }) (Vector.set_getElem_self _)).symm
  simp only [sendGrant, hp]
  split
  · cases hf : faultFilled s l with
    | true => exact ⟨_, _, _, _, (sendBare_filled hf 2 false).trans hsame⟩
    | false =>
      refine ⟨grantable s l p,
        [encodeFlit (withAck s.links[l] false (flitBody (packFlds [(0, 4, 2), (40, 12, grantable s l p)]) []))], tick s, none,
        (sendBare_eq hf hp 2 false).trans ?_⟩
      exact congrArg (fun u => updPort u p (Port.grant (grantable s l p))) (updLink_congr rfl)
  · exact ⟨_, _, _, _, hsame⟩

theorem sendGrant_none {s : State} {l : Fin 26} (hp : portOn s l = none) : sendGrant s l = s := by
  simp only [sendGrant, hp]

/-- The link behind its training, up or down. -/
def Link.trained (w : Nat) (lanes : Nat) (t : Nat) (told : Option Identity) (latched : Bool) (k : Link) : Link :=
  { k.down (if w = 0 then 0 else 2) with
    width := w, laneOk := BitVec.ofNat 8 lanes, identified := k.identified, told := told, heardTick := t, sentTick := t
    faultTick := if latched then some t else none }

/-- What the end of a training leaves on the link, and the credit of its port. -/
structure TrainingEnds (s u : State) (l : Fin 26) (w lanes : Nat) : Prop where
  link : ∃ sent t owed, u.links[l] =
    { Link.trained w lanes (tick s) (if w = 0 then none else some (identityOf s l)) s.bind.latch s.links[l] with
      lastSent := sent, sentTick := t, ackOwed := owed }
  credit : ∀ p, portOn s l = some p → w ≠ 0 → u.ports[p].credit = 0
  others : ∀ x : Fin 26, x ≠ l → u.links[x] = s.links[x]
  rest : { u with links := s.links, ports := s.ports, trace := s.trace } = s

theorem endTraining_ends (s : State) (l : Fin 26) (lanes : BitVec 8) :
    let ok := lanes.toNat &&& (255 - barredLanes s l)
    TrainingEnds s (endTraining s l lanes) l (trainWidth (s.bind.stepping == 0) ok) ok := by
  intro ok
  generalize hw : trainWidth (s.bind.stepping == 0) ok = w
  have hend : endTraining s l lanes =
      (let a := updLink s l (Link.trained w ok (tick s) (if w = 0 then none else some (identityOf s l)) s.bind.latch)
       if w = 0 then a else linkAlarm (sendGrant (match portOn a l with | none => a | some p => updPort a p regrant) l) l) := by
    rw [← hw]
    rfl
  rw [hend]
  generalize ha : updLink s l (Link.trained w ok (tick s) (if w = 0 then none else some (identityOf s l)) s.bind.latch) = a
  have hown : a.links[l] = Link.trained w ok (tick s) (if w = 0 then none else some (identityOf s l)) s.bind.latch s.links[l] := by
    rw [← ha, updLink_links_self]
  have hoth : ∀ x : Fin 26, x ≠ l → a.links[x] = s.links[x] := fun x hx => by rw [← ha, updLink_links_ne _ _ hx]
  have hrest : { a with links := s.links, ports := s.ports, trace := s.trace } = s := ha ▸ rfl
  have hpo : portOn a l = portOn s l := ha ▸ rfl
  by_cases h0 : w = 0
  · simp only [h0, if_true] at hown ⊢
    exact ⟨⟨a.links[l].lastSent, a.links[l].sentTick, a.links[l].ackOwed, by rw [hown]; rfl⟩, fun p _ hc => absurd rfl hc, hoth, hrest⟩
  · simp only [h0, if_false] at hown ⊢
    cases hp : portOn s l with
    | none =>
      rw [hpo, hp]
      simp only
      rw [sendGrant_none (hpo.trans hp)]
      obtain ⟨tr, htr⟩ := linkAlarm_trace a l
      rw [htr]
      exact ⟨⟨a.links[l].lastSent, a.links[l].sentTick, a.links[l].ackOwed, by rw [if_neg h0, ← hown]⟩,
        fun p hc => absurd (hp.symm.trans hc) (by simp), hoth, hrest⟩
    | some p =>
      rw [hpo, hp]
      simp only
      have hpr : portOn (updPort a p regrant) l = some p := (portOn_updPort _ _ rfl _).trans (hpo.trans hp)
      obtain ⟨g, sent, t, owed, hg⟩ := sendGrant_fields hpr
      obtain ⟨tr, htr⟩ := linkAlarm_trace (sendGrant (updPort a p regrant) l) l
      generalize linkAlarm (sendGrant (updPort a p regrant) l) l = v at htr ⊢
      rw [hg] at htr
      have hvl : v.links = (updLink a l (fun k => { k with lastSent := sent, sentTick := t, ackOwed := owed })).links := htr ▸ rfl
      have hvp : v.ports = (updPort (updPort a p regrant) p (Port.grant g)).ports := htr ▸ rfl
      have hvr : { v with links := s.links, ports := s.ports, trace := s.trace } = s := by
        rw [htr]
        exact hrest
      refine ⟨⟨sent, t, owed, ?_⟩, fun x hx _ => ?_, fun x hx => ?_, hvr⟩
      · rw [hvl, if_neg h0, ← hown, updLink_links_self]
      · obtain rfl : p = x := Option.some.inj (hp.symm.trans hx)
        rw [hvp, updPort_updPort, updPort_ports_self]
        rfl
      · rw [hvl, updLink_links_ne _ _ hx, hoth x hx]

/-- The candidates of R383, as the statement writes them. -/
theorem trainWidth_eq (a0 : Bool) (lanes : Nat) :
    trainWidth a0 lanes =
      if lanes &&& 0xFF = 0xFF then 3 else if lanes &&& 0x0F = 0x0F ∨ lanes &&& 0xF0 = 0xF0 then 2
      else if lanes &&& 0x03 = 0x03 ∨ lanes &&& 0x0C = 0x0C ∨ lanes &&& 0x30 = 0x30 ∨ lanes &&& 0xC0 = 0xC0 ∧ a0 = false then 1
      else 0 := by
  simp only [trainWidth, Bool.or_eq_true, Bool.and_eq_true, beq_iff_eq, Bool.not_eq_true', or_assoc]

/-! ## The identity stage -/

/-- What the identity stage leaves of a link that is up and of its port. -/
structure IdentityStage (s u : State) (l p : Fin 26) : Prop where
  link : ∃ sent t owed, u.links[l] =
    { Link.startIdentity (identityOf s l) s.links[l] with lastSent := sent, sentTick := t, ackOwed := owed }
  port : ∃ g, u.ports = (updPort s p (fun po => Port.grant g (regrant (dropInFlight true po)))).ports
  rest : { u with links := s.links, ports := s.ports } = s

theorem runIdentity_stage {s : State} {l p : Fin 26} (hp : portOn s l = some p) : IdentityStage s (runIdentity s l) l p := by
  have hr : runIdentity s l = sendGrant (updPort (updLink s l (Link.startIdentity (identityOf s l))) p
      (fun po => regrant (dropInFlight true po))) l := by
    simp only [runIdentity, portOn_updLink, hp]
  have hpo : portOn (updPort (updLink s l (Link.startIdentity (identityOf s l))) p (fun po => regrant (dropInFlight true po))) l =
      some p := (portOn_updPort _ _ rfl _).trans hp
  obtain ⟨g, sent, t, owed, hg⟩ := sendGrant_fields hpo
  rw [updLink_updPort, updLink_updLink, updPort_updPort] at hg
  rw [hr, hg]
  refine ⟨⟨sent, t, owed, ?_⟩, ⟨g, rfl⟩, rfl⟩
  rw [updPort_links, updLink_links_self]

/-- What the peer has reported, on the link. -/
def Link.heardPeer (phys : Nat) (id : BitVec 32) (peerPort : Nat) (job : Word) (t : Nat) (k : Link) : Link :=
  { k with peerPhys := phys, peerId := id, peerPort := peerPort, peerJob := job, identified := true, heardTick := t }

/-- A TRAIN flit on a link in training or up: the stage anew where it was over, the report kept, and a link fault where the
topology names another peer. -/
theorem trainFlit_eq {s base : State} {l p : Fin 26} (hb : bandOn s l = true) (hst : s.links[l].state = 1 ∨ s.links[l].state = 2)
    (hbase : (if s.links[l].state = 2 ∧ s.links[l].identified = true then runIdentity s l else s) = base)
    (hp : portOn base l = some p) (phys : Nat) (id : BitVec 32) (peerPort : Nat) (job : Word) :
    let noted := updLink base l (Link.heardPeer phys id peerPort job (tick base))
    trainFlit l phys id peerPort job s =
      if base.bind.topoLoaded && !identityOk noted l p then linkFault noted l 5 else noted := by
  intro noted
  have hc : (s.links[l].state == 1 || s.links[l].state == 2) = true := by simpa using hst
  have hbase' : (if (s.links[l].state == 2 && s.links[l].identified) = true then runIdentity s l else s) = base := by
    simpa only [Bool.and_eq_true, beq_iff_eq] using hbase
  have hpn : portOn noted l = some p := hp
  simp only [trainFlit, hb, hc, Bool.and_self, Bool.not_true, Bool.false_eq_true, if_false, hbase']
  change (match portOn noted l with | none => noted | some p => _) = _
  rw [hpn]
  rfl

/-- What the identity stage does not touch. -/
structure AsBefore (s u : State) (l p : Fin 26) : Prop where
  port : portOn u l = some p
  bind : u.bind = s.bind
  required : u.links[l].required = s.links[l].required
  runs : computeRuns u = computeRuns s
  time : tick u = tick s
  peerId : u.ports[p].peerId = s.ports[p].peerId
  peerPort : u.ports[p].peerPort = s.ports[p].peerPort

theorem IdentityStage.asBefore {s u : State} {l p : Fin 26} (h : IdentityStage s u l p) (hp : portOn s l = some p) :
    AsBefore s u l p := by
  obtain ⟨⟨sent, t, owed, hlink⟩, ⟨g, hport⟩, hrest⟩ := h
  have hbind : u.bind = s.bind := (congrArg State.bind hrest :)
  have hpwr : u.pwr = s.pwr := (congrArg State.pwr hrest :)
  have hclk : u.clk = s.clk := (congrArg State.clk hrest :)
  refine ⟨?_, hbind, ?_, ?_, ?_, ?_, ?_⟩
  · rw [portOn, hport]
    exact (portOn_updPort s p rfl l).trans hp
  · rw [hlink]
    rfl
  · rw [computeRuns, computeRuns, computeUp, computeUp, hbind, hpwr]
  · rw [tick, tick, hclk]
  · rw [hport, updPort_ports_self]
    rfl
  · rw [hport, updPort_ports_self]
    rfl

/-- The links that a background retrain takes up. -/
theorem retrains_iff (s : State) (l : Fin 26) : (s.links[l].due = true ∧ mayTrain s l = true) ↔
    (s.links[l].state = 0 ∨ s.links[l].state = 2 ∧ s.links[l].width ≠ 3 ∧ s.links[l].required = false) ∧ bandOn s l = true
      ∧ s.clk.present = true ∧ s.bind.held = false ∧ s.links[l].disabled = false := by
  have hd : s.links[l].due = true ↔
      (s.links[l].state = 0 ∨ s.links[l].state = 2 ∧ s.links[l].width ≠ 3 ∧ s.links[l].required = false) := by
    simp only [Link.due, Bool.or_eq_true, Bool.and_eq_true, beq_iff_eq, bne_iff_ne, Bool.not_eq_true', and_assoc]
  rw [hd, mayTrain_iff]
  constructor
  · rintro ⟨hd, hb, hp, hh, -, hdis⟩
    exact ⟨hd, hb, hp, hh, hdis⟩
  · rintro ⟨hd, hb, hp, hh, hdis⟩
    exact ⟨hd, hb, hp, hh, by omega, hdis⟩

/-- The peer is the topology's where it reports what the topology names. -/
theorem identityOk_iff {s : State} {l p : Fin 26} {k : Link} (hl : s.links[l] = k) (hi : k.identified = true) :
    identityOk s l p = true ↔ k.peerId = s.ports[p].peerId ∧ k.peerPort = s.ports[p].peerPort ∧ k.peerJob = s.bind.job := by
  simp only [identityOk, hl, hi, Bool.true_and, Bool.and_eq_true, beq_iff_eq, and_assoc]

/-- The identity that this end reports through a port. -/
theorem identityOf_port {s : State} {l p : Fin 26} (hp : portOn s l = some p) :
    identityOf s l = { phys := l.val, deviceId := s.bind.deviceId, port := p.val, job := s.bind.job } := by
  rw [identityOf, hp]
  rfl

/-- Settles O37: how a link begins and ends its training, which links a background retrain takes up, and what a TRAIN flit
leaves. -/
theorem linkTraining : Obligations.LinkTraining := by
  unfold Obligations.LinkTraining
  refine ⟨fun s l hb hpr hh hst hd => ?_, fun s l lanes hb hst => ?_, fun s hp ht0 ht => ?_,
    fun s l p phys id peerPort job hb hst hp => ?_⟩
  · obtain ⟨ps, tr, hu⟩ := beginTraining_fields ((mayTrain_iff s l).mpr ⟨hb, hpr, hh, hst, hd⟩)
    refine ⟨beginTraining s l, rfl, ?_⟩
    generalize beginTraining s l = u at hu
    have hlinks : u.links = (updLink s l Link.train).links := hu ▸ rfl
    have hown : u.links[l] = Link.train s.links[l] := by rw [hlinks, updLink_links_self]
    rw [hown]
    refine ⟨rfl, rfl, rfl, rfl, rfl, fun x hx => ?_, hu ▸ rfl, hu ▸ rfl, hu ▸ rfl⟩
    rw [hlinks, updLink_links_ne _ _ hx]
  · intro ok pass w
    have hw : trainWidth (s.bind.stepping == 0) ok = w := by
      rw [trainWidth_eq]
      simp only [beq_eq_false_iff_ne]
      rfl
    obtain ⟨⟨sent, t, owed, hlink⟩, hcredit, hoth, hrest⟩ := endTraining_ends s l lanes
    have hex : exec (.linkTrained l lanes) s = .next (endTraining s l lanes) := by
      show Host.Outcome.next (if _ then endTraining s l lanes else s) = _
      rw [hb, beq_iff_eq.mpr hst, Bool.and_self, if_pos rfl]
    refine ⟨_, hex, ?_⟩
    generalize endTraining s l lanes = u at hlink hcredit hoth hrest
    have hw' : trainWidth (s.bind.stepping == 0) (lanes.toNat &&& (255 - barredLanes s l)) = w := hw
    rw [hw'] at hlink hcredit
    rw [hlink]
    exact ⟨rfl, rfl, rfl, rfl, rfl, hcredit, rfl, hoth, (congrArg State.quires hrest :), (congrArg State.bind hrest :),
      (congrArg State.far hrest :)⟩
  · have hex : exec .backgroundRetrain s = .next ((List.finRange 26).foldl retrainOne s) := by
      show Host.Outcome.next (backgroundRetrain s) = _
      rw [backgroundRetrain, hp, bne_iff_ne.mpr ht0, beq_iff_eq.mpr ht]
      rfl
    refine ⟨_, hex, fun l => ?_⟩
    have hl := foldl_retrainOne (List.finRange 26) s (List.nodup_finRange 26) l
    simp only [List.mem_finRange, true_and] at hl
    intro k
    by_cases hc : (k.state = 0 ∨ k.state = 2 ∧ k.width ≠ 3 ∧ k.required = false) ∧ bandOn s l = true ∧ s.clk.present = true
        ∧ s.bind.held = false ∧ k.disabled = false
    · rw [if_pos hc, hl, if_pos ((retrains_iff s l).mpr hc)]
      exact ⟨rfl, rfl⟩
    · rw [if_neg hc, hl, if_neg fun h => hc ((retrains_iff s l).mp h)]
  · intro anew base noted same
    have hbase : AsBefore s base l p := by
      by_cases ha : anew
      · have hb' : base = runIdentity s l := if_pos ha
        rw [hb']
        exact (runIdentity_stage hp).asBefore hp
      · have hb' : base = s := if_neg ha
        rw [hb']
        exact ⟨hp, rfl, rfl, rfl, rfl, rfl, rfl⟩
    have hex : exec (.trainFlit l phys id peerPort job) s =
        .next (if base.bind.topoLoaded && !identityOk noted l p then linkFault noted l 5 else noted) := by
      have ht := trainFlit_eq (base := base) hb hst rfl hbase.port phys id peerPort job
      rw [hbase.time] at ht
      exact congrArg Host.Outcome.next ht
    have hok : identityOk noted l p = true ↔ same := by
      rw [identityOk_iff (updLink_links_self base l _) rfl]
      show id = base.ports[p].peerId ∧ peerPort = base.ports[p].peerPort ∧ job = base.bind.job ↔ _
      rw [hbase.peerId, hbase.peerPort, hbase.bind]
    refine ⟨fun ha => ?_, fun hs => ?_, fun hs ht hr hc => ?_⟩
    · obtain ⟨⟨sent, t, owed, hlink⟩, ⟨g, hport⟩, hrest⟩ := runIdentity_stage hp
      have hb' : base = runIdentity s l := if_pos ha
      rw [hb', hlink, hport, updPort_ports_self]
      exact ⟨rfl, rfl, rfl, rfl, congrArg some (identityOf_port hp)⟩
    · have hnone : (base.bind.topoLoaded && !identityOk noted l p) = true → linkFault noted l 5 = noted := fun hc => by
        rw [Bool.and_eq_true, Bool.not_eq_true'] at hc
        obtain ⟨htl, hno⟩ := hc
        rw [linkFault_eq, if_neg]
        rintro ⟨hr, hc⟩
        have hr' : s.links[l].required = true := by
          rw [← hbase.required, ← hr, updLink_links_self]
        rcases hs with hs | hs | hs | hs
        · exact absurd (hok.mpr hs) (by rw [hno]; decide)
        · exact absurd (hbase.bind ▸ htl) (by rw [hs]; decide)
        · exact absurd hr' (by rw [hs]; decide)
        · exact absurd (hbase.runs.symm.trans hc) (by rw [hs]; decide)
      rw [hex]
      split
      next hc => rw [hnone hc]
      next => rfl
    · have hno : identityOk noted l p = false := Bool.eq_false_iff.mpr fun h => hs (hok.mp h)
      have hr' : noted.links[l].required = true := by
        rw [updLink_links_self]
        exact hbase.required.trans hr
      have hc' : computeRuns noted = true := hbase.runs.trans hc
      have ht' : tick noted = tick s := hbase.time
      rw [hex, hno, hbase.bind, ht, Bool.not_false, Bool.and_self, if_pos rfl, linkFault_eq, if_pos ⟨hr', hc'⟩, ht']

end Sys2Proof.Machine
end

section
/-! PROOFS. The stop of every task by the fault path, and what it does not touch. -/

namespace Sys2Proof.Machine

/-! ## What a stop does not touch -/

/-- Behind a stop of tasks: the quires, the ports, the trace and the commands in progress may differ, no more. -/
def StopFrame (s u : State) : Prop :=
  { u with quires := s.quires, ports := s.ports, trace := s.trace, far := s.far, free := s.free,
           bind := { u.bind with cmds := s.bind.cmds } } = s

theorem StopFrame.refl (s : State) : StopFrame s s := rfl

theorem StopFrame.trans {s u v : State} (h : StopFrame s u) (g : StopFrame u v) : StopFrame s v :=
  (congrArg (fun w : State => { w with quires := s.quires, ports := s.ports, trace := s.trace, far := s.far, free := s.free,
                                       bind := { w.bind with cmds := s.bind.cmds } }) g :).trans h

theorem StopFrame.bind {s u : State} (h : StopFrame s u) : { u.bind with cmds := s.bind.cmds } = s.bind :=
  (congrArg State.bind h :)
theorem StopFrame.host {s u : State} (h : StopFrame s u) : u.host = s.host := (congrArg State.host h :)
theorem StopFrame.links {s u : State} (h : StopFrame s u) : u.links = s.links := (congrArg State.links h :)
theorem StopFrame.clk {s u : State} (h : StopFrame s u) : u.clk = s.clk := (congrArg State.clk h :)
theorem StopFrame.pwr {s u : State} (h : StopFrame s u) : u.pwr = s.pwr := (congrArg State.pwr h :)
theorem StopFrame.endpapers {s u : State} (h : StopFrame s u) : u.endpapers = s.endpapers := (congrArg State.endpapers h :)

/-- A change of the trace part, of far memory and of the free values is no change of the rest. -/
theorem StopFrame.of_trace {s m u : State} (h : StopFrame s m) (g : { u with trace := m.trace, far := m.far, free := m.free } = m) :
    StopFrame s u :=
  (congrArg (fun w : State => { w with quires := s.quires, ports := s.ports, trace := s.trace, far := s.far, free := s.free,
                                       bind := { w.bind with cmds := s.bind.cmds } }) g :).trans h

theorem stopTask_frame (s : State) (q : Fin 64) (t : Fin 4) (how : Nat) : StopFrame s (stopTask s q t how) := by
  have hb : StopFrame s (if t = 0 then bookStand s q else s) := by
    split
    · unfold bookStand
      split <;> rfl
    · rfl
  unfold stopTask
  split
  · rfl
  · dsimp only
    refine StopFrame.of_trace ?_ (traceQ_rest _ q t 0)
    generalize (if t = 0 then bookStand s q else s) = m at hb
    refine hb.trans ?_
    split <;> rfl

theorem stopQuire_frame (s : State) (q : Fin 64) (how : Nat) : StopFrame s (stopQuire s q how) := by
  rw [stopQuire_eq]
  exact (((stopTask_frame s q 0 how).trans (stopTask_frame _ q 1 how)).trans (stopTask_frame _ q 2 how)).trans
    (stopTask_frame _ q 3 how)

/-- A quire without a live task has nothing to stop. -/
theorem stopQuire_idle {s : State} {q : Fin 64} (h : ∀ t : Fin 4, s.quires[q].seq.tasks[t].live = false) (how : Nat) :
    stopQuire s q how = s := by
  have ht : ∀ t : Fin 4, stopTask s q t how = s := fun t => by
    rw [stopTask, h t]
    rfl
  rw [stopQuire_eq, ht 0, ht 1, ht 2, ht 3]

/-! ## Every quire stops -/

theorem foldl_stopQuire_frame (how : Nat) (ls : List (Fin 64)) :
    ∀ s : State, StopFrame s (ls.foldl (fun s q => stopQuire s q how) s) := by
  induction ls with
  | nil => exact fun s => rfl
  | cons a ls ih =>
    intro s
    rw [List.foldl_cons]
    exact (stopQuire_frame s a how).trans (ih (stopQuire s a how))

theorem foldl_stopQuire_ne (how : Nat) {q : Fin 64} (ls : List (Fin 64)) :
    ∀ s : State, q ∉ ls → (ls.foldl (fun s q => stopQuire s q how) s).quires[q] = s.quires[q] := by
  induction ls with
  | nil => exact fun s _ => rfl
  | cons a ls ih =>
    intro s h
    rw [List.mem_cons, not_or] at h
    rw [List.foldl_cons, ih _ h.2, stopQuire_quires_ne _ _ h.1]

theorem foldl_stopQuire_stops (how : Nat) {q : Fin 64} (ls : List (Fin 64)) :
    ∀ s : State, ls.Nodup → q ∈ ls → StopsQuire s.quires[q] (ls.foldl (fun s q => stopQuire s q how) s).quires[q] := by
  induction ls with
  | nil => exact fun s _ h => absurd h List.not_mem_nil
  | cons a ls ih =>
    intro s hnd h
    obtain ⟨ha, hnd'⟩ := List.nodup_cons.mp hnd
    rw [List.foldl_cons]
    by_cases hqa : q = a
    · subst hqa
      rw [foldl_stopQuire_ne how ls _ ha]
      exact stopQuire_stops s q how
    · have hs := ih (stopQuire s a how) hnd' ((List.mem_cons.mp h).resolve_left hqa)
      rw [stopQuire_quires_ne _ _ hqa] at hs
      exact hs

theorem foldl_stopQuire_idle (how : Nat) (ls : List (Fin 64)) {s : State}
    (h : ∀ q : Fin 64, ∀ t : Fin 4, s.quires[q].seq.tasks[t].live = false) : ls.foldl (fun s q => stopQuire s q how) s = s := by
  induction ls with
  | nil => rfl
  | cons a ls ih => rw [List.foldl_cons, stopQuire_idle (h a), ih]

theorem mem_allQuires (q : Fin 64) : q ∈ allQuires := List.mem_finRange q
theorem allQuires_nodup : allQuires.Nodup := List.nodup_finRange 64

/-! ## FAULT flits begin -/

/-- A link on which FAULT flits begin, with the first of them. -/
def Link.beginFault (t : Nat) (body : List Byte) (k : Link) : Link :=
  Link.send t false [body] { k with faultTick := some t }

/-- FAULT flits begin on a link that is up. -/
def faultStart (s : State) (l : Fin 26) : State :=
  if linkIsUp s l then sendFault (updLink s l (fun k => { k with faultTick := some (tick s) })) l else s

theorem startFaultFlits_eq (s : State) : startFaultFlits s = (List.finRange 26).foldl faultStart s := rfl

theorem faultStart_eq {s : State} {f : Raised} (hf : s.bind.firstFault = some f) (l : Fin 26) :
    faultStart s l = updLink s l (fun k => if linkIsUp s l then Link.beginFault (tick s) (faultBody s f) k else k) := by
  unfold faultStart
  by_cases h : linkIsUp s l = true
  · simp only [h, if_true, sendFault, updLink_bind, hf, sendFlits_eq, updLink_updLink]
    rfl
  · simp only [h, if_false, Bool.false_eq_true]
    exact (updLink_id s l rfl).symm

theorem foldl_faultStart {f : Raised} (ls : List (Fin 26)) :
    ∀ s : State, s.bind.firstFault = some f → ls.Nodup →
      { ls.foldl faultStart s with links := s.links } = s
      ∧ ∀ x : Fin 26, (ls.foldl faultStart s).links[x] =
          if x ∈ ls ∧ linkIsUp s x = true then Link.beginFault (tick s) (faultBody s f) s.links[x] else s.links[x] := by
  induction ls with
  | nil => exact fun s _ _ => ⟨rfl, fun x => (if_neg fun h => absurd h.1 List.not_mem_nil).symm⟩
  | cons a ls ih =>
    intro s hf hnd
    obtain ⟨ha, hnd'⟩ := List.nodup_cons.mp hnd
    have hs := faultStart_eq hf a
    rw [List.foldl_cons]
    generalize faultStart s a = u at hs
    have hfu : u.bind.firstFault = some f := hs ▸ hf
    have htick : tick u = tick s := hs ▸ rfl
    have hbody : faultBody u f = faultBody s f := hs ▸ rfl
    have hrest : { u with links := s.links } = s := hs ▸ rfl
    have hband : ∀ x : Fin 26, bandOn u x = bandOn s x := fun x => hs ▸ rfl
    obtain ⟨hr, hl⟩ := ih u hfu hnd'
    refine ⟨(congrArg (fun v : State => { v with links := s.links }) hr :).trans hrest, fun x => ?_⟩
    rw [hl x, htick, hbody]
    by_cases hxa : x = a
    · subst hxa
      rw [if_neg fun h => ha h.1, hs, updLink_links_self]
      simp only [List.mem_cons, true_or, true_and]
    · have hx : u.links[x] = s.links[x] := by rw [hs, updLink_links_ne _ _ hxa]
      have hup : linkIsUp u x = linkIsUp s x := by rw [linkIsUp, linkIsUp, hband, hx]
      rw [hx, hup]
      simp only [List.mem_cons, hxa, false_or]

theorem foldl_faultStart_down (ls : List (Fin 26)) {s : State} (h : ∀ l : Fin 26, linkIsUp s l = false) : ls.foldl faultStart s = s := by
  induction ls with
  | nil => rfl
  | cons a ls ih => rw [List.foldl_cons, faultStart, h a, if_neg Bool.false_ne_true, ih]

end Sys2Proof.Machine
end

section
/-! PROOFS. The fault path: which fault reaches the latch, and what the faults of no instruction leave (O38 O40). -/

namespace Sys2Proof.Machine

/-! ## Which fault comes first (R447 R448) -/

/-- The precedence of the statements. -/
theorem classRank_eq (c : Nat) : classRank c =
    if c = 1 then 0 else if c = 2 then 1 else if 6 ≤ c ∧ c ≤ 9 then 2 else if c = 3 then 3 else if c = 4 ∨ c = 5 then 4 else 5 := by
  unfold classRank
  split
  iterate 9 rfl
  next h1 h2 h6 h7 h8 h9 h3 h4 h5 =>
    have e1 : c ≠ 1 := h1
    have e2 : c ≠ 2 := h2
    have e6 : c ≠ 6 := h6
    have e7 : c ≠ 7 := h7
    have e8 : c ≠ 8 := h8
    have e9 : c ≠ 9 := h9
    have e3 : c ≠ 3 := h3
    have e4 : c ≠ 4 := h4
    have e5 : c ≠ 5 := h5
    rw [if_neg e1, if_neg e2, if_neg (by omega), if_neg e3, if_neg (by omega)]

/-- The number by which faults of one rank are ordered: the quire, or the link. -/
def Raised.num (f : Raised) : Nat := (f.quire.map (·.val)).getD f.link

theorem raisedBefore_iff (a b : Raised) : raisedBefore a b = true ↔ a.tick < b.tick ∨ a.tick = b.tick ∧
    (classRank a.cls < classRank b.cls ∨ classRank a.cls = classRank b.cls ∧ a.num < b.num) := by
  simp only [raisedBefore, Bool.or_eq_true, Bool.and_eq_true, decide_eq_true_eq, beq_iff_eq]
  rfl

/-- One step of the search for the first fault. -/
def firstOf (best : Option (Raised × Nat)) (p : Raised × Nat) : Option (Raised × Nat) :=
  match best with
  | none => some p
  | some b => if raisedBefore p.1 b.1 then some p else best

/-- The search keeps what holds of every fault that it has met. -/
theorem foldl_firstOf_holds {P : Raised → Prop} (l : List (Raised × Nat)) :
    ∀ best : Option (Raised × Nat), (∀ b, best = some b → P b.1) → (∀ p ∈ l, P p.1) → ∀ b, l.foldl firstOf best = some b → P b.1 := by
  induction l with
  | nil => exact fun best hb _ => hb
  | cons p l ih =>
    intro best hb hp
    refine ih _ ?_ fun x hx => hp x (List.mem_cons_of_mem _ hx)
    intro b hbest
    cases best with
    | none => exact Option.some.inj hbest ▸ hp p (List.mem_cons_self ..)
    | some c =>
      simp only [firstOf] at hbest
      split at hbest
      · exact Option.some.inj hbest ▸ hp p (List.mem_cons_self ..)
      · exact hb b hbest

/-- It stays with a fault that no later one comes before. -/
theorem foldl_firstOf_stays {p : Raised × Nat} (l : List (Raised × Nat)) (h : ∀ x ∈ l, raisedBefore x.1 p.1 = false) :
    l.foldl firstOf (some p) = some p := by
  induction l with
  | nil => rfl
  | cons x l ih =>
    have hx : firstOf (some p) x = some p := by
      simp only [firstOf, h x (List.mem_cons_self ..), Bool.false_eq_true, if_false]
    rw [List.foldl_cons, hx]
    exact ih fun y hy => h y (List.mem_cons_of_mem _ hy)

theorem nextRaised_eq {pre post : List Raised} {f : Raised} (hpre : ∀ r ∈ pre, raisedBefore f r = true)
    (hpost : ∀ r ∈ post, raisedBefore r f = false) : nextRaised (pre ++ f :: post) = pre.length := by
  have hn : nextRaised (pre ++ f :: post) = (((pre ++ f :: post).zipIdx.foldl firstOf none).map (·.2)).getD 0 := rfl
  have hfst : ∀ (l : List Raised) (k : Nat), ∀ p ∈ l.zipIdx k, p.1 ∈ l := fun l k p hp => by
    obtain ⟨r, i⟩ := p
    exact (List.mem_zipIdx hp).2.2 ▸ List.getElem_mem _
  have hf : firstOf (pre.zipIdx.foldl firstOf none) (f, pre.length) = some (f, pre.length) := by
    cases hb : pre.zipIdx.foldl firstOf none with
    | none => rfl
    | some b =>
      have hbf : raisedBefore f b.1 = true :=
        foldl_firstOf_holds (P := fun r => raisedBefore f r = true) pre.zipIdx none (fun b h => absurd h (by simp))
          (fun p hp => hpre _ (hfst pre 0 p hp)) b hb
      simp only [firstOf, hbf, if_true]
  rw [hn, List.zipIdx_append, List.foldl_append, Nat.zero_add, List.zipIdx_cons, List.foldl_cons, hf,
    foldl_firstOf_stays _ fun x hx => hpost _ (hfst post _ x hx)]
  rfl

/-- The first fault leaves those on their way and reaches the latch. -/
theorem takeOldest_eq {s : State} {pre post : List Raised} {f : Raised} (h : s.bind.raised = pre ++ f :: post)
    (hpre : ∀ r ∈ pre, raisedBefore f r = true) (hpost : ∀ r ∈ post, raisedBefore r f = false) :
    takeOldest s = takeFaultNow f { s with bind := { s.bind with raised := pre ++ post } } := by
  have hget : (pre ++ f :: post)[pre.length]? = some f := by simp
  have herase : (pre ++ f :: post).eraseIdx pre.length = pre ++ post := by
    rw [List.eraseIdx_append_of_length_le (le_refl _), Nat.sub_self, List.eraseIdx_cons_zero]
  simp only [takeOldest, h, nextRaised_eq hpre hpost, hget, herase]

/-! ## The latch -/

/-- The bindery behind a fault that has reached the latch: counted. -/
def Bindery.counted (b : Bindery) : Bindery :=
  { b with faultCount := BitVec.ofNat 32 (satAdd 32 b.faultCount.toNat 1), resetFault := b.resetFault || b.resetTick.isSome }

/-- A fault beside one that holds the latch is counted. -/
theorem takeFaultNow_latched {s : State} (h : s.bind.latch = true) (f : Raised) :
    takeFaultNow f s = { s with bind := s.bind.counted } := by
  rw [takeFaultNow]
  exact if_pos h

/-- The latch with a first fault. -/
def latched (f : Raised) (s : State) : State :=
  { s with bind := { s.bind.counted with latch := true, faultN := true, firstFault := some f }
           host := { s.host with faultBit := true } }

theorem takeFaultNow_first {s : State} (h : s.bind.latch = false) (f : Raised) :
    takeFaultNow f s = if resetBeforeUp (latched f s) then latched f s
      else startFaultFlits (allQuires.foldl (fun s q => stopQuire s q 3) (latched f s)) := by
  have hn : ¬ s.bind.latch = true := by rw [h]; decide
  rw [takeFaultNow]
  exact if_neg hn

/-- What the first fault leaves outside a reset. -/
structure IncidentBegins (s u : State) (f : Raised) : Prop where
  bind : { u.bind with cmds := s.bind.cmds } = (latched f s).bind
  host : u.host = (latched f s).host
  quires : ∀ q : Fin 64, StopsQuire s.quires[q] u.quires[q]
  links : ∃ body, ∀ l : Fin 26, u.links[l] =
    if linkIsUp s l = true then Link.beginFault (tick s) body s.links[l] else s.links[l]
  clk : u.clk = s.clk
  endpapers : u.endpapers = s.endpapers

/-- FAULT flits begin behind the stops. -/
theorem incidentBegins_of {s m : State} {f : Raised} (hfr : StopFrame (latched f s) m)
    (hq : ∀ q : Fin 64, StopsQuire (latched f s).quires[q] m.quires[q]) : IncidentBegins s (startFaultFlits m) f := by
  have hff : m.bind.firstFault = some f := (congrArg Bindery.firstFault hfr.bind :)
  obtain ⟨hrest, hl⟩ := foldl_faultStart (List.finRange 26) m hff (List.nodup_finRange 26)
  rw [← startFaultFlits_eq] at hrest hl
  generalize startFaultFlits m = u at hrest hl
  have hquires : u.quires = m.quires := (congrArg State.quires hrest :)
  have hbind : u.bind = m.bind := (congrArg State.bind hrest :)
  have hup : ∀ l : Fin 26, linkIsUp m l = linkIsUp s l := fun l => by
    rw [linkIsUp, linkIsUp, bandOn, bandOn, pdOn, pdOn, hfr.pwr, hfr.links]
    rfl
  have htick : tick m = tick s := congrArg (fun c : Clk => c.stitch.toNat) hfr.clk
  refine ⟨?_, (congrArg State.host hrest :).trans hfr.host, fun q => ?_, ⟨faultBody m f, fun l => ?_⟩,
    (congrArg State.clk hrest :).trans hfr.clk, (congrArg State.endpapers hrest :).trans hfr.endpapers⟩
  · rw [hbind]
    exact hfr.bind
  · rw [hquires]
    exact hq q
  · have hx := hl l
    simp only [List.mem_finRange, true_and] at hx
    rw [hx, hup, hfr.links, htick]
    rfl

theorem takeFaultNow_begins {s : State} (h : s.bind.latch = false) (hr : s.bind.resetTick = none) (f : Raised) :
    IncidentBegins s (takeFaultNow f s) f := by
  have hb : resetBeforeUp (latched f s) = false := by
    rw [resetBeforeUp, show (latched f s).bind.resetTick = none from hr]
    rfl
  rw [takeFaultNow_first h, hb, if_neg Bool.false_ne_true]
  exact incidentBegins_of (foldl_stopQuire_frame 3 allQuires (latched f s)) fun q =>
    foldl_stopQuire_stops 3 allQuires (latched f s) allQuires_nodup (mem_allQuires q)

/-! ## The sites of a folio (R19 R125) -/

/-- Quire q stands at a site of folio g. -/
def StandsAt (s : State) (q : Fin 64) (g : Fin 16) (n : Nat) : Prop :=
  q.val / 4 = g.val ∧ siteOf (fld s.bind.fenceMap (3 * g.val) 3) q = n

theorem mem_quiresAt {s : State} {g : Fin 16} {pick : Nat → Bool} {q : Fin 64} :
    q ∈ quiresAt s g pick ↔ ∃ n, StandsAt s q g n ∧ pick n = true := by
  simp only [quiresAt, List.mem_filter, Bool.and_eq_true, beq_iff_eq, StandsAt]
  constructor
  · rintro ⟨-, hf, hp⟩
    exact ⟨_, ⟨congrArg Fin.val hf, rfl⟩, hp⟩
  · rintro ⟨n, ⟨hf, rfl⟩, hp⟩
    exact ⟨mem_allQuires q, Fin.ext hf, hp⟩

/-- One quire stands at a site. -/
theorem StandsAt.unique {s : State} {q c : Fin 64} {g : Fin 16} {n : Nat} (hq : StandsAt s q g n) (hc : StandsAt s c g n) :
    c = q := by
  obtain ⟨hq4, hqs⟩ := hq
  obtain ⟨hc4, hcs⟩ := hc
  unfold siteOf at hqs hcs
  apply Fin.ext
  split at hqs <;> split at hcs <;> omega

theorem quiresAt_single {s : State} {q : Fin 64} {g : Fin 16} {site : Nat} (h : StandsAt s q g site) :
    quiresAt s g (fun n => n == site) = [q] := by
  refine filter_singleton allQuires_nodup (mem_allQuires q) fun c _ => ?_
  constructor
  · intro hc
    simp only [Bool.and_eq_true, beq_iff_eq] at hc
    exact h.unique ⟨congrArg Fin.val hc.1, hc.2⟩
  · rintro rfl
    simp only [Bool.and_eq_true, beq_iff_eq]
    exact ⟨Fin.ext h.1, h.2⟩

theorem quiresAt_none {s : State} {g : Fin 16} {site : Nat} (h : ∀ q, ¬ StandsAt s q g site) :
    quiresAt s g (fun n => n == site) = [] := by
  refine List.eq_nil_iff_forall_not_mem.mpr fun q hq => ?_
  obtain ⟨n, hn, he⟩ := mem_quiresAt.mp hq
  exact h q (beq_iff_eq.mp he ▸ hn)

/-- A fenced site has no quire. -/
theorem not_standsAt_fenced {s : State} {g : Fin 16} {site : Nat} (h : fld s.bind.fenceMap (3 * g.val) 3 = site) (q : Fin 64) :
    ¬ StandsAt s q g site := by
  rintro ⟨-, hs⟩
  rw [h, siteOf] at hs
  split at hs <;> omega

/-- The sites beside one. -/
def besideSite (site n : Nat) : Bool := n + 1 == site || n == site + 1

/-- Beside a fenced site stands a quire. -/
theorem quiresAt_beside {s : State} {g : Fin 16} {site : Fin 5} (h : fld s.bind.fenceMap (3 * g.val) 3 = site.val) :
    quiresAt s g (besideSite site.val) ≠ [] := by
  have hg := g.isLt
  have hs := site.isLt
  by_cases h0 : site.val = 0
  · refine List.ne_nil_of_mem (a := (⟨4 * g.val, by omega⟩ : Fin 64)) (mem_quiresAt.mpr ⟨1, ⟨?_, ?_⟩, ?_⟩)
    · show 4 * g.val / 4 = g.val
      omega
    · rw [h, siteOf, if_neg (by simp only; omega)]
      show 4 * g.val % 4 + 1 = 1
      omega
    · rw [h0]
      rfl
  · refine List.ne_nil_of_mem (a := (⟨4 * g.val + (site.val - 1), by omega⟩ : Fin 64))
      (mem_quiresAt.mpr ⟨site.val - 1, ⟨?_, ?_⟩, ?_⟩)
    · show (4 * g.val + (site.val - 1)) / 4 = g.val
      omega
    · rw [h, siteOf, if_pos (by simp only; omega)]
      show (4 * g.val + (site.val - 1)) % 4 = site.val - 1
      omega
    · simp only [besideSite, Bool.or_eq_true, beq_iff_eq]
      omega

theorem recordingStop_own {s : State} {q : Fin 64} {g : Fin 16} {site : Fin 5} (h : StandsAt s q g site.val) :
    recordingStop s g site = (some q, s) := by
  simp only [recordingStop, quiresAt_single h]

/-- A fenced site's error is recorded by a stop beside it. -/
theorem recordingStop_beside {s : State} {g : Fin 16} {site : Fin 5} (h : fld s.bind.fenceMap (3 * g.val) 3 = site.val) :
    ∃ q ∈ quiresAt s g (besideSite site.val), ∃ n, recordingStop s g site = (some q, { s with free := n }) := by
  have hown : quiresAt s g (fun n => n == site.val) = [] := quiresAt_none fun q => not_standsAt_fenced h q
  have hne := quiresAt_beside h
  have hrec : recordingStop s g site = match quiresAt s g (besideSite site.val) with
      | [] => (none, s)
      | [q] => (some q, s)
      | q :: p :: _ => (some (if (Config.freeBits s.free).getLsbD 0 then q else p), { s with free := s.free + 1 }) := by
    have hb : quiresAt s g (fun n => n + 1 == site.val || n == site.val + 1) = quiresAt s g (besideSite site.val) := rfl
    simp only [recordingStop, hown, hb]
    match quiresAt s g (besideSite site.val) with
    | [] => rfl
    | [q] => rfl
    | q :: p :: l => rfl
  rw [hrec]
  match hb : quiresAt s g (besideSite site.val) with
  | [] => exact absurd hb hne
  | [q] => exact ⟨q, List.mem_singleton_self q, s.free, rfl⟩
  | q :: p :: l =>
    refine ⟨_, ?_, s.free + 1, rfl⟩
    split
    · exact List.mem_cons_self ..
    · exact List.mem_cons_of_mem _ (List.mem_cons_self ..)

/-! ## A parity error in a slot -/

/-- The fault that a quire raises without an instruction. -/
def quireRaise (s : State) (q : Fin 64) (cls : Nat) : Raised :=
  { cls := cls, quire := some q, link := 0, originClass := 0, originId := 0, tick := tick s }

/-- RSTOP.FAULT of a quire with a parity error. -/
def recordParity (k : Quire) : Quire :=
  { k with rstop := { k.rstop with fault := if bit k.rstop.fault 6 then k.rstop.fault else packFlds [(0, 4, 3), (6, 1, 1)] } }

theorem recordFault_parity (k : Quire) : recordFault k .rstop 3 0 = recordParity k := by
  have hz : fld (setFld 0 0 4 3) 4 2 = 0 := by
    rw [fld_setFld_of_disjoint _ _ (Or.inl (by omega))]
    rfl
  have hw : packFlds ([(0, 4, 3), (4, 2, (0 : Fin 4).val), (6, 1, 1)] ++ []) = packFlds [(0, 4, 3), (6, 1, 1)] := by
    show setFld (setFld (setFld 0 0 4 3) 4 2 0) 6 1 1 = _
    rw [setFld_zero_of_clear hz]
    rfl
  simp only [recordFault, firstFault, hw]
  rfl

theorem raiseQuire_idle {s : State} {q : Fin 64} (h : ∀ t : Fin 4, s.quires[q].seq.tasks[t].live = false) (cls : Nat) :
    raiseQuire s q cls = { s with bind := { s.bind with raised := s.bind.raised ++ [quireRaise s q cls] } } := by
  rw [raiseQuire, stopQuire_idle h]
  rfl

/-- A parity error of a slot at the stop of quire q. -/
theorem slotParity_own {s : State} {q : Fin 64} {g : Fin 16} {site : Fin 5} {back : Bool} (hc : computeUp s = true)
    (hq : StandsAt s q g site.val) (hp : slotPasses s q back 0 = true) :
    slotParity g site back s = raiseQuire (updQ s q recordParity) q 2 := by
  have hf : updQ s q (fun qr => recordFault qr .rstop 3 0) = updQ s q recordParity := updQ_congr (recordFault_parity _)
  simp only [slotParity, hc, recordingStop_own hq, quiresAt_single hq, List.isEmpty_cons, Bool.not_true, Bool.false_eq_true, if_false,
    hp, if_true, hf]

theorem slotParity_beside {s : State} {g : Fin 16} {site : Fin 5} {back : Bool} (hc : computeUp s = true)
    (h : fld s.bind.fenceMap (3 * g.val) 3 = site.val)
    (hp : ∀ q ∈ quiresAt s g (besideSite site.val), slotPasses s q back 1 = true) :
    ∃ q ∈ quiresAt s g (besideSite site.val), ∃ n,
      slotParity g site back s = raiseQuire (updQ { s with free := n } q recordParity) q 2 := by
  obtain ⟨q, hq, n, hr⟩ := recordingStop_beside h
  refine ⟨q, hq, n, ?_⟩
  have hown : quiresAt s g (fun n => n == site.val) = [] := quiresAt_none fun q => not_standsAt_fenced h q
  have hpn : slotPasses { s with free := n } q back 1 = true := hp q hq
  have hf : updQ { s with free := n } q (fun qr => recordFault qr .rstop 3 0) = updQ { s with free := n } q recordParity :=
    updQ_congr (recordFault_parity _)
  simp only [slotParity, hc, hr, hown, List.isEmpty_nil, Bool.not_true, Bool.false_eq_true, if_false, if_true, hpn, hf]

/-- What such an error leaves of its quire. -/
theorem raiseQuire_parity (s : State) (q : Fin 64) :
    (raiseQuire (updQ s q recordParity) q 2).quires[q].rstop.fault =
      (if bit s.quires[q].rstop.fault 6 then s.quires[q].rstop.fault else packFlds [(0, 4, 3), (6, 1, 1)])
    ∧ ∀ t : Fin 4, (raiseQuire (updQ s q recordParity) q 2).quires[q].seq.tasks[t].live = false := by
  have hk := (stopQuire_keepsFaults (updQ s q recordParity) q 3 q).regs
  have hs := (stopQuire_stops (updQ s q recordParity) q 3).live
  rw [updQ_quires_self] at hk
  unfold raiseQuire
  generalize stopQuire (updQ s q recordParity) q 3 = m at hk hs
  simp only [Quire.faultRegs, Prod.mk.injEq] at hk
  exact ⟨hk.2.1, hs⟩

/-- Settles O38: the first fault in precedence reaches the latch; the ring stop that a slot passes, or of a fenced site one beside
it, records its parity error. -/
theorem faultReachesLatch : Obligations.FaultReachesLatch := by
  unfold Obligations.FaultReachesLatch
  refine ⟨fun s pre post f => ?_, fun s g site back => ?_⟩
  · intro b count rank num before hp hraised hpre hpost
    have hb : ∀ x y : Raised, raisedBefore x y = true ↔ before x y := fun x y => by
      rw [raisedBefore_iff, classRank_eq, classRank_eq]
      rfl
    have htake := takeOldest_eq hraised (fun r hr => (hb f r).mpr (hpre r hr))
      fun r hr => Bool.eq_false_iff.mpr fun h => hpost r hr ((hb r f).mp h)
    have hex : exec (.faultPath .raised) s = .next (takeOldest b) := by
      show Host.Outcome.next (faultPath .raised b) = _
      simp only [faultPath, hp, Bool.not_true, Bool.false_eq_true, if_false]
    rw [hex, htake]
    clear_value b
    refine ⟨fun hl => ?_, fun hl hr => ?_⟩
    · exact congrArg Host.Outcome.next
        (takeFaultNow_latched (s := { b with bind := { b.bind with raised := pre ++ post } }) hl f)
    · have hi := takeFaultNow_begins (s := { b with bind := { b.bind with raised := pre ++ post } }) hl hr f
      refine ⟨_, rfl, ?_⟩
      generalize takeFaultNow f { b with bind := { b.bind with raised := pre ++ post } } = u at hi
      obtain ⟨hbind, hhost, hquires, ⟨body, hlinks⟩, hclk, hends⟩ := hi
      refine ⟨(congrArg Bindery.latch hbind :), (congrArg Bindery.faultN hbind :), (congrArg Bindery.firstFault hbind :),
        (congrArg Bindery.raised hbind :), (congrArg Bindery.faultCount hbind :), congrArg HostIf.faultBit hhost,
        fun q t => ⟨(hquires q).live t, (hquires q).pc t⟩, fun q => (hquires q).mem, fun l => ?_, hclk, hends⟩
      have hx : u.links[l] = if linkIsUp b l = true then Link.beginFault (tick b) body b.links[l] else b.links[l] := hlinks l
      by_cases hup : linkIsUp b l = true
      · rw [if_pos hup, hx, if_pos hup]
        exact ⟨rfl, rfl, rfl⟩
      · rw [if_neg hup, hx, if_neg hup]
  · intro b fenced standsAt beside found hc hl
    have hp : b.pwr.powered = true := by
      simp only [computeUp, Bool.and_eq_true] at hc
      exact hc.1.1
    have hex : exec (.faultPath (.slotParity g site back)) s = .next (slotParity g site back b) := by
      show Host.Outcome.next (faultPath (.slotParity g site back) b) = _
      simp only [faultPath, hp, Bool.not_true, Bool.false_eq_true, if_false]
    clear_value b
    refine ⟨fun q hq hs => ?_, fun hfen hs => ?_⟩
    · have hpar := raiseQuire_parity b q
      have hu := hex.trans (congrArg Host.Outcome.next (slotParity_own hc hq hs))
      generalize raiseQuire (updQ b q recordParity) q 2 = u at hpar hu
      exact ⟨u, hu, hpar⟩
    · obtain ⟨q, hq, n, hpar⟩ := slotParity_beside (back := back) hc hfen fun q hq => by
        obtain ⟨k, hk, hbk⟩ := mem_quiresAt.mp hq
        simp only [besideSite, Bool.or_eq_true, beq_iff_eq] at hbk
        exact hs q k hk hbk
      obtain ⟨k, hk, hbk⟩ := mem_quiresAt.mp hq
      simp only [besideSite, Bool.or_eq_true, beq_iff_eq] at hbk
      have hfault := raiseQuire_parity { b with free := n } q
      have hu := hex.trans (congrArg Host.Outcome.next hpar)
      generalize raiseQuire (updQ { b with free := n } q recordParity) q 2 = u at hfault hu
      exact ⟨q, k, u, hk, hbk, hu, hfault⟩

end Sys2Proof.Machine
end

section
/-! PROOFS. FAULT_PATH from a state in which nothing is in flight (O40). -/

namespace Sys2Proof.Machine

/-! ## The turns passed before an issue -/

theorem passWindow_fault (n : Nat) (sq : SeqUnit) (f b : Nat) {r : SeqUnit × Nat × Nat} (h : passWindow n sq f b = some r) :
    r.1.fault = sq.fault := by
  induction n generalizing sq f with
  | zero =>
    obtain rfl := Option.some.inj h
    rfl
  | succ n ih =>
    simp only [passWindow] at h
    split at h
    · obtain rfl := Option.some.inj h
      rfl
    · split at h
      · cases h
      · exact (ih (afterTurn _ sq) (f + 1) h).trans rfl

theorem seekTurn_fault (t : Fin 4) (n : Nat) (sq : SeqUnit) (f : Nat) {r : SeqUnit × Nat} (h : seekTurn t n sq f = some r) :
    r.1.fault = sq.fault := by
  induction n generalizing sq f with
  | zero => cases h
  | succ n ih =>
    simp only [seekTurn] at h
    split at h
    · cases h
    · split at h
      · obtain rfl := Option.some.inj h
        rfl
      · split at h
        · cases h
        · exact (ih (afterTurn _ sq) (f + 1) h).trans rfl

/-- The turns passed change the sequencer's time and rotation, not its FAULT register, and of the other units none. -/
theorem atTurn_rest {qr k : Quire} {t : Fin 4} (h : atTurn qr t = some k) :
    k.seq.fault = qr.seq.fault ∧ k.mem = qr.mem ∧ k.flight = qr.flight := by
  simp only [atTurn] at h
  split at h
  · obtain ⟨r, hr, rfl⟩ := Option.map_eq_some_iff.1 h
    exact ⟨passWindow_fault _ _ _ _ hr, rfl, rfl⟩
  · split at h
    · obtain ⟨r, hr, rfl⟩ := Option.map_eq_some_iff.1 h
      exact ⟨seekTurn_fault _ _ _ _ hr, rfl, rfl⟩
    · cases h

/-- The quire in the issue lc of a task: its memories, its effects in flight, SEQ.FAULT and the PCs are those of before. -/
theorem atIssue_rest {s : State} {q : Fin 64} {t : Fin 4} (h : (atTurn s.quires[q] t).isSome = true) :
    (atIssue s q t).quires[q].mem = s.quires[q].mem ∧ (atIssue s q t).quires[q].flight = s.quires[q].flight
      ∧ (atIssue s q t).quires[q].seq.fault = s.quires[q].seq.fault
      ∧ ∀ k : Fin 4, (atIssue s q t).quires[q].seq.tasks[k].pc = s.quires[q].seq.tasks[k].pc := by
  obtain ⟨k, hk⟩ := Option.isSome_iff_exists.mp h
  obtain ⟨hfault, hmem, hflight⟩ := atTurn_rest hk
  have htasks := atTurn_tasks hk
  rw [atIssue, updQ_quires_self, hk, Option.getD_some]
  refine ⟨hmem, hflight, hfault, fun i => ?_⟩
  show (updTask k t (fun tk => settleLoads k.seq.lc (settleRegs k.seq.lc tk))).seq.tasks[i].pc = _
  rw [← htasks]
  by_cases hi : i = t
  · subst hi
    rw [updTask_task_self]
    rfl
  · rw [updTask_task_ne _ _ hi]

theorem atIssue_quires_ne (s : State) {q b : Fin 64} (t : Fin 4) (h : b ≠ q) : (atIssue s q t).quires[b] = s.quires[b] :=
  updQ_quires_ne s _ h

/-! ## A fault that no instruction raises at its issue -/

theorem raiseFault_bind (s : State) (q : Fin 64) (t : Fin 4) (cls : Nat) :
    (raiseFault s q t cls).bind.faultCount = s.bind.faultCount ∧ (raiseFault s q t cls).bind.latch = s.bind.latch := by
  have hf := stopQuire_frame (traceQ s q t 5) q 3
  have hb := hf.bind
  rw [traceQ_bind] at hb
  unfold raiseFault
  dsimp only
  generalize stopQuire (traceQ s q t 5) q 3 = m at hb
  exact ⟨(congrArg Bindery.faultCount hb :), (congrArg Bindery.latch hb :)⟩

theorem programFault_bind (s : State) (q : Fin 64) (t : Fin 4) (r : FaultReg) (cause : Nat) :
    (programFault s q t r cause).bind.faultCount = s.bind.faultCount ∧ (programFault s q t r cause).bind.latch = s.bind.latch :=
  raiseFault_bind (updQ s q (fun qr => recordFault qr r cause t)) q t 7

/-- A fault of the sequencer at an issue behind which nothing is in flight. -/
structure IssueFaults (s u : State) (q : Fin 64) (t : Fin 4) (cause : Nat) : Prop where
  fault : u.quires[q].seq.fault = if bit s.quires[q].seq.fault 6 then s.quires[q].seq.fault else
    packFlds [(0, 4, cause), (4, 2, t.val), (6, 1, 1), (7, 13, (s.quires[q].seq.tasks[t].pc).toNat)]
  state : u.quires[q].seq.tasks[t].state = .faulted
  tasks : ∀ k : Fin 4, u.quires[q].seq.tasks[k].live = false ∧ u.quires[q].seq.tasks[k].pc = s.quires[q].seq.tasks[k].pc
  mem : u.quires[q].mem = s.quires[q].mem
  others : ∀ b : Fin 64, b ≠ q → u.quires[b] = s.quires[b]
  raised : u.bind.raised = s.bind.raised ++ [quireRaise s q 7]
  count : u.bind.faultCount = s.bind.faultCount
  latch : u.bind.latch = s.bind.latch

theorem issueFault_faults {s : State} {q : Fin 64} {t : Fin 4} (h : s.quiet) (ht : (atTurn s.quires[q] t).isSome = true) (cause : Nat) :
    IssueFaults s (issueFault s q t .seq cause) q t cause := by
  obtain ⟨hmem, hflight, hfault, hpc⟩ := atIssue_rest ht
  have hoth := fun (b : Fin 64) (hb : b ≠ q) => atIssue_quires_ne s t hb
  have hq : (atIssue s q t).quiet := fun b => by
    by_cases hb : b = q
    · rw [hb, hflight]
      exact h q
    · rw [hoth b hb]
      exact h b
  have hset : issueFault s q t .seq cause = programFault (atIssue s q t) q t .seq cause :=
    settle_quiet (programFault_quiet hq q t .seq cause) _
  have hfaulted := programFault_faulted (atIssue s q t) q t .seq cause
  have hbind := programFault_bind (atIssue s q t) q t .seq cause
  rw [hset]
  generalize programFault (atIssue s q t) q t .seq cause = u at hfaulted hbind
  obtain ⟨hst, hl, -, hpcs, -, hm, -, ho, hr, hf, -⟩ := hfaulted
  obtain ⟨hcount, hlatch⟩ := hbind
  refine ⟨?_, hst, fun k => ⟨hl k, (hpcs k).trans (hpc k)⟩, hm.trans hmem, fun b hb => (ho b hb).trans (hoth b hb), hr, hcount, hlatch⟩
  rw [hf, ← hfault, ← hpc t]
  rfl

/-! ## Where nothing is raised, or one fault -/

theorem State.still.quiet {s : State} (h : s.still) : s.quiet := fun b => (h b).1

theorem faultPath_of_still {s : State} (h : s.still) (hp : s.pwr.powered = true) (src : FaultSource) :
    exec (.faultPath src) s = .next (match src with
      | .raised => takeOldest s
      | .unlistedOpcode q t => unlistedFault q t s
      | .fetchPast q t => fetchFault q t s
      | .slotParity f site back => slotParity f site back s
      | .site f site => siteFault f site s) := by
  show Host.Outcome.next (faultPath src (catchUp s)) = _
  rw [catchUp_still h]
  simp only [faultPath, hp, Bool.not_true, Bool.false_eq_true, if_false] <;> rfl

theorem takeOldest_none {s : State} (h : s.bind.raised = []) : takeOldest s = s := by
  simp only [takeOldest, h, List.getElem?_nil]

/-- The latch of a module in which nothing runs and no link is up. -/
theorem takeFaultNow_idle {s : State} (h : s.bind.latch = false) (hi : ∀ q : Fin 64, ∀ t : Fin 4, s.quires[q].seq.tasks[t].live = false)
    (hl : ∀ l : Fin 26, linkIsUp s l = false) (f : Raised) : takeFaultNow f s = latched f s := by
  have hstop : allQuires.foldl (fun s q => stopQuire s q 3) (latched f s) = latched f s :=
    foldl_stopQuire_idle 3 allQuires (s := latched f s) hi
  have hflits : startFaultFlits (latched f s) = latched f s := by
    rw [startFaultFlits_eq]
    exact foldl_faultStart_down (List.finRange 26) (s := latched f s) hl
  rw [takeFaultNow_first h, hstop, hflits, ite_self]

/-- A failure of a site without a quire, and of one. -/
theorem siteFault_none {s : State} {g : Fin 16} {site : Fin 5} (h : ∀ q, ¬ StandsAt s q g site.val) :
    siteFault g site s = { s with
      bind := { s.bind with raised := s.bind.raised ++ [{ cls := 1 + (Config.freeBits s.free).toNat % 11, quire := none, link := 0,
                                                           originClass := 0, originId := 0, tick := tick s }] }
      free := s.free + 1 } := by
  have hq : quiresAt (takeFree s).2 g (fun n => n == site.val) = [] := quiresAt_none (s := (takeFree s).2) h
  simp only [siteFault, hq]
  rfl

theorem siteFault_quire {s : State} {q : Fin 64} {g : Fin 16} {site : Fin 5} (h : StandsAt s q g site.val)
    (hi : ∀ t : Fin 4, s.quires[q].seq.tasks[t].live = false) :
    siteFault g site s = { s with
      bind := { s.bind with raised := s.bind.raised ++ [quireRaise s q (1 + (Config.freeBits s.free).toNat % 11)] }
      free := s.free + 1 } := by
  have hq : quiresAt (takeFree s).2 g (fun n => n == site.val) = [q] := quiresAt_single (s := (takeFree s).2) h
  simp only [siteFault, hq]
  exact raiseQuire_idle (s := (takeFree s).2) hi _

/-- Settles O40: each source of FAULT_PATH from a still state. -/
theorem faultPathCompletes : Obligations.FaultPathCompletes := by
  unfold Obligations.FaultPathCompletes
  intro s hstill hp counted standsAt idle raised anyClass
  have hex := faultPath_of_still hstill hp
  refine ⟨fun hr => ?_, fun f hr => ?_, fun g site => ⟨fun hn => ?_, fun q hq hi => ⟨?_, fun back hc hs => ?_⟩⟩, fun q t ht => ?_⟩
  · rw [hex, takeOldest_none hr]
  · have htake := takeOldest_eq (s := s) (pre := []) (post := []) (f := f) hr (fun r h => absurd h List.not_mem_nil)
      fun r h => absurd h List.not_mem_nil
    refine ⟨fun hl => ?_, fun hl hi hd => ?_⟩
    · refine (hex .raised).trans (congrArg Host.Outcome.next (htake.trans ?_))
      exact takeFaultNow_latched (s := { s with bind := { s.bind with raised := [] } }) hl f
    · refine (hex .raised).trans (congrArg Host.Outcome.next (htake.trans ?_))
      exact takeFaultNow_idle (s := { s with bind := { s.bind with raised := [] } }) hl hi hd f
  · exact (hex _).trans (congrArg Host.Outcome.next (siteFault_none hn))
  · exact (hex _).trans (congrArg Host.Outcome.next (siteFault_quire hq hi))
  · refine (hex _).trans (congrArg Host.Outcome.next ((slotParity_own hc hq hs).trans ?_))
    rw [raiseQuire_idle]
    · rfl
    · intro t
      rw [updQ_quires_self]
      exact hi t
  · have hat : (atTurn s.quires[q] t).isSome = true := by
      simp only [comesToIssue, Bool.and_eq_true] at ht
      obtain ⟨⟨⟨-, hat⟩, -⟩, -⟩ := ht
      exact hat
    have harr := arrive_quiet hstill.quiet q t
    intro faults
    have hfaults : ∀ (src : FaultSource) (cause : Nat), exec (.faultPath src) s = .next (issueFault s q t .seq cause) →
        faults src cause := fun src cause he => by
      have hi := issueFault_faults hstill.quiet hat cause
      generalize issueFault s q t .seq cause = u at he hi
      exact ⟨u, he, hi.fault, hi.state, hi.tasks, hi.mem, hi.others, hi.raised, hi.count, hi.latch⟩
    refine ⟨fun w hw hlisted => hfaults _ 1 ?_, fun hw => hfaults _ 3 ?_⟩
    · refine (hex _).trans (congrArg Host.Outcome.next ?_)
      simp only [unlistedFault, hw, harr, ht, hlisted, Bool.and_self, Bool.not_false, if_true]
    · refine (hex _).trans (congrArg Host.Outcome.next ?_)
      simp only [fetchFault, hw, harr, ht, Option.isNone_none, Bool.and_self, if_true]

end Sys2Proof.Machine
end

section
/-! PROOFS. The record of a fault, the watchdog and the end of a trace incident (O39 O41). -/

namespace Sys2Proof.Machine

/-! ## Doorbells of the bindery -/

/-- Ringing the host touches the host interface, the messages out and the bits that a write clears. -/
theorem ringHostRaw_rest (s : State) (n : Fin 32) :
    { ringHostRaw s n with host := s.host, out := s.out, w1c := s.w1c } = s := by
  unfold ringHostRaw sendMsix
  dsimp only
  split
  · rfl
  · split <;> rfl

theorem dbOut_set {v : BitVec 32} {n : Fin 32} (h : v.toNat.testBit n.val = true) : v ||| (1#32 <<< n.val) = v := by
  apply BitVec.eq_of_getLsbD_eq
  intro i hi
  rw [BitVec.getLsbD_or, BitVec.getLsbD_shiftLeft, BitVec.getLsbD_one]
  by_cases hin : i = n.val
  · subst hin
    rw [← BitVec.testBit_toNat, h, Bool.true_or]
  · have h1 : (decide (i < 32) && !decide (i < n.val) && (decide (0 < 32) && decide (i - n.val = 0))) = false := by
      by_cases hlt : i < n.val
      · simp [hlt]
      · simp only [hlt, decide_false, Bool.not_false, Bool.and_true, Bool.and_eq_false_iff, decide_eq_false_iff_not]
        exact Or.inr (Or.inr (by omega))
    rw [h1, Bool.or_false]

theorem ringHostRaw_dbOut (s : State) (n : Fin 32) : (ringHostRaw s n).host.dbOut = s.host.dbOut ||| (1#32 <<< n.val) := by
  unfold ringHostRaw sendMsix
  dsimp only
  split
  next h => exact (dbOut_set h).symm
  next => split <;> rfl

/-- The bindery's own bits have no timeout flag. -/
theorem ringHost_low {n : Fin 32} (h : n.val < 8) (s : State) : ringHost s n = ringHostRaw s n := by
  have hc : ∀ u, checkHost u n = u := fun u => by
    rw [checkHost, decide_eq_false (by omega), Bool.false_and, if_neg Bool.false_ne_true]
  simp only [ringHost, hc, ite_self]

/-! ## Alarms -/

/-- The alarm is among those of the tick, with its detail, where repeats do not add theirs. -/
theorem alarm_mem (s : State) {cause : Nat} (source detail : Nat) (h : cause ≠ 3 ∧ cause ≠ 4) :
    ∃ a ∈ (alarm s cause source detail).trace.alarmPend, a.cause = cause ∧ a.source = source ∧ a.detail = detail := by
  have h34 : (cause == 3 || cause == 4) = false := by simp [h]
  simp only [alarm, h34, Bool.false_eq_true, if_false]
  split
  next hany =>
    obtain ⟨a, ha, hit⟩ := List.any_eq_true.mp hany
    rw [Bool.and_eq_true, beq_iff_eq, beq_iff_eq] at hit
    refine ⟨_, List.mem_map_of_mem ha, ?_⟩
    simp only [hit.1, hit.2, beq_self_eq_true, Bool.and_self, if_true]
    exact ⟨trivial, trivial, trivial⟩
  next => exact ⟨_, List.mem_append_right _ (List.mem_singleton_self _), rfl, rfl, rfl⟩

theorem alarm_new {s : State} {cause source : Nat} (h : ∀ a ∈ s.trace.alarmPend, a.cause = cause → a.source ≠ source) (detail : Nat) :
    alarm s cause source detail = { s with trace := { s.trace with
      alarmPend := s.trace.alarmPend ++ [{ cause := cause, source := source, count := 1, detail := detail }] } } := by
  have hn : s.trace.alarmPend.any (fun a => a.cause == cause && a.source == source) = false := by
    rw [List.any_eq_false]
    intro a ha hc
    rw [Bool.and_eq_true, beq_iff_eq, beq_iff_eq] at hc
    exact h a ha hc.1 hc.2
  simp only [alarm, hn, Bool.false_eq_true, if_false]

/-! ## FAULT_RECORD -/

/-- The bindery with the incident recorded. -/
def recorded (f : Raised) (s : State) : State :=
  { s with bind := { s.bind with faultInfo := faultInfoWord f, faultStitch := s.clk.stitch } }

theorem faultRecord_eq {s : State} {f : Raised} (hf : s.bind.firstFault = some f) (hw : firmwareRuns s = true)
    (hl : s.bind.latch = true) (hi : bit s.bind.faultInfo 0 = false) :
    faultRecord s = answerStopped (alarm (ringHostRaw (recorded f s) 5) 7 0 f.cls) := by
  have hc : (firmwareRuns s && s.bind.latch && !bit s.bind.faultInfo 0) = true := by
    rw [hw, hl, hi]
    rfl
  rw [faultRecord, hf]
  simp only [hc, Bool.not_true, Bool.false_eq_true, if_false]
  rw [ringHost_low (by decide)]
  rfl

/-- The commands that the fault path has stopped, as the statements pick them. -/
theorem answerStopped_cmds (n : Nat) (c : Cmd) :
    (if stoppedByFault c then c.finish n 0x0E c.stopped (BitVec.ofNat 64 c.maxLc) else c) =
      if c.st = .running ∧ (((c.opcode = 0x05 ∨ c.opcode = 0x08) ∧ c.faulted = true) ∨ c.opcode = 0x03 ∨ c.opcode = 0x04) then
        { c with st := .done 0x0E c.stopped (BitVec.ofNat 64 c.maxLc), doneAt := n } else c := by
  have hs : stoppedByFault c = true ↔
      ((c.opcode = 0x05 ∨ c.opcode = 0x08) ∧ c.faulted = true) ∨ c.opcode = 0x03 ∨ c.opcode = 0x04 := by
    simp only [stoppedByFault, Bool.or_eq_true, Bool.and_eq_true, beq_iff_eq, or_assoc]
  by_cases hr : c.st = .running
  · simp only [Cmd.finish, hr, beq_self_eq_true, if_true, true_and, hs]
  · have hb : (c.st == .running) = false := beq_eq_false_iff_ne.mpr hr
    simp only [Cmd.finish, hb, Bool.false_eq_true, if_false, ite_self, hr, false_and]

/-- The bindery behind the answers of the commands that the fault path has stopped. -/
def Bindery.answered (b : Bindery) : Bindery :=
  { b with
    doneCount := b.doneCount + 1
    cmds := b.cmds.map (fun c =>
      if c.st = .running ∧ (((c.opcode = 0x05 ∨ c.opcode = 0x08) ∧ c.faulted = true) ∨ c.opcode = 0x03 ∨ c.opcode = 0x04) then
        { c with st := .done 0x0E c.stopped (BitVec.ofNat 64 c.maxLc), doneAt := b.doneCount } else c) }

theorem answerStopped_eq (s : State) : answerStopped s = { s with bind := s.bind.answered } := by
  simp only [answerStopped, answerStopped_cmds]
  rfl

/-! ## WATCHDOG -/

/-- The bindery behind the watchdog: its fault raised, every command in progress done. -/
def watchdogBind (s : State) : Bindery :=
  { s.bind with
    raised := s.bind.raised ++ [{ cls := 11, quire := none, link := 0, originClass := 0, originId := 0, tick := tick s }]
    doneCount := s.bind.doneCount + 1
    cmds := s.bind.cmds.map (fun c => match c.st with
      | .done _ _ _ => c
      | _ => { c with st := .done 0x0E c.stopped (BitVec.ofNat 64 c.maxLc), doneAt := s.bind.doneCount }) }

theorem watchdog_eq {s : State} (hw : firmwareRuns s = true) :
    watchdog s = if flashGood s.flash then
        { s with bind := { watchdogBind s with runHash := sha256 s.flash.image, runVersion := numAt s.flash.image 4 2 } }
      else enterRecovery { s with bind := watchdogBind s } := by
  simp only [watchdog, hw, Bool.not_true, Bool.false_eq_true, if_false]
  rfl

/-! ## Trace records in a ring -/

/-- The address of a slot of a folio's ring. -/
def traceSlot (s : State) (f : Fin 16) (n : Nat) : Nat := fld s.trace.cfg 16 16 * 2 ^ 20 + f.val * 2 ^ 20 + 32 * (n % 32768)

theorem readBytes_writeBytes_disjoint {m : Mem} (h : Mem.wf m = true) {a b n : Nat} {bs : List Byte}
    (hd : b + n ≤ a ∨ a + bs.length ≤ b) : readBytes (writeBytes m a bs) b n = readBytes m b n := by
  rw [readBytes_eq (writeBytes_wf h a bs), readBytes_eq h]
  refine List.map_congr_left fun i hi => readByte_writeBytes_ne m a bs _ ?_
  have hlt := List.mem_range.mp hi
  omega

theorem tracePut_prod (s : State) (f : Fin 16) (r : List Byte) : traceProd (tracePut s f r) f = (traceProd s f + 1) % 65536 := by
  have h : (tracePut s f r).trace.ptr[f] = setFld s.trace.ptr[f] 0 16 (traceProd s f + 1) := Vector.getElem_set_self _
  rw [traceProd, h, fld_setFld_same _ _ (by omega)]
  rfl

theorem tracePut_cons (s : State) (f : Fin 16) (r : List Byte) : traceCons (tracePut s f r) f = traceCons s f := by
  have h : (tracePut s f r).trace.ptr[f] = setFld s.trace.ptr[f] 0 16 (traceProd s f + 1) := Vector.getElem_set_self _
  rw [traceCons, h, fld_setFld_of_disjoint _ _ (Or.inl (by omega))]
  rfl

theorem tracePut_far (s : State) (f : Fin 16) (r : List Byte) :
    (tracePut s f r).far = writeBytes s.far (traceSlot s f (traceProd s f)) (slice r 0 32) := rfl

theorem tracePut_slot (s : State) (f : Fin 16) (r : List Byte) (n : Nat) : traceSlot (tracePut s f r) f n = traceSlot s f n := rfl

/-- Records put into a ring, one behind the other. -/
structure PutAll (s u : State) (f : Fin 16) (recs : List (List Byte)) : Prop where
  prod : traceProd u f = (traceProd s f + recs.length) % 65536
  cons : traceCons u f = traceCons s f
  wf : Mem.wf u.far = true
  kept : ∀ m, (∀ i < recs.length, (traceProd s f + i) % 32768 ≠ m % 32768) →
    readBytes u.far (traceSlot s f m) 32 = readBytes s.far (traceSlot s f m) 32
  put : ∀ (i : Nat) (r : List Byte), recs[i]? = some r → readBytes u.far (traceSlot s f (traceProd s f + i)) 32 = slice r 0 32
  rest : { u with far := s.far, trace := { u.trace with ptr := s.trace.ptr } } = s

theorem slot_disjoint (s : State) (f : Fin 16) {m n : Nat} (h : n % 32768 ≠ m % 32768) :
    traceSlot s f m + 32 ≤ traceSlot s f n ∨ traceSlot s f n + 32 ≤ traceSlot s f m := by
  unfold traceSlot
  omega

theorem foldl_tracePut (f : Fin 16) (recs : List (List Byte)) :
    ∀ s : State, Mem.wf s.far = true → recs.length ≤ 32768 → traceProd s f < 65536 →
      PutAll s (recs.foldl (fun u r => tracePut u f r) s) f recs := by
  induction recs with
  | nil => exact fun s hw _ hp => ⟨(Nat.mod_eq_of_lt hp).symm, rfl, hw, fun _ _ => rfl, fun i r h => absurd h (by simp), rfl⟩
  | cons r recs ih =>
    intro s hw hlen hp
    rw [List.length_cons] at hlen
    have hprod := tracePut_prod s f r
    have hcons := tracePut_cons s f r
    have hfar := tracePut_far s f r
    have hslot := tracePut_slot s f r
    have hrest : { tracePut s f r with far := s.far, trace := { (tracePut s f r).trace with ptr := s.trace.ptr } } = s := rfl
    rw [List.foldl_cons]
    generalize tracePut s f r = v at hprod hcons hfar hslot hrest
    have hwv : Mem.wf v.far = true := hfar ▸ writeBytes_wf hw _ _
    obtain ⟨iprod, icons, iwf, ikept, iput, irest⟩ := ih v hwv (by omega) (hprod ▸ Nat.mod_lt _ (by omega))
    generalize recs.foldl (fun u r => tracePut u f r) v = u at iprod icons iwf ikept iput irest
    have hlen32 : (slice r 0 32).length = 32 := slice_length _ _ _
    refine ⟨?_, icons.trans hcons, iwf, fun m hm => ?_, fun i x hx => ?_, ?_⟩
    · rw [iprod, hprod, List.length_cons]
      omega
    · have h0 : traceProd s f % 32768 ≠ m % 32768 := hm 0 (by simp)
      have hk := ikept m fun i hi => by
        have := hm (i + 1) (by simp only [List.length_cons]; omega)
        omega
      have hd := slot_disjoint s f h0
      rw [hslot, hfar] at hk
      rw [hk, readBytes_writeBytes_disjoint hw (by omega)]
    · cases i with
      | zero =>
        obtain rfl := Option.some.inj hx
        have hk := ikept (traceProd s f) fun i hi => by omega
        rw [hslot, hfar] at hk
        have hw32 := readBytes_writeBytes hw (traceSlot s f (traceProd s f)) (slice r 0 32)
        rw [hlen32] at hw32
        exact hk.trans hw32
      | succ i =>
        have hi := iput i x hx
        have hs : traceSlot v f (traceProd v f + i) = traceSlot s f (traceProd s f + (i + 1)) := by
          rw [hslot, hprod, traceSlot, traceSlot]
          omega
        rw [hs] at hi
        exact hi
    · exact (congrArg (fun w : State => { w with far := s.far, trace := { w.trace with ptr := s.trace.ptr } }) irest :).trans hrest

/-! ## The end of an incident -/

/-- The trace part and the free values where an incident ends. -/
def incidentOver (s : State) (f : Fin 16) : State :=
  { s with free := s.free + 2
           trace := { s.trace with incident := s.trace.incident.set f none
                                   ptr := s.trace.ptr.set f (setFld s.trace.ptr[f] 32 1 0) } }

theorem incidentEnd_eq {s : State} {f : Fin 16} {inc : Incident} (hi : s.trace.incident[f] = some inc) (hp : s.pwr.powered = true)
    (h13 : s.pwr.on.toNat.testBit 13 = true)
    (hr : (fld s.trace.ptr[f] 0 16 + 65536 - fld s.trace.ptr[f] 16 16) % 65536 + 64 ≤ 32768) :
    incidentEnd f s = (markerBytes inc (Config.freeBits s.free).toNat (Config.freeBits (s.free + 1)).toNat
      :: (inc.held ++ inc.latest)).foldl (fun u r => tracePut u f r) (incidentOver s f) := by
  have hd : pdOn s 13 = true := h13
  have hfill : decide (32768 < traceFill s f + 64) = false := decide_eq_false (by rw [traceFill]; exact Nat.not_lt.mpr hr)
  rw [incidentEnd, hi]
  simp only [hp, hd, hfill, Bool.and_self, Bool.not_true, Bool.or_self, Bool.false_eq_true, if_false]
  rfl

theorem incidentOver_ptr (s : State) (f : Fin 16) :
    traceProd (incidentOver s f) f = fld s.trace.ptr[f] 0 16 ∧ traceCons (incidentOver s f) f = fld s.trace.ptr[f] 16 16 := by
  have h : (incidentOver s f).trace.ptr[f] = setFld s.trace.ptr[f] 32 1 0 := Vector.getElem_set_self _
  rw [traceProd, traceCons, h, fld_setFld_of_disjoint _ _ (Or.inr (by omega)), fld_setFld_of_disjoint _ _ (Or.inr (by omega))]
  exact ⟨rfl, rfl⟩

/-- The record of a fault beside what it tells the host. -/
structure FaultNoted (s u : State) (f : Raised) : Prop where
  bind : u.bind = (recorded f s).bind.answered
  dbOut : u.host.dbOut = s.host.dbOut ||| (1#32 <<< 5)
  alarm : ∃ a ∈ u.trace.alarmPend, a.cause = 7 ∧ a.source = 0 ∧ a.detail = f.cls
  rest : { u with bind := s.bind, host := s.host, out := s.out, w1c := s.w1c, trace := s.trace } = s

theorem faultRecord_noted {s : State} {f : Raised} (hf : s.bind.firstFault = some f) (hw : firmwareRuns s = true)
    (hl : s.bind.latch = true) (hi : bit s.bind.faultInfo 0 = false) : FaultNoted s (faultRecord s) f := by
  rw [faultRecord_eq hf hw hl hi]
  have hrest := ringHostRaw_rest (recorded f s) 5
  have hdb := ringHostRaw_dbOut (recorded f s) 5
  generalize ringHostRaw (recorded f s) 5 = m at hrest hdb
  have hbind : m.bind = (recorded f s).bind := (congrArg State.bind hrest :)
  have halarm := alarm_mem m 0 f.cls (cause := 7) (by decide)
  refine ⟨?_, by rw [answerStopped_eq]; exact hdb, by rw [answerStopped_eq]; exact halarm, ?_⟩
  · rw [answerStopped_eq, ← hbind]
    rfl
  · rw [answerStopped_eq]
    exact (congrArg (fun w : State => { w with bind := s.bind, trace := s.trace }) hrest :)

/-- Settles O39: FAULT_RECORD and the watchdog, and where the kept records of an incident stand in the ring. -/
theorem faultRecorded : Obligations.FaultRecorded := by
  unfold Obligations.FaultRecorded
  refine ⟨fun s hw => ⟨fun f hl hi hf => ?_, ?_⟩, fun s f inc hinc hp h13 hr hlen hwf hrecs => ?_⟩
  · have hn := faultRecord_noted hf hw hl hi
    refine ⟨faultRecord s, rfl, ?_⟩
    generalize faultRecord s = u at hn
    obtain ⟨hbind, hdb, halarm, hrest⟩ := hn
    rw [hbind]
    exact ⟨rfl, rfl, hdb, halarm, rfl, hl, (congrArg State.quires hrest :), (congrArg State.far hrest :),
      (congrArg State.clk hrest :), (congrArg State.links hrest :)⟩
  · have hcmds : ∀ c ∈ (watchdogBind s).cmds, c.st ≠ .running ∧ c.st ≠ .waiting := by
      intro c hc
      obtain ⟨d, -, rfl⟩ := List.mem_map.mp hc
      split
      next hd => rw [hd]; exact ⟨nofun, nofun⟩
      next => exact ⟨nofun, nofun⟩
    have hlen : (watchdogBind s).cmds.length = s.bind.cmds.length := List.length_map _
    have hex : exec .watchdog s = .next (watchdog s) := rfl
    rw [hex, watchdog_eq hw]
    refine ⟨_, rfl, ?_⟩
    cases hg : flashGood s.flash with
    | true =>
      have hrec : s.host.recovery = false := by
        simp only [firmwareRuns, Bool.and_eq_true, Bool.not_eq_true'] at hw
        exact hw.1.2
      exact ⟨rfl, hcmds, hlen, hrec, rfl, rfl, rfl, rfl, rfl⟩
    | false => exact ⟨rfl, hcmds, hlen, rfl, rfl, rfl, rfl, rfl, rfl⟩
  · obtain ⟨hprod, hcons⟩ := incidentOver_ptr s f
    have hput := foldl_tracePut f (markerBytes inc (Config.freeBits s.free).toNat (Config.freeBits (s.free + 1)).toNat
      :: (inc.held ++ inc.latest)) (incidentOver s f) hwf (by simp only [List.length_cons, List.length_append]; omega)
      (hprod ▸ fld_lt _ _ _)
    have hex : exec (.traceIncidentEnd f) s = .next (incidentEnd f s) := rfl
    rw [hex, incidentEnd_eq hinc hp h13 hr]
    refine ⟨_, rfl, ?_⟩
    generalize (markerBytes inc (Config.freeBits s.free).toNat (Config.freeBits (s.free + 1)).toNat
      :: (inc.held ++ inc.latest)).foldl (fun u r => tracePut u f r) (incidentOver s f) = u at hput
    obtain ⟨uprod, ucons, -, -, uput, urest⟩ := hput
    have htr : { u.trace with ptr := (incidentOver s f).trace.ptr } = (incidentOver s f).trace := (congrArg State.trace urest :)
    refine ⟨?_, ?_, ?_, fun i r hir => ?_, (congrArg State.quires urest :), (congrArg State.clk urest :),
      (congrArg State.bind urest :), (congrArg State.host urest :), (congrArg State.con urest :)⟩
    · have hi : u.trace.incident = s.trace.incident.set f none := (congrArg Trace.incident htr :)
      rw [hi]
      exact Vector.getElem_set_self _
    · rw [traceProd, hprod, List.length_cons, List.length_append] at uprod
      rw [uprod]
      congr 1
      omega
    · exact ucons.trans hcons
    · have hi := uput (i + 1) r hir
      have hslot : traceSlot (incidentOver s f) f (traceProd (incidentOver s f) f + (i + 1)) =
          fld s.trace.cfg 16 16 * 2 ^ 20 + f.val * 2 ^ 20 + 32 * ((fld s.trace.ptr[f] 0 16 + 1 + i) % 65536 % 32768) := by
        rw [traceSlot, hprod]
        show fld s.trace.cfg 16 16 * 2 ^ 20 + f.val * 2 ^ 20 + 32 * ((fld s.trace.ptr[f] 0 16 + (i + 1)) % 32768) = _
        omega
      rw [hslot] at hi
      rw [hi]
      exact slice_of_length (hrecs r (List.mem_of_getElem? hir))

/-- A bell that its mask bit holds. -/
theorem ringHostRaw_masked {s : State} {n : Fin 32} (hm : s.host.dbOutMask.toNat.testBit n.val = true)
    (hd : s.host.dbOut.toNat.testBit n.val = false) :
    ringHostRaw s n = setW1c 0x30058 (maskOf n.val 1) { s with host := { s.host with
      dbOut := s.host.dbOut ||| (1#32 <<< n.val), dbOutSince := s.host.dbOutSince.set n (tick s)
      msixPending := s.host.msixPending ||| (1#32 <<< n.val) } } := by
  have hd' : (setW1c 0x30058 (maskOf n.val 1) s).host.dbOut.toNat.testBit n.val = false := hd
  simp only [ringHostRaw, hd', Bool.false_eq_true, if_false, sendMsix]
  have hc : (!s.host.msixMask[n] && !s.host.dbOutMask.toNat.testBit n.val && s.host.linkUp && !s.host.perst) = false := by
    simp only [hm, Bool.not_true, Bool.and_false, Bool.false_and]
  exact if_neg fun h => absurd (hc.symm.trans h) (by decide)

/-- Settles O41: the whole states that FAULT_RECORD, WATCHDOG and TRACE_INCIDENT_END leave. -/
theorem recordsComplete : Obligations.RecordsComplete := by
  unfold Obligations.RecordsComplete
  refine ⟨fun s f hw hl hi hf hm hd ha => ?_, fun s hw => ?_, fun s f inc hinc hp h13 hr => ?_⟩
  · have hbell := ringHostRaw_masked (s := recorded f s) (n := 5) hm hd
    have hex : exec .faultRecord s = .next (faultRecord s) := rfl
    rw [hex, faultRecord_eq hf hw hl hi]
    generalize ringHostRaw (recorded f s) 5 = v at hbell
    have hav : ∀ a ∈ v.trace.alarmPend, a.cause = 7 → a.source ≠ 0 := hbell ▸ ha
    rw [alarm_new hav, answerStopped_eq, hbell]
    rfl
  · intro ended
    exact congrArg Host.Outcome.next (watchdog_eq hw)
  · refine ⟨(Config.freeBits s.free).toNat, (Config.freeBits (s.free + 1)).toNat, ?_⟩
    exact congrArg Host.Outcome.next (incidentEnd_eq hinc hp h13 hr)

end Sys2Proof.Machine
end

section
/-! PROOFS. The clock root: droop, operating-point changes and the reference (O42). -/

namespace Sys2Proof.Machine

/-! ## Droop -/

theorem domainRuns_none {s : State} {f : Fin 16} (h : ∀ q ∈ gatheringQuires s ⟨4 * f.val, by omega⟩, s.quires[q].seq.inRun = false) :
    domainRuns s f = false := by
  rw [domainRuns, List.any_eq_false]
  exact fun q hq => by rw [h q hq]; exact Bool.false_ne_true

theorem stretchPeriod_half {s : State} {f : Fin 16} (h : domainRuns s f = false) :
    stretchPeriod f true s = { s with clk := { s.clk with half := s.clk.half.set f (s.clk.half[f] + 1) } } :=
  if_neg fun hc => absurd (h.symm.trans hc) Bool.false_ne_true

theorem stretchPeriod_quarter {s : State} {f : Fin 16} (h : domainRuns s f = false) :
    stretchPeriod f false s = { s with clk := { s.clk with qtr := s.clk.qtr.set f (s.clk.qtr[f] + 1) } } :=
  if_neg fun hc => absurd (h.symm.trans hc) Bool.false_ne_true

/-- Two byte fields side by side. -/
theorem setFld_two_bytes {a b : Nat} (ha : a < 256) (hb : b < 256) :
    setFld (setFld 0 0 8 a) 8 8 b = BitVec.ofNat 64 (a + 256 * b) := by
  apply BitVec.eq_of_getLsbD_eq
  intro i hi
  have hn : (a + 256 * b).testBit i = if i < 8 then a.testBit i else b.testBit (i - 8) := by
    rw [Nat.add_comm a]
    exact Nat.testBit_two_pow_mul_add b (i := 8) (show a < 2 ^ 8 from ha) i
  rw [getLsbD_setFld _ _ _ _ _ hi, getLsbD_setFld _ _ _ _ _ hi, BitVec.getLsbD_ofNat, hn, decide_eq_true hi, Bool.true_and]
  by_cases h8 : i < 8
  · rw [if_neg (by omega), if_pos (by omega), if_pos h8, Nat.sub_zero]
  · rw [if_neg h8]
    split
    · rfl
    next h16 =>
      rw [if_neg (by omega), Nat.testBit_lt_two_pow (lt_of_lt_of_le hb (Nat.pow_le_pow_right (n := 2) (i := 8) (by omega) (by omega)))]
      exact BitVec.getLsbD_zero

/-! ## Commands that a change of the clock root ends -/

/-- A running command of the opcode that is answered is done. -/
theorem mem_answerCmds {s : State} {d : Cmd} (hd : d ∈ s.bind.cmds) (hr : d.st = .running) {pick : Cmd → Bool} (hp : pick d = true)
    (status : Nat) (r0 r1 : Word) :
    { d with st := .done status r0 r1, doneAt := s.bind.doneCount } ∈ (answerCmds s pick status r0 r1).bind.cmds := by
  refine List.mem_map.mpr ⟨d, hd, ?_⟩
  rw [if_pos hp, Cmd.finish, if_pos (beq_iff_eq.mpr hr)]

/-- A command that is not picked stays. -/
theorem mem_answerCmds_of_not {s : State} {d : Cmd} (hd : d ∈ s.bind.cmds) {pick : Cmd → Bool} (hp : pick d = false)
    (status : Nat) (r0 r1 : Word) : d ∈ (answerCmds s pick status r0 r1).bind.cmds :=
  List.mem_map.mpr ⟨d, hd, if_neg fun h => absurd (hp.symm.trans h) Bool.false_ne_true⟩

theorem answerChange_rest (s : State) (status : Nat) : { answerChange s status with bind := s.bind } = s := by
  unfold answerChange
  split <;> rfl

/-- A running SET_OPERATING_POINT ends with the change. -/
theorem mem_answerChange {s : State} (h : s.bind.resetTick = none) (status : Nat) {d : Cmd} (hd : d ∈ s.bind.cmds)
    (ho : d.opcode = 0x0B) (hr : d.st = .running) :
    ∃ n, { d with st := .done status 0 0, doneAt := n } ∈ (answerChange s status).bind.cmds := by
  refine ⟨s.bind.doneCount, ?_⟩
  rw [answerChange, h]
  refine mem_answerCmds_of_not (mem_answerCmds hd hr ?_ status 0 0) ?_ _ 0 0
  · exact beq_iff_eq.mpr ho
  · exact beq_eq_false_iff_ne.mpr (by rw [ho]; decide)

/-! ## The clock root -/

theorem operatingPointChange_eq {s : State} (hp : s.pwr.powered = true) (ho : s.clk.opPending = true)
    (hk : s.clk.kettle.toNat ≤ tick s) :
    operatingPointChange s = answerChange { s with clk := s.clk.change s.bind.resetTick.isSome (tick s) } 0x00 := by
  simp only [operatingPointChange, hp, ho, decide_eq_true hk, Bool.and_self, Bool.not_true, Bool.false_eq_true, if_false]

/-- A change of the index alone. -/
theorem Clk.change_index {c : Clk} (h : c.pendSource = none) (now : Nat) :
    c.change false now = { c with current := c.target, resetStep := false, opPending := false, kettle := 0 } := by
  simp only [Clk.change, h, Clk.settle, Option.getD_none]

/-- The clock root behind the loss of the reference, a pending change apart. -/
def Clk.lose (now : Nat) (c : Clk) : Clk :=
  { c with lost := true, present := false, inLoss := true, losses := c.losses + 1, lossTick := now
           source := if c.source = 0 then 1 else c.source
           restore := if c.source = 0 then some c.current else c.restore }

/-- The module behind a loss of the reference, its alarm apart. -/
def lostReference (s : State) : State :=
  if s.clk.opPending then answerChange { setW1c 0x10018 1 s with clk := (s.clk.lose (tick s)).settle } 0x09
  else { setW1c 0x10018 1 s with clk := s.clk.lose (tick s) }

theorem referenceLoss_eq {s : State} (hp : s.pwr.powered = true) (hr : s.clk.present = true) :
    referenceLoss s = alarm (lostReference s) 1 0 ((refWord (lostReference s).clk).toNat % 2 ^ 32) := by
  have hn : ¬ (!(s.pwr.powered && s.clk.present)) = true := by
    rw [hp, hr]
    decide
  have hclk : (setW1c 0x10018 1 s).clk = s.clk := rfl
  rw [referenceLoss, if_neg hn]
  by_cases h0 : s.clk.source = 0
  · cases ho : s.clk.opPending <;>
      simp only [lostReference, Clk.lose, hclk, h0, ho, if_true, if_false, Bool.false_eq_true] <;> rfl
  · cases ho : s.clk.opPending <;>
      simp only [lostReference, Clk.lose, hclk, h0, ho, if_true, if_false, Bool.false_eq_true] <;> rfl

theorem holdoverExpiry_eq {s : State} (hp : s.pwr.powered = true) (hs : s.clk.source = 1) (ht : s.clk.lossTick + 100 ≤ tick s)
    (hn : s.clk.pendSource = none) :
    holdoverExpiry s = { s with clk := { s.clk.schedule (max s.clk.current 5) (s.clk.lossTick + 164) with pendSource := some 2 } } := by
  have hn' : ¬ (!(s.pwr.powered && s.clk.source == 1 && decide (s.clk.lossTick + 100 ≤ tick s) &&
      s.clk.pendSource != some 2)) = true := by
    rw [hp, hs, decide_eq_true ht, hn]
    decide
  unfold holdoverExpiry
  rw [if_neg hn']

theorem referenceReturn_eq {s : State} (hp : s.pwr.powered = true) (hr : s.clk.present = false) (ht : s.clk.lossTick + 16 ≤ tick s) :
    referenceReturn s =
      alarm { s with clk := s.clk.returned (tick s) } 1 1 ((refWord (s.clk.returned (tick s))).toNat % 2 ^ 32) := by
  have hn : ¬ (!s.pwr.powered || s.clk.present || decide (tick s < s.clk.lossTick + 16)) = true := by
    rw [hp, hr, decide_eq_false (by omega)]
    decide
  rw [referenceReturn, if_neg hn]

/-- The return from a loss: a running holdover relocks at once, else the reference takes over later. -/
theorem Clk.returned_eq {c : Clk} (hin : c.inLoss = true) (now : Nat) : c.returned now =
    let c' := { c with present := true, inLoss := false, lastTicks := BitVec.ofNat 16 (min 0xFFFF (now - c.lossTick)) }
    if c.source = 1 ∧ c.pendSource = none then { c' with source := 0, restore := none }
    else { c' with target := c.current, opPending := true, kettle := BitVec.ofNat 64 (now + 64), pendSource := some 0 } := by
  simp only [Clk.returned, hin, if_true, Bool.and_eq_true, decide_eq_true_eq, Option.isNone_iff_eq_none]
  rfl

/-- Settles O42: a droop's stretch, DROOP_CFG and the events of the clock root. -/
theorem clockRoot : Obligations.ClockRoot := by
  unfold Obligations.ClockRoot
  refine ⟨fun s f droop v => ?_, fun s hp => ?_⟩
  · intro b t1 t2 half quarter
    refine ⟨fun hp hon hq => ?_, fun hv => ?_⟩
    · have hex : exec (.droopStretch f droop) s = .next (droopStretch f droop b) := rfl
      rw [hex]
      clear_value b
      have hw : droopWatched b f = true := by
        rw [droopWatched, hp, pdOn, hon]
        rfl
      have hd : domainRuns b f = false := domainRuns_none hq
      rw [droopStretch, hw]
      by_cases hh : half
      · rw [if_neg (by decide), if_pos hh, stretchPeriod_half hd, if_pos hh, if_neg fun hc => hc.1 hh]
      · by_cases hqr : fld b.clk.droopActive 0 8 < droop
        · rw [if_neg (by decide), if_neg hh, if_pos hqr, stretchPeriod_quarter hd, if_neg hh, if_pos ⟨hh, hqr⟩]
        · rw [if_neg (by decide), if_neg hh, if_neg hqr, if_neg hh, if_neg fun hc => hqr hc.2]
    · have hex : exec (.droopCfg v) s = .next (writeDroopCfg v s) := by
        show Host.Outcome.next (if mainView s then writeDroopCfg v s else s) = _
        rw [hv, if_pos rfl]
      rw [hex, writeDroopCfg, setFld_two_bytes (fld_lt v 0 8) (fld_lt v 8 8)]
      simp only [Bool.and_eq_true, decide_eq_true_eq, and_assoc]
      rfl
  · intro c now
    refine ⟨fun ho hk hn hr => ?_, fun hpr ho => ?_, fun hpr ho => ?_, fun hs ht hn => ?_, fun hpr hin ht => ?_⟩
    · have hex : exec .operatingPointChange s = .next (operatingPointChange s) := rfl
      rw [hex, operatingPointChange_eq hp ho hk, hr]
      have hm := fun d hd hop hrun => mem_answerChange
        (s := { s with clk := s.clk.change (none : Option Nat).isSome (tick s) }) hr 0x00 (d := d) hd hop hrun
      have hrest := answerChange_rest { s with clk := s.clk.change (none : Option Nat).isSome (tick s) } 0x00
      refine ⟨_, rfl, ?_, hm, ?_⟩
      · exact (congrArg State.clk hrest :).trans (Clk.change_index hn now)
      · exact (congrArg (fun w : State => { w with clk := c }) hrest :)
    · have hex : exec .referenceLoss s = .next (referenceLoss s) := rfl
      have hlost : lostReference s = { setW1c 0x10018 1 s with clk := s.clk.lose (tick s) } :=
        if_neg fun h => absurd (ho.symm.trans h) Bool.false_ne_true
      rw [hex, referenceLoss_eq hp hpr, hlost]
      exact ⟨_, rfl, rfl, rfl, rfl⟩
    · have hex : exec .referenceLoss s = .next (referenceLoss s) := rfl
      have hlost : lostReference s = answerChange { setW1c 0x10018 1 s with clk := (s.clk.lose (tick s)).settle } 0x09 := if_pos ho
      have hrest := answerChange_rest { setW1c 0x10018 1 s with clk := (s.clk.lose (tick s)).settle } 0x09
      rw [hex, referenceLoss_eq hp hpr, hlost]
      refine ⟨_, rfl, ?_⟩
      have hclk : (answerChange { setW1c 0x10018 1 s with clk := (s.clk.lose (tick s)).settle } 0x09).clk =
          (s.clk.lose (tick s)).settle := (congrArg State.clk hrest :)
      refine ⟨(congrArg Clk.opPending hclk :), (congrArg Clk.target hclk :), (congrArg Clk.kettle hclk :), (congrArg Clk.current hclk :),
        (congrArg Clk.lost hclk :), fun hr d hd hop hrun => ?_⟩
      exact mem_answerChange (s := { setW1c 0x10018 1 s with clk := (s.clk.lose (tick s)).settle }) hr 0x09 hd hop hrun
    · exact congrArg Host.Outcome.next (holdoverExpiry_eq hp hs ht hn)
    · have hex : exec .referenceReturn s = .next (referenceReturn s) := rfl
      rw [hex, referenceReturn_eq hp hpr ht]
      exact ⟨_, rfl, Clk.returned_eq hin now, rfl⟩

end Sys2Proof.Machine
end

section
/-! Power and temperature: the trips, the switched domains (R351 R352 R354 to R357). -/

namespace Sys2Proof.Machine

theorem averageOver_iff (p : Pwr) (n : Nat) (limit : BitVec 16) :
    averageOver p n limit = true ↔ 65536 * n * limit.toNat < ((p.samples.take n).map (·.toNat)).sum := by
  rw [averageOver, decide_eq_true_iff, powerSum, List.sum_eq_foldl]

/-- PWR.TRIP with a trip recorded: the first since the last clear stays. -/
def Pwr.tripped (p : Pwr) (cause sensor : Nat) : Pwr :=
  { p with trip := if bit p.trip 0 then p.trip else packFlds [(0, 1, 1), (1, 2, cause), (3, 5, sensor)] }

/-- The bindery with one more fault of class POWER raised at a tick. -/
def Bindery.raisedPower (b : Bindery) (now : Nat) : Bindery :=
  { b with raised := b.raised ++ [{ cls := 1, quire := none, link := 0, originClass := 0, originId := 0, tick := now }] }

theorem trip_eq (s : State) (cause sensor : Nat) :
    trip s cause sensor = { s with pwr := s.pwr.tripped cause sensor, bind := s.bind.raisedPower (tick s) } := by
  by_cases h : bit s.pwr.trip 0 = true
  · rw [trip, recordTrip, if_pos h, Pwr.tripped, if_pos h]
    rfl
  · rw [trip, recordTrip, if_neg h, Pwr.tripped, if_neg h]
    rfl

theorem powerTrip_again {s : State} (watts fraction : BitVec 16) (h : s.pwr.sampled = true) : powerTrip watts fraction s = s := by
  rw [powerTrip, h, Bool.or_true, if_pos rfl]

/-- The state with a tick's sample taken. -/
def State.sampled (s : State) (power : BitVec 32) : State := { s with pwr := takeSample power (tick s) s.pwr }

theorem powerTrip_eq {s : State} (watts fraction : BitVec 16) (hp : s.pwr.powered = true) (h : s.pwr.sampled = false) :
    powerTrip watts fraction s = match tripCause (s.sampled (watts ++ fraction)).pwr (tick s) with
      | none => s.sampled (watts ++ fraction)
      | some c => trip (s.sampled (watts ++ fraction)) c 0 := by
  rw [powerTrip, hp, h]
  rfl

theorem long_iff (since : Option Nat) (now : Nat) :
    since.any (fun t => decide (t + 10000 ≤ now)) = true ↔ ∃ n, since = some n ∧ n + 10000 ≤ now := by
  cases since <;> simp

/-- Whatever the sample meets, it is taken, and the quires, links, far memory and clock root stay. -/
theorem powerTrip_fields {s : State} (watts fraction : BitVec 16) (hp : s.pwr.powered = true) (h : s.pwr.sampled = false) :
    let u := powerTrip watts fraction s
    let p := (s.sampled (watts ++ fraction)).pwr
    u.pwr.samples = p.samples ∧ u.pwr.sampled = true ∧ u.pwr.overSince = p.overSince
      ∧ u.quires = s.quires ∧ u.links = s.links ∧ u.far = s.far ∧ u.clk = s.clk := by
  rw [powerTrip_eq watts fraction hp h]
  cases tripCause (s.sampled (watts ++ fraction)).pwr (tick s) with
  | none => exact ⟨rfl, rfl, rfl, rfl, rfl, rfl, rfl⟩
  | some c =>
    simp only [trip_eq]
    exact ⟨rfl, rfl, rfl, rfl, rfl, rfl, rfl⟩

/-- The trip that a sample meets, recorded and raised. -/
theorem powerTrip_some {s : State} (watts fraction : BitVec 16) (hp : s.pwr.powered = true) (h : s.pwr.sampled = false)
    {c : Nat} (hc : tripCause (s.sampled (watts ++ fraction)).pwr (tick s) = some c) :
    (powerTrip watts fraction s).pwr.trip = (s.pwr.tripped c 0).trip
      ∧ (powerTrip watts fraction s).bind = s.bind.raisedPower (tick s) := by
  rw [powerTrip_eq watts fraction hp h, hc]
  simp only [trip_eq]
  exact ⟨rfl, rfl⟩

theorem powerTrip_none {s : State} (watts fraction : BitVec 16) (hp : s.pwr.powered = true) (h : s.pwr.sampled = false)
    (hc : tripCause (s.sampled (watts ++ fraction)).pwr (tick s) = none) :
    powerTrip watts fraction s = s.sampled (watts ++ fraction) := by
  rw [powerTrip_eq watts fraction hp h, hc]

theorem tripCause_peak {p : Pwr} (now : Nat) (h : averageOver p 100 p.peakLimit = true) : tripCause p now = some 0 := if_pos h

theorem tripCause_sust {p : Pwr} {now : Nat} (h : ¬ averageOver p 100 p.peakLimit = true)
    (hl : p.overSince.any (fun t => decide (t + 10000 ≤ now)) = true) : tripCause p now = some 1 := by
  rw [tripCause, if_neg h, if_pos hl]

theorem tripCause_long {p : Pwr} {now : Nat} (h : ¬ averageOver p 100 p.peakLimit = true)
    (hl : ¬ p.overSince.any (fun t => decide (t + 10000 ≤ now)) = true) (hs : averageOver p 100000 p.sustLimit = true) :
    tripCause p now = some 2 := by
  rw [tripCause, if_neg h, if_neg hl, if_pos hs]

theorem tripCause_none {p : Pwr} {now : Nat} (h : ¬ averageOver p 100 p.peakLimit = true)
    (hl : ¬ p.overSince.any (fun t => decide (t + 10000 ≤ now)) = true) (hs : ¬ averageOver p 100000 p.sustLimit = true) :
    tripCause p now = none := by
  rw [tripCause, if_neg h, if_neg hl, if_neg hs]

theorem warnAt_eq (p : Pwr) :
    warnAt p = if p.warn.toNat < 60 then 60 else if 104 < p.warn.toNat then 104 else p.warn.toNat := by
  rw [warnAt]
  split <;> [skip; split] <;> omega

/-- What a reading leaves: TEMP, PEAK and the alert; the latch of the trips and the raised faults as they were. -/
theorem senseTemp_fields (sensor : Fin 24) (temp : BitVec 16) (s : State) :
    let u := senseTemp sensor temp s
    u.pwr = { s.pwr with
      temp := s.pwr.temp.set sensor temp
      tempPeak := if s.pwr.tempPeak[sensor].toInt < temp.toInt then s.pwr.tempPeak.set sensor temp else s.pwr.tempPeak }
    ∧ u.bind = { s.bind with alertN := s.bind.alertN || decide ((8 * warnAt s.pwr : Int) ≤ temp.toInt) }
    ∧ { u with pwr := s.pwr, bind := s.bind, trace := s.trace } = s := by
  intro u
  by_cases h : (8 * warnAt s.pwr : Int) ≤ temp.toInt
  · rw [show u = _ from if_pos h, decide_eq_true h, Bool.or_true]
    exact ⟨rfl, rfl, rfl⟩
  · rw [show u = _ from if_neg h, decide_eq_false h, Bool.or_false]
    exact ⟨rfl, rfl, rfl⟩

theorem thermalTrip_eq {s : State} (sensor : Fin 24) (temp : BitVec 16) (hp : s.pwr.powered = true) :
    thermalTrip sensor temp s =
      if (840 : Int) ≤ temp.toInt then trip (senseTemp sensor temp s) 3 sensor.val else senseTemp sensor temp s := by
  have hn : ¬ (!s.pwr.powered) = true := by rw [hp]; decide
  rw [thermalTrip, if_neg hn]

/-! ## Domains that software switches -/

theorem bit_setFld_one {i : Nat} (hi : i < 64) (w : Word) (p : Nat) (b : Bool) :
    bit (setFld w p 1 (b2n b)) i = if i = p then b else bit w i := by
  rw [bit_eq_testBit, BitVec.testBit_toNat, getLsbD_setFld _ _ _ _ _ hi, bit_eq_testBit, BitVec.testBit_toNat]
  by_cases h : i = p
  · rw [if_pos (by omega), if_pos h, h, Nat.sub_self]
    cases b <;> rfl
  · rw [if_neg (by omega), if_neg h]

theorem bit_foldl_setFld {i : Nat} (hi : i < 64) (g : Nat → Bool) (l : List Nat) (w : Word) :
    bit (l.foldl (fun w p => setFld w p 1 (b2n (g p))) w) i = if i ∈ l then g i else bit w i := by
  induction l generalizing w with
  | nil => simp
  | cons p l ih =>
    rw [List.foldl_cons, ih, bit_setFld_one hi]
    by_cases hl : i ∈ l
    · simp [hl]
    · by_cases hp : i = p <;> simp [hl, hp]

theorem of_mem_softDomains {pd : Nat} (h : pd ∈ softDomains) : pd ≤ 13 := by
  revert pd
  decide

/-- The domains that a write of PD_REQ asks off and may not switch (R352). -/
def refusedDomains (v : Word) (s : State) : List Nat :=
  softDomains.filter (fun pd => !bit v pd && bit s.pwr.req pd && refusesOff s pd)

/-- PWR with a write of PD_REQ taken, some domains refused. -/
def Pwr.asked (p : Pwr) (v : Word) (refused : List Nat) : Pwr :=
  { p with
    req := softDomains.foldl (fun w pd => setFld w pd 1 (b2n (bit v pd || refused.contains pd))) 0
    refused := p.refused || !refused.isEmpty
    refusedPd := (refused.getLast?).getD p.refusedPd }

theorem bit_asked_of_mem (p : Pwr) (v : Word) (refused : List Nat) {pd : Nat} (h : pd ∈ softDomains) :
    bit (p.asked v refused).req pd = (bit v pd || decide (pd ∈ refused)) := by
  have hlt : pd < 64 := by have := of_mem_softDomains h; omega
  rw [Pwr.asked, bit_foldl_setFld hlt (fun pd => bit v pd || refused.contains pd), if_pos h, List.contains_eq_mem]

theorem bit_asked_of_not_mem (p : Pwr) (v : Word) (refused : List Nat) {pd : Nat} (hlt : pd < 64) (h : pd ∉ softDomains) :
    bit (p.asked v refused).req pd = false := by
  rw [Pwr.asked, bit_foldl_setFld hlt (fun pd => bit v pd || refused.contains pd), if_neg h, bit_eq_testBit]
  exact Nat.zero_testBit pd

theorem writePdReq_eq (v : Word) (s : State) :
    writePdReq v s = { s with
      pwr := s.pwr.asked v (refusedDomains v s)
      w1c := (if refusedDomains v s = [] then s else setW1c 0x20010 1 s).w1c } := by
  rw [writePdReq, ← refusedDomains]
  cases refusedDomains v s <;> rfl

/-- A recorded trip and its fault; nothing else of the module. -/
theorem trip_fields (s : State) (cause sensor : Nat) :
    let u := trip s cause sensor
    u.pwr = s.pwr.tripped cause sensor ∧ u.bind = s.bind.raisedPower (tick s) ∧ { u with pwr := s.pwr, bind := s.bind } = s := by
  rw [trip_eq]
  exact ⟨rfl, rfl, rfl⟩

/-- Settles O43: the trips of power and temperature, and the domains that software switches. -/
theorem powerAndThermal : Obligations.PowerAndThermal := by
  unfold Obligations.PowerAndThermal
  refine ⟨fun s hp => ⟨fun watts fraction => ⟨fun hs => ?_, fun hs => ?_⟩, fun n temp i hi => ?_⟩, fun s v hv => ?_,
    fun s pd n hp hn ht => ?_⟩
  · exact congrArg Host.Outcome.next (powerTrip_again watts fraction hs)
  · obtain ⟨h1, h2, h3, hq, hl, hf, hk⟩ := powerTrip_fields watts fraction hp hs
    have hpeak := averageOver_iff (s.sampled (watts ++ fraction)).pwr 100 s.pwr.peakLimit
    have hsust := averageOver_iff (s.sampled (watts ++ fraction)).pwr 100000 s.pwr.sustLimit
    have hlong := long_iff (s.sampled (watts ++ fraction)).pwr.overSince (tick s)
    have hsome := fun c => powerTrip_some (c := c) watts fraction hp hs
    have hsince : (s.sampled (watts ++ fraction)).pwr.overSince = _ :=
      if_congr (averageOver_iff { s.pwr with samples := ((watts ++ fraction) :: s.pwr.samples).take 100000, sampled := true }
        100 s.pwr.sustLimit) rfl rfl
    rw [hsince] at h3
    conv at hlong => rhs; rw [hsince]
    refine ⟨_, rfl, h1, h2, h3, fun hk' => ?_, fun hk' hlg => ?_, fun hk' hlg hst => ?_, fun hk' hlg hst => ?_, hq, hl, hf, hk⟩
    · obtain ⟨ht, hb⟩ := hsome 0 (tripCause_peak _ (hpeak.2 hk'))
      exact ⟨ht, congrArg Bindery.raised hb⟩
    · obtain ⟨ht, hb⟩ := hsome 1 (tripCause_sust (mt hpeak.1 hk') (hlong.2 hlg))
      exact ⟨ht, congrArg Bindery.raised hb⟩
    · obtain ⟨ht, hb⟩ := hsome 2 (tripCause_long (mt hpeak.1 hk') (mt hlong.1 hlg) (hsust.2 hst))
      exact ⟨ht, congrArg Bindery.raised hb⟩
    · have he := powerTrip_none watts fraction hp hs (tripCause_none (mt hpeak.1 hk') (mt hlong.1 hlg) (mt hsust.1 hst))
      exact ⟨(congrArg (·.pwr.trip) he :), (congrArg (·.bind.raised) he :)⟩
  · have hw : (8 * warnAt s.pwr : Int) = ((8 * (if s.pwr.warn.toNat < 60 then 60 else if 104 < s.pwr.warn.toNat then 104
        else s.pwr.warn.toNat) : Nat) : Int) := by
      rw [warnAt_eq, Int.natCast_mul]
      rfl
    have hex : exec i s = .next (thermalTrip n temp s) := by
      rcases hi with rfl | rfl <;> rfl
    obtain ⟨hpw, hbd, hrest⟩ := senseTemp_fields n temp s
    rw [hex, thermalTrip_eq n temp hp]
    refine ⟨_, rfl, ?_⟩
    generalize senseTemp n temp s = w at hpw hbd hrest ⊢
    rw [hw] at hbd
    by_cases h : (840 : Int) ≤ temp.toInt
    · simp only [if_pos h]
      obtain ⟨h1, h2, h3⟩ := trip_fields w 3 n.val
      generalize trip w 3 n.val = u at h1 h2 h3 ⊢
      have htick : tick w = tick s := (congrArg tick hrest :)
      rw [hpw] at h1
      rw [hbd, htick] at h2
      rw [← h3] at hrest
      refine ⟨congrArg Pwr.temp h1, congrArg Pwr.tempPeak h1, congrArg Bindery.alertN h2,
        ⟨congrArg Pwr.trip h1, congrArg Bindery.raised h2⟩, ?_⟩
      exact ⟨(congrArg State.quires hrest :), (congrArg State.links hrest :), (congrArg State.far hrest :),
        (congrArg State.clk hrest :)⟩
    · simp only [if_neg h]
      exact ⟨congrArg Pwr.temp hpw, congrArg Pwr.tempPeak hpw, congrArg Bindery.alertN hbd,
        ⟨(congrArg Pwr.trip hpw :), (congrArg Bindery.raised hbd :)⟩, (congrArg State.quires hrest :),
        (congrArg State.links hrest :), (congrArg State.far hrest :), (congrArg State.clk hrest :)⟩
  · have hex : exec (.pdReq v) s = .next (writePdReq v s) := congrArg Host.Outcome.next (if_pos hv)
    rw [hex, writePdReq_eq]
    refine ⟨_, rfl, fun pd hpd => ?_, fun pd hlt hpd => ?_, ?_⟩
    · exact bit_asked_of_mem s.pwr v (refusedDomains v s) hpd
    · exact bit_asked_of_not_mem s.pwr v (refusedDomains v s) hlt hpd
    · have hr : (!(refusedDomains v s).isEmpty) = decide (refusedDomains v s ≠ []) := by cases refusedDomains v s <;> rfl
      refine ⟨congrArg (s.pwr.refused || ·) hr, fun h => ?_, fun pd h => ?_, rfl, rfl, rfl⟩
      · exact (congrArg (fun l : List Nat => l.getLast?.getD s.pwr.refusedPd) h :)
      · exact (congrArg (fun o : Option Nat => o.getD s.pwr.refusedPd) h :)
  · refine congrArg Host.Outcome.next (if_pos ?_)
    rw [hp, Bool.true_and, List.any_eq_true]
    exact ⟨_, hn, by simpa using ht⟩

end Sys2Proof.Machine
end

section
/-! The power cycle: cold power-on, power loss and the recovery path (R6 R22 R32 R324 R459 to R467 R494). -/

namespace Sys2Proof.Machine

theorem colophonOutcome_applied {env : BootEnv} {col : List Byte} (hr : env.colophonReadable = true)
    (hs : env.colophonSigned = true) (hl : limitsAgree col = true) (hf : fencingOk col = true) (hrep : repairsOk col = true) :
    colophonOutcome env col = 0 := by
  rw [colophonOutcome, hr, hs, hl, hf, hrep]
  rfl

theorem limitsAgree_iff (col : List Byte) : limitsAgree col = true ↔
    numAt col 0x0C 1 ≤ 2 ∧ numAt col 6 2 = 6440 - 4 * numAt col 0x0C 1
      ∧ numAt col 0x18 2 = (variantLimits (numAt col 0x0C 1)).1 ∧ numAt col 0x1A 2 = (variantLimits (numAt col 0x0C 1)).2.1 := by
  simp only [limitsAgree, Bool.and_eq_true, decide_eq_true_eq, beq_iff_eq, and_assoc]

/-- The pools of a variant, as its registers hold them (R324). -/
theorem pool_eq {cap : Nat} (h : cap ≤ 2) :
    (BitVec.ofNat 64 ((variantLimits cap).2.2.1 + (variantLimits cap).2.2.2 * 2 ^ 24) : Word) =
      if cap = 0 then packFlds [(0, 24, 140000), (24, 16, 11666)]
      else if cap = 1 then packFlds [(0, 24, 133333), (24, 16, 11111)] else packFlds [(0, 24, 125000), (24, 16, 10416)] := by
  interval_cases cap <;> decide

theorem fenceField_lt (col : List Byte) (f : Nat) : fenceField col f < 8 := by
  rw [fenceField]
  split
  · split <;> omega
  · decide

/-- A folio's field among fields of three bits, one behind the other. -/
theorem fld_foldl_threes (g : Nat → Nat) (l : List Nat) (w : Word) {i : Nat} (hi : 3 * i + 3 ≤ 64) :
    fld (l.foldl (fun w f => setFld w (3 * f) 3 (g f)) w) (3 * i) 3 = if i ∈ l then g i % 8 else fld w (3 * i) 3 := by
  induction l generalizing w with
  | nil => rw [List.foldl_nil, if_neg List.not_mem_nil]
  | cons f l ih =>
    rw [List.foldl_cons, ih]
    by_cases hl : i ∈ l
    · rw [if_pos hl, if_pos (List.mem_cons_of_mem f hl)]
    · rw [if_neg hl]
      by_cases hf : i = f
      · subst hf
        rw [if_pos List.mem_cons_self, fld_setFld_same w (g i) hi]
        rfl
      · rw [if_neg (by simp [hf, hl]), fld_setFld_of_disjoint w (g f) (by omega)]

theorem fld_fenceMapOf (col : List Byte) (f : Fin 16) : fld (fenceMapOf col 0) (3 * f.val) 3 = fenceField col f.val := by
  have hmap : fenceMapOf col 0 = (List.range 16).foldl (fun w f => setFld w (3 * f) 3 (fenceField col f)) 0 := by
    rw [fenceMapOf, packFlds, List.foldl_map]
    rfl
  rw [hmap, fld_foldl_threes _ _ _ (by omega), if_pos (List.mem_range.2 f.isLt), Nat.mod_eq_of_lt (fenceField_lt col f.val)]

/-! ## The stages of the boot -/

theorem Clk.capped_cap (cap : Nat) (c : Clk) : (c.capped cap).cap = cap := by
  rw [Clk.capped]
  split <;> rfl

/-- A booted quire is at its reset values, with a skew and the spares of the colophon. -/
theorem bootQuire_reset (col : List Byte) (map : Word) (q : Fin 64) {qr : Quire} (h : qr.qmask = 0) :
    ∃ skew bank spad, bootQuire col map q qr = Quire.reset skew bank spad ∧ (skew = 0x9 ∨ skew = 0x6) := by
  refine ⟨(bootQuire col map q qr).rstop.skew, (bootQuire col map q qr).bank.repair, (bootQuire col map q qr).stream.spadRepair,
    ?_, ?_⟩
  · simp only [bootQuire, h]
    rfl
  · show (if _ then _ else _) = _ ∨ (if _ then _ else _) = _
    split
    · exact .inl rfl
    · exact .inr rfl

/-- The first training of the links touches links, ports and what the trace keeps of them. -/
theorem bootLinks_rest (env : BootEnv) (s : State) :
    { bootLinks env s with links := s.links, ports := s.ports, trace := s.trace } = s := by
  rw [bootLinks]
  split
  · rfl
  next h =>
    clear h
    generalize List.finRange 26 = ls
    induction ls generalizing s with
    | nil => rfl
    | cons l ls ih =>
      rw [List.foldl_cons]
      have hone : ∃ ks ps tr, (if s.links[l].disabled then s
          else endTraining (updLink s l (fun k => { k with state := 1 })) l env.lanes[l]) =
          { s with links := ks, ports := ps, trace := tr } := by
        split
        · exact ⟨_, _, _, rfl⟩
        · have hrest := (endTraining_ends (updLink s l (fun k => { k with state := 1 })) l env.lanes[l]).rest
          generalize endTraining (updLink s l (fun k => { k with state := 1 })) l env.lanes[l] = u at hrest ⊢
          exact ⟨u.links, u.ports, u.trace,
            (congrArg (fun v : State => { v with links := u.links, ports := u.ports, trace := u.trace }) hrest :)⟩
      obtain ⟨ks, ps, tr, hone⟩ := hone
      rw [hone]
      have h := ih { s with links := ks, ports := ps, trace := tr }
      exact (congrArg (fun v : State => { v with links := s.links, ports := s.ports, trace := s.trace }) h :)

/-- Where the host has rung nothing, nothing is sampled. -/
theorem sampleHeld_none {s : State} (h : s.host.dbIn = 0) : sampleHeld s = s := by
  have h0 : (0 : BitVec 32) &&& ~~~ s.host.dbInMask = 0 := BitVec.zero_and
  rw [sampleHeld, h, h0]
  exact List.foldl_fixed' (fun n => if_neg (by simp)) _

/-- What stages 3 and 5 leave, the colophon applied. -/
structure Applied (env : BootEnv) (s u : State) : Prop where
  powered : u.pwr.powered = s.pwr.powered
  fences : u.bind = { s.bind with
    loaded := 0, entries := Vector.replicate 16 0, dieClaim := 0, folioClaim := 0, mainHash := [], fillerHash := []
    fenceMap := fenceMapOf s.flash.colophon 0, colophonCode := 0, keyOk := env.keyOk, held := false
    runHash := sha256 s.flash.image, runVersion := imageVersion s.flash.image }
  recovery : u.host.recovery = false
  bells : u.host.dbIn = s.host.dbIn
  cap : u.clk.cap = numAt s.flash.colophon 0x0C 1
  peak : u.pwr.peakLimit = BitVec.ofNat 16 (variantLimits (numAt s.flash.colophon 0x0C 1)).2.1
  sust : u.pwr.sustLimit = BitVec.ofNat 16 (variantLimits (numAt s.flash.colophon 0x0C 1)).1
  pool : u.con.pool = BitVec.ofNat 64 ((variantLimits (numAt s.flash.colophon 0x0C 1)).2.2.1
    + (variantLimits (numAt s.flash.colophon 0x0C 1)).2.2.2 * 2 ^ 24)
  quires : (∀ q : Fin 64, s.quires[q].qmask = 0) →
    ∀ q : Fin 64, ∃ skew bank spad, u.quires[q] = Quire.reset skew bank spad ∧ (skew = 0x9 ∨ skew = 0x6)
  far : u.far = s.far
  flash : u.flash = s.flash

theorem bootBindery_applied {env : BootEnv} {s : State} (h : colophonOutcome env s.flash.colophon = 0) :
    Applied env s (bootBindery env s) := by
  have hb : bootBindery env s = { clearBlocks s with
      quires := Vector.ofFn (fun q : Fin 64 =>
        bootQuire s.flash.colophon (fenceMapOf s.flash.colophon 0) q (clearBlocks s).quires[q])
      con := Contract.reset (BitVec.ofNat 64 ((variantLimits (numAt s.flash.colophon 0x0C 1)).2.2.1
        + (variantLimits (numAt s.flash.colophon 0x0C 1)).2.2.2 * 2 ^ 24))
      clk := (clearBlocks s).clk.capped (numAt s.flash.colophon 0x0C 1)
      pwr := { (clearBlocks s).pwr with
        on := 0x3FFF_FFFF, sustLimit := BitVec.ofNat 16 (variantLimits (numAt s.flash.colophon 0x0C 1)).1
        peakLimit := BitVec.ofNat 16 (variantLimits (numAt s.flash.colophon 0x0C 1)).2.1 }
      host := { s.host with colophonInvalid := false, recovery := false }
      bind := { (clearBlocks s).bind with
        fenceMap := fenceMapOf s.flash.colophon 0, colophonCode := 0, keyOk := env.keyOk, held := false
        runHash := sha256 s.flash.image, runVersion := imageVersion s.flash.image } } := by
    rw [bootBindery]
    simp only [h, if_true]
    rfl
  rw [hb]
  refine ⟨rfl, rfl, rfl, rfl, Clk.capped_cap _ _, rfl, rfl, rfl, fun hq q => ?_, rfl, rfl⟩
  simp only [Fin.getElem_fin, Vector.getElem_ofFn]
  refine bootQuire_reset _ _ _ ?_
  simp only [clearBlocks, Vector.getElem_map, clearQuire]
  exact hq q

/-- The self-test without a failure records nothing. -/
theorem bootSelftest_passed {env : BootEnv} (hs : env.selftestFail = none) (hm : env.mcFail = 0) (s : State) :
    bootSelftest env s = { s with bind := { s.bind with selftestFail := false, mcFail := 0, bistFolio := 0, bistSite := 0 } } := by
  rw [bootSelftest, hs, hm]
  rfl

/-- READY, where nothing failed and the host has rung nothing. -/
theorem bootReady_passed {env : BootEnv} {s : State} (hf : s.bind.selftestFail = false) (hb : s.host.dbIn = 0) :
    bootReady env s = { s with
      bind := { s.bind with stage := 15, bootMs := env.bootMs, faultN := s.bind.latch }
      host := { s.host with ready := true, linkUp := s.host.linkUp || !s.host.perst } } := by
  rw [bootReady]
  simp only [hf, Bool.false_eq_true, if_false]
  exact sampleHeld_none hb

/-- The module at the start of the boot's stage 2, the reference present. -/
def State.atStageTwo (s : State) (env : BootEnv) : State :=
  { powerUp s with clk :=
    { bootClock env (powerUp s).clk with
      stitch := (bootClock env (powerUp s).clk).stitch + BitVec.ofNat 64 (1000 * env.bootMs) } }

theorem coldPowerOn_off {env : BootEnv} {s : State} (hp : s.pwr.powered = false) :
    coldPowerOn env s = bootFrom env { powerUp s with clk := bootClock env (powerUp s).clk } := by
  rw [coldPowerOn]
  simp only [hp, Bool.false_and, Bool.false_eq_true, if_false]
  exact congrArg (bootFrom env) (if_pos rfl)

theorem bootFrom_good {env : BootEnv} {s : State} (h : (env.imageOk && flashGood s.flash) = true) :
    bootFrom env { powerUp s with clk := bootClock env (powerUp s).clk } =
      bootReady env (bootLinks env (bootSelftest env (bootBindery env (s.atStageTwo env)))) := by
  have hn : ¬ (!(env.imageOk && flashGood s.flash)) = true := by rw [h]; decide
  exact if_neg hn

theorem bootFrom_broken {env : BootEnv} {s : State} (h : (env.imageOk && flashGood s.flash) = false) :
    bootFrom env { powerUp s with clk := bootClock env (powerUp s).clk } =
      { enterRecovery (s.atStageTwo env) with
        pwr := { (enterRecovery (s.atStageTwo env)).pwr with on := recoveryDomains }
        bind := { (enterRecovery (s.atStageTwo env)).bind with held := true } } := by
  have hn : (!(env.imageOk && flashGood s.flash)) = true := by rw [h]; decide
  exact if_pos hn

theorem recoveryGo_eq {s : State} {v : Word} (verified : Bool) (hr : hostReach s = true) (hrec : s.host.recovery = true)
    (hv : bit v 0 = true) : recoveryGo v verified s = recoveryRun verified (writeRecLength v s) := by
  have hn : ¬ (!(hostReach s && s.host.recovery)) = true := by rw [hr, hrec]; decide
  rw [recoveryGo, if_neg hn]
  exact if_pos hv

/-- Settles O44: cold power-on, power loss and the recovery path's GO. -/
theorem powerCycle : Obligations.PowerCycle := by
  unfold Obligations.PowerCycle
  refine fun s env => ⟨fun hp hi hg href hread hsign hst hmc hl hf hrep => ?_, fun hp hbad => ?_, ?_, fun v verified hr hrec hv => ?_⟩
  · have ho : colophonOutcome env (s.atStageTwo env).flash.colophon = 0 := colophonOutcome_applied hread hsign hl hf hrep
    have happ := bootBindery_applied ho
    obtain ⟨hcap, -, hsust, hpeak⟩ := (limitsAgree_iff _).1 hl
    have hex : exec (.coldPowerOn env) s = .next (coldPowerOn env s) := rfl
    rw [hex, coldPowerOn_off hp, bootFrom_good (by rw [hi, hg]; rfl), bootSelftest_passed hst hmc]
    generalize hb : bootBindery env (s.atStageTwo env) = b at happ ⊢
    have hrest := bootLinks_rest env
      { b with bind := { b.bind with selftestFail := false, mcFail := 0, bistFolio := 0, bistSite := 0 } }
    generalize bootLinks env
      { b with bind := { b.bind with selftestFail := false, mcFail := 0, bistFolio := 0, bistSite := 0 } } = w at hrest ⊢
    have hbind : w.bind = { b.bind with selftestFail := false, mcFail := 0, bistFolio := 0, bistSite := 0 } :=
      (congrArg State.bind hrest :)
    rw [happ.fences] at hbind
    have hhost : w.host = b.host := (congrArg State.host hrest :)
    have hpwr : w.pwr = b.pwr := (congrArg State.pwr hrest :)
    have hquires : w.quires = b.quires := (congrArg State.quires hrest :)
    have hlatch : w.bind.latch = false := by rw [hbind]; rfl
    rw [bootReady_passed (by rw [hbind]) (by rw [hhost, happ.bells]; rfl)]
    refine ⟨_, rfl, ?_, rfl, rfl, ?_, hlatch, hlatch, ?_, ?_, ?_, ?_, ?_, ?_, ?_, fun f => ?_, fun q => ?_, ?_, ?_⟩
    · exact (congrArg Pwr.powered hpwr).trans happ.powered
    · exact (congrArg HostIf.recovery hhost).trans happ.recovery
    · exact (congrArg Bindery.colophonCode hbind :)
    · exact (congrArg Bindery.held hbind :)
    · exact (congrArg Bindery.keyOk hbind :)
    · exact (congrArg (·.clk.cap) hrest :).trans happ.cap
    · exact ((congrArg Pwr.peakLimit hpwr).trans happ.peak).trans (congrArg (BitVec.ofNat 16) hpeak.symm)
    · exact ((congrArg Pwr.sustLimit hpwr).trans happ.sust).trans (congrArg (BitVec.ofNat 16) hsust.symm)
    · exact ((congrArg (·.con.pool) hrest :).trans happ.pool).trans (pool_eq hcap)
    · exact (congrArg (fun x : Bindery => fld x.fenceMap (3 * f.val) 3) hbind :).trans (fld_fenceMapOf _ f)
    · rw [show ({ w with
        bind := { w.bind with stage := 15, bootMs := env.bootMs, faultN := w.bind.latch }
        host := { w.host with ready := true, linkUp := w.host.linkUp || !w.host.perst } } : State).quires = b.quires from hquires]
      exact happ.quires (fun q => by simp only [State.atStageTwo, powerUp, reset_quires]; rfl) q
    · exact (congrArg State.far hrest :).trans happ.far
    · exact (congrArg State.flash hrest :).trans happ.flash
  · have hex : exec (.coldPowerOn env) s = .next (coldPowerOn env s) := rfl
    rw [hex, coldPowerOn_off hp, bootFrom_broken hbad]
    exact ⟨_, rfl, rfl, rfl, rfl, rfl, rfl, rfl⟩
  · exact ⟨_, rfl, rfl, rfl, rfl, rfl, rfl, rfl, rfl, rfl, rfl, rfl, rfl⟩
  · have hex : exec (.recoveryGo v verified) s = .next (recoveryGo v verified s) := rfl
    rw [hex, recoveryGo_eq verified hr hrec hv]
    refine ⟨fun hver h1 h2 hs => ?_, fun hver => ?_⟩
    · refine ⟨_, congrArg Host.Outcome.next (if_pos ?_), rfl, rfl, rfl, rfl, rfl⟩
      have hshape : imageShape (recoveryImage (writeRecLength v s) (fld v 8 13)) = true := hs
      have hlen : (writeRecLength v s).trace.recLength = fld v 8 13 := rfl
      rw [hlen, hver, hshape, decide_eq_true h1, decide_eq_true h2]
      rfl
    · refine congrArg Host.Outcome.next (if_neg ?_)
      rw [hver, Bool.false_and]
      simp

end Sys2Proof.Machine
end

section
/-! The host's link, and its windows into far memory (R193 R426 R441 R444 R499). -/

namespace Sys2Proof.Machine

/-! ## Open copy-engine requests -/

theorem requestOpen_iff (c : Cmd) :
    requestOpen c = true ↔ c.st = .running ∧ c.pkt.flags.toNat.testBit 1 = true ∧ c.host = none := by
  have hf : (BitVec.ofNat 64 c.pkt.flags.toNat).toNat = c.pkt.flags.toNat := by
    rw [BitVec.toNat_ofNat]
    exact Nat.mod_eq_of_lt (by have := c.pkt.flags.isLt; omega)
  simp only [requestOpen, Bool.and_eq_true, beq_iff_eq, Option.isNone_iff_eq_none, bit_eq_testBit, hf, and_assoc]

theorem Cmd.finish_running {c : Cmd} (h : c.st = .running) (place status : Nat) (r0 r1 : Word) :
    c.finish place status r0 r1 = { c with st := .done status r0 r1, doneAt := place } := by
  rw [Cmd.finish, h]
  exact if_pos rfl

/-- The open requests that a test picks end with HOST_ERROR; the other commands stay. -/
theorem answerCmds_open (s : State) (pick all : Cmd → Bool) (hp : ∀ c, all c = true ↔ requestOpen c = true ∧ pick c = true) :
    answerCmds s all 0x0F 0 0 = { s with bind := { s.bind with
      doneCount := s.bind.doneCount + 1
      cmds := s.bind.cmds.map (fun c => if c.st = .running ∧ c.pkt.flags.toNat.testBit 1 = true ∧ c.host = none ∧ pick c = true then
        { c with st := .done 0x0F 0 0, doneAt := s.bind.doneCount } else c) } } := by
  have hone : (fun c : Cmd => if all c then c.finish s.bind.doneCount 0x0F 0 0 else c) = fun c =>
      if c.st = .running ∧ c.pkt.flags.toNat.testBit 1 = true ∧ c.host = none ∧ pick c = true then
        { c with st := .done 0x0F 0 0, doneAt := s.bind.doneCount } else c := by
    funext c
    have hiff : all c = true ↔ c.st = .running ∧ c.pkt.flags.toNat.testBit 1 = true ∧ c.host = none ∧ pick c = true := by
      rw [hp, requestOpen_iff, and_assoc, and_assoc]
    by_cases h : all c = true
    · have hr := hiff.1 h
      rw [if_pos h, if_pos hr, Cmd.finish_running hr.1]
    · rw [if_neg h, if_neg (mt hiff.2 h)]
  rw [answerCmds]
  simp only [hone]

/-- Settles O45: PERST_N, the link, D3hot and the completion timeout. -/
theorem hostLink : Obligations.HostLink := by
  unfold Obligations.HostLink
  refine fun s => ⟨?_, fun hp => ?_, rfl, fun enter hp hl hn => ?_, fun r tag hp => ?_⟩
  · have hex : exec .perstAssert s = .next (perstAssert s) := rfl
    rw [hex, perstAssert, answerCmds_open _ (fun _ => true) _ (by simp)]
    exact ⟨_, rfl, rfl, rfl, rfl⟩
  · have hn : ¬ (!s.host.perst) = true := by rw [hp]; decide
    exact congrArg Host.Outcome.next (if_neg hn)
  · exact congrArg Host.Outcome.next (if_pos (by rw [hp, hl, hn]; rfl))
  · have hex : exec (.completionTimeout r tag) s = .next (completionTimeout r tag s) := rfl
    rw [hex, completionTimeout, if_pos hp,
      answerCmds_open s (fun c => c.ring == r && c.pkt.tag == tag) _ (by simp [and_comm])]
    exact ⟨_, rfl, rfl, rfl⟩

/-! ## A far memory that is not in canonical form, read by the host -/

/-- The module after reset with the host's link up, far memory listed out of order: address 1 before address 0. -/
def misorderedHost : State :=
  { State.reset with far := [(1, 1), (0, 1)], host := { State.reset.host with perst := false, linkUp := true } }

theorem misorderedHost_writes (q : Fin 64) : misorderedHost.quires[q].stream.writes = [] := by
  have h : misorderedHost.quires[q] = Quire.atReset := reset_quires q
  rw [h]
  rfl

theorem misorderedHost_noWrite (a n : Nat) : beatsOnTheWay misorderedHost a n = [] := by
  have h : allQuires.flatMap (fun q => misorderedHost.quires[q].stream.writes) = [] :=
    List.flatMap_eq_nil_iff.2 fun q _ => misorderedHost_writes q
  rw [beatsOnTheWay, h]
  rfl

/-- The first byte of BAR4, read from a far memory that no write is changing, with segment 0 at address 0. -/
theorem bar4Read_first {s : State} (hr : hostReach s = true) (hrec : s.host.recovery = false) (hseg : s.host.bar4Seg = 0x3210)
    (hw : ∀ a n, beatsOnTheWay s a n = []) :
    bar4Read 0 1 s = { s with out := { s.out with read := readBytes s.far 0 1, unsupported := false } } := by
  have hbase : ∀ k, segBase s k = some (fld (0x3210 : Word) (4 * k) 4 * 2 ^ 32) := fun k => by
    rw [segBase, hrec, hseg]
    rfl
  have hbytes : bar4Bytes 0 1 s = (readBytes s.far 0 1, s) := by
    simp only [bar4Bytes, List.range, List.range.loop, List.foldl_cons, List.foldl_nil, hbase, farRead_settled (hw _ _)]
    exact congrArg (·, s) ((List.append_nil _).trans ((List.append_nil _).trans (List.append_nil _)))
  have hn : ¬ (!hostReach s || decide (2 ^ 34 < 0 + 1)) = true := by rw [hr]; decide
  rw [bar4Read, if_neg hn, hbytes]

/-- Refutes O46: where far memory lists address 1 before address 0, a BAR4 read of address 0 misses the byte that stands there. -/
theorem not_hostWindows : ¬ Obligations.HostWindows := by
  unfold Obligations.HostWindows
  intro h
  obtain ⟨hwin, -, -⟩ := h misorderedHost rfl
  obtain ⟨-, ⟨got, n, he, -, hbyte⟩, -⟩ := hwin 0 0 [0] rfl (by decide) (by decide) (by decide)
  have hex : exec (.bar4Read 0 [(0 : Byte)].length) misorderedHost = .next (bar4Read 0 1 misorderedHost) := rfl
  rw [hex, bar4Read_first rfl rfl rfl misorderedHost_noWrite] at he
  have hgot : got = [0] := (congrArg (·.out.read) (Host.Outcome.next.inj he) :).symm
  rcases hbyte 0 (by decide) with hread | ⟨c, o, ho, -⟩
  · rw [hgot] at hread
    exact absurd hread (by decide)
  · rw [misorderedHost_writes c] at ho
    cases ho

end Sys2Proof.Machine
end

section
/-! Doorbells of the host toward rings and quires (R442 R443 R445 R451). -/

namespace Sys2Proof.Machine

/-! ## Masks of one bit -/

theorem testBit_one (n i : Fin 32) : (1#32 <<< n.val).toNat.testBit i.val = decide (i = n) := by
  rw [BitVec.testBit_toNat, BitVec.getLsbD_shiftLeft, BitVec.getLsbD_one, Bool.eq_iff_iff]
  simp only [Bool.and_eq_true, Bool.not_eq_true', decide_eq_true_eq, decide_eq_false_iff_not, Fin.ext_iff]
  omega

/-- What is done for each bit of a mask is, for a mask of one bit, done for that bit alone. -/
theorem foldl_one (f : State → Fin 32 → State) (n : Fin 32) (s : State) :
    (List.finRange 32).foldl (fun s i => if (1#32 <<< n.val).toNat.testBit i.val then f s i else s) s = f s n := by
  rw [← List.foldl_filter, filter_singleton (List.nodup_finRange 32) (List.mem_finRange n) fun c _ => by
    rw [testBit_one, decide_eq_true_iff]]
  rfl

/-- What is done for each bit of a mask is, for an empty mask, not done. -/
theorem foldl_zero (f : State → Fin 32 → State) (s : State) :
    (List.finRange 32).foldl (fun s i => if (0 : BitVec 32).toNat.testBit i.val then f s i else s) s = s :=
  List.foldl_fixed' (fun i => if_neg (by simp)) _

/-! ## Ringing a quire -/

/-- A quire at which bit n is rung at a tick. -/
def Quire.rung (n : Fin 32) (now : Nat) (k : Quire) : Quire :=
  if k.dbToQuire.toNat.testBit n.val then k
  else { k with dbToQuire := k.dbToQuire ||| (1#32 <<< n.val), dbToSince := k.dbToSince.set n now }

theorem ringQuireRaw_eq (s : State) (q : Fin 64) (n : Fin 32) : ringQuireRaw s q n = updQ s q (Quire.rung n (tick s)) := rfl

/-- A quire that is rung where it is on a route, as the statements say it. -/
theorem Quire.rung_where (k : Quire) (n : Fin 32) (now : Nat) (c : Prop) [Decidable c] :
    (if c then Quire.rung n now else id) k =
      if c ∧ k.dbToQuire.toNat.testBit n.val = false then
        { k with dbToQuire := k.dbToQuire ||| (1#32 <<< n.val), dbToSince := k.dbToSince.set n now }
      else k := by
  by_cases hc : c
  · by_cases hb : k.dbToQuire.toNat.testBit n.val = true
    · rw [if_pos hc, Quire.rung, if_pos hb, if_neg fun h => Bool.false_ne_true (h.2.symm.trans hb)]
    · rw [if_pos hc, Quire.rung, if_neg hb, if_pos ⟨hc, Bool.eq_false_iff.2 hb⟩]
  · rw [if_neg hc, if_neg fun h => hc h.1]
    rfl

theorem Quire.rung_seq (n : Fin 32) (now : Nat) (k : Quire) : (k.rung n now).seq = k.seq := by
  rw [Quire.rung]
  split <;> rfl

theorem quireDeaf_rung (s : State) (q x : Fin 64) (n : Fin 32) (now : Nat) :
    quireDeaf (updQ s q (Quire.rung n now)) x = quireDeaf s x := by
  have hseq : (updQ s q (Quire.rung n now)).quires[x].seq = s.quires[x].seq := by
    rw [updQ_quires]
    split <;> simp only [Quire.rung_seq, *]
  simp only [quireDeaf, hseq]
  rfl

/-- A quire that can take the bit is rung and nothing is flagged. -/
theorem ringQuire_heard {s : State} {q : Fin 64} (n : Fin 32) (h : quireDeaf s q = false) :
    ringQuire s q n = updQ s q (Quire.rung n (tick s)) := by
  have hc : checkQuire (ringQuireRaw s q n) q n = ringQuireRaw s q n := by
    rw [ringQuireRaw_eq, checkQuire, quireDeaf_rung, h, Bool.and_false]
    exact if_neg Bool.false_ne_true
  rw [ringQuire]
  simp only [hc, ite_self]
  rfl

/-- A bit relayed to the quires of a route, each of which can take it. -/
theorem foldl_ringQuire (n : Fin 32) (route : Word) (now : Nat) (qs : List (Fin 64)) :
    ∀ s : State, tick s = now → (∀ q : Fin 64, route.toNat.testBit q.val = true → quireDeaf s q = false) →
      qs.foldl (fun s q => if route.toNat.testBit q.val then ringQuire s q n else s) s =
        qs.foldl (fun s q => updQ s q (if route.toNat.testBit q.val then Quire.rung n now else id)) s := by
  induction qs with
  | nil => exact fun _ _ _ => rfl
  | cons q qs ih =>
    intro s ht hd
    rw [List.foldl_cons, List.foldl_cons]
    by_cases hq : route.toNat.testBit q.val = true
    · rw [if_pos hq, if_pos hq, ringQuire_heard n (hd q hq), ht]
      exact ih _ ht fun x hx => (quireDeaf_rung s q x n now).trans (hd x hx)
    · rw [if_neg hq, if_neg hq, updQ_id s q rfl]
      exact ih s ht hd

/-! ## Bells of the host -/

theorem ringIn_set {s : State} {n : Fin 32} (h : s.host.dbIn.toNat.testBit n.val = true) : ringIn s n = s := by
  rw [ringIn, h, Bool.or_true, if_pos rfl]

theorem ringIn_reserved {s : State} {n : Fin 32} (h : 4 ≤ n.val ∧ n.val ≤ 7) : ringIn s n = s := by
  rw [ringIn, decide_eq_true h.1, decide_eq_true h.2]
  rfl

theorem ringIn_arrives {s : State} {n : Fin 32} (h : n.val < 4 ∨ 8 ≤ n.val) (hs : s.host.dbIn.toNat.testBit n.val = false) :
    ringIn s n = arriveIn s n := by
  refine if_neg ?_
  rw [hs, Bool.or_false, Bool.and_eq_true, decide_eq_true_eq, decide_eq_true_eq]
  omega

theorem arriveIn_masked {s : State} {n : Fin 32} (h : s.host.dbInMask.toNat.testBit n.val = true) :
    arriveIn s n = { s with host := { s.host with dbIn := s.host.dbIn ||| (1#32 <<< n.val) } } := by
  rw [arriveIn, h, Bool.true_or, if_pos rfl]

theorem arriveIn_open {s : State} {n : Fin 32} (h : s.host.dbInMask.toNat.testBit n.val = false) (hf : firmwareRuns s = true) :
    arriveIn s n = sampleIn s n := by
  rw [arriveIn, h, hf]
  rfl

/-- The bit of the host that the bindery samples is clear. -/
def State.sampledIn (s : State) (n : Fin 32) : State :=
  { s with host := { s.host with dbIn := s.host.dbIn &&& ~~~ (1#32 <<< n.val) } }

theorem sampleIn_ring {s : State} {n : Fin 32} {r : Fin 4} (h : n.val = r.val) (hrec : s.host.recovery = false) :
    sampleIn s n = ringBell (s.sampledIn n) r := by
  have hlt : n.val < 4 := h ▸ r.isLt
  have hr : (⟨n.val, hlt⟩ : Fin 4) = r := Fin.ext h
  rw [sampleIn, if_neg (by rw [hrec]; decide)]
  exact (dif_pos hlt).trans (by rw [hr]; rfl)

theorem sampleIn_relay {s : State} {n : Fin 32} (h : 8 ≤ n.val) (hrec : s.host.recovery = false) :
    sampleIn s n = allQuires.foldl (fun u q => if s.mbox.route[n].toNat.testBit q.val then ringQuire u q n else u)
      (s.sampledIn n) := by
  rw [sampleIn, if_neg (by rw [hrec]; decide)]
  exact dif_neg (by omega)

theorem ringFill_ne_zero (s : State) (r : Fin 4) : (ringFill s r != 0) = decide (cmdProd s r ≠ cmdCons s r) := by
  have hp : cmdProd s r < 65536 := fld_lt _ _ _
  have hc : cmdCons s r < 65536 := fld_lt _ _ _
  rw [Bool.eq_iff_iff, bne_iff_ne, decide_eq_true_iff, ringFill]
  omega

/-- The bell of a ring whose producer index is legal makes it active until its packets are taken. -/
theorem ringBell_fits {s : State} {r : Fin 4} (h : ringFill s r ≤ ringSize s r) :
    ringBell s r = { s with host := { s.host with active := s.host.active.set r (decide (cmdProd s r ≠ cmdCons s r)) } } := by
  rw [ringBell, ringFill_ne_zero]
  refine if_neg ?_
  have hd : decide (ringSize s r < ringFill s r) = false := decide_eq_false (by omega)
  simp only [Bool.and_eq_true, not_and]
  exact fun _ => Bool.eq_false_iff.1 hd

/-- A bell that the bindery samples at once. -/
theorem ringMask_ring {s : State} {n : Fin 32} {r : Fin 4} (h : n.val = r.val) (hrec : s.host.recovery = false)
    (hf : firmwareRuns s = true) (hm : s.host.dbInMask.toNat.testBit n.val = false) (hs : ringFill s r ≤ ringSize s r) :
    arriveIn s n = { s with host := { s.host with
      dbIn := s.host.dbIn &&& ~~~ (1#32 <<< n.val), active := s.host.active.set r (decide (cmdProd s r ≠ cmdCons s r)) } } := by
  rw [arriveIn_open hm hf, sampleIn_ring h hrec]
  exact ringBell_fits (s := s.sampledIn n) hs

theorem writeInMask_holds {s : State} {v : BitVec 32} (h : s.host.dbIn &&& s.host.dbInMask &&& ~~~ v = 0) :
    writeInMask v s = { s with host := { s.host with dbInMask := v } } := by
  rw [writeInMask, h]
  exact foldl_zero arriveIn _

theorem writeInMask_frees {s : State} {n : Fin 32} (h : s.host.dbIn &&& s.host.dbInMask &&& ~~~ 0 = 1#32 <<< n.val) :
    writeInMask 0 s = arriveIn { s with host := { s.host with dbInMask := 0 } } n := by
  rw [writeInMask, h]
  exact foldl_one arriveIn n _

/-- Settles O47: the host's doorbells toward rings and quires. -/
theorem hostBells : Obligations.HostBells := by
  unfold Obligations.HostBells
  intro s n hv hp hf
  have hv' : (hostReach s && !s.host.recovery) = true := hv
  obtain ⟨hreach, hrec⟩ := Bool.and_eq_true_iff.1 hv'
  rw [Bool.not_eq_true'] at hrec
  have hset : exec (.dbInSet (1#32 <<< n.val)) s = .next (ringIn s n) :=
    congrArg Host.Outcome.next ((if_pos hreach).trans (foldl_one ringIn n s))
  have hmask : ∀ v, exec (.dbInMask v) s = .next (writeInMask v s) := fun v => congrArg Host.Outcome.next (if_pos hv)
  intro one
  refine ⟨fun h4 h7 => ?_, fun hn hm => ?_, fun hs => ?_, fun r hn hm hs hfill => ?_, fun hn hm hs hd => ?_, fun v hh => ?_,
    fun r hn hs hm hfill => ?_⟩
  · rw [hset, ringIn_reserved ⟨h4, h7⟩]
  · rw [hset]
    by_cases hs : s.host.dbIn.toNat.testBit n.val = true
    · rw [ringIn_set hs, dbOut_set hs]
    · rw [ringIn_arrives hn (Bool.eq_false_iff.2 hs), arriveIn_masked hm]
  · rw [hset, ringIn_set hs]
  · rw [hset, ringIn_arrives (by omega) hs, ringMask_ring hn hrec hf hm hfill]
  · rw [hset, ringIn_arrives (.inr hn) hs, arriveIn_open hm hf, sampleIn_relay hn hrec,
      foldl_ringQuire n s.mbox.route[n] (tick s) allQuires (s.sampledIn n) rfl hd]
    have hrest := foldl_updQ_rest
      (fun q => if s.mbox.route[n].toNat.testBit q.val then Quire.rung n (tick s) else id) allQuires (s.sampledIn n)
    have hquires := fun q => foldl_updQ_quires
      (fun q => if s.mbox.route[n].toNat.testBit q.val then Quire.rung n (tick s) else id) q allQuires allQuires_nodup (s.sampledIn n)
    generalize allQuires.foldl (fun u q => updQ u q (if s.mbox.route[n].toNat.testBit q.val then Quire.rung n (tick s) else id))
      (s.sampledIn n) = u at hrest hquires ⊢
    refine ⟨u, rfl, fun q => ?_, ?_, (congrArg (·.host.dbIn) hrest :)⟩
    · have hq := hquires q
      rw [if_pos (mem_allQuires q), show (s.sampledIn n).quires[q] = s.quires[q] from rfl] at hq
      exact hq.trans (Quire.rung_where s.quires[q] n (tick s) (s.mbox.route[n].toNat.testBit q.val = true))
    · exact (congrArg (fun w : State => { w with quires := s.quires, host := { w.host with dbIn := s.host.dbIn } }) hrest :)
  · rw [hmask, writeInMask_holds hh]
  · have hall : s.host.dbIn &&& s.host.dbInMask &&& ~~~ 0 = 1#32 <<< n.val := by
      rw [hs, hm, BitVec.and_self]
      exact BitVec.and_allOnes
    have hclear : s.host.dbIn &&& ~~~ (1#32 <<< n.val) = 0 := by
      rw [hs]
      exact BitVec.and_not_self _
    rw [hmask, writeInMask_frees hall,
      ringMask_ring (s := { s with host := { s.host with dbInMask := 0 } }) hn hrec hf (by simp) hfill]
    simp only [hclear]
    rfl

end Sys2Proof.Machine
end

section
/-! Doorbells toward the host and the quires, their messages and timeouts (R14 R421 R442 to R446). -/

namespace Sys2Proof.Machine

/-! ## Bits that a write clears -/

/-- Where every entry of a register holds the bits v, a write of v clears them all. -/
theorem clears_all {s : State} {a : Nat} {v : Word} (hm : (a, v) ∈ s.w1c) (hall : ∀ p ∈ s.w1c, p.1 = a → p.2 = v) :
    clears s a v = v := by
  cases hf : s.w1c.find? (fun p => p.1 == a) with
  | none => exact absurd (List.find?_eq_none.1 hf (a, v) hm) (by simp)
  | some p =>
    have hp : p.2 = v := hall p (List.mem_of_find?_eq_some hf) (beq_iff_eq.1 (List.find?_some (p := fun p : Nat × Word => p.1 == a) hf))
    rw [clears, hf]
    simp only [hp, BitVec.and_self]

theorem maskOf_one (n : Nat) : maskOf n 1 = 1#64 <<< n := by
  apply BitVec.eq_of_toNat_eq
  simp [maskOf, BitVec.toNat_shiftLeft]

theorem ofNat_fld_low (v : BitVec 32) : BitVec.ofNat 32 (fld (BitVec.ofNat 64 v.toNat) 0 32) = v := by
  rw [ofNat_fld]
  apply BitVec.eq_of_toNat_eq
  have := v.isLt
  simp only [BitVec.extractLsb'_toNat, BitVec.toNat_ofNat, Nat.shiftRight_zero]
  omega

theorem writeOut_all {s : State} {v : BitVec 32} (hm : (0x30058, BitVec.ofNat 64 v.toNat) ∈ s.w1c)
    (hall : ∀ p ∈ s.w1c, p.1 = 0x30058 → p.2 = BitVec.ofNat 64 v.toNat) :
    writeOut v s = setW1c 0x30058 (BitVec.ofNat 64 v.toNat) (clearOut v s) := by
  rw [writeOut]
  simp only [clears_all hm hall, ofNat_fld_low]

theorem clearOut_eq (v : BitVec 32) (s : State) : clearOut v s = { s with
    host := { s.host with dbOut := s.host.dbOut &&& ~~~ v }
    mbox := { s.mbox with outSrc := Vector.ofFn (fun i : Fin 32 =>
      if 8 ≤ i.val ∧ v.toNat.testBit i.val = true then 0 else s.mbox.outSrc[i]) } } := by
  simp only [clearOut, Bool.and_eq_true, decide_eq_true_eq, ge_iff_le]

/-! ## Bells of a quire -/

theorem deliveredFrom_open {k : Quire} (h : fld k.qmask 0 32 = 0) : deliveredFrom k = k.dbFromQuire := by
  rw [deliveredFrom, h]
  exact BitVec.and_allOnes

theorem takeQuireBits_one {s : State} {q : Fin 64} {n : Fin 32} (h : deliveredFrom s.quires[q] = 1#32 <<< n.val) :
    takeQuireBits q s = takeQuireBit q s n := by
  rw [takeQuireBits, h]
  exact foldl_one (takeQuireBit q) n s

theorem takeQuireBits_none {s : State} {q : Fin 64} (h : deliveredFrom s.quires[q] = 0) : takeQuireBits q s = s := by
  rw [takeQuireBits, h]
  exact foldl_zero (takeQuireBit q) s

/-- The bit of the quire that the bindery takes is clear, the only one it had rung. -/
theorem taken_one {s : State} {q : Fin 64} {n : Fin 32} (h : s.quires[q].dbFromQuire = 1#32 <<< n.val) :
    updQ s q (fun qr => { qr with dbFromQuire := qr.dbFromQuire &&& ~~~ (1#32 <<< n.val) }) =
      updQ s q (fun qr => { qr with dbFromQuire := 0 }) :=
  updQ_congr (by rw [h]; simp only [BitVec.and_not_self])

theorem takeQuireBit_flag {s : State} {q : Fin 64} {n : Fin 32} (h : s.quires[q].dbFromQuire = 1#32 <<< n.val) (hn : n.val < 8) :
    takeQuireBit q s n = setW1c (0x40380 + 8 * q.val) (1#64 <<< n.val)
      (updQ (updQ s q (fun k => { k with dbFromQuire := 0 })) q (fun k => { k with qflag := setFld k.qflag n.val 1 1 })) := by
  rw [takeQuireBit, taken_one h, maskOf_one]
  exact if_pos hn

/-- A bit that the host's mask holds waits, its message pending. -/
theorem ringHost_masked {s : State} {n : Fin 32} (hm : s.host.dbOutMask.toNat.testBit n.val = true)
    (hd : s.host.dbOut.toNat.testBit n.val = false) :
    ringHost s n = setW1c 0x30058 (1#64 <<< n.val) { s with host := { s.host with
      dbOut := s.host.dbOut ||| (1#32 <<< n.val), dbOutSince := s.host.dbOutSince.set n (tick s)
      msixPending := s.host.msixPending ||| (1#32 <<< n.val) } } := by
  have hraw := ringHostRaw_masked hm hd
  have hmask : (ringHostRaw s n).host.dbOutMask.toNat.testBit n.val = true := by
    rw [hraw]
    exact hm
  rw [ringHost]
  simp only [hmask, Bool.or_true, if_true]
  rw [hraw, maskOf_one]

/-- A relayed bit that the host's mask holds. -/
theorem takeQuireBit_relay {s : State} {q : Fin 64} {n : Fin 32} (h : s.quires[q].dbFromQuire = 1#32 <<< n.val) (hn : 8 ≤ n.val)
    (hm : s.host.dbOutMask.toNat.testBit n.val = true) (hd : s.host.dbOut.toNat.testBit n.val = false) :
    takeQuireBit q s n = setW1c 0x30058 (1#64 <<< n.val) { updQ s q (fun k => { k with dbFromQuire := 0 }) with
      mbox := { s.mbox with outSrc := s.mbox.outSrc.set n (s.mbox.outSrc[n] ||| (1#64 <<< q.val)) }
      host := { s.host with dbOut := s.host.dbOut ||| (1#32 <<< n.val), dbOutSince := s.host.dbOutSince.set n (tick s)
                            msixPending := s.host.msixPending ||| (1#32 <<< n.val) } } := by
  rw [takeQuireBit, taken_one h]
  refine (if_neg (by omega)).trans ?_
  exact ringHost_masked (s := { updQ s q (fun k => { k with dbFromQuire := 0 }) with
    mbox := { s.mbox with outSrc := s.mbox.outSrc.set n (s.mbox.outSrc[n] ||| (1#64 <<< q.val)) } }) hm hd

/-! ## Messages -/

/-- A pending message whose vector and mask are open goes out. -/
theorem releaseMsix_sends {s : State} {n : Fin 32} (hp : s.host.msixPending.toNat.testBit n.val = true)
    (hb : s.host.dbOut.toNat.testBit n.val = true) (hm : s.host.dbOutMask.toNat.testBit n.val = false)
    (hv : s.host.msixMask[n] = false) (hl : s.host.linkUp = true) (hr : s.host.perst = false) :
    releaseMsix s n = { s with
      out := { s.out with msix := s.out.msix ++ [{ vector := n, addr := s.host.msixAddr[n], data := s.host.msixData[n] }] }
      host := { s.host with msixPending := s.host.msixPending &&& ~~~ (1#32 <<< n.val) } } := by
  simp only [releaseMsix, sendMsix, hp, hb, hm, hv, hl, hr, Bool.not_false, Bool.and_self, if_true]

theorem releaseMsix_none {s : State} {n : Fin 32} (hp : s.host.msixPending = 0) : releaseMsix s n = s := by
  rw [releaseMsix, hp]
  exact if_neg (by simp)

/-- A held bit toward a host that listens is delivered: its timer starts. -/
theorem deliverOut_heard {s : State} {n : Fin 32} (hp : s.host.msixPending = 0) (hb : s.host.dbOut.toNat.testBit n.val = true)
    (hd : hostDeaf s = false) :
    deliverOut s n = { s with host := { s.host with dbOutSince := s.host.dbOutSince.set n (tick s) } } := by
  have hd' : hostDeaf { s with host := { s.host with dbOutSince := s.host.dbOutSince.set n (tick s) } } = false := hd
  rw [deliverOut, releaseMsix_none hp]
  simp only [hb, if_true, checkHost, hd', Bool.and_false, Bool.false_eq_true, if_false]

theorem writeOutMask_frees {s : State} {n : Fin 32} (h : s.host.dbOutMask = 1#32 <<< n.val) :
    writeOutMask 0 s = deliverOut { s with host := { s.host with dbOutMask := 0 } } n := by
  have ho : s.host.dbOutMask &&& ~~~ 0 = 1#32 <<< n.val := by
    rw [h]
    exact BitVec.and_allOnes
  rw [writeOutMask, ho]
  exact foldl_one deliverOut n _

/-- A quire's mask that opens nothing. -/
theorem writeQmask_quiet {s : State} {q : Fin 64} {v : Word} (ho : fld (s.quires[q].qmask &&& ~~~ v) 32 32 = 0)
    (hd : s.quires[q].dbFromQuire &&& ~~~ (BitVec.ofNat 32 (fld v 0 32)) = 0) :
    writeQmask q v s = updQ s q (fun k => { k with qmask := v }) := by
  rw [writeQmask, ho]
  have hfold : (List.finRange 32).foldl (fun u (i : Fin 32) => if (0 : Nat).testBit i.val then deliverToQuire q u i else u)
      (updQ s q (fun k => { k with qmask := v })) = updQ s q (fun k => { k with qmask := v }) :=
    List.foldl_fixed' (fun i => if_neg (by simp)) _
  refine (congrArg (takeQuireBits q) hfold).trans (takeQuireBits_none ?_)
  rw [updQ_quires_self]
  exact hd

/-! ## Timeouts -/

theorem Quire.rung_new {k : Quire} {n : Fin 32} (now : Nat) (h : k.dbToQuire.toNat.testBit n.val = false) :
    k.rung n now = { k with dbToQuire := k.dbToQuire ||| (1#32 <<< n.val), dbToSince := k.dbToSince.set n now } := by
  rw [Quire.rung, h]
  exact if_neg Bool.false_ne_true

theorem ringHostRaw_dbTimeout (s : State) (n : Fin 32) : (ringHostRaw s n).host.dbTimeout = s.host.dbTimeout := by
  unfold ringHostRaw sendMsix
  dsimp only
  split
  · rfl
  · split <;> rfl

/-- A flag towards the host: the timeout flag of the bit and DB06. -/
theorem flagHost_fields (s : State) (n : Fin 32) :
    (flagHost s n).host.dbTimeout = s.host.dbTimeout ||| (1#32 <<< n.val)
      ∧ (flagHost s n).host.dbOut = s.host.dbOut ||| (1#32 <<< 6) ∧ (flagHost s n).quires = s.quires := by
  have hhost : (flagHost s n).host = (ringHostRaw (setTimeout s n) 6).host := rfl
  have hquires : (flagHost s n).quires = (ringHostRaw (setTimeout s n) 6).quires := rfl
  rw [hhost, hquires, ringHostRaw_dbTimeout, ringHostRaw_dbOut]
  exact ⟨rfl, rfl, (congrArg State.quires (ringHostRaw_rest (setTimeout s n) 6) :)⟩

/-- Settles O48: the doorbells toward the host and the quires. -/
theorem outwardBells : Obligations.OutwardBells := by
  unfold Obligations.OutwardBells
  intro s n q hv hp
  have hv' : (hostReach s && !s.host.recovery) = true := hv
  obtain ⟨hreach, hrec⟩ := Bool.and_eq_true_iff.1 hv'
  have hreach' : (s.pwr.powered && s.host.linkUp && !s.host.perst && !s.host.d3hot) = true := hreach
  simp only [Bool.and_eq_true, Bool.not_eq_true'] at hreach'
  obtain ⟨⟨⟨-, hlink⟩, hperst⟩, -⟩ := hreach'
  have hbell : exec (.quireDoorbell q) s = .next (takeQuireBits q s) :=
    congrArg Host.Outcome.next (if_pos (by rw [hp, hrec]; rfl))
  intro one k taken
  refine ⟨fun hk hq hn => ?_, fun hk hq hn hm hd => ?_, fun v hm hall => ?_, fun hpend hb hm => ?_, fun hm hb hpend hd => ?_,
    fun v ho hd => ?_, fun hk hq ht h7 => ?_, fun hn hb hm ht => ?_⟩
  · rw [hbell, takeQuireBits_one ((deliveredFrom_open hq).trans hk), takeQuireBit_flag hk hn]
  · rw [hbell, takeQuireBits_one ((deliveredFrom_open hq).trans hk), takeQuireBit_relay hk hn hm hd]
  · have hex : exec (.dbOut v) s = .next (writeOut v s) := congrArg Host.Outcome.next (if_pos hv)
    rw [hex, writeOut_all hm hall, clearOut_eq]
  · have hex : exec (.msixVectorUnmask n) s = .next (unmaskVector n s) := congrArg Host.Outcome.next (if_pos hv)
    rw [hex, unmaskVector, releaseMsix_sends (s := { s with host := { s.host with msixMask := s.host.msixMask.set n false } })
      hpend hb hm (Vector.getElem_set_self _) hlink hperst]
  · have hex : exec (.dbOutMask 0) s = .next (writeOutMask 0 s) := congrArg Host.Outcome.next (if_pos hv)
    rw [hex, writeOutMask_frees hm, deliverOut_heard (s := { s with host := { s.host with dbOutMask := 0 } }) hpend
      (by show s.host.dbOut.toNat.testBit n.val = true; rw [hb, testBit_one]; exact decide_eq_true rfl) hd]
    rfl
  · have hex : exec (.qmask q v) s = .next (writeQmask q v s) := congrArg Host.Outcome.next (if_pos hv)
    rw [hex, writeQmask_quiet ho hd]
  · have hset : (deliveredFrom k).toNat.testBit n.val = true := by
      rw [deliveredFrom_open hq, hk, testBit_one]
      exact decide_eq_true rfl
    have hex : exec (.dbTimeout (.fromQuire q n)) s = .next (ringQuireRaw s q 7) := by
      refine congrArg Host.Outcome.next ?_
      rw [dbTimeout, if_neg (by rw [hp]; decide)]
      exact if_pos (by rw [show s.quires[q] = k from rfl, hset, ← ht, beq_self_eq_true]; rfl)
    rw [hex, ringQuireRaw_eq]
    exact congrArg Host.Outcome.next (updQ_congr (Quire.rung_new (n := 7) (tick s) h7))
  · have hex : exec (.dbTimeout (.toQuire q n)) s = .next (flagHost s n) := by
      refine congrArg Host.Outcome.next ?_
      rw [dbTimeout, if_neg (by rw [hp]; decide)]
      exact if_pos (by rw [show s.quires[q] = k from rfl, hb, hm, ← ht, beq_self_eq_true, decide_eq_true hn]; rfl)
    rw [hex]
    exact ⟨_, rfl, flagHost_fields s n⟩

end Sys2Proof.Machine
end

section
/-! Register writes of the host: rings, heartbeat, fences and whole registers (R12 R14 R397 R398 R428 R444 R450). -/

namespace Sys2Proof.Machine

/-! ## The configuration of a ring -/

/-- The fields of RING_CFG that a write takes while the ring is not enabled. -/
def ringFields (old v : Word) : Word :=
  if bit old 0 then old else setFld (setFld (setFld old 4 4 (fld v 4 4)) 8 24 (fld v 8 24)) 32 24 (fld v 32 24)

/-- RING_CFG with a write's fields and its clear of ERR. -/
def ringCleared (old v : Word) : Word := if bit v 1 then setFld (ringFields old v) 1 1 0 else ringFields old v

theorem ringCfgAfter_eq (old v : Word) : ringCfgAfter old v = setFld (ringCleared old v) 0 1
    (b2n (bit v 0 && (bit old 0 || (6 ≤ fld (ringCleared old v) 4 4 && fld (ringCleared old v) 4 4 ≤ 12 && ringsFit (ringCleared old v))))) :=
  rfl

theorem fld_ringFields (old v : Word) :
    let w := if bit old 0 then old else v
    fld (ringFields old v) 4 4 = fld w 4 4 ∧ fld (ringFields old v) 8 24 = fld w 8 24 ∧ fld (ringFields old v) 32 24 = fld w 32 24
      ∧ bit (ringFields old v) 1 = bit old 1 := by
  by_cases h : bit old 0 = true
  · simp only [ringFields, h, if_true, and_self]
  · simp only [ringFields, h, if_false, Bool.false_eq_true]
    have hmod : ∀ lo len, fld v lo len % 2 ^ len = fld v lo len := fun lo len => Nat.mod_eq_of_lt (fld_lt v lo len)
    refine ⟨?_, ?_, ?_, ?_⟩
    · rw [fld_setFld_of_disjoint _ _ (by decide), fld_setFld_of_disjoint _ _ (by decide), fld_setFld_same _ _ (by decide), hmod]
    · rw [fld_setFld_of_disjoint _ _ (by decide), fld_setFld_same _ _ (by decide), hmod]
    · rw [fld_setFld_same _ _ (by decide), hmod]
    · rw [bit, fld_setFld_of_disjoint _ _ (by decide), fld_setFld_of_disjoint _ _ (by decide),
        fld_setFld_of_disjoint _ _ (by decide), ← bit]

theorem fld_ringCleared (old v : Word) {lo len : Nat} (h : 2 ≤ lo) : fld (ringCleared old v) lo len = fld (ringFields old v) lo len := by
  rw [ringCleared]
  split
  · exact fld_setFld_of_disjoint _ _ (.inl h)
  · rfl

theorem bit_ringCleared (old v : Word) : bit (ringCleared old v) 1 = (bit old 1 && !bit v 1) := by
  obtain ⟨-, -, -, h1⟩ := fld_ringFields old v
  rw [ringCleared]
  by_cases h : bit v 1 = true
  · rw [if_pos h, h, bit, fld_setFld_same _ _ (by decide)]
    simp
  · rw [if_neg h, h1, Bool.eq_false_iff.2 h, Bool.not_false, Bool.and_true]

theorem ringsFit_iff (cfg : Word) : ringsFit cfg = true ↔
    fld cfg 8 24 * 4096 + 2 ^ fld cfg 4 4 * 64 ≤ 48 * 2 ^ 30 ∧ fld cfg 32 24 * 4096 + 2 ^ fld cfg 4 4 * 32 ≤ 48 * 2 ^ 30 := by
  simp only [ringsFit, Bool.and_eq_true, decide_eq_true_eq]

/-- RING_CFG after a write, field by field. -/
theorem ringCfgAfter_fields (old v : Word) :
    let w := if bit old 0 then old else v
    let fits := 6 ≤ fld w 4 4 ∧ fld w 4 4 ≤ 12 ∧ fld w 8 24 * 4096 + 2 ^ fld w 4 4 * 64 ≤ 48 * 2 ^ 30
      ∧ fld w 32 24 * 4096 + 2 ^ fld w 4 4 * 32 ≤ 48 * 2 ^ 30
    let u := ringCfgAfter old v
    fld u 4 4 = fld w 4 4 ∧ fld u 8 24 = fld w 8 24 ∧ fld u 32 24 = fld w 32 24
      ∧ bit u 0 = (bit v 0 && (bit old 0 || decide fits)) ∧ bit u 1 = (bit old 1 && !bit v 1) := by
  intro w fits u
  obtain ⟨h4, h8, h32, -⟩ := fld_ringFields old v
  rw [← fld_ringCleared old v (by decide)] at h4 h8 h32
  have hrest : ∀ {lo len}, 1 ≤ lo → fld u lo len = fld (ringCleared old v) lo len := fun {lo len} h => by
    rw [show u = _ from ringCfgAfter_eq old v, fld_setFld_of_disjoint _ _ (.inl h)]
  refine ⟨(hrest (by decide)).trans h4, (hrest (by decide)).trans h8, (hrest (by decide)).trans h32, ?_, ?_⟩
  · rw [show u = _ from ringCfgAfter_eq old v, bit_setFld_one (by decide), if_pos rfl]
    congr 2
    rw [Bool.eq_iff_iff, Bool.and_eq_true, Bool.and_eq_true, decide_eq_true_iff, decide_eq_true_iff, decide_eq_true_iff, ringsFit_iff,
      h4, h8, h32, and_assoc]
  · rw [bit, hrest (by decide), ← bit, bit_ringCleared]

theorem bit_cleared (v c : Word) : bit (setFld v 1 1 (fld c 1 1)) 0 = bit v 0 ∧ bit (setFld v 1 1 (fld c 1 1)) 1 = bit c 1 := by
  constructor
  · rw [bit, fld_setFld_of_disjoint _ _ (by decide), ← bit]
  · rw [bit, fld_setFld_same _ _ (by decide), Nat.mod_eq_of_lt (fld_lt c 1 1), ← bit]

theorem fld_cleared_of_le (b : Bool) (old v : Word) (x : Nat) {lo : Nat} (len : Nat) (h : 2 ≤ lo) :
    fld (if b then old else setFld v 1 1 x) lo len = fld (if b then old else v) lo len := by
  cases b
  · exact fld_setFld_of_disjoint v x (.inl h)
  · rfl

/-- What a write of RING_CFG does to the host interface. -/
theorem writeRingCfg_fields (r : Fin 4) (v : Word) (s : State) :
    let u := writeRingCfg r v s
    u.host.ringCfg[r] = ringCfgAfter s.host.ringCfg[r] v ∧ u.host.ringPtr[r] = (if bit v 0 then s.host.ringPtr[r] else 0)
      ∧ (∀ x : Fin 4, x ≠ r → u.host.ringCfg[x] = s.host.ringCfg[x] ∧ u.host.ringPtr[x] = s.host.ringPtr[x])
      ∧ { u with host := s.host, bind := s.bind } = s := by
  have hne : ∀ {x : Fin 4}, x ≠ r → r.val ≠ x.val := fun hx h => hx (Fin.ext h.symm)
  by_cases h : bit v 0 = true
  · have hu : writeRingCfg r v s = { s with host := { s.host with
        ringCfg := s.host.ringCfg.set r (ringCfgAfter s.host.ringCfg[r] v) } } := if_pos h
    rw [hu, if_pos h]
    exact ⟨Vector.getElem_set_self _, rfl, fun x hx => ⟨Vector.getElem_set_ne r.isLt x.isLt (hne hx), rfl⟩, rfl⟩
  · have hu : writeRingCfg r v s = { s with
        host := { s.host with
          ringCfg := s.host.ringCfg.set r (ringCfgAfter s.host.ringCfg[r] v), ringPtr := s.host.ringPtr.set r 0
          ahead := s.host.ahead.set r [], active := s.host.active.set r false }
        bind := { s.bind with cmds := s.bind.cmds.map (fun c => if c.ring == r then { c with mute := true } else c) } } := if_neg h
    rw [hu, if_neg h]
    exact ⟨Vector.getElem_set_self _, Vector.getElem_set_self _,
      fun x hx => ⟨Vector.getElem_set_ne r.isLt x.isLt (hne hx), Vector.getElem_set_ne r.isLt x.isLt (hne hx)⟩, rfl⟩

/-! ## Fences -/

theorem fence_bits (v : Word) : setFld 0 0 20 (fld v 0 20) = v &&& 0xFFFFF := by
  apply BitVec.eq_of_getLsbD_eq
  intro i hi
  have hm : (0xFFFFF : Word).getLsbD i = decide (i < 20) := by
    rw [show (0xFFFFF : Word) = BitVec.ofNat 64 (2 ^ 20 - 1) from rfl, BitVec.getLsbD_ofNat, Nat.testBit_two_pow_sub_one,
      decide_eq_true hi, Bool.true_and]
  rw [getLsbD_setFld _ _ _ _ _ hi, BitVec.getLsbD_and, hm, Nat.sub_zero, testBit_fld, bit_eq_testBit, BitVec.testBit_toNat]
  by_cases h : i < 20
  · rw [if_pos ⟨Nat.zero_le i, by omega⟩, decide_eq_true h, Bool.true_and, Bool.and_true, Nat.zero_add]
  · rw [if_neg (by omega), decide_eq_false h, Bool.and_false]
    exact BitVec.getLsbD_zero

/-- A read is released for good where no fence holds it. -/
theorem released_where (l : Landing) (b : Bool) :
    { l with released := l.released || !b } = if b then l else { l with released := true } := by
  cases b
  · rw [Bool.not_false, Bool.or_true]
    exact (if_neg Bool.false_ne_true).symm
  · rw [Bool.not_true, Bool.or_false]
    exact (if_pos rfl).symm

theorem updAllQ_rest (b : State) (f : Fin 64 → Quire → Quire) : { updAllQ b f with quires := b.quires } = b := by
  simp only [updAllQ]

/-- The reads of a quire after a fence write. -/
theorem releaseReads_fields (b : State) (k : Quire) :
    { releaseReads b k with stream := k.stream } = k
      ∧ { (releaseReads b k).stream with landings := k.stream.landings } = k.stream
      ∧ (releaseReads b k).stream.landings = k.stream.landings.map (fun l =>
          if fenceHolds b l.faddr (512 * l.len) then l else { l with released := true }) :=
  ⟨rfl, rfl, List.map_congr_left fun l _ => released_where l (fenceHolds b l.faddr (512 * l.len))⟩

/-! ## Writes of a whole register -/

theorem setW1c_none (a : Nat) (s : State) : setW1c a 0 s = s := by
  have hid : (fun p : Nat × Word => if p.1 = a then (p.1, p.2 &&& ~~~ 0) else p) = id := by
    funext p
    have h0 : p.2 &&& ~~~ 0 = p.2 := BitVec.and_allOnes
    split
    · rw [h0]
      rfl
    · rfl
  rw [setW1c, hid, List.map_id]

/-- A write of eight bytes to a register without bits that a write of 1 clears. -/
theorem registerWrite_whole {s : State} {a : Nat} (v : Word) (hv : mainView s = true) (ha : a % 8 = 0) (hlt : a < 2 ^ 26)
    (hw : w1cMask a = 0) : registerWrite false a 8 v s = regWriteAt s a v (~~~ 0) := by
  have hv' : (hostReach s && !s.host.recovery) = true := hv
  obtain ⟨hreach, hrec⟩ := Bool.and_eq_true_iff.1 hv'
  rw [Bool.not_eq_true'] at hrec
  have hlegal : (((8 : Nat) == 4 || (8 : Nat) == 8) && a % 8 == 0 && decide (a < if false = true then 2 ^ 16 else 2 ^ 26)) = true := by
    rw [ha]
    simpa using hlt
  have hn : ¬ (!hostReach s || !(((8 : Nat) == 4 || (8 : Nat) == 8) && a % 8 == 0 &&
      decide (a < if false = true then 2 ^ 16 else 2 ^ 26))) = true := by
    rw [hreach, hlegal]
    decide
  have hm : accessMask a 8 = ~~~ 0 := rfl
  have hval : accessValue a 8 v = v := rfl
  have hw0 : v &&& ~~~ 0 &&& w1cMask a = 0 := by rw [hw]; exact BitVec.and_zero
  rw [registerWrite]
  refine (if_neg hn).trans ?_
  simp only [hm, hval, hrec, ha, Nat.sub_zero, Bool.false_eq_true, if_false, regWriteMain, hw0, setW1c_none]

/-- The offsets in a quire's window of the registers with bits that a write of 1 clears. -/
def quireW1c : List Nat := [0x0028, 0x1018, 0x4038, 0x5020, 0x7038, 0x8468, 0x2030, 0x3028, 0x9000]

theorem w1cMask_quire (q : Fin 64) {o : Nat} (ho : o < 0x10000) (hne : o ∉ quireW1c) :
    w1cMask (0x1000000 + 0x10000 * q.val + o) = 0 := by
  generalize ha : 0x1000000 + 0x10000 * q.val + o = a
  have hmod : a % 0x10000 = o := by omega
  simp only [quireW1c, List.mem_cons, not_or] at hne
  have h1 : (decide (0x40380 ≤ a) && decide (a < 0x40580)) = false := by simp; omega
  have h2 : (decide (0x60010 ≤ a) && decide (a < 0x60090)) = false := by simp; omega
  have h3 : (decide (0x200000 ≤ a) && decide (a < 0x21A000)) = false := by simp; omega
  have h4 : (decide (0x1000000 ≤ a) && decide (a < 0x1400000)) = true := by simp; omega
  rw [w1cMask, if_neg (by simp; omega), if_neg (by simp; omega), if_neg (by simp; omega), h1, h2, if_neg Bool.false_ne_true,
    if_neg Bool.false_ne_true, if_neg (by omega), h3, Bool.false_and, if_neg Bool.false_ne_true, h4, if_pos rfl, hmod]
  split
  any_goals omega
  rfl

theorem merged_whole (w v : Word) : w &&& ~~~ (~~~ 0) ||| v &&& ~~~ 0 = v := by
  rw [BitVec.not_not, show (0 : Word) = 0#64 from rfl, BitVec.and_zero, BitVec.zero_or]
  exact BitVec.and_allOnes

/-- A write of a register of a die-wide block but SPINE. -/
theorem regWriteAt_die {s : State} {a : Nat} (v : Word) (h : a < 0xE0000) (h6 : a / 0x10000 ≠ 6) :
    regWriteAt s a v (~~~ 0) = writeDieReg s (a / 0x10000) (a % 0x10000 / 8) v (v &&& ~~~ 0) (clears s a (v &&& ~~~ 0 &&& w1cMask a)) := by
  rw [regWriteAt]
  simp only [h, if_true, h6, decide_false, Bool.false_and, Bool.false_eq_true, if_false, merged_whole]

/-- A write of a register of a quire's window. -/
theorem regWriteAt_quire {s : State} {q : Fin 64} {o : Nat} (v : Word) (ho : o < 0x10000) (hopen : windowsOpen s = true) :
    regWriteAt s (0x1000000 + 0x10000 * q.val + o) v (~~~ 0) = updQ s q (fun k => writeQuireReg k (o / 0x1000) (o % 0x1000 / 8) v
      (clears s (0x1000000 + 0x10000 * q.val + o) (v &&& ~~~ 0 &&& w1cMask (0x1000000 + 0x10000 * q.val + o)))) := by
  generalize ha : 0x1000000 + 0x10000 * q.val + o = a
  have hq : (⟨(a - 0x1000000) / 0x10000 % 64, Nat.mod_lt _ (by decide)⟩ : Fin 64) = q :=
    Fin.ext (show (a - 0x1000000) / 0x10000 % 64 = q.val by omega)
  have h1 : ¬ a < 0xE0000 := by omega
  have h2 : (decide (0x200000 ≤ a) && decide (a < 0x21A000)) = false := by
    rw [decide_eq_false (by omega : ¬ a < 0x21A000), Bool.and_false]
  have h3 : (decide (0x1000000 ≤ a) && decide (a < 0x1400000)) = true := by
    rw [decide_eq_true (by omega : 0x1000000 ≤ a), decide_eq_true (by omega : a < 0x1400000), Bool.and_self]
  have hblk : a % 0x10000 / 0x1000 = o / 0x1000 := by omega
  have hix : a % 0x1000 / 8 = o % 0x1000 / 8 := by omega
  rw [regWriteAt]
  simp only [h1, h2, h3, if_true, if_false, Bool.false_eq_true, hopen, merged_whole, hq, hblk, hix]

/-- A write of a register of a quire's window without bits that a write of 1 clears. -/
theorem registerWrite_quire {s : State} {q : Fin 64} {o : Nat} (v : Word) (hv : mainView s = true) (hopen : windowsOpen s = true)
    (ho : o < 0x10000) (h8 : o % 8 = 0) (hne : o ∉ quireW1c) :
    ∃ c, registerWrite false (0x1000000 + 0x10000 * q.val + o) 8 v s =
      updQ s q (fun k => writeQuireReg k (o / 0x1000) (o % 0x1000 / 8) v c) := by
  rw [registerWrite_whole v hv (by omega) (by omega) (w1cMask_quire q ho hne), regWriteAt_quire v ho hopen]
  exact ⟨_, rfl⟩

theorem writeQuireReg_keep (k : Quire) (i : Fin 4) (v c : Word) :
    writeQuireReg k 6 i.val v c = { k with bwd := { k.bwd with keepNext := k.bwd.keepNext.set i v } } := dif_pos i.isLt

/-- Settles O49: the host's writes of rings, heartbeat, fences and whole registers. -/
theorem hostRegisters : Obligations.HostRegisters := by
  unfold Obligations.HostRegisters
  intro s hv
  refine ⟨fun r v => ?_, fun v => congrArg Host.Outcome.next (if_pos hv), fun w v => ?_, fun v hp => ?_⟩
  · have hex : exec (.ringCfg r v) s = .next (hostRingCfg r v s) := congrArg Host.Outcome.next (if_pos hv)
    generalize hc : clears s (0x30008 + 8 * r.val) v = c
    obtain ⟨hb0, hb1⟩ := bit_cleared v c
    obtain ⟨h4, h8, h32, h0, h1⟩ := ringCfgAfter_fields s.host.ringCfg[r] (setFld v 1 1 (fld c 1 1))
    simp only [fld_cleared_of_le _ _ _ _ _ (by decide : 2 ≤ 4), fld_cleared_of_le _ _ _ _ _ (by decide : 2 ≤ 8),
      fld_cleared_of_le _ _ _ _ _ (by decide : 2 ≤ 32), hb0, hb1] at h4 h8 h32 h0 h1
    obtain ⟨hcfg, hptr, hne, hrest⟩ := writeRingCfg_fields r (setFld v 1 1 (fld c 1 1)) s
    rw [hb0] at hptr
    rw [hex, hostRingCfg]
    simp only [hc]
    generalize writeRingCfg r (setFld v 1 1 (fld c 1 1)) s = u at hcfg hptr hne hrest ⊢
    rw [← hcfg] at h4 h8 h32 h0 h1
    have hw1c : u.w1c = s.w1c := (congrArg State.w1c hrest :)
    refine ⟨_, rfl, h4, h8, h32, h0, h1, hptr, hne, ?_, ?_⟩
    · rw [setW1c, setW1c, hw1c]
    · exact (congrArg (fun w : State => { w with w1c := s.w1c }) hrest :)
  · intro b
    have hq : b.quires = s.quires := rfl
    have hex : exec (.fence w v) s = .next (updAllQ b (fun _ => releaseReads b)) := by
      have hf : exec (.fence w v) s = .next (writeFence w v s) := congrArg Host.Outcome.next (if_pos hv)
      rw [hf, writeFence, fence_bits]
    clear_value b
    rw [← hq]
    have hrest := updAllQ_rest b (fun _ => releaseReads b)
    have hquires := updAllQ_quires b (fun _ => releaseReads b)
    generalize updAllQ b (fun _ => releaseReads b) = u at hex hrest hquires
    refine ⟨u, hex, hrest, fun q => ?_⟩
    rw [hquires q]
    exact releaseReads_fields b b.quires[q]
  · have hex : ∀ a, exec (.registerWrite false a 8 v) s = .next (registerWrite false a 8 v (catchUp s)) := fun _ => rfl
    simp only [hex]
    generalize catchUp s = b
    intro hb
    refine ⟨?_, ?_, ?_, ?_, fun q hopen => ⟨?_, fun i => ?_⟩⟩
    · rw [registerWrite_whole v hb rfl (by decide) rfl, regWriteAt_die v (by decide) (by decide)]
      rfl
    · rw [registerWrite_whole v hb rfl (by decide) rfl, regWriteAt_die v (by decide) (by decide)]
      rfl
    · rw [registerWrite_whole v hb rfl (by decide) rfl, regWriteAt_die v (by decide) (by decide)]
      rfl
    · rw [registerWrite_whole v hb rfl (by decide) rfl, regWriteAt_die v (by decide) (by decide)]
      rfl
    · obtain ⟨c, h⟩ := registerWrite_quire (q := q) (o := 0) v hb hopen (by decide) rfl (by decide)
      exact congrArg Host.Outcome.next h
    · obtain ⟨c, h⟩ := registerWrite_quire (q := q) (o := 0x6000 + 8 * i.val) v hb hopen (by omega) (by omega)
        (by simp only [quireW1c, List.mem_cons, List.not_mem_nil, or_false, not_or]; omega)
      have ha : 0x1006000 + 0x10000 * q.val + 8 * i.val = 0x1000000 + 0x10000 * q.val + (0x6000 + 8 * i.val) := by omega
      have hblk : (0x6000 + 8 * i.val) / 0x1000 = 6 := by omega
      have hix : (0x6000 + 8 * i.val) % 0x1000 / 8 = i.val := by omega
      simp only [hblk, hix, writeQuireReg_keep] at h
      rw [ha, h]

end Sys2Proof.Machine
end

section
/-! The SMBus target: block reads and the alert (R501). -/

namespace Sys2Proof.Machine

theorem smbusUp_iff (s : State) :
    smbusUp s = true ↔ s.pwr.powered = true ∧ 3 ≤ s.bind.stage ∧ s.host.recovery = false := by
  simp only [smbusUp, Bool.and_eq_true, decide_eq_true_eq, Bool.not_eq_true', and_assoc]

theorem smbusRead_up {s : State} (h : smbusUp s = true) (bs : List Byte) :
    smbusRead s bs = { s with out := { s.out with smbus := bs } } := if_pos h

theorem smbusRead_down {s : State} (h : smbusUp s = false) (bs : List Byte) : smbusRead s bs = s := by
  rw [smbusRead, h]
  exact if_neg Bool.false_ne_true

/-- The hotter of two is never below what has been seen. -/
theorem foldl_hottest (t : Fin 24 → Int) (l : List (Fin 24)) (b : Fin 24) :
    let r := l.foldl (fun b i => if t b < t i then i else b) b
    t b ≤ t r ∧ ∀ j ∈ l, t j ≤ t r := by
  induction l generalizing b with
  | nil => exact ⟨le_refl _, fun j hj => absurd hj List.not_mem_nil⟩
  | cons i l ih =>
    obtain ⟨hb, hl⟩ := ih (if t b < t i then i else b)
    have hi : t b ≤ t (if t b < t i then i else b) ∧ t i ≤ t (if t b < t i then i else b) := by
      split <;> constructor <;> omega
    exact ⟨hi.1.trans hb, List.forall_mem_cons.2 ⟨hi.2.trans hb, hl⟩⟩

theorem le_hottest (p : Pwr) (j : Fin 24) : p.temp[j].toInt ≤ p.temp[hottest p].toInt :=
  (foldl_hottest (fun i => p.temp[i].toInt) (List.finRange 24) 0).2 j (List.mem_finRange j)

theorem regRead_main {s : State} (h : s.host.recovery = false) (a : Nat) : regRead s a = readMain s a := by
  rw [regRead, h]
  exact if_neg Bool.false_ne_true

/-- Settles O50: the block reads of the SMBus and the alert. -/
theorem sideband : Obligations.Sideband := by
  unfold Obligations.Sideband
  intro s answers
  refine ⟨fun hp hst hrec => ?_, fun hdown i hi => ?_⟩
  · have hup : smbusUp s = true := (smbusUp_iff s).2 ⟨hp, hst, hrec⟩
    have hread : ∀ bs, Host.Outcome.next (smbusRead s bs) = (.next { s with out := { s.out with smbus := bs } } : Host.Outcome State Fault Refusal) :=
      fun bs => congrArg Host.Outcome.next (smbusRead_up hup bs)
    refine ⟨hread _, ?_, ?_, ?_, ⟨hottest s.pwr, le_hottest s.pwr, hread _⟩, ?_, fun ha => ?_⟩
    · rw [regRead_main hrec]
      exact hread _
    · rw [regRead_main hrec]
      exact hread _
    · rw [regRead_main hrec]
      exact hread _
    · have hex : exec .alertClear s = .next (alertClear s) := rfl
      rw [hex, alertClear, hup, Bool.true_and]
      cases s.bind.faultN <;> rfl
    · have hal : smbAlert s = true := Bool.or_eq_true_iff.2 ha
      exact (congrArg Host.Outcome.next (if_pos hal)).trans (hread _)
  · have hup : smbusUp s = false := by
      rw [Bool.eq_false_iff, ne_eq, smbusUp_iff]
      rintro ⟨h1, h2, h3⟩
      rcases hdown with h | h | h
      · exact Bool.false_ne_true (h.symm.trans h1)
      · omega
      · exact Bool.false_ne_true (h3.symm.trans h)
    have hread : ∀ bs, Host.Outcome.next (smbusRead s bs) = (.next s : Host.Outcome State Fault Refusal) :=
      fun bs => congrArg Host.Outcome.next (smbusRead_down hup bs)
    have hclear : alertClear s = s := by
      rw [alertClear, hup, Bool.false_and]
      exact if_neg Bool.false_ne_true
    have hresp : (if smbAlert s then smbusRead s [0xB4] else s) = s := by rw [smbusRead_down hup, ite_self]
    simp only [List.mem_cons, List.not_mem_nil, or_false] at hi
    rcases hi with rfl | rfl | rfl | rfl | rfl | rfl | rfl
    · exact hread _
    · exact hread _
    · exact hread _
    · exact hread _
    · exact hread _
    · exact congrArg Host.Outcome.next hclear
    · exact congrArg Host.Outcome.next hresp

end Sys2Proof.Machine
end

section
/-! Command rows: packets that are not taken, that wait, that fail a check, and commands that start (R429 R433 R434 R448). -/

namespace Sys2Proof.Machine

/-- The state in which a row has taken its packet. -/
def takenState (s : State) (r : Fin 4) (op : Nat) (k : Packet) : State := noteTurn r (goesFirst op k) (advanceRing s r)

theorem noteTurn_host (r : Fin 4) (first : Bool) (s : State) : ∃ h, noteTurn r first s = { s with host := h } := by
  cases first
  · exact ⟨_, rfl⟩
  · exact ⟨_, rfl⟩

/-- Taking a packet changes the host interface alone. -/
theorem takenState_host (s : State) (r : Fin 4) (op : Nat) (k : Packet) : ∃ h, takenState s r op k = { s with host := h } := by
  obtain ⟨h, hn⟩ := noteTurn_host r (goesFirst op k) (advanceRing s r)
  exact ⟨h, hn⟩

theorem takenState_bind (s : State) (r : Fin 4) (op : Nat) (k : Packet) : (takenState s r op k).bind = s.bind := by
  obtain ⟨h, hu⟩ := takenState_host s r op k
  rw [hu]

theorem firstCheck_congr {s u : State} (h : u.bind = s.bind) (op : Nat) (r : Fin 4) (k : Packet) :
    firstCheck u op r k = firstCheck s op r k := by
  simp only [firstCheck, h]

theorem takes_iff (s : State) (r : Fin 4) (op : Nat) (k : Packet) :
    (mayTake s r && ringTurn s r (goesFirst op k) && frontPacket s r == packetBytes op k) = true ↔ Takes s r op k := by
  simp only [Takes, Bool.and_eq_true, beq_iff_eq, and_assoc]

section
variable {s : State} {r : Fin 4} {op : Nat} {k : Packet} {host : Option (List Byte)} {work : State → Cmd → Reply}

theorem commandRow_not (verified written : Bool) (h : ¬ Takes s r op k) : commandRow work op r k host verified written s = s := by
  refine if_pos ?_
  rw [Bool.not_eq_true', Bool.eq_false_iff, ne_eq, takes_iff]
  exact h

theorem commandRow_taken (verified written : Bool) (h : Takes s r op k) : commandRow work op r k host verified written s =
    let c := Cmd.ofPacket r op k host verified written (tick s) (cmdCons s r)
    if mustWait s.bind.cmds c then placeReply s.bind.cmds.length c (.going (takenState s r op k) { c with st := .waiting })
    else placeReply s.bind.cmds.length c (startCmd work (takenState s r op k) c) := by
  have hn : ¬ (!(mayTake s r && ringTurn s r (goesFirst op k) && frontPacket s r == packetBytes op k)) = true := by
    rw [(takes_iff s r op k).2 h]
    decide
  rw [commandRow, if_neg hn]
  simp only [← takenState.eq_1, takenState_bind]

theorem mustWait_unfenced (h : Unfenced s r op k) (verified written : Bool) (now entry : Nat) :
    ¬ mustWait s.bind.cmds (Cmd.ofPacket r op k host verified written now entry) = true := by
  rw [mustWait, List.any_eq_true]
  rintro ⟨d, hd, hw⟩
  simp only [Cmd.ofPacket, Bool.and_eq_true, Bool.or_eq_true, beq_iff_eq] at hw
  obtain ⟨⟨⟨hring, -⟩, -⟩, hf⟩ := hw
  rcases h with ⟨hfence, hop⟩ | hnone
  · rcases hf with hf | ⟨hop', -⟩
    · exact Bool.false_ne_true (hfence.symm.trans hf)
    · exact hop hop'
  · exact hnone d hd hring

/-- A row whose packet nothing holds back starts its command. -/
theorem commandRow_unfenced (verified written : Bool) (h : Takes s r op k) (hu : Unfenced s r op k) :
    commandRow work op r k host verified written s = placeReply s.bind.cmds.length
      (Cmd.ofPacket r op k host verified written (tick s) (cmdCons s r))
      (startCmd work (takenState s r op k) (Cmd.ofPacket r op k host verified written (tick s) (cmdCons s r))) := by
  rw [commandRow_taken verified written h]
  exact if_neg (mustWait_unfenced hu verified written _ _)

theorem startCmd_fails {c : Cmd} {b : State} {st : Nat} (h : firstCheck b c.opcode c.ring c.pkt = some st) :
    startCmd work b c = .fail b st := by
  rw [startCmd, h]

theorem startCmd_works {c : Cmd} {b : State} (h : firstCheck b c.opcode c.ring c.pkt = none) :
    startCmd work b c = work (catchUp b) c := by
  rw [startCmd, h]

/-- A row whose command starts does the command's work. -/
theorem commandRow_starts (verified written : Bool) (h : Starts s r op k) :
    commandRow work op r k host verified written s = placeReply s.bind.cmds.length
      (Cmd.ofPacket r op k host verified written (tick s) (cmdCons s r))
      (work (workState s r (goesFirst op k)) (Cmd.ofPacket r op k host verified written (tick s) (cmdCons s r))) := by
  obtain ⟨ht, hu, hc⟩ := h
  rw [commandRow_unfenced verified written ht hu, startCmd_works]
  · rfl
  · exact (firstCheck_congr (takenState_bind s r op k) op r k).trans hc

end

theorem placeReply_done (s b : State) (c : Cmd) (st : Nat) (r0 r1 : Word) :
    placeReply s.bind.cmds.length c (.done b st r0 r1) = Ended s b c st r0 r1 := rfl

theorem placeReply_going (s b : State) (c d : Cmd) : placeReply s.bind.cmds.length c (.going b d) = withCommand s b d := rfl

/-! ## The rows -/

/-- LINK_CONTROL's action, the row of a packet (R434). -/
def linkControlInstr (r : Fin 4) (k : Packet) : Instr :=
  match fld k.p[0] 8 2 with
  | 0 => .linkControlRetrain r k | 1 => .linkControlDisable r k | 2 => .linkControlEnable r k | _ => .linkControlClear r k

theorem linkControlInstr_row (r : Fin 4) (k : Packet) (s : State) :
    exec (linkControlInstr r k) s = .next (commandRow linkControlWork 0x0D r k none false false s) := by
  have hlt : fld k.p[0] 8 2 < 4 := fld_lt _ _ _
  have hrow : ∀ a, fld k.p[0] 8 2 = a → linkControlRow a r k s = commandRow linkControlWork 0x0D r k none false false s :=
    fun a h => if_pos h
  obtain h | h | h | h : fld k.p[0] 8 2 = 0 ∨ fld k.p[0] 8 2 = 1 ∨ fld k.p[0] 8 2 = 2 ∨ fld k.p[0] 8 2 = 3 := by omega
  · rw [linkControlInstr, h]
    exact congrArg Host.Outcome.next (hrow 0 h)
  · rw [linkControlInstr, h]
    exact congrArg Host.Outcome.next (hrow 1 h)
  · rw [linkControlInstr, h]
    exact congrArg Host.Outcome.next (hrow 2 h)
  · rw [linkControlInstr, h]
    exact congrArg Host.Outcome.next (hrow 3 h)

/-- The host's answer that a row is given. -/
def hostedOf (host : Option (List Byte)) (op : Nat) : Option (List Byte) := if op ∈ [0x01, 0x02, 0x09, 0x0A, 0x10] then host else none

/-- The rows of the commands but FW_UPDATE, with their opcodes. -/
def commandRows (r : Fin 4) (k : Packet) (host : Option (List Byte)) : List (Nat × Instr) :=
  [(0x00, .nopCommand r k), (0x01, .query r k host), (0x02, .loadProgram r k host), (0x03, .loadRegion r k),
    (0x04, .exportRegion r k), (0x05, .startTask r k), (0x06, .abortTask r k), (0x07, .setStep r k), (0x08, .runUpdate r k),
    (0x09, .readLedger r k host), (0x0A, .readTelemetry r k host), (0x0B, .setOperatingPoint r k), (0x0C, .setTopology r k),
    (0x0D, .linkControlRetrain r k), (0x0D, .linkControlDisable r k), (0x0D, .linkControlEnable r k),
    (0x0D, .linkControlClear r k), (0x0E, .resetCompute r k), (0x10, .attest r k host)]

theorem abortRow_front {work : State → Cmd → Reply} {s : State} {r : Fin 4} {k : Packet} (h : frontPacket s r = packetBytes 0x06 k) :
    abortRow work r k s = commandRow work 0x06 r k none false false s := if_pos (beq_iff_eq.2 h)

/-- A row does what the row of some work does; that of ABORT_TASK where its packet stands at the bindery's index. -/
theorem exec_row {s : State} {r : Fin 4} {k : Packet} {host : Option (List Byte)} {op : Nat} {i : Instr} (h : (op, i) ∈ commandRows r k host)
    (hl : op = 0x0D → i = linkControlInstr r k) (ha : op = 0x06 → Takes s r op k) :
    ∃ work, exec i s = .next (commandRow work op r k (hostedOf host op) false false s) := by
  simp only [commandRows, List.mem_cons, List.not_mem_nil, or_false, Prod.mk.injEq] at h
  rcases h with ⟨rfl, rfl⟩ | ⟨rfl, rfl⟩ | ⟨rfl, rfl⟩ | ⟨rfl, rfl⟩ | ⟨rfl, rfl⟩ | ⟨rfl, rfl⟩ | ⟨rfl, rfl⟩ | ⟨rfl, rfl⟩ | ⟨rfl, rfl⟩ |
    ⟨rfl, rfl⟩ | ⟨rfl, rfl⟩ | ⟨rfl, rfl⟩ | ⟨rfl, rfl⟩ | ⟨rfl, hi⟩ | ⟨rfl, hi⟩ | ⟨rfl, hi⟩ | ⟨rfl, hi⟩ | ⟨rfl, rfl⟩ | ⟨rfl, rfl⟩
  case inr.inr.inr.inr.inr.inr.inl => exact ⟨abortWork, congrArg Host.Outcome.next (abortRow_front (ha rfl).2.2)⟩
  iterate 4
    on_goal 13 => exact ⟨linkControlWork, hl rfl ▸ linkControlInstr_row r k s⟩
  all_goals exact ⟨_, rfl⟩

/-- Settles O51: packets that are not the row's, that fail a check, or that wait at a fence. -/
theorem packetsTaken : Obligations.PacketsTaken := by
  unfold Obligations.PacketsTaken
  intro s r k host rows hosted op i hi hl
  refine ⟨fun h6 ht => ?_, fun st ht hu hc => ?_, fun d hd ht hf hr hm hb => ?_⟩
  · obtain ⟨work, hex⟩ := exec_row (s := s) hi hl fun h => absurd h h6
    rw [hex, commandRow_not false false ht]
  · obtain ⟨work, hex⟩ := exec_row hi hl fun _ => ht
    rw [hex, commandRow_unfenced false false ht hu, startCmd_fails ((firstCheck_congr (takenState_bind s r op k) op r k).trans hc)]
    rfl
  · obtain ⟨work, hex⟩ := exec_row hi hl fun _ => ht
    have hwait : mustWait s.bind.cmds (Cmd.ofPacket r op k (hostedOf host op) false false (tick s) (cmdCons s r)) = true := by
      refine List.any_eq_true.2 ⟨d, hd, ?_⟩
      have hb' : d.before (Cmd.ofPacket r op k (hostedOf host op) false false (tick s) (cmdCons s r)) = true := hb
      rw [hb', hm, show (Cmd.ofPacket r op k (hostedOf host op) false false (tick s) (cmdCons s r)).pkt = k from rfl, hf, hr]
      simp [Cmd.ofPacket]
    rw [hex, commandRow_taken false false ht]
    exact congrArg Host.Outcome.next (if_pos hwait)

end Sys2Proof.Machine
end

section
/-! What the commands that report write: records of bytes, requests of the copy engine (R434 R440 R441 R464). -/

namespace Sys2Proof.Machine

/-! ## Records of bytes -/

theorem slice_append_left {xs : List Byte} {off n : Nat} (ys : List Byte) (h : off + n ≤ xs.length) :
    slice (xs ++ ys) off n = slice xs off n := by
  have hd : ((xs ++ ys).drop off).take n = (xs.drop off).take n := by
    rw [List.drop_append_of_le_length (by omega), List.take_append_of_le_length (by rw [List.length_drop]; omega)]
  simp only [slice, hd]

theorem slice_append_right {xs : List Byte} {off : Nat} (ys : List Byte) (n : Nat) (h : xs.length ≤ off) :
    slice (xs ++ ys) off n = slice ys (off - xs.length) n := by
  have hd : (xs ++ ys).drop off = ys.drop (off - xs.length) := by
    rw [List.drop_append, List.drop_of_length_le h, List.nil_append]
  simp only [slice, hd]

theorem numAt_append_left {xs : List Byte} {off n : Nat} (ys : List Byte) (h : off + n ≤ xs.length) :
    numAt (xs ++ ys) off n = numAt xs off n := by
  rw [numAt, slice_append_left ys h, ← numAt]

theorem numAt_append_right {xs : List Byte} {off : Nat} (ys : List Byte) (n : Nat) (h : xs.length ≤ off) :
    numAt (xs ++ ys) off n = numAt ys (off - xs.length) n := by
  rw [numAt, slice_append_right ys n h, ← numAt]

theorem numAt_bytesLE (n v : Nat) : numAt (bytesLE n v) 0 n = v % 256 ^ n := by
  rw [numAt, slice_of_length (bytesLE_length n v), ofBytesLE_bytesLE]

theorem numAt_word (w : Word) : numAt (bytesLE 8 w.toNat) 0 8 = w.toNat := by
  rw [numAt_bytesLE]
  exact Nat.mod_eq_of_lt w.isLt

/-- Of pieces of one length, the i-th. -/
theorem slice_flatMap {α : Type} {f : α → List Byte} {m : Nat} (hf : ∀ x, (f x).length = m) :
    ∀ {l : List α} {i : Nat} (hi : i < l.length), slice (l.flatMap f) (m * i) m = f l[i]
  | x :: l, 0, _ => by
    rw [List.flatMap_cons, Nat.mul_zero, slice_append_left _ (by rw [hf, Nat.zero_add])]
    exact slice_of_length (hf x)
  | x :: l, i + 1, hi => by
    have hsub : m * (i + 1) - (f x).length = m * i := by rw [hf, Nat.mul_succ, Nat.add_sub_cancel]
    rw [List.flatMap_cons, slice_append_right _ _ (by rw [hf]; exact Nat.le_mul_of_pos_right m (Nat.succ_pos i)), hsub,
      slice_flatMap hf (Nat.lt_of_succ_lt_succ hi)]
    rfl

theorem flatMap_length_const {α : Type} {f : α → List Byte} {m : Nat} (hf : ∀ x, (f x).length = m) (l : List α) :
    (l.flatMap f).length = l.length * m := by
  rw [List.length_flatMap, List.map_congr_left fun x _ => hf x]
  simp

@[simp] theorem sha256_length (m : List Byte) : (sha256 m).length = 32 := by
  simp [sha256, Digest.bytes]

/-! ## The copy engine (R441) -/

/-- Bytes cut for a number of requests that suffices come whole, in requests of at most n. -/
theorem cutBytes_whole {n : Nat} (hn : 0 < n) (fuel : Nat) : ∀ (a : Nat) (bs : List Byte), bs.length + a % n ≤ n * fuel ∨ bs = [] →
    (cutBytes n fuel a bs).flatMap (·.2) = bs ∧ ∀ w ∈ cutBytes n fuel a bs, w.2.length ≤ n := by
  induction fuel with
  | zero =>
    intro a bs h
    have hbs : bs = [] := by
      rcases h with h | h
      · exact List.eq_nil_of_length_eq_zero (by omega)
      · exact h
    exact ⟨hbs.symm, fun w hw => absurd hw List.not_mem_nil⟩
  | succ fuel ih =>
    intro a bs h
    cases bs with
    | nil => exact ⟨rfl, fun w hw => absurd hw List.not_mem_nil⟩
    | cons b bs =>
      have hlt := Nat.mod_lt a hn
      have hnext : (a + (n - a % n)) % n = 0 := by
        have hd := Nat.div_add_mod a n
        rw [show a + (n - a % n) = n * (a / n + 1) by rw [Nat.mul_succ]; omega, Nat.mul_mod_right]
      have hlen : ((b :: bs).drop (n - a % n)).length + (a + (n - a % n)) % n ≤ n * fuel ∨ (b :: bs).drop (n - a % n) = [] := by
        rcases h with h | h
        · rw [hnext, List.length_drop]
          rw [Nat.mul_succ] at h
          omega
        · cases h
      obtain ⟨hall, hle⟩ := ih (a + (n - a % n)) ((b :: bs).drop (n - a % n)) hlen
      have hcut : cutBytes n (fuel + 1) a (b :: bs) =
          (a, (b :: bs).take (n - a % n)) :: cutBytes n fuel (a + (n - a % n)) ((b :: bs).drop (n - a % n)) := rfl
      rw [hcut]
      refine ⟨?_, fun w hw => ?_⟩
      · rw [List.flatMap_cons, hall, List.take_append_drop]
      · rcases List.mem_cons.1 hw with rfl | hw
        · rw [List.length_take]
          omega
        · exact hle w hw

/-- The write requests of one result carry its bytes in order, at most 512 each. -/
theorem writeRequests_one (a : Nat) (bs : List Byte) :
    (writeRequests [(a, bs)]).flatMap (·.2) = bs ∧ ∀ w ∈ writeRequests [(a, bs)], w.2.length ≤ 512 := by
  have h : writeRequests [(a, bs)] = cutBytes 512 (bs.length / 512 + 2) a bs := List.append_nil _
  rw [h]
  refine cutBytes_whole (by decide) _ a bs (.inl ?_)
  have := Nat.mod_lt a (show 0 < 512 by decide)
  omega

/-- The state in which a command works whose packet carries HOSTADDR, its read requests issued. -/
def hostSide (b : State) (host : Bool) (reads : List (Nat × Nat)) : State :=
  if host then { b with out := { b.out with dmaRead := readRequests reads } } else b

theorem hostSide_rest (b : State) (host : Bool) (reads : List (Nat × Nat)) : ∃ o, hostSide b host reads = { b with out := o } := by
  cases host
  · exact ⟨_, rfl⟩
  · exact ⟨_, rfl⟩

/-- A command whose packet carries no HOSTADDR, or whom the host has answered, does its work. -/
theorem withHost_works {b : State} {c : Cmd}
    (h : pktHost c.pkt = true → c.host ≠ none ∧ b.host.perst = false ∧ b.host.linkUp = true) (reads : List (Nat × Nat)) (work : State → Reply) :
    withHost b c reads work = work (hostSide b (pktHost c.pkt) reads) := by
  by_cases hp : pktHost c.pkt = true
  · obtain ⟨hh, hr, hl⟩ := h hp
    have hs : c.host.isNone = false := by
      cases hc : c.host with
      | none => exact absurd hc hh
      | some _ => rfl
    simp only [withHost, hp, hr, hl, hs, hostSide, Bool.not_true, Bool.or_self, Bool.false_eq_true, if_false, if_true]
  · simp only [withHost, Bool.eq_false_iff.2 hp, hostSide, Bool.not_false, Bool.false_eq_true, if_false, if_true]

/-- The results of a command at their place: in far memory, or sent to the host. -/
def reported (b : State) (host : Bool) (reads : List (Nat × Nat)) (a : Nat) (bs : List Byte) : State :=
  if host then { b with out := { b.out with dma := writeRequests [(a, bs)], dmaRead := readRequests reads } }
  else { b with far := writeBytes b.far a bs }

theorem writeResults_one (b : State) (c : Cmd) (reads : List (Nat × Nat)) (a : Nat) (bs : List Byte) :
    writeResults (hostSide b (pktHost c.pkt) reads) c [(a, bs)] = reported b (pktHost c.pkt) reads a bs := by
  by_cases hp : pktHost c.pkt = true
  · simp only [writeResults, hostSide, reported, hp, if_true]
  · simp only [writeResults, hostSide, reported, Bool.eq_false_iff.2 hp, Bool.false_eq_true, if_false]
    rfl

/-- What an address parameter and the host must meet. -/
theorem addrOk_of_goes {b : State} {k : Packet} {host : Option (List Byte)} {a : Word} {n : Nat} {c : Cmd} (hk : c.pkt = k)
    (hc : c.host = host)
    (h : if pktHost k then a.toNat % 64 = 0 ∧ host ≠ none ∧ b.host.perst = false ∧ b.host.linkUp = true
      else a.toNat % 512 = 0 ∧ a.toNat + n ≤ 48 * 2 ^ 30) :
    addrOk c a n = true ∧ (pktHost c.pkt = true → c.host ≠ none ∧ b.host.perst = false ∧ b.host.linkUp = true) := by
  subst hk hc
  by_cases hp : pktHost c.pkt = true
  · rw [if_pos hp] at h
    exact ⟨(if_pos hp).trans (beq_iff_eq.2 h.1), fun _ => h.2⟩
  · rw [if_neg hp] at h
    exact ⟨(if_neg hp).trans (by rw [farOk, decide_eq_true h.2, h.1]; rfl), fun hc => absurd hc hp⟩

/-! ## The records -/

theorem queryRecord_length (b : State) : (queryRecord b).length = 512 := by
  simp only [queryRecord, List.length_append, bytesLE_length, List.length_replicate,
    flatMap_length_const (fun l => bytesLE_length 8 (linkStatusWord b l).toNat), List.length_finRange]

theorem regRead_out (b : State) (o : Out) (a : Nat) : regRead { b with out := o } a = regRead b a := rfl

theorem queryRecord_fields (b : State) :
    let bs := queryRecord b
    numAt bs 8 2 = modelNumber b ∧ numAt bs 10 2 = b.bind.runVersion % 65536
      ∧ numAt bs 16 8 = (isaCapsWord b).toNat ∧ numAt bs 24 8 = b.bind.fenceMap.toNat ∧ numAt bs 32 8 = (opStatusWord b.clk).toNat
      ∧ numAt bs 40 8 = b.con.pool.toNat ∧ numAt bs 48 8 = (powerInputWord b.pwr).toNat
      ∧ numAt bs 56 8 = tick b
      ∧ (∀ l : Fin 26, numAt bs (64 + 8 * l.val) 8 = (linkStatusWord b l).toNat)
      ∧ numAt bs 272 8 = (hostStatusWord b).toNat ∧ (∀ i, 280 ≤ i → i < 512 → bs[i]? = some 0) := by
  intro bs
  have hlinks : ((List.finRange 26).flatMap (fun l => bytesLE 8 (linkStatusWord b l).toNat)).length = 208 := by
    rw [flatMap_length_const (m := 8) (fun l => bytesLE_length 8 _), List.length_finRange]
  have hmodel : modelNumber b < 65536 := by
    rw [modelNumber]
    split <;> decide
  refine ⟨?_, ?_, ?_, ?_, ?_, ?_, ?_, ?_, fun l => ?_, ?_, fun i h1 h2 => ?_⟩
  · simp [bs, queryRecord, numAt_append_left, numAt_append_right, numAt_bytesLE, hmodel]
  · simp [bs, queryRecord, numAt_append_left, numAt_append_right, numAt_bytesLE]
  · simp [bs, queryRecord, numAt_append_left, numAt_append_right, numAt_word]
  · simp [bs, queryRecord, numAt_append_left, numAt_append_right, numAt_word]
  · simp [bs, queryRecord, numAt_append_left, numAt_append_right, numAt_word]
  · simp [bs, queryRecord, numAt_append_left, numAt_append_right, numAt_word]
  · simp [bs, queryRecord, numAt_append_left, numAt_append_right, numAt_word]
  · simp [bs, queryRecord, numAt_append_left, numAt_append_right, numAt_word, tick]
  · rw [show bs = _ from queryRecord.eq_1 b, numAt_append_left _ (by simp [hlinks]; omega), numAt_append_left _ (by simp [hlinks]; omega),
      numAt_append_right _ _ (by simp)]
    have hoff : 64 + 8 * l.val - 64 = 8 * l.val := by omega
    simp only [List.length_append, bytesLE_length, Nat.reduceAdd, hoff]
    rw [numAt, slice_flatMap (fun l => bytesLE_length 8 (linkStatusWord b l).toNat) (by rw [List.length_finRange]; exact l.isLt),
      List.getElem_finRange, ← slice_of_length (bytesLE_length 8 _), ← numAt]
    exact numAt_word _
  · simp [bs, queryRecord, numAt_append_left, numAt_append_right, numAt_word, hlinks]
  · rw [show bs = _ from queryRecord.eq_1 b, List.getElem?_append_right (by simp [hlinks]; omega), List.getElem?_replicate_of_lt (by simp [hlinks]; omega)]

/-- The answer of READ_TELEMETRY, entry by entry. -/
def telemetryBytes (b : State) (src : List Byte) (n : Nat) : List Byte :=
  (requestList src n).flatMap (fun e => bytesLE 8 (regRead b e).toNat)

theorem telemetryBytes_length (b : State) (src : List Byte) (n : Nat) : (telemetryBytes b src n).length = 8 * n := by
  rw [telemetryBytes, flatMap_length_const (m := 8) (fun e => bytesLE_length 8 _), requestList, List.length_map, List.length_range,
    Nat.mul_comm]

theorem numAt_telemetryBytes (b : State) (src : List Byte) {n i : Nat} (hi : i < n) :
    numAt (telemetryBytes b src n) (8 * i) 8 = (regRead b (numAt src (8 * i) 8)).toNat := by
  have hlen : i < (requestList src n).length := by
    rw [requestList, List.length_map, List.length_range]
    exact hi
  rw [numAt, telemetryBytes, slice_flatMap (fun e => bytesLE_length 8 (regRead b e).toNat) hlen,
    ← slice_of_length (bytesLE_length 8 _), ← numAt, numAt_word]
  simp only [requestList, List.getElem_map, List.getElem_range]

theorem colophonHash_length (b : State) : (colophonHash b).length = 32 := by
  rw [colophonHash]
  split
  · exact List.length_replicate
  · exact sha256_length _

theorem attestHead_length (b : State) (c : Cmd) : (attestHead b c).length = 256 := by
  simp [attestHead, colophonHash_length]

theorem attestReport_length (b : State) (c : Cmd) : (attestReport b c).length = 1024 := by
  rw [attestReport]
  split
  · rw [List.length_append, attestHead_length, List.length_replicate]
  · rw [List.length_append, List.length_append, attestHead_length, slice_length, slice_length]

/-- The report begins with its head. -/
theorem attestReport_head (b : State) (c : Cmd) : ∃ tail, attestReport b c = attestHead b c ++ tail := by
  rw [attestReport]
  split
  · exact ⟨_, rfl⟩
  · exact ⟨_, List.append_assoc _ _ _⟩

/-- The fields of a report's head. -/
theorem attestHead_fields (b : State) (c : Cmd) :
    let bs := attestHead b c
    numAt bs 0 4 = 0x54535441 ∧ numAt bs 4 2 = 1 ∧ numAt bs 0x10 8 = tick b ∧ numAt bs 0x18 8 = (isaCapsWord b).toNat
      ∧ (∀ i : Fin 4, numAt bs (0x20 + 8 * i.val) 8 = (c.pkt.p[i.val]).toNat)
      ∧ slice bs 0x40 32 = slice b.bind.runHash 0 32 ∧ slice bs 0x80 32 = slice b.bind.mainHash 0 32
      ∧ slice bs 0xA0 32 = slice b.bind.fillerHash 0 32 ∧ numAt bs 0xC0 8 = b.bind.fenceMap.toNat
      ∧ (b.bind.keyOk = false → numAt bs 6 2 % 2 = 1) := by
  intro bs
  refine ⟨?_, ?_, ?_, ?_, fun i => ?_, ?_, ?_, ?_, ?_, fun h => ?_⟩
  · simp [bs, attestHead, numAt_append_left, numAt_bytesLE]
  · simp [bs, attestHead, numAt_append_left, numAt_append_right, numAt_bytesLE]
  · simp [bs, attestHead, numAt_append_left, numAt_append_right, numAt_word, tick]
  · simp [bs, attestHead, numAt_append_left, numAt_append_right, numAt_word]
  · fin_cases i <;> simp [bs, attestHead, numAt_append_left, numAt_append_right, numAt_word, prm]
  · simp [bs, attestHead, slice_append_left, slice_append_right, slice_of_length]
  · simp [bs, attestHead, slice_append_left, slice_append_right, slice_of_length, colophonHash_length]
  · simp [bs, attestHead, slice_append_left, slice_append_right, slice_of_length, colophonHash_length]
  · simp [bs, attestHead, numAt_append_left, numAt_append_right, numAt_word, colophonHash_length]
  · simp [bs, attestHead, numAt_append_left, numAt_append_right, numAt_bytesLE, h, b2n]
    split <;> split <;> rfl

/-- The report of a module without its key: modulus and signature are 0. -/
theorem attestReport_keyless {b : State} (h : b.bind.keyOk = false) (c : Cmd) :
    slice (attestReport b c) 0x100 768 = List.replicate 768 0 := by
  rw [attestReport, h, if_pos (by decide), slice_append_right _ _ (by rw [attestHead_length]), attestHead_length]
  exact slice_of_length List.length_replicate

/-! ## The commands -/

theorem queryWork_reports {b : State} {c : Cmd} (ha : addrOk c (prm c 0) 512 = true)
    (h : pktHost c.pkt = true → c.host ≠ none ∧ b.host.perst = false ∧ b.host.linkUp = true) :
    queryWork b c = .done (reported b (pktHost c.pkt) [] (prm c 0).toNat (queryRecord b)) 0 0 0 := by
  obtain ⟨o, hu⟩ := hostSide_rest b (pktHost c.pkt) []
  have hrec : queryRecord (hostSide b (pktHost c.pkt) []) = queryRecord b := by rw [hu]; rfl
  have hn : ¬ (!addrOk c (prm c 0) 512) = true := by rw [ha]; decide
  rw [queryWork, if_neg hn, withHost_works h, hrec, writeResults_one]

theorem attestWork_reports {b : State} {c : Cmd} (hn : 1024 ≤ (prm c 5).toNat) (ha : addrOk c (prm c 4) (prm c 5).toNat = true)
    (h : pktHost c.pkt = true → c.host ≠ none ∧ b.host.perst = false ∧ b.host.linkUp = true) :
    attestWork b c = .done (reported b (pktHost c.pkt) [] (prm c 4).toNat (attestReport b c)) 0 0 0 := by
  obtain ⟨o, hu⟩ := hostSide_rest b (pktHost c.pkt) []
  have hrec : attestReport (hostSide b (pktHost c.pkt) []) c = attestReport b c := by rw [hu]; rfl
  have hbad : ¬ (decide ((prm c 5).toNat < 1024) || !addrOk c (prm c 4) (prm c 5).toNat) = true := by
    rw [ha, decide_eq_false (by omega)]
    decide
  rw [attestWork]
  refine (if_neg hbad).trans ?_
  rw [withHost_works h, hrec, writeResults_one]

theorem readTelemetryWork_reports {b : State} {c : Cmd} {n : Nat} (hpn : (prm c 1).toNat = n) (h1 : 1 ≤ n) (h2 : n ≤ 512)
    (ha : addrOk c (prm c 0) (8 * n) = true) (ha' : addrOk c (prm c 2) (8 * n) = true)
    (h : pktHost c.pkt = true → c.host ≠ none ∧ b.host.perst = false ∧ b.host.linkUp = true)
    (hes : ∀ i < n, numAt (sourceBytes b c (prm c 0) (8 * n)) (8 * i) 8 < 2 ^ 26 ∧
      numAt (sourceBytes b c (prm c 0) (8 * n)) (8 * i) 8 % 8 = 0) :
    readTelemetryWork b c = .done (reported b (pktHost c.pkt) [((prm c 0).toNat, 8 * n)] (prm c 2).toNat
      (telemetryBytes b (sourceBytes b c (prm c 0) (8 * n)) n)) 0 0 0 := by
  obtain ⟨o, hu⟩ := hostSide_rest b (pktHost c.pkt) [((prm c 0).toNat, 8 * n)]
  have hsrc : sourceBytes (hostSide b (pktHost c.pkt) [((prm c 0).toNat, 8 * n)]) c (prm c 0) (8 * n) =
      sourceBytes b c (prm c 0) (8 * n) := by rw [hu]; rfl
  have hreg : ∀ e, regRead (hostSide b (pktHost c.pkt) [((prm c 0).toNat, 8 * n)]) e = regRead b e := fun e => by
    rw [hu, regRead_out]
  have hall : ((requestList (sourceBytes b c (prm c 0) (8 * n)) n).all entryOk) = true := by
    rw [List.all_eq_true]
    intro e he
    obtain ⟨i, hi, rfl⟩ := List.mem_map.1 he
    obtain ⟨hlt, hmod⟩ := hes i (List.mem_range.1 hi)
    rw [entryOk, decide_eq_true hlt, hmod]
    rfl
  have hbad : ¬ (decide (n = 0) || decide (512 < n) || !addrOk c (prm c 0) (8 * n) || !addrOk c (prm c 2) (8 * n)) = true := by
    rw [ha, ha', decide_eq_false (by omega), decide_eq_false (by omega)]
    decide
  rw [readTelemetryWork, hpn]
  refine (if_neg hbad).trans ?_
  rw [withHost_works h]
  simp only [hsrc, hreg, hall, Bool.not_true, Bool.false_eq_true, if_false, writeResults_one]
  rfl

/-- A row whose command starts, and whose work is done in its step. -/
theorem commandRow_done {s : State} {r : Fin 4} {op : Nat} {k : Packet} {host : Option (List Byte)} {work : State → Cmd → Reply}
    (h : Starts s r op k) (hf : goesFirst op k = false) {u : State} {st : Nat} {r0 r1 : Word}
    (hw : work (workState s r) (commandOf s r op k host) = .done u st r0 r1) :
    commandRow work op r k host false false s = Ended s u (commandOf s r op k host) st r0 r1 := by
  rw [commandRow_starts false false h, hf, ← placeReply_done, ← hw]
  rfl

/-- Settles O52: NOP and the commands that report. -/
theorem reportCommands : Obligations.ReportCommands := by
  unfold Obligations.ReportCommands
  intro s r k host b put goes done
  have hrow : ∀ (op : Nat) (work : State → Cmd → Reply) (u : State), Starts s r op k → goesFirst op k = false →
      work b (commandOf s r op k host) = .done u 0 0 0 →
      Host.Outcome.next (commandRow work op r k host false false s) = done op u :=
    fun op work u h hf hw => congrArg Host.Outcome.next (commandRow_done h hf hw)
  clear_value b
  refine ⟨writeRequests_one, fun hs hh => ?_, fun hs hg => ?_, fun hs => ?_, fun hs hn hg => ?_⟩
  · have hex : exec (.nopCommand r k) s = .next (commandRow nopWork 0x00 r k host false false s) := by rw [hh]; rfl
    exact hex.trans (hrow 0x00 nopWork b hs rfl rfl)
  · have hex : exec (.query r k host) s = .next (commandRow queryWork 0x01 r k host false false s) := rfl
    obtain ⟨ha, hw⟩ := addrOk_of_goes (c := commandOf s r 0x01 k host) rfl rfl hg
    exact ⟨queryRecord b, hex.trans (hrow 0x01 queryWork _ hs rfl (queryWork_reports ha hw)), queryRecord_length b,
      queryRecord_fields b⟩
  · intro n h1 h2 hg hg' src hes
    have hex : exec (.readTelemetry r k host) s = .next (commandRow readTelemetryWork 0x0A r k host false false s) := rfl
    obtain ⟨ha, hw⟩ := addrOk_of_goes (c := commandOf s r 0x0A k host) rfl rfl hg
    obtain ⟨ha', -⟩ := addrOk_of_goes (c := commandOf s r 0x0A k host) rfl rfl hg'
    exact ⟨telemetryBytes b src n, hex.trans (hrow 0x0A readTelemetryWork _ hs rfl (readTelemetryWork_reports rfl h1 h2 ha ha' hw hes)),
      telemetryBytes_length b src n, fun i hi => numAt_telemetryBytes b src hi⟩
  · have hex : exec (.attest r k host) s = .next (commandRow attestWork 0x10 r k host false false s) := rfl
    obtain ⟨ha, hw⟩ := addrOk_of_goes (c := commandOf s r 0x10 k host) rfl rfl hg
    have hlen := attestHead_length b (commandOf s r 0x10 k host)
    have hkey := fun h => attestReport_keyless (b := b) h (commandOf s r 0x10 k host)
    have hfields := attestHead_fields b (commandOf s r 0x10 k host)
    obtain ⟨tail, ht⟩ := attestReport_head b (commandOf s r 0x10 k host)
    refine ⟨attestReport b (commandOf s r 0x10 k host), hex.trans (hrow 0x10 attestWork _ hs rfl (attestWork_reports hn ha hw)),
      attestReport_length _ _, ?_⟩
    rw [ht] at hkey ⊢
    generalize attestHead b (commandOf s r 0x10 k host) = head at hlen hkey hfields ⊢
    have hnum : ∀ {off n}, off + n ≤ 256 → numAt (head ++ tail) off n = numAt head off n :=
      fun h => numAt_append_left tail (by rw [hlen]; exact h)
    have hslice : ∀ {off n}, off + n ≤ 256 → slice (head ++ tail) off n = slice head off n :=
      fun h => slice_append_left tail (by rw [hlen]; exact h)
    have hword : ∀ i : Fin 4, numAt (head ++ tail) (0x20 + 8 * i.val) 8 = numAt head (0x20 + 8 * i.val) 8 := fun i => hnum (by omega)
    obtain ⟨f0, f4, f10, f18, f20, f40, f80, fA0, fC0, f6⟩ := hfields
    refine ⟨?_, ?_, ?_, ?_, fun i => (hword i).trans (f20 i), ?_, ?_, ?_, ?_, fun h => ⟨hkey h, ?_⟩⟩
    · rw [hnum (by decide), f0]
    · rw [hnum (by decide), f4]
    · rw [hnum (by decide), f10]
    · rw [hnum (by decide), f18]
    · rw [hslice (by decide), f40]
    · rw [hslice (by decide), f80]
    · rw [hslice (by decide), fA0]
    · rw [hnum (by decide), fC0]
    · rw [hnum (by decide), f6 h]

end Sys2Proof.Machine
end

section
/-! READ_LEDGER: records of several quires beside each other in far memory (R60 R62 R440). -/

namespace Sys2Proof.Machine

/-! ## Pieces of a memory that do not meet -/

/-- Two pieces do not meet. -/
def Apart (d e : Nat × List Byte) : Prop := d.1 + d.2.length ≤ e.1 ∨ e.1 + e.2.length ≤ d.1

theorem putBeats_wf {m : Mem} (h : Mem.wf m = true) (l : List (Nat × List Byte)) : Mem.wf (putBeats m l) = true :=
  foldl_wf (fun _ b h => writeBytes_wf h b.1 b.2) l h

theorem readByte_putBeats_ne (m : Mem) (l : List (Nat × List Byte)) {x : Nat} (h : ∀ e ∈ l, x < e.1 ∨ e.1 + e.2.length ≤ x) :
    readByte (putBeats m l) x = readByte m x := by
  induction l generalizing m with
  | nil => rfl
  | cons e l ih =>
    exact (ih _ fun d hd => h d (List.mem_cons_of_mem e hd)).trans (readByte_writeBytes_ne m e.1 e.2 x (h e List.mem_cons_self))

/-- A byte of one of several pieces that do not meet. -/
theorem readByte_putBeats_at (m : Mem) {l : List (Nat × List Byte)} (hl : l.Pairwise Apart) {e : Nat × List Byte} (he : e ∈ l)
    {i : Nat} (hi : i < e.2.length) : readByte (putBeats m l) (e.1 + i) = e.2[i] := by
  induction l generalizing m with
  | nil => exact absurd he List.not_mem_nil
  | cons d l ih =>
    obtain ⟨hd, hl⟩ := List.pairwise_cons.1 hl
    rcases List.mem_cons.1 he with rfl | he
    · refine (readByte_putBeats_ne _ l fun c hc => ?_).trans (readByte_writeBytes_at m e.1 e.2 i hi)
      rcases hd c hc with h | h <;> omega
    · exact ih _ hl he

/-- A run of bytes of one of several pieces that do not meet. -/
theorem readBytes_putBeats_at {m : Mem} (hm : Mem.wf m = true) {l : List (Nat × List Byte)} (hl : l.Pairwise Apart)
    {e : Nat × List Byte} (he : e ∈ l) {off n : Nat} (h : off + n ≤ e.2.length) :
    readBytes (putBeats m l) (e.1 + off) n = slice e.2 off n := by
  have hlen : ((e.2.drop off).take n).length = n := by
    rw [List.length_take, List.length_drop]
    omega
  have hs : slice e.2 off n = (e.2.drop off).take n := by
    simp only [slice, hlen, Nat.sub_self, List.replicate_zero, List.append_nil]
  rw [hs, readBytes_eq (putBeats_wf hm l)]
  refine List.ext_getElem (by rw [List.length_map, List.length_range, hlen]) fun i h1 h2 => ?_
  rw [List.length_map, List.length_range] at h1
  rw [List.getElem_map, List.getElem_range, List.getElem_take, List.getElem_drop, Nat.add_assoc,
    readByte_putBeats_at m hl he (by omega)]

theorem foldl_farWrite (l : List (Nat × List Byte)) :
    ∀ s : State, l.foldl (fun s e => farWrite s e.1 e.2) s = { s with far := putBeats s.far l } := by
  induction l with
  | nil => exact fun s => rfl
  | cons e l ih => exact fun s => ih (farWrite s e.1 e.2)

/-! ## The quires that a command names -/

theorem namedQuires_cases {p : Word} {qs : List (Fin 64)} (h : namedQuires p = some qs) :
    (bit p 8 = true ∧ qs = allQuires) ∨ (bit p 8 = false ∧ ∃ q, qs = [q]) := by
  rw [namedQuires] at h
  by_cases hb : bit p 8 = true
  · rw [if_pos hb] at h
    exact .inl ⟨hb, (Option.some.inj h).symm⟩
  · rw [if_neg hb] at h
    by_cases hlt : fld p 0 8 < 64
    · rw [dif_pos hlt] at h
      exact .inr ⟨Bool.eq_false_iff.2 hb, _, (Option.some.inj h).symm⟩
    · rw [dif_neg hlt] at h
      cases h

theorem namedQuires_nodup {p : Word} {qs : List (Fin 64)} (h : namedQuires p = some qs) : qs.Nodup := by
  rcases namedQuires_cases h with ⟨-, rfl⟩ | ⟨-, q, rfl⟩
  · exact allQuires_nodup
  · exact List.nodup_singleton q

/-- The pieces of the named quires, each of n bytes: side by side with ALL, one without. -/
theorem named_apart {p : Word} {qs : List (Fin 64)} (h : namedQuires p = some qs) {base stride n : Nat} (hn : bit p 8 = true → n ≤ stride)
    {f : Fin 64 → List Byte} (hf : ∀ q, (f q).length = n) :
    (qs.map (fun q => (base + if bit p 8 then q.val * stride else 0, f q))).Pairwise Apart := by
  rcases namedQuires_cases h with ⟨hb, rfl⟩ | ⟨-, q, rfl⟩
  · have hle := hn hb
    rw [List.pairwise_map]
    refine allQuires_nodup.imp fun {q c} hne => ?_
    simp only [Apart, hf, hb, if_true]
    rcases Nat.lt_or_gt_of_ne (fun hv => hne (Fin.ext hv)) with hlt | hlt
    · have := Nat.mul_le_mul_right stride (Nat.succ_le_of_lt hlt)
      rw [Nat.succ_mul] at this
      exact .inl (by omega)
    · have := Nat.mul_le_mul_right stride (Nat.succ_le_of_lt hlt)
      rw [Nat.succ_mul] at this
      exact .inr (by omega)
  · exact List.pairwise_singleton _ _

/-- Where the piece of a named quire lies among all of them. -/
theorem named_within {p : Word} {qs : List (Fin 64)} (h : namedQuires p = some qs) (base n : Nat) {q : Fin 64} (hq : q ∈ qs) :
    base ≤ (base + if bit p 8 then q.val * n else 0) ∧ (base + if bit p 8 then q.val * n else 0) + n ≤ base + qs.length * n := by
  rcases namedQuires_cases h with ⟨hb, rfl⟩ | ⟨hb, c, rfl⟩
  · have := Nat.mul_le_mul_right n (Nat.succ_le_of_lt q.isLt)
    rw [Nat.succ_mul] at this
    have hlen : allQuires.length = 64 := List.length_finRange
    rw [if_pos hb, hlen]
    omega
  · rw [hb, if_neg Bool.false_ne_true, List.length_singleton]
    omega

/-! ## Ledger records -/

theorem ledgerSlot_bytes_length (l : LedgerSlot) : l.bytes.length = 16 := by
  simp [LedgerSlot.bytes]

theorem ledgerRecords_length (k : Quire) (first count : Nat) : (ledgerRecords k first count).length = count * 16 := by
  rw [ledgerRecords, flatMap_length_const (m := 16) (fun i => ledgerSlot_bytes_length _), List.length_range]

theorem slice_ledgerRecords (k : Quire) {first count i : Nat} (hi : i < count) {slot : Fin 256} (hs : slot.val = first + i) :
    slice (ledgerRecords k first count) (16 * i) 16 = (k.ledger[slot]).bytes := by
  rw [ledgerRecords, slice_flatMap (fun i => ledgerSlot_bytes_length _) (by rw [List.length_range]; exact hi), List.getElem_range, ← hs]
  exact congrArg LedgerSlot.bytes (dif_pos slot.isLt)

theorem clearSlots_eq (first count : Nat) (k : Quire) : clearSlots first count k = { k with
    ledger := Vector.ofFn (fun i : Fin 256 =>
      if first ≤ i.val ∧ i.val < first + count then LedgerSlot.reset else k.ledger[i]) } := by
  simp only [clearSlots, Bool.and_eq_true, decide_eq_true_eq]

/-- The records of the named quires in far memory. -/
def ledgerPut (b : State) (p0 : Word) (base : Nat) (qs : List (Fin 64)) : State :=
  { b with far := putBeats b.far (qs.map (fun q =>
    (base + if bit p0 8 then q.val * fld p0 24 9 * 16 else 0, ledgerRecords b.quires[q] (fld p0 16 8) (fld p0 24 9)))) }

/-- The captured slots of the named quires at their reset values, where the command says so. -/
def clearNamed (clear : Bool) (first count : Nat) (qs : List (Fin 64)) (s : State) : State :=
  if clear then qs.foldl (fun s q => updQ s q (clearSlots first count)) s else s

theorem clearNamed_fields (clear : Bool) (first count : Nat) {qs : List (Fin 64)} (hn : qs.Nodup) (s : State) :
    let u := clearNamed clear first count qs s
    (∀ q : Fin 64, u.quires[q] = if clear = true ∧ q ∈ qs then clearSlots first count s.quires[q] else s.quires[q])
      ∧ { u with quires := s.quires } = s := by
  cases clear
  · exact ⟨fun q => (if_neg fun h => Bool.false_ne_true h.1).symm, rfl⟩
  · refine ⟨fun q => (foldl_updQ_quires (fun _ => clearSlots first count) q qs hn s).trans ?_,
      foldl_updQ_rest (fun _ => clearSlots first count) qs s⟩
    simp only [true_and]

theorem readLedgerWork_eq {b : State} {c : Cmd} {qs : List (Fin 64)} (hp : pktHost c.pkt = false) (hq : namedQuires (prm c 0) = some qs)
    (h1 : 1 ≤ fld (prm c 0) 24 9) (h2 : fld (prm c 0) 16 8 + fld (prm c 0) 24 9 ≤ 256)
    (ha : addrOk c (prm c 1) (qs.length * fld (prm c 0) 24 9 * 16) = true) :
    readLedgerWork b c = .done (clearNamed (bit (prm c 0) 40) (fld (prm c 0) 16 8) (fld (prm c 0) 24 9) qs
      (ledgerPut b (prm c 0) (prm c 1).toNat qs)) 0 0 0 := by
  have hw : ∀ l, writeResults b c l = { b with far := putBeats b.far l } := fun l => by
    rw [writeResults, hp, ← foldl_farWrite]
    rfl
  have hn : ¬ (decide (fld (prm c 0) 24 9 = 0) || decide (256 < fld (prm c 0) 16 8 + fld (prm c 0) 24 9)) = true := by
    rw [decide_eq_false (by omega), decide_eq_false (by omega)]
    decide
  rw [readLedgerWork]
  simp only [hq]
  rw [if_neg hn, ha, if_neg (by decide), withHost, hp, if_pos (by decide)]
  simp only [hw]
  rfl

/-- Settles O53: the ledger slots of the named quires, written out and perhaps cleared. -/
theorem ledgerCommand : Obligations.LedgerCommand := by
  unfold Obligations.LedgerCommand
  intro s r k host qs b first count total put hs hp hq h1 h2 hmod hle hwf
  have hrow : ∀ u, readLedgerWork b (commandOf s r 0x09 k host) = .done u 0 0 0 →
      exec (.readLedger r k host) s = .next (Ended s u (commandOf s r 0x09 k host) 0 0 0) :=
    fun u hw => congrArg Host.Outcome.next (commandRow_done hs rfl hw)
  have ha : addrOk (commandOf s r 0x09 k host) k.p[1] (qs.length * count * 16) = true :=
    (if_neg (Bool.eq_false_iff.1 hp)).trans (by rw [farOk, decide_eq_true hle, hmod]; rfl)
  have hwork : readLedgerWork b (commandOf s r 0x09 k host) =
      .done (clearNamed (bit k.p[0] 40) first count qs (ledgerPut b k.p[0] k.p[1].toNat qs)) 0 0 0 :=
    readLedgerWork_eq (b := b) (c := commandOf s r 0x09 k host) hp hq h1 h2 ha
  clear_value b
  have hnodup := namedQuires_nodup hq
  obtain ⟨hquires, hrest⟩ := clearNamed_fields (bit k.p[0] 40) first count hnodup (ledgerPut b k.p[0] k.p[1].toNat qs)
  have hapart := named_apart (base := k.p[1].toNat) (f := fun q => ledgerRecords b.quires[q] first count) hq (fun _ => le_refl (count * 16))
    (fun q => ledgerRecords_length _ _ _)
  have hpos : ∀ q : Fin 64, put q = k.p[1].toNat + if bit k.p[0] 8 then q.val * (count * 16) else 0 := fun q => by
    rw [← Nat.mul_assoc]
  have hfar : (ledgerPut b k.p[0] k.p[1].toNat qs).far = putBeats b.far (qs.map (fun q =>
      (k.p[1].toNat + if bit k.p[0] 8 then q.val * (count * 16) else 0, ledgerRecords b.quires[q] first count))) := by
    simp only [← hpos]
    rfl
  generalize clearNamed (bit k.p[0] 40) first count qs (ledgerPut b k.p[0] k.p[1].toNat qs) = a at hwork hquires hrest
  have hafar : a.far = _ := (congrArg State.far hrest :).trans hfar
  refine ⟨a, hrow a hwork, fun q hqs i hi slot hslot => ?_, fun x hx => ?_, fun q => ?_, ?_⟩
  · have hin : 16 * i + 16 ≤ (ledgerRecords b.quires[q] first count).length := by
      rw [ledgerRecords_length]
      omega
    rw [hafar, hpos, readBytes_putBeats_at hwf hapart (List.mem_map_of_mem hqs) hin, slice_ledgerRecords _ hi hslot]
  · rw [hafar]
    refine readByte_putBeats_ne _ _ fun e he => ?_
    obtain ⟨q, hqs, rfl⟩ := List.mem_map.1 he
    have hin := named_within hq k.p[1].toNat (count * 16) hqs
    have htot : total = qs.length * (count * 16) := Nat.mul_assoc _ _ _
    simp only [ledgerRecords_length]
    omega
  · rw [hquires q, ← clearSlots_eq]
    rfl
  · exact (congrArg (fun w : State => { w with far := b.far, quires := b.quires }) hrest :)

end Sys2Proof.Machine
end

section
/-! FW_UPDATE, LOAD_PROGRAM and SET_STEP (R243 R438 R457 R458 R465). -/

namespace Sys2Proof.Machine

/-! ## FW_UPDATE -/

theorem farOk_of {a n : Nat} (h : a % 512 = 0) (hle : a + n ≤ 48 * 2 ^ 30) : farOk a n = true := by
  rw [farOk, decide_eq_true hle, h]
  rfl

theorem imageShape_iff (img : List Byte) : imageShape img = true ↔
    numAt img 0 4 = 0x574D4946 ∧ numAt img 8 4 = img.length ∧ 4096 ≤ img.length ∧ img.length ≤ 12 * 2 ^ 20 := by
  simp only [imageShape, Bool.and_eq_true, beq_iff_eq, decide_eq_true_eq, and_assoc]

theorem fwUpdateWork_eq {b : State} {c : Cmd} (hp : pktHost c.pkt = false) (ha : farOk (prm c 0).toNat (prm c 1).toNat = true)
    (hd : ∀ d ∈ b.bind.cmds, d.opcode ≠ 0x0F) :
    fwUpdateWork b c =
      if c.verified = true ∧ imageShape (readBytes b.far (prm c 0).toNat (prm c 1).toNat) = true then
        .done { b with flash := { b.flash with image := readBytes b.far (prm c 0).toNat (prm c 1).toNat, imageOk := c.written } }
          (if c.written then 0 else 0x10) 0 0
      else .done b 0x10 0 0 := by
  have haddr : addrOk c (prm c 0) (prm c 1).toNat = true := by
    rw [addrOk, hp]
    exact ha
  have hopen : b.bind.cmds.any (fun d => d.open 0x0F) = false := by
    rw [List.any_eq_false]
    intro d hd' h
    rw [Cmd.open, Bool.and_eq_true, beq_iff_eq] at h
    exact hd d hd' h.1
  have hsrc : sourceBytes b c (prm c 0) (prm c 1).toNat = readBytes b.far (prm c 0).toNat (prm c 1).toNat := by
    rw [sourceBytes, hp]
    exact if_neg Bool.false_ne_true
  rw [fwUpdateWork]
  simp only [haddr, hopen, withHost, hp, hsrc, Bool.not_true, Bool.not_false, Bool.false_eq_true, if_false, if_true, ← Bool.and_eq_true]
  by_cases h : (c.verified && imageShape (readBytes b.far (prm c 0).toNat (prm c 1).toNat)) = true
  · rw [if_pos h, if_neg (by rw [h]; decide)]
    rfl
  · rw [if_neg h, if_pos (by rw [Bool.eq_false_iff.2 h]; decide)]
    rfl

/-! ## The stores of a quire -/

theorem slice_getElem? (bs : List Byte) (off : Nat) {n i : Nat} (h : i < n) : (slice bs off n)[i]? = some ((bs[off + i]?).getD 0) := by
  have hlen : i < (slice bs off n).length := by
    rw [slice_length]
    exact h
  rw [List.getElem?_eq_getElem hlen]
  congr 1
  by_cases hb : off + i < bs.length
  · have hp : i < ((bs.drop off).take n).length := by
      rw [List.length_take, List.length_drop]
      omega
    simp only [slice, List.getElem_append_left hp, List.getElem_take, List.getElem_drop, List.getElem?_eq_getElem hb, Option.getD_some]
  · have hp : ((bs.drop off).take n).length ≤ i := by
      rw [List.length_take, List.length_drop]
      omega
    simp only [slice, List.getElem_append_right hp, List.getElem_replicate, List.getElem?_eq_none (Nat.le_of_not_lt hb), Option.getD_none]

/-- A byte of a memory into which a run of bytes cut from a list has gone. -/
theorem readByte_writeBytes_slice (m : Mem) (a n off x : Nat) (bs : List Byte) :
    readByte (writeBytes m a (slice bs off n)) x =
      if a ≤ x ∧ x < a + n then (bs[off + (x - a)]?).getD 0 else readByte m x := by
  by_cases h : a ≤ x ∧ x < a + n
  · obtain ⟨i, rfl⟩ := Nat.exists_eq_add_of_le h.1
    have hi : i < n := by omega
    have hlen : i < (slice bs off n).length := by
      rw [slice_length]
      exact hi
    rw [if_pos h, readByte_writeBytes_at _ _ _ _ hlen, Nat.add_sub_cancel_left]
    exact Option.some.inj ((List.getElem?_eq_getElem hlen).symm.trans (slice_getElem? bs off hi))
  · rw [if_neg h]
    exact readByte_writeBytes_ne _ _ _ _ (by rw [slice_length]; omega)

/-- A byte of a program store after a load. -/
theorem readByte_fillStore (bin : List Byte) (q : Fin 64) (k : Quire) (x : Nat) :
    readByte (fillStore bin q k).mem.prog x =
      if 8 * binBase bin ≤ x ∧ x < 8 * (binBase bin + binCount bin) then
        (bin[4096 + (if binPerQuire bin then 8 * binCount bin * q.val else 0) + (x - 8 * binBase bin)]?).getD 0
      else if binFiller bin then readByte k.mem.prog x else 0 := by
  have hold : readByte (if binFiller bin then k.mem.prog else []) x = if binFiller bin then readByte k.mem.prog x else 0 := by
    cases binFiller bin <;> rfl
  rw [Nat.mul_add, ← hold]
  exact readByte_writeBytes_slice _ _ _ _ _ _

theorem loadProgramWork_eq {b : State} {c : Cmd} (ha : addrOk c (prm c 0) (prm c 1).toNat = true) (hn : 4096 ≤ (prm c 1).toNat)
    (h : pktHost c.pkt = true → c.host ≠ none ∧ b.host.perst = false ∧ b.host.linkUp = true)
    (hc : loadCheck b (sourceBytes b c (prm c 0) (prm c 1).toNat) (prm c 1).toNat (bit (prm c 2) 0) = none) :
    loadProgramWork b c = .done (loadBinary (sourceBytes b c (prm c 0) (prm c 1).toNat)
      (hostSide b (pktHost c.pkt) [((prm c 0).toNat, (prm c 1).toNat)])) 0 0 0 := by
  have hbad : ¬ (!addrOk c (prm c 0) (prm c 1).toNat || decide ((prm c 1).toNat < 4096)) = true := by
    rw [ha, decide_eq_false (by omega)]
    decide
  obtain ⟨o, hu⟩ := hostSide_rest b (pktHost c.pkt) [((prm c 0).toNat, (prm c 1).toNat)]
  rw [loadProgramWork]
  refine (if_neg hbad).trans ?_
  rw [withHost_works h, hu]
  have hsrc : sourceBytes { b with out := o } c (prm c 0) (prm c 1).toNat = sourceBytes b c (prm c 0) (prm c 1).toNat := rfl
  have hc' : loadCheck { b with out := o } (sourceBytes b c (prm c 0) (prm c 1).toNat) (prm c 1).toNat (bit (prm c 2) 0) = none := hc
  simp only [hsrc, hc']

/-- The checks of R438 fix the version and the kind of a binary. -/
theorem loadCheck_passed {b : State} {bin : List Byte} {n : Nat} {filler : Bool} (h : loadCheck b bin n filler = none) :
    binFiller bin = filler ∧ binVersion bin = 0x0200 := by
  rw [loadCheck] at h
  by_cases hw : (!binWellFormed bin n filler) = true
  · rw [if_pos hw] at h
    cases h
  · by_cases hv : binVersion bin ≠ 0x0200
    · rw [if_neg hw, if_pos hv] at h
      cases h
    · rw [Bool.not_eq_true, Bool.not_eq_false', binWellFormed, Bool.and_eq_true, beq_iff_eq] at hw
      exact ⟨hw.2, not_not.1 hv⟩

/-- What the header of a main binary sets. -/
theorem loadHeader_fields (bin : List Byte) (s : State) :
    let u := loadHeader bin s
    (∀ q : Fin 64, u.quires[q] = { s.quires[q] with vec := { s.quires[q].vec with config := BitVec.ofNat 64 (bitsOf (binFlags bin) 2 1) } })
      ∧ u.bind = { s.bind with
          loaded := binVersion bin, dieClaim := binDieClaim bin, folioClaim := binFolioClaim bin
          entries := Vector.ofFn (fun i : Fin 16 => BitVec.ofNat 64 (numAt bin (0x280 + 4 * i.val) 4))
          mainHash := sha256 bin, fillerHash := [] }
      ∧ (∀ i : Fin 32, u.con.xbCount[i] = 0) ∧ (∀ i : Fin 4, u.hostin.fence[i] = 0)
      ∧ (∀ c : Fin 4, u.mcs[c].split = BitVec.ofNat 64 (numAt bin (0x40 + 4 * c.val) 4))
      ∧ (∀ p : Fin 26, u.ports[p] = loadOwners bin p s.ports[p])
      ∧ u.far = s.far ∧ u.clk = s.clk ∧ u.links = s.links := by
  intro u
  have hquires : u.quires = (updAllQ s (fun _ qr =>
      { qr with vec := { qr.vec with config := BitVec.ofNat 64 (bitsOf (binFlags bin) 2 1) } })).quires := by
    simp only [u, loadHeader]
  refine ⟨fun q => by rw [hquires, updAllQ_quires], ?_, fun i => ?_, fun i => ?_, fun c => ?_, fun p => ?_, ?_, ?_, ?_⟩
  · simp only [u, loadHeader, updAllQ_bind]
  · simp [u, loadHeader]
  · simp [u, loadHeader]
  · simp [u, loadHeader]
  · simp [u, loadHeader]
  · simp only [u, loadHeader, updAllQ_far]
  · simp only [u, loadHeader, updAllQ_clk]
  · simp only [u, loadHeader, updAllQ_links]

theorem loadBinary_main {bin : List Byte} (h : binFiller bin = false) (s : State) :
    loadBinary bin s = loadHeader bin (updAllQ s (fillStore bin)) := by
  rw [loadBinary, h]
  exact if_neg Bool.false_ne_true

theorem loadBinary_filler {bin : List Byte} (h : binFiller bin = true) (s : State) :
    loadBinary bin s = { updAllQ s (fillStore bin) with bind := { s.bind with fillerHash := sha256 bin } } := by
  rw [loadBinary, h]
  exact if_pos rfl

/-- The low field of a bits extraction, by division. -/
theorem bitsOf_eq (n lo len : Nat) : bitsOf n lo len = n / 2 ^ lo % 2 ^ len := by
  rw [bitsOf, Nat.shiftRight_eq_div_pow]

/-- What a load leaves in the quires, of a filler and of a main binary. -/
theorem loadBinary_quires (bin : List Byte) (s : State) (q : Fin 64) :
    (loadBinary bin s).quires[q].mem = (fillStore bin q s.quires[q]).mem ∧ (loadBinary bin s).quires[q].seq = s.quires[q].seq
      ∧ (loadBinary bin s).quires[q].vec = (if binFiller bin then s.quires[q].vec
          else { s.quires[q].vec with config := BitVec.ofNat 64 (bitsOf (binFlags bin) 2 1) }) := by
  cases h : binFiller bin with
  | false =>
    rw [loadBinary_main h]
    obtain ⟨hq, -⟩ := loadHeader_fields bin (updAllQ s (fillStore bin))
    rw [hq q, updAllQ_quires]
    exact ⟨rfl, rfl, rfl⟩
  | true =>
    have hquires : (loadBinary bin s).quires = (updAllQ s (fillStore bin)).quires := by rw [loadBinary_filler h]
    have hq : (loadBinary bin s).quires[q] = fillStore bin q s.quires[q] := by rw [hquires, updAllQ_quires]
    rw [hq]
    exact ⟨rfl, rfl, rfl⟩

theorem loadBinary_rest (bin : List Byte) (s : State) :
    (loadBinary bin s).far = s.far ∧ (loadBinary bin s).clk = s.clk ∧ (loadBinary bin s).links = s.links := by
  cases h : binFiller bin with
  | false =>
    rw [loadBinary_main h]
    obtain ⟨-, -, -, -, -, -, hf, hc, hl⟩ := loadHeader_fields bin (updAllQ s (fillStore bin))
    rw [hf, hc, hl]
    exact ⟨updAllQ_far _ _, updAllQ_clk _ _, updAllQ_links _ _⟩
  | true =>
    rw [loadBinary_filler h]
    simp only [updAllQ_far, updAllQ_clk, updAllQ_links, and_self]

theorem setStepWork_eq {b : State} {c : Cmd} (h : farOk (prm c 1).toNat 66560 = true) :
    setStepWork b c = .done (updAllQ b (fun _ => loadShadow (readBytes b.far (prm c 1).toNat 66560))) 0 0 0 := by
  rw [setStepWork]
  exact if_neg (by rw [h]; decide)

/-- Settles O54: FW_UPDATE, LOAD_PROGRAM and SET_STEP. -/
theorem storeCommands : Obligations.StoreCommands := by
  unfold Obligations.StoreCommands
  refine ⟨fun s r k host verified written => ?_, fun s r k host => ⟨fun hs hn hg hc => ?_, fun hs hmod hle hwf => ?_⟩⟩
  · intro b img c hs hp hmod hle hd
    have hex : exec (.fwUpdate r k host verified written) s = .next (placeReply s.bind.cmds.length c (fwUpdateWork b c)) :=
      congrArg Host.Outcome.next (commandRow_starts verified written hs)
    clear_value b
    have hshape := imageShape_iff img
    rw [show img.length = k.p[1].toNat from readBytes_length _ _ _] at hshape
    rw [hex, fwUpdateWork_eq (c := c) hp (farOk_of hmod hle) hd]
    by_cases h : verified = true ∧ imageShape img = true
    · have h' := And.intro h.1 (hshape.1 h.2)
      refine congrArg Host.Outcome.next ((congrArg (placeReply s.bind.cmds.length c) (if_pos h)).trans ?_)
      rw [if_pos h']
      rfl
    · have h' := fun hc => h (And.imp_right hshape.2 hc)
      refine congrArg Host.Outcome.next ((congrArg (placeReply s.bind.cmds.length c) (if_neg h)).trans ?_)
      rw [if_neg h']
      rfl
  · have hrow : ∀ u, loadProgramWork (workState s r) (commandOf s r 0x02 k host) = .done u 0 0 0 →
        exec (.loadProgram r k host) s = .next (Ended s u (commandOf s r 0x02 k host) 0 0 0) :=
      fun u hw => congrArg Host.Outcome.next (commandRow_done hs rfl hw)
    generalize workState s r = b at hg hc hrow ⊢
    obtain ⟨ha, hw⟩ := addrOk_of_goes (c := commandOf s r 0x02 k host) rfl rfl hg
    obtain ⟨o, hside⟩ := hostSide_rest b (pktHost k) [(k.p[0].toNat, k.p[1].toNat)]
    generalize hbin : (if pktHost k then slice (host.getD []) 0 k.p[1].toNat else readBytes b.far k.p[0].toNat k.p[1].toNat) = bin at hc ⊢
    have hsrc : sourceBytes b (commandOf s r 0x02 k host) k.p[0] k.p[1].toNat = bin := hbin
    have hwork : loadProgramWork b (commandOf s r 0x02 k host) = .done (loadBinary bin (hostSide b (pktHost k)
        [(k.p[0].toNat, k.p[1].toNat)])) 0 0 0 := by
      have h := loadProgramWork_eq ha hn hw (hsrc ▸ hc)
      exact h.trans (congrArg (fun x => Reply.done (loadBinary x (hostSide b (pktHost k) [(k.p[0].toNat, k.p[1].toNat)])) 0 0 0) hsrc)
    rw [hside] at hwork
    obtain ⟨hfill, hver⟩ := loadCheck_passed hc
    have hquires := loadBinary_quires bin { b with out := o }
    obtain ⟨hfar, hclk, hlinks⟩ := loadBinary_rest bin { b with out := o }
    refine ⟨_, hrow _ hwork, fun q x => ?_, fun h => ?_, fun h => ?_, fun q => ?_, hfar, hclk, hlinks⟩
    · rw [(hquires q).1, ← hfill]
      exact readByte_fillStore bin q b.quires[q] x
    · have hmain : binFiller bin = false := hfill.trans h
      obtain ⟨-, hbind, hxb, hfence, hmcs, hports, -⟩ := loadHeader_fields bin (updAllQ { b with out := o } (fillStore bin))
      rw [← loadBinary_main hmain] at hbind hxb hfence hmcs hports
      refine ⟨(congrArg Bindery.loaded hbind :).trans hver, (congrArg Bindery.mainHash hbind :), (congrArg Bindery.fillerHash hbind :),
        fun i => ?_, hxb, hfence, hmcs, fun p => ?_, fun q => ?_⟩
      · rw [hbind]
        exact Vector.getElem_ofFn _
      · rw [hports p]
        exact ⟨(bitsOf_eq _ 0 6).trans (by rw [Nat.pow_zero, Nat.div_one]; rfl), bitsOf_eq _ 8 6⟩
      · rw [(hquires q).2.2, hmain, if_neg Bool.false_ne_true]
        exact congrArg (BitVec.ofNat 64) (bitsOf_eq _ 2 1)
    · have hfiller : binFiller bin = true := hfill.trans h
      refine ⟨?_, ?_, ?_, ?_, ?_, fun q => ?_⟩
      · rw [loadBinary_filler hfiller]
      · rw [loadBinary_filler hfiller]
        simp only [updAllQ_con]
      · rw [loadBinary_filler hfiller]
        simp only [updAllQ_ports]
      · rw [loadBinary_filler hfiller]
        simp only [updAllQ_mcs]
      · rw [loadBinary_filler hfiller]
        simp only [updAllQ_hostin]
      · rw [(hquires q).2.2, hfiller, if_pos rfl]
    · obtain ⟨hmem, hseq, -⟩ := hquires q
      rw [hmem, hseq]
      exact ⟨rfl, rfl⟩
  · have hrow : ∀ u, setStepWork (workState s r) (commandOf s r 0x07 k none) = .done u 0 0 0 →
        exec (.setStep r k) s = .next (Ended s u (commandOf s r 0x07 k none) 0 0 0) :=
      fun u hw => congrArg Host.Outcome.next (commandRow_done hs rfl hw)
    generalize workState s r = b at hwf hrow ⊢
    have hwork : setStepWork b (commandOf s r 0x07 k none) =
        .done (updAllQ b (fun _ => loadShadow (readBytes b.far k.p[1].toNat 66560))) 0 0 0 := setStepWork_eq (farOk_of hmod hle)
    have hquires := updAllQ_quires b (fun _ => loadShadow (readBytes b.far k.p[1].toNat 66560))
    have hrest := updAllQ_rest b (fun _ => loadShadow (readBytes b.far k.p[1].toNat 66560))
    generalize updAllQ b (fun _ => loadShadow (readBytes b.far k.p[1].toNat 66560)) = a at hwork hquires hrest
    refine ⟨a, hrow a hwork, fun q => ?_, hrest⟩
    rw [hquires q]
    refine ⟨fun x hx => ?_, rfl⟩
    have hlen : x < (readBytes b.far k.p[1].toNat 66560).length := by rw [readBytes_length]; exact hx
    have h := readByte_writeBytes_at [] 0 (readBytes b.far k.p[1].toNat 66560) x hlen
    rw [Nat.zero_add] at h
    refine h.trans ?_
    simp only [readBytes_eq hwf, List.getElem_map, List.getElem_range]

end Sys2Proof.Machine
end

section
/-! LOAD_REGION and EXPORT_REGION: rows between far memory and the memories of a quire (R439). -/

namespace Sys2Proof.Machine

/-! ## Rows of a memory -/

/-- A byte of a memory into which consecutive rows have gone, cut from one run of bytes. -/
theorem readByte_foldl_rows (row n : Nat) : ∀ (m : Mem) (at0 : Nat) (bs : List Byte), bs.length = 512 * n → ∀ x,
    readByte (((pieces 512 n bs).zipIdx at0).foldl (fun m r => writeRow m (row + r.2) r.1) m) x =
      if 512 * (row + at0) ≤ x ∧ x < 512 * (row + at0 + n) then (bs[x - 512 * (row + at0)]?).getD 0 else readByte m x := by
  induction n with
  | zero =>
    intro m at0 bs _ x
    rw [if_neg (by omega)]
    rfl
  | succ n ih =>
    intro m at0 bs hlen x
    have hdrop : (bs.drop 512).length = 512 * n := by
      rw [List.length_drop]
      omega
    have htake : slice (bs.take 512) 0 512 = slice bs 0 512 := by
      simp only [slice, List.drop_zero, List.take_take, Nat.min_self]
    rw [pieces, List.zipIdx_cons, List.foldl_cons, ih _ _ _ hdrop, writeRow, htake, readByte_writeBytes_slice]
    by_cases h : 512 * (row + at0) ≤ x ∧ x < 512 * (row + at0 + (n + 1))
    · rw [if_pos h]
      by_cases h1 : x < 512 * (row + at0) + 512
      · rw [if_neg (by omega), if_pos ⟨h.1, h1⟩, Nat.zero_add]
      · rw [if_pos (by omega), List.getElem?_drop, show 512 + (x - 512 * (row + (at0 + 1))) = x - 512 * (row + at0) by omega]
    · rw [if_neg h, if_neg (by omega), if_neg (by omega)]

theorem readByte_writeRows (m : Mem) (row n : Nat) {bs : List Byte} (h : bs.length = 512 * n) (x : Nat) :
    readByte (writeRows m row (pieces 512 n bs)) x =
      if 512 * row ≤ x ∧ x < 512 * (row + n) then (bs[x - 512 * row]?).getD 0 else readByte m x :=
  readByte_foldl_rows row n m 0 bs h x

/-! ## The targets of R439 -/

theorem rowsTarget_putRows (k : Quire) {t o : Nat} (ht : t < 3) (ho : o < 7) (first : Nat) (rows : List (List Byte)) :
    rowsTarget (putRows k t first rows) o = if o = t then writeRows (rowsTarget k t) first rows else rowsTarget k o := by
  interval_cases t <;> interval_cases o <;> rfl

theorem rowsTarget_writeBank (k : Quire) {t o : Nat} (h3 : 3 ≤ t) (ht : t < 7) (ho : o < 7) (a : Nat) (bs : List Byte) :
    rowsTarget (writeBank k (regionMem t) a bs) o = if o = t then writeBytes (rowsTarget k t) a bs else rowsTarget k o := by
  interval_cases t <;> interval_cases o <;> rfl

theorem putRows_seq (k : Quire) (spad first : Nat) (rows : List (List Byte)) : (putRows k spad first rows).seq = k.seq :=
  match spad with
  | 0 => rfl
  | 1 => rfl
  | _ + 2 => rfl

theorem writeBank_seq (k : Quire) (a : Nat) (bs : List Byte) (bank : Nat) : (writeBank k bank a bs).seq = k.seq :=
  match bank with
  | 0 => rfl
  | 1 => rfl
  | 2 => rfl
  | _ + 3 => rfl

theorem regionMem_spad {t : Nat} (h : t < 3) : regionMem t = 4 + t := by
  interval_cases t <;> rfl

theorem regionMem_bank {t : Nat} (h3 : 3 ≤ t) (ht : t < 7) : regionMem t < 4 := by
  interval_cases t <;> decide

theorem regionRows_eq {t : Nat} (h : t < 7) : regionRows t = ([1024, 512, 512, 32768, 32768, 65536, 1024][t]?).getD 0 := by
  interval_cases t <;> rfl

/-- What LOAD_REGION leaves in a quire: the rows in its target, nothing else in a memory. -/
theorem loadRows_fields (c : Cmd) (far : Mem) (q : Fin 64) (k : Quire) (ht : fld (prm c 0) 16 3 < 7) :
    let t := fld (prm c 0) 16 3
    let first := fld (prm c 1) 0 17
    let rows := fld (prm c 1) 32 17
    let u := loadRows c far q k
    (∀ x, readByte (rowsTarget u t) x = if 512 * first ≤ x ∧ x < 512 * (first + rows) then
        ((readBytes far (regionAddr c q) (512 * rows))[x - 512 * first]?).getD 0 else readByte (rowsTarget k t) x)
      ∧ (∀ o < 7, o ≠ t → rowsTarget u o = rowsTarget k o) ∧ u.seq = k.seq := by
  intro t first rows u
  have hlen : (readBytes far (regionAddr c q) (512 * rows)).length = 512 * rows := readBytes_length _ _ _
  by_cases h3 : t < 3
  · have hu : u = putRows k t first (pieces 512 rows (readBytes far (regionAddr c q) (512 * rows))) := by
      have hm : regionMem t = 4 + t := regionMem_spad h3
      have hge : regionMem t ≥ 4 := by omega
      have hsub : regionMem t - 4 = t := by omega
      exact (if_pos hge).trans (by rw [hsub])
    rw [hu]
    refine ⟨fun x => ?_, fun o ho hne => ?_, ?_⟩
    · rw [rowsTarget_putRows k h3 ht, if_pos rfl, readByte_writeRows _ _ _ hlen]
    · rw [rowsTarget_putRows k h3 ho, if_neg hne]
    · exact putRows_seq k t first _
  · have hu : u = writeBank k (regionMem t) (512 * first) (readBytes far (regionAddr c q) (512 * rows)) := by
      have hlt : ¬ regionMem t ≥ 4 := by
        have := regionMem_bank (by omega : 3 ≤ t) ht
        omega
      exact if_neg hlt
    rw [hu]
    refine ⟨fun x => ?_, fun o ho hne => ?_, ?_⟩
    · have hs : readBytes far (regionAddr c q) (512 * rows) = slice (readBytes far (regionAddr c q) (512 * rows)) 0 (512 * rows) :=
        (slice_of_length hlen).symm
      rw [rowsTarget_writeBank k (by omega) ht ht, if_pos rfl, hs, readByte_writeBytes_slice, ← hs, Nat.zero_add, Nat.mul_add]
    · rw [rowsTarget_writeBank k (by omega) ht ho, if_neg hne]
    · exact writeBank_seq k _ _ (regionMem t)

/-! ## The checks of both commands -/

theorem regionCheck_passes {b : State} {c : Cmd} {qs : List (Fin 64)} (hq : namedQuires (prm c 0) = some qs)
    (ht : fld (prm c 0) 16 3 ≠ 7) (h1 : 1 ≤ fld (prm c 1) 32 17) (h2 : fld (prm c 1) 32 17 ≤ 65536)
    (hrows : fld (prm c 1) 0 17 + fld (prm c 1) 32 17 ≤ regionRows (fld (prm c 0) 16 3))
    (hstride : bit (prm c 0) 8 = true → (prm c 3).toNat % 512 = 0)
    (hput : ∀ q ∈ qs, regionAddr c q % 512 = 0 ∧ regionAddr c q + 512 * fld (prm c 1) 32 17 ≤ 48 * 2 ^ 30
      ∧ ∀ t : Fin 4, (b.quires[q]).seq.tasks[t].live = false) : regionCheck b c = none := by
  have hbad : ¬ (decide (fld (prm c 0) 16 3 = 7) || decide (fld (prm c 1) 32 17 = 0) || decide (65536 < fld (prm c 1) 32 17) ||
      decide (regionRows (fld (prm c 0) 16 3) < fld (prm c 1) 0 17 + fld (prm c 1) 32 17)) = true := by
    rw [decide_eq_false ht, decide_eq_false (by omega), decide_eq_false (by omega), decide_eq_false (by omega)]
    decide
  have hst : ¬ (bit (prm c 0) 8 && (prm c 3).toNat % 512 != 0) = true := by
    rw [Bool.and_eq_true, bne_iff_ne]
    exact fun h => h.2 (hstride h.1)
  have hall : (qs.all (fun q => farOk (regionAddr c q) (512 * fld (prm c 1) 32 17))) = true :=
    List.all_eq_true.2 fun q hq => farOk_of (hput q hq).1 (hput q hq).2.1
  have hlive : (qs.any (fun q => (List.finRange 4).any (fun t => (b.quires[q].seq.tasks[t]).live))) = false := by
    rw [List.any_eq_false]
    intro q hq
    rw [Bool.not_eq_true, List.any_eq_false]
    exact fun t _ => by rw [(hput q hq).2.2 t]; exact Bool.false_ne_true
  rw [regionCheck]
  simp only [hq]
  rw [if_neg hbad, if_neg hst, hall, hlive]
  rfl

theorem loadRegionWork_eq {b : State} {c : Cmd} {qs : List (Fin 64)} (hq : namedQuires (prm c 0) = some qs)
    (hc : regionCheck b c = none) :
    loadRegionWork b c = .done (qs.foldl (fun s q => updQ s q (loadRows c b.far q)) b) 0 0 0 := by
  have hfold : ∀ (l : List (Fin 64)) (u : State), u.far = b.far →
      l.foldl (fun s q => updQ s q (loadRows c s.far q)) u = l.foldl (fun s q => updQ s q (loadRows c b.far q)) u := by
    intro l
    induction l with
    | nil => exact fun _ _ => rfl
    | cons q l ih =>
      intro u hu
      rw [List.foldl_cons, List.foldl_cons, hu]
      exact ih _ hu
  rw [loadRegionWork, hc, hq]
  simp only [Option.getD_some, hfold qs b rfl]

/-- The rows of a target without an error, as they stand there. -/
theorem protRead_rows {k : Quire} (h : k.upsets = []) {t : Nat} (ht : t < 7) (a n : Nat) :
    protRead k (regionMem t) a n = (readBytes (rowsTarget k t) a n, []) := by
  have hus : ∀ mem, upsetsIn k mem a n = [] := fun mem => by rw [upsetsIn, h]; rfl
  rw [protRead]
  simp only [hus, List.filter_nil, List.map_nil, List.foldl_nil, List.isEmpty_nil, Bool.not_true, Bool.and_false, Bool.false_eq_true,
    if_false]
  interval_cases t <;> rfl

/-- What EXPORT_REGION finds in a quire whose memories have no error. -/
theorem exportRows_clean {c : Cmd} {s : State} {q : Fin 64} (h : s.quires[q].upsets = []) (ht : fld (prm c 0) 16 3 < 7) :
    exportRows c (s, true) q = (farWrite s (regionAddr c q)
      (readBytes (rowsTarget s.quires[q] (fld (prm c 0) 16 3)) (512 * fld (prm c 1) 0 17) (512 * fld (prm c 1) 32 17)), true) := by
  simp only [exportRows, protRead_rows h ht, goodRows, anyUncorrectable, noteReads, List.filter_nil, List.foldl_nil, List.any_nil,
    Bool.not_true, Bool.false_eq_true, if_false]
  rw [List.take_of_length_le (readBytes_length _ _ _).le]

/-- The pieces of far memory that EXPORT_REGION writes. -/
def exported (b : State) (c : Cmd) (qs : List (Fin 64)) : List (Nat × List Byte) :=
  qs.map (fun q => (regionAddr c q,
    readBytes (rowsTarget b.quires[q] (fld (prm c 0) 16 3)) (512 * fld (prm c 1) 0 17) (512 * fld (prm c 1) 32 17)))

theorem foldl_exportRows {b : State} {c : Cmd} (ht : fld (prm c 0) 16 3 < 7) (qs : List (Fin 64)) :
    ∀ m : Mem, (∀ q ∈ qs, b.quires[q].upsets = []) →
      qs.foldl (exportRows c) ({ b with far := m }, true) = ({ b with far := putBeats m (exported b c qs) }, true) := by
  induction qs with
  | nil => exact fun m _ => rfl
  | cons q qs ih =>
    intro m h
    rw [List.foldl_cons, exportRows_clean (s := { b with far := m }) (h q List.mem_cons_self) ht]
    exact ih _ fun c hc => h c (List.mem_cons_of_mem q hc)

theorem exportRegionWork_eq {b : State} {c : Cmd} {qs : List (Fin 64)} (hq : namedQuires (prm c 0) = some qs)
    (hc : regionCheck b c = none) (ht : fld (prm c 0) 16 3 < 7) (hu : ∀ q ∈ qs, b.quires[q].upsets = []) :
    exportRegionWork b c = .done { b with far := putBeats b.far (exported b c qs) } 0 0 0 := by
  have hfold := foldl_exportRows ht qs b.far hu
  rw [exportRegionWork, hc, hq]
  simp only [Option.getD_some]
  rw [hfold]
  rfl

theorem rowsTarget_wf {k : Quire} (h : k.canonical) (t : Nat) : Mem.wf (rowsTarget k t) = true := by
  obtain ⟨⟨hw, hm, hs, hg, ha, hp, hst, -⟩, -⟩ := h
  match t with
  | 0 => exact ha
  | 1 => exact hp
  | 2 => exact hst
  | 3 => exact hw
  | 4 => exact hm
  | 5 => exact hg
  | _ + 6 => exact hs

/-- A byte of a run read from a memory in canonical form. -/
theorem readBytes_getElem? {m : Mem} (h : Mem.wf m = true) (a : Nat) {n i : Nat} (hi : i < n) :
    (readBytes m a n)[i]? = some (readByte m (a + i)) := by
  rw [readBytes_eq h, List.getElem?_map, List.getElem?_range hi]
  rfl

/-- Settles O55: rows moved between far memory and a target of the named quires. -/
theorem regionCommands : Obligations.RegionCommands := by
  unfold Obligations.RegionCommands
  intro s r k qs b target first rows put fits hfits hcan hups
  obtain ⟨hq, ht, h1, h2, hrows, hst, hput⟩ := hfits
  have ht7 : target < 7 := by
    have : target < 8 := fld_lt _ _ _
    omega
  have hload : ∀ u, loadRegionWork b (commandOf s r 0x03 k none) = .done u 0 0 0 → Starts s r 0x03 k →
      exec (.loadRegion r k) s = .next (Ended s u (commandOf s r 0x03 k none) 0 0 0) :=
    fun u hw hs => congrArg Host.Outcome.next (commandRow_done hs rfl hw)
  have hexp : ∀ u, exportRegionWork b (commandOf s r 0x04 k none) = .done u 0 0 0 → Starts s r 0x04 k →
      exec (.exportRegion r k) s = .next (Ended s u (commandOf s r 0x04 k none) 0 0 0) :=
    fun u hw hs => congrArg Host.Outcome.next (commandRow_done hs rfl hw)
  clear_value b
  obtain ⟨hfar, -, hquires⟩ := hcan
  have hcheck : ∀ op, regionCheck b (commandOf s r op k none) = none := fun op =>
    regionCheck_passes hq ht h1 h2 (hrows.trans_eq (regionRows_eq ht7).symm) (fun h => (hst h).1) hput
  refine ⟨fun hs => ?_, fun hs => ?_⟩
  · have hwork := loadRegionWork_eq (c := commandOf s r 0x03 k none) hq (hcheck 0x03)
    have hqs := fun q => foldl_updQ_quires (loadRows (commandOf s r 0x03 k none) b.far) q qs (namedQuires_nodup hq) b
    have hrest := foldl_updQ_rest (loadRows (commandOf s r 0x03 k none) b.far) qs b
    generalize qs.foldl (fun s' q => updQ s' q (loadRows (commandOf s r 0x03 k none) b.far q)) b = a at hwork hqs hrest
    have hfields : ∀ q : Fin 64,
        (∀ x, readByte (rowsTarget (loadRows (commandOf s r 0x03 k none) b.far q b.quires[q]) target) x =
          if 512 * first ≤ x ∧ x < 512 * (first + rows) then ((readBytes b.far (put q) (512 * rows))[x - 512 * first]?).getD 0
          else readByte (rowsTarget b.quires[q] target) x)
        ∧ (∀ o < 7, o ≠ target → rowsTarget (loadRows (commandOf s r 0x03 k none) b.far q b.quires[q]) o = rowsTarget b.quires[q] o)
        ∧ (loadRows (commandOf s r 0x03 k none) b.far q b.quires[q]).seq = b.quires[q].seq :=
      fun q => loadRows_fields (commandOf s r 0x03 k none) b.far q b.quires[q] ht7
    refine ⟨a, hload a hwork hs, fun q x => ?_, fun q o ho hne => ?_, fun q => ?_, (congrArg State.far hrest :), hrest⟩
    · rw [hqs q]
      by_cases hm : q ∈ qs
      · rw [if_pos hm]
        refine ((hfields q).1 x).trans ?_
        by_cases hx : 512 * first ≤ x ∧ x < 512 * (first + rows)
        · rw [if_pos hx, if_pos ⟨hm, hx⟩, readBytes_getElem? hfar _ (by omega)]
          rfl
        · rw [if_neg hx, if_neg fun h => hx h.2]
      · rw [if_neg hm, if_neg fun h => hm h.1]
    · rw [hqs q]
      split
      · exact (hfields q).2.1 o ho hne
      · rfl
    · rw [hqs q]
      split
      · exact (hfields q).2.2
      · rfl
  · have hwork := exportRegionWork_eq (c := commandOf s r 0x04 k none) hq (hcheck 0x04) ht7 hups
    have hapart : (exported b (commandOf s r 0x04 k none) qs).Pairwise Apart :=
      named_apart (f := fun q => readBytes (rowsTarget b.quires[q] target) (512 * first) (512 * rows)) hq (fun h => (hst h).2)
        fun q => readBytes_length _ _ _
    refine ⟨_, hexp _ hwork hs, fun q hqs x hx => ?_, fun x hx => ?_, rfl⟩
    · have hlen : x < (readBytes (rowsTarget b.quires[q] target) (512 * first) (512 * rows)).length := by
        rw [readBytes_length]
        exact hx
      refine (readByte_putBeats_at b.far hapart (List.mem_map_of_mem hqs) hlen).trans ?_
      exact Option.some.inj ((List.getElem?_eq_getElem hlen).symm.trans (readBytes_getElem? (rowsTarget_wf (hquires q) target) _ hx))
    · refine readByte_putBeats_ne b.far _ fun e he => ?_
      obtain ⟨q, hqs, rfl⟩ := List.mem_map.1 he
      have h := hx q hqs
      rw [readBytes_length]
      exact h

end Sys2Proof.Machine
end

section
/-! The start of a task on the named quires (R244 R436). -/

namespace Sys2Proof.Machine

/-! ## A run that has left nothing -/

theorem finishRun_still {s : State} (h : s.still) (q : Fin 64) : finishRun s q = s := by
  have hs : updQ s q (fun qr => startDue (2 ^ 64) qr) = s := updQ_id s q (startDue_noDrain (h q).2 _)
  rw [finishRun, hs]
  exact settle_quiet h.quiet _

theorem foldl_finishRun_still {s : State} (h : s.still) (qs : List (Fin 64)) : qs.foldl finishRun s = s :=
  List.foldl_fixed' (finishRun_still h) qs

/-! ## The start on one quire -/

/-- A quire on which task t starts. -/
def begun (t : Fin 4) (seed : Word) (z e : Int) (new : Task) (update : Bool) (k : Quire) : Quire :=
  let k := if t = 0 then beginRun seed z e k else k
  let k := if update then activateStore k else k
  updTask k t (fun _ => new)

/-- The start on one quire: what waited for its last run, the quire, the record in the trace. -/
def startOne (t : Fin 4) (seed : Word) (z e : Int) (new : Task) (update : Bool) (s : State) (q : Fin 64) : State :=
  traceQ (updQ (if t = 0 then forgetLate q s else s) q (begun t seed z e new update)) q t 0

/-- The state in which a start of task 0 has taken over DEBUG_CTL and set the clock edge of its first lc. -/
def startEdge (s : State) (t : Fin 4) : State :=
  if t = 0 then { s with con := { s.con with debugActive := s.con.debugCtl }, edgeNow := edgeNext s, spineNow := spineNext s } else s

theorem startTasks_still {s : State} (h : s.still) (t : Fin 4) (qs : List (Fin 64)) (seed : Word) (new : Task) (update : Bool) :
    startTasks s t qs seed new update =
      qs.foldl (startOne t seed (spineNext s) (edgeNext s) new update) (startEdge s t) := by
  have hf : (if t = 0 then qs.foldl finishRun s else s) = s := by rw [foldl_finishRun_still h, ite_self]
  rw [startTasks]
  simp only [hf]
  rfl

/-- What a start of task t has begun in a quire. -/
theorem begun_fields (t : Fin 4) (seed : Word) (z e : Int) (new : Task) (update : Bool) (k : Quire) :
    let u := begun t seed z e new update k
    u.seq.tasks[t] = new
      ∧ u.mem = (if update ∧ k.upd.shadowValid = true then { k.mem with descActive := k.mem.descShadow } else k.mem)
      ∧ (t = 0 → u.seq.inRun = false ∧ u.seq.lc = 0 ∧ u.seq.seed = seed ∧ u.seq.adv = 0
          ∧ u.bwd.keepActive = k.bwd.keepNext ∧ u.rstop.pass = false)
      ∧ (update = true → u.upd.sumA = 0 ∧ u.upd.sumB = 0 ∧ u.upd.shadowValid = false
          ∧ (k.upd.shadowValid = true → u.upd.stepActive = k.upd.stepShadow))
      ∧ u.ledger = k.ledger := by
  intro u
  have htask : u.seq.tasks[t] = new := updTask_task_self _ _ _
  refine ⟨htask, ?_⟩
  by_cases h0 : t = 0 <;> cases hu : update <;> by_cases hs : k.upd.shadowValid = true <;>
    simp [u, begun, beginRun, activateStore, updTask, h0, hu, hs]

/-! ## What a start touches outside its quires -/

theorem forgetLate_rest (q : Fin 64) (s : State) : (forgetLate q s).quires = s.quires ∧ (forgetLate q s).clk = s.clk
    ∧ (forgetLate q s).bind = s.bind ∧ (forgetLate q s).links = s.links := by
  simp only [forgetLate, and_self]

theorem traceQ_ports (s : State) (q : Fin 64) (t : Fin 4) (kind : Nat) : (traceQ s q t kind).ports = s.ports :=
  (congrArg State.ports (traceQ_rest s q t kind) :)

theorem traceQ_links (s : State) (q : Fin 64) (t : Fin 4) (kind : Nat) : (traceQ s q t kind).links = s.links :=
  (congrArg State.links (traceQ_rest s q t kind) :)

/-- The state in which what waited of a quire for its next run is forgotten, where task 0 starts. -/
def forgotten (t : Fin 4) (s : State) (q : Fin 64) : State := if t = 0 then forgetLate q s else s

theorem forgotten_rest (t : Fin 4) (s : State) (q : Fin 64) : (forgotten t s q).quires = s.quires ∧ (forgotten t s q).clk = s.clk
    ∧ (forgotten t s q).bind = s.bind ∧ (forgotten t s q).links = s.links := by
  by_cases h : t = 0
  · rw [forgotten, if_pos h]
    exact forgetLate_rest q s
  · rw [forgotten, if_neg h]
    exact ⟨rfl, rfl, rfl, rfl⟩

theorem startOne_quires (t : Fin 4) (seed : Word) (z e : Int) (new : Task) (update : Bool) (s : State) (q c : Fin 64) :
    (startOne t seed z e new update s q).quires[c] = if c = q then begun t seed z e new update s.quires[q] else s.quires[c] := by
  obtain ⟨hu, -⟩ := forgotten_rest t s q
  rw [startOne, traceQ_quires, ← forgotten]
  generalize forgotten t s q = u at hu
  rw [updQ_quires, hu]
  split
  · next h => rw [h]
  · rfl

/-- A start touches the quires, what waits of messages and buffer entries, and the trace. -/
theorem startOne_rest (t : Fin 4) (seed : Word) (z e : Int) (new : Task) (update : Bool) (s : State) (q : Fin 64) :
    let u := startOne t seed z e new update s q
    u.con = (forgotten t s q).con ∧ u.ports = (forgotten t s q).ports ∧ u.clk = s.clk ∧ u.bind = s.bind ∧ u.links = s.links := by
  obtain ⟨-, hclk, hbind, hlinks⟩ := forgotten_rest t s q
  simp only [startOne, ← forgotten.eq_1, traceQ_con, traceQ_ports, traceQ_clk, traceQ_bind, traceQ_links, updQ_con, updQ_ports, updQ_clk,
    updQ_bind, updQ_links, hclk, hbind, hlinks, and_self]

theorem foldl_startOne_quires (t : Fin 4) (seed : Word) (z e : Int) (new : Task) (update : Bool) (qs : List (Fin 64)) (hn : qs.Nodup)
    (c : Fin 64) : ∀ s : State, (qs.foldl (startOne t seed z e new update) s).quires[c] =
      if c ∈ qs then begun t seed z e new update s.quires[c] else s.quires[c] := by
  induction qs with
  | nil => exact fun s => rfl
  | cons q qs ih =>
    intro s
    obtain ⟨hq, hn⟩ := List.nodup_cons.1 hn
    rw [List.foldl_cons, ih hn, startOne_quires]
    by_cases h : c = q
    · subst h
      rw [if_neg hq, if_pos rfl, if_pos List.mem_cons_self]
    · simp only [h, if_false, List.mem_cons, false_or]

theorem foldl_startOne_fixed (t : Fin 4) (seed : Word) (z e : Int) (new : Task) (update : Bool) (qs : List (Fin 64)) :
    ∀ s : State, let u := qs.foldl (startOne t seed z e new update) s
      u.clk = s.clk ∧ u.bind = s.bind ∧ u.links = s.links ∧ (t ≠ 0 → u.con = s.con ∧ u.ports = s.ports) := by
  induction qs with
  | nil => exact fun s => ⟨rfl, rfl, rfl, fun _ => ⟨rfl, rfl⟩⟩
  | cons q qs ih =>
    intro s
    obtain ⟨hcon, hports, hclk, hbind, hlinks⟩ := startOne_rest t seed z e new update s q
    obtain ⟨iclk, ibind, ilinks, iother⟩ := ih (startOne t seed z e new update s q)
    refine ⟨iclk.trans hclk, ibind.trans hbind, ilinks.trans hlinks, fun h => ?_⟩
    rw [forgotten, if_neg h] at hcon hports
    exact ⟨(iother h).1.trans hcon, (iother h).2.trans hports⟩

/-- The buffers of which a start of task 0 on quire q forgets what waited are those that q owns. -/
theorem forgetLate_con (q : Fin 64) (s : State) : (forgetLate q s).con = { s.con with
    xbLate := Vector.ofFn (fun i : Fin 32 => if bufferOwnerOf s i = q then [] else s.con.xbLate[i]) } := by
  have howner : ∀ i : Fin 32, (fld s.con.xbCfg[i] 54 6 == q.val) = decide (bufferOwnerOf s i = q) := fun i => by
    have hlt : fld s.con.xbCfg[i] 54 6 < 64 := fld_lt _ _ _
    refine decide_eq_decide.2 (?_ : _ ↔ (⟨_, _⟩ : Fin 64) = q)
    simp only [Fin.ext_iff, Nat.mod_eq_of_lt hlt]
  simp only [forgetLate, howner, decide_eq_true_eq]

/-- What a start of task 0 forgets of the buffers. -/
theorem foldl_startOne_con (seed : Word) (z e : Int) (new : Task) (update : Bool) (qs : List (Fin 64)) :
    ∀ s : State, (qs.foldl (startOne 0 seed z e new update) s).con = { s.con with
      xbLate := Vector.ofFn (fun i : Fin 32 => if bufferOwnerOf s i ∈ qs then [] else s.con.xbLate[i]) } := by
  induction qs with
  | nil =>
    intro s
    have h : Vector.ofFn (fun i : Fin 32 => if bufferOwnerOf s i ∈ ([] : List (Fin 64)) then [] else s.con.xbLate[i]) = s.con.xbLate := by
      ext i hi
      simp
    rw [h]
    rfl
  | cons q qs ih =>
    intro s
    obtain ⟨hcon, -⟩ := startOne_rest 0 seed z e new update s q
    rw [forgotten, if_pos rfl, forgetLate_con] at hcon
    rw [List.foldl_cons, ih]
    generalize startOne 0 seed z e new update s q = u at hcon ⊢
    have howner : ∀ i, bufferOwnerOf u i = bufferOwnerOf s i := fun i => by
      simp only [bufferOwnerOf, hcon]
    simp only [howner, hcon, List.mem_cons, Vector.getElem_ofFn, Fin.getElem_fin]
    congr 2
    funext i
    by_cases hq : bufferOwnerOf s i ∈ qs <;> simp [hq]

/-- The port after a start of task 0 on the quires qs. -/
def heardAnew (qs : List (Fin 64)) (p : Port) : Port :=
  if ∃ q ∈ qs, p.recvQuire = q.val then { p with landedReady := p.landedReady.map (fun _ => 0) } else p

theorem heardAnew_cons (q : Fin 64) (qs : List (Fin 64)) (p : Port) :
    heardAnew qs (if p.recvQuire == q.val then { p with landedReady := p.landedReady.map (fun _ => 0) } else p) = heardAnew (q :: qs) p := by
  by_cases hq : p.recvQuire = q.val <;> by_cases h : ∃ q ∈ qs, p.recvQuire = q.val <;>
    simp_all [heardAnew]

/-- What a start of task 0 forgets of the messages. -/
theorem foldl_startOne_ports (seed : Word) (z e : Int) (new : Task) (update : Bool) (qs : List (Fin 64)) (p : Fin 26) :
    ∀ s : State, (qs.foldl (startOne 0 seed z e new update) s).ports[p] = heardAnew qs s.ports[p] := by
  induction qs with
  | nil => exact fun s => by simp [heardAnew]
  | cons q qs ih =>
    intro s
    obtain ⟨-, hports, -⟩ := startOne_rest 0 seed z e new update s q
    rw [forgotten, if_pos rfl, forgetLate] at hports
    rw [List.foldl_cons, ih, hports, ← heardAnew_cons]
    simp only [Fin.getElem_fin, Vector.getElem_map]

end Sys2Proof.Machine
end

section
/-! START_TASK, RUN_UPDATE and ABORT_TASK (R244 R435 R436 R437). -/

namespace Sys2Proof.Machine

/-! ## The start that a command makes -/

/-- The state that a start leaves where no run has left anything. -/
def started (b : State) (t : Fin 4) (qs : List (Fin 64)) (seed : Word) (new : Task) (update : Bool) : State :=
  qs.foldl (startOne t seed (spineNext b) (edgeNext b) new update) (startEdge b t)

theorem startEdge_rest (b : State) (t : Fin 4) : (startEdge b t).quires = b.quires ∧ (startEdge b t).clk = b.clk ∧ (startEdge b t).bind = b.bind
    ∧ (startEdge b t).links = b.links ∧ (startEdge b t).ports = b.ports
    ∧ (startEdge b t).con = (if t = 0 then { b.con with debugActive := b.con.debugCtl } else b.con) := by
  unfold startEdge
  split <;> exact ⟨rfl, rfl, rfl, rfl, rfl, rfl⟩

theorem started_quires (b : State) (t : Fin 4) {qs : List (Fin 64)} (hn : qs.Nodup) (seed : Word) (new : Task) (update : Bool) (q : Fin 64) :
    (started b t qs seed new update).quires[q] =
      if q ∈ qs then begun t seed (spineNext b) (edgeNext b) new update b.quires[q] else b.quires[q] := by
  rw [started, foldl_startOne_quires _ _ _ _ _ _ qs hn, (startEdge_rest b t).1]

theorem started_fixed (b : State) (t : Fin 4) (qs : List (Fin 64)) (seed : Word) (new : Task) (update : Bool) :
    let a := started b t qs seed new update
    a.clk = b.clk ∧ a.bind = b.bind ∧ a.links = b.links ∧ (t ≠ 0 → a.con = b.con) := by
  obtain ⟨-, hclk, hbind, hlinks, -, hcon⟩ := startEdge_rest b t
  obtain ⟨fclk, fbind, flinks, fother⟩ := foldl_startOne_fixed t seed (spineNext b) (edgeNext b) new update qs (startEdge b t)
  refine ⟨fclk.trans hclk, fbind.trans hbind, flinks.trans hlinks, fun h => ?_⟩
  rw [if_neg h] at hcon
  exact (fother h).1.trans hcon

theorem started_con (b : State) {t : Fin 4} (h : t = 0) (qs : List (Fin 64)) (seed : Word) (new : Task) (update : Bool) :
    (started b t qs seed new update).con = { b.con with
      debugActive := b.con.debugCtl
      xbLate := Vector.ofFn (fun i : Fin 32 => if bufferOwnerOf b i ∈ qs then [] else b.con.xbLate[i]) } := by
  subst h
  have hcon : (startEdge b 0).con = { b.con with debugActive := b.con.debugCtl } := rfl
  have howner : ∀ i, bufferOwnerOf (startEdge b 0) i = bufferOwnerOf b i := fun i => rfl
  rw [started, foldl_startOne_con]
  simp only [howner, hcon]

theorem started_ports (b : State) (t : Fin 4) (qs : List (Fin 64)) (seed : Word) (new : Task) (update : Bool) (p : Fin 26) :
    (started b t qs seed new update).ports[p] = if t = 0 ∧ ∃ q ∈ qs, b.ports[p].recvQuire = q.val then
      { b.ports[p] with landedReady := b.ports[p].landedReady.map (fun _ => 0) } else b.ports[p] := by
  obtain ⟨-, -, -, -, hports, -⟩ := startEdge_rest b t
  by_cases h : t = 0
  · subst h
    rw [started, foldl_startOne_ports, hports]
    simp only [heardAnew, true_and]
  · obtain ⟨-, -, -, hother⟩ := foldl_startOne_fixed t seed (spineNext b) (edgeNext b) new update qs (startEdge b t)
    rw [if_neg fun g => h g.1, started, (hother h).2, hports]

/-- The start of a task that passes the checks of R436, where nothing is in flight and no bound meets another task's. -/
theorem launch_starts {b : State} {c : Cmd} {t : Fin 4} {qs : List (Fin 64)} {base count : Nat} (hs : b.still) (hloaded : b.bind.loaded ≠ 0)
    (hbounds : boundsOk c = true) (hcode : codeOk base count = true)
    (hfree : ∀ q ∈ qs, b.quires[q].seq.tasks[t].live = false ∧ regionOpen b q = false
      ∧ overlapsOf b.quires[q] t (startContext c base count (tick b)) = [])
    (htopo : topologyShort b = false) (hdebug : bit b.con.debugCtl 0 = true → 5 ≤ b.clk.current) :
    launch b c t qs base count = .going
      (started b t qs (prm c 4) (startContext c base count (tick b)) (c.opcode == 0x08)) { c with quires := qs.map (·.val), task := t } := by
  have hbusy : (qs.any fun q => b.quires[q].seq.tasks[t].live || regionOpen b q) = false :=
    List.any_eq_false.2 fun q hq => by
      obtain ⟨hlive, hopen, -⟩ := hfree q hq
      rw [hlive, hopen]
      decide
  have hmeets : (qs.any fun q => !(overlapsOf b.quires[q] t (startContext c base count (tick b))).isEmpty) = false :=
    List.any_eq_false.2 fun q hq => by
      obtain ⟨-, -, hover⟩ := hfree q hq
      rw [hover]
      decide
  have hslow : (bit b.con.debugCtl 0 && decide (b.clk.current < 5)) = false := by
    by_cases h : bit b.con.debugCtl 0 = true
    · have := hdebug h
      simp only [h, Bool.true_and, decide_eq_false_iff_not, Nat.not_lt, this]
    · simp only [Bool.eq_false_iff.2 h, Bool.false_and]
  rw [launch]
  simp only [hmeets, Bool.and_false, Bool.false_and, hbounds, hcode, Bool.and_self, Bool.not_true, hbusy, htopo, hslow, hloaded, if_false,
    Bool.false_eq_true, startTasks_still hs]
  rfl

/-! ## The stop that ABORT_TASK makes -/

/-- The stop of a task discards its landings. -/
theorem stopUnits_landings (how : Nat) (t : Fin 4) (k : Quire) :
    (stopUnits how t k).stream.landings = k.stream.landings.filter (fun l => !(l.task == t)) := by
  have key : ∀ (lc : Nat) (c : Quire), c.stream.landings = k.stream.landings.filter (fun l => !(l.task == t)) →
      (let qr := updTask c t (stopContext lc how); if t = 0 then stopRun qr else qr).stream.landings
        = k.stream.landings.filter (fun l => !(l.task == t)) := by
    intro lc c hs
    dsimp only
    split <;> exact hs
  simp only [stopUnits]
  apply key
  (repeat' split) <;> rfl

/-- What ABORT_TASK leaves of a quire on which it stops task t: the context is stopped at its PC, its valid bits are clear, its
landings are discarded; the memories and the other tasks stay. -/
structure Aborts (t : Fin 4) (k u : Quire) : Prop where
  state : u.seq.tasks[t].state = .stopped
  pc : u.seq.tasks[t].pc = k.seq.tasks[t].pc
  code : bit u.seq.tasks[t].code 32 = false
  bound : bit u.seq.tasks[t].bound 59 = false
  region : bit u.seq.tasks[t].region 32 = false
  mwin : bit u.seq.tasks[t].mwin 40 = false
  landings : ∀ l ∈ u.stream.landings, l.task ≠ t
  run : t = 0 → u.seq.inRun = false
  tasks : ∀ x : Fin 4, x ≠ t → u.seq.tasks[x] = k.seq.tasks[x]
  mem : u.mem = k.mem

theorem stopTask_aborts {s : State} {q : Fin 64} {t : Fin 4} (h : s.quires[q].seq.tasks[t].live = true) :
    Aborts t s.quires[q] (stopTask s q t 2).quires[q] := by
  have hstops := stopTask_stops s q t 2
  rw [if_pos h] at hstops
  obtain ⟨v, hv⟩ := stopTask_live h 2
  have htask : (stopTask s q t 2).quires[q].seq.tasks[t] = stopContext s.quires[q].seq.lc 2 s.quires[q].seq.tasks[t] := by
    rw [hv, stopUnits_task]
  have hland : (stopTask s q t 2).quires[q].stream.landings = s.quires[q].stream.landings.filter (fun l => !(l.task == t)) := by
    rw [hv, stopUnits_landings]
  have hbit : ∀ (w : Word) (i : Nat), i < 64 → bit (setFld w i 1 0) i = false := fun w i hi =>
    (bit_setFld_one hi w i false).trans (if_pos rfl)
  generalize (stopTask s q t 2).quires[q] = u at hstops htask hland
  have hcode : u.seq.tasks[t].code = setFld s.quires[q].seq.tasks[t].code 32 1 0 := by
    rw [htask]
    rfl
  have hbound : u.seq.tasks[t].bound = setFld s.quires[q].seq.tasks[t].bound 59 1 0 := by
    rw [htask]
    rfl
  have hregion : u.seq.tasks[t].region = setFld s.quires[q].seq.tasks[t].region 32 1 0 := by
    rw [htask]
    rfl
  have hmwin : u.seq.tasks[t].mwin = setFld s.quires[q].seq.tasks[t].mwin 40 1 0 := by
    rw [htask]
    rfl
  exact {
    state := by
      rw [htask]
      rfl
    pc := hstops.pc
    code := by rw [hcode, hbit _ 32 (by decide)]
    bound := by rw [hbound, hbit _ 59 (by decide)]
    region := by rw [hregion, hbit _ 32 (by decide)]
    mwin := by rw [hmwin, hbit _ 40 (by decide)]
    landings := by
      intro l hl
      rw [hland] at hl
      simpa using (List.mem_filter.1 hl).2
    run := by
      rintro rfl
      simp [hstops.run]
    tasks := hstops.tasks
    mem := hstops.mem }

theorem stopTask_idle {s : State} {q : Fin 64} {t : Fin 4} (h : s.quires[q].seq.tasks[t].live = false) (how : Nat) : stopTask s q t how = s := by
  rw [stopTask, h]
  rfl

theorem foldl_stopTask_ne (t : Fin 4) (how : Nat) {q : Fin 64} (qs : List (Fin 64)) :
    ∀ s : State, q ∉ qs → (qs.foldl (fun s q => stopTask s q t how) s).quires[q] = s.quires[q] := by
  induction qs with
  | nil => exact fun s _ => rfl
  | cons a qs ih =>
    intro s h
    obtain ⟨ha, h⟩ := not_or.1 (mt List.mem_cons.2 h)
    rw [List.foldl_cons, ih _ h, stopTask_quires_ne _ _ _ ha]

/-- A quire of the list has come to what the stop of its task alone leaves. -/
theorem foldl_stopTask_mem (t : Fin 4) {q : Fin 64} (qs : List (Fin 64)) : ∀ s : State, qs.Nodup → q ∈ qs →
    let u := qs.foldl (fun s q => stopTask s q t 2) s
    (s.quires[q].seq.tasks[t].live = true → Aborts t s.quires[q] u.quires[q])
      ∧ (s.quires[q].seq.tasks[t].live = false → u.quires[q] = s.quires[q]) := by
  induction qs with
  | nil => exact fun s _ h => absurd h List.not_mem_nil
  | cons a qs ih =>
    intro s hn h
    obtain ⟨ha, hn⟩ := List.nodup_cons.1 hn
    simp only [List.foldl_cons]
    by_cases hq : q = a
    · subst hq
      rw [foldl_stopTask_ne t 2 qs _ ha]
      exact ⟨stopTask_aborts, fun hl => by rw [stopTask_idle hl]⟩
    · have hs := ih (stopTask s a t 2) hn ((List.mem_cons.1 h).resolve_left hq)
      rw [stopTask_quires_ne _ _ _ hq] at hs
      exact hs

theorem foldl_stopTask_frame (t : Fin 4) (how : Nat) (qs : List (Fin 64)) :
    ∀ s : State, StopFrame s (qs.foldl (fun s q => stopTask s q t how) s) := by
  induction qs with
  | nil => exact StopFrame.refl
  | cons a qs ih => exact fun s => (stopTask_frame s a t how).trans (ih _)

/-- ABORT_TASK where the task runs on a named quire, and where it runs on none. -/
theorem abortWork_eq {b : State} {c : Cmd} {qs : List (Fin 64)} {t : Fin 4} (hq : namedQuires (prm c 0) = some qs)
    (ht : t.val = fld (prm c 0) 10 2) :
    abortWork b c = if qs.any (fun q => b.quires[q].seq.tasks[t].live) then .done (qs.foldl (fun s q => stopTask s q t 2) b) 0x00 0 0
      else .fail b 0x05 := by
  have htask : (⟨fld (prm c 0) 10 2 % 4, by omega⟩ : Fin 4) = t := Fin.ext (by
    show fld (prm c 0) 10 2 % 4 = t.val
    have := t.isLt
    omega)
  rw [abortWork]
  simp only [hq, htask]

theorem startTaskWork_named {b : State} {c : Cmd} {qs : List (Fin 64)} {t : Fin 4} (hq : namedQuires (prm c 0) = some qs)
    (ht : (⟨fld (prm c 0) 10 2 % 4, by omega⟩ : Fin 4) = t) :
    startTaskWork b c = launch b c t qs (fld (prm c 0) 16 13) (fld (prm c 0) 32 14) := by
  rw [startTaskWork]
  simp only [hq, ht]

/-- A row whose command starts and stays in progress. -/
theorem commandRow_going {s : State} {r : Fin 4} {op : Nat} {k : Packet} {host : Option (List Byte)} {work : State → Cmd → Reply}
    (h : Starts s r op k) (hf : goesFirst op k = false) {u : State} {d : Cmd}
    (hw : work (workState s r) (commandOf s r op k host) = .going u d) :
    commandRow work op r k host false false s = withCommand s u d := by
  rw [commandRow_starts false false h, hf, ← placeReply_going s u (commandOf s r op k host), ← hw]
  rfl

section
variable {s : State} {r : Fin 4} {k : Packet}

/-- The row of a start, of either kind. -/
theorem exec_start {update : Bool} {op : Nat} (hop : op = if update then 0x08 else 0x05) (h : Starts s r op k) {u : State} {d : Cmd}
    (hw : (if update then runUpdateWork else startTaskWork) (workState s r) (commandOf s r op k none) = .going u d) :
    exec (if update then .runUpdate r k else .startTask r k) s = .next (withCommand s u d) := by
  cases update
  · subst hop
    rw [if_neg Bool.false_ne_true] at hw ⊢
    exact congrArg Host.Outcome.next (commandRow_going h rfl hw)
  · subst hop
    rw [if_pos rfl] at hw ⊢
    exact congrArg Host.Outcome.next (commandRow_going h rfl hw)

/-- The row of ABORT_TASK. -/
theorem exec_abort (h : Starts s r 0x06 k) {u : State} {st : Nat}
    (hw : abortWork (workState s r (goesFirst 0x06 k)) (commandOf s r 0x06 k none) = .done u st 0 0) :
    exec (.abortTask r k) s = .next (Ended s u (commandOf s r 0x06 k none) st 0 0) := by
  refine congrArg Host.Outcome.next ((abortRow_front h.1.2.2).trans ((commandRow_starts false false h).trans ?_))
  exact (congrArg (placeReply s.bind.cmds.length (commandOf s r 0x06 k none)) hw).trans (placeReply_done s u _ st 0 0)

end

/-- What either start does, as the launch of its task. -/
theorem startWork_eq {b : State} {c : Cmd} {qs : List (Fin 64)} {t : Fin 4} {update : Bool}
    (h : if update then t = 0 ∧ qs = allQuires else t.val = fld (prm c 0) 10 2 ∧ namedQuires (prm c 0) = some qs) :
    let entry := b.bind.entries[(⟨fld (prm c 0) 0 4 % 16, by omega⟩ : Fin 16)]
    (if update then runUpdateWork else startTaskWork) b c = launch b c t qs (if update then fld entry 0 13 else fld (prm c 0) 16 13)
      (if update then fld entry 16 14 else fld (prm c 0) 32 14) := by
  cases update
  · obtain ⟨ht, hq⟩ := h
    have htask : (⟨fld (prm c 0) 10 2 % 4, by omega⟩ : Fin 4) = t := Fin.ext (by
      show fld (prm c 0) 10 2 % 4 = t.val
      have := t.isLt
      omega)
    exact startTaskWork_named hq htask
  · obtain ⟨rfl, rfl⟩ := h
    rfl

/-- What ABORT_TASK does where the task runs on a named quire. -/
theorem abortWork_live {b : State} {c : Cmd} {qs : List (Fin 64)} {t : Fin 4} (hq : namedQuires (prm c 0) = some qs)
    (ht : t.val = fld (prm c 0) 10 2) (hlive : ∃ q ∈ qs, b.quires[q].seq.tasks[t].live = true) :
    ∃ a, abortWork b c = .done a 0 0 0 ∧ StopFrame b a
      ∧ (∀ q ∈ qs, b.quires[q].seq.tasks[t].live = true → Aborts t b.quires[q] a.quires[q])
      ∧ ∀ q : Fin 64, q ∉ qs ∨ b.quires[q].seq.tasks[t].live = false → a.quires[q] = b.quires[q] := by
  have hany : (qs.any fun q => b.quires[q].seq.tasks[t].live) = true := List.any_eq_true.2 hlive
  have hmem := fun q => foldl_stopTask_mem t (q := q) qs b (namedQuires_nodup hq)
  refine ⟨_, (abortWork_eq hq ht).trans (if_pos hany), foldl_stopTask_frame t 2 qs b, fun q hm => (hmem q hm).1, fun q h => ?_⟩
  by_cases hm : q ∈ qs
  · exact (hmem q hm).2 (h.resolve_left fun g => g hm)
  · exact foldl_stopTask_ne t 2 qs b hm

/-- Settles O56: a start, and an abort of a task. -/
theorem taskCommands : Obligations.TaskCommands := by
  unfold Obligations.TaskCommands
  refine ⟨?_, ?_⟩
  · intro s r k update qs b entry base count op new t ht hstarts hstill hloaded hcount hbase h1 h2 h3 h4 h5 hfree htopo hdebug
    have hrow : ∀ (u : State) (d : Cmd), (if update then runUpdateWork else startTaskWork) b (commandOf s r op k none) = .going u d →
        exec (if update then .runUpdate r k else .startTask r k) s = .next (withCommand s u d) :=
      fun u d => exec_start rfl hstarts
    clear_value b
    have hop : (op == 0x08) = update := by
      cases update
      · exact (by decide : ((0x05 : Nat) == 0x08) = false)
      · exact (by decide : ((0x08 : Nat) == 0x08) = true)
    have hcmd : ∀ n, prm (commandOf s r op k none) n = k.p[n] := fun n => rfl
    have hn : qs.Nodup := by
      cases update
      · exact namedQuires_nodup ht.2
      · exact ht.2 ▸ allQuires_nodup
    have hwork := startWork_eq (b := b) (c := commandOf s r op k none) ht
    have hlaunch := launch_starts (b := b) (c := commandOf s r op k none) (t := t) (qs := qs) (base := base) (count := count) hstill hloaded
      (by simp only [boundsOk, Bool.and_eq_true, decide_eq_true_eq]; exact ⟨⟨⟨⟨h1, h2⟩, h3⟩, h4⟩, h5⟩)
      (by simp only [codeOk, Bool.and_eq_true, decide_eq_true_eq]; exact ⟨hcount, hbase⟩) hfree htopo hdebug
    have hopcode : (commandOf s r op k none).opcode = op := rfl
    rw [hopcode, hop] at hlaunch
    have hexec : exec (if update then .runUpdate r k else .startTask r k) s = .next (withCommand s (started b t qs k.p[4] new update)
        { commandOf s r op k none with quires := qs.map (·.val), task := t }) := hrow _ _ (hwork.trans hlaunch)
    clear hwork hlaunch hrow
    clear_value new
    obtain ⟨hclk, hbind, hlinks, hother⟩ := started_fixed b t qs k.p[4] new update
    refine ⟨started b t qs k.p[4] new update, hexec, fun q hq => ?_, fun q hq => ?_, fun h => started_con b h qs _ _ _, hother,
      started_ports b t qs _ _ _, hclk, hbind, hlinks⟩
    · rw [started_quires b t hn, if_pos hq]
      exact begun_fields t _ _ _ new update b.quires[q]
    · rw [started_quires b t hn, if_neg hq]
  · intro s r k qs t b hstarts hqs ht
    have hrow : ∀ (u : State) (st : Nat), abortWork b (commandOf s r 0x06 k none) = .done u st 0 0 →
        exec (.abortTask r k) s = .next (Ended s u (commandOf s r 0x06 k none) st 0 0) := fun u st => exec_abort hstarts
    clear_value b
    refine ⟨fun hnone => hrow b 0x05 ?_, fun hlive => ?_⟩
    · have hany : (qs.any fun q => b.quires[q].seq.tasks[t].live) = false :=
        List.any_eq_false.2 fun q hq => by rw [hnone q hq]; decide
      rw [abortWork_eq (c := commandOf s r 0x06 k none) hqs ht, hany]
      rfl
    · obtain ⟨a, hwork, hframe, habort, hstay⟩ := abortWork_live (b := b) (c := commandOf s r 0x06 k none) hqs ht hlive
      refine ⟨a, hrow a 0 hwork, fun q hq hl => ?_, hstay, hframe.clk, (congrArg State.con hframe :), hframe.links, hframe.endpapers⟩
      obtain ⟨g1, g2, g3, g4, g5, g6, g7, g8, g9, g10⟩ := habort q hq hl
      exact ⟨g1, g2, g3, g4, g5, g6, g7, g8, g9, g10⟩

end Sys2Proof.Machine
end

section
/-! SET_OPERATING_POINT and RESET_COMPUTE (R344 R353 R447 R471 R481). -/

namespace Sys2Proof.Machine

/-! ## Every raised fault reaches the latch -/

/-- What a fault that reaches the latch leaves alone, and that the latch stays set. -/
structure FaultFrame (s u : State) : Prop where
  mem : ∀ q : Fin 64, u.quires[q].mem = s.quires[q].mem
  clk : u.clk = s.clk
  con : u.con = s.con
  endpapers : u.endpapers = s.endpapers
  latch : s.bind.latch = true → u.bind.latch = true

theorem FaultFrame.refl (s : State) : FaultFrame s s := ⟨fun _ => rfl, rfl, rfl, rfl, id⟩

theorem FaultFrame.trans {s u v : State} (h : FaultFrame s u) (g : FaultFrame u v) : FaultFrame s v :=
  ⟨fun q => (g.mem q).trans (h.mem q), g.clk.trans h.clk, g.con.trans h.con, g.endpapers.trans h.endpapers, fun hl => g.latch (h.latch hl)⟩

theorem startFaultFlits_rest {m : State} {f : Raised} (h : m.bind.firstFault = some f) : { startFaultFlits m with links := m.links } = m :=
  (foldl_faultStart (List.finRange 26) m h (List.nodup_finRange 26)).1

theorem latched_frame (f : Raised) (s : State) : FaultFrame s (latched f s) := ⟨fun _ => rfl, rfl, rfl, rfl, fun _ => rfl⟩

/-- The FAULT flits of an incident, behind the stop of every quire. -/
theorem incident_frame {m v : State} {f : Raised} (hfirst : m.bind.firstFault = some f) (hstop : StopFrame m v)
    (hmem : ∀ q : Fin 64, v.quires[q].mem = m.quires[q].mem) :
    FaultFrame m (startFaultFlits v) ∧ (startFaultFlits v).bind.raised = m.bind.raised := by
  have hrest := startFaultFlits_rest ((congrArg Bindery.firstFault hstop.bind :).trans hfirst)
  generalize startFaultFlits v = u at hrest ⊢
  have hbind : u.bind = v.bind := (congrArg State.bind hrest :)
  have hquires : u.quires = v.quires := (congrArg State.quires hrest :)
  refine ⟨⟨fun q => by rw [hquires, hmem q], (congrArg State.clk hrest :).trans hstop.clk,
    (congrArg State.con hrest :).trans (congrArg State.con hstop :), (congrArg State.endpapers hrest :).trans hstop.endpapers,
    fun h => ?_⟩, ?_⟩
  · rw [hbind]
    exact (congrArg Bindery.latch hstop.bind :).trans h
  · rw [hbind]
    exact (congrArg Bindery.raised hstop.bind :)

theorem stopAll_mem (how : Nat) (s : State) (q : Fin 64) :
    (allQuires.foldl (fun s q => stopQuire s q how) s).quires[q].mem = s.quires[q].mem :=
  (foldl_stopQuire_stops how allQuires s allQuires_nodup (mem_allQuires q)).mem

theorem stopAll_live (how : Nat) (s : State) (q : Fin 64) (t : Fin 4) :
    (allQuires.foldl (fun s q => stopQuire s q how) s).quires[q].seq.tasks[t].live = false := by
  have hstops := foldl_stopQuire_stops how allQuires s allQuires_nodup (mem_allQuires q)
  generalize allQuires.foldl (fun s q => stopQuire s q how) s = u at hstops ⊢
  exact hstops.live t

/-- A fault that reaches the latch leaves it set, and takes no other from those on their way. -/
theorem takeFaultNow_frame (f : Raised) (s : State) :
    FaultFrame s (takeFaultNow f s) ∧ (takeFaultNow f s).bind.latch = true ∧ (takeFaultNow f s).bind.raised = s.bind.raised := by
  by_cases hl : s.bind.latch = true
  · rw [takeFaultNow_latched hl]
    exact ⟨⟨fun _ => rfl, rfl, rfl, rfl, id⟩, hl, rfl⟩
  · rw [takeFaultNow_first (Bool.eq_false_iff.2 hl)]
    have hlatched := latched_frame f s
    have hlatch : (latched f s).bind.latch = true := rfl
    have hraised : (latched f s).bind.raised = s.bind.raised := rfl
    have hfirst : (latched f s).bind.firstFault = some f := rfl
    generalize latched f s = m at hlatched hlatch hraised hfirst
    split
    · exact ⟨hlatched, hlatch, hraised⟩
    · obtain ⟨hframe, hr⟩ := incident_frame hfirst (foldl_stopQuire_frame 3 allQuires m) (stopAll_mem 3 m)
      exact ⟨hlatched.trans hframe, hframe.latch hlatch, hr.trans hraised⟩

/-- The search ends at one of the faults that it has met. -/
theorem foldl_firstOf_mem (l : List (Raised × Nat)) :
    ∀ best : Option (Raised × Nat), l.foldl firstOf best = best ∨ ∃ p ∈ l, l.foldl firstOf best = some p := by
  induction l with
  | nil => exact fun best => .inl rfl
  | cons p l ih =>
    intro best
    rw [List.foldl_cons]
    rcases ih (firstOf best p) with h | ⟨x, hx, h⟩
    · have hp : firstOf best p = best ∨ firstOf best p = some p := by
        cases best with
        | none => exact .inr rfl
        | some b => exact (ite_eq_or_eq _ _ _).symm
      rcases hp with hp | hp
      · exact .inl (h.trans hp)
      · exact .inr ⟨p, List.mem_cons_self, h.trans hp⟩
    · exact .inr ⟨x, List.mem_cons_of_mem _ hx, h⟩

theorem nextRaised_lt {l : List Raised} (h : l ≠ []) : nextRaised l < l.length := by
  have hn : nextRaised l = ((l.zipIdx.foldl firstOf none).map (·.2)).getD 0 := rfl
  rcases foldl_firstOf_mem l.zipIdx none with hnone | ⟨p, hp, hsome⟩
  · rw [hn, hnone]
    exact List.length_pos_iff.2 h
  · rw [hn, hsome]
    obtain ⟨r, i⟩ := p
    have := (List.mem_zipIdx hp).2.1
    rwa [Nat.zero_add] at this

/-- The fault that is taken is one of those on their way. -/
theorem takeOldest_frame {s : State} (h : s.bind.raised ≠ []) :
    FaultFrame s (takeOldest s) ∧ (takeOldest s).bind.latch = true ∧ (takeOldest s).bind.raised.length + 1 = s.bind.raised.length := by
  have hlt := nextRaised_lt h
  have hget := List.getElem?_eq_getElem hlt
  rw [takeOldest]
  simp only [hget]
  obtain ⟨hframe, hlatch, hraised⟩ := takeFaultNow_frame s.bind.raised[nextRaised s.bind.raised]
    { s with bind := { s.bind with raised := s.bind.raised.eraseIdx (nextRaised s.bind.raised) } }
  refine ⟨⟨hframe.mem, hframe.clk, hframe.con, hframe.endpapers, hframe.latch⟩, hlatch, ?_⟩
  rw [hraised]
  exact (congrArg (· + 1) (List.length_eraseIdx_of_lt hlt)).trans (Nat.succ_pred_eq_of_pos (Nat.zero_lt_of_lt hlt))

theorem foldl_takeOldest (l : List Raised) : ∀ s : State, s.bind.raised.length = l.length →
    let u := l.foldl (fun s _ => takeOldest s) s
    FaultFrame s u ∧ u.bind.raised = [] ∧ (l ≠ [] → u.bind.latch = true) := by
  induction l with
  | nil => exact fun s h => ⟨FaultFrame.refl s, List.length_eq_zero_iff.1 h, fun h => absurd rfl h⟩
  | cons f l ih =>
    intro s h
    have hne : s.bind.raised ≠ [] := List.length_pos_iff.1 (by rw [h]; exact Nat.succ_pos _)
    obtain ⟨hframe, hlatch, hlen⟩ := takeOldest_frame hne
    rw [h, List.length_cons] at hlen
    obtain ⟨iframe, iraised, -⟩ := ih (takeOldest s) (Nat.succ.inj hlen)
    exact ⟨hframe.trans iframe, iraised, fun _ => iframe.latch hlatch⟩

theorem takeAll_frame (s : State) : FaultFrame s (takeAll s) ∧ (takeAll s).bind.raised = []
    ∧ (s.bind.raised ≠ [] → (takeAll s).bind.latch = true) ∧ (s.bind.raised = [] → takeAll s = s) := by
  obtain ⟨hframe, hraised, hlatch⟩ := foldl_takeOldest s.bind.raised s rfl
  refine ⟨hframe, hraised, hlatch, fun h => ?_⟩
  rw [takeAll, h]
  rfl

/-! ## RESET_COMPUTE -/

/-- The end of the start of a RESET_COMPUTE: the clock root, and what the reset keeps for its end. -/
def resetBegun (former : Nat) (s : State) : State :=
  { s with clk := s.clk.schedule 5 (tick s + 64)
           bind := { s.bind with formerIndex := former, resetTick := some (tick s), resetFault := false }
           host := { s.host with resetBit := true } }

theorem startReset_eq (s : State) : startReset s =
    resetBegun (if (takeAll s).clk.opPending then (takeAll s).clk.target else (takeAll s).clk.current)
      (abortCommands (allQuires.foldl (fun s q => stopQuire s q 2) (takeAll s))) := rfl

/-- The commands in progress are all that the answers of the compute commands change, beside the count of those done. -/
theorem abortCommands_rest (s : State) :
    { abortCommands s with bind := { (abortCommands s).bind with cmds := s.bind.cmds, doneCount := s.bind.doneCount } } = s := rfl

/-- What RESET_COMPUTE leaves. -/
structure Resets (b a : State) : Prop where
  live : ∀ (q : Fin 64) (t : Fin 4), a.quires[q].seq.tasks[t].live = false
  mem : ∀ q : Fin 64, a.quires[q].mem = b.quires[q].mem
  clk : a.clk = { b.clk with target := 5, opPending := true, kettle := BitVec.ofNat 64 (tick b + 64) }
  former : a.bind.formerIndex = if b.clk.opPending then b.clk.target else b.clk.current
  resetTick : a.bind.resetTick = some (tick b)
  raised : a.bind.raised = []
  latch : b.bind.raised ≠ [] → a.bind.latch = true
  host : b.bind.raised = [] → a.host = { b.host with resetBit := true } ∧ a.links = b.links
  resetBit : a.host.resetBit = true
  endpapers : a.endpapers = b.endpapers
  con : a.con = b.con

/-- The reset begins behind the faults (m), the stops (u) and the answers of the compute commands (v). -/
theorem resetBegun_resets {b m u v : State} (hframe : FaultFrame b m) (hraised : m.bind.raised = [])
    (hlatch : b.bind.raised ≠ [] → m.bind.latch = true) (hnone : b.bind.raised = [] → m = b) (hstop : StopFrame m u)
    (hlive : ∀ (q : Fin 64) (t : Fin 4), u.quires[q].seq.tasks[t].live = false) (hmem : ∀ q : Fin 64, u.quires[q].mem = m.quires[q].mem)
    (hcut : { v with bind := { v.bind with cmds := u.bind.cmds, doneCount := u.bind.doneCount } } = u) :
    Resets b (resetBegun (if m.clk.opPending then m.clk.target else m.clk.current) v) := by
  have hvq : v.quires = u.quires := (congrArg State.quires hcut :)
  have hclk : v.clk = b.clk := (congrArg State.clk hcut :).trans (hstop.clk.trans hframe.clk)
  have htick : tick v = tick b := congrArg (fun c : Clk => c.stitch.toNat) hclk
  exact {
    live := fun q t => by
      show v.quires[q].seq.tasks[t].live = false
      rw [hvq]
      exact hlive q t
    mem := fun q => by
      show v.quires[q].mem = b.quires[q].mem
      rw [hvq]
      exact (hmem q).trans (hframe.mem q)
    clk := by
      show v.clk.schedule 5 (tick v + 64) = _
      rw [hclk, htick]
      rfl
    former := by
      show (if m.clk.opPending then m.clk.target else m.clk.current) = _
      rw [hframe.clk]
    resetTick := congrArg some htick
    raised := (congrArg (fun s : State => s.bind.raised) hcut :).trans ((congrArg Bindery.raised hstop.bind :).trans hraised)
    latch := fun h => (congrArg (fun s : State => s.bind.latch) hcut :).trans ((congrArg Bindery.latch hstop.bind :).trans (hlatch h))
    host := fun h => by
      have hm := hnone h
      subst hm
      have hhost : v.host = m.host := (congrArg State.host hcut :).trans hstop.host
      refine ⟨?_, (congrArg State.links hcut :).trans hstop.links⟩
      show { v.host with resetBit := true } = _
      rw [hhost]
    resetBit := rfl
    endpapers := (congrArg State.endpapers hcut :).trans (hstop.endpapers.trans hframe.endpapers)
    con := (congrArg State.con hcut :).trans ((congrArg State.con hstop :).trans hframe.con) }

theorem startReset_resets (b : State) : Resets b (startReset b) := by
  obtain ⟨hframe, hraised, hlatch, hnone⟩ := takeAll_frame b
  rw [startReset_eq]
  exact resetBegun_resets hframe hraised hlatch hnone (foldl_stopQuire_frame 2 allQuires _) (stopAll_live 2 _) (stopAll_mem 2 _)
    (abortCommands_rest _)

/-! ## SET_OPERATING_POINT -/

/-- The status of a check that fails, in the order of R344. -/
theorem operatingCheck_eq (b : State) (target kettle : Nat) : operatingCheck b target kettle =
    if target = 7 ∨ target < b.clk.cap then some 0x03
    else if target < 5 ∧ bit b.con.debugCtl 0 = true then some 0x03
    else if kettle < tick b + 64 ∨ tick b + 1000000 < kettle then some 0x03
    else if b.clk.source ≠ 0 then some 0x09
    else if b.clk.opPending = true then some 0x04
    else none := by
  simp only [operatingCheck, Bool.or_eq_true, Bool.and_eq_true, decide_eq_true_eq]

/-- A choice of outcomes by the checks is the choice of the first that fails. -/
theorem operatingCheck_holds {P : Option Nat → Prop} {b : State} {target kettle : Nat} (h : P (operatingCheck b target kettle)) :
    if target = 7 ∨ target < b.clk.cap then P (some 0x03)
    else if target < 5 ∧ bit b.con.debugCtl 0 = true then P (some 0x03)
    else if kettle < tick b + 64 ∨ tick b + 1000000 < kettle then P (some 0x03)
    else if b.clk.source ≠ 0 then P (some 0x09)
    else if b.clk.opPending = true then P (some 0x04)
    else P none := by
  rw [operatingCheck_eq] at h
  simpa only [apply_ite P] using h

/-- The outcome of SET_OPERATING_POINT by the check that fails. -/
def operatingOutcome (s b : State) (c : Cmd) (target : Nat) (kettle : Word) (check : Option Nat) : State :=
  match check with
  | some st => Ended s b c st 0 0
  | none => withCommand s { b with clk := { b.clk with target := target, opPending := true, kettle := kettle } } c

theorem setOperatingPoint_eq {s : State} {r : Fin 4} {k : Packet} (h : Starts s r 0x0B k) : exec (.setOperatingPoint r k) s =
    .next (operatingOutcome s (workState s r) (commandOf s r 0x0B k none) (fld k.p[0] 0 3) k.p[1]
      (operatingCheck (workState s r) (fld k.p[0] 0 3) k.p[1].toNat)) := by
  have hdone : ∀ st, operatingWork (workState s r) (commandOf s r 0x0B k none) = .done (workState s r) st 0 0 →
      exec (.setOperatingPoint r k) s = .next (Ended s (workState s r) (commandOf s r 0x0B k none) st 0 0) :=
    fun st hw => congrArg Host.Outcome.next (commandRow_done h rfl hw)
  have hgoing : ∀ u, operatingWork (workState s r) (commandOf s r 0x0B k none) = .going u (commandOf s r 0x0B k none) →
      exec (.setOperatingPoint r k) s = .next (withCommand s u (commandOf s r 0x0B k none)) :=
    fun u hw => congrArg Host.Outcome.next (commandRow_going h rfl hw)
  generalize workState s r = b at hdone hgoing ⊢
  have hwork : operatingWork b (commandOf s r 0x0B k none) = match operatingCheck b (fld k.p[0] 0 3) k.p[1].toNat with
      | some st => .fail b st
      | none => .going { b with clk := b.clk.schedule (fld k.p[0] 0 3) k.p[1].toNat } (commandOf s r 0x0B k none) := rfl
  cases hc : operatingCheck b (fld k.p[0] 0 3) k.p[1].toNat with
  | some st =>
    rw [hc] at hwork
    exact hdone st hwork
  | none =>
    rw [hc] at hwork
    refine (hgoing _ hwork).trans ?_
    rw [Clk.schedule, BitVec.ofNat_toNat, BitVec.setWidth_eq]
    rfl

/-- Settles O57: SET_OPERATING_POINT by its checks, and RESET_COMPUTE. -/
theorem clockCommands : Obligations.ClockCommands := by
  unfold Obligations.ClockCommands
  intro s r k b target kettle fails
  refine ⟨fun h => ?_, fun h => ?_⟩
  · exact operatingCheck_holds (P := fun check => exec (.setOperatingPoint r k) s =
      .next (operatingOutcome s b (commandOf s r 0x0B k none) target k.p[1] check)) (setOperatingPoint_eq h)
  · have hdo : ∀ u, resetWork b (commandOf s r 0x0E k none) = .going u (commandOf s r 0x0E k none) →
        exec (.resetCompute r k) s = .next (withCommand s u (commandOf s r 0x0E k none)) :=
      fun u hw => congrArg Host.Outcome.next (commandRow_going h rfl hw)
    clear_value b
    have hrow := hdo (startReset b) (by rw [resetWork])
    have hresets := startReset_resets b
    generalize startReset b = a at hrow hresets
    obtain ⟨hlive, hmem, hclk, hformer, htick, hraised, hlatch, hhost, hbit, hend, hcon⟩ := hresets
    exact ⟨a, hrow, hlive, hmem, hclk, hformer, htick, hraised, hlatch, hhost, hbit, hend, hcon⟩

end Sys2Proof.Machine
end

section
/-! SET_TOPOLOGY, and the end of its wait (R380 R382 R386 R387). -/

namespace Sys2Proof.Machine

/-! ## The identity stage on links whose ports are empty -/

/-- A port that holds no message on its way, and has no credit. -/
def Port.clear (po : Port) : Prop := po.tx = [] ∧ po.rx = [] ∧ po.credit = 0

/-- The same port with its space granted anew. -/
def Regranted (po u : Port) : Prop := ∃ o g, u = { po with owed := o, granted := g }

theorem Regranted.refl (po : Port) : Regranted po po := ⟨po.owed, po.granted, rfl⟩

theorem Regranted.trans {a b c : Port} (h : Regranted a b) (g : Regranted b c) : Regranted a c := by
  obtain ⟨o, x, rfl⟩ := h
  obtain ⟨o', x', rfl⟩ := g
  exact ⟨o', x', rfl⟩

theorem Regranted.clear {a b : Port} (h : Regranted a b) (hc : a.clear) : b.clear := by
  obtain ⟨o, x, rfl⟩ := h
  exact hc

theorem Regranted.phys {a b : Port} (h : Regranted a b) : b.phys = a.phys := by
  obtain ⟨o, x, rfl⟩ := h
  rfl

/-- The identity stage of a clear port loses nothing. -/
theorem regranted_of_clear {po : Port} (h : po.clear) (n : Nat) : Regranted po (Port.grant n (regrant (dropInFlight true po))) := by
  obtain ⟨htx, hrx, hcredit⟩ := h
  have hdrop : dropInFlight true po = { po with granted := 0 } := by
    have hnone : portInFlight po = 0 := by rw [portInFlight, htx, hrx]; rfl
    simp only [dropInFlight, if_true, hnone, hrx, List.filter_nil, BitVec.add_zero]
    rw [← htx, ← hrx, ← hcredit]
  rw [hdrop]
  refine ⟨_, _, (?_ : _ = { po with owed := (Port.grant n (regrant { po with granted := 0 })).owed, granted := 0 + n })⟩
  rw [Port.grant, regrant]
  simp only [hcredit]

/-- The link end behind an identity stage. -/
def StageRun (id : Identity) (k u : Link) : Prop :=
  ∃ sent t owed, u = { Link.startIdentity id k with lastSent := sent, sentTick := t, ackOwed := owed }

/-- What the identity stages of some links leave where every port is clear. -/
structure StagesRun (ls : List (Fin 26)) (s u : State) : Prop where
  link : ∀ x ∈ ls, StageRun (identityOf s x) s.links[x] u.links[x]
  other : ∀ x ∉ ls, u.links[x] = s.links[x]
  port : ∀ p : Fin 26, Regranted s.ports[p] u.ports[p]
  rest : { u with links := s.links, ports := s.ports } = s

theorem portOn_of_regranted {s u : State} (h : ∀ p : Fin 26, Regranted s.ports[p] u.ports[p]) (l : Fin 26) : portOn u l = portOn s l := by
  rw [portOn, portOn]
  congr 1
  funext p
  rw [(h p).phys]

theorem runIdentity_run {s : State} (l : Fin 26) (hc : ∀ p : Fin 26, s.ports[p].clear) : StagesRun [l] s (runIdentity s l) := by
  have hlinks : ∀ (f : Link → Link) (x : Fin 26), x ∉ [l] → (updLink s l f).links[x] = s.links[x] :=
    fun f x hx => updLink_links_ne s f (mt List.mem_singleton.2 hx)
  cases hp : portOn s l with
  | none =>
    have hrun : runIdentity s l = updLink s l (Link.startIdentity (identityOf s l)) := by
      simp only [runIdentity, portOn_updLink, hp]
      exact sendGrant_none ((portOn_updLink _ _ _ _).trans hp)
    rw [hrun]
    refine ⟨fun x hx => ?_, hlinks _, fun p => Regranted.refl _, rfl⟩
    rw [List.mem_singleton.1 hx, updLink_links_self]
    exact ⟨_, _, _, rfl⟩
  | some p =>
    have hr : runIdentity s l = sendGrant (updPort (updLink s l (Link.startIdentity (identityOf s l))) p
        (fun po => regrant (dropInFlight true po))) l := by
      simp only [runIdentity, portOn_updLink, hp]
    have hpo : portOn (updPort (updLink s l (Link.startIdentity (identityOf s l))) p (fun po => regrant (dropInFlight true po))) l =
        some p := (portOn_updPort _ _ rfl _).trans hp
    obtain ⟨g, sent, t, owed, hg⟩ := sendGrant_fields hpo
    rw [updLink_updPort, updLink_updLink, updPort_updPort] at hg
    rw [hr, hg]
    refine ⟨fun x hx => ?_, fun x hx => (congrArg (·[x]) (updPort_links _ _ _)).trans (hlinks _ x hx), fun o => ?_, rfl⟩
    · rw [List.mem_singleton.1 hx, updPort_links, updLink_links_self]
      exact ⟨sent, t, owed, rfl⟩
    · rw [updPort_ports]
      split
      · next h =>
        subst h
        exact regranted_of_clear (hc _) g
      · exact Regranted.refl _

theorem foldl_runIdentity (ls : List (Fin 26)) : ∀ s : State, ls.Nodup → (∀ p : Fin 26, s.ports[p].clear) →
    StagesRun ls s (ls.foldl runIdentity s) := by
  induction ls with
  | nil => exact fun s _ _ => ⟨fun x hx => absurd hx List.not_mem_nil, fun x _ => rfl, fun p => Regranted.refl _, rfl⟩
  | cons l ls ih =>
    intro s hn hc
    obtain ⟨hl, hn⟩ := List.nodup_cons.1 hn
    obtain ⟨hlink, hother, hport, hrest⟩ := runIdentity_run l hc
    rw [List.foldl_cons]
    generalize runIdentity s l = m at hlink hother hport hrest ⊢
    obtain ⟨ilink, iother, iport, irest⟩ := ih m hn fun p => (hport p).clear (hc p)
    generalize ls.foldl runIdentity m = u at ilink iother iport irest ⊢
    have hid : ∀ x, identityOf m x = identityOf s x := fun x => by
      have hbind : m.bind = s.bind := (congrArg State.bind hrest :)
      rw [identityOf, identityOf, portOn_of_regranted hport, hbind]
    refine ⟨fun x hx => ?_, fun x hx => ?_, fun p => (hport p).trans (iport p),
      (congrArg (fun v : State => { v with links := s.links, ports := s.ports }) irest :).trans hrest⟩
    · by_cases hxl : x = l
      · subst hxl
        rw [iother x hl]
        exact hlink x (List.mem_singleton_self x)
      · have h := ilink x ((List.mem_cons.1 hx).resolve_left hxl)
        rwa [hid, hother x (mt List.mem_singleton.1 hxl)] at h
    · obtain ⟨hxl, hx⟩ := not_or.1 (mt List.mem_cons.2 hx)
      rw [iother x hx, hother x (mt List.mem_singleton.1 hxl)]

/-! ## The descriptor is loaded -/

/-- The state in which every message is dropped and the ports are mapped as the descriptor says. -/
def portsMapped (d : List Byte) (s : State) : State :=
  let m := dropMessages s
  { m with ports := Vector.ofFn (fun p : Fin 26 => mapPort d p m.ports[p])
           bind := { m.bind with deviceId := BitVec.ofNat 32 (numAt d 4 4), job := BitVec.ofNat 64 (numAt d 8 4)
                                 topoLoaded := false, topoCmdTick := tick m } }

/-- The links follow. -/
def linksMapped (s : State) : State := { s with links := Vector.ofFn (fun l : Fin 26 => mapLink s l) }

theorem loadTopology_eq (d : List Byte) (s : State) : loadTopology d s =
    ((List.finRange 26).filter (fun l => linkIsUp (linksMapped (portsMapped d s)) l)).foldl runIdentity (linksMapped (portsMapped d s)) := rfl

/-- A quire whose messages for links are dropped. -/
def Quire.unsent (k : Quire) : Quire := { k with stream := { k.stream with writes := k.stream.writes.filter (fun o => o.far != 2) } }

/-- The messages that each port holds are counted. -/
def messagesCounted (s : State) : State :=
  { s with ports := Vector.ofFn (fun p : Fin 26 => { s.ports[p] with drops := s.ports[p].drops + BitVec.ofNat 32 (heldMessages s p) }) }

theorem dropMessages_eq (s : State) : dropMessages s = updAllQ (messagesCounted s) (fun _ => Quire.unsent) := rfl

theorem messagesCounted_ports (s : State) (p : Fin 26) : (messagesCounted s).ports[p] =
    { s.ports[p] with drops := s.ports[p].drops + BitVec.ofNat 32 (heldMessages s p) } := by
  simp only [messagesCounted, Fin.getElem_fin, Vector.getElem_ofFn]

theorem messagesCounted_rest (s : State) : { messagesCounted s with ports := s.ports } = s := by
  simp only [messagesCounted]

/-- What the drop of every message leaves. -/
theorem dropMessages_fields (s : State) :
    (∀ p : Fin 26, (dropMessages s).ports[p] = { s.ports[p] with drops := s.ports[p].drops + BitVec.ofNat 32 (heldMessages s p) })
      ∧ (∀ q : Fin 64, ∀ o ∈ (dropMessages s).quires[q].stream.writes, o.far ≠ 2)
      ∧ { dropMessages s with ports := s.ports, quires := s.quires } = s := by
  have hports := messagesCounted_ports s
  have hrest := messagesCounted_rest s
  rw [dropMessages_eq]
  generalize messagesCounted s = m at hports hrest ⊢
  have hq : ∀ q : Fin 64, (updAllQ m (fun _ => Quire.unsent)).quires[q] = Quire.unsent m.quires[q] := updAllQ_quires m _
  have hall : { updAllQ m (fun _ => Quire.unsent) with quires := m.quires } = m := by simp only [updAllQ]
  generalize updAllQ m (fun _ => Quire.unsent) = u at hq hall ⊢
  have hp : u.ports = m.ports := (congrArg State.ports hall :)
  refine ⟨fun p => ?_, fun q o ho => ?_, ?_⟩
  · rw [hp]
    exact hports p
  · rw [hq] at ho
    exact bne_iff_ne.1 (List.mem_filter.1 ho).2
  · have hquires : m.quires = s.quires := (congrArg State.quires hrest :)
    refine (?_ : _ = { m with ports := s.ports }).trans hrest
    rw [← hquires]
    exact (congrArg (fun v : State => { v with ports := s.ports }) hall :)

/-- A port as it is mapped, with the messages that it held counted. -/
structure PortMapped (d : List Byte) (s : State) (p : Fin 26) (u : Port) : Prop where
  phys : u.phys.toNat = fld (entryWord d p.val 0) 0 5
  width : u.width = fld (entryWord d p.val 0) 5 2
  peerPort : u.peerPort = fld (entryWord d p.val 0) 8 5
  peerId : u.peerId.toNat = fld (entryWord d p.val 0) 32 32
  landBase : u.landBase = fld (entryWord d p.val 1) 0 20
  landSize : u.landSize = fld (entryWord d p.val 1) 20 12
  rx : u.rx = []
  tx : u.tx = []
  landed : u.landed = 0
  credit : u.credit = 0
  drops : u.drops = s.ports[p].drops + BitVec.ofNat 32 (heldMessages s p)

theorem mapPort_mapped (d : List Byte) (s : State) (p : Fin 26) :
    PortMapped d s p (mapPort d p { s.ports[p] with drops := s.ports[p].drops + BitVec.ofNat 32 (heldMessages s p) }) := by
  have hnat : ∀ (w : Word) (lo n : Nat), (BitVec.ofNat n (fld w lo n)).toNat = fld w lo n := fun w lo n => by
    rw [BitVec.toNat_ofNat, Nat.mod_eq_of_lt (fld_lt _ _ _)]
  exact ⟨hnat _ _ _, rfl, rfl, hnat _ _ _, rfl, rfl, rfl, rfl, rfl, rfl, rfl⟩

theorem PortMapped.regranted {d : List Byte} {s : State} {p : Fin 26} {u v : Port} (h : PortMapped d s p u) (g : Regranted u v) :
    PortMapped d s p v := by
  obtain ⟨o, x, rfl⟩ := g
  exact ⟨h.phys, h.width, h.peerPort, h.peerId, h.landBase, h.landSize, h.rx, h.tx, h.landed, h.credit, h.drops⟩

theorem portsMapped_ports (d : List Byte) (s : State) (p : Fin 26) : PortMapped d s p (portsMapped d s).ports[p] := by
  have h : (portsMapped d s).ports[p] = mapPort d p (dropMessages s).ports[p] := by
    simp only [portsMapped, Fin.getElem_fin, Vector.getElem_ofFn]
  rw [h, (dropMessages_fields s).1]
  exact mapPort_mapped d s p

theorem linksMapped_links (s : State) (l : Fin 26) : (linksMapped s).links[l] = mapLink s l := by
  simp only [linksMapped, Fin.getElem_fin, Vector.getElem_ofFn]

/-- What SET_TOPOLOGY leaves of a link. -/
structure LinkMapped (s a : State) (l : Fin 26) : Prop where
  state : a.links[l].state = s.links[l].state
  required : a.links[l].required = false
  port : a.links[l].port.toNat = ((portOn a l).map (·.val)).getD 31
  stage : linkIsUp s l = true → a.links[l].unacked = [] ∧ a.links[l].identified = false ∧ a.links[l].txSeq = 0
    ∧ a.links[l].rxSeq = 0 ∧ a.links[l].told = some
      { phys := l.val, deviceId := a.bind.deviceId, port := a.links[l].port.toNat, job := a.bind.job }

theorem portNumber_toNat (o : Option (Fin 26)) : (BitVec.ofNat 5 ((o.map (·.val)).getD 31)).toNat = (o.map (·.val)).getD 31 := by
  rw [BitVec.toNat_ofNat]
  refine Nat.mod_eq_of_lt ?_
  cases o with
  | none => decide
  | some p => exact p.isLt.trans (by decide)

theorem linksMapped_rest (s : State) : { linksMapped s with links := s.links } = s := by
  simp only [linksMapped]

/-- The identity stages behind the mapping of the links of m. -/
theorem stagesRun_linkMapped {m w a : State} (hw : ∀ l : Fin 26, w.links[l] = mapLink m l) (hrest : { w with links := m.links } = m)
    (h : StagesRun ((List.finRange 26).filter (fun l => linkIsUp w l)) w a) (l : Fin 26) : LinkMapped m a l := by
  obtain ⟨hlink, hother, hport, hstage⟩ := h
  have hwbind : w.bind = m.bind := (congrArg State.bind hrest :)
  have hwports : w.ports = m.ports := (congrArg State.ports hrest :)
  have hwpwr : w.pwr = m.pwr := (congrArg State.pwr hrest :)
  have hbind : a.bind = m.bind := (congrArg State.bind hstage :).trans hwbind
  have hwon : portOn w l = portOn m l := by rw [portOn, portOn, hwports]
  have hon : portOn a l = portOn m l := (portOn_of_regranted hport l).trans hwon
  have hup : linkIsUp w l = linkIsUp m l := by
    rw [linkIsUp, linkIsUp, hw, bandOn, bandOn, pdOn, pdOn, hwpwr]
    rfl
  have hid : identityOf w l =
      { phys := l.val, deviceId := m.bind.deviceId, port := ((portOn m l).map (·.val)).getD 31, job := m.bind.job } := by
    rw [identityOf, hwon, hwbind]
  have hnum := portNumber_toNat (portOn m l)
  by_cases hu : linkIsUp m l = true
  · obtain ⟨sent, t, owed, hl⟩ := hlink l (List.mem_filter.2 ⟨List.mem_finRange l, hup.trans hu⟩)
    rw [hw, hid] at hl
    refine ⟨?_, ?_, ?_, fun _ => ?_⟩ <;> rw [hl]
    · rfl
    · rfl
    · rw [hon]
      exact hnum
    · rw [hbind]
      exact ⟨rfl, rfl, rfl, rfl, congrArg (fun n => some (Identity.mk l.val m.bind.deviceId n m.bind.job)) hnum.symm⟩
  · have hl := hother l fun hm => hu (hup.symm.trans (List.mem_filter.1 hm).2)
    rw [hw] at hl
    refine ⟨?_, ?_, ?_, fun g => absurd g hu⟩ <;> rw [hl]
    · rfl
    · rfl
    · rw [hon]
      exact hnum

end Sys2Proof.Machine
end

section
/-! SET_TOPOLOGY as a command, and the end of its wait (R386 R387). -/

namespace Sys2Proof.Machine

/-! ## SET_TOPOLOGY -/

/-- What SET_TOPOLOGY leaves of a state b with a descriptor d. -/
structure TopologyLoads (d : List Byte) (b a : State) : Prop where
  ports : ∀ p : Fin 26, PortMapped d b p a.ports[p]
  links : ∀ l : Fin 26, LinkMapped b a l
  writes : ∀ q : Fin 64, ∀ o ∈ a.quires[q].stream.writes, o.far ≠ 2
  job : a.bind.job = BitVec.ofNat 64 (numAt d 8 4)
  device : a.bind.deviceId = BitVec.ofNat 32 (numAt d 4 4)
  tick : a.bind.topoCmdTick = tick b
  rest : { a with quires := b.quires, ports := b.ports, links := b.links, bind := b.bind } = b

/-- The ports are mapped, the identities named and the time kept. -/
structure PortsMapped (d : List Byte) (b m : State) : Prop where
  ports : ∀ p : Fin 26, PortMapped d b p m.ports[p]
  writes : ∀ q : Fin 64, ∀ o ∈ m.quires[q].stream.writes, o.far ≠ 2
  job : m.bind.job = BitVec.ofNat 64 (numAt d 8 4)
  device : m.bind.deviceId = BitVec.ofNat 32 (numAt d 4 4)
  tick : m.bind.topoCmdTick = tick b
  rest : { m with quires := b.quires, ports := b.ports, bind := b.bind } = b

theorem portsMapped_mapped (d : List Byte) (b : State) : PortsMapped d b (portsMapped d b) := by
  have hports := portsMapped_ports d b
  obtain ⟨-, hwrites, hrest⟩ := dropMessages_fields b
  have hm : { portsMapped d b with ports := (dropMessages b).ports, bind := (dropMessages b).bind } = dropMessages b := by
    simp only [portsMapped]
  have hjob : (portsMapped d b).bind.job = BitVec.ofNat 64 (numAt d 8 4) := by simp only [portsMapped]
  have hdevice : (portsMapped d b).bind.deviceId = BitVec.ofNat 32 (numAt d 4 4) := by simp only [portsMapped]
  have htick : (portsMapped d b).bind.topoCmdTick = tick (dropMessages b) := by simp only [portsMapped]
  generalize portsMapped d b = m at hports hm hjob hdevice htick ⊢
  generalize dropMessages b = v at hwrites hrest hm htick
  have hclk : v.clk = b.clk := (congrArg State.clk hrest :)
  have hquires : m.quires = v.quires := (congrArg State.quires hm :)
  refine ⟨hports, fun q => ?_, hjob, hdevice, htick.trans (congrArg (fun c : Clk => c.stitch.toNat) hclk), ?_⟩
  · rw [hquires]
    exact hwrites q
  · have hbind : v.bind = b.bind := (congrArg State.bind hrest :)
    refine ((congrArg (fun w : State => { w with quires := b.quires, ports := b.ports, bind := b.bind }) hm :)).trans ?_
    rw [← hbind]
    exact hrest

theorem loadTopology_loads {d : List Byte} {b : State} : TopologyLoads d b (loadTopology d b) := by
  rw [loadTopology_eq]
  have hm := portsMapped_mapped d b
  generalize portsMapped d b = m at hm ⊢
  have hlinks := linksMapped_links m
  have hlrest := linksMapped_rest m
  generalize linksMapped m = w at hlinks hlrest ⊢
  have hwports : w.ports = m.ports := (congrArg State.ports hlrest :)
  have hclear : ∀ p : Fin 26, w.ports[p].clear := fun p => by
    rw [hwports]
    exact ⟨(hm.ports p).tx, (hm.ports p).rx, (hm.ports p).credit⟩
  have hrun := foldl_runIdentity ((List.finRange 26).filter (fun l => linkIsUp w l)) w ((List.nodup_finRange 26).filter _) hclear
  generalize ((List.finRange 26).filter (fun l => linkIsUp w l)).foldl runIdentity w = a at hrun ⊢
  have hmapped := stagesRun_linkMapped hlinks hlrest hrun
  obtain ⟨-, -, hport, hstage⟩ := hrun
  have hbind : a.bind = m.bind := (congrArg State.bind hstage :).trans (congrArg State.bind hlrest :)
  have hquires : a.quires = m.quires := (congrArg State.quires hstage :).trans (congrArg State.quires hlrest :)
  have hmlinks : m.links = b.links := (congrArg State.links hm.rest :)
  have hup : ∀ l : Fin 26, linkIsUp m l = linkIsUp b l := fun l => by
    have hpwr : m.pwr = b.pwr := (congrArg State.pwr hm.rest :)
    rw [linkIsUp, linkIsUp, bandOn, bandOn, pdOn, pdOn, hpwr, hmlinks]
  refine ⟨fun p => ?_, fun l => ?_, fun q => ?_, ?_, ?_, ?_, ?_⟩
  · have h := hport p
    rw [hwports] at h
    exact (hm.ports p).regranted h
  · obtain ⟨g1, g2, g3, g4⟩ := hmapped l
    rw [hmlinks] at g1
    rw [hup] at g4
    exact ⟨g1, g2, g3, g4⟩
  · rw [hquires]
    exact hm.writes q
  · rw [hbind]
    exact hm.job
  · rw [hbind]
    exact hm.device
  · rw [hbind]
    exact hm.tick
  · refine ((congrArg (fun v : State => { v with quires := b.quires, ports := b.ports, links := b.links, bind := b.bind }) hstage :)).trans ?_
    refine ((congrArg (fun v : State => { v with quires := b.quires, ports := b.ports, links := b.links, bind := b.bind }) hlrest :)).trans ?_
    rw [← hmlinks]
    exact hm.rest

theorem topologyWork_loads {b : State} {c : Cmd} (hfar : farOk (prm c 0).toNat 512 = true)
    (hok : topologyOk (readBytes b.far (prm c 0).toNat 512) = true) (hrun : ∀ q : Fin 64, b.quires[q].seq.tasks[0].live = false)
    (hcmd : ∀ d ∈ b.bind.cmds, d.opcode ≠ 0x0C) :
    topologyWork b c = .going (loadTopology (readBytes b.far (prm c 0).toNat 512) b) c := by
  have hany : anyRun b = false := List.any_eq_false.2 fun q _ => by rw [hrun q]; decide
  have hopen : (b.bind.cmds.any fun d => d.open 0x0C) = false := List.any_eq_false.2 fun d hd => by
    rw [Cmd.open, beq_eq_false_iff_ne.2 (hcmd d hd), Bool.false_and]
    exact Bool.false_ne_true
  rw [topologyWork]
  simp only [hfar, hok, hany, hopen, Bool.not_true, Bool.or_self, Bool.false_eq_true, if_false]

/-! ## The end of the wait -/

/-- The only command in progress is answered. -/
theorem answerCmds_one {s : State} {c : Cmd} (hc : s.bind.cmds = [c]) (hr : c.st = .running) {pick : Cmd → Bool} (hp : pick c = true)
    (status : Nat) (r0 r1 : Word) :
    (answerCmds s pick status r0 r1).bind.cmds = [{ c with st := .done status r0 r1, doneAt := s.bind.doneCount }] := by
  simp only [answerCmds, hc, List.map_cons, List.map_nil, hp, if_true, Cmd.finish_running hr]

theorem answerCmds_rest (s : State) (pick : Cmd → Bool) (status : Nat) (r0 r1 : Word) :
    { answerCmds s pick status r0 r1 with bind := s.bind } = s := rfl

theorem answerCmds_topoLoaded (s : State) (pick : Cmd → Bool) (status : Nat) (r0 r1 : Word) :
    (answerCmds s pick status r0 r1).bind.topoLoaded = s.bind.topoLoaded := rfl

theorem requireLink_required (s : State) (l : Fin 26) :
    (requireLink s l).required = true ↔ ∃ p : Fin 26, portOn s l = some p ∧ s.ports[p].width ≠ 0 := by
  cases hp : portOn s l with
  | none => simp [requireLink, hp]
  | some p => simp [requireLink, hp]

theorem enforceTopology_links (s : State) (l : Fin 26) : (enforceTopology s).links[l] = requireLink s l := by
  simp only [enforceTopology, Fin.getElem_fin, Vector.getElem_ofFn]

theorem enforceTopology_rest (s : State) : { enforceTopology s with links := s.links, bind := s.bind } = s := by
  simp only [enforceTopology]

theorem enforceTopology_bind (s : State) : (enforceTopology s).bind = { s.bind with topoLoaded := true } := by
  simp only [enforceTopology]

theorem unloadTopology_ports (s : State) (p : Fin 26) : (unloadTopology s).ports[p] = unmapPort s.ports[p] := by
  simp only [unloadTopology, Fin.getElem_fin, Vector.getElem_map]

theorem unloadTopology_links (s : State) (l : Fin 26) : (unloadTopology s).links[l] = { s.links[l] with port := 31, required := false } := by
  simp only [unloadTopology, Fin.getElem_fin, Vector.getElem_map]

theorem unloadTopology_rest (s : State) : { unloadTopology s with links := s.links, ports := s.ports, bind := s.bind } = s := by
  simp only [unloadTopology]

theorem unloadTopology_bind (s : State) : (unloadTopology s).bind = { s.bind with topoLoaded := false } := by
  simp only [unloadTopology]

/-- The wait of a SET_TOPOLOGY is over. -/
theorem topologyExpiry_eq {s : State} {c : Cmd} (hf : firmwareRuns s = true) (hc : s.bind.cmds = [c]) (ho : c.opcode = 0x0C)
    (hr : c.st = .running) (ht : s.bind.topoCmdTick + 100000 ≤ tick s) : topologyExpiry s =
      if topologyMet s then answerCmds (enforceTopology s) (fun c => c.opcode == 0x0C) 0x00 0 0
      else answerCmds (unloadTopology s) (fun c => c.opcode == 0x0C) 0x08 0 0 := by
  have hruns : opcodeRuns s 0x0C = true := by
    simp only [opcodeRuns, hc, List.any_cons, List.any_nil, ho, hr, Bool.or_false]
    decide
  have hn : ¬ (!(firmwareRuns s && opcodeRuns s 0x0C && decide (s.bind.topoCmdTick + 100000 ≤ tick s))) = true := by
    rw [hf, hruns, decide_eq_true ht]
    decide
  rw [topologyExpiry, if_neg hn]
  by_cases hm : topologyMet s = true
  · rw [if_pos hm, if_pos hm, settleTopology, hruns, hm]
    rfl
  · rw [if_neg hm, if_neg hm]

/-- Settles O58: a legal descriptor is loaded, and the wait for the links ends. -/
theorem topologyCommand : Obligations.TopologyCommand := by
  unfold Obligations.TopologyCommand
  refine ⟨?_, ?_⟩
  · intro s r k b d hstarts haligned hin hok hrun hcmd
    have hdo : ∀ u, topologyWork b (commandOf s r 0x0C k none) = .going u (commandOf s r 0x0C k none) →
        exec (.setTopology r k) s = .next (withCommand s u (commandOf s r 0x0C k none)) :=
      fun u hw => congrArg Host.Outcome.next (commandRow_going hstarts rfl hw)
    have hfar : farOk k.p[0].toNat 512 = true := by
      rw [farOk, haligned, decide_eq_true hin]
      rfl
    clear_value b
    have hrow := hdo _ (topologyWork_loads (c := commandOf s r 0x0C k none) hfar hok hrun hcmd)
    have hloads := loadTopology_loads (d := d) (b := b)
    change exec (.setTopology r k) s = .next (withCommand s (loadTopology d b) (commandOf s r 0x0C k none)) at hrow
    generalize loadTopology d b = a at hrow hloads
    clear_value d
    obtain ⟨hports, hlinks, hwrites, hjob, hdevice, htick, hrest⟩ := hloads
    refine ⟨a, hrow, fun p => ?_, fun l => ?_, hwrites, hjob, hdevice, htick, (congrArg State.far hrest :), (congrArg State.clk hrest :),
      (congrArg State.con hrest :), (congrArg State.host hrest :)⟩
    · obtain ⟨g1, g2, g3, g4, g5, g6, g7, g8, g9, g10, g11⟩ := hports p
      exact ⟨g1, g2, g3, g4, g5, g6, g7, g8, g9, g10, g11⟩
    · obtain ⟨g1, g2, g3, g4⟩ := hlinks l
      exact ⟨g1, g2, g3, g4⟩
  · intro s c _ hf hc ho hr ht
    have hexec := congrArg (Host.Outcome.next (σ := State) (φ := Fault) (ρ := Refusal)) (topologyExpiry_eq hf hc ho hr ht)
    have hpick : (c.opcode == 0x0C) = true := beq_iff_eq.2 ho
    by_cases hm : topologyMet s = true
    · rw [if_pos hm] at hexec
      have hlinks := enforceTopology_links s
      have hrest := enforceTopology_rest s
      have hbind := enforceTopology_bind s
      generalize enforceTopology s = m at hexec hlinks hrest hbind
      have hcm : m.bind.cmds = [c] := by rw [hbind]; exact hc
      have hone := answerCmds_one (pick := fun c => c.opcode == 0x0C) hcm hr hpick 0x00 0 0
      have hkeep := answerCmds_rest m (fun c => c.opcode == 0x0C) 0x00 0 0
      have htopo := answerCmds_topoLoaded m (fun c => c.opcode == 0x0C) 0x00 0 0
      generalize answerCmds m (fun c => c.opcode == 0x0C) 0x00 0 0 = u at hexec hone hkeep htopo
      rw [hbind] at hone htopo
      refine ⟨u, hexec, ?_, ?_, fun _ => ⟨?_, fun l => ?_⟩, fun h => absurd (hm.symm.trans h) (by decide), ?_, ?_, ?_⟩
      · rw [htopo, hm]
      · rw [hone, hm]
        rfl
      · exact (congrArg State.ports hkeep :).trans (congrArg State.ports hrest :)
      · have hl : u.links[l] = requireLink s l := by
          rw [(congrArg State.links hkeep :)]
          exact hlinks l
        rw [hl]
        exact ⟨requireLink_required s l, rfl⟩
      · exact (congrArg State.quires hkeep :).trans (congrArg State.quires hrest :)
      · exact (congrArg State.far hkeep :).trans (congrArg State.far hrest :)
      · exact (congrArg State.clk hkeep :).trans (congrArg State.clk hrest :)
    · rw [if_neg hm] at hexec
      have hm' := Bool.eq_false_iff.2 hm
      have hports := unloadTopology_ports s
      have hlinks := unloadTopology_links s
      have hrest := unloadTopology_rest s
      have hbind := unloadTopology_bind s
      generalize unloadTopology s = m at hexec hports hlinks hrest hbind
      have hcm : m.bind.cmds = [c] := by rw [hbind]; exact hc
      have hone := answerCmds_one (pick := fun c => c.opcode == 0x0C) hcm hr hpick 0x08 0 0
      have hkeep := answerCmds_rest m (fun c => c.opcode == 0x0C) 0x08 0 0
      have htopo := answerCmds_topoLoaded m (fun c => c.opcode == 0x0C) 0x08 0 0
      generalize answerCmds m (fun c => c.opcode == 0x0C) 0x08 0 0 = u at hexec hone hkeep htopo
      rw [hbind] at hone htopo
      refine ⟨u, hexec, ?_, ?_, fun h => absurd h hm, fun _ => ⟨fun p => ?_, fun l => ?_⟩, ?_, ?_, ?_⟩
      · rw [htopo, hm']
      · rw [hone, hm']
        rfl
      · rw [(congrArg State.ports hkeep :), hports]
        rfl
      · rw [(congrArg State.links hkeep :), hlinks]
      · exact (congrArg State.quires hkeep :).trans (congrArg State.quires hrest :)
      · exact (congrArg State.far hkeep :).trans (congrArg State.far hrest :)
      · exact (congrArg State.clk hkeep :).trans (congrArg State.clk hrest :)

end Sys2Proof.Machine
end

section
/-! LINK_CONTROL (R22 R385 R434). -/

namespace Sys2Proof.Machine

/-! ## What an action on a link leaves -/

/-- A state in which one link has changed, and the ports and the trace with it. -/
def LinkActed (b : State) (l : Fin 26) (f : Link → Link) (a : State) : Prop := ∃ ps tr, a = { updLink b l f with ports := ps, trace := tr }

theorem LinkActed.self {b a : State} {l : Fin 26} {f : Link → Link} (h : LinkActed b l f a) : a.links[l] = f b.links[l] := by
  obtain ⟨ps, tr, rfl⟩ := h
  exact updLink_links_self b l f

theorem LinkActed.rest {b a : State} {l : Fin 26} {f : Link → Link} (h : LinkActed b l f a) :
    (∀ y : Fin 26, y ≠ l → a.links[y] = b.links[y]) ∧ a.quires = b.quires ∧ a.far = b.far ∧ a.clk = b.clk := by
  obtain ⟨ps, tr, rfl⟩ := h
  exact ⟨fun y hy => updLink_links_ne b f hy, rfl, rfl, rfl⟩

/-- A link that DISABLE takes down. -/
def Link.disable (k : Link) : Link := { Link.down 3 k with disabled := true }

/-- A link whose DISABLE ends. -/
def Link.enable (k : Link) : Link := { k with disabled := false, state := if k.state = 3 then 0 else k.state }

/-- A link whose ERRORS counters are zeroed. -/
def Link.clearErrors (k : Link) : Link := { k with corrected := 0, replays := 0, uncorr := 0 }

theorem beginTraining_acted {b : State} {l : Fin 26} (h : mayTrain b l = true) : LinkActed b l Link.train (beginTraining b l) :=
  beginTraining_fields h

theorem disableLink_acted (b : State) (l : Fin 26) : LinkActed b l Link.disable (disableLink b l) := by
  obtain ⟨ps, tr, h⟩ := leaveUp_fields b l 3
  refine ⟨ps, tr, ?_⟩
  rw [disableLink, h]
  exact congrArg (fun u : State => { u with ports := ps, trace := tr }) (updLink_updLink b l (Link.down 3) (fun k => { k with disabled := true }))

theorem enableLink_acted {b : State} {l : Fin 26} (hb : bandOn b l = true) (hp : b.clk.present = true) (hh : b.bind.held = false)
    (hs : b.links[l].state ≠ 1) : LinkActed b l (fun k => Link.train (Link.enable k)) (enableLink b l) := by
  have hen : (updLink b l Link.enable).links[l] = Link.enable b.links[l] := updLink_links_self b l _
  have hmay : mayTrain (updLink b l Link.enable) l = true := by
    refine (mayTrain_iff _ _).2 ⟨hb, hp, hh, ?_, ?_⟩
    · rw [hen, Link.enable]
      show (if b.links[l].state = 3 then 0 else b.links[l].state) ≠ 1
      split
      · decide
      · exact hs
    · rw [hen]
      rfl
  obtain ⟨ps, tr, h⟩ := beginTraining_fields hmay
  refine ⟨ps, tr, ?_⟩
  rw [updLink_updLink] at h
  exact h

theorem clearErrors_acted (b : State) (l : Fin 26) : LinkActed b l Link.clearErrors (Sys2Proof.Machine.clearErrors b l) :=
  ⟨b.ports, b.trace, rfl⟩

/-! ## The command -/

section
variable {b : State} {c : Cmd} {l : Fin 26} {busy : Bool} {act : State → Fin 26 → State}

theorem linkAction_none (h : 26 ≤ fld (prm c 0) 0 5) : linkAction busy act b c = .done b 0x03 0 0 :=
  dif_neg (Nat.not_lt.2 h)

theorem linkAction_eq (h : fld (prm c 0) 0 5 = l.val) : linkAction busy act b c =
    if busy && b.links[l].required && computeRuns b then .done b 0x04 0 0 else .done (act b l) 0x00 (linkStatusWord (act b l) l) 0 := by
  have hlt : fld (prm c 0) 0 5 < 26 := h ▸ l.isLt
  have hl : (⟨fld (prm c 0) 0 5, hlt⟩ : Fin 26) = l := Fin.ext h
  rw [linkAction, dif_pos hlt]
  simp only [hl, Reply.fail]

theorem linkAction_busy (h : fld (prm c 0) 0 5 = l.val) (hr : b.links[l].required = true) (hc : computeRuns b = true) :
    linkAction true act b c = .done b 0x04 0 0 := by
  rw [linkAction_eq h, hr, hc]
  rfl

theorem linkAction_acts (h : fld (prm c 0) 0 5 = l.val) (hn : busy = true → b.links[l].required = false ∨ computeRuns b = false) :
    linkAction busy act b c = .done (act b l) 0x00 (linkStatusWord (act b l) l) 0 := by
  rw [linkAction_eq h]
  refine if_neg fun hall => ?_
  simp only [Bool.and_eq_true] at hall
  obtain ⟨⟨hbusy, hreq⟩, hrun⟩ := hall
  rcases hn hbusy with hn | hn
  · exact absurd (hn.symm.trans hreq) (by decide)
  · exact absurd (hn.symm.trans hrun) (by decide)

end

/-- The work by its ACTION. -/
theorem linkControlWork_eq {b : State} {c : Cmd} :
    (fld (prm c 0) 8 2 = 0 → linkControlWork b c = linkAction true beginTraining b c)
      ∧ (fld (prm c 0) 8 2 = 1 → linkControlWork b c = linkAction true disableLink b c)
      ∧ (fld (prm c 0) 8 2 = 2 → linkControlWork b c = linkAction false enableLink b c)
      ∧ (fld (prm c 0) 8 2 = 3 → linkControlWork b c = linkAction false Sys2Proof.Machine.clearErrors b c) := by
  refine ⟨fun h => ?_, fun h => ?_, fun h => ?_, fun h => ?_⟩ <;> simp only [linkControlWork, h]

/-- A link that does not exist. -/
theorem linkControlWork_none {b : State} {c : Cmd} (h : 26 ≤ fld (prm c 0) 0 5) : linkControlWork b c = .done b 0x03 0 0 := by
  obtain ⟨h0, h1, h2, h3⟩ := linkControlWork_eq (b := b) (c := c)
  have hlt : fld (prm c 0) 8 2 < 4 := fld_lt _ _ _
  obtain ha | ha | ha | ha : fld (prm c 0) 8 2 = 0 ∨ fld (prm c 0) 8 2 = 1 ∨ fld (prm c 0) 8 2 = 2 ∨ fld (prm c 0) 8 2 = 3 := by omega
  · rw [h0 ha, linkAction_none h]
  · rw [h1 ha, linkAction_none h]
  · rw [h2 ha, linkAction_none h]
  · rw [h3 ha, linkAction_none h]

/-- Settles O59: LINK_CONTROL by its ACTION. -/
theorem linkControl : Obligations.LinkControl := by
  unfold Obligations.LinkControl
  intro s r k hstarts b c action i
  have hexec : exec i s = .next (commandRow linkControlWork 0x0D r k none false false s) := linkControlInstr_row r k s
  have hdo : ∀ (u : State) (st : Nat) (r0 : Word), linkControlWork b c = .done u st r0 0 → exec i s = .next (Ended s u c st r0 0) :=
    fun u st r0 hw => hexec.trans (congrArg Host.Outcome.next (commandRow_done hstarts rfl hw))
  clear_value b i
  obtain ⟨h0, h1, h2, h3⟩ := linkControlWork_eq (b := b) (c := c)
  refine ⟨fun hnone => hdo b 0x03 0 (linkControlWork_none hnone), ?_⟩
  intro l hl x ends
  have hends : ∀ (a : State) (f : Link → Link) (p : State → Prop), linkControlWork b c = .done a 0x00 (linkStatusWord a l) 0 →
      LinkActed b l f a → p a → ends p := fun a f p hw ha hp => ⟨a, hdo a 0 _ hw, hp, ha.rest⟩
  refine ⟨fun ha hreq hrun => ?_, fun ha hfree hband hpres hheld hdis hst => ?_, fun ha hfree => ?_, fun ha hband hpres hheld hst => ?_,
    fun ha => ?_⟩
  · obtain ha | ha : action = 0 ∨ action = 1 := by omega
    · exact hdo b 0x04 0 ((h0 ha).trans (linkAction_busy hl hreq hrun))
    · exact hdo b 0x04 0 ((h1 ha).trans (linkAction_busy hl hreq hrun))
  · have hact := beginTraining_acted ((mayTrain_iff b l).2 ⟨hband, hpres, hheld, hst, hdis⟩)
    refine hends _ _ _ ((h0 ha).trans (linkAction_acts hl fun _ => hfree)) hact ?_
    rw [hact.self]
    exact ⟨rfl, rfl⟩
  · have hact := disableLink_acted b l
    refine hends _ _ _ ((h1 ha).trans (linkAction_acts hl fun _ => hfree)) hact ?_
    rw [hact.self]
    exact ⟨rfl, rfl, rfl⟩
  · have hact := enableLink_acted hband hpres hheld hst
    refine hends _ _ _ ((h2 ha).trans (linkAction_acts hl fun h => absurd h Bool.false_ne_true)) hact ?_
    rw [hact.self]
    exact ⟨rfl, rfl, rfl⟩
  · have hact := clearErrors_acted b l
    refine hends _ _ _ ((h3 ha).trans (linkAction_acts hl fun h => absurd h Bool.false_ne_true)) hact ?_
    rw [hact.self]
    exact ⟨rfl, rfl⟩

end Sys2Proof.Machine
end

section
/-! How commands end: COMMAND_COMPLETION, TASK_COMPLETION, FENCED_COMMAND_START (R428 R429 R431 R436). -/

namespace Sys2Proof.Machine

/-! ## Bytes just written, of any memory -/

theorem fillBytes_empty (n a b : Nat) : fillBytes n a [] = fillBytes n b [] := by
  cases n <;> rfl

/-- No byte is listed at the first address. -/
theorem fillBytes_skip (n : Nat) {a : Nat} {m : Mem} (h : ∀ c ∈ m, a < c.1) : fillBytes (n + 1) a m = 0 :: fillBytes n (a + 1) m := by
  cases m with
  | nil => exact congrArg (0 :: ·) (fillBytes_empty n 0 (a + 1))
  | cons c cs => exact if_neg (h c List.mem_cons_self).ne'

theorem fillBytes_cellsOf (bs : List Byte) : ∀ (a : Nat) (m : Mem), (∀ c ∈ m, a + bs.length ≤ c.1) →
    fillBytes bs.length a (cellsOf a bs ++ m) = bs := by
  induction bs with
  | nil => exact fun a m _ => rfl
  | cons b bs ih =>
    intro a m h
    have hm : ∀ c ∈ m, a + 1 + bs.length ≤ c.1 := fun c hc => by
      have := h c hc
      rw [List.length_cons] at this
      omega
    rw [cellsOf, List.length_cons]
    by_cases hb : b = 0
    · have habove : ∀ c ∈ cellsOf (a + 1) bs ++ m, a < c.1 := fun c hc => by
        rcases List.mem_append.1 hc with hc | hc
        · have := mem_cellsOf hc
          omega
        · have := hm c hc
          omega
      rw [if_pos hb, fillBytes_skip _ habove, ih _ _ hm, hb]
    · rw [if_neg hb, List.cons_append]
      exact (if_pos rfl).trans (congrArg (b :: ·) (ih _ _ hm))

/-- What has been written is read back, of a memory in any order. -/
theorem readBytes_written (m : Mem) (a : Nat) (bs : List Byte) : readBytes (writeBytes m a bs) a bs.length = bs := by
  have hlow : ∀ c ∈ m.filter (fun c => decide (c.1 < a)), decide (c.1 < a) = true := fun c hc => (List.mem_filter.1 hc).2
  have hhigh : ∀ c ∈ m.filter (fun c => decide (a + bs.length ≤ c.1)), a + bs.length ≤ c.1 := fun c hc =>
    of_decide_eq_true (List.mem_filter.1 hc).2
  have hstop : (cellsOf a bs ++ m.filter (fun c => decide (a + bs.length ≤ c.1))).dropWhile (fun c => decide (c.1 < a)) =
      cellsOf a bs ++ m.filter (fun c => decide (a + bs.length ≤ c.1)) := by
    rw [List.dropWhile_eq_self_iff]
    intro hlen
    rw [decide_eq_true_eq, Nat.not_lt]
    rcases List.mem_append.1 (List.getElem_mem hlen) with hc | hc
    · exact (mem_cellsOf hc).1
    · exact (Nat.le_add_right _ _).trans (hhigh _ hc)
  rw [readBytes, writeBytes, List.append_assoc, List.dropWhile_append_of_pos hlow, hstop]
  exact fillBytes_cellsOf bs a _ hhigh

/-! ## The first command that is done -/

/-- One step of the search for the first of a ring that is done. -/
def doneSooner (r : Fin 4) (b : Option Nat) (c : Cmd) : Option Nat :=
  match c.st with
  | .done _ _ _ => if c.ring == r then some (match b with | none => c.doneAt | some m => min m c.doneAt) else b
  | _ => b

theorem doneSooner_stays {r : Fin 4} {n : Nat} {d : Cmd} (h : d.doneAt > n ∨ d.ring ≠ r) : doneSooner r (some n) d = some n := by
  unfold doneSooner
  split
  · rcases h with h | h
    · simp only [Nat.min_eq_left h.le, ite_self]
    · rw [if_neg (mt beq_iff_eq.1 h)]
  · rfl

theorem foldl_doneSooner_stays {r : Fin 4} {n : Nat} (cs : List Cmd) (h : ∀ d ∈ cs, d.doneAt > n ∨ d.ring ≠ r) :
    cs.foldl (doneSooner r) (some n) = some n := by
  induction cs with
  | nil => rfl
  | cons d cs ih =>
    rw [List.foldl_cons, doneSooner_stays (h d List.mem_cons_self)]
    exact ih fun x hx => h x (List.mem_cons_of_mem _ hx)

/-- The command at the front was done first. -/
theorem firstDone_front {r : Fin 4} {c : Cmd} {rest : List Cmd} {st : Nat} {r0 r1 : Word} (hs : c.st = .done st r0 r1) (hr : c.ring = r)
    (h : ∀ d ∈ rest, d.doneAt > c.doneAt ∨ d.ring ≠ r) : firstDone (c :: rest) r = some 0 := by
  have hfirst : doneSooner r none c = some c.doneAt := by
    simp only [doneSooner, hs, hr, beq_self_eq_true, if_true]
  have hbest : (c :: rest).foldl (doneSooner r) none = some c.doneAt := by
    rw [List.foldl_cons, hfirst, foldl_doneSooner_stays rest h]
  have hdef : firstDone (c :: rest) r = match (c :: rest).foldl (doneSooner r) none with
    | none => none
    | some m => (c :: rest).findIdx? (fun c => c.ring == r && c.doneAt == m && (match c.st with | .done _ _ _ => true | _ => false)) := rfl
  rw [hdef, hbest]
  simp only [List.findIdx?_cons, hr, hs, beq_self_eq_true, Bool.and_self, if_true]

/-! ## The status packet -/

theorem statusBytes_length (s : State) (c : Cmd) (status : Nat) (r0 r1 : Word) : (statusBytes s c status r0 r1).length = 32 := by
  simp only [statusBytes, List.length_append, bytesLE_length]

theorem ringHostRaw_ringPtr (s : State) (n : Fin 32) : (ringHostRaw s n).host.ringPtr = s.host.ringPtr := by
  unfold ringHostRaw sendMsix
  dsimp only
  split
  · rfl
  · split <;> rfl

/-- Where the next status packet of a ring stands. -/
def statusPlace (s : State) (r : Fin 4) : Nat := fld s.host.ringCfg[r] 32 24 * 4096 + 32 * (stsProd s r % ringSize s r)

/-- What the post of a status packet leaves. -/
structure Posted (s u : State) (r : Fin 4) (bs : List Byte) : Prop where
  read : readBytes u.far (statusPlace s r) 32 = bs
  kept : ∀ a, a < statusPlace s r ∨ statusPlace s r + 32 ≤ a → readByte u.far a = readByte s.far a
  prod : fld u.host.ringPtr[r] 32 16 = (stsProd s r + 1) % 65536
  cons : fld u.host.ringPtr[r] 16 16 = fld s.host.ringPtr[r] 16 16
  bell : u.host.dbOut = s.host.dbOut ||| (1#32 <<< r.val)
  rest : { u with far := s.far, host := s.host, out := s.out, w1c := s.w1c } = s

/-- The state with a status packet, its bell not yet rung. -/
def statusWritten (s : State) (r : Fin 4) (bs : List Byte) : State :=
  { s with far := writeBytes s.far (statusPlace s r) bs
           host := { s.host with ringPtr := s.host.ringPtr.set r (setFld s.host.ringPtr[r] 32 16 (stsProd s r + 1)) } }

theorem postStatus_eq (s : State) (c : Cmd) (status : Nat) (r0 r1 : Word) : postStatus s c status r0 r1 =
    ringHostRaw (statusWritten s c.ring (statusBytes s c status r0 r1)) ⟨c.ring.val, by omega⟩ :=
  ringHost_low (c.ring.isLt.trans (by decide)) _

theorem statusWritten_posted (s : State) (r : Fin 4) {bs : List Byte} (h : bs.length = 32) :
    Posted s (ringHostRaw (statusWritten s r bs) ⟨r.val, by omega⟩) r bs := by
  have hrest := ringHostRaw_rest (statusWritten s r bs) ⟨r.val, by omega⟩
  have hptr := ringHostRaw_ringPtr (statusWritten s r bs) ⟨r.val, by omega⟩
  have hbell := ringHostRaw_dbOut (statusWritten s r bs) ⟨r.val, by omega⟩
  generalize ringHostRaw (statusWritten s r bs) ⟨r.val, by omega⟩ = u at hrest hptr hbell ⊢
  have hfar : u.far = writeBytes s.far (statusPlace s r) bs := (congrArg State.far hrest :)
  have hset : u.host.ringPtr[r] = setFld s.host.ringPtr[r] 32 16 (stsProd s r + 1) := by
    rw [hptr]
    exact Vector.getElem_set_self _
  refine ⟨?_, fun a ha => ?_, ?_, ?_, hbell, ?_⟩
  · rw [hfar, ← h]
    exact readBytes_written _ _ _
  · rw [hfar]
    exact readByte_writeBytes_ne _ _ _ _ (by rwa [h])
  · rw [hset]
    exact fld_setFld_same _ _ (by decide)
  · rw [hset, fld_setFld_of_disjoint _ _ (.inr (by decide))]
  · exact (congrArg (fun v : State => { v with far := s.far, host := s.host, out := s.out, w1c := s.w1c }) hrest :)

theorem postStatus_posted (s : State) (c : Cmd) (status : Nat) (r0 r1 : Word) :
    Posted s (postStatus s c status r0 r1) c.ring (statusBytes s c status r0 r1) := by
  rw [postStatus_eq]
  exact statusWritten_posted s c.ring (statusBytes_length s c status r0 r1)

/-! ## COMMAND_COMPLETION -/

/-- The command at the front of those in progress, done first, completes. -/
theorem commandCompletion_front {s : State} {r : Fin 4} {c : Cmd} {rest : List Cmd} {st : Nat} {r0 r1 : Word} (hf : firmwareRuns s = true)
    (hc : s.bind.cmds = c :: rest) (hr : c.ring = r) (hs : c.st = .done st r0 r1) (hm : c.mute = false) (hon : bit s.host.ringCfg[r] 0 = true)
    (hfirst : ∀ d ∈ rest, d.doneAt > c.doneAt ∨ d.ring ≠ r) (htopo : opcodeRuns s 0x0C = false) :
    commandCompletion r s =
      postStatus (completeEffect { s with bind := { s.bind with cmds := rest } } c st) c st r0 r1 := by
  have hn : ¬ (!firmwareRuns s) = true := by rw [hf]; decide
  have hsettle : settleTopology s = s := by
    rw [settleTopology, htopo, Bool.false_and]
    exact if_neg Bool.false_ne_true
  have hon' : ringOn s r = true := hon
  have hget : s.bind.cmds[0]? = some c := by rw [hc]; rfl
  have herase : s.bind.cmds.eraseIdx 0 = rest := by rw [hc]; rfl
  have hplace : firstDone s.bind.cmds r = some 0 := by
    rw [hc]
    exact firstDone_front hs hr hfirst
  rw [commandCompletion, if_neg hn]
  simp only [hsettle, hplace, hget, hs, hm, hon', Bool.false_or, if_true, completeAt, herase, Bool.false_eq_true, if_false]

theorem completeEffect_other {s : State} {c : Cmd} (h : c.opcode ≠ 0x07) (status : Nat) : completeEffect s c status = s := by
  rw [completeEffect]
  exact if_neg fun hc => h (of_decide_eq_true (Bool.and_eq_true_iff.1 hc).1)

/-- A SET_STEP that is COMPLETE makes its table the shadow of every quire. -/
theorem completeEffect_setStep {s : State} {c : Cmd} (h : c.opcode = 0x07) :
    (∀ q : Fin 64, (completeEffect s c 0).quires[q] = { s.quires[q] with
        upd := { s.quires[q].upd with loading := false, shadowValid := true, stepShadow := c.pkt.p[0] } })
      ∧ { completeEffect s c 0 with quires := s.quires } = s := by
  have he : completeEffect s c 0 = stepReady s (prm c 0) := by
    rw [completeEffect, h]
    rfl
  rw [he]
  refine ⟨fun q => updAllQ_quires s _ q, ?_⟩
  simp only [stepReady, updAllQ]

/-! ## TASK_COMPLETION and FENCED_COMMAND_START -/

/-- The start of a ring and a TAG, whose task has ended on every named quire. -/
def Cmd.endsAs (r : Fin 4) (tag : BitVec 16) (d : Cmd) : Bool :=
  d.ring == r && d.pkt.tag == tag && (d.opcode == 0x05 || d.opcode == 0x08) && d.st == .running && d.quires.isEmpty

/-- The start at the front of those in progress, whose task has ended on every named quire. -/
theorem taskCompletion_front {s : State} {r : Fin 4} {c : Cmd} {rest : List Cmd} (hf : firmwareRuns s = true) (hc : s.bind.cmds = c :: rest)
    (hr : c.ring = r) (hs : c.st = .running) (ho : c.opcode = 0x05 ∨ c.opcode = 0x08) (hq : c.quires = [])
    (hother : ∀ d ∈ rest, d.pkt.tag ≠ c.pkt.tag ∨ d.ring ≠ r) :
    taskCompletion r c.pkt.tag s = { s with bind := { s.bind with
      doneCount := s.bind.doneCount + 1, cmds := c.completeRun s.bind.doneCount :: rest } } := by
  have hhit : c.endsAs r c.pkt.tag = true := by
    have hop : (c.opcode == 0x05 || c.opcode == 0x08) = true := by simpa using ho
    simp only [Cmd.endsAs, hr, hop, hs, hq, beq_self_eq_true, Bool.and_self, List.isEmpty_nil]
  have hmiss : ∀ d ∈ rest, d.endsAs r c.pkt.tag = false := fun d hd => by
    rcases hother d hd with h | h
    · simp only [Cmd.endsAs, beq_eq_false_iff_ne.2 h, Bool.and_false, Bool.false_and]
    · simp only [Cmd.endsAs, beq_eq_false_iff_ne.2 h, Bool.false_and]
  have hn : ¬ (!(firmwareRuns s && s.bind.cmds.any (Cmd.endsAs r c.pkt.tag))) = true := by
    rw [hf, hc, List.any_cons, hhit, Bool.true_or]
    decide
  have hmap : s.bind.cmds.map (fun d => if d.endsAs r c.pkt.tag then d.completeRun s.bind.doneCount else d) =
      c.completeRun s.bind.doneCount :: rest := by
    rw [hc, List.map_cons, if_pos hhit]
    refine congrArg (_ :: ·) ((List.map_congr_left fun d hd => ?_).trans (List.map_id rest))
    rw [hmiss d hd]
    rfl
  refine (if_neg hn).trans ?_
  exact congrArg (fun cs => { s with bind := { s.bind with doneCount := s.bind.doneCount + 1, cmds := cs } }) hmap

theorem completeRun_eq {c : Cmd} (hs : c.st = .running) (n : Nat) : c.completeRun n = { c with
    st := .done (if c.faulted then 0x0E else if c.stopped ≠ 0 then 0x0D else 0x00) c.stopped (BitVec.ofNat 64 c.maxLc), doneAt := n } := by
  rw [Cmd.completeRun, Cmd.finish_running hs, endStatus]
  simp only [bne_iff_ne]

/-- Nothing holds back the command at the front, the only one of its ring. -/
theorem freedPlace_front {r : Fin 4} {c : Cmd} {rest : List Cmd} (hr : c.ring = r) (hs : c.st = .waiting) (hother : ∀ d ∈ rest, d.ring ≠ r) :
    freedPlace (c :: rest) r = some 0 := by
  have hself : c.before c = false := by
    have hgap : (c.entry + 65536 - c.entry) % 65536 = 0 := by omega
    simp only [Cmd.before, hgap, bne_self_eq_false, Bool.false_and]
  have hwait : mustWait (c :: rest) c = false := by
    rw [mustWait, List.any_cons, hself, Bool.and_false, Bool.false_and, Bool.false_or]
    refine List.any_eq_false.2 fun d hd => ?_
    rw [beq_eq_false_iff_ne.2 (hr ▸ hother d hd)]
    simp only [Bool.false_and, Bool.false_eq_true, not_false_eq_true]
  rw [freedPlace, List.length_cons, List.range_succ_eq_map, List.find?_cons]
  simp only [List.getElem?_cons_zero, hr, hs, hwait, beq_self_eq_true, Bool.not_false, Bool.and_self]

theorem workOf_nop (b : State) {c : Cmd} (h : c.opcode = 0x00) : workOf b c = .done b 0 0 0 := by
  simp only [workOf, h, nopWork]

/-- A command done at the front of those in progress. -/
theorem placeReply_front (b : State) (c : Cmd) (st : Nat) (r0 r1 : Word) : placeReply 0 c (.done b st r0 r1) =
    { b with bind := { b.bind with
      doneCount := b.bind.doneCount + 1, cmds := { c with st := .done st r0 r1, doneAt := b.bind.doneCount } :: b.bind.cmds } } := rfl

/-- A fenced NOP that nothing holds back, done in the state b that its start finds. -/
theorem fencedStart_nop {s b : State} {r : Fin 4} {c : Cmd} {rest : List Cmd} (hf : firmwareRuns s = true) (hc : s.bind.cmds = c :: rest)
    (hr : c.ring = r) (hs : c.st = .waiting) (hother : ∀ d ∈ rest, d.ring ≠ r) (ho : c.opcode = 0x00)
    (hcheck : firstCheck s 0x00 r c.pkt = none) (hb : catchUp { s with bind := { s.bind with cmds := rest } } = b) :
    fencedStart r s = { b with bind := { b.bind with
      doneCount := b.bind.doneCount + 1, cmds := { c with st := .done 0 0 0, doneAt := b.bind.doneCount } :: b.bind.cmds } } := by
  have hn : ¬ (!firmwareRuns s) = true := by rw [hf]; decide
  have hplace : freedPlace s.bind.cmds r = some 0 := by rw [hc]; exact freedPlace_front hr hs hother
  have hget : s.bind.cmds[0]? = some c := by rw [hc]; rfl
  have herase : s.bind.cmds.eraseIdx 0 = rest := by rw [hc]; rfl
  have hstart : startCmd workOf { s with bind := { s.bind with cmds := rest } } { c with st := .running } = .done b 0 0 0 := by
    have hfirst : firstCheck { s with bind := { s.bind with cmds := rest } } c.opcode c.ring c.pkt = none := by
      rw [ho, hr]
      exact hcheck
    rw [startCmd_works (c := { c with st := .running }) hfirst, hb]
    exact workOf_nop b ho
  rw [fencedStart, if_neg hn]
  simp only [hplace, hget, herase, hstart]
  exact placeReply_front b { c with st := .running } 0 0 0

/-- Settles O60: status packets, starts that end, and a command that nothing holds back any longer. -/
theorem commandsEnd : Obligations.CommandsEnd := by
  unfold Obligations.CommandsEnd
  intro s r c rest hf hc hr
  refine ⟨?_, ?_, ?_, ?_⟩
  · intro st r0 r1 hs hm hon hop hfirst htopo size prod at'
    have hrun := commandCompletion_front hf hc hr hs hm hon hfirst htopo
    rw [completeEffect_other hop] at hrun
    have hpost := postStatus_posted { s with bind := { s.bind with cmds := rest } } c st r0 r1
    have hexec : exec (.commandCompletion r) s = .next (commandCompletion r s) := rfl
    rw [hexec, hrun]
    generalize postStatus { s with bind := { s.bind with cmds := rest } } c st r0 r1 = u at hpost ⊢
    subst hr
    obtain ⟨hread, hkept, hprod, hcons, hbell, hrest⟩ := hpost
    exact ⟨u, rfl, (congrArg State.bind hrest :), hread, hkept, hprod, hcons, hbell, (congrArg State.quires hrest :),
      (congrArg State.clk hrest :), (congrArg State.ports hrest :)⟩
  · intro r0 r1 hs hm hon hop hnone
    subst hnone
    have htopo : opcodeRuns s 0x0C = false := by
      simp only [opcodeRuns, hc, List.any_cons, List.any_nil, hop, Bool.or_false]
      rfl
    have hrun := commandCompletion_front hf hc hr hs hm hon (fun d hd => absurd hd List.not_mem_nil) htopo
    obtain ⟨hq, hkeep⟩ := completeEffect_setStep (s := { s with bind := { s.bind with cmds := [] } }) hop
    have hexec : exec (.commandCompletion r) s = .next (commandCompletion r s) := rfl
    rw [hexec, hrun]
    generalize completeEffect { s with bind := { s.bind with cmds := [] } } c 0 = m at hq hkeep ⊢
    have hpost := postStatus_posted m c 0 r0 r1
    generalize postStatus m c 0 r0 r1 = u at hpost ⊢
    have hbind : m.bind.cmds = [] := (congrArg (fun v : State => v.bind.cmds) hkeep :)
    refine ⟨u, rfl, (congrArg (fun v : State => v.bind.cmds) hpost.rest :).trans hbind, fun q => ?_⟩
    rw [(congrArg State.quires hpost.rest :)]
    exact hq q
  · intro hs ho hq hother
    have hrun := taskCompletion_front hf hc hr hs ho hq hother
    rw [completeRun_eq hs] at hrun
    exact congrArg Host.Outcome.next hrun
  · intro hs hother ho hcheck b
    have hrun := fencedStart_nop (b := b) hf hc hr hs hother ho hcheck rfl
    exact congrArg Host.Outcome.next hrun

end Sys2Proof.Machine
end
